-- ==== Sys2Proof/Word.lean ====
section
/-! DEFINITION. The words and index types of the EB-412: bytes, gantry time, condition-flag sets, and
the numbers of tracks, cameras, strobe banks, channels, slots and table banks (00_scope 5.3). -/

namespace Sys2Proof

/-- A byte of the gantry link, of a table entry or of frame memory. -/
abbrev Byte := BitVec 8

/-- Gantry time: a 48-bit count of microseconds (R1). Its sums wrap modulo 2^48 (R2). -/
abbrev GantryTime := BitVec 48

/-- A set of the eight camera condition flags, one bit each (06 section 6.1, 9.11.2): bit 0
SENSOR_WARM, WINDOW_SOILED, SHUTTER_SLOW, GAIN_LIMIT, LOW_LIGHT, SENSOR_FAULT, OVERRUN, bit 7
SELF_TEST_FAIL. -/
abbrev FlagSet := BitVec 8

/-- Tracks 1 to 4, held as 0 to 3. -/
abbrev Track := Fin 4

/-- Camera lines 0 to 11. -/
abbrev Camera := Fin 12

/-- Strobe banks 0 to 3. -/
abbrev StrobeNo := Fin 4

/-- Readout channels 0 to 3. -/
abbrev ChannelNo := Fin 4

/-- Holding slots 0 and 1 of a camera. -/
abbrev SlotNo := Fin 2

/-- Table banks 0 and 1. -/
abbrev BankNo := Fin 2

end Sys2Proof
end

