-- ==== Sys2Proof/Config.lean ====
section
/-! DEFINITION. What one machine fixes and the spec leaves open: the byte an unwritten place of frame
memory reads as, and the free values of a memory word with three or more wrong bits. -/

namespace Sys2Proof

/-- The result of checking one word of frame memory against its code as it is read (R141). -/
inductive WordCheck where
  /-- The word reads as stored and as written. -/
  | correct
  /-- One wrong bit: the word is delivered corrected. -/
  | corrected
  /-- Two wrong bits: the word is delivered as stored, the chunk is damaged. -/
  | damaged
deriving DecidableEq, Repr, Inhabited

namespace Config

/-- What a byte of frame memory that nothing has written reads as. DESIGN CHOICE (log 7): R151 leaves
the contents after power-up undefined and says that they are never read. -/
def unwrittenByte : Byte := 0

/-- Free value (log 9): the check's result for a word with three or more wrong bits, of which R140 and
R141 say nothing, by the word as stored and the places of its wrong bits. -/
opaque manyWrongCheck : List Byte → List Nat → WordCheck

/-- Free value (log 9): the eight bytes delivered for a word with three or more wrong bits when the
check takes it for a word with one. -/
opaque manyWrongByte : List Byte → List Nat → Nat → Byte

end Config

end Sys2Proof
end

