-- ==== Sys2Proof/Syntax.lean ====
section
/-! DEFINITION. The commands of the EB-412: one constructor of `Instr` for each row of
spec/opcode_table.json, with the row's operands, and the requests of the gantry link (9.3.2) that 23 of
the rows carry. -/

namespace Sys2Proof

/-- A side of the gantry. -/
inductive Side where
  | sideA | sideB
deriving DecidableEq, Repr, Inhabited

/-- The four detector heads of a track (00_scope section 2), in the order of 9.11.2's head field. -/
inductive Head where
  | a1 | a2 | b2 | b1
deriving DecidableEq, Repr, Inhabited

/-- The health level of a detector-head input (R9). -/
inductive Health where
  | healthy | fault
deriving DecidableEq, Repr, Inhabited

/-- The health of the four heads of one track (R9). -/
structure HeadHealth where
  a1 : Health
  a2 : Health
  b2 : Health
  b1 : Health
deriving DecidableEq, Repr, Inhabited

/-- All four heads healthy. -/
def HeadHealth.allHealthy : HeadHealth := ⟨.healthy, .healthy, .healthy, .healthy⟩

/-- The camera order that an answer belongs to: the line, and the elapsed count at which the order was issued
on it (log 28). -/
structure OrderRef where
  camera : Camera
  issued : Nat
deriving DecidableEq, Repr

/-- The outcome a camera reports in the closing status of a READ (R113). -/
inductive ReadOutcome where
  | done | failed
deriving DecidableEq, Repr, Inhabited

/-- A request of the supervisor with its arguments as the frame carries them (9.3.2, 9.11.2). A byte
argument may name nothing: its owner's rule refuses it. -/
inductive Request where
  | timeSet (time : BitVec 64)
  | timeGet
  | trackArm (track : Byte)
  | trackDisarm (track : Byte)
  | trackStatus (track : Byte)
  | listPassages
  | readPassage (passage : BitVec 16) (part : Byte) (start : Byte)
  | releasePassage (passage : BitVec 16)
  | abandonPassage (passage : BitVec 16)
  | cameraService (line : Byte) (onOff : Byte)
  | cameraSense (line : Byte)
  | memoryStatus (page : BitVec 16)
  | pageRetire (page : BitVec 16) (spare : BitVec 16)
  | pageRestore (page : BitVec 16)
  | tableBegin
  | tablePut (kind : Byte) (index : Byte) (contents : List Byte)
  | tableGet (bank : Byte) (kind : Byte) (index : Byte)
  | tableEnd
  | tableAbort
  | bankStatus
  | identify
  | restart
  | fetchImage (passage : BitVec 16) (shot : Byte) (first : Byte) (count : Byte)
deriving DecidableEq, Repr, Inhabited

/-- The commands: one constructor for each row of spec/opcode_table.json, in the table's order. A
request row is that request's good frame arriving with its tag (log 4). -/
inductive Instr where
  /-- POWER_UP (R199), with the levels on the 16 detector-head inputs (R25). -/
  | powerUp (levels : Vector HeadHealth 4)
  /-- CROSSING (R8): a head reports a wheel at the present microsecond. -/
  | crossing (track : Track) (head : Head)
  /-- HEAD_FAULT (R9): a head input goes to FAULT. -/
  | headFault (track : Track) (head : Head)
  /-- HEAD_HEALTHY (R10): a head input goes to healthy. -/
  | headHealthy (track : Track) (head : Head)
  /-- QUIET_TIMER_EXPIRY (R12). -/
  | quietTimerExpiry (track : Track)
  /-- PAIR_TIMEOUT (R16) of the oldest entry of a side's pair FIFO. -/
  | pairTimeout (track : Track) (side : Side)
  /-- TAIL_WINDOW_EXPIRY (R34) of a passage. -/
  | tailWindowExpiry (passage : Nat)
  /-- EXIT_TIMEOUT (R38) of a passage. -/
  | exitTimeout (passage : Nat)
  /-- SHOT_FREEZE (R85) of a shot. -/
  | shotFreeze (passage : Nat) (shot : Nat)
  /-- SHOT_DUE (R86): the first due shot in queue order is handed to the fire unit. -/
  | shotDue
  /-- BUSY_INTERVAL_END (R93) of a camera line. -/
  | busyIntervalEnd (camera : Camera)
  /-- TRIGGER_PULSE_END (R104) of a camera line. -/
  | triggerPulseEnd (camera : Camera)
  /-- FLASH_PULSE_END (R105) of a strobe bank. -/
  | flashPulseEnd (strobe : StrobeNo)
  /-- RECHARGE_EXPIRY (R101) of a strobe bank. -/
  | rechargeExpiry (strobe : StrobeNo)
  /-- READ_COMPLETE (R113): the answer to this READ (log 28), with the
  segment's bytes, its segment check and the closing status. -/
  | readComplete (order : OrderRef) (segment : List Byte) (check : BitVec 32)
      (outcome : ReadOutcome) (flags : FlagSet)
  /-- DISCARD_COMPLETE (R114): the answer to this DISCARD (log 28). -/
  | discardComplete (order : OrderRef)
  /-- SENSE_COMPLETE (R115): the answer to this SENSE (log 28), with the flags
  and, for each slot, whether the camera holds an exposure. -/
  | senseComplete (order : OrderRef) (flags : FlagSet) (slot0 : Bool) (slot1 : Bool)
  /-- RELINK_COMPLETE (R115): the answer to this RELINK (log 28). -/
  | relinkComplete (order : OrderRef)
  /-- ORDER_TIMEOUT (R116) of the outstanding order of a camera line. -/
  | orderTimeout (camera : Camera)
  /-- LINE_LOCK_GAINED (R198). -/
  | lineLockGained
  /-- LINE_LOCK_LOST (R196). -/
  | lineLockLost
  /-- FRAME_RECEIVED (R179): bytes that reach the receiver, ending a frame or not. -/
  | frameReceived (bytes : List Byte)
  /-- FRAME_SENT (R185): the last byte of the frame has been sent. `wrong` names the bits of frame
  memory that have gone wrong since the last one (byte address × 8 + bit; R141, log 8). -/
  | frameSent (wrong : List Nat)
  /-- TIME_SET (R4). -/
  | timeSet (tag : Byte) (time : BitVec 64)
  /-- TIME_GET (R5). -/
  | timeGet (tag : Byte)
  /-- TRACK_ARM (R22). -/
  | trackArm (tag : Byte) (track : Byte)
  /-- TRACK_DISARM (R23). -/
  | trackDisarm (tag : Byte) (track : Byte)
  /-- TRACK_STATUS (R24). -/
  | trackStatus (tag : Byte) (track : Byte)
  /-- LIST_PASSAGES (R48). -/
  | listPassages (tag : Byte)
  /-- READ_PASSAGE (R49 to R52). -/
  | readPassage (tag : Byte) (passage : BitVec 16) (part : Byte) (start : Byte)
  /-- RELEASE_PASSAGE (R46). -/
  | releasePassage (tag : Byte) (passage : BitVec 16)
  /-- ABANDON_PASSAGE (R42). -/
  | abandonPassage (tag : Byte) (passage : BitVec 16)
  /-- CAMERA_SERVICE (R128). -/
  | cameraService (tag : Byte) (line : Byte) (onOff : Byte)
  /-- CAMERA_SENSE (R130). -/
  | cameraSense (tag : Byte) (line : Byte)
  /-- MEMORY_STATUS (R148); page 0xFFFF names none. -/
  | memoryStatus (tag : Byte) (page : BitVec 16)
  /-- PAGE_RETIRE (R145, R146); spare 0xFFFF names none. -/
  | pageRetire (tag : Byte) (page : BitVec 16) (spare : BitVec 16)
  /-- PAGE_RESTORE (R147). -/
  | pageRestore (tag : Byte) (page : BitVec 16)
  /-- TABLE_BEGIN (R159, R160). -/
  | tableBegin (tag : Byte)
  /-- TABLE_PUT (R161, R200). -/
  | tablePut (tag : Byte) (kind : Byte) (index : Byte) (contents : List Byte)
  /-- TABLE_GET (R162). -/
  | tableGet (tag : Byte) (bank : Byte) (kind : Byte) (index : Byte)
  /-- TABLE_END (R163, R166 to R170). -/
  | tableEnd (tag : Byte)
  /-- TABLE_ABORT (R164). -/
  | tableAbort (tag : Byte)
  /-- BANK_STATUS (R165). -/
  | bankStatus (tag : Byte)
  /-- IDENTIFY (R189). -/
  | identify (tag : Byte)
  /-- RESTART (R190). -/
  | restart (tag : Byte)
  /-- FETCH_IMAGE (R192, R193). -/
  | fetchImage (tag : Byte) (passage : BitVec 16) (shot : Byte) (first : Byte) (count : Byte)
deriving DecidableEq, Repr, Inhabited

end Sys2Proof
end

