-- ==== Sys2Proof/Machine/State.lean ====
section
/-! DEFINITION. The state of the EB-412, block by block as 00_scope section 3 lists them, the reasons a
step can stop, and the state after power-up (R199 and the power-up rule of each chapter). -/

namespace Sys2Proof.Machine

/-! ## Gantry clock (chapter 1) -/

/-- The gantry clock (R1) and the elapsed count on which intervals are timed (R3). -/
structure Clock where
  time : GantryTime
  epoch : Byte
  /-- Microseconds since power-up, untouched by TIME SET (R3; width and start: log 10). -/
  elapsed : Nat
deriving DecidableEq, Repr, Inhabited

/-! ## Track monitors (chapter 1) -/

/-- Track states (section 1.4), in the table's order. -/
inductive TrackState where
  | disarmed | ignoring | vacant | occupied | headFault
deriving DecidableEq, Repr, Inhabited

/-- One entry of a pair FIFO: the outer crossing's time and the elapsed count at which its pair timeout
ends (R15, R16). -/
structure PairEntry where
  time : GantryTime
  ends : Nat
deriving DecidableEq, Repr, Inhabited

/-- One track monitor. `quiet` is the elapsed count at which the quiet timer ends, while it runs. -/
structure TrackMonitor where
  state : TrackState
  health : HeadHealth
  fifoA : List PairEntry
  fifoB : List PairEntry
  quiet : Option Nat
deriving DecidableEq, Repr, Inhabited

/-! ## Passages, vehicles and shots (chapters 2, 3 and 4) -/

/-- Direction of travel: AB enters at side A (00_scope section 2). -/
inductive Direction where
  | ab | ba
deriving DecidableEq, Repr, Inhabited

/-- Passage states (section 2.1.2), in the table's order. -/
inductive PassageState where
  | approaching | tail | clear | stopping | filed | abandoned
deriving DecidableEq, Repr, Inhabited

/-- Why a passage was abandoned (R42, R43). -/
inductive AbandonReason where
  | ordered | headFault
deriving DecidableEq, Repr, Inhabited

/-- Fault codes (section 2.3), in the table's order. -/
inductive FaultCode where
  | headOrder | pairOverflow | pairTimeout | speedImplausible | axleOverflow | vehicleOverflow
  | unmatchedAxles | shotLimit | tailReopened | exitShort | exitExcess | headFault | cameraLoss
  | imagePartial
deriving DecidableEq, Repr, Inhabited

/-- The first fault of a passage with the references it carried (R30). -/
structure FirstFault where
  code : FaultCode
  axle : Option Nat
  shot : Option Nat
deriving DecidableEq, Repr, Inhabited

/-- The fault record (R30): the first fault and the count of further ones. -/
structure FaultRecord where
  first : Option FirstFault
  further : Nat
deriving DecidableEq, Repr, Inhabited

/-- The spacing kept with a stored axle (R19): absent for axle 0; unknown (read as 0 with the flag set)
when either axle has no speed; otherwise millimetres. -/
inductive Spacing where
  | absent
  | unknown
  | known (mm : Int)
deriving DecidableEq, Repr, Inhabited

/-- A stored axle (R31): its inner-head time, speed, speed-valid flag and spacing. -/
structure Axle where
  time : GantryTime
  speed : Option Nat
  speedValid : Bool
  spacing : Spacing
deriving DecidableEq, Repr, Inhabited

/-- The way a vehicle runs (R54). -/
inductive Orientation where
  | forward | reversed
deriving DecidableEq, Repr, Inhabited

/-- The kind of a vehicle entry (section 3.2). -/
inductive VehicleKind where
  | matched (profile : Fin 64) (orientation : Orientation) (pantographs : Nat)
  | stretch
  | remainder
deriving DecidableEq, Repr, Inhabited

/-- A vehicle-list entry (section 3.2). -/
structure Vehicle where
  kind : VehicleKind
  firstAxle : Nat
  axleCount : Nat
deriving DecidableEq, Repr, Inhabited

/-- A shot, named by its passage's number and its own number. -/
structure ShotRef where
  passage : Nat
  shot : Nat
deriving DecidableEq, Repr, Inhabited

/-- Shot states (section 4.2), in the table's order; `partialStored` is PARTIAL. -/
inductive ShotState where
  | planned | frozen | held | reading | stored | partialStored | failed | lost | late | skipped
  | cancelled
deriving DecidableEq, Repr, Inhabited

/-- Skip reasons (section 4.2), in the table's order. -/
inductive SkipReason where
  | speed | queueFull | camera | cameraBusy | cameraFull | noSpace | noFlash
deriving DecidableEq, Repr, Inhabited

/-- Lighting of a fired shot (section 4.2). -/
inductive Lighting where
  | lit | unlit | none
deriving DecidableEq, Repr, Inhabited

/-- What a timing records in a shot (R75, R80): the timing axle, its speed and band, and the copies of
the band's exposure entry. -/
structure Timing where
  axle : Nat
  speed : Nat
  band : Nat
  captureAllowed : Bool
  exposureWidth : Nat
  flashWidth : Nat
deriving DecidableEq, Repr, Inhabited

/-- Flash sharing of a joining shot (R99): the opener and the flash start. -/
structure FlashSharing where
  opener : ShotRef
  start : GantryTime
deriving DecidableEq, Repr, Inhabited

/-- A shot record (section 4.2). Its number is its place in the passage's shot list. -/
structure Shot where
  vehicle : Nat
  pantograph : Nat
  camera : Camera
  referenceAxle : Nat
  position : Int
  state : ShotState
  skipReason : Option SkipReason
  plannedFire : Option GantryTime
  timing : Option Timing
  actualFire : Option GantryTime
  lateness : Nat
  lighting : Option Lighting
  sharing : Option FlashSharing
  flags : FlagSet
  flagged : Bool
  segmentsExpected : Nat
  segmentsStored : Nat
  corrected : Nat
  damaged : List Nat
  pages : List Nat
deriving DecidableEq, Repr, Inhabited

/-- A passage record (section 2.1.1) with its two timers: `tailWindow` and `exitTimeout` hold the
elapsed count at which they end, while they run. -/
structure Passage where
  number : Nat
  track : Track
  direction : Direction
  bank : BankNo
  epoch : Byte
  state : PassageState
  openTime : GantryTime
  tailTime : Option GantryTime
  clearTime : Option GantryTime
  settle : Option (GantryTime × Byte)
  axleTotal : Nat
  speed : Option Nat
  axles : List Axle
  exitCount : Nat
  cursor : Nat
  vehicles : List Vehicle
  stretchOpen : Bool
  shots : List Shot
  faults : FaultRecord
  abandonReason : Option AbandonReason
  tailWindow : Option Nat
  exitTimeout : Option Nat
deriving DecidableEq, Repr, Inhabited

/-- The passage table: the live passages in opening order (log 11) and the next-number counter (R28). -/
structure PassageTable where
  passages : List Passage
  nextNumber : Nat
deriving DecidableEq, Repr, Inhabited

/-! ## Fire unit and strobe control (chapter 5) -/

/-- What the fire unit holds of a camera line (section 5.1): the elapsed count at which the running
trigger pulse ends (the output is high while there is one), and at which the busy interval ends. -/
structure FireLine where
  trigger : Option Nat
  busy : Option Nat
deriving DecidableEq, Repr, Inhabited

/-- The latest flash of a strobe bank (section 5.1): its start, its opener, the window length in force
and the elapsed count at the start, on which the window is timed. -/
structure Flash where
  start : GantryTime
  opener : ShotRef
  window : Nat
  since : Nat
deriving DecidableEq, Repr, Inhabited

/-- A strobe bank: RECHARGING while `recharge` holds the elapsed count at which the recharge ends, READY
otherwise; its output is high while `output` holds the end of a flash pulse. -/
structure StrobeBank where
  recharge : Option Nat
  flash : Option Flash
  output : Option Nat
deriving DecidableEq, Repr, Inhabited

/-! ## Camera lines and readout (chapter 6) -/

/-- Camera line states (section 6.2), in the table's order. -/
inductive LineState where
  | unlinked | linking | inService | outOfService | down
deriving DecidableEq, Repr, Inhabited

/-- Causes of a change of line state (R131), in the table's order. -/
inductive LineCause where
  | commit | service | linked | disableFlag | readFailure | noAnswer
deriving DecidableEq, Repr, Inhabited

/-- An order to a camera (R112 to R115). -/
inductive Order where
  | relink
  | discard (slot : SlotNo)
  | read (slot : SlotNo) (segment : Nat) (release : Bool)
  | sense
deriving DecidableEq, Repr, Inhabited

/-- A pending READ (R113). -/
structure ReadOrder where
  slot : SlotNo
  segment : Nat
  release : Bool
deriving DecidableEq, Repr, Inhabited

/-- The pending orders of a line: at most one RELINK, one DISCARD per slot, one READ and one SENSE
(R112). -/
structure PendingOrders where
  relink : Bool
  discard0 : Bool
  discard1 : Bool
  read : Option ReadOrder
  sense : Bool
deriving DecidableEq, Repr, Inhabited

/-- The order in flight, the elapsed count at which it times out (R116), and whether a RESTART has made
its result ignored (R133). -/
structure Outstanding where
  order : Order
  ends : Nat
  ignored : Bool
deriving DecidableEq, Repr, Inhabited

/-- How far the linking sequence of a line in LINKING has come (R127). -/
inductive LinkStep where
  /-- Waiting for the order that was outstanding on entry. -/
  | waiting (byRestart : Bool)
  /-- The restart sequence's DISCARD of this slot. -/
  | restartDiscard (slot : SlotNo)
  | relink
  | sense
  /-- After the SENSE: its flags, and the slots whose DISCARDs have not completed. -/
  | clearing (flags : FlagSet) (slot0 : Bool) (slot1 : Bool)
deriving DecidableEq, Repr, Inhabited

/-- One camera line controller. -/
structure CameraLine where
  state : LineState
  slots : Vector (Option ShotRef) 2
  orders : PendingOrders
  outstanding : Option Outstanding
  accumulated : FlagSet
  disableMark : Bool
  linking : Option LinkStep
deriving DecidableEq, Repr, Inhabited

/-- Steps of a readout channel (section 6.4). -/
inductive ChannelStep where
  | read | relink | final | discard | stopping
deriving DecidableEq, Repr, Inhabited

/-- What a busy readout channel holds (section 6.4). -/
structure ChannelWork where
  shot : ShotRef
  segment : Nat
  attempts : Nat
  step : ChannelStep
  page : Option Nat
deriving DecidableEq, Repr, Inhabited

/-- The readout controller: the readout queue in hand-over order and the four channels. -/
structure Readout where
  queue : List ShotRef
  channels : Vector (Option ChannelWork) 4
deriving DecidableEq, Repr, Inhabited

/-! ## Frame memory (chapter 7) -/

/-- The owner of a held page (section 7.2). -/
structure PageOwner where
  shot : ShotRef
  segment : Nat
deriving DecidableEq, Repr, Inhabited

/-- The condition of a logical page (section 7.2). -/
inductive PageCondition where
  | free
  | held (owner : PageOwner)
  | outOfService
deriving DecidableEq, Repr, Inhabited

/-- A pending-retire mark (R142): its preferred spare, and whether a fetch or a PAGE RETIRE set it. -/
structure RetireMark where
  preferred : Option Nat
  byFetch : Bool
  byRequest : Bool
deriving DecidableEq, Repr, Inhabited

/-- A logical page: its condition, the spare it maps to (none: its own page, or no page at all when
OUT_OF_SERVICE; R135), and its mark. -/
structure Page where
  condition : PageCondition
  spare : Option Nat
  mark : Option RetireMark
deriving DecidableEq, Repr, Inhabited

/-- The reservation remainder of a fired shot (R137). -/
structure Reservation where
  shot : ShotRef
  pages : Nat
deriving DecidableEq, Repr, Inhabited

/-- Frame memory. `pages` lists the logical pages that are not free on their own page without a mark,
by rising number; `cells` lists the bytes of the physical pages that differ from
`Config.unwrittenByte`, by rising address (page × 65,536 + byte); `wrong` lists the stored bits that
differ from the word as written (byte address × 8 + bit). -/
structure FrameMemory where
  pages : List (Nat × Page)
  badSpares : List Nat
  reservations : List Reservation
  low : Bool
  cells : List Host.Cell
  wrong : List Nat
deriving DecidableEq, Repr, Inhabited

/-! ## Table banks and transaction unit (chapter 8; entry layouts 9.11.3) -/

/-- A track entry (section 1.2). -/
structure TrackEntry where
  fitted : Bool
  headSpacingA : BitVec 16
  headSpacingB : BitVec 16
  dA : BitVec 32
  dB : BitVec 32
  tailDistance : BitVec 32
  exitTimeout : BitVec 32
  quietTime : BitVec 32
  lateTolerance : BitVec 16
deriving DecidableEq, Repr, Inhabited

/-- A camera entry (section 6.1). Enumerated fields are held as written (R200). -/
structure CameraEntry where
  fitted : Bool
  track : Byte
  planeOffset : BitVec 32
  directionFilter : Byte
  strobe : Byte
  segments : Byte
  deadTime : BitVec 16
  retries : Bool
  careSet : FlagSet
  disableSet : FlagSet
deriving DecidableEq, Repr, Inhabited

/-- A strobe-bank entry (section 5.4). -/
structure StrobeEntry where
  fitted : Bool
  recharge : BitVec 32
  window : BitVec 16
  policy : Byte
deriving DecidableEq, Repr, Inhabited

/-- The global entry (section 7.8). -/
structure GlobalEntry where
  threshold : BitVec 16
deriving DecidableEq, Repr, Inhabited

/-- One pantograph of a profile (section 3.1): its offset and its camera set, bit n for line n. -/
structure PantographEntry where
  offset : BitVec 32
  cameras : BitVec 16
deriving DecidableEq, Repr, Inhabited

/-- A profile entry (section 3.1). -/
structure ProfileEntry where
  present : Bool
  axleCount : Byte
  spacings : Vector (BitVec 16) 7
  tolerance : BitVec 16
  gapMin : BitVec 16
  gapMax : BitVec 16
  symmetric : Bool
  pantographCount : Byte
  pantographs : Vector PantographEntry 3
deriving DecidableEq, Repr, Inhabited

/-- An exposure entry (section 4.1). -/
structure ExposureEntry where
  captureAllowed : Bool
  exposureWidth : BitVec 16
  flashWidth : BitVec 16
  trim : BitVec 16
deriving DecidableEq, Repr, Inhabited

/-- The contents of a table bank (section 8.1): 341 entries. -/
structure Bank where
  tracks : Vector TrackEntry 4
  cameras : Vector CameraEntry 12
  strobes : Vector StrobeEntry 4
  global : GlobalEntry
  profiles : Vector ProfileEntry 64
  exposures : Vector ExposureEntry 256
deriving DecidableEq, Repr, Inhabited

/-- Bank states (section 8.2), in the table's order. -/
inductive BankState where
  | empty | active | staging | draining | standby
deriving DecidableEq, Repr, Inhabited

/-- A table bank: its state and its contents. -/
structure BankSlot where
  state : BankState
  contents : Bank
deriving DecidableEq, Repr, Inhabited

/-- The transaction unit: both banks, the depth, and the restore image (none when the part was COLD at
the BEGIN, R159). -/
structure Banks where
  slots : Vector BankSlot 2
  depth : Nat
  restoreImage : Option Bank
deriving DecidableEq, Repr, Inhabited

/-! ## Gantry link controller (chapter 9) -/

/-- Numbers of a passage's shots in each terminal state (R41). -/
structure TerminalCounts where
  stored : Nat
  partialStored : Nat
  failed : Nat
  lost : Nat
  late : Nat
  skipped : Nat
  cancelled : Nat
deriving DecidableEq, Repr, Inhabited

/-- Why a page was retired (R144). -/
inductive RetireCause where
  | fetch | request
deriving DecidableEq, Repr, Inhabited

/-- The notices with their subject fields (R188), in the order of their codes 0 to 13. -/
inductive Notice where
  | passageOpened (number : Nat) (track : Track) (direction : Direction) (bank : BankNo)
      (openTime : GantryTime)
  | passageFiled (number : Nat) (track : Track) (direction : Direction) (axleTotal : Nat)
      (storedAxles : Nat) (vehicles : Nat) (counts : TerminalCounts) (fault : Option FaultCode)
  | passageAbandoned (number : Nat) (track : Track) (direction : Direction)
      (reason : Option AbandonReason) (counts : TerminalCounts) (fault : Option FaultCode)
  | openRefused (track : Track) (direction : Direction) (time : GantryTime)
  | strayCrossing (track : Track) (head : Head) (time : GantryTime)
  | trackState (track : Track) (before : TrackState) (after : TrackState) (health : HeadHealth)
  | cameraState (camera : Camera) (before : LineState) (after : LineState) (cause : LineCause)
      (flags : FlagSet) (lost : Nat)
  | bankDrained (bank : BankNo) (bound : Nat) (busy : Nat)
  | memoryLow (free : Nat) (reserved : Nat) (threshold : Nat)
  | memoryNormal (free : Nat) (reserved : Nat) (threshold : Nat)
  | pageRetired (page : Nat) (before : Nat) (after : Option Nat) (madeBad : Option Nat)
      (cause : RetireCause) (badSpares : Nat)
  | sparesExhausted (page : Nat) (outOfService : Nat) (free : Nat)
  | linkUp (ahead : Nat)
  | restarted (discarded : Nat) (transactionOpen : Bool) (activeBank : Option BankNo)
deriving DecidableEq, Repr, Inhabited

/-- A queued notice with the clock at its queuing and the dropped indication (R187, R188). -/
structure QueuedNotice where
  notice : Notice
  epoch : Byte
  time : GantryTime
  dropped : Bool
deriving DecidableEq, Repr, Inhabited

/-- Outcomes of a request (R184), in the order of their codes. -/
inductive ResponseOutcome where
  | done | refused | failed
deriving DecidableEq, Repr, Inhabited

/-- Detail codes (section 9.3.1). -/
inductive Detail where
  | ok | badLength | unknownRequest | queueFull | badArgument | noSuchPassage | noSuchShot
  | notSettled | alreadySettled | notReady | noTransaction | depthLimit | bankDraining | tableInvalid
  | noTables | notFitted | trackOccupied | tracksBusy | cameraDown | cameraNoAnswer | notASpare
  | spareInUse | spareBad | selfSpare | noSpare | pageHeld
deriving DecidableEq, Repr, Inhabited

/-- A response in the reply list (R184): `immediate` tells an immediate refusal (R180) from a response
of request processing (R182). -/
structure Response where
  tag : Byte
  code : BitVec 16
  outcome : ResponseOutcome
  detail : Detail
  data : List Byte
  immediate : Bool
deriving DecidableEq, Repr, Inhabited

/-- A request waiting in the request queue (R182). -/
structure Waiting where
  tag : Byte
  request : Request
deriving DecidableEq, Repr, Inhabited

/-- A FETCH IMAGE in progress (R193, R194): the stream's first segment and number of segments, the
sequence number of its next chunk, and whether its DONE response has been sent. -/
structure Fetch where
  tag : Byte
  shot : ShotRef
  first : Nat
  segments : Nat
  next : Nat
  responseSent : Bool
deriving DecidableEq, Repr, Inhabited

/-- The requests that stay in progress after they are taken (R183). -/
inductive InProgress where
  | cameraSense (tag : Byte) (camera : Camera)
  | restart (transactionOpen : Bool)
  | fetch (stream : Fetch)
deriving DecidableEq, Repr, Inhabited

/-- One chunk of an image stream as it is sent (R194, 9.11.1). -/
structure ImageChunk where
  tag : Byte
  shot : ShotRef
  segment : Nat
  chunk : Nat
  sequence : Nat
  final : Bool
  damaged : Bool
  data : List Byte
deriving DecidableEq, Repr, Inhabited

/-- The frame being sent: the oldest response, the oldest notice, or a chunk (R185, R186). -/
inductive Sending where
  | response
  | notice
  | chunk (image : ImageChunk)
deriving DecidableEq, Repr, Inhabited

/-- Frame kinds (section 9.2) that the part sends. -/
inductive SentKind where
  | response | notice | imageData
deriving DecidableEq, Repr, Inhabited

/-- The gantry link controller. `received` holds the bytes of a frame that is not complete. -/
structure Link where
  up : Bool
  received : List Byte
  requests : List Waiting
  inProgress : Option InProgress
  replies : List Response
  notices : List QueuedNotice
  dropped : Bool
  sending : Option Sending
  lastSent : Option SentKind
deriving DecidableEq, Repr, Inhabited

/-! ## The part -/

/-- The whole part, and the commands that wait, first in first out (`pending`, the model's own). -/
structure State where
  clock : Clock
  tracks : Vector TrackMonitor 4
  table : PassageTable
  shotQueue : List ShotRef
  fire : Vector FireLine 12
  strobes : Vector StrobeBank 4
  lines : Vector CameraLine 12
  readout : Readout
  memory : FrameMemory
  banks : Banks
  link : Link
  pending : List Instr
deriving DecidableEq, Repr, Inhabited

/-- Why the part stops with a fault. -/
inductive Fault where
  /-- FRAME_SENT names a wrong bit outside the 8,320 physical pages of frame memory, an address R135
  says does not exist. Raised by `execFrameSent` only. Safe: no real event is such a command. -/
  | outsideFrameMemory (bit : Nat)
deriving DecidableEq, Repr

/-- Why a command has no meaning. -/
inductive Refusal where
  /-- The command's meaning has not been written. Raised by arms of `exec` only. Safe. -/
  | notModelled (mnemonic : String)
deriving DecidableEq, Repr

/-! ## Power-up -/

/-- The empty contents of each entry kind (section 8.1): every byte 0. -/
def TrackEntry.empty : TrackEntry := ⟨false, 0, 0, 0, 0, 0, 0, 0, 0⟩
def CameraEntry.empty : CameraEntry := ⟨false, 0, 0, 0, 0, 0, 0, false, 0, 0⟩
def StrobeEntry.empty : StrobeEntry := ⟨false, 0, 0, 0⟩
def GlobalEntry.empty : GlobalEntry := ⟨0⟩
def PantographEntry.empty : PantographEntry := ⟨0, 0⟩
def ProfileEntry.empty : ProfileEntry :=
  ⟨false, 0, Vector.replicate 7 0, 0, 0, 0, false, 0, Vector.replicate 3 .empty⟩
def ExposureEntry.empty : ExposureEntry := ⟨false, 0, 0, 0⟩

/-- The empty bank (section 8.1, R154). -/
def Bank.empty : Bank where
  tracks := Vector.replicate 4 .empty
  cameras := Vector.replicate 12 .empty
  strobes := Vector.replicate 4 .empty
  global := .empty
  profiles := Vector.replicate 64 .empty
  exposures := Vector.replicate 256 .empty

/-- R1: gantry time 0 and epoch 0; the elapsed count starts at 0 (log 10). -/
def Clock.powerUp : Clock := ⟨0, 0, 0⟩

/-- R25: DISARMED, FIFOs empty, quiet timer stopped, health from the input levels. -/
def TrackMonitor.powerUp (levels : HeadHealth) : TrackMonitor := ⟨.disarmed, levels, [], [], none⟩

/-- R53: no passages, counter 1. -/
def PassageTable.powerUp : PassageTable := ⟨[], 1⟩

/-- R107: outputs low, no busy interval. -/
def FireLine.powerUp : FireLine := ⟨none, none⟩

/-- R107: READY, no last flash, output low. -/
def StrobeBank.powerUp : StrobeBank := ⟨none, none, none⟩

/-- No order pending. -/
def PendingOrders.none : PendingOrders := ⟨false, false, false, .none, false⟩

/-- R132: UNLINKED, slots free, no order, no flags, no mark. -/
def CameraLine.powerUp : CameraLine :=
  ⟨.unlinked, Vector.replicate 2 none, .none, none, 0, false, none⟩

/-- R132: readout queue empty, channels idle. -/
def Readout.powerUp : Readout := ⟨[], Vector.replicate 4 none⟩

/-- R151: every page free on its own page, no bad spare, no reservation, normal; nothing written. -/
def FrameMemory.powerUp : FrameMemory := ⟨[], [], [], false, [], []⟩

/-- R176: both banks EMPTY and empty, depth 0, no restore image. -/
def Banks.powerUp : Banks := ⟨Vector.replicate 2 ⟨.empty, .empty⟩, 0, none⟩

/-- R199: link DOWN, every queue empty, nothing in progress, dropped flag clear. -/
def Link.powerUp : Link := ⟨false, [], [], none, [], [], false, none, none⟩

/-- The part after power-up with these levels on its head inputs, and these commands waiting. -/
def State.powerUp (levels : Vector HeadHealth 4) (pending : List Instr) : State where
  clock := .powerUp
  tracks := #v[.powerUp levels[(0 : Track)], .powerUp levels[(1 : Track)],
    .powerUp levels[(2 : Track)], .powerUp levels[(3 : Track)]]
  table := .powerUp
  shotQueue := []
  fire := Vector.replicate 12 .powerUp
  strobes := Vector.replicate 4 .powerUp
  lines := Vector.replicate 12 .powerUp
  readout := .powerUp
  memory := .powerUp
  banks := .powerUp
  link := .powerUp
  pending := pending

/-- The part right after power-up, every head input healthy (DESIGN CHOICE, log 6), no command
waiting. -/
def State.reset : State := State.powerUp (Vector.replicate 4 .allHealthy) []

end Sys2Proof.Machine
end

