-- ==== Sys2Proof/Machine/Ops.lean ====
section
/-! DEFINITION. The shared operations: gantry-time arithmetic (R2), access to the blocks of the state,
notices (R186), the fault record (R30), passages and shots, banks and their counts (R158), track states
(R20, R21), and placing responses (R184). -/

namespace Sys2Proof

/-- The health of one head. -/
def HeadHealth.get (h : HeadHealth) : Head → Health
  | .a1 => h.a1
  | .a2 => h.a2
  | .b2 => h.b2
  | .b1 => h.b1

/-- The health of one head changed. -/
def HeadHealth.set (h : HeadHealth) (head : Head) (v : Health) : HeadHealth :=
  match head with
  | .a1 => { h with a1 := v }
  | .a2 => { h with a2 := v }
  | .b2 => { h with b2 := v }
  | .b1 => { h with b1 := v }

/-- Request codes (9.3.2). -/
def Request.code : Request → BitVec 16
  | .timeSet _ => 0x0101
  | .timeGet => 0x0102
  | .trackArm _ => 0x0103
  | .trackDisarm _ => 0x0104
  | .trackStatus _ => 0x0105
  | .listPassages => 0x0201
  | .readPassage _ _ _ => 0x0202
  | .releasePassage _ => 0x0203
  | .abandonPassage _ => 0x0204
  | .cameraService _ _ => 0x0601
  | .cameraSense _ => 0x0602
  | .memoryStatus _ => 0x0701
  | .pageRetire _ _ => 0x0702
  | .pageRestore _ => 0x0703
  | .tableBegin => 0x0801
  | .tablePut _ _ _ => 0x0802
  | .tableGet _ _ _ => 0x0803
  | .tableEnd => 0x0804
  | .tableAbort => 0x0805
  | .bankStatus => 0x0806
  | .identify => 0x0901
  | .restart => 0x0902
  | .fetchImage _ _ _ _ => 0x0903

end Sys2Proof

namespace Sys2Proof.Machine

/-! ## Arithmetic (00_scope 5.1, R2) -/

/-- The difference of two gantry times, read as a signed value from −2^47 to 2^47 − 1 (R2). -/
def timeDiff (a b : GantryTime) : Int := (a - b).toInt

/-- A gantry time moved by a signed number of microseconds, modulo 2^48 (R2). -/
def timePlus (t : GantryTime) (d : Int) : GantryTime := t + BitVec.ofInt 48 d

/-- One gantry time is earlier than another (R2). -/
def earlier (a b : GantryTime) : Bool := timeDiff a b < 0

/-- One more, stopping at a limit. -/
def countUp (limit n : Nat) : Nat := min limit (n + 1)

/-- A value inserted into a rising list without repeats. -/
def insertRising : Nat → List Nat → List Nat
  | n, [] => [n]
  | n, k :: rest => if n < k then n :: k :: rest else if n = k then k :: rest else k :: insertRising n rest

/-- A vector with one place replaced. -/
def setAt {α : Type} {n : Nat} (v : Vector α n) (i : Fin n) (x : α) : Vector α n := v.set i.val x i.isLt

/-! ## Timing constants (R15, R33, R81, R116) -/

/-- The pair timeout (R15). -/
def pairTimeoutLength : Nat := 2000000

/-- The freeze window (R81). -/
def freezeWindow : Int := 2000

/-- The timeout of an order (R116). -/
def orderTimeoutLength : Order → Nat
  | .relink => 500000
  | .discard _ => 50000
  | .read _ _ _ => 50000
  | .sense => 50000

/-! ## Blocks of the state -/

/-- The gantry time now. -/
def State.now (s : State) : GantryTime := s.clock.time

/-- An interval of this length started now ends at this elapsed count (R3). -/
def State.after (s : State) (length : Nat) : Nat := s.clock.elapsed + length

/-- A running interval has come to its end (R3). -/
def State.ended (s : State) (ends : Option Nat) : Bool :=
  match ends with
  | some e => e ≤ s.clock.elapsed
  | none => false

def State.setTrack (s : State) (t : Track) (m : TrackMonitor) : State :=
  { s with tracks := setAt s.tracks t m }

def State.setLine (s : State) (c : Camera) (l : CameraLine) : State :=
  { s with lines := setAt s.lines c l }

def State.setFire (s : State) (c : Camera) (f : FireLine) : State :=
  { s with fire := setAt s.fire c f }

def State.setStrobe (s : State) (b : StrobeNo) (k : StrobeBank) : State :=
  { s with strobes := setAt s.strobes b k }

def State.setChannel (s : State) (ch : ChannelNo) (w : Option ChannelWork) : State :=
  { s with readout := { s.readout with channels := setAt s.readout.channels ch w } }

/-! ## Notices (R186, R188) -/

/-- Places of the notice queue (R186). -/
def noticePlaces : Nat := 64

/-- A notice joins the end of the queue with the clock of its event, or is discarded and sets the
dropped flag when 64 are queued (R186, R188). -/
def State.queueNotice (s : State) (n : Notice) : State :=
  if s.link.notices.length < noticePlaces then
    { s with link := { s.link with
        notices := s.link.notices ++ [⟨n, s.clock.epoch, s.clock.time, false⟩] } }
  else { s with link := { s.link with dropped := true } }

/-- Several notices queued in order. -/
def State.queueNotices (s : State) (ns : List Notice) : State := ns.foldl State.queueNotice s

/-! ## Passages and shots -/

/-- The live passage with this number (R47). -/
def State.passage? (s : State) (n : Nat) : Option Passage :=
  s.table.passages.find? (fun p => p.number == n)

/-- The record with this number changed in a list of passages; a number names one passage (R28). -/
def changePassage (n : Nat) (f : Passage → Passage) : List Passage → List Passage
  | [] => []
  | p :: ps => if p.number = n then f p :: ps else p :: changePassage n f ps

/-- The passage with this number changed, its place in the opening order kept. -/
def State.modifyPassage (s : State) (n : Nat) (f : Passage → Passage) : State :=
  { s with table := { s.table with passages := changePassage n f s.table.passages } }

/-- The shot a reference names. -/
def State.shot? (s : State) (r : ShotRef) : Option Shot :=
  match s.passage? r.passage with
  | some p => p.shots[r.shot]?
  | none => none

/-- A shot record changed. -/
def Passage.modifyShot (p : Passage) (k : Nat) (f : Shot → Shot) : Passage :=
  { p with shots := p.shots.modify k f }

/-- The shot a reference names, changed. -/
def State.modifyShot (s : State) (r : ShotRef) (f : Shot → Shot) : State :=
  s.modifyPassage r.passage (fun p => p.modifyShot r.shot f)

/-- The passage of a track in APPROACHING or TAIL (R26). -/
def State.openPassageOn (s : State) (t : Track) : Option Passage :=
  s.table.passages.find? (fun p => p.track = t && (p.state = .approaching || p.state = .tail))

/-- A terminal shot state (00_scope section 6). -/
def ShotState.terminal : ShotState → Bool
  | .planned | .frozen | .held | .reading => false
  | .stored | .partialStored | .failed | .lost | .late | .skipped | .cancelled => true

/-! ## Fault record (R30) -/

/-- A fault recorded: the first is kept whole, each further one counted up to 255 (R30). -/
def FaultRecord.record (f : FaultRecord) (code : FaultCode) (axle shot : Option Nat) : FaultRecord :=
  match f.first with
  | none => { f with first := some ⟨code, axle, shot⟩ }
  | some _ => { f with further := countUp 255 f.further }

/-- A fault recorded in a passage record (R30). -/
def Passage.recordFault (p : Passage) (code : FaultCode) (axle shot : Option Nat) : Passage :=
  { p with faults := p.faults.record code axle shot }

/-- A fault recorded in a live passage (R30). -/
def State.recordFault (s : State) (n : Nat) (code : FaultCode) (axle shot : Option Nat) : State :=
  s.modifyPassage n (fun p => p.recordFault code axle shot)

/-! ## Table banks (chapter 8) -/

/-- The ACTIVE bank, or none while the part is COLD (R156, R157). -/
def Banks.active? (b : Banks) : Option BankNo :=
  if b.slots[(0 : BankNo)].state = .active then some 0
  else if b.slots[(1 : BankNo)].state = .active then some 1 else none

/-- The bank being staged (R156). -/
def Banks.staging? (b : Banks) : Option BankNo :=
  if b.slots[(0 : BankNo)].state = .staging then some 0
  else if b.slots[(1 : BankNo)].state = .staging then some 1 else none

/-- A bank's state changed. -/
def State.setBankState (s : State) (b : BankNo) (st : BankState) : State :=
  { s with banks := { s.banks with
      slots := setAt s.banks.slots b { s.banks.slots[b] with state := st } } }

/-- The contents of a bank. -/
def State.bank (s : State) (b : BankNo) : Bank := s.banks.slots[b].contents

/-- The contents of the ACTIVE bank, or none while COLD. -/
def State.activeContents (s : State) : Option Bank :=
  match s.banks.active? with
  | some b => some (s.bank b)
  | none => none

/-- Bound count of a bank (R158): its live passages. -/
def State.boundCount (s : State) (b : BankNo) : Nat :=
  s.table.passages.countP (fun p => p.bank = b)

/-- Open count of a bank (R158): its passages in APPROACHING or TAIL. -/
def State.openCount (s : State) (b : BankNo) : Nat :=
  s.table.passages.countP (fun p => p.bank = b && (p.state = .approaching || p.state = .tail))

/-- Busy count of a bank (R158): its passages in CLEAR or STOPPING. -/
def State.busyCount (s : State) (b : BankNo) : Nat :=
  s.table.passages.countP (fun p => p.bank = b && (p.state = .clear || p.state = .stopping))

/-! ## Track monitors (chapter 1) -/

/-- The quiet time of a track in the ACTIVE bank (R7); 0 while COLD, when no track is armed (log 19). -/
def State.quietTime (s : State) (t : Track) : Nat :=
  match s.activeContents with
  | some b => b.tracks[t].quietTime.toNat
  | none => 0

/-- A track goes to a state, and a change queues TRACK_STATE (R21). The quiet timer is started on
entering IGNORING and stopped on leaving it (R12), and both pair FIFOs are empty whenever the track is
not OCCUPIED (section 1.6, R20, R23). -/
def State.trackTo (s : State) (t : Track) (new : TrackState) : State :=
  let m := s.tracks[t]
  let m' : TrackMonitor := { m with
    state := new
    fifoA := if new = .occupied then m.fifoA else []
    fifoB := if new = .occupied then m.fifoB else []
    quiet := if new = .ignoring then some (s.after (s.quietTime t)) else none }
  if m.state = new then s.setTrack t m'
  else (s.setTrack t m').queueNotice (.trackState t m.state new m.health)

/-! ## Responses (R184) -/

/-- A response joins the end of the reply list (R181). -/
def State.placeResponse (s : State) (r : Response) : State :=
  { s with link := { s.link with replies := s.link.replies ++ [r] } }

/-- An owner's answer to a request (R184). -/
structure Answer where
  outcome : ResponseOutcome
  detail : Detail
  data : List Byte
deriving DecidableEq, Repr, Inhabited

/-- DONE OK with the owner's data. -/
def Answer.done (data : List Byte) : Answer := ⟨.done, .ok, data⟩

/-- REFUSED with a detail code, and no data. -/
def Answer.refused (d : Detail) : Answer := ⟨.refused, d, []⟩

/-- The answer of a taken request placed in the reply list (R182). -/
def State.placeAnswer (s : State) (tag : Byte) (code : BitVec 16) (a : Answer) : State :=
  s.placeResponse ⟨tag, code, a.outcome, a.detail, a.data, false⟩

end Sys2Proof.Machine
end

