-- ==== Sys2Proof/Machine/FrameMemory.lean ====
section
/-! DEFINITION. Frame memory (chapter 7): the canonical sparse form of the page table and of the bytes,
the counts (R136), reservations (R137 to R139), freeing and retirement (R143, R144), writing a segment
(R140), reading a chunk with its check (R141), and the memory-low comparison (R150). -/

namespace Sys2Proof.Machine

/-! ## The canonical sparse form -/

/-- What a sparse list holds at a key; an unlisted key holds the default. -/
def sparseGet {α : Type} (dflt : α) (l : List (Nat × α)) (k : Nat) : α := (l.lookup k).getD dflt

/-- A value put at a key. The keys stay rising, and the default is not listed. -/
def sparsePut {α : Type} [DecidableEq α] (dflt : α) : List (Nat × α) → Nat → α → List (Nat × α)
  | [], k, v => if v = dflt then [] else [(k, v)]
  | (j, w) :: rest, k, v =>
    if k < j then (if v = dflt then (j, w) :: rest else (k, v) :: (j, w) :: rest)
    else if k = j then (if v = dflt then rest else (k, v) :: rest)
    else (j, w) :: sparsePut dflt rest k v

/-- The canonical form: keys strictly rising, no entry equal to the default. -/
abbrev sparseWf {α : Type} [DecidableEq α] (dflt : α) (l : List (Nat × α)) : Prop :=
  l.Pairwise (fun a b => a.1 < b.1) ∧ ∀ e ∈ l, e.2 ≠ dflt

/-- Values listed from a key on, without the default. -/
def sparseListed {α : Type} [DecidableEq α] (dflt : α) : Nat → List α → List (Nat × α)
  | _, [] => []
  | k, v :: vs => if v = dflt then sparseListed dflt (k + 1) vs else (k, v) :: sparseListed dflt (k + 1) vs

/-- Values written to the keys from a base on. -/
def sparseWrite {α : Type} [DecidableEq α] (dflt : α) (l : List (Nat × α)) (base : Nat) (vs : List α) :
    List (Nat × α) :=
  let top := base + vs.length
  l.filter (fun e => e.1 < base) ++ sparseListed dflt base vs ++ l.filter (fun e => top ≤ e.1)

/-! ## Logical pages and spares (R135) -/

/-- Logical pages (00_scope 5.3). -/
def logicalPages : Nat := 8192

/-- Spare pages. -/
def sparePages : Nat := 128

/-- Bytes of a page (chapter 7). -/
def pageBytes : Nat := 65536

/-- A page after power-up (R151): free, on its own page, no mark. -/
def Page.initial : Page := ⟨.free, none, none⟩

/-- A logical page. -/
def FrameMemory.page (m : FrameMemory) (k : Nat) : Page := sparseGet Page.initial m.pages k

/-- A logical page changed. -/
def FrameMemory.setPage (m : FrameMemory) (k : Nat) (p : Page) : FrameMemory :=
  { m with pages := sparsePut Page.initial m.pages k p }

/-- The physical page that logical page k maps to, or none (R135). -/
def Page.physical (p : Page) (k : Nat) : Option Nat :=
  match p.condition with
  | .outOfService => none
  | .free | .held _ => some (p.spare.getD k)

/-- The page holds a segment or is being written. -/
def Page.isHeld (p : Page) : Bool :=
  match p.condition with
  | .held _ => true
  | .free | .outOfService => false

/-- Held count (R136). -/
def FrameMemory.heldCount (m : FrameMemory) : Nat := m.pages.countP (fun e => e.2.isHeld)

/-- OUT_OF_SERVICE count (R136). -/
def FrameMemory.outOfServiceCount (m : FrameMemory) : Nat :=
  m.pages.countP (fun e => e.2.condition = .outOfService)

/-- Free count (R136): free, held and OUT_OF_SERVICE pages together number 8,192. -/
def FrameMemory.freeCount (m : FrameMemory) : Nat :=
  logicalPages - (m.heldCount + m.outOfServiceCount)

/-- Reserved count (R136): the sum of the reservation remainders. -/
def FrameMemory.reservedCount (m : FrameMemory) : Nat := (m.reservations.map Reservation.pages).sum

/-- Number of pages with a pending-retire mark (R142). -/
def FrameMemory.markedCount (m : FrameMemory) : Nat := m.pages.countP (fun e => e.2.mark.isSome)

/-- A number that is a spare's (R135). -/
def isSpare (n : Nat) : Bool := logicalPages ≤ n && n < logicalPages + sparePages

/-- The spare is assigned to some logical page (R135). -/
def FrameMemory.assigned (m : FrameMemory) (sp : Nat) : Bool :=
  m.pages.any (fun e => e.2.spare = some sp)

/-- The spare is bad (R135). -/
def FrameMemory.bad (m : FrameMemory) (sp : Nat) : Bool := m.badSpares.contains sp

/-- The spare is usable: unassigned, and so not bad (R135). -/
def FrameMemory.usable (m : FrameMemory) (sp : Nat) : Bool :=
  isSpare sp && !m.bad sp && !m.assigned sp

/-- The lowest usable spare (R135). -/
def FrameMemory.lowestUsable (m : FrameMemory) : Option Nat :=
  ((List.range sparePages).map (logicalPages + ·)).find? m.usable

/-- Number of spares assigned, unassigned and bad (R148). -/
def FrameMemory.spareCounts (m : FrameMemory) : Nat × Nat × Nat :=
  let spares := (List.range sparePages).map (logicalPages + ·)
  let bad := spares.countP m.bad
  let assigned := spares.countP (fun sp => m.assigned sp && !m.bad sp)
  (assigned, sparePages - (assigned + bad), bad)

/-- The first free number at or after n, by the page table. -/
def lowestFreeFrom : List (Nat × Page) → Nat → Nat
  | [], n => n
  | (k, p) :: rest, n =>
    if n < k then n else if p.condition = .free then k else lowestFreeFrom rest (k + 1)

/-- The lowest-numbered free logical page (R138), or none when no page is free. -/
def FrameMemory.lowestFree (m : FrameMemory) : Option Nat :=
  let k := lowestFreeFrom m.pages 0
  if k < logicalPages then some k else none

/-! ## Reservation (R137 to R139) -/

/-- n pages can be reserved (R95, R137). -/
def FrameMemory.canReserve (m : FrameMemory) (n : Nat) : Bool :=
  m.reservedCount + n ≤ m.freeCount

/-- n pages reserved for a shot (R137). -/
def FrameMemory.reserve (m : FrameMemory) (r : ShotRef) (n : Nat) : FrameMemory :=
  { m with reservations := m.reservations ++ [⟨r, n⟩] }

/-- The reservation remainder of a shot (R137). -/
def FrameMemory.remainder (m : FrameMemory) (r : ShotRef) : Nat :=
  match m.reservations.find? (fun e => e.shot == r) with
  | some e => e.pages
  | none => 0

/-- A shot's remainder falls by one; the controller keeps it until it reaches 0 (R137, R138). -/
def FrameMemory.lowerRemainder (m : FrameMemory) (r : ShotRef) : FrameMemory :=
  let lowered := m.reservations.map (fun e => if e.shot = r then { e with pages := e.pages - 1 } else e)
  { m with reservations := lowered.filter (fun e => e.pages != 0) }

/-- The lowest free page drawn for a segment of a shot (R138). -/
def FrameMemory.draw (m : FrameMemory) (r : ShotRef) (segment : Nat) : FrameMemory × Option Nat :=
  match m.lowestFree with
  | some k =>
    ((m.setPage k { m.page k with condition := .held ⟨r, segment⟩ }).lowerRemainder r, some k)
  | none => (m, none)

/-- The unused reservation of a shot returned (R139). -/
def FrameMemory.returnReservation (m : FrameMemory) (r : ShotRef) : FrameMemory :=
  { m with reservations := m.reservations.filter (fun e => e.shot != r) }

/-! ## Freeing and retirement (R143, R144) -/

/-- The cause a marked page is retired with (R144). -/
def RetireMark.cause (k : RetireMark) : RetireCause :=
  if k.byFetch && k.byRequest then (if k.preferred.isSome then .request else .fetch)
  else if k.byRequest then .request else .fetch

/-- A page retired (R144): its spare, if it is on one, becomes bad; it is mapped to its preferred spare
when usable, else to the lowest usable spare; with none it goes OUT_OF_SERVICE. The notices are those
R144 queues. -/
def FrameMemory.retire (m : FrameMemory) (k : Nat) (preferred : Option Nat) (cause : RetireCause) :
    FrameMemory × List Notice :=
  let p := m.page k
  let before := p.spare.getD k
  let bad := match p.spare with
    | some sp => insertRising sp m.badSpares
    | none => m.badSpares
  let m1 := { m.setPage k { p with spare := none } with badSpares := bad }
  let target := match preferred with
    | some sp => if m1.usable sp then some sp else m1.lowestUsable
    | none => m1.lowestUsable
  match target with
  | some sp =>
    (m1.setPage k ⟨.free, some sp, none⟩,
      [.pageRetired k before (some sp) p.spare cause bad.length])
  | none =>
    let m2 := m1.setPage k ⟨.outOfService, none, none⟩
    (m2, [.pageRetired k before none p.spare cause bad.length,
      .sparesExhausted k m2.outOfServiceCount m2.freeCount])

/-- A held page freed: its owner is cleared, and a marked page is retired (R143). -/
def FrameMemory.free (m : FrameMemory) (k : Nat) : FrameMemory × List Notice :=
  match (m.page k).mark with
  | none => (m.setPage k { m.page k with condition := .free }, [])
  | some mark => m.retire k mark.preferred mark.cause

/-- A held page marked by a fetch, with no preferred spare; a page already marked is left as it was (R142). -/
def FrameMemory.markByFetch (m : FrameMemory) (k : Nat) : FrameMemory :=
  let p := m.page k
  match p.mark with
  | none => m.setPage k { p with mark := some ⟨none, true, false⟩ }
  | some _ => m

/-- A held page marked by PAGE RETIRE; a spare it names replaces the preferred one (R142). -/
def FrameMemory.markByRequest (m : FrameMemory) (k : Nat) (spare : Option Nat) : FrameMemory :=
  let p := m.page k
  let marked : RetireMark := match p.mark with
    | none => ⟨spare, false, true⟩
    | some mark => { mark with preferred := spare.or mark.preferred, byRequest := true }
  m.setPage k { p with mark := some marked }

/-! ## Bytes, writing and checking (R140, R141) -/

/-- A stored byte of the physical pages. -/
def FrameMemory.byteAt (m : FrameMemory) (a : Nat) : Byte := sparseGet Config.unwrittenByte m.cells a

/-- Bytes written from an address on, with the check codes of the words as written, so that none of
their bits is wrong (R140). -/
def FrameMemory.write (m : FrameMemory) (base : Nat) (bytes : List Byte) : FrameMemory :=
  let top := base + bytes.length
  { m with
    cells := sparseWrite Config.unwrittenByte m.cells base bytes
    wrong := m.wrong.filter (fun b => b < base * 8 || top * 8 ≤ b) }

/-- One stored bit turns over; it is wrong when it now differs from the word as written (log 8). -/
def FrameMemory.upset (m : FrameMemory) (bit : Nat) : FrameMemory :=
  let a := bit / 8
  { m with
    cells := sparsePut Config.unwrittenByte m.cells a (m.byteAt a ^^^ (1 <<< (bit % 8)))
    wrong := if m.wrong.contains bit then m.wrong.erase bit else insertRising bit m.wrong }

/-- Several bits turn over. -/
def FrameMemory.upsets (m : FrameMemory) (bits : List Nat) : FrameMemory := bits.foldl .upset m

/-- The eight stored bytes of a word; words are numbered over the whole frame memory. -/
def FrameMemory.wordBytes (m : FrameMemory) (word : Nat) : List Byte :=
  (List.range 8).map (fun i => m.byteAt (word * 8 + i))

/-- The places of a word's wrong bits, 0 to 63. -/
def FrameMemory.wrongBits (m : FrameMemory) (word : Nat) : List Nat :=
  (m.wrong.filter (fun b => b / 64 = word)).map (· % 64)

/-- One bit of eight bytes turned over. -/
def flipBit (bytes : List Byte) (bit : Nat) : List Byte :=
  bytes.modify (bit / 8) (fun b => b ^^^ (1 <<< (bit % 8)))

/-- A word read with its check (R141): the result and the bytes delivered. Three or more wrong bits
are outside R140's promise: free values (log 9). -/
def FrameMemory.readWord (m : FrameMemory) (word : Nat) : WordCheck × List Byte :=
  let bytes := m.wordBytes word
  match m.wrongBits word with
  | [] => (.correct, bytes)
  | [b] => (.corrected, flipBit bytes b)
  | [_, _] => (.damaged, bytes)
  | wrong =>
    match Config.manyWrongCheck bytes wrong with
    | .correct => (.correct, bytes)
    | .corrected => (.corrected, (List.range 8).map (Config.manyWrongByte bytes wrong))
    | .damaged => (.damaged, bytes)

/-- The part of the bytes and of the wrong bits that lies in n bytes from an address on; what is read
there is the same. -/
def FrameMemory.slice (m : FrameMemory) (base n : Nat) : FrameMemory :=
  { m with
    cells := m.cells.filter (fun e => base ≤ e.1 && e.1 < base + n)
    wrong := m.wrong.filter (fun b => base * 8 ≤ b && b < (base + n) * 8) }

/-- A chunk of 512 words read from a physical page (R141): its bytes, the words corrected, and whether
it is damaged. -/
def FrameMemory.readChunk (m : FrameMemory) (physical chunk : Nat) : List Byte × Nat × Bool :=
  let first := physical * 8192 + chunk * 512
  let part := m.slice (first * 8) 4096
  let words := (List.range 512).map (fun w => (part.slice ((first + w) * 8) 8).readWord (first + w))
  (words.flatMap (·.2), words.countP (fun w => w.1 = .corrected), words.any (fun w => w.1 = .damaged))

/-- The bytes and the page table are in canonical form. -/
abbrev FrameMemory.wf (m : FrameMemory) : Prop :=
  sparseWf Config.unwrittenByte m.cells ∧ sparseWf Page.initial m.pages

/-! ## Frame memory in the part -/

def State.setMemory (s : State) (m : FrameMemory) : State := { s with memory := m }

/-- A held page freed, with the notices of its retirement (R143, R144). -/
def State.freePage (s : State) (k : Nat) : State :=
  (s.setMemory (s.memory.free k).1).queueNotices (s.memory.free k).2

/-- Held pages freed in order (R143). -/
def State.freePages (s : State) (ks : List Nat) : State := ks.foldl State.freePage s

/-- The threshold in force (R149): the ACTIVE bank's, or 0 while COLD. -/
def State.threshold (s : State) : Nat :=
  match s.activeContents with
  | some b => b.global.threshold.toNat
  | none => 0

/-- The memory-low comparison at the end of an event (R150). -/
def State.compareLow (s : State) : State :=
  let free := s.memory.freeCount
  if s.memory.low = false ∧ free < s.threshold then
    (s.setMemory { s.memory with low := true }).queueNotice
      (.memoryLow free s.memory.reservedCount s.threshold)
  else if s.memory.low = true ∧ s.threshold ≤ free then
    (s.setMemory { s.memory with low := false }).queueNotice
      (.memoryNormal free s.memory.reservedCount s.threshold)
  else s

end Sys2Proof.Machine
end

