-- ==== Sys2Proof/Machine/Operands.lean ====
section
/-! DEFINITION. The operand forms of the gantry link: little-endian fields (00_scope 5.5), table-entry
addresses and encodings (9.11.3, R200), and the bodies of request frames (9.3.2, 9.11.1, R180). -/

namespace Sys2Proof.Machine

/-! ## Little-endian fields -/

/-- A number in n bytes, least significant first. -/
def leBytes : Nat → Nat → List Byte
  | 0, _ => []
  | n + 1, v => BitVec.ofNat 8 v :: leBytes n (v / 256)

/-- The number that bytes spell, least significant first. -/
def leNat : List Byte → Nat
  | [] => 0
  | b :: bs => b.toNat + 256 * leNat bs

/-- A field of n bytes at an offset. -/
def fieldAt (bytes : List Byte) (offset n w : Nat) : BitVec w :=
  BitVec.ofNat w (leNat ((bytes.drop offset).take n))

/-- A flag byte that is not 0 is stored as 1 (R200). -/
def flagAt (bytes : List Byte) (offset : Nat) : Bool := leNat ((bytes.drop offset).take 1) != 0

/-- A flag or indication in one byte (9.11.2). -/
def flagByte (b : Bool) : List Byte := [if b then 1 else 0]

/-- Two bytes as a word. -/
def word16 (b0 b1 : Byte) : BitVec 16 := b1 ++ b0

/-- Eight bytes as a word. -/
def word64 (b0 b1 b2 b3 b4 b5 b6 b7 : Byte) : BitVec 64 :=
  b7 ++ b6 ++ b5 ++ b4 ++ b3 ++ b2 ++ b1 ++ b0

/-- The two bytes of a word. -/
def bytes16 (x : BitVec 16) : List Byte := [x.extractLsb' 0 8, x.extractLsb' 8 8]

/-- The eight bytes of a word. -/
def bytes64 (x : BitVec 64) : List Byte :=
  [x.extractLsb' 0 8, x.extractLsb' 8 8, x.extractLsb' 16 8, x.extractLsb' 24 8,
    x.extractLsb' 32 8, x.extractLsb' 40 8, x.extractLsb' 48 8, x.extractLsb' 56 8]

/-! ## Table entries (8.1, 9.11.3) -/

/-- The address of a table entry: its kind and an index in the range of its kind (section 8.1). -/
inductive EntryAddress where
  | track (t : Track)
  | camera (c : Camera)
  | strobe (b : StrobeNo)
  | global
  | profile (k : Fin 64)
  | exposure (k : Fin 256)
deriving DecidableEq, Repr, Inhabited

/-- The entry length of a kind (9.11.3), or none for a kind that is none of the six. -/
def entryLength (kind : Byte) : Option Nat :=
  match kind.toNat with
  | 1 => some 27
  | 2 => some 14
  | 3 => some 8
  | 4 => some 2
  | 5 => some 42
  | 6 => some 7
  | _ => none

/-- The entry a kind and an index name, or none when the kind is unknown or the index outside its range
(R161, R162). -/
def entryAddress (kind index : Byte) : Option EntryAddress :=
  let i := index.toNat
  match kind.toNat with
  | 1 => if h : 1 ≤ i ∧ i ≤ 4 then some (.track ⟨i - 1, by omega⟩) else none
  | 2 => if h : i < 12 then some (.camera ⟨i, h⟩) else none
  | 3 => if h : i < 4 then some (.strobe ⟨i, h⟩) else none
  | 4 => if i = 0 then some .global else none
  | 5 => if h : i < 64 then some (.profile ⟨i, h⟩) else none
  | 6 => if h : i < 256 then some (.exposure ⟨i, h⟩) else none
  | _ => none

def TrackEntry.encode (e : TrackEntry) : List Byte :=
  flagByte e.fitted ++ leBytes 2 e.headSpacingA.toNat ++ leBytes 2 e.headSpacingB.toNat
    ++ leBytes 4 e.dA.toNat ++ leBytes 4 e.dB.toNat ++ leBytes 4 e.tailDistance.toNat
    ++ leBytes 4 e.exitTimeout.toNat ++ leBytes 4 e.quietTime.toNat
    ++ leBytes 2 e.lateTolerance.toNat

def TrackEntry.decode (b : List Byte) : TrackEntry where
  fitted := flagAt b 0
  headSpacingA := fieldAt b 1 2 16
  headSpacingB := fieldAt b 3 2 16
  dA := fieldAt b 5 4 32
  dB := fieldAt b 9 4 32
  tailDistance := fieldAt b 13 4 32
  exitTimeout := fieldAt b 17 4 32
  quietTime := fieldAt b 21 4 32
  lateTolerance := fieldAt b 25 2 16

def CameraEntry.encode (e : CameraEntry) : List Byte :=
  flagByte e.fitted ++ [e.track] ++ leBytes 4 e.planeOffset.toNat
    ++ [e.directionFilter, e.strobe, e.segments] ++ leBytes 2 e.deadTime.toNat
    ++ flagByte e.retries ++ [e.careSet, e.disableSet]

def CameraEntry.decode (b : List Byte) : CameraEntry where
  fitted := flagAt b 0
  track := fieldAt b 1 1 8
  planeOffset := fieldAt b 2 4 32
  directionFilter := fieldAt b 6 1 8
  strobe := fieldAt b 7 1 8
  segments := fieldAt b 8 1 8
  deadTime := fieldAt b 9 2 16
  retries := flagAt b 11
  careSet := fieldAt b 12 1 8
  disableSet := fieldAt b 13 1 8

def StrobeEntry.encode (e : StrobeEntry) : List Byte :=
  flagByte e.fitted ++ leBytes 4 e.recharge.toNat ++ leBytes 2 e.window.toNat ++ [e.policy]

def StrobeEntry.decode (b : List Byte) : StrobeEntry where
  fitted := flagAt b 0
  recharge := fieldAt b 1 4 32
  window := fieldAt b 5 2 16
  policy := fieldAt b 7 1 8

def GlobalEntry.encode (e : GlobalEntry) : List Byte := leBytes 2 e.threshold.toNat

def GlobalEntry.decode (b : List Byte) : GlobalEntry where
  threshold := fieldAt b 0 2 16

def PantographEntry.encode (e : PantographEntry) : List Byte :=
  leBytes 4 e.offset.toNat ++ leBytes 2 e.cameras.toNat

def PantographEntry.decode (b : List Byte) (offset : Nat) : PantographEntry where
  offset := fieldAt b offset 4 32
  cameras := fieldAt b (offset + 4) 2 16

def ProfileEntry.encode (e : ProfileEntry) : List Byte :=
  flagByte e.present ++ [e.axleCount] ++ e.spacings.toList.flatMap (fun x => leBytes 2 x.toNat)
    ++ leBytes 2 e.tolerance.toNat ++ leBytes 2 e.gapMin.toNat ++ leBytes 2 e.gapMax.toNat
    ++ flagByte e.symmetric ++ [e.pantographCount] ++ e.pantographs.toList.flatMap (·.encode)

def ProfileEntry.decode (b : List Byte) : ProfileEntry where
  present := flagAt b 0
  axleCount := fieldAt b 1 1 8
  spacings := #v[fieldAt b 2 2 16, fieldAt b 4 2 16, fieldAt b 6 2 16, fieldAt b 8 2 16,
    fieldAt b 10 2 16, fieldAt b 12 2 16, fieldAt b 14 2 16]
  tolerance := fieldAt b 16 2 16
  gapMin := fieldAt b 18 2 16
  gapMax := fieldAt b 20 2 16
  symmetric := flagAt b 22
  pantographCount := fieldAt b 23 1 8
  pantographs := #v[.decode b 24, .decode b 30, .decode b 36]

def ExposureEntry.encode (e : ExposureEntry) : List Byte :=
  flagByte e.captureAllowed ++ leBytes 2 e.exposureWidth.toNat ++ leBytes 2 e.flashWidth.toNat
    ++ leBytes 2 e.trim.toNat

def ExposureEntry.decode (b : List Byte) : ExposureEntry where
  captureAllowed := flagAt b 0
  exposureWidth := fieldAt b 1 2 16
  flashWidth := fieldAt b 3 2 16
  trim := fieldAt b 5 2 16

/-- The contents of an entry in the encoding of 9.11.3 (R162, R200). -/
def Bank.entryBytes (b : Bank) : EntryAddress → List Byte
  | .track t => b.tracks[t].encode
  | .camera c => b.cameras[c].encode
  | .strobe k => b.strobes[k].encode
  | .global => b.global.encode
  | .profile k => b.profiles[k].encode
  | .exposure k => b.exposures[k].encode

/-- An entry replaced by the contents it is given, field by field (R161, R200). -/
def Bank.putEntry (b : Bank) (a : EntryAddress) (contents : List Byte) : Bank :=
  match a with
  | .track t => { b with tracks := setAt b.tracks t (.decode contents) }
  | .camera c => { b with cameras := setAt b.cameras c (.decode contents) }
  | .strobe k => { b with strobes := setAt b.strobes k (.decode contents) }
  | .global => { b with global := .decode contents }
  | .profile k => { b with profiles := setAt b.profiles k (.decode contents) }
  | .exposure k => { b with exposures := setAt b.exposures k (.decode contents) }

/-! ## Request bodies (9.3.2) -/

/-- The arguments of a request, as its frame carries them. -/
def requestArguments : Request → List Byte
  | .timeSet t => bytes64 t
  | .timeGet => []
  | .trackArm t => [t]
  | .trackDisarm t => [t]
  | .trackStatus t => [t]
  | .listPassages => []
  | .readPassage p part start => bytes16 p ++ [part, start]
  | .releasePassage p => bytes16 p
  | .abandonPassage p => bytes16 p
  | .cameraService l on => [l, on]
  | .cameraSense l => [l]
  | .memoryStatus p => bytes16 p
  | .pageRetire p sp => bytes16 p ++ bytes16 sp
  | .pageRestore p => bytes16 p
  | .tableBegin => []
  | .tablePut kind index contents => kind :: index :: contents
  | .tableGet bank kind index => [bank, kind, index]
  | .tableEnd => []
  | .tableAbort => []
  | .bankStatus => []
  | .identify => []
  | .restart => []
  | .fetchImage p shot first count => bytes16 p ++ [shot, first, count]

/-- The body of a request's frame: its code, then its arguments (9.11.1). -/
def requestBody (r : Request) : List Byte := bytes16 r.code ++ requestArguments r

/-- The contents of a TABLE PUT have the entry length of its kind; a kind that is none of the six passes
with any length (R180). -/
def contentsLengthOk : Request → Bool
  | .tablePut kind _ contents =>
    match entryLength kind with
    | some n => contents.length == n
    | none => true
  | _ => true

/-- The request that a code and argument bytes spell. The outer none: the code names no request; the
inner none: the body's length is not the one the request requires (R180). -/
def requestOf (code : Nat) (args : List Byte) : Option (Option Request) :=
  match code with
  | 0x0101 => some (match args with
    | [a, b, c, d, e, f, g, h] => some (.timeSet (word64 a b c d e f g h))
    | _ => none)
  | 0x0102 => some (match args with | [] => some .timeGet | _ => none)
  | 0x0103 => some (match args with | [t] => some (.trackArm t) | _ => none)
  | 0x0104 => some (match args with | [t] => some (.trackDisarm t) | _ => none)
  | 0x0105 => some (match args with | [t] => some (.trackStatus t) | _ => none)
  | 0x0201 => some (match args with | [] => some .listPassages | _ => none)
  | 0x0202 => some (match args with
    | [a, b, part, start] => some (.readPassage (word16 a b) part start)
    | _ => none)
  | 0x0203 => some (match args with | [a, b] => some (.releasePassage (word16 a b)) | _ => none)
  | 0x0204 => some (match args with | [a, b] => some (.abandonPassage (word16 a b)) | _ => none)
  | 0x0601 => some (match args with | [l, on] => some (.cameraService l on) | _ => none)
  | 0x0602 => some (match args with | [l] => some (.cameraSense l) | _ => none)
  | 0x0701 => some (match args with | [a, b] => some (.memoryStatus (word16 a b)) | _ => none)
  | 0x0702 => some (match args with
    | [a, b, c, d] => some (.pageRetire (word16 a b) (word16 c d))
    | _ => none)
  | 0x0703 => some (match args with | [a, b] => some (.pageRestore (word16 a b)) | _ => none)
  | 0x0801 => some (match args with | [] => some .tableBegin | _ => none)
  | 0x0802 => some (match args with
    | kind :: index :: contents => some (.tablePut kind index contents)
    | _ => none)
  | 0x0803 => some (match args with
    | [bank, kind, index] => some (.tableGet bank kind index)
    | _ => none)
  | 0x0804 => some (match args with | [] => some .tableEnd | _ => none)
  | 0x0805 => some (match args with | [] => some .tableAbort | _ => none)
  | 0x0806 => some (match args with | [] => some .bankStatus | _ => none)
  | 0x0901 => some (match args with | [] => some .identify | _ => none)
  | 0x0902 => some (match args with | [] => some .restart | _ => none)
  | 0x0903 => some (match args with
    | [a, b, shot, first, count] => some (.fetchImage (word16 a b) shot first count)
    | _ => none)
  | _ => none

/-- A request body as the arrival checks of R180 read it: the request, or the code and the detail of the
immediate refusal, with code 0 for a body of fewer than 2 bytes (R184). The queue's room is checked after
this. -/
def parseBody (body : List Byte) : Except (BitVec 16 × Detail) Request :=
  match body with
  | b0 :: b1 :: args =>
    match requestOf (word16 b0 b1).toNat args with
    | none => .error (word16 b0 b1, .unknownRequest)
    | some none => .error (word16 b0 b1, .badLength)
    | some (some r) => if contentsLengthOk r then .ok r else .error (word16 b0 b1, .badLength)
  | _ => .error (0, .badLength)

end Sys2Proof.Machine
end

