-- ==== Sys2Proof/Machine/Flags.lean ====
section
/-! DEFINITION. Every computation over condition flags (R117, R118, R127): the union into a shot's and a
line's flags, the FLAGGED mark, the disable mark and the test at the end of linking. -/

namespace Sys2Proof.Machine

/-- The two sets have a flag in common. -/
def flagsMeet (a b : FlagSet) : Bool := a &&& b != 0

/-- Flags added to a set. -/
def addFlags (a b : FlagSet) : FlagSet := a ||| b

/-- A shot takes the flags of a closing status, and is FLAGGED for good when one of them is in the care
set (R117). -/
def Shot.takeFlags (k : Shot) (flags care : FlagSet) : Shot :=
  { k with flags := addFlags k.flags flags, flagged := k.flagged || flagsMeet flags care }

/-- A line takes flags into its accumulated set (R117). -/
def CameraLine.takeFlags (l : CameraLine) (flags : FlagSet) : CameraLine :=
  { l with accumulated := addFlags l.accumulated flags }

/-- A READ closing status on an IN_SERVICE line sets the disable mark when it carries a flag of the
disable set (R118). -/
def CameraLine.markDisable (l : CameraLine) (flags disable : FlagSet) : CameraLine :=
  if l.state = .inService ∧ flagsMeet flags disable = true then { l with disableMark := true } else l

end Sys2Proof.Machine
end

