-- ==== Sys2Proof/Machine/Passages.lean ====
section
/-! DEFINITION. The passage table's shared operations (chapter 2): the counts of a passage's shots, the
settlement check (R40, R45), a shot becoming terminal (R76), the drain check (R172), the change out of
APPROACHING and TAIL (R39), and the tail window (R33). -/

namespace Sys2Proof.Machine

/-- Number of a passage's shots in a state (R41, R49). -/
def Passage.countShots (p : Passage) (st : ShotState) : Nat := p.shots.countP (fun k => k.state = st)

/-- Numbers of a passage's shots in each terminal state (R41). -/
def Passage.terminalCounts (p : Passage) : TerminalCounts where
  stored := p.countShots .stored
  partialStored := p.countShots .partialStored
  failed := p.countShots .failed
  lost := p.countShots .lost
  late := p.countShots .late
  skipped := p.countShots .skipped
  cancelled := p.countShots .cancelled

/-- Every shot is in a terminal state (R40). -/
def Passage.settled (p : Passage) : Bool := p.shots.all (fun k => k.state.terminal)

/-- Number of shots not yet terminal (R42). -/
def Passage.unsettledShots (p : Passage) : Nat := p.shots.countP (fun k => !k.state.terminal)

/-- The passage is in APPROACHING or TAIL. -/
def Passage.isOpen (p : Passage) : Bool := p.state = .approaching || p.state = .tail

/-- PASSAGE_FILED for a passage (R41). -/
def Passage.filedNotice (p : Passage) : Notice :=
  .passageFiled p.number p.track p.direction p.axleTotal p.axles.length p.vehicles.length
    p.terminalCounts (p.faults.first.map (·.code))

/-- PASSAGE_ABANDONED for a passage (R41). -/
def Passage.abandonedNotice (p : Passage) : Notice :=
  .passageAbandoned p.number p.track p.direction p.abandonReason p.terminalCounts
    (p.faults.first.map (·.code))

/-- A passage enters FILED or ABANDONED with its settle time and settle epoch (R40, R45). -/
def Passage.settleAs (p : Passage) (st : PassageState) (time : GantryTime) (epoch : Byte) : Passage :=
  { p with state := st, settle := some (time, epoch) }

/-- The settlement check of a passage (R40, R45): settled, CLEAR goes to FILED and STOPPING to
ABANDONED, each with its notice. In every other state nothing is checked. -/
def State.checkSettled (s : State) (n : Nat) : State :=
  match s.passage? n with
  | none => s
  | some p =>
    if p.settled then
      match p.state with
      | .clear =>
        (s.modifyPassage n (·.settleAs .filed s.now s.clock.epoch)).queueNotice p.filedNotice
      | .stopping =>
        (s.modifyPassage n (·.settleAs .abandoned s.now s.clock.epoch)).queueNotice p.abandonedNotice
      | .approaching | .tail | .filed | .abandoned => s
    else s

/-- A shot takes a terminal state and is reported to the passage table (R40, R76). -/
def State.endShot (s : State) (r : ShotRef) (st : ShotState) : State :=
  (s.modifyShot r (fun k => { k with state := st })).checkSettled r.passage

/-- The drain check (R172): a DRAINING bank without an open passage goes to STANDBY with
BANK_DRAINED. -/
def State.drainCheck (s : State) (b : BankNo) : State :=
  if s.banks.slots[b].state = .draining ∧ s.openCount b = 0 then
    (s.setBankState b .standby).queueNotice (.bankDrained b (s.boundCount b) (s.busyCount b))
  else s

/-- The record of a passage that leaves APPROACHING and TAIL: its state and clear time, both timers stopped
(R37, R38, R39). -/
def Passage.left (p : Passage) (st : PassageState) (clear : Option GantryTime) : Passage :=
  { p with state := st, clearTime := clear, tailWindow := none, exitTimeout := none }

/-- A passage leaves APPROACHING and TAIL (R39): its timers stop, entry to CLEAR records the clear time,
the track goes to its next state (R20), and its bank is checked for draining (R172). -/
def State.leaveOpen (s : State) (p : Passage) (st : PassageState) (track : TrackState) : State :=
  let clear := if st = .clear then some s.now else p.clearTime
  let s1 := s.modifyPassage p.number (·.left st clear)
  (s1.trackTo p.track track).drainCheck p.bank

/-- A passage clears (R37, R38, R39) and is checked for settlement (R40). -/
def State.clearPassage (s : State) (p : Passage) (track : TrackState) : State :=
  (s.leaveOpen p .clear track).checkSettled p.number

/-- The track entry of a passage in its bound bank (R7). -/
def State.trackEntry (s : State) (p : Passage) : TrackEntry := (s.bank p.bank).tracks[p.track]

/-- The length of the tail window (R33). A speed of 0 does not occur (R75; log 19). -/
def tailWindowLength (tailDistance : Nat) (speed : Option Nat) : Nat :=
  match speed with
  | some v => min 10000000 (max 50000 (tailDistance * 1000000 / v))
  | none => 10000000

/-- The tail window of a passage started afresh from its passage speed (R33). -/
def State.startTailWindow (s : State) (n : Nat) : State :=
  match s.passage? n with
  | none => s
  | some p =>
    let length := tailWindowLength (s.trackEntry p).tailDistance.toNat p.speed
    s.modifyPassage n (fun q => { q with tailWindow := some (s.after length) })

/-- Clearance by count, checked in TAIL (R37). -/
def State.checkCleared (s : State) (n : Nat) : State :=
  match s.passage? n with
  | none => s
  | some p =>
    if p.state = .tail ∧ p.axleTotal ≤ p.exitCount then s.clearPassage p .vacant else s

end Sys2Proof.Machine
end

