-- ==== Sys2Proof/Machine/Layouts.lean ====
section
/-! DEFINITION. The byte layouts the part sends (9.2, 9.11): the check of a frame (R178), frames, notice
bodies and the parts of response data that carry records. Enumerated values count from 0 in the order
of their defining table (9.11.2). Where 9.11 leaves a width or an order open: log 17. -/

namespace Sys2Proof

/-- The head's code (9.11.2). -/
def Head.toCode : Head → Nat
  | .a1 => 0 | .a2 => 1 | .b2 => 2 | .b1 => 3

/-- A health level's code. -/
def Health.toCode : Health → Nat
  | .healthy => 0 | .fault => 1

end Sys2Proof

namespace Sys2Proof.Machine

/-! ## The check (R178) -/

/-- One bit of the CRC-32 register, shifting toward its low end (R178). -/
def crcShift (r : BitVec 32) : BitVec 32 :=
  if r.getLsbD 0 then (r >>> 1) ^^^ 0xEDB88320#32 else r >>> 1

/-- One byte entering the register, least significant bit first (R178). -/
def crcByte (r : BitVec 32) (b : Byte) : BitVec 32 :=
  crcShift (crcShift (crcShift (crcShift (crcShift (crcShift (crcShift (crcShift
    (r ^^^ b.setWidth 32))))))))

/-- The CRC-32 of bytes in the order sent: from all ones, inverted at the end (R178). -/
def crc32 (bytes : List Byte) : BitVec 32 := ~~~ (bytes.foldl crcByte 0xFFFFFFFF#32)

/-! ## Frames (9.2) -/

/-- A frame: start mark, kind, tag, body length, body, check (9.2). -/
def frameBytes (kind tag : Byte) (body : List Byte) : List Byte :=
  let checked := kind :: tag :: leBytes 2 body.length ++ body
  0xD4 :: 0x2B :: checked ++ leBytes 4 (crc32 checked).toNat

/-- A request frame as the supervisor sends it (9.2, 9.11.1). -/
def requestFrame (tag : Byte) (r : Request) : List Byte := frameBytes 0x01 tag (requestBody r)

/-! ## Field encodings (9.11.2) -/

/-- One byte. -/
def byteOf (n : Nat) : List Byte := leBytes 1 n

/-- A gantry time, 8 bytes. -/
def timeBytes (t : GantryTime) : List Byte := leBytes 8 t.toNat

/-- A signed distance, 4 bytes. -/
def signed32 (d : Int) : List Byte := leBytes 4 (BitVec.ofInt 32 d).toNat

/-- A field that may be absent: a presence byte, then the value, all zero when absent. -/
def optBytes {α : Type} (width : Nat) (f : α → List Byte) : Option α → List Byte
  | some x => 1 :: f x
  | none => 0 :: List.replicate width 0

/-- A list: its count, then the items. -/
def listBytes (items : List (List Byte)) : List Byte := byteOf items.length ++ items.flatten

/-- A track number, 1 to 4. -/
def trackByte (t : Track) : List Byte := byteOf (t.val + 1)

def TrackState.toCode : TrackState → Nat
  | .disarmed => 0 | .ignoring => 1 | .vacant => 2 | .occupied => 3 | .headFault => 4

def Direction.toCode : Direction → Nat
  | .ab => 0 | .ba => 1

def PassageState.toCode : PassageState → Nat
  | .approaching => 0 | .tail => 1 | .clear => 2 | .stopping => 3 | .filed => 4 | .abandoned => 5

def AbandonReason.toCode : AbandonReason → Nat
  | .ordered => 0 | .headFault => 1

def FaultCode.toCode : FaultCode → Nat
  | .headOrder => 0 | .pairOverflow => 1 | .pairTimeout => 2 | .speedImplausible => 3
  | .axleOverflow => 4 | .vehicleOverflow => 5 | .unmatchedAxles => 6 | .shotLimit => 7
  | .tailReopened => 8 | .exitShort => 9 | .exitExcess => 10 | .headFault => 11 | .cameraLoss => 12
  | .imagePartial => 13

def Orientation.toCode : Orientation → Nat
  | .forward => 0 | .reversed => 1

def ShotState.toCode : ShotState → Nat
  | .planned => 0 | .frozen => 1 | .held => 2 | .reading => 3 | .stored => 4 | .partialStored => 5
  | .failed => 6 | .lost => 7 | .late => 8 | .skipped => 9 | .cancelled => 10

def SkipReason.toCode : SkipReason → Nat
  | .speed => 0 | .queueFull => 1 | .camera => 2 | .cameraBusy => 3 | .cameraFull => 4 | .noSpace => 5
  | .noFlash => 6

def Lighting.toCode : Lighting → Nat
  | .lit => 0 | .unlit => 1 | .none => 2

def LineState.toCode : LineState → Nat
  | .unlinked => 0 | .linking => 1 | .inService => 2 | .outOfService => 3 | .down => 4

def LineCause.toCode : LineCause → Nat
  | .commit => 0 | .service => 1 | .linked => 2 | .disableFlag => 3 | .readFailure => 4 | .noAnswer => 5

def BankState.toCode : BankState → Nat
  | .empty => 0 | .active => 1 | .staging => 2 | .draining => 3 | .standby => 4

def RetireCause.toCode : RetireCause → Nat
  | .fetch => 0 | .request => 1

/-- A page's condition (section 7.2). -/
def PageCondition.toCode : PageCondition → Nat
  | .free => 0 | .held _ => 1 | .outOfService => 2

def ResponseOutcome.toCode : ResponseOutcome → Nat
  | .done => 0 | .refused => 1 | .failed => 2

/-- Detail codes (9.3.1). -/
def Detail.toCode : Detail → Nat
  | .ok => 0x00 | .badLength => 0x01 | .unknownRequest => 0x02 | .queueFull => 0x03
  | .badArgument => 0x04 | .noSuchPassage => 0x10 | .noSuchShot => 0x11 | .notSettled => 0x12
  | .alreadySettled => 0x13 | .notReady => 0x14 | .noTransaction => 0x20 | .depthLimit => 0x21
  | .bankDraining => 0x22 | .tableInvalid => 0x23 | .noTables => 0x24 | .notFitted => 0x30
  | .trackOccupied => 0x31 | .tracksBusy => 0x32 | .cameraDown => 0x40 | .cameraNoAnswer => 0x41
  | .notASpare => 0x50 | .spareInUse => 0x51 | .spareBad => 0x52 | .selfSpare => 0x53
  | .noSpare => 0x54 | .pageHeld => 0x55

/-- The health of the four heads, A1, A2, B2, B1. -/
def healthBytes (h : HeadHealth) : List Byte :=
  byteOf h.a1.toCode ++ byteOf h.a2.toCode ++ byteOf h.b2.toCode ++ byteOf h.b1.toCode

/-- A shot named by its passage and its number. -/
def shotRefBytes (r : ShotRef) : List Byte := leBytes 2 r.passage ++ byteOf r.shot

/-! ## Notices (R188, 9.11.1) -/

def TerminalCounts.encode (c : TerminalCounts) : List Byte :=
  byteOf c.stored ++ byteOf c.partialStored ++ byteOf c.failed ++ byteOf c.lost ++ byteOf c.late
    ++ byteOf c.skipped ++ byteOf c.cancelled

def faultBytes (f : Option FaultCode) : List Byte := optBytes 1 (fun c => byteOf c.toCode) f

/-- The notice kind's code (R188). -/
def Notice.kindCode : Notice → Nat
  | .passageOpened .. => 0 | .passageFiled .. => 1 | .passageAbandoned .. => 2 | .openRefused .. => 3
  | .strayCrossing .. => 4 | .trackState .. => 5 | .cameraState .. => 6 | .bankDrained .. => 7
  | .memoryLow .. => 8 | .memoryNormal .. => 9 | .pageRetired .. => 10 | .sparesExhausted .. => 11
  | .linkUp .. => 12 | .restarted .. => 13

/-- The subject fields of a notice, in the order its queuing rule lists them (R188). -/
def Notice.subject : Notice → List Byte
  | .passageOpened n t d b open_ =>
    leBytes 2 n ++ trackByte t ++ byteOf d.toCode ++ byteOf b.val ++ timeBytes open_
  | .passageFiled n t d total stored vehicles counts fault =>
    leBytes 2 n ++ trackByte t ++ byteOf d.toCode ++ leBytes 2 total ++ byteOf stored
      ++ byteOf vehicles ++ counts.encode ++ faultBytes fault
  | .passageAbandoned n t d reason counts fault =>
    leBytes 2 n ++ trackByte t ++ byteOf d.toCode
      ++ byteOf (match reason with | some r => r.toCode | none => 0)
      ++ counts.encode ++ faultBytes fault
  | .openRefused t d time => trackByte t ++ byteOf d.toCode ++ timeBytes time
  | .strayCrossing t h time => trackByte t ++ byteOf h.toCode ++ timeBytes time
  | .trackState t before after health =>
    trackByte t ++ byteOf before.toCode ++ byteOf after.toCode ++ healthBytes health
  | .cameraState c before after cause flags lost =>
    byteOf c.val ++ byteOf before.toCode ++ byteOf after.toCode ++ byteOf cause.toCode ++ [flags]
      ++ byteOf lost
  | .bankDrained b bound busy => byteOf b.val ++ byteOf bound ++ byteOf busy
  | .memoryLow free reserved threshold => leBytes 2 free ++ leBytes 2 reserved ++ leBytes 2 threshold
  | .memoryNormal free reserved threshold =>
    leBytes 2 free ++ leBytes 2 reserved ++ leBytes 2 threshold
  | .pageRetired page before after madeBad cause bad =>
    leBytes 2 page ++ leBytes 2 before ++ optBytes 2 (leBytes 2) after ++ optBytes 2 (leBytes 2) madeBad
      ++ byteOf cause.toCode ++ byteOf bad
  | .sparesExhausted page outOfService free =>
    leBytes 2 page ++ leBytes 2 outOfService ++ leBytes 2 free
  | .linkUp ahead => byteOf ahead
  | .restarted discarded transactionOpen active =>
    byteOf discarded ++ flagByte transactionOpen ++ optBytes 1 (fun b : BankNo => byteOf b.val) active

/-- The body of a notice frame (9.11.1). -/
def QueuedNotice.body (n : QueuedNotice) : List Byte :=
  byteOf n.notice.kindCode ++ flagByte n.dropped ++ [n.epoch] ++ timeBytes n.time ++ n.notice.subject

/-! ## Records in responses (R48 to R52, R130) -/

/-- One entry of LIST PASSAGES (R48). -/
def Passage.listEntry (p : Passage) : List Byte :=
  leBytes 2 p.number ++ trackByte p.track ++ byteOf p.direction.toCode ++ byteOf p.state.toCode
    ++ byteOf p.bank.val ++ [p.epoch] ++ timeBytes p.openTime ++ leBytes 2 p.axleTotal
    ++ byteOf p.shots.length

/-- The first fault with its references and the count of further faults (R30, R49). -/
def FaultRecord.encode (f : FaultRecord) : List Byte :=
  faultBytes (f.first.map (·.code)) ++ optBytes 1 byteOf (f.first.bind (·.axle))
    ++ optBytes 1 byteOf (f.first.bind (·.shot)) ++ byteOf f.further

/-- READ PASSAGE, part SUMMARY (R49). -/
def Passage.summary (p : Passage) : List Byte :=
  leBytes 2 p.number ++ trackByte p.track ++ byteOf p.direction.toCode ++ byteOf p.bank.val ++ [p.epoch]
    ++ byteOf p.state.toCode ++ optBytes 1 (fun r : AbandonReason => byteOf r.toCode) p.abandonReason
    ++ timeBytes p.openTime ++ optBytes 8 timeBytes p.tailTime ++ optBytes 8 timeBytes p.clearTime
    ++ optBytes 9 (fun x : GantryTime × Byte => timeBytes x.1 ++ [x.2]) p.settle
    ++ leBytes 2 p.axleTotal ++ byteOf p.axles.length ++ optBytes 4 (leBytes 4) p.speed
    ++ leBytes 2 p.exitCount ++ byteOf p.cursor ++ byteOf p.vehicles.length
    ++ byteOf p.shots.length
    ++ [ShotState.planned, .frozen, .held, .reading, .stored, .partialStored, .failed, .lost, .late,
        .skipped, .cancelled].flatMap (fun st => byteOf (p.countShots st))
    ++ p.faults.encode

/-- A stored axle (R50): inner time, speed, speed-valid flag, spacing with its absent and unknown
indications. -/
def Axle.encode (a : Axle) : List Byte :=
  timeBytes a.time ++ optBytes 4 (leBytes 4) a.speed ++ flagByte a.speedValid
    ++ (match a.spacing with
        | .absent => 0 :: signed32 0 ++ flagByte false
        | .unknown => 1 :: signed32 0 ++ flagByte true
        | .known mm => 1 :: signed32 mm ++ flagByte false)

/-- A vehicle entry (R51). -/
def Vehicle.encode (v : Vehicle) : List Byte :=
  match v.kind with
  | .matched profile orientation pantographs =>
    byteOf 0 ++ byteOf v.firstAxle ++ byteOf v.axleCount ++ byteOf profile.val
      ++ byteOf orientation.toCode ++ byteOf pantographs
  | .stretch => byteOf 1 ++ byteOf v.firstAxle ++ byteOf v.axleCount
  | .remainder => byteOf 2 ++ byteOf v.firstAxle ++ byteOf v.axleCount

/-- The copies of the exposure entry in a shot's record: capture allowed, exposure width and flash width, as
fields that are never absent (section 4.2, 9.11.2). Every shot is timed when it is made (R78); without a timing,
which no run shows, they read 0 (log 19). -/
def Shot.copies (k : Shot) : List Byte :=
  match k.timing with
  | some t => flagByte t.captureAllowed ++ leBytes 4 t.exposureWidth ++ leBytes 4 t.flashWidth
  | none => List.replicate 9 0

/-- A whole shot record (R52), in the order of section 4.2. -/
def Shot.encode (number : Nat) (k : Shot) : List Byte :=
  byteOf number ++ byteOf k.vehicle ++ byteOf k.pantograph ++ byteOf k.camera.val
    ++ byteOf k.referenceAxle ++ signed32 k.position ++ byteOf k.state.toCode
    ++ optBytes 1 (fun r : SkipReason => byteOf r.toCode) k.skipReason
    ++ optBytes 8 timeBytes k.plannedFire
    ++ optBytes 1 (fun t : Timing => byteOf t.axle) k.timing
    ++ optBytes 5 (fun t : Timing => leBytes 4 t.speed ++ byteOf t.band) k.timing
    ++ k.copies
    ++ optBytes 8 timeBytes k.actualFire ++ leBytes 4 k.lateness
    ++ optBytes 1 (fun l : Lighting => byteOf l.toCode) k.lighting
    ++ optBytes 11 (fun f : FlashSharing => shotRefBytes f.opener ++ timeBytes f.start) k.sharing
    ++ [k.flags] ++ flagByte k.flagged ++ byteOf k.segmentsExpected ++ byteOf k.segmentsStored
    ++ leBytes 2 k.corrected ++ listBytes (k.damaged.map byteOf)
    ++ listBytes (k.pages.map (leBytes 2))

/-! ## Frames on the line -/

/-- A response frame (9.11.1). -/
def Response.frame (r : Response) : List Byte :=
  frameBytes 0x02 r.tag
    (bytes16 r.code ++ byteOf r.outcome.toCode ++ byteOf r.detail.toCode ++ r.data)

/-- A notice frame, tag 0 (R188). -/
def QueuedNotice.frame (n : QueuedNotice) : List Byte := frameBytes 0x03 0 n.body

/-- An image data frame (9.11.1): bit 0 FINAL, bit 1 DAMAGED. -/
def ImageChunk.frame (c : ImageChunk) : List Byte :=
  frameBytes 0x04 c.tag
    (leBytes 2 c.shot.passage ++ byteOf c.shot.shot ++ byteOf c.segment ++ byteOf c.chunk
      ++ byteOf ((if c.final then 1 else 0) + (if c.damaged then 2 else 0))
      ++ leBytes 2 c.sequence ++ c.data)

/-- The bytes of the frame being sent: what the part puts on the gantry link (R185). -/
def Link.frameOnLine (l : Link) : Option (List Byte) :=
  match l.sending with
  | some .response => l.replies.head?.map (·.frame)
  | some .notice => l.notices.head?.map (·.frame)
  | some (.chunk c) => some c.frame
  | none => none

end Sys2Proof.Machine
end

