-- ==== Sys2Proof/Machine/Lines.lean ====
section
/-! DEFINITION. Camera lines (chapter 6): placing and issuing orders (R112, R116), changes of line state
with their notices (R131), holding slots (R111) and the linking sequence (R127). -/

namespace Sys2Proof.Machine

/-! ## Orders (R112) -/

/-- Two orders of the same kind; DISCARDs are of the same kind when they name the same slot (R112). -/
def Order.sameKind : Order → Order → Bool
  | .relink, .relink => true
  | .discard a, .discard b => a == b
  | .read _ _ _, .read _ _ _ => true
  | .sense, .sense => true
  | _, _ => false

/-- An order of this kind is pending. -/
def PendingOrders.has (p : PendingOrders) : Order → Bool
  | .relink => p.relink
  | .discard slot => if slot = 0 then p.discard0 else p.discard1
  | .read _ _ _ => p.read.isSome
  | .sense => p.sense

/-- An order added to the pending orders. -/
def PendingOrders.add (p : PendingOrders) : Order → PendingOrders
  | .relink => { p with relink := true }
  | .discard slot => if slot = 0 then { p with discard0 := true } else { p with discard1 := true }
  | .read slot segment release => { p with read := some ⟨slot, segment, release⟩ }
  | .sense => { p with sense := true }

/-- The pending order of highest priority and the orders left: RELINK, DISCARD slot 0, DISCARD slot 1,
READ, SENSE (R112). -/
def PendingOrders.next (p : PendingOrders) : Option (Order × PendingOrders) :=
  if p.relink then some (.relink, { p with relink := false })
  else if p.discard0 then some (.discard 0, { p with discard0 := false })
  else if p.discard1 then some (.discard 1, { p with discard1 := false })
  else match p.read with
    | some r => some (.read r.slot r.segment r.release, { p with read := .none })
    | .none => if p.sense then some (.sense, { p with sense := false }) else .none

/-- An order of the same kind is outstanding, other than one whose result a RESTART has made ignored
(R112, R133; log 16). -/
def CameraLine.sharesOutstanding (l : CameraLine) (o : Order) : Bool :=
  match l.outstanding with
  | some out => !out.ignored && out.order.sameKind o
  | none => false

/-- An order placed pending; one of the same kind already pending or outstanding is shared (R112). -/
def CameraLine.pend (l : CameraLine) (o : Order) : CameraLine :=
  if l.orders.has o || l.sharesOutstanding o then l else { l with orders := l.orders.add o }

/-- A free line issues the pending order of highest priority and starts its timeout (R112, R116). -/
def CameraLine.issue (l : CameraLine) (elapsed : Nat) : CameraLine :=
  match l.outstanding with
  | some _ => l
  | none =>
    match l.orders.next with
    | some (o, rest) =>
      { l with orders := rest, outstanding := some ⟨o, elapsed + orderTimeoutLength o, false⟩ }
    | none => l

/-- An order placed pending on a line. -/
def State.pendOrder (s : State) (c : Camera) (o : Order) : State := s.setLine c (s.lines[c].pend o)

/-- A line issues its next order if it is free. -/
def State.issueOrder (s : State) (c : Camera) : State :=
  s.setLine c (s.lines[c].issue s.clock.elapsed)

/-- An order placed pending, and issued at once if it finds the line free (R112). -/
def State.placeOrder (s : State) (c : Camera) (o : Order) : State := (s.pendOrder c o).issueOrder c

/-! ## Holding slots (R111) -/

/-- The lower-numbered free slot (R102). -/
def CameraLine.freeSlot (l : CameraLine) : Option SlotNo :=
  if l.slots[(0 : SlotNo)] = none then some 0
  else if l.slots[(1 : SlotNo)] = none then some 1 else none

/-- The slot that holds a shot. -/
def CameraLine.slotOf (l : CameraLine) (r : ShotRef) : Option SlotNo :=
  if l.slots[(0 : SlotNo)] = some r then some 0
  else if l.slots[(1 : SlotNo)] = some r then some 1 else none

/-- A slot occupied by a shot, or freed. -/
def CameraLine.setSlot (l : CameraLine) (slot : SlotNo) (r : Option ShotRef) : CameraLine :=
  { l with slots := setAt l.slots slot r }

/-- A slot of a line occupied by a shot, or freed. -/
def State.setSlot (s : State) (c : Camera) (slot : SlotNo) (r : Option ShotRef) : State :=
  s.setLine c (s.lines[c].setSlot slot r)

/-! ## Changes of line state (R131) -/

/-- A line changes state: the disable mark is cleared (R118) and CAMERA_STATE is queued with the flags
accumulated at the change (R131). -/
def State.changeLine (s : State) (c : Camera) (new : LineState) (cause : LineCause) (lost : Nat) :
    State :=
  let l := s.lines[c]
  (s.setLine c { l with state := new, disableMark := false }).queueNotice
    (.cameraState c l.state new cause l.accumulated lost)

/-! ## The linking sequence (R127) -/

/-- The first order of the linking sequence placed pending: DISCARD of slot 0 after a RESTART, RELINK
otherwise (R127). -/
def CameraLine.startLinking (l : CameraLine) (byRestart : Bool) : CameraLine :=
  if byRestart then
    { l.pend (.discard 0) with linking := some (.restartDiscard 0) }
  else { l.pend .relink with linking := some .relink }

/-- A line enters the linking sequence: it waits for an outstanding order first (R127). -/
def CameraLine.enterLinking (l : CameraLine) (byRestart : Bool) : CameraLine :=
  match l.outstanding with
  | some _ => { l with linking := some (.waiting byRestart) }
  | none => l.startLinking byRestart

/-- A line goes to LINKING by a commit or by CAMERA SERVICE on: its accumulated flags are cleared (R117),
CAMERA_STATE is queued (log 15), and the linking sequence starts (R128, R129). -/
def State.beginLinking (s : State) (c : Camera) (cause : LineCause) : State :=
  let s1 := s.setLine c { s.lines[c] with accumulated := 0 }
  let s2 := s1.changeLine c .linking cause 0
  (s2.setLine c (s2.lines[c].enterLinking false)).issueOrder c

/-- The camera entry of a line in the ACTIVE bank; while COLD there is none, as if not fitted. -/
def State.activeCamera (s : State) (c : Camera) : CameraEntry :=
  match s.activeContents with
  | some b => b.cameras[c]
  | none => .empty

/-- The linking sequence ends (R127): OUT_OF_SERVICE when the camera is not fitted in the ACTIVE bank or a
flag of the SENSE answer is in its disable set there, IN_SERVICE otherwise. -/
def State.finishLinking (s : State) (c : Camera) (flags : FlagSet) : State :=
  let e := s.activeCamera c
  let new : LineState :=
    if !e.fitted || flagsMeet flags e.disableSet then .outOfService else .inService
  (s.setLine c { s.lines[c] with linking := none }).changeLine c new .linked 0

/-- The linking sequence after its SENSE (R127): a DISCARD for each slot the camera reports holding an
exposure while the line counts it free; with none the sequence ends. -/
def State.linkingSensed (s : State) (c : Camera) (flags : FlagSet) (slot0 slot1 : Bool) : State :=
  let l := s.lines[c]
  let clear0 := slot0 && l.slots[(0 : SlotNo)].isNone
  let clear1 := slot1 && l.slots[(1 : SlotNo)].isNone
  if clear0 || clear1 then
    let l1 := if clear0 then l.pend (.discard 0) else l
    let l2 := if clear1 then l1.pend (.discard 1) else l1
    s.setLine c { l2 with linking := some (.clearing flags clear0 clear1) }
  else s.finishLinking c flags

/-- The linking sequence at the completion of a DISCARD of a slot (R127). -/
def State.linkingDiscarded (s : State) (c : Camera) (slot : SlotNo) : State :=
  let l := s.lines[c]
  match l.linking with
  | some (.restartDiscard k) =>
    if k = slot then
      if k = 0 then s.setLine c { l.pend (.discard 1) with linking := some (.restartDiscard 1) }
      else s.setLine c { l.pend .relink with linking := some .relink }
    else s
  | some (.clearing flags clear0 clear1) =>
    let left0 := clear0 && slot != 0
    let left1 := clear1 && slot != 1
    if left0 || left1 then s.setLine c { l with linking := some (.clearing flags left0 left1) }
    else s.finishLinking c flags
  | _ => s

/-- The linking sequence at the completion of a RELINK (R127). -/
def State.linkingRelinked (s : State) (c : Camera) : State :=
  let l := s.lines[c]
  match l.linking with
  | some .relink => s.setLine c { l.pend .sense with linking := some .sense }
  | _ => s

/-- The line waits for an order that was outstanding when it entered LINKING; that order has now ended, so
the sequence starts (R127). -/
def State.linkingResumed (s : State) (c : Camera) : State :=
  let l := s.lines[c]
  match l.linking with
  | some (.waiting byRestart) => s.setLine c (l.startLinking byRestart)
  | _ => s

end Sys2Proof.Machine
end

