-- ==== Sys2Proof/Machine/Readout.lean ====
section
/-! DEFINITION. The readout controller (chapter 6): the grant (R120), the segment loop (R121 to R123), a
line going DOWN (R124), the end of a readout (R118, R126), and what each order's answer or timeout leads
to. The parties of an order are read from the state: the channel serving the camera, a HELD shot of a
STOPPING passage, the linking sequence, and the CAMERA SENSE in progress (R112). -/

namespace Sys2Proof.Machine

/-! ## Shots, cameras and channels -/

/-- The camera of a shot. -/
def State.cameraOf (s : State) (r : ShotRef) : Option Camera := (s.shot? r).map (·.camera)

/-- The channel serving a shot of a camera, with what it holds; at most one does (R120). -/
def State.serving? (s : State) (c : Camera) : Option (ChannelNo × ChannelWork) :=
  (List.finRange 4).findSome? (fun ch =>
    match s.readout.channels[ch] with
    | some w => if s.cameraOf w.shot = some c then some (ch, w) else none
    | none => none)

/-- The camera entry of a shot's camera in its passage's bound bank (R110). -/
def State.shotEntry (s : State) (r : ShotRef) (c : Camera) : CameraEntry :=
  match s.passage? r.passage with
  | some p => (s.bank p.bank).cameras[c]
  | none => .empty

/-- The passage of a shot is in STOPPING. -/
def State.shotStopping (s : State) (r : ShotRef) : Bool :=
  match s.passage? r.passage with
  | some p => p.state = .stopping
  | none => false

/-- The state of a shot. -/
def State.shotState (s : State) (r : ShotRef) : Option ShotState := (s.shot? r).map (·.state)

/-- A shot leaves the readout queue (R119). -/
def State.leaveReadoutQueue (s : State) (r : ShotRef) : State :=
  { s with readout := { s.readout with queue := s.readout.queue.filter (· != r) } }

/-! ## Pages of a readout (R138, R139) -/

/-- The lowest free page drawn for a segment of a shot (R138). -/
def State.drawPage (s : State) (r : ShotRef) (segment : Nat) : State × Option Nat :=
  (s.setMemory (s.memory.draw r segment).1, (s.memory.draw r segment).2)

/-- A drawn page that holds no stored segment, if there is one, is freed, and the rest of the shot's
reservation is returned (R139). -/
def State.returnPages (s : State) (r : ShotRef) (page : Option Nat) : State :=
  let s1 := match page with
    | some k => s.freePage k
    | none => s
  s1.setMemory (s1.memory.returnReservation r)

/-! ## Placing READs (R121, R122) -/

/-- A READ of a segment of a shot placed pending, its release flag set on the last segment (R121). -/
def State.pendRead (s : State) (c : Camera) (w : ChannelWork) : State :=
  match s.lines[c].slotOf w.shot, s.shot? w.shot with
  | some slot, some k => s.pendOrder c (.read slot w.segment (w.segment + 1 = k.segmentsExpected))
  | _, _ => s

/-- A segment's first attempt: a page is drawn and the READ placed pending (R121). -/
def State.startSegment (s : State) (c : Camera) (ch : ChannelNo) (w : ChannelWork) : State :=
  let d := s.drawPage w.shot w.segment
  let w1 : ChannelWork := { w with attempts := 0, step := .read, page := d.2 }
  (d.1.setChannel ch (some w1)).pendRead c w1

/-! ## The grant (R120) -/

/-- A shot may be taken when no channel serves a shot of its camera (R120). -/
def State.mayTake (s : State) (r : ShotRef) : Bool :=
  match s.cameraOf r with
  | some c => (s.serving? c).isNone
  | none => false

/-- A slot is occupied by a shot that is not READING. -/
def State.slotWaiting (s : State) (c : Camera) (slot : SlotNo) : Bool :=
  match s.lines[c].slots[slot] with
  | some r => s.shotState r != some .reading
  | none => false

/-- A shot's camera is pressed: both slots occupied and neither READING (R120). -/
def State.shotPressed (s : State) (r : ShotRef) : Bool :=
  match s.cameraOf r with
  | some c => s.slotWaiting c 0 && s.slotWaiting c 1
  | none => false

/-- The lowest-numbered idle channel. -/
def State.idleChannel (s : State) : Option ChannelNo :=
  (List.finRange 4).find? (fun ch => s.readout.channels[ch].isNone)

/-- The shot the next grant takes: the oldest of a pressed camera, else the oldest (R120). -/
def State.nextTaken (s : State) : Option ShotRef :=
  let may := s.readout.queue.filter s.mayTake
  (may.find? s.shotPressed).or may.head?

/-- A channel takes a shot: it leaves the queue, becomes READING, and its first READ is placed (R120). -/
def State.grant (s : State) (ch : ChannelNo) (r : ShotRef) (c : Camera) : State :=
  let s1 := (s.leaveReadoutQueue r).modifyShot r (fun k => { k with state := .reading })
  (s1.startSegment c ch ⟨r, 0, 0, .read, none⟩).issueOrder c

/-- One grant, if a channel is idle and a shot may be taken. -/
def State.grantOne (s : State) : State :=
  match s.idleChannel, s.nextTaken with
  | some ch, some r =>
    match s.cameraOf r with
    | some c => s.grant ch r c
    | none => s
  | _, _ => s

/-- Grants are repeated until no idle channel can take a shot; there are four channels (R120). -/
def State.grantAll (s : State) : State := s.grantOne.grantOne.grantOne.grantOne

/-! ## The end of a readout -/

/-- The fault a shot's end records (R123, R124, R126). -/
def ShotState.fault : ShotState → Option FaultCode
  | .partialStored => some .imagePartial
  | .failed | .lost => some .cameraLoss
  | .planned | .frozen | .held | .reading | .stored | .late | .skipped | .cancelled => none

/-- A shot takes a terminal state and its fault is recorded; the report follows. -/
def State.finishShot (s : State) (r : ShotRef) (st : ShotState) : State :=
  let s1 := s.modifyShot r (fun k => { k with state := st })
  match st.fault with
  | some code => s1.recordFault r.passage code none (some r.shot)
  | none => s1

/-- The shot has stored at least one segment. -/
def State.hasStored (s : State) (r : ShotRef) : Bool :=
  match s.shot? r with
  | some k => k.segmentsStored != 0
  | none => false

/-- A marked IN_SERVICE line goes OUT_OF_SERVICE as its channel becomes idle (R118). -/
def State.actOnMark (s : State) (c : Camera) : State :=
  if s.lines[c].disableMark = true ∧ s.lines[c].state = .inService then
    s.changeLine c .outOfService .disableFlag 0
  else s

/-- A readout ends: the shot becomes terminal and is reported, the channel becomes idle, and a disable
mark takes effect (R118, R121, R123, R126). -/
def State.endReadout (s : State) (c : Camera) (ch : ChannelNo) (r : ShotRef) (st : ShotState) : State :=
  (((s.finishShot r st).checkSettled r.passage).setChannel ch none).actOnMark c

/-- A readout that stores no more: pages are returned, a DISCARD of the slot is placed pending, and the
channel takes the step DISCARD (R123) or STOPPING (R126). -/
def State.discardReadout (s : State) (c : Camera) (ch : ChannelNo) (w : ChannelWork)
    (step : ChannelStep) : State :=
  let s1 := (s.returnPages w.shot w.page).setChannel ch (some { w with page := none, step := step })
  match s1.lines[c].slotOf w.shot with
  | some slot => s1.pendOrder c (.discard slot)
  | none => s1

/-! ## CAMERA SENSE in progress (R130) -/

/-- No request is in progress any more (R183). -/
def State.endRequest (s : State) : State := { s with link := { s.link with inProgress := none } }

/-- The CAMERA SENSE in progress on a line, if there is one, is answered FAILED (R130). -/
def State.failSense (s : State) (c : Camera) (d : Detail) : State :=
  match s.link.inProgress with
  | some (.cameraSense tag k) =>
    if k = c then s.endRequest.placeAnswer tag 0x0602 ⟨.failed, d, []⟩ else s
  | _ => s

/-- The data of a CAMERA SENSE response (R130). -/
def State.senseData (s : State) (c : Camera) (flags : FlagSet) (slot0 slot1 : Bool) : List Byte :=
  let l := s.lines[c]
  byteOf l.state.toCode ++ [flags, l.accumulated] ++ flagByte slot0 ++ flagByte slot1
    ++ optBytes 3 shotRefBytes l.slots[(0 : SlotNo)] ++ optBytes 3 shotRefBytes l.slots[(1 : SlotNo)]
    ++ optBytes 4 (fun x : ChannelNo × ChannelWork => shotRefBytes x.2.shot ++ byteOf x.2.segment)
        (s.serving? c)

/-- The CAMERA SENSE in progress on a line, if there is one, is answered DONE OK (R130). -/
def State.answerSense (s : State) (c : Camera) (flags : FlagSet) (slot0 slot1 : Bool) : State :=
  match s.link.inProgress with
  | some (.cameraSense tag k) =>
    if k = c then s.endRequest.placeAnswer tag 0x0602 (.done (s.senseData c flags slot0 slot1)) else s
  | _ => s

/-! ## DOWN (R124) -/

/-- Step 2 of R124: the READING shot of the camera is finished, and its channel becomes idle. -/
def State.finishReading (s : State) (c : Camera) : State :=
  match s.serving? c with
  | none => s
  | some (ch, w) =>
    let s1 := if w.step = .discard ∨ w.step = .stopping then s else s.returnPages w.shot w.page
    (s1.finishShot w.shot (if s1.hasStored w.shot then .partialStored else .lost)).setChannel ch none

/-- Step 3 of R124 for the shot in one slot: a HELD shot becomes LOST. -/
def State.loseHeld (s : State) (r : Option ShotRef) : State :=
  match r with
  | some r =>
    if s.shotState r = some .held then
      ((s.leaveReadoutQueue r).returnPages r none).finishShot r .lost
    else s
  | none => s

/-- The shot in a slot is reported to its passage table (R124). -/
def State.reportSlot (s : State) (r : Option ShotRef) : State :=
  match r with
  | some r => s.checkSettled r.passage
  | none => s

/-- 1 for a slot whose shot is LOST. -/
def State.lostIn (s : State) (r : Option ShotRef) : Nat :=
  match r with
  | some r => if s.shotState r = some .lost then 1 else 0
  | none => 0

/-- Step 1 of R124: every pending order dropped, the disable mark cleared, no linking sequence. -/
def CameraLine.dropOrders (l : CameraLine) : CameraLine :=
  { l with orders := .none, outstanding := none, disableMark := false, linking := none }

/-- A line goes DOWN (R124), and a CAMERA SENSE in progress on it fails with CAMERA_DOWN (R130). Of two HELD
shots the one in slot 0 becomes LOST and has its CAMERA_LOSS recorded first: step 3 of R124 gives them no order,
and this one is the model's choice (log 34). -/
def State.goDown (s : State) (c : Camera) (cause : LineCause) : State :=
  let slot0 := s.lines[c].slots[(0 : SlotNo)]
  let slot1 := s.lines[c].slots[(1 : SlotNo)]
  let s1 := s.setLine c s.lines[c].dropOrders
  let s2 := ((s1.finishReading c).loseHeld slot0).loseHeld slot1
  let lost := s2.lostIn slot0 + s2.lostIn slot1
  let s3 := (s2.setSlot c 0 none).setSlot c 1 none
  (((s3.reportSlot slot0).reportSlot slot1).changeLine c .down cause lost).failSense c .cameraDown

/-! ## The segment loop (R121 to R123, R126) -/

/-- The flags of a closing status are taken into the shot and the line (R117), and a flag of the disable
set marks an IN_SERVICE line (R118). -/
def State.takeReadFlags (s : State) (c : Camera) (r : ShotRef) (flags : FlagSet) : State :=
  let e := s.shotEntry r c
  (s.modifyShot r (·.takeFlags flags e.careSet)).setLine c
    ((s.lines[c].takeFlags flags).markDisable flags e.disableSet)

/-- The segment's bytes are written into the physical page that the drawn page maps to (R113, R140). -/
def State.writeSegment (s : State) (w : ChannelWork) (bytes : List Byte) : State :=
  match w.page with
  | none => s
  | some k =>
    match (s.memory.page k).physical k with
    | some physical => s.setMemory (s.memory.write (physical * pageBytes) (bytes.take pageBytes))
    | none => s

/-- A stored segment: the page joins the page list and segments stored rises by one (R121). -/
def Shot.storeSegment (k : Shot) (page : Option Nat) : Shot :=
  { k with pages := k.pages ++ page.toList, segmentsStored := k.segmentsStored + 1 }

/-- An attempt succeeded (R121, R126). -/
def State.attemptSucceeded (s : State) (c : Camera) (ch : ChannelNo) (w : ChannelWork) (slot : SlotNo)
    (release : Bool) : State :=
  let s1 := s.modifyShot w.shot (·.storeSegment w.page)
  if release then (s1.setSlot c slot none).endReadout c ch w.shot .stored
  else if s.shotStopping w.shot then
    s1.discardReadout c ch { w with attempts := 0, page := none } .stopping
  else s1.startSegment c ch { w with segment := w.segment + 1 }

/-- An attempt failed (R122, R123, R126). A failure that ends the readout leaves the channel's count of failed
attempts as it was, since R123 and R126 name only its page and step (the model's choice, log 33). -/
def State.attemptFailed (s : State) (c : Camera) (ch : ChannelNo) (w : ChannelWork) : State :=
  if w.step = .final then s.goDown c .readFailure
  else if s.shotStopping w.shot then s.discardReadout c ch w .stopping
  else if (s.shotEntry w.shot c).retries then
    let failed := w.attempts + 1
    if failed < 4 then
      let w1 : ChannelWork := { w with attempts := failed }
      (s.setChannel ch (some w1)).pendRead c w1
    else (s.setChannel ch (some { w with attempts := failed, step := .relink })).pendOrder c .relink
  else s.discardReadout c ch w .discard

/-! ## Answers (R113 to R115) -/

/-- A READ is answered (R113): flags, bytes, then the attempt succeeds when the outcome is DONE and the
segment check is right. -/
def State.readAnswered (s : State) (c : Camera) (slot : SlotNo) (release : Bool) (bytes : List Byte)
    (check : BitVec 32) (outcome : ReadOutcome) (flags : FlagSet) : State :=
  match s.serving? c with
  | none => s
  | some (ch, w) =>
    let s1 := (s.takeReadFlags c w.shot flags).writeSegment w bytes
    if outcome = .done ∧ crc32 bytes = check then s1.attemptSucceeded c ch w slot release
    else s1.attemptFailed c ch w

/-- The shot of a slot whose DISCARD has completed is finished: a READING shot as R123 or R126 states, a
HELD one becomes CANCELLED (R125). -/
def State.finishDiscarded (s : State) (c : Camera) (r : ShotRef) : State :=
  match s.serving? c with
  | some (ch, w) =>
    if w.shot = r then
      s.endReadout c ch r
        (if s.hasStored r then .partialStored
          else if w.step = .stopping then .cancelled else .failed)
    else s.endShot r .cancelled
  | none => s.endShot r .cancelled

/-- A DISCARD is acknowledged (R114): the slot is freed, its shot finished, and the linking sequence goes
on. -/
def State.discardAnswered (s : State) (c : Camera) (slot : SlotNo) : State :=
  let s1 := s.setSlot c slot none
  let s2 := match s.lines[c].slots[slot] with
    | some r => s1.finishDiscarded c r
    | none => s1
  s2.linkingDiscarded c slot

/-- A RELINK is acknowledged (R115): a channel in its RELINK step makes the final try (R122) or stops
(R126), and the linking sequence goes on. -/
def State.relinkAnswered (s : State) (c : Camera) : State :=
  let s1 := match s.serving? c with
    | some (ch, w) =>
      if w.step = ChannelStep.relink then
        if s.shotStopping w.shot then s.discardReadout c ch w .stopping
        else (s.setChannel ch (some { w with step := .final })).pendRead c { w with step := .final }
      else s
    | none => s
  s1.linkingRelinked c

/-- A SENSE is answered (R115): the line takes the flags (R117), a CAMERA SENSE in progress is answered
(R130; log 14), and the linking sequence goes on (R127). -/
def State.senseAnswered (s : State) (c : Camera) (flags : FlagSet) (slot0 slot1 : Bool) : State :=
  let s1 := (s.setLine c (s.lines[c].takeFlags flags)).answerSense c flags slot0 slot1
  if s1.lines[c].linking = some .sense then s1.linkingSensed c flags slot0 slot1 else s1

/-! ## Timeouts (R116) -/

/-- An order has timed out: a READ is a failed attempt without flags (R113), a RELINK or a DISCARD sends
the line DOWN (R124), a SENSE sends it DOWN when it is the linking SENSE and otherwise fails the CAMERA
SENSE in progress (R127, R130). -/
def State.orderTimedOut (s : State) (c : Camera) (o : Order) : State :=
  match o with
  | .read _ _ _ =>
    match s.serving? c with
    | some (ch, w) => s.attemptFailed c ch w
    | none => s
  | .relink => s.goDown c .noAnswer
  | .discard _ => s.goDown c .noAnswer
  | .sense =>
    if s.lines[c].linking = some .sense then s.goDown c .noAnswer
    else s.failSense c .cameraNoAnswer

/-! ## The end of an order (R112) -/

/-- The line becomes free: a linking sequence that waited starts (R127), the next order is issued (R112),
and grants are tested (R120). -/
def State.afterOrder (s : State) (c : Camera) : State :=
  ((s.linkingResumed c).issueOrder c).grantAll

/-- The outstanding order of a line that an answer belongs to: the one issued at the elapsed count the
answer names. The answer to an order that has timed out finds none, whatever has been issued since (R116;
log 28). -/
def CameraLine.answered (l : CameraLine) (issued : Nat) : Option Outstanding :=
  l.outstanding.filter (fun o => o.ends = issued + orderTimeoutLength o.order)

/-- The outstanding order of a line ends: every party acts on it, unless a RESTART has made its result
ignored (R133), and the line goes on to its next order. -/
def State.endOrder (s : State) (c : Camera) (out : Outstanding) (act : State → State) : State :=
  let s1 := s.setLine c { s.lines[c] with outstanding := none }
  (if out.ignored then s1 else act s1).afterOrder c

end Sys2Proof.Machine
end

