-- ==== Sys2Proof/Machine/Fire.lean ====
section
/-! DEFINITION. The fire unit and strobe control (chapter 5): the six checks (R90), the strobe outcome
(R97 to R100), firing a shot (R102 to R105), and handing a due shot over (R86). -/

namespace Sys2Proof.Machine

/-- What the strobe control answers to a due shot at check 6 (R97). -/
inductive StrobeOutcome where
  /-- The camera names no strobe bank (R97). -/
  | noStrobe
  /-- A READY bank opens a flash (R98). -/
  | opens (bank : StrobeNo) (entry : StrobeEntry)
  /-- A RECHARGING bank whose window is open: the shot joins the flash (R99). -/
  | joins (flash : Flash)
  /-- The window has closed and the policy is FIRE_UNLIT (R100). -/
  | unlit
  /-- The window has closed and the policy is SKIP (R100). -/
  | skip
deriving DecidableEq, Repr, Inhabited

/-- The strobe bank a camera entry names, or none (9.11.3: 0 to 3, 0xFF NONE). -/
def CameraEntry.strobeBank (e : CameraEntry) : Option StrobeNo :=
  if h : e.strobe.toNat < 4 then some ⟨e.strobe.toNat, h⟩ else none

/-- The coincidence window of the latest flash is open (R97). -/
def Flash.windowOpen (f : Flash) (elapsed : Nat) : Bool := elapsed - f.since ≤ f.window

/-- Check 6 (R97): the strobe outcome of a shot of a camera under its bound bank. -/
def State.strobeOutcome (s : State) (bank : BankNo) (c : Camera) : StrobeOutcome :=
  match ((s.bank bank).cameras[c]).strobeBank with
  | none => .noStrobe
  | some b =>
    let e := (s.bank bank).strobes[b]
    let k := s.strobes[b]
    let late : StrobeOutcome := if e.policy = 1 then .skip else .unlit
    match k.recharge with
    | none => .opens b e
    | some _ =>
      match k.flash with
      | some f => if f.windowOpen s.clock.elapsed then .joins f else late
      | none => late

/-- The six checks of R90 in order: the strobe outcome of a shot that passes, or the skip reason. -/
def State.fireChecks (s : State) (bank : BankNo) (k : Shot) : Except SkipReason StrobeOutcome :=
  if (k.timing.map (·.captureAllowed)).getD false = false then .error .speed
  else if s.lines[k.camera].state ≠ .inService then .error .camera
  else if (s.fire[k.camera].busy).isSome then .error .cameraBusy
  else if (s.lines[k.camera].freeSlot).isNone then .error .cameraFull
  else if s.memory.canReserve k.segmentsExpected = false then .error .noSpace
  else match s.strobeOutcome bank k.camera with
    | .skip => .error .noFlash
    | o => .ok o

/-- Lighting by strobe outcome (R97 to R100). -/
def StrobeOutcome.lighting : StrobeOutcome → Lighting
  | .noStrobe => .none
  | .opens _ _ => .lit
  | .joins _ => .lit
  | .unlit | .skip => .unlit

/-- Flash sharing by strobe outcome: a joining shot records the opener and the flash start (R99). -/
def StrobeOutcome.sharing : StrobeOutcome → Option FlashSharing
  | .joins f => some ⟨f.opener, f.start⟩
  | .noStrobe | .opens _ _ | .unlit | .skip => none

/-- A shot that reaches a READY bank opens a flash (R98) and drives the flash pulse (R105). A pulse that ends in
this microsecond, and whose end is not taken yet, is replaced: the output stays high between the two (the
model's choice, log 32). -/
def State.openFlash (s : State) (r : ShotRef) (k : Shot) : StrobeOutcome → State
  | .opens b e =>
    s.setStrobe b {
      recharge := some (s.after e.recharge.toNat)
      flash := some ⟨s.now, r, e.window.toNat, s.clock.elapsed⟩
      output := some (s.after ((k.timing.map (·.flashWidth)).getD 0)) }
  | .noStrobe | .joins _ | .unlit | .skip => s

/-- A shot becomes SKIPPED with a reason and is reported (R90). -/
def State.skipShot (s : State) (r : ShotRef) (reason : SkipReason) : State :=
  (s.modifyShot r (fun k => { k with skipReason := some reason })).endShot r .skipped

/-- The record of a fired shot: HELD, with its actual fire time, lateness, lighting and flash sharing
(R102, R103). -/
def Shot.fired (k : Shot) (now : GantryTime) (o : StrobeOutcome) : Shot :=
  { k with
    state := .held
    actualFire := some now
    lateness := (timeDiff now (k.plannedFire.getD now)).toNat
    lighting := some o.lighting
    sharing := o.sharing }

/-- A shot joins the end of the readout queue (R106, R119). -/
def State.joinReadoutQueue (s : State) (r : ShotRef) : State :=
  { s with readout := { s.readout with queue := s.readout.queue ++ [r] } }

/-- A shot that has passed the six checks is fired, in the steps of R102, and handed to the readout
controller (R106). The busy interval is the longer of dead time and exposure width (R93); the trigger
pulse lasts the exposure width (R104). A pulse that ends in this microsecond, and whose end is not taken yet,
is replaced: the output stays high between the two (the model's choice, log 32). -/
def State.fireShot (s : State) (r : ShotRef) (bank : BankNo) (k : Shot) (o : StrobeOutcome) : State :=
  let width := (k.timing.map (·.exposureWidth)).getD 0
  let dead := ((s.bank bank).cameras[k.camera]).deadTime.toNat
  let s1 := s.setMemory (s.memory.reserve r k.segmentsExpected)
  let s2 := match s1.lines[k.camera].freeSlot with
    | some slot => s1.setSlot k.camera slot (some r)
    | none => s1
  let s3 := s2.setFire k.camera ⟨some (s2.after width), some (s2.after (max dead width))⟩
  let s4 := (s3.modifyShot r (fun q => q.fired s3.now o)).openFlash r k o
  (s4.joinReadoutQueue r).grantAll

/-- The fire unit decides a due shot: fired or SKIPPED (R90, R102). -/
def State.decideShot (s : State) (r : ShotRef) : State :=
  match s.passage? r.passage, s.shot? r with
  | some p, some k =>
    match s.fireChecks p.bank k with
    | .error reason => s.skipShot r reason
    | .ok o => s.fireShot r p.bank k o
  | _, _ => s

/-- A shot leaves the shot queue (R87). -/
def State.leaveShotQueue (s : State) (r : ShotRef) : State :=
  { s with shotQueue := s.shotQueue.filter (· != r) }

/-- A due shot is removed from the queue and handed to the fire unit (R86). -/
def State.handOver (s : State) (r : ShotRef) : State := (s.leaveShotQueue r).decideShot r

/-- A queued shot has fallen due: FROZEN, its fire time reached (R86). -/
def State.isDue (s : State) (r : ShotRef) : Bool :=
  match s.shot? r with
  | some k =>
    k.state == .frozen &&
      (match k.plannedFire with
        | some t => timeDiff t s.now ≤ 0
        | none => false)
  | none => false

/-- The first due shot in queue order (R86). -/
def State.firstDue (s : State) : Option ShotRef := s.shotQueue.find? s.isDue

end Sys2Proof.Machine
end

