-- ==== Sys2Proof/Machine/Planner.lean ====
section
/-! DEFINITION. The shot planner and the shot queue (chapter 4): the speed band (R75), the plane distance
(R79), timing (R80), placing by lead (R81), the order of the queue (R87), making shots (R77, R78, R82) and
re-timing them (R83). -/

namespace Sys2Proof.Machine

/-! ## Figures of a timing (R75, R79, R80) -/

/-- The speed band of a speed (R75). -/
def speedBand (speed : Nat) : Nat := min 255 (speed * 9 / 5000)

/-- The exposure entry of a band. -/
def Bank.exposureOf (b : Bank) (band : Nat) : ExposureEntry :=
  b.exposures[(⟨min band 255, by omega⟩ : Fin 256)]

/-- The plane distance of a camera for a passage (R79). -/
def planeDistance (t : TrackEntry) (c : CameraEntry) (d : Direction) : Int :=
  match d with
  | .ab => t.dA.toNat + c.planeOffset.toInt
  | .ba => t.dB.toNat - c.planeOffset.toInt

/-- A stored spacing in mm; an absent or unknown one reads as 0 (R19). -/
def Axle.mm (a : Axle) : Int :=
  match a.spacing with
  | .known mm => mm
  | .absent | .unknown => 0

/-- The sum of the stored spacings of the axles after the reference axle (R80). -/
def Passage.spacingSum (p : Passage) (reference : Nat) : Int :=
  ((p.axles.drop (reference + 1)).map Axle.mm).sum

/-- The timing of a shot from the latest stored axle of its passage (R80). -/
structure ShotTiming where
  record : Timing
  /-- The fire time, or none when the remaining distance is 0 or less. -/
  fireTime : Option GantryTime
deriving DecidableEq, Repr, Inhabited

/-- A shot timed from the latest stored axle (R80). The timing axle always has a speed there; without a
stored axle or a speed, states no run reaches, the figures read as 0 (log 19). -/
def Passage.timeShot (p : Passage) (b : Bank) (k : Shot) : ShotTiming :=
  let axle := p.axles.getLast?
  let speed := (axle.bind (·.speed)).getD 0
  let band := speedBand speed
  let e := b.exposureOf band
  let plane := planeDistance b.tracks[p.track] b.cameras[k.camera] p.direction
  let remaining := plane + k.position - p.spacingSum k.referenceAxle
  { record := ⟨p.axles.length - 1, speed, band, e.captureAllowed, e.exposureWidth.toNat,
      e.flashWidth.toNat⟩
    fireTime :=
      if 0 < remaining then
        some (timePlus ((axle.map (·.time)).getD 0)
          ((remaining * 1000000).tdiv speed + e.trim.toInt))
      else none }

/-! ## Placing (R81) -/

/-- Where a timing places a shot (R80, R81). -/
inductive Placing where
  | planned | frozen | dueAtOnce | late
deriving DecidableEq, Repr, Inhabited

/-- The placing of a fire time by its lead and the late tolerance (R81). -/
def placeByLead (lead : Int) (tolerance : Nat) : Placing :=
  if freezeWindow ≤ lead then .planned
  else if 0 ≤ lead then .frozen
  else if -(tolerance : Int) ≤ lead then .dueAtOnce
  else .late

/-- The shot state of a placing. -/
def Placing.state : Placing → ShotState
  | .planned => .planned
  | .frozen | .dueAtOnce => .frozen
  | .late => .late

/-- A shot with its timing recorded and placed (R80, R81): LATE by R80 keeps its planned fire time, LATE
by R81 takes the computed one and the tolerance as its lateness (log 13). -/
def Shot.timed (k : Shot) (t : ShotTiming) (now : GantryTime) (tolerance : Nat) : Shot × Placing :=
  match t.fireTime with
  | none => ({ k with timing := some t.record, state := .late }, .late)
  | some f =>
    let placing := placeByLead (timeDiff f now) tolerance
    ({ k with
        timing := some t.record
        plannedFire := some f
        state := placing.state
        lateness := if placing = .late then tolerance else k.lateness }, placing)

/-- A shot of a passage timed and placed now, under the passage's bound bank (R80, R81). -/
def State.timeShot (s : State) (p : Passage) (k : Shot) : Shot × Placing :=
  k.timed (p.timeShot (s.bank p.bank) k) s.now (s.trackEntry p).lateTolerance.toNat

/-! ## The shot queue (R87) -/

/-- Places of the shot queue (R87). -/
def shotQueuePlaces : Nat := 64

/-- The planned fire time of a queued shot. -/
def State.fireTimeOf (s : State) (r : ShotRef) : GantryTime :=
  match s.shot? r with
  | some k => k.plannedFire.getD 0
  | none => 0

/-- A passage's place in the opening order (section 2.1). -/
def State.openingIndex (s : State) (n : Nat) : Nat :=
  s.table.passages.findIdx (fun p => p.number == n)

/-- One shot comes before another in the shot queue: by fire time, then by opening order, then by shot
number (R87). -/
def State.queueBefore (s : State) (a b : ShotRef) : Bool :=
  let d := timeDiff (s.fireTimeOf a) (s.fireTimeOf b)
  if d < 0 then true
  else if d = 0 then
    let i := s.openingIndex a.passage
    let j := s.openingIndex b.passage
    if i < j then true else if i = j then a.shot < b.shot else false
  else false

/-- A shot inserted into the queue at the place its fire time gives it. -/
def State.insertQueue (s : State) (r : ShotRef) : List ShotRef → List ShotRef
  | [] => [r]
  | q :: rest => if s.queueBefore r q then r :: q :: rest else q :: s.insertQueue r rest

/-- A shot enters the queue (R82). -/
def State.joinShotQueue (s : State) (r : ShotRef) : State :=
  { s with shotQueue := s.insertQueue r s.shotQueue }

/-- A shot in the queue after its placing: one due at once is handed to the fire unit as soon as it is placed
(R81, R86). Of two shots that one event makes due at once, the one placed first is handed over first, even when
the other has the earlier fire time: R86 has 'as soon as it is placed' and 'in queue order', and the order is
the model's choice (log 26). -/
def State.afterPlacing (s : State) (r : ShotRef) (placing : Placing) : State :=
  if placing = .dueAtOnce then s.handOver r else s

/-! ## Making shots (R77, R78, R82) -/

/-- Shots of a passage at most (R78). -/
def shotListPlaces : Nat := 48

/-- A new shot record (R78). -/
def Shot.new (vehicle pantograph : Nat) (c : Camera) (reference : Nat) (position : Int)
    (segments : Nat) : Shot where
  vehicle := vehicle
  pantograph := pantograph
  camera := c
  referenceAxle := reference
  position := position
  state := .planned
  skipReason := none
  plannedFire := none
  timing := none
  actualFire := none
  lateness := 0
  lighting := none
  sharing := none
  flags := 0
  flagged := false
  segmentsExpected := segments
  segmentsStored := 0
  corrected := 0
  damaged := []
  pages := []

/-- A shot appended to a passage's shot list (R78). -/
def State.appendShot (s : State) (n : Nat) (k : Shot) : State :=
  s.modifyPassage n (fun p => { p with shots := p.shots ++ [k] })

/-- A shot made for a passage: SHOT_LIMIT at 48 (R78), else timed and placed (R82): LATE at once, SKIPPED
for a full queue, or queued. -/
def State.makeShot (s : State) (p : Passage) (k : Shot) : State :=
  if p.shots.length < shotListPlaces then
    let r : ShotRef := ⟨p.number, p.shots.length⟩
    let t := s.timeShot p k
    if t.2 = .late then (s.appendShot p.number t.1).checkSettled p.number
    else if s.shotQueue.length < shotQueuePlaces then
      ((s.appendShot p.number t.1).joinShotQueue r).afterPlacing r t.2
    else (s.appendShot p.number t.1).skipShot r .queueFull
  else s.recordFault p.number .shotLimit none none

/-- A camera photographs a passage: fitted, on its track, and its direction filter admits the passage's
direction (R77; 9.11.3: 0 AB, 1 BA, 2 BOTH). -/
def CameraEntry.photographs (e : CameraEntry) (p : Passage) : Bool :=
  e.fitted && e.track.toNat == p.track.val + 1
    && (e.directionFilter == 2 || e.directionFilter.toNat == p.direction.toCode)

/-- The cameras of a camera set in ascending order (9.11.2). -/
def cameraList (cameras : BitVec 16) : List Camera :=
  (List.finRange 12).filter (fun c => cameras.getLsbD c.val)

/-- One camera of a handed-over pantograph (R77). -/
def State.planCamera (s : State) (n vehicle pantograph reference : Nat) (position : Int) (c : Camera) :
    State :=
  match s.passage? n with
  | none => s
  | some p =>
    let e := (s.bank p.bank).cameras[c]
    if e.photographs p then
      s.makeShot p (Shot.new vehicle pantograph c reference position e.segments.toNat)
    else s

/-- A pantograph handed to the planner (R71, R77): a shot for each camera of its set. -/
def State.planPantograph (s : State) (n vehicle pantograph reference : Nat) (position : Int)
    (cameras : BitVec 16) : State :=
  (cameraList cameras).foldl
    (fun q c => q.planCamera n vehicle pantograph reference position c) s

/-! ## Re-timing (R83) -/

/-- One shot of a passage re-timed from the latest stored axle, if it is PLANNED (R83). -/
def State.retimeShot (s : State) (r : ShotRef) : State :=
  match s.passage? r.passage, s.shot? r with
  | some p, some k =>
    if k.state = .planned then
      let t := s.timeShot p k
      let s1 := (s.leaveShotQueue r).modifyShot r (fun _ => t.1)
      if t.2 = .late then s1.checkSettled r.passage
      else (s1.joinShotQueue r).afterPlacing r t.2
    else s
  | _, _ => s

/-- Every PLANNED shot of a passage re-timed, in shot-number order (R83). -/
def State.retimeAll (s : State) (n : Nat) : State :=
  match s.passage? n with
  | none => s
  | some p => (List.range p.shots.length).foldl (fun q i => q.retimeShot ⟨n, i⟩) s

/-- A PLANNED shot's freeze time is reached: its planned fire time less 2,000 µs (R81, R85). -/
def State.freezeDue (s : State) (r : ShotRef) : Bool :=
  match s.shot? r with
  | some k =>
    k.state == .planned &&
      (match k.plannedFire with
        | some t => timeDiff t s.now ≤ freezeWindow
        | none => false)
  | none => false

end Sys2Proof.Machine
end

