-- ==== Sys2Proof/Machine/Matcher.lean ====
section
/-! DEFINITION. The consist matcher (chapter 3): candidates (R59), when a candidate is decidable and when
it fits (R60 to R62), the decision at the cursor (R63, R64), the vehicle-list limit (R65, R66), runs
(R67, R68) and the hand-over of pantographs (R71). -/

namespace Sys2Proof.Machine

/-! ## Profiles (R54, R55) -/

/-- Axle count of a profile. -/
def ProfileEntry.axles (e : ProfileEntry) : Nat := e.axleCount.toNat

/-- Internal spacing s(j), j from 1. -/
def ProfileEntry.spacing (e : ProfileEntry) (j : Nat) : Nat :=
  (e.spacings.toList.getD (j - 1) 0).toNat

/-- Length over axles L, the sum s1 + … + s(n−1). -/
def ProfileEntry.length (e : ProfileEntry) : Nat :=
  ((e.spacings.toList.take (e.axles - 1)).map (·.toNat)).sum

/-- The profile spacing that the measured spacing of axle c + j is compared with (R55). -/
def ProfileEntry.expected (e : ProfileEntry) (o : Orientation) (j : Nat) : Nat :=
  match o with
  | .forward => e.spacing j
  | .reversed => e.spacing (e.axles - j)

/-- The position of a pantograph behind the vehicle's first-passing axle (R55). -/
def ProfileEntry.position (e : ProfileEntry) (o : Orientation) (p : PantographEntry) : Int :=
  match o with
  | .forward => p.offset.toInt
  | .reversed => e.length - p.offset.toInt

/-! ## Candidates (R59 to R62) -/

/-- A candidate: a profile in an orientation (R59). -/
structure Candidate where
  profile : Fin 64
  orientation : Orientation
deriving DecidableEq, Repr, Inhabited

/-- The candidates of one profile entry (R55, R59). -/
def profileCandidates (b : Bank) (k : Fin 64) : List Candidate :=
  let e := b.profiles[k]
  if e.present then
    if e.symmetric then [⟨k, .forward⟩] else [⟨k, .forward⟩, ⟨k, .reversed⟩]
  else []

/-- The candidates of a bank in their order (R59). -/
def Bank.candidates (b : Bank) : List Candidate := (List.finRange 64).flatMap (profileCandidates b)

/-- A measured spacing matches a profile spacing within the tolerance (R62); an unknown one matches
none. -/
def Axle.matches (a : Axle) (expected tolerance : Nat) : Bool :=
  match a.spacing with
  | .known mm => (mm - (expected : Int)).natAbs ≤ tolerance
  | .absent | .unknown => false

/-- A measured spacing lies within the trailing gap (R62). -/
def Axle.inGap (a : Axle) (low high : Nat) : Bool :=
  match a.spacing with
  | .known mm => (low : Int) ≤ mm && mm ≤ (high : Int)
  | .absent | .unknown => false

/-- What a candidate shows at the cursor. -/
inductive Verdict where
  | undecidable | fits | unfit
deriving DecidableEq, Repr, Inhabited

/-- Every internal spacing of a candidate matches (R62). -/
def internalMatch (axles : List Axle) (cursor : Nat) (e : ProfileEntry) (o : Orientation) : Bool :=
  (List.range (e.axles - 1)).all (fun i =>
    match axles[cursor + (i + 1)]? with
    | some a => a.matches (e.expected o (i + 1)) e.tolerance.toNat
    | none => false)

/-- A candidate laid against the axle list at the cursor, in APPROACHING or in TAIL (R60 to R62). -/
def verdict (axles : List Axle) (inTail : Bool) (cursor : Nat) (e : ProfileEntry) (o : Orientation) :
    Verdict :=
  match axles[cursor + e.axles]? with
  | some trailing =>
    if internalMatch axles cursor e o && trailing.inGap e.gapMin.toNat e.gapMax.toNat then .fits
    else .unfit
  | none =>
    if inTail then
      if axles.length = cursor + e.axles && internalMatch axles cursor e o then .fits else .unfit
    else .undecidable

/-- The decision at the cursor (R63). -/
inductive Decision where
  | accept (candidate : Candidate)
  | wait
  | unmatched
deriving DecidableEq, Repr, Inhabited

/-- The first candidate that is not decidable-and-not-fitting decides (R63). -/
def decideAt (b : Bank) (axles : List Axle) (inTail : Bool) (cursor : Nat) : Decision :=
  ((b.candidates).findSome? (fun c =>
    match verdict axles inTail cursor b.profiles[c.profile] c.orientation with
    | .unfit => none
    | .undecidable => some Decision.wait
    | .fits => some (Decision.accept c))).getD .unmatched

/-! ## Steps of a run (R63 to R66) -/

/-- A MATCHED entry appended and the cursor advanced (R63). -/
def Passage.acceptVehicle (p : Passage) (c : Candidate) (e : ProfileEntry) : Passage :=
  { p with
    vehicles := p.vehicles ++
      [⟨.matched c.profile c.orientation e.pantographCount.toNat, p.cursor, e.axles⟩]
    cursor := p.cursor + e.axles
    stretchOpen := false }

/-- The pantographs of an accepted vehicle handed over in order (R71). -/
def State.handPantographs (s : State) (n vehicle reference : Nat) (c : Candidate) (e : ProfileEntry) :
    State :=
  (e.pantographs.toList.take e.pantographCount.toNat).zipIdx.foldl
    (fun q x => q.planPantograph n vehicle x.2 reference (e.position c.orientation x.1) x.1.cameras) s

/-- A vehicle accepted at the cursor (R63): its entry, then its pantographs. -/
def State.acceptVehicle (s : State) (p : Passage) (c : Candidate) : State :=
  let e := (s.bank p.bank).profiles[c.profile]
  (s.modifyPassage p.number (·.acceptVehicle c e)).handPantographs p.number p.vehicles.length p.cursor
    c e

/-- The last vehicle entry grown by a number of axles, the cursor with it (R64, R66). -/
def Passage.growLast (p : Passage) (n : Nat) : Passage :=
  { p with
    vehicles := p.vehicles.modify (p.vehicles.length - 1)
      (fun v => { v with axleCount := v.axleCount + n })
    cursor := p.cursor + n }

/-- The last entry is a STRETCH that is still open (R64). -/
def Passage.inStretch (p : Passage) : Bool :=
  p.stretchOpen && (match p.vehicles.getLast? with | some v => v.kind == .stretch | none => false)

/-- The vehicle list holds a REMAINDER (R66). -/
def Passage.hasRemainder (p : Passage) : Bool := p.vehicles.any (fun v => v.kind == .remainder)

/-- An unmatched axle joins the open stretch or starts a new one with UNMATCHED_AXLES (R64). -/
def Passage.unmatchedAxle (p : Passage) : Passage :=
  if p.inStretch then p.growLast 1
  else
    ({ p with
      vehicles := p.vehicles ++ [Vehicle.mk .stretch p.cursor 1]
      cursor := p.cursor + 1
      stretchOpen := true }).recordFault .unmatchedAxles (some p.cursor) none

/-- A REMAINDER entry takes every stored axle from the cursor on, with VEHICLE_OVERFLOW (R65). -/
def Passage.startRemainder (p : Passage) : Passage :=
  ({ p with
    vehicles := p.vehicles ++ [Vehicle.mk .remainder p.cursor (p.axles.length - p.cursor)]
    cursor := p.axles.length }).recordFault .vehicleOverflow (some p.cursor) none

/-- Vehicle entries that the matcher makes itself at most (section 3.5). -/
def matchedVehiclePlaces : Nat := 23

/-- A run of the matcher for a passage (R67). Each step that continues the run advances the cursor, so
the bound, the number of stored axles, is never met. -/
def State.runMatcher : Nat → State → Nat → State
  | 0, s, _ => s
  | bound + 1, s, n =>
    match s.passage? n with
    | none => s
    | some p =>
      if p.axles.length ≤ p.cursor then s
      else if p.hasRemainder then
        s.modifyPassage n (fun q => q.growLast (q.axles.length - q.cursor))
      else if matchedVehiclePlaces ≤ p.vehicles.length then s.modifyPassage n (·.startRemainder)
      else
        match decideAt (s.bank p.bank) p.axles (p.state = .tail) p.cursor with
        | .wait => s
        | .accept c => State.runMatcher bound (s.acceptVehicle p c) n
        | .unmatched => State.runMatcher bound (s.modifyPassage n (·.unmatchedAxle)) n

/-- The run at a stored axle (R32), or at the tail declaration (R34). -/
def State.matchPassage (s : State) (n : Nat) : State := State.runMatcher 129 s n

/-- The run at a tail declaration, which ends by closing the stretch (R68). -/
def State.matchTail (s : State) (n : Nat) : State :=
  (s.matchPassage n).modifyPassage n (fun p => { p with stretchOpen := false })

end Sys2Proof.Machine
end

