-- ==== Sys2Proof/Machine/Tracks.lean ====
section
/-! DEFINITION. Track monitors and axles (chapters 1 and 2): crossings by track state (R11 to R14), pair
FIFOs (R15 to R17), speed and spacing (R18, R19), opening a passage (R27 to R29), an axle handed over
(R31, R32, R35), exit counting (R36), the tail declaration (R34) and the exit timeout (R38). -/

namespace Sys2Proof

/-- The side a head stands on. -/
def Head.side : Head → Side
  | .a1 | .a2 => .sideA
  | .b2 | .b1 => .sideB

/-- An outer head (A1, B1). -/
def Head.isOuter : Head → Bool
  | .a1 | .b1 => true
  | .a2 | .b2 => false

end Sys2Proof

namespace Sys2Proof.Machine

/-- The approach side of a direction (00_scope section 2). -/
def Direction.approach : Direction → Side
  | .ab => .sideA
  | .ba => .sideB

/-- The direction of a passage opened at an outer head of a side (R13). -/
def directionFrom : Side → Direction
  | .sideA => .ab
  | .sideB => .ba

/-! ## Pair FIFOs (R15, R16) -/

def TrackMonitor.fifo (m : TrackMonitor) : Side → List PairEntry
  | .sideA => m.fifoA
  | .sideB => m.fifoB

def TrackMonitor.setFifo (m : TrackMonitor) (side : Side) (f : List PairEntry) : TrackMonitor :=
  match side with
  | .sideA => { m with fifoA := f }
  | .sideB => { m with fifoB := f }

/-- Entries of a pair FIFO at most (section 1.6). -/
def fifoPlaces : Nat := 4

/-- An outer approach crossing pushed into the approach side's FIFO; a full FIFO drops its oldest entry
with PAIR_OVERFLOW (R15). -/
def State.pushCrossing (s : State) (t : Track) (p : Passage) (side : Side) : State :=
  let m := s.tracks[t]
  let f := m.fifo side
  let entry : PairEntry := ⟨s.now, s.after pairTimeoutLength⟩
  if f.length < fifoPlaces then s.setTrack t (m.setFifo side (f ++ [entry]))
  else
    (s.setTrack t (m.setFifo side (f.drop 1 ++ [entry]))).recordFault p.number .pairOverflow none none

/-! ## Speed and spacing (R18, R19) -/

/-- The measured speed, or none when it is implausible (R18). -/
def measuredSpeed (headSpacing : Nat) (transit : Int) : Option Nat :=
  if 0 < transit then
    let v := headSpacing * 1000000 / transit.toNat
    if v ≤ 150000 then some v else none
  else none

/-- The spacing to the stored axle before (R19). -/
def axleSpacing (previous : Option Axle) (time : GantryTime) (speed : Option Nat) : Spacing :=
  match previous with
  | none => .absent
  | some a =>
    match a.speed, speed with
    | some u, some v => .known ((timeDiff time a.time * ((v : Int) + u)).tdiv 2000000)
    | _, _ => .unknown

/-- The axle of a paired outer and inner crossing of a passage (R17 to R19). -/
def Passage.deriveAxle (p : Passage) (headSpacing : Nat) (outer inner : GantryTime) : Axle :=
  let measured := measuredSpeed headSpacing (timeDiff inner outer)
  let speed := measured.or p.speed
  { time := inner
    speed := speed
    speedValid := measured.isSome
    spacing := axleSpacing p.axles.getLast? inner speed }

/-- The head spacing of the approach side in the bound bank (R7, R18). -/
def State.headSpacing (s : State) (p : Passage) : Nat :=
  match p.direction with
  | .ab => (s.trackEntry p).headSpacingA.toNat
  | .ba => (s.trackEntry p).headSpacingB.toNat

/-! ## An axle handed over (R31, R32, R35) -/

/-- Stored axles of a passage at most (R31). -/
def axleListPlaces : Nat := 128

/-- The index a new axle takes when it is stored (R31). -/
def Passage.nextAxle (p : Passage) : Option Nat :=
  if p.axles.length < axleListPlaces then some p.axles.length else none

/-- A passage in TAIL reopens (R35). -/
def Passage.reopen (p : Passage) : Passage :=
  ({ p with state := .approaching, exitTimeout := none, tailTime := none }).recordFault
    .tailReopened p.nextAxle none

/-- A passage takes an axle: total, speed, and the axle stored or AXLE_OVERFLOW (R31). -/
def Passage.takeAxle (p : Passage) (a : Axle) : Passage :=
  let q : Passage := { p with axleTotal := countUp 65535 p.axleTotal, speed := a.speed }
  if p.axles.length < axleListPlaces then { q with axles := p.axles ++ [a] }
  else q.recordFault .axleOverflow none none

/-- The record of a passage after an axle: SPEED_IMPLAUSIBLE (R18), the reopen (R35), the axle (R31). -/
def Passage.receiveAxle (p : Passage) (a : Axle) : Passage :=
  let p1 := if a.speedValid then p else p.recordFault .speedImplausible p.nextAxle none
  let p2 := if p1.state = .tail then p1.reopen else p1
  p2.takeAxle a

/-- An axle handed over to its passage (R31, R32): record, tail window (R33), and for a stored axle the
matcher's run and the re-timing. -/
def State.handAxle (s : State) (p : Passage) (a : Axle) : State :=
  let s1 := (s.modifyPassage p.number (·.receiveAxle a)).startTailWindow p.number
  if p.axles.length < axleListPlaces then (s1.matchPassage p.number).retimeAll p.number else s1

/-- An inner approach crossing pairs with the oldest entry, or records HEAD_ORDER (R17). -/
def State.pairCrossing (s : State) (t : Track) (p : Passage) (side : Side) : State :=
  let m := s.tracks[t]
  match m.fifo side with
  | [] => s.recordFault p.number .headOrder none none
  | entry :: rest =>
    (s.setTrack t (m.setFifo side rest)).handAxle p
      (p.deriveAxle (s.headSpacing p) entry.time s.now)

/-! ## Exit crossings (R36) -/

/-- An outer exit crossing counted, with EXIT_EXCESS above the axle total (R36). -/
def Passage.countExit (p : Passage) : Passage :=
  let n := countUp 65535 p.exitCount
  let q : Passage := { p with exitCount := n }
  if p.axleTotal < n then q.recordFault .exitExcess none none else q

/-- An outer exit crossing: counted, then clearance by count is checked in TAIL (R36, R37). -/
def State.exitCrossing (s : State) (n : Nat) : State :=
  (s.modifyPassage n (·.countExit)).checkCleared n

/-! ## Opening (R27 to R29) -/

/-- The number after a passage number, 65,535 followed by 1 (R28). -/
def numberAfter (n : Nat) : Nat := if n = 65535 then 1 else n + 1

/-- The counter advanced past the numbers of live passages, at most 7 of them (R28). -/
def unusedNumber : Nat → List Nat → Nat → Nat
  | 0, _, n => n
  | k + 1, held, n => if held.contains n then unusedNumber k held (numberAfter n) else n

/-- Entries of the passage table (R26). -/
def passagePlaces : Nat := 8

/-- A new passage record (R27). -/
def Passage.new (number : Nat) (t : Track) (d : Direction) (b : BankNo) (epoch : Byte)
    (time : GantryTime) (tailWindow : Nat) : Passage where
  number := number
  track := t
  direction := d
  bank := b
  epoch := epoch
  state := .approaching
  openTime := time
  tailTime := none
  clearTime := none
  settle := none
  axleTotal := 0
  speed := none
  axles := []
  exitCount := 0
  cursor := 0
  vehicles := []
  stretchOpen := false
  shots := []
  faults := ⟨none, 0⟩
  abandonReason := none
  tailWindow := some tailWindow
  exitTimeout := none

/-- The number a passage opened now takes (R28). -/
def State.newNumber (s : State) : Nat :=
  unusedNumber passagePlaces (s.table.passages.map (·.number)) s.table.nextNumber

/-- A passage is opened: record, PASSAGE_OPENED, the track OCCUPIED, and the crossing pushed (R13,
R27). -/
def State.openPassage (s : State) (t : Track) (side : Side) (b : BankNo) : State :=
  let n := s.newNumber
  let d := directionFrom side
  let p := Passage.new n t d b s.clock.epoch s.now (s.after (tailWindowLength 0 none))
  let s1 := { s with table := ⟨s.table.passages ++ [p], numberAfter n⟩ }
  let s2 := s1.queueNotice (.passageOpened n t d b s.now)
  (s2.trackTo t .occupied).pushCrossing t p side

/-- An outer-head crossing on a VACANT track asks for a passage: opened on the ACTIVE bank, or refused when
8 are live (R27, R29). A VACANT track always finds an ACTIVE bank (R27; log 19). -/
def State.askOpening (s : State) (t : Track) (side : Side) : State :=
  if s.table.passages.length < passagePlaces then
    s.openPassage t side (s.banks.active?.getD 0)
  else (s.queueNotice (.openRefused t (directionFrom side) s.now)).trackTo t .ignoring

/-! ## Crossings (R11 to R14) -/

/-- A crossing on an OCCUPIED track routed by its head (R14). -/
def State.routeCrossing (s : State) (t : Track) (h : Head) (p : Passage) : State :=
  if h.side = p.direction.approach then
    if h.isOuter then s.pushCrossing t p h.side else s.pairCrossing t p h.side
  else if h.isOuter then s.exitCrossing p.number
  else s

/-- A crossing handled by its track monitor (R8, R11 to R14). -/
def State.crossing (s : State) (t : Track) (h : Head) : State :=
  match s.tracks[t].state with
  | .disarmed | .headFault => s
  | .ignoring => s.trackTo t .ignoring
  | .vacant =>
    if h.isOuter then s.askOpening t h.side else s.queueNotice (.strayCrossing t h s.now)
  | .occupied =>
    match s.openPassageOn t with
    | some p => s.routeCrossing t h p
    | none => s

/-! ## Timers (R12, R16, R34, R38) -/

/-- The oldest entry of a pair FIFO times out with PAIR_TIMEOUT (R16). -/
def State.expirePair (s : State) (t : Track) (side : Side) : State :=
  let m := s.tracks[t]
  match m.fifo side with
  | [] => s
  | entry :: rest =>
    if s.ended (some entry.ends) then
      let s1 := s.setTrack t (m.setFifo side rest)
      match s.openPassageOn t with
      | some p => s1.recordFault p.number .pairTimeout none none
      | none => s1
    else s

/-- A passage enters TAIL (R34). -/
def Passage.enterTail (p : Passage) (now : GantryTime) (exitEnds : Nat) : Passage :=
  { p with state := .tail, tailTime := some now, tailWindow := none, exitTimeout := some exitEnds }

/-- The tail declaration (R34): TAIL, the matcher's run, clearance by count. -/
def State.declareTail (s : State) (p : Passage) : State :=
  let ends := s.after (s.trackEntry p).exitTimeout.toNat
  ((s.modifyPassage p.number (·.enterTail s.now ends)).matchTail p.number).checkCleared p.number

/-- The exit timeout expires in TAIL: EXIT_SHORT, and the passage clears short (R38). -/
def State.clearShort (s : State) (p : Passage) : State :=
  (s.recordFault p.number .exitShort none none).clearPassage p .ignoring

end Sys2Proof.Machine
end

