-- ==== Sys2Proof/Machine/Abandon.lean ====
section
/-! DEFINITION. Abandon (R42 to R44, R88, R125) and the health of the detector heads (R9, R10). -/

namespace Sys2Proof.Machine

/-- A HELD shot of a stopping passage leaves the readout queue, returns its reservation, and gets a
DISCARD of its slot placed; it stays HELD until the DISCARD ends (R125). -/
def State.discardHeld (s : State) (r : ShotRef) (c : Camera) : State :=
  let s1 := (s.leaveReadoutQueue r).returnPages r none
  match s1.lines[c].slotOf r with
  | some slot => s1.placeOrder c (.discard slot)
  | none => s1

/-- A shot of a passage that enters STOPPING, by its state (R44, R88, R125). A READING shot goes on until
its channel's order ends (R126), and a terminal shot is kept. -/
def State.windDownShot (s : State) (r : ShotRef) : State :=
  match s.shot? r with
  | some k =>
    match k.state with
    | .planned | .frozen =>
      (s.leaveShotQueue r).modifyShot r (fun q => { q with state := .cancelled })
    | .held => s.discardHeld r k.camera
    | .reading | .stored | .partialStored | .failed | .lost | .late | .skipped | .cancelled => s
  | none => s

/-- The shots of a passage that enters STOPPING are taken in shot-number order: R88's order for those to fire;
for the HELD ones, whose DISCARDs no rule orders, the model's choice (log 31). -/
def State.windDown (s : State) (p : Passage) : State :=
  (List.range p.shots.length).foldl (fun q i => q.windDownShot ⟨p.number, i⟩) s

/-- The record of a passage given its abandon reason (R42, R43). -/
def Passage.giveReason (p : Passage) (reason : AbandonReason) : Passage :=
  { p with abandonReason := some reason }

/-- The record of a passage that goes from CLEAR to STOPPING (R42). -/
def Passage.stop (p : Passage) : Passage := { p with state := .stopping }

/-- A passage enters STOPPING (R42, R43): its reason is set, and from APPROACHING or TAIL the change of R39
is made with the track's next state. -/
def State.stopPassage (s : State) (p : Passage) (reason : AbandonReason) (track : TrackState) : State :=
  let s1 := s.modifyPassage p.number (·.giveReason reason)
  if p.isOpen then s1.leaveOpen p .stopping track else s1.modifyPassage p.number (·.stop)

/-- A passage is abandoned (R42, R43): it enters STOPPING, winds down and is checked for settlement
(R44). -/
def State.abandon (s : State) (p : Passage) (reason : AbandonReason) (track : TrackState) : State :=
  ((s.stopPassage p reason track).windDown p).checkSettled p.number

/-- The open passage of a track is abandoned by a head fault (R43). -/
def State.abandonByFault (s : State) (t : Track) : State :=
  match s.openPassageOn t with
  | some p => (s.recordFault p.number .headFault none none).abandon p .headFault .headFault
  | none => s

/-- The health of a head changed. -/
def State.setHealth (s : State) (t : Track) (h : Head) (v : Health) : State :=
  s.setTrack t { s.tracks[t] with health := s.tracks[t].health.set h v }

/-- What a fault of a head leads to by the track's state (R9). -/
def State.actOnFault (s : State) (t : Track) : State :=
  match s.tracks[t].state with
  | .disarmed | .headFault => s
  | .ignoring | .vacant => s.trackTo t .headFault
  | .occupied => (s.trackTo t .headFault).abandonByFault t

/-- All four heads of a track are healthy. -/
def HeadHealth.allWell (h : HeadHealth) : Bool := h == .allHealthy

/-- A head recovers: a HEAD_FAULT track whose heads are all healthy goes to IGNORING (R10). -/
def State.actOnRecovery (s : State) (t : Track) : State :=
  if s.tracks[t].state = .headFault ∧ HeadHealth.allWell s.tracks[t].health then
    s.trackTo t .ignoring
  else s

end Sys2Proof.Machine
end

