-- ==== Sys2Proof/Machine/Banks.lean ====
section
/-! DEFINITION. Table banks and the transaction unit (chapter 8): begin (R159, R160), put (R161), end
(R163), abort (R164), validation (R166, R167) and the commit (R169, R170). -/

namespace Sys2Proof.Machine

/-! ## Validation (R166, R167, R168) -/

/-- The failing condition of a commit, as FAILED TABLE_INVALID carries it (R168, 9.11.1). -/
structure Failure where
  kind : Nat
  index : Nat
  condition : Nat
  sub : Nat
  camera : Option Nat
deriving DecidableEq, Repr, Inhabited

/-- The data of FAILED TABLE_INVALID (9.11.1). -/
def Failure.encode (f : Failure) : List Byte :=
  byteOf f.kind ++ byteOf f.index ++ byteOf f.condition ++ byteOf f.sub
    ++ byteOf (f.camera.getD 0xFF)

/-- The first check that fails in a list of (passes, failure). -/
def firstFailing (checks : List (Bool × Failure)) : Option Failure :=
  (checks.find? (fun c => !c.1)).map (·.2)

/-- A figure lies in a range, both ends included. -/
def within (low high n : Int) : Bool := low ≤ n && n ≤ high

/-- A track entry (R6): its figures in the order of the table of section 1.2. -/
def TrackEntry.check (e : TrackEntry) (index : Nat) : Option Failure :=
  if e.fitted then
    firstFailing [
      (within 1000 5000 e.headSpacingA.toNat, ⟨1, index, 2, 0, none⟩),
      (within 1000 5000 e.headSpacingB.toNat, ⟨1, index, 3, 0, none⟩),
      (within 20000 400000 e.dA.toNat, ⟨1, index, 4, 0, none⟩),
      (within 20000 400000 e.dB.toNat, ⟨1, index, 5, 0, none⟩),
      (within 20000 200000 e.tailDistance.toNat, ⟨1, index, 6, 0, none⟩),
      (within 1000000 60000000 e.exitTimeout.toNat, ⟨1, index, 7, 0, none⟩),
      (within 1000000 60000000 e.quietTime.toNat, ⟨1, index, 8, 0, none⟩),
      (within 0 500 e.lateTolerance.toNat, ⟨1, index, 9, 0, none⟩)]
  else none

/-- A camera entry (R109). -/
def CameraEntry.check (e : CameraEntry) (index : Nat) : Option Failure :=
  if e.fitted then
    firstFailing [
      (within 1 4 e.track.toNat, ⟨2, index, 2, 0, none⟩),
      (within (-20000) 20000 e.planeOffset.toInt, ⟨2, index, 3, 0, none⟩),
      (within 0 2 e.directionFilter.toNat, ⟨2, index, 4, 0, none⟩),
      (within 0 3 e.strobe.toNat || e.strobe == 0xFF, ⟨2, index, 5, 0, none⟩),
      (within 1 64 e.segments.toNat, ⟨2, index, 6, 0, none⟩),
      (within 100 50000 e.deadTime.toNat, ⟨2, index, 7, 0, none⟩)]
  else none

/-- A strobe-bank entry (R96). -/
def StrobeEntry.check (e : StrobeEntry) (index : Nat) : Option Failure :=
  if e.fitted then
    firstFailing [
      (within 1000 100000 e.recharge.toNat, ⟨3, index, 2, 0, none⟩),
      (within 0 200 e.window.toNat, ⟨3, index, 3, 0, none⟩),
      (within 0 1 e.policy.toNat, ⟨3, index, 4, 0, none⟩)]
  else none

/-- The global entry (R149). -/
def GlobalEntry.check (e : GlobalEntry) : Option Failure :=
  firstFailing [(within 0 8192 e.threshold.toNat, ⟨4, 0, 1, 0, none⟩)]

/-- The checks of one pantograph (R56). -/
def PantographEntry.checks (p : PantographEntry) (index sub length : Nat) : List (Bool × Failure) :=
  [(within (-15000) (length + 15000) p.offset.toInt, ⟨5, index, 9, sub, none⟩),
    (p.cameras != 0 && p.cameras.toNat < 4096, ⟨5, index, 10, sub, none⟩)]

/-- A profile (R56): axle count, spacings, tolerance, gaps and their order, pantographs. -/
def ProfileEntry.check (e : ProfileEntry) (index : Nat) : Option Failure :=
  if e.present then
    firstFailing (
      (within 2 8 e.axles, ⟨5, index, 2, 0, none⟩)
        :: (List.range (e.axles - 1)).map (fun i =>
            (within 1000 30000 (e.spacing (i + 1)), ⟨5, index, 3, i + 1, none⟩))
        ++ [(within 20 500 e.tolerance.toNat, ⟨5, index, 4, 0, none⟩),
          (within 1000 40000 e.gapMin.toNat, ⟨5, index, 5, 0, none⟩),
          (within 1000 40000 e.gapMax.toNat, ⟨5, index, 6, 0, none⟩),
          (e.gapMin.toNat ≤ e.gapMax.toNat, ⟨5, index, 0x87, 0, none⟩),
          (within 0 3 e.pantographCount.toNat, ⟨5, index, 8, 0, none⟩)]
        ++ (e.pantographs.toList.take e.pantographCount.toNat).zipIdx.flatMap
            (fun x => x.1.checks index x.2 e.length))
  else none

/-- An exposure entry (R74). -/
def ExposureEntry.check (e : ExposureEntry) (index : Nat) : Option Failure :=
  firstFailing [
    (within (-2000) 2000 e.trim.toInt, ⟨6, index, 4, 0, none⟩),
    (!e.captureAllowed || within 5 1000 e.exposureWidth.toNat, ⟨6, index, 2, 0, none⟩),
    (!e.captureAllowed || within 5 1000 e.flashWidth.toNat, ⟨6, index, 3, 0, none⟩)]

/-- The single-entry checks of a bank in the order of R166. -/
def Bank.checkEntries (b : Bank) : Option Failure :=
  ((List.finRange 4).findSome? (fun t => (b.tracks[t]).check (t.val + 1)))
    |>.or ((List.finRange 12).findSome? (fun c => (b.cameras[c]).check c.val))
    |>.or ((List.finRange 4).findSome? (fun k => (b.strobes[k]).check k.val))
    |>.or b.global.check
    |>.or ((List.finRange 64).findSome? (fun k => (b.profiles[k]).check k.val))
    |>.or ((List.finRange 256).findSome? (fun k => (b.exposures[k]).check k.val))

/-- Condition 1 of R167 over one profile: every camera of its camera sets is fitted. -/
def Bank.checkProfileCameras (b : Bank) (k : Fin 64) : Option Failure :=
  let e := b.profiles[k]
  if e.present then
    firstFailing ((e.pantographs.toList.take e.pantographCount.toNat).zipIdx.flatMap (fun x =>
      (cameraList x.1.cameras).map (fun c =>
        ((b.cameras[c]).fitted, ⟨5, k.val, 0x81, x.2, some c.val⟩))))
  else none

/-- The track entry a camera entry names (R167): condition 2 shows that there is one. -/
def Bank.trackOf (b : Bank) (e : CameraEntry) : TrackEntry :=
  if h : 1 ≤ e.track.toNat ∧ e.track.toNat ≤ 4 then b.tracks[(⟨e.track.toNat - 1, by omega⟩ : Track)]
  else .empty

/-- The strobe bank a camera names, if any, is fitted (R167). -/
def Bank.strobeFitted (b : Bank) (e : CameraEntry) : Bool :=
  match e.strobeBank with
  | some k => (b.strobes[k]).fitted
  | none => true

/-- Conditions 2 to 5 of R167 over one camera. -/
def Bank.checkCamera (b : Bank) (c : Camera) : Option Failure :=
  let e := b.cameras[c]
  let t := b.trackOf e
  if e.fitted then
    firstFailing [
      (t.fitted, ⟨2, c.val, 0x82, 0, none⟩),
      (b.strobeFitted e, ⟨2, c.val, 0x83, 0, none⟩),
      (10000 ≤ planeDistance t e .ab, ⟨2, c.val, 0x84, 0, none⟩),
      (10000 ≤ planeDistance t e .ba, ⟨2, c.val, 0x85, 0, none⟩)]
  else none

/-- Condition 6 of R167 over one track: a track that is not fitted is DISARMED. -/
def State.checkTrackDisarmed (s : State) (b : Bank) (t : Track) : Option Failure :=
  if (b.tracks[t]).fitted = false ∧ s.tracks[t].state ≠ .disarmed then
    some ⟨1, t.val + 1, 0x86, 0, none⟩
  else none

/-- Validation of a bank (R166, R167): the first failing condition, or none. -/
def State.validate (s : State) (b : Bank) : Option Failure :=
  b.checkEntries
    |>.or ((List.finRange 64).findSome? b.checkProfileCameras)
    |>.or ((List.finRange 12).findSome? b.checkCamera)
    |>.or ((List.finRange 4).findSome? (s.checkTrackDisarmed b))

/-! ## Transactions (R159 to R164) -/

/-- The bank staged by the open transaction, or none at depth 0 (R156). -/
def Banks.open? (b : Banks) : Option BankNo := if b.depth = 0 then none else b.staging?

/-- The other bank. -/
def otherBank (b : BankNo) : BankNo := if b = 0 then 1 else 0

/-- The bank TABLE BEGIN stages at depth 0 (R157). -/
def Banks.toStage (b : Banks) : BankNo :=
  match b.active? with
  | some k => otherBank k
  | none => 0

/-- A bank set in state and contents. -/
def Banks.setSlot (b : Banks) (k : BankNo) (st : BankState) (contents : Bank) : Banks :=
  { b with slots := setAt b.slots k ⟨st, contents⟩ }

/-- A bank staged (R159): a copy of the ACTIVE bank, kept as the restore image too, or the empty bank
while COLD. -/
def Banks.stage (b : Banks) (k : BankNo) : Banks :=
  match b.active? with
  | some a =>
    let copy := b.slots[a].contents
    { b.setSlot k .staging copy with depth := 1, restoreImage := some copy }
  | none => { b.setSlot k .staging .empty with depth := 1, restoreImage := none }

/-- The transaction aborted (R164): the staging bank goes to STANDBY with the restore image, or to EMPTY
with the empty bank when the part was COLD at the BEGIN. -/
def Banks.abort (b : Banks) : Banks :=
  match b.staging? with
  | some k =>
    match b.restoreImage with
    | some image => { b.setSlot k .standby image with depth := 0, restoreImage := none }
    | none => { b.setSlot k .empty .empty with depth := 0, restoreImage := none }
  | none => { b with depth := 0, restoreImage := none }

/-- The open transaction, if there is one, aborted (R164, R174, R175). -/
def State.abortTransaction (s : State) : State :=
  if s.banks.depth = 0 then s else { s with banks := s.banks.abort }

/-- The state a commit gives the previous ACTIVE bank (R169). -/
def State.standAside (s : State) (k : BankNo) : BankState :=
  if s.openCount k = 0 then .standby else .draining

/-- The switch (R169): the staging bank becomes ACTIVE and the previous ACTIVE bank stands aside. -/
def State.switchBanks (s : State) (k : BankNo) : State :=
  let s1 := match s.banks.active? with
    | some a => s.setBankState a (s.standAside a)
    | none => s
  let s2 := s1.setBankState k .active
  { s2 with banks := { s2.banks with depth := 0, restoreImage := none } }

/-- A commit links a line that is UNLINKED and fitted in the new ACTIVE bank (R129, R170). -/
def State.commitLine (s : State) (c : Camera) : State :=
  if s.lines[c].state = .unlinked ∧ (s.activeCamera c).fitted = true then
    s.beginLinking c .commit
  else s

/-- A commit that succeeds (R169, R170). -/
def State.commit (s : State) (k : BankNo) : State :=
  (List.finRange 12).foldl State.commitLine (s.switchBanks k)

end Sys2Proof.Machine
end

