-- ==== Sys2Proof/Machine/Requests.lean ====
section
/-! DEFINITION. What each request does when it is taken, by the rule of its owner (9.3.2): the checks in
the order of the rule, the effect, and the answer with its data. -/

namespace Sys2Proof.Machine

/-! ## Clock and tracks (chapter 1) -/

/-- A passage is open or a shot waits to fire (R4). -/
def State.tracksBusy (s : State) : Bool :=
  s.table.passages.any (fun p =>
    p.isOpen || p.shots.any (fun k => k.state == .planned || k.state == .frozen))

/-- TIME SET (R4). -/
def State.timeSet (s : State) (t : BitVec 64) : State × Answer :=
  if 2 ^ 48 ≤ t.toNat then (s, .refused .badArgument)
  else if s.tracksBusy then (s, .refused .tracksBusy)
  else
    let c : Clock := { s.clock with time := t.setWidth 48, epoch := s.clock.epoch + 1 }
    ({ s with clock := c }, .done (timeBytes c.time ++ [c.epoch]))

/-- TIME GET (R5). -/
def State.timeGet (s : State) : Answer := .done (timeBytes s.clock.time ++ [s.clock.epoch])

/-- The track a track argument names (00_scope 5.3). -/
def trackOf (b : Byte) : Option Track :=
  if h : 1 ≤ b.toNat ∧ b.toNat ≤ 4 then some ⟨b.toNat - 1, by omega⟩ else none

/-- TRACK ARM (R22). -/
def State.trackArm (s : State) (track : Byte) : State × Answer :=
  match trackOf track, s.activeContents with
  | none, _ => (s, .refused .badArgument)
  | some _, none => (s, .refused .noTables)
  | some t, some b =>
    if (b.tracks[t]).fitted = false then (s, .refused .notFitted)
    else if s.tracks[t].state ≠ .disarmed then (s, .done [])
    else
      (s.trackTo t (if HeadHealth.allWell s.tracks[t].health then .ignoring else .headFault), .done [])

/-- TRACK DISARM (R23). -/
def State.trackDisarm (s : State) (track : Byte) : State × Answer :=
  match trackOf track with
  | none => (s, .refused .badArgument)
  | some t =>
    match s.tracks[t].state with
    | .occupied => (s, .refused .trackOccupied)
    | .disarmed => (s, .done [])
    | .ignoring | .vacant | .headFault => (s.trackTo t .disarmed, .done [])

/-- TRACK STATUS (R24). -/
def State.trackStatus (s : State) (track : Byte) : Answer :=
  match trackOf track with
  | none => .refused .badArgument
  | some t =>
    let m := s.tracks[t]
    .done (byteOf m.state.toCode ++ healthBytes m.health ++ byteOf m.fifoA.length
      ++ byteOf m.fifoB.length)

/-! ## Passages (chapter 2) -/

/-- The check of a passage number (R47). -/
def State.namedPassage (s : State) (n : BitVec 16) : Except Detail Passage :=
  if n = 0 then .error .badArgument
  else match s.passage? n.toNat with
    | some p => .ok p
    | none => .error .noSuchPassage

/-- LIST PASSAGES (R48). -/
def State.listPassages (s : State) : Answer := .done (listBytes (s.table.passages.map (·.listEntry)))

/-- READ PASSAGE, part AXLES (R50). The index of the first axle returned and the number returned stand before
the axles: R50 gives them no place, and this one is the model's choice (log 17). The index is the starting index
asked for, also in an empty part, which has no first axle: the model's choice there (log 30). -/
def Passage.axlesPart (p : Passage) (start : Nat) : Answer :=
  if 127 < start then .refused .badArgument
  else .done (byteOf start ++ listBytes (((p.axles.drop start).take 64).map (·.encode)))

/-- READ PASSAGE, part VEHICLES (R51). -/
def Passage.vehiclesPart (p : Passage) : Answer :=
  .done (listBytes (p.vehicles.map (·.encode)) ++ byteOf p.cursor)

/-- READ PASSAGE, part SHOTS (R52). The number of the first shot returned and the count stand before the
records: R52 gives them no place, and this one is the model's choice (log 17). The number is the starting number
asked for, also in an empty part, which has no first shot: the model's choice there (log 30). -/
def Passage.shotsPart (p : Passage) (start : Nat) : Answer :=
  if 47 < start then .refused .badArgument
  else
    .done (byteOf start ++
      listBytes ((((p.shots.zipIdx).drop start).take 8).map (fun x => x.1.encode x.2)))

/-- READ PASSAGE (R49 to R52); parts 0 SUMMARY, 1 AXLES, 2 VEHICLES, 3 SHOTS. -/
def State.readPassage (s : State) (n : BitVec 16) (part start : Byte) : Answer :=
  match s.namedPassage n with
  | .error d => .refused d
  | .ok p =>
    match part.toNat with
    | 0 => .done p.summary
    | 1 => p.axlesPart start.toNat
    | 2 => p.vehiclesPart
    | 3 => p.shotsPart start.toNat
    | _ => .refused .badArgument

/-- The pages of a passage's shots, shot by shot and within a shot in segment order (R46). -/
def Passage.allPages (p : Passage) : List Nat := p.shots.flatMap (·.pages)

/-- A passage leaves the passage table (R46). -/
def State.removePassage (s : State) (n : Nat) : State :=
  { s with table := { s.table with passages := s.table.passages.filter (fun p => p.number != n) } }

/-- RELEASE PASSAGE (R46). -/
def State.releasePassage (s : State) (n : BitVec 16) : State × Answer :=
  match s.namedPassage n with
  | .error d => (s, .refused d)
  | .ok p =>
    if p.state = .filed ∨ p.state = .abandoned then
      ((s.freePages p.allPages).removePassage p.number, .done (leBytes 2 p.allPages.length))
    else (s, .refused .notSettled)

/-- The data of an ABANDON PASSAGE response: the state after the request and the shots not terminal
(R42). -/
def State.abandonData (s : State) (n : Nat) : List Byte :=
  match s.passage? n with
  | some p => byteOf p.state.toCode ++ byteOf p.unsettledShots
  | none => []

/-- ABANDON PASSAGE (R42). -/
def State.abandonPassage (s : State) (n : BitVec 16) : State × Answer :=
  match s.namedPassage n with
  | .error d => (s, .refused d)
  | .ok p =>
    match p.state with
    | .approaching | .tail | .clear =>
      let s1 := s.abandon p .ordered .ignoring
      (s1, .done (s1.abandonData p.number))
    | .stopping | .filed | .abandoned => (s, .refused .alreadySettled)

/-! ## Camera lines (chapter 6) -/

/-- The camera line a line argument names. -/
def cameraOfByte (b : Byte) : Option Camera := if h : b.toNat < 12 then some ⟨b.toNat, h⟩ else none

/-- CAMERA SERVICE on, for a camera fitted in the ACTIVE bank (R128). -/
def State.serviceOn (s : State) (c : Camera) : State :=
  match s.lines[c].state with
  | .outOfService | .down => s.beginLinking c .service
  | .unlinked | .linking | .inService => s

/-- CAMERA SERVICE off (R128). -/
def State.serviceOff (s : State) (c : Camera) : State :=
  match s.lines[c].state with
  | .inService => s.changeLine c .outOfService .service 0
  | .unlinked | .linking | .outOfService | .down => s

/-- The answer of CAMERA SERVICE: the line state after the request (R128). -/
def State.serviceAnswer (s : State) (c : Camera) : State × Answer :=
  (s, .done (byteOf s.lines[c].state.toCode))

/-- CAMERA SERVICE (R128). -/
def State.cameraService (s : State) (line onOff : Byte) : State × Answer :=
  match cameraOfByte line with
  | none => (s, .refused .badArgument)
  | some c =>
    match onOff.toNat with
    | 0 => (s.serviceOff c).serviceAnswer c
    | 1 =>
      match s.activeContents with
      | none => (s, .refused .noTables)
      | some b =>
        if (b.cameras[c]).fitted then (s.serviceOn c).serviceAnswer c
        else (s, .refused .notFitted)
    | _ => (s, .refused .badArgument)

/-- What CAMERA SENSE starts with: the line to place its SENSE on, or a refusal (R130). -/
def State.senseLine (s : State) (line : Byte) : Except Detail Camera :=
  match cameraOfByte line with
  | none => .error .badArgument
  | some c =>
    match s.lines[c].state with
    | .down | .unlinked => .error .cameraDown
    | .linking | .inService | .outOfService => .ok c

/-! ## Frame memory (chapter 7) -/

/-- A page or spare argument that may name none (9.11.2). -/
def noneIfAllOnes (x : BitVec 16) : Option Nat := if x = 0xFFFF then none else some x.toNat

/-- The counts and states MEMORY STATUS returns (R148); memory-low state 0 low, 1 normal (log 17). -/
def State.memoryData (s : State) : List Byte :=
  let m := s.memory
  let sp := m.spareCounts
  leBytes 2 m.freeCount ++ leBytes 2 m.heldCount ++ leBytes 2 m.outOfServiceCount
    ++ leBytes 2 m.reservedCount ++ byteOf sp.1 ++ byteOf sp.2.1 ++ byteOf sp.2.2
    ++ leBytes 2 m.markedCount ++ leBytes 2 s.threshold ++ byteOf (if m.low then 0 else 1)

/-- The owner of a held page: passage, shot, segment (R148). -/
def PageCondition.owner : PageCondition → Option PageOwner
  | .held o => some o
  | .free | .outOfService => none

/-- What MEMORY STATUS returns of a page (R148). -/
def FrameMemory.pageData (m : FrameMemory) (k : Nat) : List Byte :=
  let p := m.page k
  byteOf p.condition.toCode ++ optBytes 2 (leBytes 2) (p.physical k) ++ flagByte p.mark.isSome
    ++ optBytes 2 (leBytes 2) (p.mark.bind (·.preferred))
    ++ optBytes 4 (fun o : PageOwner => shotRefBytes o.shot ++ byteOf o.segment) p.condition.owner

/-- MEMORY STATUS (R148). -/
def State.memoryStatus (s : State) (page : BitVec 16) : Answer :=
  match noneIfAllOnes page with
  | none => .done s.memoryData
  | some k =>
    if k < logicalPages then .done (s.memoryData ++ s.memory.pageData k)
    else .refused .badArgument

/-- The checks of PAGE RETIRE (R145); none when all pass. -/
def FrameMemory.retireRefusal (m : FrameMemory) (k : Nat) (spare : Option Nat) : Option Detail :=
  let p := m.page k
  if logicalPages ≤ k then some .badArgument
  else match spare with
    | some sp =>
      if isSpare sp = false then some .notASpare
      else if m.bad sp then some .spareBad
      else if p.spare = some sp then some .selfSpare
      else if m.assigned sp then some .spareInUse
      else none
    | none =>
      if p.condition = .outOfService ∧ m.lowestUsable = none then some .noSpare
      else if p.condition = .free ∧ m.lowestUsable = none ∧ m.freeCount = m.reservedCount then
        some .noSpare
      else none

/-- An OUT_OF_SERVICE page mapped to the named spare or the lowest usable one (R146). -/
def FrameMemory.returnToService (m : FrameMemory) (k : Nat) (spare : Option Nat) : FrameMemory :=
  m.setPage k ⟨.free, spare.or m.lowestUsable, none⟩

/-- The action of PAGE RETIRE by the page's condition, with the notices it queues (R146). -/
def FrameMemory.pageRetire (m : FrameMemory) (k : Nat) (spare : Option Nat) :
    FrameMemory × List Notice :=
  match (m.page k).condition with
  | .free => m.retire k spare .request
  | .held _ => (m.markByRequest k spare, [])
  | .outOfService => (m.returnToService k spare, [])

/-- The data of a PAGE RETIRE response (R146): the page's condition and the physical page it maps to, and
whether its retirement is PENDING, as for a held page that now carries the mark (the indication's place:
log 18). -/
def Page.retireData (p : Page) (k : Nat) : List Byte :=
  byteOf p.condition.toCode ++ optBytes 2 (leBytes 2) (p.physical k) ++ flagByte p.mark.isSome

/-- PAGE RETIRE (R145, R146). -/
def State.pageRetire (s : State) (page spare : BitVec 16) : State × Answer :=
  let k := page.toNat
  match s.memory.retireRefusal k (noneIfAllOnes spare) with
  | some d => (s, .refused d)
  | none =>
    let done := s.memory.pageRetire k (noneIfAllOnes spare)
    ((s.setMemory done.1).queueNotices done.2, .done ((done.1.page k).retireData k))

/-- PAGE RESTORE (R147). -/
def State.pageRestore (s : State) (page : BitVec 16) : State × Answer :=
  let k := page.toNat
  let p := s.memory.page k
  if logicalPages ≤ k then (s, .refused .badArgument)
  else if p.isHeld then (s, .refused .pageHeld)
  else (s.setMemory (s.memory.setPage k .initial), .done (optBytes 2 (leBytes 2) p.spare))

/-! ## Table banks (chapter 8) -/

/-- TABLE BEGIN (R159, R160). -/
def State.tableBegin (s : State) : State × Answer :=
  match s.banks.open? with
  | none =>
    let k := s.banks.toStage
    if s.banks.slots[k].state = .draining ∨ 0 < s.busyCount k then (s, .refused .bankDraining)
    else ({ s with banks := s.banks.stage k }, .done (byteOf k.val ++ byteOf 1))
  | some k =>
    if 4 ≤ s.banks.depth then (s, .refused .depthLimit)
    else
      ({ s with banks := { s.banks with depth := s.banks.depth + 1 } },
        .done (byteOf k.val ++ byteOf (s.banks.depth + 1)))

/-- TABLE PUT (R161, R200). -/
def State.tablePut (s : State) (kind index : Byte) (contents : List Byte) : State × Answer :=
  match s.banks.open?, entryAddress kind index with
  | none, _ => (s, .refused .noTransaction)
  | some _, none => (s, .refused .badArgument)
  | some k, some a =>
    let b := s.bank k
    ({ s with banks := s.banks.setSlot k .staging (b.putEntry a contents) },
      .done (b.entryBytes a))

/-- The bank a bank argument names. -/
def bankOfByte (b : Byte) : Option BankNo := if h : b.toNat < 2 then some ⟨b.toNat, h⟩ else none

/-- TABLE GET (R162). -/
def State.tableGet (s : State) (bank kind index : Byte) : Answer :=
  match bankOfByte bank, entryAddress kind index with
  | some k, some a => .done (byteOf s.banks.slots[k].state.toCode ++ (s.bank k).entryBytes a)
  | _, _ => .refused .badArgument

/-- The TABLE END that brings the depth to 0 (R163, R166 to R169). -/
def State.commitBank (s : State) (k : BankNo) : State × Answer :=
  match s.validate (s.bank k) with
  | some f => (s.abortTransaction, ⟨.failed, .tableInvalid, f.encode⟩)
  | none =>
    (s.commit k,
      .done (byteOf k.val ++
        optBytes 1 (fun st : BankState => byteOf st.toCode) (s.banks.active?.map s.standAside)))

/-- TABLE END (R163). -/
def State.tableEnd (s : State) : State × Answer :=
  match s.banks.open? with
  | none => (s, .refused .noTransaction)
  | some k =>
    if 2 ≤ s.banks.depth then
      ({ s with banks := { s.banks with depth := s.banks.depth - 1 } },
        .done (byteOf (s.banks.depth - 1)))
    else s.commitBank k

/-- TABLE ABORT (R164). -/
def State.tableAbort (s : State) : State × Answer :=
  match s.banks.open? with
  | none => (s, .refused .noTransaction)
  | some k =>
    let s1 := s.abortTransaction
    (s1, .done (byteOf k.val ++ byteOf s1.banks.slots[k].state.toCode))

/-- One bank in BANK STATUS (R165). -/
def State.bankData (s : State) (b : BankNo) : List Byte :=
  byteOf s.banks.slots[b].state.toCode ++ byteOf (s.boundCount b) ++ byteOf (s.openCount b)
    ++ byteOf (s.busyCount b)

/-- BANK STATUS (R165): COLD at the BEGIN is a transaction without a restore image; the part is 0 COLD,
1 configured (log 17). At depth 0, where there is no BEGIN, the indication is clear (the spec gives it no
value there; the model's choice, log 30). -/
def State.bankStatus (s : State) : Answer :=
  .done (s.bankData 0 ++ s.bankData 1 ++ byteOf s.banks.depth
    ++ optBytes 1 (fun b : BankNo => byteOf b.val) s.banks.open?
    ++ flagByte (s.banks.open?.isSome && s.banks.restoreImage.isNone)
    ++ byteOf (if s.banks.active?.isSome then 1 else 0)
    ++ optBytes 1 (fun b : BankNo => byteOf b.val) s.banks.active?)

/-! ## The gantry link's own requests (chapter 9) -/

/-- The data of IDENTIFY (R189): vendor code, part code "EB-412", revision, capacity figures (widths:
log 17). -/
def identifyData : List Byte :=
  leBytes 2 0x3E91 ++ [0x45, 0x42, 0x2D, 0x34, 0x31, 0x32] ++ byteOf 1
    ++ byteOf 4 ++ byteOf 12 ++ byteOf 4 ++ byteOf 4 ++ byteOf 8 ++ byteOf 128 ++ byteOf 24
    ++ byteOf 48 ++ byteOf 64 ++ byteOf 64 ++ leBytes 2 256 ++ leBytes 2 8192 ++ byteOf 128
    ++ leBytes 4 65536 ++ byteOf 4 ++ byteOf 64 ++ leBytes 2 4104

/-- The checks of FETCH IMAGE (R192): the shot to fetch, or the refusal. -/
def State.fetchChecks (s : State) (n : BitVec 16) (shot first count : Byte) :
    Except Detail (ShotRef × Shot) :=
  match s.namedPassage n with
  | .error d => .error d
  | .ok p =>
    if 47 < shot.toNat then .error .badArgument
    else match p.shots[shot.toNat]? with
      | none => .error .noSuchShot
      | some k =>
        if 63 < first.toNat ∨ count.toNat < 1 ∨ 64 < count.toNat ∨ 64 < first.toNat + count.toNat then
          .error .badArgument
        else if k.state = .stored ∨ k.state = .partialStored then
          .ok (⟨p.number, shot.toNat⟩, k)
        else .error .notReady

/-- Number of segments a fetch sends: those asked for that are below segments stored (R193). -/
def Shot.segmentsToSend (k : Shot) (first count : Nat) : Nat :=
  min (first + count) k.segmentsStored - first

/-- The data of a FETCH IMAGE response (R193). With no segments to send the spec gives the first segment to
send no value: the first segment asked for stands there (the model's choice, log 30). -/
def Shot.fetchData (k : Shot) (r : ShotRef) (first segments : Nat) : List Byte :=
  shotRefBytes r ++ byteOf k.state.toCode ++ byteOf k.segmentsExpected ++ byteOf k.segmentsStored
    ++ byteOf first ++ byteOf segments ++ leBytes 2 (16 * segments)

/-! ## Taking a request (R182, R183) -/

/-- A request stays in progress (R183). -/
def State.setInProgress (s : State) (p : InProgress) : State :=
  { s with link := { s.link with inProgress := some p } }

/-- An owner's new state with its answer placed in the reply list (R182). -/
def State.reply (x : State × Answer) (tag : Byte) (code : BitVec 16) : State :=
  x.1.placeAnswer tag code x.2

/-- CAMERA SENSE taken (R130): refused, or in progress with a SENSE placed on the line. -/
def State.takeCameraSense (s : State) (tag line : Byte) : State :=
  match s.senseLine line with
  | .error d => s.placeAnswer tag 0x0602 (.refused d)
  | .ok c => (s.setInProgress (.cameraSense tag c)).placeOrder c .sense

/-- RESTART taken (R190): answered DONE OK and in progress. -/
def State.takeRestartRequest (s : State) (tag : Byte) : State :=
  (s.placeAnswer tag 0x0902 (.done [])).setInProgress (.restart (0 < s.banks.depth))

/-- FETCH IMAGE taken (R192, R193): refused, ended with an empty stream, or in progress. -/
def State.takeFetch (s : State) (tag : Byte) (n : BitVec 16) (shot first count : Byte) : State :=
  match s.fetchChecks n shot first count with
  | .error d => s.placeAnswer tag 0x0903 (.refused d)
  | .ok (r, k) =>
    let segments := k.segmentsToSend first.toNat count.toNat
    let s1 := s.placeAnswer tag 0x0903 (.done (k.fetchData r first.toNat segments))
    if segments = 0 then s1
    else s1.setInProgress (.fetch ⟨tag, r, first.toNat, segments, 0, false⟩)

/-- A taken request carried out by the rule of its owner (R182). -/
def State.carryOut (s : State) (tag : Byte) (r : Request) : State :=
  match r with
  | .timeSet t => State.reply (s.timeSet t) tag r.code
  | .timeGet => State.reply (s, s.timeGet) tag r.code
  | .trackArm t => State.reply (s.trackArm t) tag r.code
  | .trackDisarm t => State.reply (s.trackDisarm t) tag r.code
  | .trackStatus t => State.reply (s, s.trackStatus t) tag r.code
  | .listPassages => State.reply (s, s.listPassages) tag r.code
  | .readPassage p part start => State.reply (s, s.readPassage p part start) tag r.code
  | .releasePassage p => State.reply (s.releasePassage p) tag r.code
  | .abandonPassage p => State.reply (s.abandonPassage p) tag r.code
  | .cameraService l on => State.reply (s.cameraService l on) tag r.code
  | .cameraSense l => s.takeCameraSense tag l
  | .memoryStatus p => State.reply (s, s.memoryStatus p) tag r.code
  | .pageRetire p sp => State.reply (s.pageRetire p sp) tag r.code
  | .pageRestore p => State.reply (s.pageRestore p) tag r.code
  | .tableBegin => State.reply s.tableBegin tag r.code
  | .tablePut kind index contents => State.reply (s.tablePut kind index contents) tag r.code
  | .tableGet bank kind index => State.reply (s, s.tableGet bank kind index) tag r.code
  | .tableEnd => State.reply s.tableEnd tag r.code
  | .tableAbort => State.reply s.tableAbort tag r.code
  | .bankStatus => State.reply (s, s.bankStatus) tag r.code
  | .identify => State.reply (s, .done identifyData) tag r.code
  | .restart => s.takeRestartRequest tag
  | .fetchImage p shot first count => s.takeFetch tag p shot first count

end Sys2Proof.Machine
end

