-- ==== Sys2Proof/Machine/Restart.lean ====
section
/-! DEFINITION. RESTART (R190): the restart of each block by its own rule (R25, R53, R89, R108, R133, R152,
R175), RESTARTED, and what follows it. -/

namespace Sys2Proof.Machine

/-- A track monitor at a restart (R25): DISARMED stays; any other goes to IGNORING with its FIFOs empty and
the quiet timer started, without a notice. -/
def State.restartTrack (s : State) (t : Track) : State :=
  let m := s.tracks[t]
  if m.state = .disarmed then s
  else
    s.setTrack t
      { m with state := .ignoring, fifoA := [], fifoB := [], quiet := some (s.after (s.quietTime t)) }

/-- The fire unit's part of a camera line at a restart (R108): the busy interval stops, a running pulse
runs on. -/
def State.restartFire (s : State) (c : Camera) : State :=
  s.setFire c { s.fire[c] with busy := none }

/-- A strobe bank at a restart (R108): READY, no latest flash; a running pulse runs on. -/
def State.restartStrobe (s : State) (b : StrobeNo) : State :=
  s.setStrobe b { s.strobes[b] with recharge := none, flash := none }

/-- A camera line's orders and slots at a restart (R133): nothing pending, no mark, slots free, and the
result of an outstanding order ignored. -/
def CameraLine.restart (l : CameraLine) : CameraLine :=
  { l with
    slots := Vector.replicate 2 none
    orders := .none
    outstanding := l.outstanding.map (fun o => { o with ignored := true })
    disableMark := false }

/-- A camera line at a restart (R133): a line that is not UNLINKED goes to LINKING with its accumulated
flags cleared and starts the restart linking sequence, without a notice. -/
def State.restartLine (s : State) (c : Camera) : State :=
  let l := s.lines[c].restart
  if l.state = .unlinked then s.setLine c l
  else
    let l1 : CameraLine := { l with state := .linking, accumulated := 0 }
    (s.setLine c (l1.enterLinking true)).issueOrder c

/-- The held logical pages in ascending number. -/
def FrameMemory.heldPages (m : FrameMemory) : List Nat :=
  (m.pages.filter (fun e => e.2.isHeld)).map (·.1)

/-- Frame memory at a restart (R152): every held page freed in ascending number, marked ones retired,
without notices; no reservation. -/
def FrameMemory.restart (m : FrameMemory) : FrameMemory :=
  { m.heldPages.foldl (fun q k => (q.free k).1) m with reservations := [] }

/-- The memory-low state set by R150's comparison at the end of a restart, without a notice (R152). -/
def State.settleLow (s : State) : State :=
  s.setMemory { s.memory with low := s.memory.freeCount < s.threshold }

/-- A DRAINING bank becomes STANDBY at a restart (R175). -/
def State.restartBank (s : State) (b : BankNo) : State :=
  if s.banks.slots[b].state = .draining then s.setBankState b .standby else s

/-- The notice queue emptied and the dropped flag cleared (R190). -/
def State.clearNotices (s : State) : State :=
  { s with link := { s.link with notices := [], dropped := false } }

/-- Every block takes its restart (R190). -/
def State.restartBlocks (s : State) : State :=
  let s1 := (List.finRange 4).foldl State.restartTrack s
  let s2 : State := { s1 with table := { s1.table with passages := [] }, shotQueue := [] }
  let s3 := (List.finRange 4).foldl State.restartStrobe ((List.finRange 12).foldl State.restartFire s2)
  let s4 : State := { s3 with readout := ⟨[], Vector.replicate 4 none⟩ }
  let s5 := (List.finRange 12).foldl State.restartLine s4
  let s6 := (s5.setMemory s5.memory.restart).abortTransaction
  ((List.finRange 2).foldl State.restartBank s6).settleLow

/-- A track that the restart left in IGNORING while a head reports FAULT goes on to HEAD_FAULT (R25). -/
def State.refault (s : State) (t : Track) : State :=
  if s.tracks[t].state = .ignoring ∧ HeadHealth.allWell s.tracks[t].health = false then
    s.trackTo t .headFault
  else s

/-- The restart takes effect (R190): notices cleared, every block restarted, RESTARTED queued, and then
what follows the restart; the request ends. -/
def State.takeRestart (s : State) (transactionOpen : Bool) : State :=
  let s1 := s.clearNotices.restartBlocks
  let s2 := s1.queueNotice
    (.restarted s.table.passages.length transactionOpen s1.banks.active?)
  ((List.finRange 4).foldl State.refault s2).endRequest

end Sys2Proof.Machine
end

