-- ==== Sys2Proof/Machine/GantryLink.lean ====
section
/-! DEFINITION. The gantry link controller (chapter 9): the arrival of requests (R180, R181), taking them
(R182), transmit arbitration (R185), chunks of an image stream (R194), the receiver (R179), the end of a
sent frame, and the loss and gaining of line lock (R196 to R198). -/

namespace Sys2Proof.Machine

/-! ## Taking requests (R182) -/

/-- A response of request processing waits in the reply list (R182). -/
def Link.processingReply (l : Link) : Bool := l.replies.any (fun r => !r.immediate)

/-- The oldest waiting request is taken when none is in progress and no response of request processing
waits (R182). -/
def State.takeRequest (s : State) : State :=
  match s.link.inProgress, s.link.requests with
  | none, w :: rest =>
    if s.link.processingReply then s
    else ({ s with link := { s.link with requests := rest } } : State).carryOut w.tag w.request
  | _, _ => s

/-! ## Image stream (R141, R194) -/

/-- Chunks of a segment (section 9.8). -/
def chunksPerSegment : Nat := 16

/-- Number of chunks a fetch sends. -/
def Fetch.chunks (f : Fetch) : Nat := chunksPerSegment * f.segments

/-- The fetch has chunks still to send and its DONE response has been sent (R185). -/
def InProgress.nextChunk : InProgress → Option Fetch
  | .fetch f => if f.responseSent && f.next < f.chunks then some f else none
  | .cameraSense _ _ | .restart _ => none

/-- The effect of a chunk's read on the shot record (R141). -/
def Shot.countChunk (k : Shot) (segment corrected : Nat) (damaged : Bool) : Shot :=
  { k with
    corrected := min 65535 (k.corrected + corrected)
    damaged := if damaged then insertRising segment k.damaged else k.damaged }

/-- The logical page that holds a segment of a shot (R121). -/
def State.pageOf (s : State) (r : ShotRef) (segment : Nat) : Option Nat :=
  match s.shot? r with
  | some k => k.pages[segment]?
  | none => none

/-- A chunk read from a logical page: bytes, words corrected, damaged (R141). A page of a stored segment
always maps to a physical page (R135). -/
def FrameMemory.readPage (m : FrameMemory) (page : Option Nat) (chunk : Nat) :
    List Byte × Nat × Bool :=
  match page with
  | some k =>
    match (m.page k).physical k with
    | some physical => m.readChunk physical chunk
    | none => ([], 0, false)
  | none => ([], 0, false)

/-- The memory with a damaged chunk's page marked pending-retire (R141, R142). -/
def FrameMemory.markDamaged (m : FrameMemory) (page : Option Nat) (damaged : Bool) : FrameMemory :=
  match page with
  | some k => if damaged then m.markByFetch k else m
  | none => m

/-- The next chunk of a stream is read and sent (R194). -/
def State.sendChunk (s : State) (f : Fetch) : State :=
  let segment := f.first + f.next / chunksPerSegment
  let chunk := f.next % chunksPerSegment
  let page := s.pageOf f.shot segment
  let read := s.memory.readPage page chunk
  let s1 := (s.setMemory (s.memory.markDamaged page read.2.2)).modifyShot f.shot
    (·.countChunk segment read.2.1 read.2.2)
  let image : ImageChunk :=
    ⟨f.tag, f.shot, segment, chunk, f.next, f.next + 1 = f.chunks, read.2.2, read.1⟩
  { s1 with link := { s1.link with
      inProgress := some (.fetch { f with next := f.next + 1 })
      sending := some (.chunk image) } }

/-! ## Transmit arbitration (R185, R187) -/

/-- The oldest notice is started: it carries the dropped indication when the flag is set, which is
cleared (R187). -/
def State.sendNotice (s : State) : State :=
  match s.link.notices with
  | [] => s
  | n :: rest =>
    { s with link := { s.link with
        notices := { n with dropped := n.dropped || s.link.dropped } :: rest
        dropped := false
        sending := some .notice } }

/-- The transmitter, if it is free and the link UP, is arbitrated (R185). -/
def State.arbitrate (s : State) : State :=
  if s.link.up = true ∧ s.link.sending = none then
    if s.link.lastSent = some .imageData ∧ s.link.notices ≠ [] then s.sendNotice
    else if s.link.replies ≠ [] then { s with link := { s.link with sending := some .response } }
    else match s.link.inProgress.bind (·.nextChunk) with
      | some f => s.sendChunk f
      | none => s.sendNotice
  else s

/-- What closes every event: the memory-low comparison (R150; log 20), then the transmitter, for which a
frame may have become ready (R185). -/
def State.endEvent (s : State) : State := s.compareLow.arbitrate

/-! ## Arrival (R180, R181) -/

/-- Requests waiting at most (R182). -/
def requestPlaces : Nat := 4

/-- Immediate refusals waiting at most (R181). -/
def immediatePlaces : Nat := 8

/-- An immediate refusal joins the reply list; with 8 waiting the request is discarded (R181). -/
def State.refuseAtOnce (s : State) (tag : Byte) (code : BitVec 16) (d : Detail) : State :=
  if s.link.replies.countP (·.immediate) < immediatePlaces then
    s.placeResponse ⟨tag, code, .refused, d, [], true⟩
  else s

/-- A request joins the end of the request queue. -/
def State.queueRequest (s : State) (tag : Byte) (r : Request) : State :=
  { s with link := { s.link with requests := s.link.requests ++ [⟨tag, r⟩] } }

/-- A request whose body has passed the length and code checks: QUEUE_FULL when 4 wait, else queued
(R180), and taken at once when R182 allows. -/
def State.enrol (s : State) (tag : Byte) (r : Request) : State :=
  if s.link.requests.length < requestPlaces then (s.queueRequest tag r).takeRequest
  else s.refuseAtOnce tag r.code .queueFull

/-- A REQUEST frame with a good check arrives (R180). -/
def State.arrive (s : State) (tag : Byte) (body : List Byte) : State :=
  match parseBody body with
  | .ok r => (s.enrol tag r).endEvent
  | .error (code, d) => (s.refuseAtOnce tag code d).endEvent

/-- A request of the supervisor arrives in a good frame (log 4): nothing while the link is DOWN (R177),
the length check of a TABLE PUT (R180), then as any request. -/
def State.request (s : State) (tag : Byte) (r : Request) : State :=
  if s.link.up then
    if contentsLengthOk r then (s.enrol tag r).endEvent
    else (s.refuseAtOnce tag r.code .badLength).endEvent
  else s

/-! ## The receiver (R179) -/

/-- The longest body (9.2). -/
def longestBody : Nat := 4104

/-- What the receiver finds at the front of its bytes. -/
inductive Scan where
  /-- The bytes end before a frame does; these are kept. -/
  | more (rest : List Byte)
  /-- A REQUEST frame with a good check, and the bytes after it. -/
  | request (tag : Byte) (body rest : List Byte)
  /-- Bytes discarded; the receiver hunts on. -/
  | again (rest : List Byte)
deriving DecidableEq, Repr, Inhabited

/-- One look of the receiver at its bytes (R179). A frame with a wrong check or too long a body is
discarded from its start mark on; a good frame of another kind is discarded whole. -/
def scanOnce (bytes : List Byte) : Scan :=
  match bytes with
  | [] => .more []
  | [b] => if b = 0xD4 then .more [b] else .more []
  | b0 :: b1 :: rest =>
    if b0 = 0xD4 ∧ b1 = 0x2B then
      match rest with
      | kind :: tag :: l0 :: l1 :: tail =>
        let length := leNat [l0, l1]
        if longestBody < length then .again rest
        else if tail.length < length + 4 then .more bytes
        else
          let body := tail.take length
          let check := (tail.drop length).take 4
          if (crc32 (kind :: tag :: l0 :: l1 :: body)).toNat = leNat check then
            if kind = 1 then .request tag body (tail.drop (length + 4))
            else .again (tail.drop (length + 4))
          else .again rest
      | _ => .more bytes
    else .again (b1 :: rest)

/-- The receiver's bytes kept for a frame that is not complete. -/
def State.setReceived (s : State) (bytes : List Byte) : State :=
  { s with link := { s.link with received := bytes } }

/-- The receiver works through its bytes; each request frame is one arrival. Every look but the last
takes bytes away, so the bound, their number, is never met. -/
def State.receive : Nat → State → List Byte → State
  | 0, s, bytes => s.setReceived bytes
  | bound + 1, s, bytes =>
    match scanOnce bytes with
    | .more rest => s.setReceived rest
    | .again rest => State.receive bound s rest
    | .request tag body rest => State.receive bound ((s.setReceived []).arrive tag body) rest

/-! ## The end of a sent frame (R185) -/

/-- The restart in progress takes effect when its response has been sent (R190), and the stream in
progress may start (R193). -/
def State.responseSent (s : State) : State :=
  match s.link.inProgress with
  | some (.restart transactionOpen) => s.takeRestart transactionOpen
  | some (.fetch f) => s.setInProgress (.fetch { f with responseSent := true })
  | some (.cameraSense _ _) => s
  | none => s

/-- What leaves with the last byte of a frame, and what the frame's end leads to (R181, R183, R186). -/
def State.finishSending (s : State) (sending : Sending) : State :=
  match sending with
  | .response =>
    let s1 : State := { s with link := { s.link with
      sending := none, lastSent := some .response, replies := s.link.replies.drop 1 } }
    match s.link.replies.head? with
    | some r => if r.immediate then s1 else s1.responseSent
    | none => s1
  | .notice =>
    { s with link := { s.link with
      sending := none, lastSent := some .notice, notices := s.link.notices.drop 1 } }
  | .chunk image =>
    let s1 : State := { s with link := { s.link with sending := none, lastSent := some .imageData } }
    if image.final then s1.endRequest else s1

/-- The last byte of the frame being sent has been sent (R185): the item leaves, its effects are taken,
the next request is taken (R182), and the event closes. -/
def State.frameSent (s : State) : State :=
  match s.link.sending with
  | some sending => (s.finishSending sending).takeRequest.endEvent
  | none => s

/-! ## Line lock (R196 to R198) -/

/-- The link goes DOWN (R196, R197): the receiver, the request queue, the reply list and the frame being
sent are dropped, the request in progress ends, an open transaction is aborted (R174), and a restart in
progress takes effect last. -/
def State.loseLock (s : State) : State :=
  let down : Link := { s.link with
    up := false, received := [], requests := [], inProgress := none, replies := []
    sending := none, lastSent := none }
  let s1 := ({ s with link := down } : State).abortTransaction
  match s.link.inProgress with
  | some (.restart transactionOpen) => s1.takeRestart transactionOpen
  | _ => s1

/-- The link goes UP (R198): LINK_UP carries the number of notices ahead of it. -/
def State.gainLock (s : State) : State :=
  ({ s with link := { s.link with up := true } } : State).queueNotice
    (.linkUp s.link.notices.length)

end Sys2Proof.Machine
end

