-- ==== Sys2Proof/Machine/CameraEvents.lean ====
section
/-! DEFINITION. The meanings of the answers and timeouts of camera orders (chapter 6). The answer
to an order that is no longer outstanding, because it has timed out or been answered, is ignored (R116,
log 28), and a timeout whose interval has not come to its end changes nothing (log 3). -/

namespace Sys2Proof.Machine

/-- READ_COMPLETE (R113, R117, R118, R121 to R123, R126). -/
def execReadComplete (o : OrderRef) (segment : List Byte) (check : BitVec 32)
    (outcome : ReadOutcome) (flags : FlagSet) (s : State) : Host.Outcome State Fault Refusal :=
  match s.lines[o.camera].answered o.issued with
  | some ⟨.read slot seg release, ends, ignored⟩ =>
    .next (s.endOrder o.camera ⟨.read slot seg release, ends, ignored⟩
      (fun q => q.readAnswered o.camera slot release segment check outcome flags)).endEvent
  | _ => .next s

/-- DISCARD_COMPLETE (R114, R123, R125 to R127). -/
def execDiscardComplete (o : OrderRef) (s : State) : Host.Outcome State Fault Refusal :=
  match s.lines[o.camera].answered o.issued with
  | some ⟨.discard slot, ends, ignored⟩ =>
    .next (s.endOrder o.camera ⟨.discard slot, ends, ignored⟩
      (fun q => q.discardAnswered o.camera slot)).endEvent
  | _ => .next s

/-- SENSE_COMPLETE (R115, R117, R127, R130). -/
def execSenseComplete (o : OrderRef) (flags : FlagSet) (slot0 slot1 : Bool) (s : State) :
    Host.Outcome State Fault Refusal :=
  match s.lines[o.camera].answered o.issued with
  | some ⟨.sense, ends, ignored⟩ =>
    .next (s.endOrder o.camera ⟨.sense, ends, ignored⟩
      (fun q => q.senseAnswered o.camera flags slot0 slot1)).endEvent
  | _ => .next s

/-- RELINK_COMPLETE (R115, R122, R126, R127). -/
def execRelinkComplete (o : OrderRef) (s : State) : Host.Outcome State Fault Refusal :=
  match s.lines[o.camera].answered o.issued with
  | some ⟨.relink, ends, ignored⟩ =>
    .next (s.endOrder o.camera ⟨.relink, ends, ignored⟩ (fun q => q.relinkAnswered o.camera)).endEvent
  | _ => .next s

/-- ORDER_TIMEOUT (R116). -/
def execOrderTimeout (c : Camera) (s : State) : Host.Outcome State Fault Refusal :=
  match s.lines[c].outstanding with
  | some out =>
    if s.ended (some out.ends) then
      .next (s.endOrder c out (fun q => q.orderTimedOut c out.order)).endEvent
    else .next s
  | none => .next s

end Sys2Proof.Machine
end

