-- ==== Sys2Proof/WellFormed.lean ====
section
/-! DEFINITION. Which commands name something that can happen at the part's boundary. Most operands are
of a type that admits nothing else; the checks here are what the types leave. -/

namespace Sys2Proof

/-- Bits in the frame memory: 8,320 physical pages of 65,536 bytes (R135). -/
def frameMemoryBits : Nat := 8320 * 65536 * 8

/-- A passage number is 1 to 65,535 (R28). -/
def Instr.passageNumberOk (n : Nat) : Bool := 1 ≤ n && n ≤ 65535

/-- The command is well formed: passage and shot numbers in range (00_scope 5.3), a READ answer of one
whole segment (R113), wrong bits inside the frame memory and named once, TABLE PUT contents that fit
the longest body (9.2: 4,104 bytes, of which 4 are the code, the kind and the index). -/
def Instr.wellFormed : Instr → Bool
  | .tailWindowExpiry p => passageNumberOk p
  | .exitTimeout p => passageNumberOk p
  | .shotFreeze p k => passageNumberOk p && k < 48
  | .readComplete _ segment _ _ _ => segment.length == 65536
  | .frameSent wrong => wrong.all (· < frameMemoryBits) && wrong.Nodup
  | .tablePut _ _ _ contents => contents.length ≤ 4100
  | .powerUp _ | .crossing _ _ | .headFault _ _ | .headHealthy _ _ | .quietTimerExpiry _
  | .pairTimeout _ _ | .shotDue | .busyIntervalEnd _ | .triggerPulseEnd _ | .flashPulseEnd _
  | .rechargeExpiry _ | .discardComplete _ | .senseComplete _ _ _ _ | .relinkComplete _
  | .orderTimeout _ | .lineLockGained | .lineLockLost | .frameReceived _ | .timeSet _ _ | .timeGet _
  | .trackArm _ _ | .trackDisarm _ _ | .trackStatus _ _ | .listPassages _ | .readPassage _ _ _ _
  | .releasePassage _ _ | .abandonPassage _ _ | .cameraService _ _ _ | .cameraSense _ _
  | .memoryStatus _ _ | .pageRetire _ _ _ | .pageRestore _ _ | .tableBegin _ | .tableGet _ _ _ _
  | .tableEnd _ | .tableAbort _ | .bankStatus _ | .identify _ | .restart _
  | .fetchImage _ _ _ _ _ => true

end Sys2Proof
end

