-- ==== Sys2Proof/Machine/LinkEvents.lean ====
section
/-! DEFINITION. The meanings of the commands of the gantry link's line (chapter 9). -/

namespace Sys2Proof.Machine

/-- LINE_LOCK_GAINED (R198). -/
def execLineLockGained (s : State) : Host.Outcome State Fault Refusal :=
  if s.link.up then .next s else .next s.gainLock.endEvent

/-- LINE_LOCK_LOST (R196). -/
def execLineLockLost (s : State) : Host.Outcome State Fault Refusal :=
  if s.link.up then .next s.loseLock.endEvent else .next s

/-- FRAME_RECEIVED (R179): bytes reach the receiver; while the link is DOWN it takes none (R177). -/
def execFrameReceived (bytes : List Byte) (s : State) : Host.Outcome State Fault Refusal :=
  let all := s.link.received ++ bytes
  if s.link.up then .next (State.receive (all.length + 1) s all) else .next s

/-- FRAME_SENT (R185): the bits of frame memory that have gone wrong (log 8), then the end of the frame
being sent. A bit outside frame memory faults. -/
def execFrameSent (wrong : List Nat) (s : State) : Host.Outcome State Fault Refusal :=
  match wrong.find? (fun b => frameMemoryBits ≤ b) with
  | some b => .fault (.outsideFrameMemory b)
  | none =>
    match s.link.sending with
    | some _ => .next (s.setMemory (s.memory.upsets wrong)).frameSent
    | none => .next s

end Sys2Proof.Machine
end

