-- ==== Sys2Proof/Machine/RequestEvents.lean ====
section
/-! DEFINITION. The meanings of the 23 request rows (9.3.2): the request arrives in a good frame with its
tag (log 4); it is checked, queued and, when R182 allows, taken and carried out by the rule of its owner
(`State.carryOut`), all in one event. -/

namespace Sys2Proof.Machine

/-- TIME SET (R4). -/
def execTimeSet (tag : Byte) (time : BitVec 64) (s : State) : Host.Outcome State Fault Refusal :=
  .next (s.request tag (.timeSet time))

/-- TIME GET (R5). -/
def execTimeGet (tag : Byte) (s : State) : Host.Outcome State Fault Refusal :=
  .next (s.request tag .timeGet)

/-- TRACK ARM (R22). -/
def execTrackArm (tag : Byte) (track : Byte) (s : State) : Host.Outcome State Fault Refusal :=
  .next (s.request tag (.trackArm track))

/-- TRACK DISARM (R23). -/
def execTrackDisarm (tag : Byte) (track : Byte) (s : State) : Host.Outcome State Fault Refusal :=
  .next (s.request tag (.trackDisarm track))

/-- TRACK STATUS (R24). -/
def execTrackStatus (tag : Byte) (track : Byte) (s : State) : Host.Outcome State Fault Refusal :=
  .next (s.request tag (.trackStatus track))

/-- LIST PASSAGES (R48). -/
def execListPassages (tag : Byte) (s : State) : Host.Outcome State Fault Refusal :=
  .next (s.request tag .listPassages)

/-- READ PASSAGE (R49 to R52). -/
def execReadPassage (tag : Byte) (passage : BitVec 16) (part start : Byte) (s : State) :
    Host.Outcome State Fault Refusal :=
  .next (s.request tag (.readPassage passage part start))

/-- RELEASE PASSAGE (R46). -/
def execReleasePassage (tag : Byte) (passage : BitVec 16) (s : State) :
    Host.Outcome State Fault Refusal :=
  .next (s.request tag (.releasePassage passage))

/-- ABANDON PASSAGE (R42). -/
def execAbandonPassage (tag : Byte) (passage : BitVec 16) (s : State) :
    Host.Outcome State Fault Refusal :=
  .next (s.request tag (.abandonPassage passage))

/-- CAMERA SERVICE (R128). -/
def execCameraService (tag : Byte) (line onOff : Byte) (s : State) :
    Host.Outcome State Fault Refusal :=
  .next (s.request tag (.cameraService line onOff))

/-- CAMERA SENSE (R130). -/
def execCameraSense (tag : Byte) (line : Byte) (s : State) : Host.Outcome State Fault Refusal :=
  .next (s.request tag (.cameraSense line))

/-- MEMORY STATUS (R148). -/
def execMemoryStatus (tag : Byte) (page : BitVec 16) (s : State) :
    Host.Outcome State Fault Refusal :=
  .next (s.request tag (.memoryStatus page))

/-- PAGE RETIRE (R145, R146). -/
def execPageRetire (tag : Byte) (page spare : BitVec 16) (s : State) :
    Host.Outcome State Fault Refusal :=
  .next (s.request tag (.pageRetire page spare))

/-- PAGE RESTORE (R147). -/
def execPageRestore (tag : Byte) (page : BitVec 16) (s : State) :
    Host.Outcome State Fault Refusal :=
  .next (s.request tag (.pageRestore page))

/-- TABLE BEGIN (R159, R160). -/
def execTableBegin (tag : Byte) (s : State) : Host.Outcome State Fault Refusal :=
  .next (s.request tag .tableBegin)

/-- TABLE PUT (R161, R200). -/
def execTablePut (tag : Byte) (kind index : Byte) (contents : List Byte) (s : State) :
    Host.Outcome State Fault Refusal :=
  .next (s.request tag (.tablePut kind index contents))

/-- TABLE GET (R162). -/
def execTableGet (tag : Byte) (bank kind index : Byte) (s : State) :
    Host.Outcome State Fault Refusal :=
  .next (s.request tag (.tableGet bank kind index))

/-- TABLE END (R163, R166 to R170). -/
def execTableEnd (tag : Byte) (s : State) : Host.Outcome State Fault Refusal :=
  .next (s.request tag .tableEnd)

/-- TABLE ABORT (R164). -/
def execTableAbort (tag : Byte) (s : State) : Host.Outcome State Fault Refusal :=
  .next (s.request tag .tableAbort)

/-- BANK STATUS (R165). -/
def execBankStatus (tag : Byte) (s : State) : Host.Outcome State Fault Refusal :=
  .next (s.request tag .bankStatus)

/-- IDENTIFY (R189). -/
def execIdentify (tag : Byte) (s : State) : Host.Outcome State Fault Refusal :=
  .next (s.request tag .identify)

/-- RESTART (R190). -/
def execRestart (tag : Byte) (s : State) : Host.Outcome State Fault Refusal :=
  .next (s.request tag .restart)

/-- FETCH IMAGE (R192, R193). -/
def execFetchImage (tag : Byte) (passage : BitVec 16) (shot first count : Byte) (s : State) :
    Host.Outcome State Fault Refusal :=
  .next (s.request tag (.fetchImage passage shot first count))

end Sys2Proof.Machine
end

