-- ==== Sys2Proof/Machine/ShotEvents.lean ====
section
/-! DEFINITION. The meanings of the commands of the shot queue, the fire unit and strobe control (chapters
4 and 5). A command whose time has not come changes nothing (log 3). -/

namespace Sys2Proof.Machine

/-- SHOT_FREEZE (R85). -/
def execShotFreeze (passage shot : Nat) (s : State) : Host.Outcome State Fault Refusal :=
  if s.freezeDue ⟨passage, shot⟩ then
    .next (s.modifyShot ⟨passage, shot⟩ (fun k => { k with state := .frozen })).endEvent
  else .next s

/-- SHOT_DUE (R86): the first due shot in queue order is handed to the fire unit. -/
def execShotDue (s : State) : Host.Outcome State Fault Refusal :=
  match s.firstDue with
  | some r => .next (s.handOver r).endEvent
  | none => .next s

/-- BUSY_INTERVAL_END (R93). -/
def execBusyIntervalEnd (c : Camera) (s : State) : Host.Outcome State Fault Refusal :=
  if s.ended s.fire[c].busy then .next (s.setFire c { s.fire[c] with busy := none }).endEvent
  else .next s

/-- TRIGGER_PULSE_END (R104): the trigger output goes low. -/
def execTriggerPulseEnd (c : Camera) (s : State) : Host.Outcome State Fault Refusal :=
  if s.ended s.fire[c].trigger then .next (s.setFire c { s.fire[c] with trigger := none }).endEvent
  else .next s

/-- FLASH_PULSE_END (R105): the strobe-bank output goes low. -/
def execFlashPulseEnd (b : StrobeNo) (s : State) : Host.Outcome State Fault Refusal :=
  if s.ended s.strobes[b].output then
    .next (s.setStrobe b { s.strobes[b] with output := none }).endEvent
  else .next s

/-- RECHARGE_EXPIRY (R101): the bank becomes READY, its latest flash kept. -/
def execRechargeExpiry (b : StrobeNo) (s : State) : Host.Outcome State Fault Refusal :=
  if s.ended s.strobes[b].recharge then
    .next (s.setStrobe b { s.strobes[b] with recharge := none }).endEvent
  else .next s

end Sys2Proof.Machine
end

