-- ==== Sys2Proof/Machine/TrackEvents.lean ====
section
/-! DEFINITION. The meanings of POWER_UP and of the commands of the detector heads, the track monitors and
the passage table (chapters 1 and 2). A timer's command whose interval has not come to its end, and a
level a head already has, change nothing (log 3). -/

namespace Sys2Proof.Machine

/-- POWER_UP (R199 and the power-up rule of each chapter): everything but the waiting commands is put in
the state after power-up, with these levels on the head inputs (R25). -/
def execPowerUp (levels : Vector HeadHealth 4) (s : State) : Host.Outcome State Fault Refusal :=
  .next (State.powerUp levels s.pending)

/-- CROSSING (R8). -/
def execCrossing (t : Track) (h : Head) (s : State) : Host.Outcome State Fault Refusal :=
  .next (s.crossing t h).endEvent

/-- HEAD_FAULT (R9, R43). -/
def execHeadFault (t : Track) (h : Head) (s : State) : Host.Outcome State Fault Refusal :=
  if s.tracks[t].health.get h = .fault then .next s
  else .next ((s.setHealth t h .fault).actOnFault t).endEvent

/-- HEAD_HEALTHY (R10). -/
def execHeadHealthy (t : Track) (h : Head) (s : State) : Host.Outcome State Fault Refusal :=
  if s.tracks[t].health.get h = .healthy then .next s
  else .next ((s.setHealth t h .healthy).actOnRecovery t).endEvent

/-- QUIET_TIMER_EXPIRY (R12). -/
def execQuietTimerExpiry (t : Track) (s : State) : Host.Outcome State Fault Refusal :=
  if s.ended s.tracks[t].quiet then .next (s.trackTo t .vacant).endEvent else .next s

/-- PAIR_TIMEOUT (R16). -/
def execPairTimeout (t : Track) (side : Side) (s : State) : Host.Outcome State Fault Refusal :=
  if s.ended ((s.tracks[t].fifo side).head?.map (·.ends)) then .next (s.expirePair t side).endEvent
  else .next s

/-- TAIL_WINDOW_EXPIRY (R34). -/
def execTailWindowExpiry (n : Nat) (s : State) : Host.Outcome State Fault Refusal :=
  match s.passage? n with
  | some p =>
    if p.state = .approaching ∧ s.ended p.tailWindow = true then .next (s.declareTail p).endEvent
    else .next s
  | none => .next s

/-- EXIT_TIMEOUT (R38). -/
def execExitTimeout (n : Nat) (s : State) : Host.Outcome State Fault Refusal :=
  match s.passage? n with
  | some p =>
    if p.state = .tail ∧ s.ended p.exitTimeout = true then .next (s.clearShort p).endEvent
    else .next s
  | none => .next s

end Sys2Proof.Machine
end

