-- ==== Sys2Proof/Machine/Dispatch.lean ====
section
/-! DEFINITION. One arm per command: a direct call of its meaning. -/

namespace Sys2Proof.Machine

def exec (i : Instr) (s : State) : Host.Outcome State Fault Refusal :=
  match i with
  | .powerUp levels => Sys2Proof.Machine.execPowerUp levels s
  | .crossing track head => Sys2Proof.Machine.execCrossing track head s
  | .headFault track head => Sys2Proof.Machine.execHeadFault track head s
  | .headHealthy track head => Sys2Proof.Machine.execHeadHealthy track head s
  | .quietTimerExpiry track => Sys2Proof.Machine.execQuietTimerExpiry track s
  | .pairTimeout track side => Sys2Proof.Machine.execPairTimeout track side s
  | .tailWindowExpiry passage => Sys2Proof.Machine.execTailWindowExpiry passage s
  | .exitTimeout passage => Sys2Proof.Machine.execExitTimeout passage s
  | .shotFreeze passage shot => Sys2Proof.Machine.execShotFreeze passage shot s
  | .shotDue => Sys2Proof.Machine.execShotDue s
  | .busyIntervalEnd camera => Sys2Proof.Machine.execBusyIntervalEnd camera s
  | .triggerPulseEnd camera => Sys2Proof.Machine.execTriggerPulseEnd camera s
  | .flashPulseEnd strobe => Sys2Proof.Machine.execFlashPulseEnd strobe s
  | .rechargeExpiry strobe => Sys2Proof.Machine.execRechargeExpiry strobe s
  | .readComplete order segment check outcome flags => Sys2Proof.Machine.execReadComplete order segment check outcome flags s
  | .discardComplete order => Sys2Proof.Machine.execDiscardComplete order s
  | .senseComplete order flags slot0 slot1 => Sys2Proof.Machine.execSenseComplete order flags slot0 slot1 s
  | .relinkComplete order => Sys2Proof.Machine.execRelinkComplete order s
  | .orderTimeout camera => Sys2Proof.Machine.execOrderTimeout camera s
  | .lineLockGained => Sys2Proof.Machine.execLineLockGained s
  | .lineLockLost => Sys2Proof.Machine.execLineLockLost s
  | .frameReceived bytes => Sys2Proof.Machine.execFrameReceived bytes s
  | .frameSent wrong => Sys2Proof.Machine.execFrameSent wrong s
  | .timeSet tag time => Sys2Proof.Machine.execTimeSet tag time s
  | .timeGet tag => Sys2Proof.Machine.execTimeGet tag s
  | .trackArm tag track => Sys2Proof.Machine.execTrackArm tag track s
  | .trackDisarm tag track => Sys2Proof.Machine.execTrackDisarm tag track s
  | .trackStatus tag track => Sys2Proof.Machine.execTrackStatus tag track s
  | .listPassages tag => Sys2Proof.Machine.execListPassages tag s
  | .readPassage tag passage part start => Sys2Proof.Machine.execReadPassage tag passage part start s
  | .releasePassage tag passage => Sys2Proof.Machine.execReleasePassage tag passage s
  | .abandonPassage tag passage => Sys2Proof.Machine.execAbandonPassage tag passage s
  | .cameraService tag line onOff => Sys2Proof.Machine.execCameraService tag line onOff s
  | .cameraSense tag line => Sys2Proof.Machine.execCameraSense tag line s
  | .memoryStatus tag page => Sys2Proof.Machine.execMemoryStatus tag page s
  | .pageRetire tag page spare => Sys2Proof.Machine.execPageRetire tag page spare s
  | .pageRestore tag page => Sys2Proof.Machine.execPageRestore tag page s
  | .tableBegin tag => Sys2Proof.Machine.execTableBegin tag s
  | .tablePut tag kind index contents => Sys2Proof.Machine.execTablePut tag kind index contents s
  | .tableGet tag bank kind index => Sys2Proof.Machine.execTableGet tag bank kind index s
  | .tableEnd tag => Sys2Proof.Machine.execTableEnd tag s
  | .tableAbort tag => Sys2Proof.Machine.execTableAbort tag s
  | .bankStatus tag => Sys2Proof.Machine.execBankStatus tag s
  | .identify tag => Sys2Proof.Machine.execIdentify tag s
  | .restart tag => Sys2Proof.Machine.execRestart tag s
  | .fetchImage tag passage shot first count => Sys2Proof.Machine.execFetchImage tag passage shot first count s

end Sys2Proof.Machine
end

