-- ==== Sys2Proof/Decode.lean ====
section
/-! DEFINITION. The command a table word spells. No row of spec/opcode_table.json gives any bits: the
commands are events at the part's boundary and requests inside frames, not words (log 5). The byte
layouts of request frames are decoded in Machine/Operands.lean and Machine/GantryLink.lean. -/

namespace Sys2Proof

/-- The command that a word of `nbits` bits spells by the table: none, since no row has bits. -/
def decodeTableWord (_nbits _w : Nat) : Option Instr := none

end Sys2Proof
end

