-- ==== Sys2Proof/Machine/Events.lean ====
section
/-! DEFINITION. What falls due by time alone: the command of the first due event (log 2), the tick of the
clock (R1), and putting a decoded command in front of the queue. `step` calls these on an empty queue. -/

namespace Sys2Proof.Machine

/-- The command of the first track whose quiet timer has expired (R12). -/
def State.dueQuiet (s : State) : Option Instr :=
  ((List.finRange 4).find? (fun t => s.ended s.tracks[t].quiet)).map .quietTimerExpiry

/-- The oldest entry of a pair FIFO has timed out (R16). -/
def State.pairEnded (s : State) (f : List PairEntry) : Bool := s.ended (f.head?.map (·.ends))

/-- The command of the first pair timeout that has expired (R16). -/
def State.duePair (s : State) : Option Instr :=
  (List.finRange 4).findSome? (fun t =>
    if s.pairEnded s.tracks[t].fifoA then some (.pairTimeout t .sideA)
    else if s.pairEnded s.tracks[t].fifoB then some (.pairTimeout t .sideB) else none)

/-- The command of the first tail window that has expired (R34). -/
def State.dueTail (s : State) : Option Instr :=
  (s.table.passages.find? (fun p => p.state = .approaching && s.ended p.tailWindow)).map
    (fun p => .tailWindowExpiry p.number)

/-- The command of the first exit timeout that has expired (R38). -/
def State.dueExit (s : State) : Option Instr :=
  (s.table.passages.find? (fun p => p.state = .tail && s.ended p.exitTimeout)).map
    (fun p => .exitTimeout p.number)

/-- The command of the first queued shot whose freeze time is reached (R85). -/
def State.dueFreeze (s : State) : Option Instr :=
  (s.shotQueue.find? s.freezeDue).map (fun r => .shotFreeze r.passage r.shot)

/-- The command of the first trigger pulse that has ended (R104). -/
def State.dueTrigger (s : State) : Option Instr :=
  ((List.finRange 12).find? (fun c => s.ended s.fire[c].trigger)).map .triggerPulseEnd

/-- The command of the first flash pulse that has ended (R105). -/
def State.dueFlash (s : State) : Option Instr :=
  ((List.finRange 4).find? (fun b => s.ended s.strobes[b].output)).map .flashPulseEnd

/-- The command of the first busy interval that has ended (R93). -/
def State.dueBusy (s : State) : Option Instr :=
  ((List.finRange 12).find? (fun c => s.ended s.fire[c].busy)).map .busyIntervalEnd

/-- The command of the first recharge that has expired (R101). -/
def State.dueRecharge (s : State) : Option Instr :=
  ((List.finRange 4).find? (fun b => s.ended s.strobes[b].recharge)).map .rechargeExpiry

/-- The command of the first camera order that has timed out (R116). -/
def State.dueOrder (s : State) : Option Instr :=
  ((List.finRange 12).find? (fun c => s.ended (s.lines[c].outstanding.map (·.ends)))).map .orderTimeout

/-- The command of a shot that has fallen due (R86). -/
def State.dueShot (s : State) : Option Instr := s.firstDue.map (fun _ => .shotDue)

/-- The command of the first event that has fallen due by time, in the model's order (log 2). -/
def State.dueEvent (s : State) : Option Instr :=
  s.dueQuiet
    |>.or s.duePair
    |>.or s.dueTail
    |>.or s.dueExit
    |>.or s.dueFreeze
    |>.or s.dueTrigger
    |>.or s.dueFlash
    |>.or s.dueBusy
    |>.or s.dueRecharge
    |>.or s.dueOrder
    |>.or s.dueShot

/-- One microsecond passes (R1, R3). -/
def State.tick (s : State) : State :=
  { s with clock := { s.clock with time := s.clock.time + 1, elapsed := s.clock.elapsed + 1 } }

/-- The command that a word spells, put in front of the queue; no word spells one (log 5). -/
def State.withCommandWord (s : State) (nbits w : Nat) : State :=
  match decodeTableWord nbits w with
  | some c => { s with pending := c :: s.pending }
  | none => s

end Sys2Proof.Machine
end

