-- ==== Sys2Proof/Machine/Step.lean ====
section
/-! DEFINITION. One step of the block: the command in front of the queue; on an empty queue the first event
that has fallen due by time, or else one microsecond passes (log 1). -/

namespace Sys2Proof.Machine

/-- One step (log 1). -/
def step (s : State) : Host.Outcome State Fault Refusal :=
  match s.pending with
  | c :: rest => exec c { s with pending := rest }
  | [] =>
    match s.dueEvent with
    | some c => exec c s
    | none => .next s.tick

/-- The command that a word spells put at the front of the queue (log 5). -/
def State.withFetchWord (s : State) (nbits w : Nat) : State := s.withCommandWord nbits w

end Sys2Proof.Machine
end

