-- ==== Sys2Proof/Safety.lean ====
section
/-! DEFINITION. What is always true of the part: the invariants that every step keeps, and the condition
under which a request is carried out as it arrives. -/

namespace Sys2Proof

/-- The tag and the request that a request row carries; no other row carries one (log 4). -/
def Instr.carried : Instr → Option (Byte × Request)
  | .timeSet tag t => some (tag, .timeSet t)
  | .timeGet tag => some (tag, .timeGet)
  | .trackArm tag t => some (tag, .trackArm t)
  | .trackDisarm tag t => some (tag, .trackDisarm t)
  | .trackStatus tag t => some (tag, .trackStatus t)
  | .listPassages tag => some (tag, .listPassages)
  | .readPassage tag p part start => some (tag, .readPassage p part start)
  | .releasePassage tag p => some (tag, .releasePassage p)
  | .abandonPassage tag p => some (tag, .abandonPassage p)
  | .cameraService tag l on => some (tag, .cameraService l on)
  | .cameraSense tag l => some (tag, .cameraSense l)
  | .memoryStatus tag p => some (tag, .memoryStatus p)
  | .pageRetire tag p sp => some (tag, .pageRetire p sp)
  | .pageRestore tag p => some (tag, .pageRestore p)
  | .tableBegin tag => some (tag, .tableBegin)
  | .tablePut tag kind index contents => some (tag, .tablePut kind index contents)
  | .tableGet tag bank kind index => some (tag, .tableGet bank kind index)
  | .tableEnd tag => some (tag, .tableEnd)
  | .tableAbort tag => some (tag, .tableAbort)
  | .bankStatus tag => some (tag, .bankStatus)
  | .identify tag => some (tag, .identify)
  | .restart tag => some (tag, .restart)
  | .fetchImage tag p shot first count => some (tag, .fetchImage p shot first count)
  | .powerUp _ | .crossing _ _ | .headFault _ _ | .headHealthy _ _ | .quietTimerExpiry _
  | .pairTimeout _ _ | .tailWindowExpiry _ | .exitTimeout _ | .shotFreeze _ _ | .shotDue
  | .busyIntervalEnd _ | .triggerPulseEnd _ | .flashPulseEnd _ | .rechargeExpiry _
  | .readComplete _ _ _ _ _ | .discardComplete _ | .senseComplete _ _ _ _ | .relinkComplete _
  | .orderTimeout _ | .lineLockGained | .lineLockLost | .frameReceived _ | .frameSent _ => none

end Sys2Proof

namespace Sys2Proof.Machine

/-! ## Track monitors -/

/-- The quiet timer runs exactly in IGNORING (R12); a pair FIFO holds at most four crossings (R15) and
holds none unless the track is OCCUPIED (section 1.6). -/
def TrackMonitor.sound (m : TrackMonitor) : Prop :=
  (m.quiet.isSome = true ↔ m.state = .ignoring)
    ∧ m.fifoA.length ≤ fifoPlaces ∧ m.fifoB.length ≤ fifoPlaces
    ∧ (m.state ≠ .occupied → m.fifoA = [] ∧ m.fifoB = [])

/-- Every track monitor is sound. -/
def State.tracksSound (s : State) : Prop := ∀ t : Track, s.tracks[t].sound

/-! ## Passages -/

/-- The vehicle entries lie one behind another from axle n on; the axle behind the last one (R57). -/
def coverage : Nat → List Vehicle → Option Nat
  | n, [] => some n
  | n, v :: vs => if v.firstAxle = n then coverage (n + v.axleCount) vs else none

/-- The vehicle list covers every axle below the cursor exactly once and no other, in passing order
(R57), and every list keeps within its places (R31, R65, R78; 23 entries besides the REMAINDER). -/
def Passage.sound (p : Passage) : Prop :=
  coverage 0 p.vehicles = some p.cursor
    ∧ p.cursor ≤ p.axles.length
    ∧ p.axles.length ≤ axleListPlaces
    ∧ p.shots.length ≤ shotListPlaces
    ∧ p.vehicles.length ≤ matchedVehiclePlaces + 1
    ∧ (p.hasRemainder = false → p.vehicles.length ≤ matchedVehiclePlaces)

/-- Every live passage is sound. -/
def State.passagesSound (s : State) : Prop := ∀ p ∈ s.table.passages, p.sound

/-- A passage number (R28). -/
def isPassageNumber (n : Nat) : Prop := 1 ≤ n ∧ n ≤ 65535

/-- At most eight live passages, each with a number of its own, and a counter in range (R26, R28). -/
def State.numbered (s : State) : Prop :=
  s.table.passages.length ≤ passagePlaces
    ∧ (s.table.passages.map (·.number)).Nodup
    ∧ (∀ p ∈ s.table.passages, isPassageNumber p.number)
    ∧ isPassageNumber s.table.nextNumber

/-- A track is OCCUPIED exactly while it has a passage in APPROACHING or TAIL, and it has at most one
(section 1.4, R26). -/
def State.tracksAgree (s : State) : Prop :=
  (∀ p ∈ s.table.passages, p.isOpen = true → s.tracks[p.track].state = .occupied)
    ∧ (∀ t : Track, s.tracks[t].state = .occupied →
        ∃ p ∈ s.table.passages, p.track = t ∧ p.isOpen = true)
    ∧ s.table.passages.Pairwise (fun p q => p.isOpen = true → q.isOpen = true → p.track ≠ q.track)

/-- Passages and tracks agree: numbers of their own, one open passage on each OCCUPIED track and none on
any other, every monitor sound. -/
def State.tracksInv (s : State) : Prop := s.tracksSound ∧ s.numbered ∧ s.tracksAgree

/-! ## Table banks -/

/-- The depth is 0 to 4, and a bank is STAGING exactly while it is above 0 (R156, R160); at most one bank
is ACTIVE and at most one STAGING (R156); a restore image is held only in a transaction (R159). -/
def Banks.sound (b : Banks) : Prop :=
  b.depth ≤ 4
    ∧ (0 < b.depth ↔ ∃ k : BankNo, b.slots[k].state = .staging)
    ∧ (∀ j k : BankNo, b.slots[j].state = .active → b.slots[k].state = .active → j = k)
    ∧ (∀ j k : BankNo, b.slots[j].state = .staging → b.slots[k].state = .staging → j = k)
    ∧ (b.depth = 0 → b.restoreImage = none)

/-! ## Gantry link -/

/-- A CAMERA SENSE is in progress. -/
def Link.sensing (l : Link) : Bool :=
  match l.inProgress with
  | some (.cameraSense _ _) => true
  | _ => false

/-- Responses of request processing in the reply list. -/
def Link.processingReplies (l : Link) : Nat := l.replies.countP (fun r => !r.immediate)

/-- Immediate refusals in the reply list. -/
def Link.immediateReplies (l : Link) : Nat := l.replies.countP (·.immediate)

/-- The link's lists keep within their places: 64 notices (R186), 4 requests (R182), 8 immediate refusals
(R181), one response of request processing, and none while a CAMERA SENSE waits for its answer (R182,
R183). -/
def Link.sound (l : Link) : Prop :=
  l.notices.length ≤ noticePlaces
    ∧ l.requests.length ≤ requestPlaces
    ∧ l.immediateReplies ≤ immediatePlaces
    ∧ l.processingReplies ≤ 1
    ∧ (l.sensing = true → l.processingReplies = 0)

/-! ## All together -/

/-- Every invariant of the part. -/
def State.inv (s : State) : Prop :=
  s.memory.wf ∧ s.tracksInv ∧ s.passagesSound ∧ s.banks.sound ∧ s.link.sound

/-- A property that every step keeps. -/
def KeptByStep (P : State → Prop) : Prop := ∀ s t : State, P s → step s = .next t → P t

/-- States that steps reach from a state, with commands joining the end of the queue at any time (log 5). -/
inductive Reaches : State → State → Prop where
  | here (s : State) : Reaches s s
  | step {s t u : State} : Reaches s t → step t = .next u → Reaches s u
  | arrive {s t : State} (c : Instr) : Reaches s t → Reaches s { t with pending := t.pending ++ [c] }

/-! ## Notices and settlement -/

/-- From s to u a notice is queued behind every other; with 64 waiting it is dropped (R186). -/
abbrev State.endsWithNotice (s u : State) (n : Notice) : Prop :=
  ∃ before, s.link.notices <+: before
    ∧ (before.length < 64 → u.link.notices = before ++ [⟨n, s.clock.epoch, s.clock.time, false⟩])
    ∧ (64 ≤ before.length → u.link.notices = before ∧ u.link.dropped = true)

/-- The record q of a passage whose record was p, after a settlement check at s (R40, R45): with every shot
terminal CLEAR goes to FILED and STOPPING to ABANDONED, with the settle time and epoch; else it stays. -/
def State.settledFrom (s : State) (p q : Passage) : Prop :=
  (q.shots.all (fun k => k.state.terminal) = true →
    (p.state = .clear → q.state = .filed ∧ q.settle = some (s.clock.time, s.clock.epoch))
    ∧ (p.state = .stopping → q.state = .abandoned ∧ q.settle = some (s.clock.time, s.clock.epoch)))
  ∧ (q.shots.all (fun k => k.state.terminal) = false ∨ (p.state ≠ .clear ∧ p.state ≠ .stopping) →
    q.state = p.state ∧ q.settle = p.settle)

/-! ## Passages that wind down and lines that go DOWN -/

/-- A reference to a shot of a passage that stands in one of these states. -/
def Passage.refIn (p : Passage) (states : List ShotState) (r : ShotRef) : Bool :=
  r.passage == p.number && (p.shots[r.shot]?).any (fun k => states.contains k.state)

/-- From s to u the shots of a passage, taken as its record p lists them, have wound down (R44, R88, R125):
those to fire have left the shot queue; the HELD ones have left the readout queue, their reservations are
returned, and a DISCARD of their slots is placed. -/
structure WoundDown (s u : State) (p : Passage) : Prop where
  shotQueue : u.shotQueue = s.shotQueue.filter (fun r => !p.refIn [.planned, .frozen] r)
  readout : u.readout = { s.readout with
    queue := s.readout.queue.filter (fun r => !p.refIn [.held] r) }
  memory : u.memory = { s.memory with
    reservations := s.memory.reservations.filter (fun e => !p.refIn [.held] e.shot) }
  /-- Of a line nothing but its orders changes, and nothing at all without a HELD shot of its camera. -/
  lines : ∀ c : Camera, u.lines[c] = { s.lines[c] with
    orders := u.lines[c].orders, outstanding := u.lines[c].outstanding }
  otherLines : ∀ c : Camera, (∀ k ∈ p.shots, k.state = .held → k.camera ≠ c) →
    u.lines[c] = s.lines[c]
  /-- An order in flight goes on. -/
  inFlight : ∀ (c : Camera) (o : Outstanding), s.lines[c].outstanding = some o →
    u.lines[c].outstanding = some o
  /-- The DISCARD of each HELD shot's slot is pending or in flight. -/
  discards : ∀ (i : Nat) (k : Shot) (slot : SlotNo), p.shots[i]? = some k → k.state = .held →
    s.lines[k.camera].slotOf ⟨p.number, i⟩ = some slot →
      u.lines[k.camera].orders.has (.discard slot) = true
        ∨ ∃ ends, u.lines[k.camera].outstanding = some ⟨.discard slot, ends, false⟩
  /-- A line without orders issues the first of its DISCARDs at once: the lower-numbered shot's, which is the
  model's choice (log 31). -/
  issued : ∀ (i : Nat) (k : Shot) (slot : SlotNo), p.shots[i]? = some k → k.state = .held →
    s.lines[k.camera].slotOf ⟨p.number, i⟩ = some slot →
    (∀ (j : Nat) (k' : Shot), j < i → p.shots[j]? = some k' → k'.state = .held →
      k'.camera ≠ k.camera) →
    s.lines[k.camera].outstanding = none → s.lines[k.camera].orders = .none →
      u.lines[k.camera].outstanding = some ⟨.discard slot, s.clock.elapsed + 50000, false⟩

/-- The notice of a passage that has been settled (R41). -/
def Passage.settleNotices (q : Passage) : List Notice :=
  if q.state = .filed then
    [.passageFiled q.number q.track q.direction q.axleTotal q.axles.length q.vehicles.length
      q.terminalCounts (q.faults.first.map (·.code))]
  else if q.state = .abandoned then
    [.passageAbandoned q.number q.track q.direction q.abandonReason q.terminalCounts
      (q.faults.first.map (·.code))]
  else []

/-- The bank of a passage is DRAINING, and no other passage bound to it is in APPROACHING or TAIL. -/
def State.drainsWith (s : State) (p : Passage) : Prop :=
  s.banks.slots[p.bank].state = .draining
    ∧ ∀ r ∈ s.table.passages, r.number ≠ p.number → r.bank = p.bank →
      r.state ≠ .approaching ∧ r.state ≠ .tail

/-- From s to u a passage with the record p has left APPROACHING and TAIL, and its record has become q: its
bank has been checked for draining, with BANK_DRAINED and the bound and busy counts after the change (R158,
R172), behind the notices that come first and before that of the passage's settlement (R41). -/
structure LeftOpen (s u : State) (p q : Passage) (first : List Notice) : Prop where
  drained : s.drainsWith p → u.banks = { s.banks with
    slots := setAt s.banks.slots p.bank ⟨.standby, s.banks.slots[p.bank].contents⟩ }
  kept : ¬ s.drainsWith p → u.banks = s.banks
  notices : ∀ drain : List Notice,
    (s.drainsWith p → drain = [.bankDrained p.bank (s.boundCount p.bank) (s.busyCount p.bank + 1)]) →
    (¬ s.drainsWith p → drain = []) →
    u.link.notices = (s.queueNotices (first ++ drain ++ q.settleNotices)).link.notices
    ∧ u.link.dropped = (s.queueNotices (first ++ drain ++ q.settleNotices)).link.dropped

/-- The HELD shots in the slots of a line, by slot. -/
def State.heldIn (s : State) (c : Camera) : List ShotRef :=
  s.lines[c].slots.toList.filterMap (fun x =>
    x.bind (fun r => if s.shotState r = some .held then some r else none))

/-- The shots that end when a line goes DOWN, with the states they take (R124): the READING one PARTIAL when
a segment was stored and else LOST, then the HELD ones in its slots LOST, by slot, which is the model's choice
(log 34). -/
def State.endedByDown (s : State) (c : Camera) : List (ShotRef × ShotState) :=
  (match s.serving? c with
    | some (_, w) => [(w.shot, if s.hasStored w.shot = true then .partialStored else .lost)]
    | none => []) ++ (s.heldIn c).map (fun r => (r, .lost))

/-- The frame memory after the pages of a READING shot whose line goes DOWN are returned (R124, R139): in a
DISCARD or STOPPING step they were returned before. -/
def State.memoryAfterDown (s : State) (c : Camera) : FrameMemory :=
  match s.serving? c with
  | some (_, w) =>
    if w.step = .discard ∨ w.step = .stopping then s.memory
    else
      match w.page with
      | some k => (s.memory.free k).1.returnReservation w.shot
      | none => s.memory.returnReservation w.shot
  | none => s.memory

/-- From s to u a line has gone DOWN (R124, R130, R131). -/
structure WentDown (s u : State) (c : Camera) (cause : LineCause) : Prop where
  line : u.lines[c] = ⟨.down, Vector.replicate 2 none, .none, none, s.lines[c].accumulated, false, none⟩
  lines : ∀ j : Camera, j ≠ c → u.lines[j] = s.lines[j]
  shots : ∀ r, u.shot? r = (s.shot? r).map (fun k =>
    match (s.endedByDown c).lookup r with
    | some st => { k with state := st }
    | none => k)
  /-- Each ended shot leaves its fault in its passage, IMAGE_PARTIAL or CAMERA_LOSS with the shot number,
  and a passage that this settles is FILED or ABANDONED. -/
  passages : ∀ n p, s.passage? n = some p → ∃ q, u.passage? n = some q
    ∧ q.faults = ((s.endedByDown c).filter (fun x => x.1.passage == n)).foldl (fun f x =>
        f.record (if x.2 = .lost then .cameraLoss else .imagePartial) none (some x.1.shot)) p.faults
    ∧ ((∃ slot : SlotNo, (s.lines[c].slots[slot]).map (·.passage) = some n) →
        q.shots.all (fun k => k.state.terminal) = true →
          (p.state = .clear → q.state = .filed ∧ q.settle = some (s.clock.time, s.clock.epoch))
          ∧ (p.state = .stopping → q.state = .abandoned
              ∧ q.settle = some (s.clock.time, s.clock.epoch)))
    ∧ (q.shots.all (fun k => k.state.terminal) = false ∨ (p.state ≠ .clear ∧ p.state ≠ .stopping)
        ∨ (∀ slot : SlotNo, (s.lines[c].slots[slot]).map (·.passage) ≠ some n) → q.state = p.state)
  channels : u.readout.channels = (match s.serving? c with
    | some (ch, _) => setAt s.readout.channels ch none
    | none => s.readout.channels)
  queue : u.readout.queue = s.readout.queue.filter (fun r => !(s.heldIn c).contains r)
  memory : u.memory = { s.memoryAfterDown c with
    reservations := (s.memoryAfterDown c).reservations.filter
      (fun e => !(s.heldIn c).contains e.shot) }
  /-- CAMERA_STATE comes last, with the number of shots LOST. -/
  notice : s.endsWithNotice u (.cameraState c s.lines[c].state .down cause s.lines[c].accumulated
    ((s.endedByDown c).countP (fun x => x.2 = .lost)))
  /-- A CAMERA SENSE in progress on the line fails with CAMERA_DOWN. -/
  sense : ∀ tag, s.link.inProgress = some (.cameraSense tag c) →
    u.link.inProgress = none
    ∧ u.link.replies = s.link.replies ++ [⟨tag, 0x0602, .failed, .cameraDown, [], false⟩]
  others : u.clock = s.clock ∧ u.tracks = s.tracks ∧ u.fire = s.fire ∧ u.strobes = s.strobes
    ∧ u.shotQueue = s.shotQueue ∧ u.banks = s.banks

/-! ## Spares and bank bindings -/

/-- No spare is mapped by two pages, a mapped spare is one of the 128 and not bad, and an OUT_OF_SERVICE page
maps to nothing (R135). -/
def FrameMemory.sparesSound (m : FrameMemory) : Prop :=
  (∀ j k sp, (m.page j).spare = some sp → (m.page k).spare = some sp → j = k)
    ∧ (∀ k sp, (m.page k).spare = some sp → 8192 ≤ sp ∧ sp < 8320 ∧ m.bad sp = false)
    ∧ (∀ k, (m.page k).condition = .outOfService → (m.page k).spare = none)

/-- An open passage is bound to an ACTIVE or DRAINING bank, a DRAINING bank has an open passage bound to it,
and while no bank is ACTIVE every track is DISARMED (R156, R157, R172). -/
def State.bindings (s : State) : Prop :=
  (∀ p ∈ s.table.passages, p.isOpen = true →
      s.banks.slots[p.bank].state = .active ∨ s.banks.slots[p.bank].state = .draining)
    ∧ (∀ b : BankNo, s.banks.slots[b].state = .draining →
        ∃ p ∈ s.table.passages, p.isOpen = true ∧ p.bank = b)
    ∧ ((∀ b : BankNo, s.banks.slots[b].state ≠ .active) →
        ∀ t : Track, s.tracks[t].state = .disarmed)

/-! ## Shots, slots, channels and pages -/

/-- The READ of a line that counts: the pending one, or one in flight whose result is not ignored. -/
def CameraLine.readWanted (l : CameraLine) : Option ReadOrder :=
  l.orders.read.or (match l.outstanding with
    | some ⟨.read slot segment release, _, false⟩ => some ⟨slot, segment, release⟩
    | _ => none)

/-- A DISCARD of a slot is pending, or in flight and its result not ignored. -/
def CameraLine.discardWanted (l : CameraLine) (slot : SlotNo) : Bool :=
  l.orders.has (.discard slot) || l.sharesOutstanding (.discard slot)

/-- A channel in one of these steps has a drawn page for the segment it works on (section 6.4). -/
def ChannelStep.onSegment : ChannelStep → Bool
  | .read | .relink | .final => true
  | .discard | .stopping => false

/-- A shot waits for a readout channel: HELD, in a passage that is not in STOPPING. -/
def State.waits (s : State) (r : ShotRef) : Prop :=
  s.shotState r = some .held ∧ s.shotStopping r = false

/-- Shots, the shot queue, slots, readout queue, channels, camera orders, pages and reservations agree. -/
structure State.agree (s : State) : Prop where
  /-- A settled passage has terminal shots only (R40, R45), one in STOPPING none that is to fire (R44). -/
  settled : ∀ n p, s.passage? n = some p →
    (p.state = .filed ∨ p.state = .abandoned → ∀ k ∈ p.shots, k.state.terminal = true)
    ∧ (p.state = .stopping → ∀ k ∈ p.shots, k.state ≠ .planned ∧ k.state ≠ .frozen)
  /-- A bank that passages may be bound to has 1 to 64 segments for every fitted camera (R109, R166). -/
  segments : ∀ (b : BankNo) (c : Camera),
    s.banks.slots[b].state = .active ∨ s.banks.slots[b].state = .draining →
    ((s.bank b).cameras[c]).fitted = true →
      1 ≤ ((s.bank b).cameras[c]).segments.toNat ∧ ((s.bank b).cameras[c]).segments.toNat ≤ 64
  expected : ∀ r k, s.shot? r = some k → 1 ≤ k.segmentsExpected ∧ k.segmentsExpected ≤ 64
  /-- The shot queue holds exactly the PLANNED and FROZEN shots, each once, 64 at most (R87). -/
  queued : ∀ r, r ∈ s.shotQueue ↔ s.shotState r = some .planned ∨ s.shotState r = some .frozen
  queuedOnce : s.shotQueue.Nodup
  queuePlaces : s.shotQueue.length ≤ 64
  /-- The occupied slots of a line hold exactly the HELD and READING shots of its camera (R111). -/
  occupied : ∀ (c : Camera) (slot : SlotNo) (r : ShotRef), s.lines[c].slots[slot] = some r →
    ∃ k, s.shot? r = some k ∧ k.camera = c ∧ (k.state = .held ∨ k.state = .reading)
  twoSlots : ∀ (c : Camera) (r : ShotRef), s.lines[c].slots[(0 : SlotNo)] = some r →
    s.lines[c].slots[(1 : SlotNo)] ≠ some r
  slotted : ∀ r k, s.shot? r = some k → k.state = .held ∨ k.state = .reading →
    ∃ slot : SlotNo, s.lines[k.camera].slots[slot] = some r
  /-- The busy channels serve exactly the READING shots, one of a camera at most (R120). -/
  serves : ∀ (ch : ChannelNo) (w : ChannelWork), s.readout.channels[ch] = some w →
    s.shotState w.shot = some .reading
  served : ∀ r, s.shotState r = some .reading →
    ∃ (ch : ChannelNo) (w : ChannelWork), s.readout.channels[ch] = some w ∧ w.shot = r
  onePerCamera : ∀ (i j : ChannelNo) (v w : ChannelWork), s.readout.channels[i] = some v →
    s.readout.channels[j] = some w → s.cameraOf v.shot = s.cameraOf w.shot → i = j
  /-- The readout queue holds exactly the HELD shots of passages not in STOPPING, each once (R119, R125). -/
  waiting : ∀ r, r ∈ s.readout.queue ↔ s.waits r
  waitingOnce : s.readout.queue.Nodup
  /-- A READ is for the segment and the slot its channel works on, its release flag set on the last segment
  (R121); it is not pending and in flight at once (R112). -/
  reads : ∀ (c : Camera) (o : ReadOrder), s.lines[c].readWanted = some o →
    ∃ ch w k, s.readout.channels[(ch : ChannelNo)] = some w ∧ s.shot? w.shot = some k ∧ k.camera = c
      ∧ (w.step = .read ∨ w.step = .final) ∧ s.lines[c].slots[o.slot] = some w.shot
      ∧ o.segment = w.segment ∧ (o.release = true ↔ w.segment + 1 = k.segmentsExpected)
  readOnce : ∀ c : Camera, s.lines[c].orders.read = none
    ∨ s.lines[c].sharesOutstanding (.read 0 0 false) = false
  discardOnce : ∀ (c : Camera) (slot : SlotNo), s.lines[c].orders.has (.discard slot) = false
    ∨ s.lines[c].sharesOutstanding (.discard slot) = false
  /-- A DISCARD of an occupied slot is for a shot that stores no more (R123, R125, R126), one of a free slot
  is the linking sequence's (R127). -/
  discards : ∀ (c : Camera) (slot : SlotNo), s.lines[c].discardWanted slot = true →
    (∀ r, s.lines[c].slots[slot] = some r →
      (s.shotState r = some .held ∧ s.shotStopping r = true)
      ∨ ∃ ch w, s.readout.channels[(ch : ChannelNo)] = some w ∧ w.shot = r ∧ w.step.onSegment = false)
    ∧ (s.lines[c].slots[slot] = none → s.lines[c].linking = some (.restartDiscard slot)
      ∨ ∃ flags clear0 clear1, s.lines[c].linking = some (.clearing flags clear0 clear1)
          ∧ (slot = 0 → clear0 = true) ∧ (slot = 1 → clear1 = true))
  /-- A linking sequence runs exactly in LINKING (R127); after a RESTART the slots are free (R133). -/
  linking : ∀ c : Camera, s.lines[c].linking.isSome = true ↔ s.lines[c].state = .linking
  restarted : ∀ (c : Camera) (slot : SlotNo),
    s.lines[c].linking = some (.waiting true) ∨ s.lines[c].linking = some (.restartDiscard 0)
      ∨ s.lines[c].linking = some (.restartDiscard 1) → s.lines[c].slots[slot] = none
  /-- Frame memory has 8,192 pages. -/
  pageNumbers : ∀ e ∈ s.memory.pages, e.1 < 8192
  /-- A stored segment's page is held by it; a shot that is not read has none yet (R121, R139). -/
  stored : ∀ r k, s.shot? r = some k → ∀ i pg, k.pages[i]? = some pg →
    (s.memory.page pg).condition = .held ⟨r, i⟩
  unread : ∀ r k, s.shot? r = some k → k.state = .planned ∨ k.state = .frozen ∨ k.state = .held →
    k.pages = []
  /-- A channel on a segment holds its drawn page, behind the pages of the segments stored (R121, R138); in
  DISCARD or STOPPING it holds none. -/
  drawn : ∀ (ch : ChannelNo) (w : ChannelWork) (k : Shot), s.readout.channels[ch] = some w →
    s.shot? w.shot = some k →
    (w.step.onSegment = true → ∃ pg, w.page = some pg
      ∧ (s.memory.page pg).condition = .held ⟨w.shot, w.segment⟩
      ∧ k.pages.length = w.segment ∧ w.segment < k.segmentsExpected)
    ∧ (w.step.onSegment = false → w.page = none)
  /-- The reservation remainders are those of the shots still to be read, for the pages not drawn yet (R137
  to R139), and no more are reserved than are free (R136). -/
  reservedOnce : (s.memory.reservations.map (·.shot)).Nodup
  reservedFor : ∀ e ∈ s.memory.reservations, ∃ k, s.shot? e.shot = some k
    ∧ ((s.waits e.shot ∧ e.pages = k.segmentsExpected)
      ∨ ∃ ch w, s.readout.channels[(ch : ChannelNo)] = some w ∧ w.shot = e.shot
          ∧ w.step.onSegment = true ∧ 0 < e.pages ∧ w.segment + 1 + e.pages = k.segmentsExpected)
  reservedAll : ∀ r k, s.shot? r = some k →
    (s.waits r → s.memory.remainder r = k.segmentsExpected)
    ∧ (∀ (ch : ChannelNo) (w : ChannelWork), s.readout.channels[ch] = some w → w.shot = r →
        w.step.onSegment = true → s.memory.remainder r + w.segment + 1 = k.segmentsExpected)
  reserved : s.memory.reservedCount ≤ s.memory.freeCount

/-- The shot queue is in the order of R87. -/
def State.queueInOrder (s : State) : Prop :=
  s.shotQueue.Pairwise (fun a b => s.queueBefore a b = true)

/-- Every queued fire time lies within 2^45 µs of a moment, so that signed differences order them (R2). -/
def State.queueNear (s : State) (moment : GantryTime) : Prop :=
  ∀ r ∈ s.shotQueue, (timeDiff (s.fireTimeOf r) moment).natAbs < 2 ^ 45

/-! ## The conditions of a commit -/

/-- Conditions that fields of an entry must meet, each with the failure it reports (R168). -/
def conditionsOf (kind index : Nat) (fields : List (Prop × Nat)) : List (Prop × Failure) :=
  fields.map (fun x => (x.1, ⟨kind, index, x.2, 0, none⟩))

/-- A fitted track entry (R6). -/
def TrackEntry.conditions (e : TrackEntry) (index : Nat) : List (Prop × Failure) :=
  if e.fitted then
    conditionsOf 1 index [
      (1000 ≤ e.headSpacingA.toNat ∧ e.headSpacingA.toNat ≤ 5000, 2),
      (1000 ≤ e.headSpacingB.toNat ∧ e.headSpacingB.toNat ≤ 5000, 3),
      (20000 ≤ e.dA.toNat ∧ e.dA.toNat ≤ 400000, 4),
      (20000 ≤ e.dB.toNat ∧ e.dB.toNat ≤ 400000, 5),
      (20000 ≤ e.tailDistance.toNat ∧ e.tailDistance.toNat ≤ 200000, 6),
      (1000000 ≤ e.exitTimeout.toNat ∧ e.exitTimeout.toNat ≤ 60000000, 7),
      (1000000 ≤ e.quietTime.toNat ∧ e.quietTime.toNat ≤ 60000000, 8),
      (e.lateTolerance.toNat ≤ 500, 9)]
  else []

/-- A fitted camera entry (R109). -/
def CameraEntry.conditions (e : CameraEntry) (index : Nat) : List (Prop × Failure) :=
  if e.fitted then
    conditionsOf 2 index [
      (1 ≤ e.track.toNat ∧ e.track.toNat ≤ 4, 2),
      (-20000 ≤ e.planeOffset.toInt ∧ e.planeOffset.toInt ≤ 20000, 3),
      (e.directionFilter.toNat ≤ 2, 4),
      (e.strobe.toNat ≤ 3 ∨ e.strobe = 0xFF, 5),
      (1 ≤ e.segments.toNat ∧ e.segments.toNat ≤ 64, 6),
      (100 ≤ e.deadTime.toNat ∧ e.deadTime.toNat ≤ 50000, 7)]
  else []

/-- A fitted strobe-bank entry (R96). -/
def StrobeEntry.conditions (e : StrobeEntry) (index : Nat) : List (Prop × Failure) :=
  if e.fitted then
    conditionsOf 3 index [
      (1000 ≤ e.recharge.toNat ∧ e.recharge.toNat ≤ 100000, 2),
      (e.window.toNat ≤ 200, 3),
      (e.policy.toNat ≤ 1, 4)]
  else []

/-- One pantograph of a present profile of this length (R56). -/
def PantographEntry.conditions (p : PantographEntry) (index sub length : Nat) : List (Prop × Failure) :=
  [(-15000 ≤ p.offset.toInt ∧ p.offset.toInt ≤ length + 15000, ⟨5, index, 9, sub, none⟩),
    (p.cameras ≠ 0 ∧ p.cameras.toNat < 4096, ⟨5, index, 10, sub, none⟩)]

/-- A present profile (R56): the spacings are numbered from 1. -/
def ProfileEntry.conditions (e : ProfileEntry) (index : Nat) : List (Prop × Failure) :=
  if e.present then
    conditionsOf 5 index [(2 ≤ e.axleCount.toNat ∧ e.axleCount.toNat ≤ 8, 2)]
      ++ (List.range (e.axleCount.toNat - 1)).map (fun i =>
          (1000 ≤ (e.spacings.toList.getD i 0).toNat ∧ (e.spacings.toList.getD i 0).toNat ≤ 30000,
            ⟨5, index, 3, i + 1, none⟩))
      ++ conditionsOf 5 index [
        (20 ≤ e.tolerance.toNat ∧ e.tolerance.toNat ≤ 500, 4),
        (1000 ≤ e.gapMin.toNat ∧ e.gapMin.toNat ≤ 40000, 5),
        (1000 ≤ e.gapMax.toNat ∧ e.gapMax.toNat ≤ 40000, 6),
        (e.gapMin.toNat ≤ e.gapMax.toNat, 0x87),
        (e.pantographCount.toNat ≤ 3, 8)]
      ++ (e.pantographs.toList.take e.pantographCount.toNat).zipIdx.flatMap (fun x =>
          x.1.conditions index x.2
            ((e.spacings.toList.take (e.axleCount.toNat - 1)).map (·.toNat)).sum)
  else []

/-- An exposure entry (R74). -/
def ExposureEntry.conditions (e : ExposureEntry) (index : Nat) : List (Prop × Failure) :=
  conditionsOf 6 index [
    (-2000 ≤ e.trim.toInt ∧ e.trim.toInt ≤ 2000, 4),
    (e.captureAllowed = true → 5 ≤ e.exposureWidth.toNat ∧ e.exposureWidth.toNat ≤ 1000, 2),
    (e.captureAllowed = true → 5 ≤ e.flashWidth.toNat ∧ e.flashWidth.toNat ≤ 1000, 3)]

/-- Cross-table condition 1 over a present profile (R167): the cameras of its camera sets are fitted. -/
def Bank.camerasFitted (b : Bank) (k : Fin 64) : List (Prop × Failure) :=
  if (b.profiles[k]).present then
    ((b.profiles[k]).pantographs.toList.take (b.profiles[k]).pantographCount.toNat).zipIdx.flatMap
      (fun x => ((List.finRange 12).filter (fun c => x.1.cameras.getLsbD c.val)).map (fun c =>
        ((b.cameras[c]).fitted = true, ⟨5, k.val, 0x81, x.2, some c.val⟩)))
  else []

/-- Cross-table conditions 2 to 5 over a fitted camera (R167): its track and its strobe bank are fitted, and
its plane distance is 10,000 mm or more in both directions. -/
def Bank.cameraPlaced (b : Bank) (c : Camera) : List (Prop × Failure) :=
  if (b.cameras[c]).fitted then
    conditionsOf 2 c.val [
      ((b.trackOf b.cameras[c]).fitted = true, 0x82),
      (∀ k : StrobeNo, (b.cameras[c]).strobe.toNat = k.val → (b.strobes[k]).fitted = true, 0x83),
      (10000 ≤ ((b.trackOf b.cameras[c]).dA.toNat : Int) + (b.cameras[c]).planeOffset.toInt, 0x84),
      (10000 ≤ ((b.trackOf b.cameras[c]).dB.toNat : Int) - (b.cameras[c]).planeOffset.toInt, 0x85)]
  else []

/-- The conditions of a commit in the order in which they are checked (R166, R167). -/
def State.commitConditions (s : State) (b : Bank) : List (Prop × Failure) :=
  (List.finRange 4).flatMap (fun t => (b.tracks[t]).conditions (t.val + 1))
    ++ (List.finRange 12).flatMap (fun c => (b.cameras[c]).conditions c.val)
    ++ (List.finRange 4).flatMap (fun k => (b.strobes[k]).conditions k.val)
    ++ conditionsOf 4 0 [(b.global.threshold.toNat ≤ 8192, 1)]
    ++ (List.finRange 64).flatMap (fun k => (b.profiles[k]).conditions k.val)
    ++ (List.finRange 256).flatMap (fun k => (b.exposures[k]).conditions k.val)
    ++ (List.finRange 64).flatMap b.camerasFitted
    ++ (List.finRange 12).flatMap b.cameraPlaced
    ++ (List.finRange 4).flatMap (fun t =>
        conditionsOf 1 (t.val + 1)
          [((b.tracks[t]).fitted = true ∨ s.tracks[t].state = .disarmed, 0x86)])

/-! ## Requests carried out as they arrive -/

/-- The link is UP, nothing is in progress, no request waits and no response of request processing
waits: a request that arrives is taken in the same event (R182). -/
def State.readyFor (s : State) : Prop :=
  s.link.up = true ∧ s.link.inProgress = none ∧ s.link.requests = []
    ∧ s.link.processingReply = false

end Sys2Proof.Machine
end

