-- ==== Sys2Proof/Certificates/Slice0/Obligations.lean ====
section
/-! DEFINITION. The statements about the EB-412, one definition each. A request command's response is
written as `placeAnswer` at the end of the reply list, and `endEvent` is the close of an event, of which
`EventCloseFrame` says what it leaves alone. -/

section

open Sys2Proof Sys2Proof.Machine

/-! ## The block and its queue -/

/-- One step takes the command in front of the queue and runs it on the rest (the model's queue). -/
def Obligations.StepRunsFrontCommand : Prop :=
  ∀ (c : Instr) (rest : List Instr) (s : State), s.pending = c :: rest →
    step s = exec c { s with pending := rest }

/-- On an empty queue the first event that has fallen due by time is taken, and else one microsecond passes
on gantry time (modulo 2^48) and on the elapsed count. The model's choice: log 1, log 2. -/
def Obligations.StepOnEmptyQueue : Prop :=
  ∀ s : State, s.pending = [] →
    (∀ c, s.dueEvent = some c → step s = exec c s)
    ∧ (s.dueEvent = none →
        step s = .next { s with clock := ⟨s.clock.time + 1, s.clock.epoch, s.clock.elapsed + 1⟩ })

/-- Every well-formed command, in every state, has a next state. -/
def Obligations.EveryWellFormedCommandCompletes : Prop :=
  ∀ (c : Instr) (s : State), c.wellFormed = true → ∃ t, exec c s = .next t

/-- No command touches the waiting commands, and none but POWER_UP moves the elapsed count on which
intervals are timed (R3). The waiting commands are the model's own (its choice, log 5), and so is the shape of
the elapsed count, a count of microseconds beside gantry time (logs 1 and 10). -/
def Obligations.CommandsLeaveQueueAndElapsedCount : Prop :=
  ∀ (c : Instr) (s t : State), exec c s = .next t →
    t.pending = s.pending
    ∧ ((∀ levels, c ≠ .powerUp levels) → t.clock.elapsed = s.clock.elapsed)

/-! ## Power-up -/

/-- POWER_UP puts every block in the state its power-up rule gives, with the head healths taken from the
input levels (R1, R25, R53, R89, R107, R132, R151, R176, R199). The elapsed count and the stored bytes
start as logs 10, 7 and 8 say. -/
def Obligations.PowerUpState : Prop :=
  ∀ (levels : Vector HeadHealth 4) (s : State), ∃ u, exec (.powerUp levels) s = .next u
    ∧ u.clock = ⟨0, 0, 0⟩
    ∧ (∀ t : Track, u.tracks[t] = ⟨.disarmed, levels[t], [], [], none⟩)
    ∧ u.table = ⟨[], 1⟩
    ∧ u.shotQueue = []
    ∧ (∀ c : Camera, u.fire[c] = ⟨none, none⟩)
    ∧ (∀ b : StrobeNo, u.strobes[b] = ⟨none, none, none⟩)
    ∧ (∀ c : Camera, u.lines[c] =
        ⟨.unlinked, Vector.replicate 2 none, ⟨false, false, false, none, false⟩, none, 0, false, none⟩)
    ∧ u.readout = ⟨[], Vector.replicate 4 none⟩
    ∧ u.memory = ⟨[], [], [], false, [], []⟩
    ∧ (∀ b : BankNo, u.banks.slots[b] = ⟨.empty, Bank.empty⟩)
    ∧ u.banks.depth = 0 ∧ u.banks.restoreImage = none
    ∧ u.link = ⟨false, [], [], none, [], [], false, none, none⟩
    ∧ u.pending = s.pending

/-- After POWER_UP every trigger and strobe output is low, no busy interval runs, every strobe bank is READY
without a last flash, and the shot queue is empty (R107). -/
def Obligations.PowerUpOutputs : Prop :=
  ∀ (levels : Vector HeadHealth 4) (s : State), ∃ u, exec (.powerUp levels) s = .next u
    ∧ (∀ c : Camera, u.fire[c].trigger = none ∧ u.fire[c].busy = none)
    ∧ (∀ b : StrobeNo, u.strobes[b].output = none ∧ u.strobes[b].recharge = none
        ∧ u.strobes[b].flash = none)
    ∧ u.shotQueue = []

/-- The state after power-up with healthy heads (the levels are the model's choice, log 6) has every
invariant that the statements below say a step keeps. -/
def Obligations.ResetHasEveryInvariant : Prop :=
  State.reset.inv ∧ State.reset.memory.sparesSound ∧ State.reset.bindings ∧ State.reset.agree

/-! ## Invariants that every step keeps -/

/-- Tracks and passages stay in agreement: the quiet timer runs exactly in IGNORING, pair FIFOs hold at most
four crossings and none outside OCCUPIED, live passages have numbers of their own, and a track is OCCUPIED
exactly while it has a passage in APPROACHING or TAIL, of which it has one at most (R12, R15, R26, R28). -/
def Obligations.TracksAndPassagesStayInAgreement : Prop := KeptByStep State.tracksInv

/-- Frame memory, banks and link stay sound: the bytes and the page table keep their canonical form (log 7);
no spare is mapped twice or bad while it is mapped, and an OUT_OF_SERVICE page maps to nothing (R135); the
depth is 0 to 4, a bank STAGING exactly while it is above 0, at most one bank ACTIVE and one STAGING, a
restore image in a transaction only (R156, R159, R160); open passages are bound to an ACTIVE or DRAINING bank,
a DRAINING bank has an open passage, and without an ACTIVE bank every track is DISARMED (R156, R157, R172); at
most 64 notices, 4 requests, 8 immediate refusals, one response of request processing and none while a CAMERA
SENSE is in progress (R181 to R183, R186). -/
def Obligations.MemoryBanksAndLinkStaySound : Prop :=
  KeptByStep (fun s => s.memory.wf) ∧ KeptByStep (fun s => s.memory.wf ∧ s.memory.sparesSound)
    ∧ KeptByStep (fun s => s.banks.sound)
    ∧ KeptByStep (fun s => s.tracksInv ∧ s.banks.sound ∧ s.bindings)
    ∧ KeptByStep (fun s => s.link.sound)

/-- Shots, the shot queue, the holding slots, the readout queue, the channels, the camera orders, the pages
and the reservations stay in agreement: the shot queue holds the PLANNED and FROZEN shots, the slots of a line
the HELD and READING shots of its camera, the readout queue the HELD shots of passages not in STOPPING, the
channels the READING shots; a READ is for the segment its channel works on; a stored or drawn page is held by
its segment; the reservation remainders are those of the pages still to be drawn, and no more pages are
reserved than are free (R44, R87, R111, R112, R119 to R121, R125 to R127, R136 to R139). -/
def Obligations.ShotsSlotsAndPagesStayInAgreement : Prop :=
  KeptByStep (fun s => s.inv ∧ s.bindings ∧ s.agree)

/-- R87: a step leaves the shot queue holding exactly the PLANNED and FROZEN shots, each once and 64 at most,
and a queue in the order of planned fire time, passage opening order and shot number in that order. Signed
differences order times within half their range only (R2), so the order is stated while the queued fire times,
before and after, lie within 2^45 µs of the gantry time. The states are those of
`ShotsSlotsAndPagesStayInAgreement`. -/
def Obligations.ShotQueueStaysInOrder : Prop :=
  ∀ s t : State, s.inv → s.bindings → s.agree → step s = .next t →
    (∀ r, r ∈ t.shotQueue ↔ t.shotState r = some .planned ∨ t.shotState r = some .frozen)
    ∧ t.shotQueue.Nodup ∧ t.shotQueue.length ≤ 64
    ∧ (s.queueInOrder → s.queueNear s.clock.time → t.queueNear s.clock.time → t.queueInOrder)

/-- Whatever commands wait at power-up and arrive later, in whatever order, every state that steps reach has
every invariant: those that `ResetHasEveryInvariant` lists and the statements above say a step keeps. -/
def Obligations.EveryReachedStateIsSound : Prop :=
  ∀ (levels : Vector HeadHealth 4) (commands : List Instr) (t : State),
    Reaches (State.powerUp levels commands) t →
      t.inv ∧ t.memory.sparesSound ∧ t.bindings ∧ t.agree

/-- R57: in every passage each stored axle below the cursor is covered by exactly one vehicle-list entry, no
entry covers an axle at or above the cursor, entry 0 starts at axle 0, each later entry starts behind the one
before it, and the cursor is the end of the last entry, or 0 while the list is empty. It is stated of the
states whose passages are sound, which the first clause says every step keeps; with it the lists keep within
their places (R31, R65, R78). -/
def Obligations.VehicleListsCoverAxles : Prop :=
  KeptByStep (fun s => s.numbered ∧ s.passagesSound)
  ∧ ∀ s : State, s.passagesSound → ∀ p ∈ s.table.passages,
      (∀ i, i < p.axles.length → i < p.cursor →
        ∃ (k : Nat) (v : Vehicle), p.vehicles[k]? = some v ∧ v.firstAxle ≤ i ∧ i < v.firstAxle + v.axleCount
          ∧ ∀ (j : Nat) (w : Vehicle), p.vehicles[j]? = some w → w.firstAxle ≤ i →
            i < w.firstAxle + w.axleCount → j = k)
      ∧ (∀ v ∈ p.vehicles, v.firstAxle + v.axleCount ≤ p.cursor)
      ∧ (∀ v, p.vehicles[0]? = some v → v.firstAxle = 0)
      ∧ (∀ k v w, p.vehicles[k]? = some v → p.vehicles[k + 1]? = some w →
          w.firstAxle = v.firstAxle + v.axleCount)
      ∧ (∀ v, p.vehicles.getLast? = some v → p.cursor = v.firstAxle + v.axleCount)
      ∧ (p.vehicles = [] → p.cursor = 0)

/-! ## Frames and table entries -/

/-- The arrival checks read from every request's body that request, with every argument at every value; a
TABLE PUT whose contents have not the length of its kind is refused with BAD_LENGTH (R180, 9.3.2). -/
def Obligations.RequestBodiesParse : Prop :=
  ∀ r : Request, parseBody (requestBody r) =
    if contentsLengthOk r then .ok r else .error (r.code, .badLength)

/-- Every entry kind: its contents have the length of 9.11.3 and are read back as they were written. -/
def Obligations.TableEntriesRoundTrip : Prop :=
  (∀ e : TrackEntry, e.encode.length = 27 ∧ TrackEntry.decode e.encode = e)
  ∧ (∀ e : CameraEntry, e.encode.length = 14 ∧ CameraEntry.decode e.encode = e)
  ∧ (∀ e : StrobeEntry, e.encode.length = 8 ∧ StrobeEntry.decode e.encode = e)
  ∧ (∀ e : GlobalEntry, e.encode.length = 2 ∧ GlobalEntry.decode e.encode = e)
  ∧ (∀ e : ProfileEntry, e.encode.length = 42 ∧ ProfileEntry.decode e.encode = e)
  ∧ (∀ e : ExposureEntry, e.encode.length = 7 ∧ ExposureEntry.decode e.encode = e)

/-- FRAME_RECEIVED with the whole frame of a request (start mark, kind, tag, length, body, check), or with
the rest of it when its first bytes came before, does what the request's own command does, for every
well-formed request command, while the link is UP (R178, R179; request rows: log 4). A first part of a frame
is kept and does no more. While the link is DOWN nothing is taken (R177). A frame of another kind, one with a
wrong check and an over-long one are discarded without response, and the receiver hunts on for the next start
mark (R179; a start mark inside a discarded frame: log 25). A request that arrives is refused at once with
BAD_LENGTH, UNKNOWN_REQUEST or QUEUE_FULL, or joins the queue, from which the oldest is taken when none is in
progress and no response waits; with 8 immediate refusals waiting it is discarded (R180 to R182, R184). -/
def Obligations.ReceiverTakesRequestFrames : Prop :=
  (∀ (c : Instr) (tag : Byte) (r : Request) (s : State) (n : Nat),
    c.carried = some (tag, r) → c.wellFormed = true → n < (requestFrame tag r).length →
      (s.link.up = true → s.link.received = (requestFrame tag r).take n →
        exec (.frameReceived ((requestFrame tag r).drop n)) s
          = exec c { s with link := { s.link with received := [] } })
      ∧ (s.link.up = true → s.link.received = [] →
        exec (.frameReceived ((requestFrame tag r).take n)) s
          = .next { s with link := { s.link with received := (requestFrame tag r).take n } })
      ∧ (s.link.up = false →
        exec (.frameReceived ((requestFrame tag r).drop n)) s = .next s ∧ exec c s = .next s))
  ∧ (∀ (s : State) (kind tag : Byte) (length : Nat) (body check : List Byte) (good : Prop),
    s.link.up = true → s.link.received = [] → length < 65536 → check.length = 4 →
    (good ↔ check = leBytes 4 (crc32 (kind :: tag :: leBytes 2 length ++ body)).toNat) →
    (kind ≠ 1 ∧ good ∧ length ≤ 4104 ∧ body.length = length)
      ∨ ((¬ good ∧ length ≤ 4104 ∧ body.length = length ∨ 4104 < length)
        ∧ ∀ b ∈ kind :: tag :: leBytes 2 length ++ body ++ check, b ≠ 0xD4) →
    exec (.frameReceived ([0xD4, 0x2B, kind, tag] ++ leBytes 2 length ++ body ++ check)) s = .next s
    ∧ ∀ (c : Instr) (tag' : Byte) (r : Request), c.carried = some (tag', r) → c.wellFormed = true →
      exec (.frameReceived ([0xD4, 0x2B, kind, tag] ++ leBytes 2 length ++ body ++ check
          ++ requestFrame tag' r)) s = exec c s)
  ∧ (∀ (c : Instr) (tag : Byte) (r : Request) (s : State), c.carried = some (tag, r) → s.link.up = true →
      (∀ detail, (contentsLengthOk r = false ∧ detail = .badLength)
          ∨ (contentsLengthOk r = true ∧ s.link.requests.length = 4 ∧ detail = .queueFull) →
        (s.link.replies.countP (·.immediate) < 8 →
          exec c s = .next ({ s with link := { s.link with
            replies := s.link.replies ++ [⟨tag, r.code, .refused, detail, [], true⟩] } }
              : State).endEvent)
        ∧ (8 ≤ s.link.replies.countP (·.immediate) → exec c s = .next s.endEvent))
      ∧ (contentsLengthOk r = true → s.link.requests.length < 4 →
        ∀ waiting, waiting = s.link.requests ++ [⟨tag, r⟩] →
        (s.link.inProgress ≠ none ∨ (∃ x ∈ s.link.replies, x.immediate = false) →
          exec c s = .next ({ s with link := { s.link with requests := waiting } } : State).endEvent)
        ∧ (s.link.inProgress = none → (∀ x ∈ s.link.replies, x.immediate = true) →
          ∀ oldest rest, waiting = oldest :: rest →
            exec c s = .next (({ s with link := { s.link with requests := rest } } : State).carryOut
              oldest.tag oldest.request).endEvent)))
  ∧ (∀ (s : State) (tag : Byte) (body : List Byte) (lengths : List (Nat × Nat)) (code : BitVec 16)
      (detail : Detail), s.link.up = true → s.link.received = [] → body.length ≤ 4104 →
    lengths = [(0x0101, 10), (0x0102, 2), (0x0103, 3), (0x0104, 3), (0x0105, 3), (0x0201, 2),
      (0x0202, 6), (0x0203, 4), (0x0204, 4), (0x0601, 4), (0x0602, 3), (0x0701, 4), (0x0702, 6),
      (0x0703, 4), (0x0801, 2), (0x0803, 5), (0x0804, 2), (0x0805, 2), (0x0806, 2), (0x0901, 2),
      (0x0902, 2), (0x0903, 7)] →
    (body.length < 2 ∧ code = 0 ∧ detail = .badLength)
      ∨ (2 ≤ body.length ∧ code.toNat = leNat (body.take 2)
        ∧ ((code.toNat ∉ 0x0802 :: lengths.map (·.1) ∧ detail = .unknownRequest)
          ∨ (code.toNat ≠ 0x0802 ∧ (∃ n, (code.toNat, n) ∈ lengths ∧ body.length ≠ n)
            ∧ detail = .badLength)
          ∨ (code.toNat = 0x0802 ∧ body.length < 4 ∧ detail = .badLength)
          ∨ (code.toNat = 0x0802 ∧ 4 ≤ body.length ∧ detail = .badLength
            ∧ ∃ n, entryLength (body.getD 2 0) = some n ∧ body.length ≠ 4 + n))) →
    (s.link.replies.countP (·.immediate) < 8 →
      exec (.frameReceived (frameBytes 1 tag body)) s = .next ({ s with link := { s.link with
        replies := s.link.replies ++ [⟨tag, code, .refused, detail, [], true⟩] } } : State).endEvent)
    ∧ (8 ≤ s.link.replies.countP (·.immediate) →
      exec (.frameReceived (frameBytes 1 tag body)) s = .next s.endEvent))

/-! ## The close of an event -/

/-- The close of an event is the memory-low comparison and then the transmitter's arbitration (R150, R185; log
20). The comparison takes frame memory from normal to low with MEMORY_LOW when fewer pages are free than the
ACTIVE bank's threshold, back with MEMORY_NORMAL when no fewer are, and does nothing else. The close leaves
alone the clock, tracks, shot queue, fire unit, strobes, camera lines, readout, banks, the stored bytes, the
receiver, the requests, the replies, and of a shot everything but its corrected count and damaged set. With
the link DOWN or a frame being sent it touches neither passages nor page table. -/
def Obligations.EventCloseFrame : Prop :=
  ∀ s : State,
    s.endEvent = s.compareLow.arbitrate
    ∧ (∀ threshold, (∀ bank, s.activeContents = some bank → threshold = bank.global.threshold.toNat) →
        (s.activeContents = none → threshold = 0) →
      (s.memory.low = false → s.memory.freeCount < threshold →
        s.compareLow = ({ s with memory := { s.memory with low := true } } : State).queueNotice
          (.memoryLow s.memory.freeCount s.memory.reservedCount threshold))
      ∧ (s.memory.low = true → threshold ≤ s.memory.freeCount →
        s.compareLow = ({ s with memory := { s.memory with low := false } } : State).queueNotice
          (.memoryNormal s.memory.freeCount s.memory.reservedCount threshold))
      ∧ (s.memory.low = true ∧ s.memory.freeCount < threshold
          ∨ s.memory.low = false ∧ threshold ≤ s.memory.freeCount → s.compareLow = s))
    ∧ s.endEvent.clock = s.clock ∧ s.endEvent.tracks = s.tracks ∧ s.endEvent.shotQueue = s.shotQueue
    ∧ s.endEvent.fire = s.fire ∧ s.endEvent.strobes = s.strobes ∧ s.endEvent.lines = s.lines
    ∧ s.endEvent.readout = s.readout ∧ s.endEvent.banks = s.banks ∧ s.endEvent.pending = s.pending
    ∧ (∀ a, s.endEvent.memory.byteAt a = s.memory.byteAt a)
    ∧ s.endEvent.memory.wrong = s.memory.wrong
    ∧ s.endEvent.memory.badSpares = s.memory.badSpares
    ∧ s.endEvent.memory.reservations = s.memory.reservations
    ∧ s.endEvent.table.nextNumber = s.table.nextNumber
    ∧ s.endEvent.table.passages.map (fun p : Passage => { p with
          shots := p.shots.map (fun k : Shot => { k with corrected := 0, damaged := [] }) })
        = s.table.passages.map (fun p : Passage => { p with
          shots := p.shots.map (fun k : Shot => { k with corrected := 0, damaged := [] }) })
    ∧ s.endEvent.link.up = s.link.up ∧ s.endEvent.link.received = s.link.received
    ∧ s.endEvent.link.requests = s.link.requests ∧ s.endEvent.link.replies = s.link.replies
    ∧ s.endEvent.link.lastSent = s.link.lastSent
    ∧ (s.link.up = false ∨ s.link.sending ≠ none →
        s.endEvent.table = s.table ∧ s.endEvent.memory.pages = s.memory.pages
        ∧ s.endEvent.link.sending = s.link.sending
        ∧ s.endEvent.link.inProgress = s.link.inProgress)

/-- The transmitter takes, in this order: nothing while the link is DOWN or a frame is being sent; the oldest
notice when the last frame sent was IMAGE_DATA and a notice waits; the oldest response; the next chunk of a
fetch whose response has been sent; the oldest notice; nothing (R185). A notice that is started takes the
dropped flag with it (R187). A chunk carries the 512 words of its place in its segment's page as they are read
and is DAMAGED when one of them is; the words corrected add to the shot's count, and a damaged chunk joins its
segment to the shot's damaged set and marks the page pending-retire, with no preferred spare, unless it is
marked already, when its mark stays as it was (R141, R142, R194; words with more wrong bits than two: log 9).
-/
def Obligations.ArbitrationOrder : Prop :=
  ∀ s : State,
    (s.link.up = false ∨ s.link.sending ≠ none → s.arbitrate = s)
    ∧ (s.link.up = true → s.link.sending = none →
      (∀ n rest, s.link.notices = n :: rest → s.link.lastSent = some .imageData →
        s.arbitrate = { s with link := { s.link with
          notices := { n with dropped := n.dropped || s.link.dropped } :: rest
          dropped := false, sending := some .notice } })
      ∧ ((s.link.lastSent ≠ some .imageData ∨ s.link.notices = []) →
        (s.link.replies ≠ [] →
          s.arbitrate = { s with link := { s.link with sending := some .response } })
        ∧ (s.link.replies = [] →
          (∀ f, s.link.inProgress = some (.fetch f) → f.responseSent = true →
              f.next < 16 * f.segments →
            ∃ image, s.arbitrate.link.sending = some (.chunk image) ∧ image.tag = f.tag
              ∧ image.shot = f.shot ∧ image.segment = f.first + f.next / 16
              ∧ image.chunk = f.next % 16 ∧ image.sequence = f.next
              ∧ (image.final = true ↔ f.next + 1 = 16 * f.segments)
              ∧ s.arbitrate.link.inProgress = some (.fetch { f with next := f.next + 1 })
              ∧ (∀ (k : Shot) (pg ph : Nat) (words : List (WordCheck × List Byte)), s.memory.wf →
                s.shot? f.shot = some k → k.pages[image.segment]? = some pg →
                (s.memory.page pg).physical pg = some ph →
                words = (List.range 512).map (fun w =>
                  s.memory.readWord (ph * 8192 + image.chunk * 512 + w)) →
                image.data = words.flatMap (·.2)
                ∧ (image.damaged = true ↔ ∃ w ∈ words, w.1 = .damaged)
                ∧ s.arbitrate.shot? f.shot = some { k with
                    corrected := min 65535 (k.corrected + words.countP (fun w => w.1 = .corrected))
                    damaged := if image.damaged then insertRising image.segment k.damaged
                      else k.damaged }
                ∧ (image.damaged = false → s.arbitrate.memory = s.memory)
                ∧ (image.damaged = true →
                  s.arbitrate.memory.page pg = { s.memory.page pg with
                    mark := some ((s.memory.page pg).mark.getD ⟨none, true, false⟩) }
                  ∧ ∀ j, j ≠ pg → s.arbitrate.memory.page j = s.memory.page j)))
          ∧ ((∀ f, s.link.inProgress = some (.fetch f) →
                f.responseSent = false ∨ 16 * f.segments ≤ f.next) →
            (∀ n rest, s.link.notices = n :: rest →
              s.arbitrate = { s with link := { s.link with
                notices := { n with dropped := n.dropped || s.link.dropped } :: rest
                dropped := false, sending := some .notice } })
            ∧ (s.link.notices = [] → s.arbitrate = s)))))

/-! ## Requests of the clock and the tracks (chapter 1) -/

/-- TIME SET: a value outside 48 bits is refused with BAD_ARGUMENT; otherwise it is refused with TRACKS_BUSY
while a passage is in APPROACHING or TAIL or a shot PLANNED or FROZEN; otherwise the clock takes the value,
the epoch goes up by one, and the response carries both (R4). -/
def Obligations.TimeSetRequest : Prop :=
  ∀ (s : State) (tag : Byte) (t : BitVec 64), s.readyFor →
    (2 ^ 48 ≤ t.toNat →
      exec (.timeSet tag t) s
        = .next (s.placeAnswer tag 0x0101 ⟨.refused, .badArgument, []⟩).endEvent)
    ∧ (t.toNat < 2 ^ 48 →
      (∃ p ∈ s.table.passages, p.state = .approaching ∨ p.state = .tail
          ∨ ∃ k ∈ p.shots, k.state = .planned ∨ k.state = .frozen) →
      exec (.timeSet tag t) s
        = .next (s.placeAnswer tag 0x0101 ⟨.refused, .tracksBusy, []⟩).endEvent)
    ∧ (t.toNat < 2 ^ 48 →
      (∀ p ∈ s.table.passages, p.state ≠ .approaching ∧ p.state ≠ .tail
          ∧ ∀ k ∈ p.shots, k.state ≠ .planned ∧ k.state ≠ .frozen) →
      exec (.timeSet tag t) s
        = .next (({ s with clock := ⟨t.setWidth 48, s.clock.epoch + 1, s.clock.elapsed⟩ } : State)
            |>.placeAnswer tag 0x0101
              ⟨.done, .ok, leBytes 8 t.toNat ++ [s.clock.epoch + 1]⟩).endEvent)

/-- R5: TIME GET is answered DONE OK in every state with the gantry time at the moment it is taken and the
epoch, and changes nothing but the reply list its response joins. -/
def Obligations.TimeGetRequest : Prop :=
  (∀ (s : State) (tag : Byte),
    s.carryOut tag .timeGet
      = s.placeAnswer tag 0x0102 ⟨.done, .ok, leBytes 8 s.clock.time.toNat ++ [s.clock.epoch]⟩)
  ∧ (∀ (s : State) (tag : Byte), s.readyFor →
    exec (.timeGet tag) s
      = .next (s.placeAnswer tag 0x0102
          ⟨.done, .ok, leBytes 8 s.clock.time.toNat ++ [s.clock.epoch]⟩).endEvent)

/-- TRACK ARM and TRACK DISARM: their refusals in order, their effect by the track's state, and the notice of
a change (R21, R22, R23). -/
def Obligations.TrackArmAndDisarm : Prop :=
  ∀ (s : State) (tag b : Byte), s.readyFor → s.tracksSound →
    (b.toNat = 0 ∨ 4 < b.toNat →
      exec (.trackArm tag b) s
          = .next (s.placeAnswer tag 0x0103 ⟨.refused, .badArgument, []⟩).endEvent
      ∧ exec (.trackDisarm tag b) s
          = .next (s.placeAnswer tag 0x0104 ⟨.refused, .badArgument, []⟩).endEvent)
    ∧ ∀ t : Track, b.toNat = t.val + 1 →
      (s.activeContents = none →
        exec (.trackArm tag b) s
          = .next (s.placeAnswer tag 0x0103 ⟨.refused, .noTables, []⟩).endEvent)
      ∧ (∀ bank, s.activeContents = some bank →
        ((bank.tracks[t]).fitted = false →
          exec (.trackArm tag b) s
            = .next (s.placeAnswer tag 0x0103 ⟨.refused, .notFitted, []⟩).endEvent)
        ∧ ((bank.tracks[t]).fitted = true → s.tracks[t].state ≠ .disarmed →
          exec (.trackArm tag b) s = .next (s.placeAnswer tag 0x0103 ⟨.done, .ok, []⟩).endEvent)
        ∧ ((bank.tracks[t]).fitted = true → s.tracks[t].state = .disarmed →
          s.tracks[t].health = .allHealthy →
          exec (.trackArm tag b) s
            = .next (((s.setTrack t { s.tracks[t] with
                  state := .ignoring
                  quiet := some (s.clock.elapsed + (bank.tracks[t]).quietTime.toNat) }).queueNotice
                (.trackState t .disarmed .ignoring s.tracks[t].health)).placeAnswer tag 0x0103
                  ⟨.done, .ok, []⟩).endEvent)
        ∧ ((bank.tracks[t]).fitted = true → s.tracks[t].state = .disarmed →
          s.tracks[t].health ≠ .allHealthy →
          exec (.trackArm tag b) s
            = .next (((s.setTrack t { s.tracks[t] with state := .headFault }).queueNotice
                (.trackState t .disarmed .headFault s.tracks[t].health)).placeAnswer tag 0x0103
                  ⟨.done, .ok, []⟩).endEvent))
      ∧ (s.tracks[t].state = .occupied →
        exec (.trackDisarm tag b) s
          = .next (s.placeAnswer tag 0x0104 ⟨.refused, .trackOccupied, []⟩).endEvent)
      ∧ (s.tracks[t].state = .disarmed →
        exec (.trackDisarm tag b) s = .next (s.placeAnswer tag 0x0104 ⟨.done, .ok, []⟩).endEvent)
      ∧ (s.tracks[t].state ≠ .occupied → s.tracks[t].state ≠ .disarmed →
        exec (.trackDisarm tag b) s
          = .next (((s.setTrack t { s.tracks[t] with
                state := .disarmed, fifoA := [], fifoB := [], quiet := none }).queueNotice
              (.trackState t s.tracks[t].state .disarmed s.tracks[t].health)).placeAnswer tag 0x0104
                ⟨.done, .ok, []⟩).endEvent)

/-- R24: TRACK STATUS is refused with BAD_ARGUMENT for a track number outside 1 to 4, and is otherwise
answered DONE OK in every state with the track state, the health of the four heads and the entries of the two
pair FIFOs; it changes nothing but the reply list. -/
def Obligations.TrackStatusRequest : Prop :=
  ∀ (s : State) (tag b : Byte),
    (b.toNat = 0 ∨ 4 < b.toNat →
      s.carryOut tag (.trackStatus b) = s.placeAnswer tag 0x0105 ⟨.refused, .badArgument, []⟩)
    ∧ (∀ t : Track, b.toNat = t.val + 1 →
      s.carryOut tag (.trackStatus b)
        = s.placeAnswer tag 0x0105 ⟨.done, .ok,
            [BitVec.ofNat 8 s.tracks[t].state.toCode,
              BitVec.ofNat 8 s.tracks[t].health.a1.toCode, BitVec.ofNat 8 s.tracks[t].health.a2.toCode,
              BitVec.ofNat 8 s.tracks[t].health.b2.toCode, BitVec.ofNat 8 s.tracks[t].health.b1.toCode,
              BitVec.ofNat 8 s.tracks[t].fifoA.length, BitVec.ofNat 8 s.tracks[t].fifoB.length]⟩)
    ∧ (s.tracksSound → ∀ t : Track, s.tracks[t].fifoA.length ≤ 4 ∧ s.tracks[t].fifoB.length ≤ 4)
    ∧ (s.readyFor → exec (.trackStatus tag b) s = .next (s.carryOut tag (.trackStatus b)).endEvent)

/-! ## Requests of the passage table (chapter 2) -/

/-- LIST PASSAGES and READ PASSAGE: the list in opening order with each passage's number, track, direction,
state, bank, epoch, open time, axle total and number of shots (R48); the parts SUMMARY, AXLES (up to 64 from
a start of 127 or less), VEHICLES with the cursor, and SHOTS (up to 8 from a start of 47 or less) of a named
live passage; and the refusals of R47, R50, R52. Nothing changes but the reply list. The first clauses give
the fields of SUMMARY (R49), of an axle, of a vehicle entry and of a shot (a field that may be absent behind
its presence byte, 9.11.2; the capture-allowed flag and the widths of a shot are never absent). The place of a
count before its items, and of start and count before the items of AXLES and SHOTS, is the model's choice (log
17), and so is the start that an empty part of AXLES or SHOTS names (log 30). -/
def Obligations.ListAndReadPassages : Prop :=
  (∀ p : Passage, p.summary = leBytes 2 p.number
    ++ [BitVec.ofNat 8 (p.track.val + 1), BitVec.ofNat 8 p.direction.toCode, BitVec.ofNat 8 p.bank.val,
      p.epoch, BitVec.ofNat 8 p.state.toCode]
    ++ optBytes 1 (fun r : AbandonReason => [BitVec.ofNat 8 r.toCode]) p.abandonReason
    ++ leBytes 8 p.openTime.toNat
    ++ optBytes 8 (fun t : GantryTime => leBytes 8 t.toNat) p.tailTime
    ++ optBytes 8 (fun t : GantryTime => leBytes 8 t.toNat) p.clearTime
    ++ optBytes 9 (fun x : GantryTime × Byte => leBytes 8 x.1.toNat ++ [x.2]) p.settle
    ++ leBytes 2 p.axleTotal ++ [BitVec.ofNat 8 p.axles.length] ++ optBytes 4 (leBytes 4) p.speed
    ++ leBytes 2 p.exitCount
    ++ [BitVec.ofNat 8 p.cursor, BitVec.ofNat 8 p.vehicles.length, BitVec.ofNat 8 p.shots.length]
    ++ [ShotState.planned, .frozen, .held, .reading, .stored, .partialStored, .failed, .lost, .late,
        .skipped, .cancelled].map (fun st => BitVec.ofNat 8 (p.shots.countP (fun k => k.state = st)))
    ++ optBytes 1 (fun f : FirstFault => [BitVec.ofNat 8 f.code.toCode]) p.faults.first
    ++ optBytes 1 (fun i : Nat => [BitVec.ofNat 8 i]) (p.faults.first.bind (·.axle))
    ++ optBytes 1 (fun i : Nat => [BitVec.ofNat 8 i]) (p.faults.first.bind (·.shot))
    ++ [BitVec.ofNat 8 p.faults.further])
  ∧ (∀ a : Axle, a.encode = leBytes 8 a.time.toNat ++ optBytes 4 (leBytes 4) a.speed
    ++ [if a.speedValid then 1 else 0]
    ++ (match a.spacing with
      | .absent => [0, 0, 0, 0, 0, 0]
      | .unknown => [1, 0, 0, 0, 0, 1]
      | .known mm => 1 :: leBytes 4 (BitVec.ofInt 32 mm).toNat ++ [0]))
  ∧ (∀ v : Vehicle, v.encode = (match v.kind with
      | .matched profile o pantographs => [0, BitVec.ofNat 8 v.firstAxle, BitVec.ofNat 8 v.axleCount,
          BitVec.ofNat 8 profile.val, if o = .forward then 0 else 1, BitVec.ofNat 8 pantographs]
      | .stretch => [1, BitVec.ofNat 8 v.firstAxle, BitVec.ofNat 8 v.axleCount]
      | .remainder => [2, BitVec.ofNat 8 v.firstAxle, BitVec.ofNat 8 v.axleCount]))
  ∧ (∀ (n : Nat) (k : Shot) (t : Timing), k.timing = some t → k.encode n =
    [BitVec.ofNat 8 n, BitVec.ofNat 8 k.vehicle, BitVec.ofNat 8 k.pantograph, BitVec.ofNat 8 k.camera.val,
      BitVec.ofNat 8 k.referenceAxle] ++ leBytes 4 (BitVec.ofInt 32 k.position).toNat
    ++ [BitVec.ofNat 8 k.state.toCode]
    ++ optBytes 1 (fun r : SkipReason => [BitVec.ofNat 8 r.toCode]) k.skipReason
    ++ optBytes 8 (fun f : GantryTime => leBytes 8 f.toNat) k.plannedFire
    ++ [1, BitVec.ofNat 8 t.axle] ++ 1 :: leBytes 4 t.speed ++ [BitVec.ofNat 8 t.band]
    ++ [if t.captureAllowed then 1 else 0] ++ leBytes 4 t.exposureWidth ++ leBytes 4 t.flashWidth
    ++ optBytes 8 (fun f : GantryTime => leBytes 8 f.toNat) k.actualFire ++ leBytes 4 k.lateness
    ++ optBytes 1 (fun l : Lighting => [BitVec.ofNat 8 l.toCode]) k.lighting
    ++ optBytes 11 (fun f : FlashSharing => leBytes 2 f.opener.passage
        ++ BitVec.ofNat 8 f.opener.shot :: leBytes 8 f.start.toNat) k.sharing
    ++ [k.flags, if k.flagged then 1 else 0, BitVec.ofNat 8 k.segmentsExpected,
      BitVec.ofNat 8 k.segmentsStored] ++ leBytes 2 k.corrected
    ++ BitVec.ofNat 8 k.damaged.length :: k.damaged.map (BitVec.ofNat 8)
    ++ BitVec.ofNat 8 k.pages.length :: k.pages.flatMap (leBytes 2))
  ∧ ∀ (s : State) (tag : Byte), s.readyFor →
    exec (.listPassages tag) s
      = .next (s.placeAnswer tag 0x0201 ⟨.done, .ok,
          BitVec.ofNat 8 s.table.passages.length :: s.table.passages.flatMap (fun p =>
            leBytes 2 p.number ++ [BitVec.ofNat 8 (p.track.val + 1), BitVec.ofNat 8 p.direction.toCode,
              BitVec.ofNat 8 p.state.toCode, BitVec.ofNat 8 p.bank.val, p.epoch]
              ++ leBytes 8 p.openTime.toNat ++ leBytes 2 p.axleTotal
              ++ [BitVec.ofNat 8 p.shots.length])⟩).endEvent
    ∧ ∀ (n : BitVec 16) (part start : Byte),
      (n = 0 →
        exec (.readPassage tag n part start) s
          = .next (s.placeAnswer tag 0x0202 ⟨.refused, .badArgument, []⟩).endEvent)
      ∧ (n ≠ 0 → s.passage? n.toNat = none →
        exec (.readPassage tag n part start) s
          = .next (s.placeAnswer tag 0x0202 ⟨.refused, .noSuchPassage, []⟩).endEvent)
      ∧ (∀ p, n ≠ 0 → s.passage? n.toNat = some p →
        (part = 0 →
          exec (.readPassage tag n part start) s
            = .next (s.placeAnswer tag 0x0202 ⟨.done, .ok, p.summary⟩).endEvent)
        ∧ (part = 1 → start.toNat ≤ 127 →
          exec (.readPassage tag n part start) s
            = .next (s.placeAnswer tag 0x0202 ⟨.done, .ok,
                start :: BitVec.ofNat 8 (min 64 (p.axles.length - start.toNat))
                  :: ((p.axles.drop start.toNat).take 64).flatMap (·.encode)⟩).endEvent)
        ∧ (part = 2 →
          exec (.readPassage tag n part start) s
            = .next (s.placeAnswer tag 0x0202 ⟨.done, .ok,
                BitVec.ofNat 8 p.vehicles.length :: p.vehicles.flatMap (·.encode)
                  ++ [BitVec.ofNat 8 p.cursor]⟩).endEvent)
        ∧ (part = 3 → start.toNat ≤ 47 →
          exec (.readPassage tag n part start) s
            = .next (s.placeAnswer tag 0x0202 ⟨.done, .ok,
                start :: BitVec.ofNat 8 (min 8 (p.shots.length - start.toNat))
                  :: ((p.shots.zipIdx.drop start.toNat).take 8).flatMap
                      (fun x => x.1.encode x.2)⟩).endEvent)
        ∧ ((3 < part.toNat ∨ (part = 1 ∧ 127 < start.toNat) ∨ (part = 3 ∧ 47 < start.toNat)) →
          exec (.readPassage tag n part start) s
            = .next (s.placeAnswer tag 0x0202 ⟨.refused, .badArgument, []⟩).endEvent))

/-- RELEASE PASSAGE of a FILED or ABANDONED passage frees the pages of its shots in order, removes the
passage from the table, and answers with the number of pages; any other state is refused with NOT_SETTLED,
and the number's refusals are R47's (R46). -/
def Obligations.ReleasePassageRequest : Prop :=
  ∀ (s : State) (tag : Byte) (n : BitVec 16), s.readyFor →
    (n = 0 →
      exec (.releasePassage tag n) s
        = .next (s.placeAnswer tag 0x0203 ⟨.refused, .badArgument, []⟩).endEvent)
    ∧ (n ≠ 0 → s.passage? n.toNat = none →
      exec (.releasePassage tag n) s
        = .next (s.placeAnswer tag 0x0203 ⟨.refused, .noSuchPassage, []⟩).endEvent)
    ∧ (∀ p, n ≠ 0 → s.passage? n.toNat = some p → p.state ≠ .filed → p.state ≠ .abandoned →
      exec (.releasePassage tag n) s
        = .next (s.placeAnswer tag 0x0203 ⟨.refused, .notSettled, []⟩).endEvent)
    ∧ (∀ p, n ≠ 0 → s.passage? n.toNat = some p → p.state = .filed ∨ p.state = .abandoned →
      ∃ u : State,
        exec (.releasePassage tag n) s
          = .next (u.placeAnswer tag 0x0203 ⟨.done, .ok,
              leBytes 2 (p.shots.flatMap (·.pages)).length⟩).endEvent
        ∧ u.memory = (s.freePages (p.shots.flatMap (·.pages))).memory
        ∧ u.table.passages = s.table.passages.filter (fun q => q.number != p.number)
        ∧ u.table.nextNumber = s.table.nextNumber
        ∧ u.clock = s.clock ∧ u.tracks = s.tracks ∧ u.shotQueue = s.shotQueue ∧ u.fire = s.fire
        ∧ u.strobes = s.strobes ∧ u.lines = s.lines ∧ u.readout = s.readout ∧ u.banks = s.banks)

/-- ABANDON PASSAGE of a passage in APPROACHING, TAIL or CLEAR takes it to STOPPING, and on to ABANDONED with
the settle time when every shot is terminal; its reason is ORDERED, its timers stop, and its track, if it was
OCCUPIED by it, goes to IGNORING with the quiet timer started. Its PLANNED and FROZEN shots are CANCELLED and
leave the shot queue, and its HELD shots leave the readout queue with their reservations returned and a
DISCARD of their slots placed (of two in one camera the lower-numbered one's goes first: log 31). From
APPROACHING and TAIL its bank is checked for draining; from CLEAR no bank changes; the notices are those of
`LeftOpen`, or of the settlement alone. STOPPING and the terminal states are refused with ALREADY_SETTLED, and
the number's refusals are R47's (R20, R39, R41, R42, R44, R45, R47, R88, R125, R158, R172). -/
def Obligations.AbandonPassageRequest : Prop :=
  ∀ (s : State) (tag : Byte) (n : BitVec 16), s.readyFor →
    (n = 0 →
      exec (.abandonPassage tag n) s
        = .next (s.placeAnswer tag 0x0204 ⟨.refused, .badArgument, []⟩).endEvent)
    ∧ (n ≠ 0 → s.passage? n.toNat = none →
      exec (.abandonPassage tag n) s
        = .next (s.placeAnswer tag 0x0204 ⟨.refused, .noSuchPassage, []⟩).endEvent)
    ∧ ∀ p, n ≠ 0 → s.passage? n.toNat = some p →
    (p.state = .stopping ∨ p.state = .filed ∨ p.state = .abandoned →
      exec (.abandonPassage tag n) s
        = .next (s.placeAnswer tag 0x0204 ⟨.refused, .alreadySettled, []⟩).endEvent)
    ∧ (p.state = .approaching ∨ p.state = .tail ∨ p.state = .clear →
      ∃ (u : State) (q : Passage) (m : Nat),
        exec (.abandonPassage tag n) s
          = .next (u.placeAnswer tag 0x0204 ⟨.done, .ok,
              [BitVec.ofNat 8 q.state.toCode, BitVec.ofNat 8 m]⟩).endEvent
        ∧ u.passage? n.toNat = some q
        ∧ m = q.shots.countP (fun k => !k.state.terminal)
        ∧ q.abandonReason = some .ordered ∧ q.faults = p.faults
        ∧ (p.state ≠ .clear → q.tailWindow = none ∧ q.exitTimeout = none)
        ∧ q.axles = p.axles ∧ q.axleTotal = p.axleTotal ∧ q.exitCount = p.exitCount
        ∧ q.vehicles = p.vehicles
        ∧ q.shots = p.shots.map (fun k : Shot =>
            if k.state = .planned ∨ k.state = .frozen then { k with state := .cancelled } else k)
        ∧ (q.shots.all (fun k => k.state.terminal) = true →
            q.state = .abandoned ∧ q.settle = some (s.clock.time, s.clock.epoch))
        ∧ (q.shots.all (fun k => k.state.terminal) = false →
            q.state = .stopping ∧ q.settle = p.settle)
        ∧ WoundDown s u p
        ∧ (p.state = .clear → u.tracks = s.tracks)
        ∧ (p.state ≠ .clear →
            u.tracks[p.track].state = .ignoring
            ∧ u.tracks[p.track].quiet = some (s.clock.elapsed + s.quietTime p.track)
            ∧ u.tracks[p.track].fifoA = [] ∧ u.tracks[p.track].fifoB = []
            ∧ ∀ t : Track, t ≠ p.track → u.tracks[t] = s.tracks[t])
        ∧ (p.state = .clear → u.banks = s.banks
            ∧ u.link.notices = (s.queueNotices q.settleNotices).link.notices
            ∧ u.link.dropped = (s.queueNotices q.settleNotices).link.dropped)
        ∧ (p.state ≠ .clear → s.numbered →
            LeftOpen s u p q (if s.tracks[p.track].state = .ignoring then []
              else [.trackState p.track s.tracks[p.track].state .ignoring s.tracks[p.track].health]))
        ∧ u.clock = s.clock ∧ u.fire = s.fire ∧ u.strobes = s.strobes)

/-! ## Requests of the camera lines (chapter 6) -/

/-- CAMERA SERVICE: off takes an IN_SERVICE line to OUT_OF_SERVICE and leaves every other as it is; on takes
an OUT_OF_SERVICE or DOWN line of a camera fitted in the ACTIVE bank to LINKING with its flags cleared, and
places a RELINK (or waits for the outstanding order); the refusals stand in order, and the response carries
the line state (R117, R118, R127, R128, R131). -/
def Obligations.CameraServiceRequest : Prop :=
  ∀ (s : State) (tag b on : Byte), s.readyFor →
    (12 ≤ b.toNat →
      exec (.cameraService tag b on) s
        = .next (s.placeAnswer tag 0x0601 ⟨.refused, .badArgument, []⟩).endEvent)
    ∧ ∀ c : Camera, b.toNat = c.val →
      (1 < on.toNat →
        exec (.cameraService tag b on) s
          = .next (s.placeAnswer tag 0x0601 ⟨.refused, .badArgument, []⟩).endEvent)
      ∧ (on = 0 → s.lines[c].state = .inService →
        exec (.cameraService tag b on) s
          = .next (((s.setLine c { s.lines[c] with state := .outOfService, disableMark := false
                }).queueNotice (.cameraState c .inService .outOfService .service
                  s.lines[c].accumulated 0)).placeAnswer tag 0x0601 ⟨.done, .ok, [3]⟩).endEvent)
      ∧ (on = 0 → s.lines[c].state ≠ .inService →
        exec (.cameraService tag b on) s
          = .next (s.placeAnswer tag 0x0601
              ⟨.done, .ok, [BitVec.ofNat 8 s.lines[c].state.toCode]⟩).endEvent)
      ∧ (on = 1 → s.activeContents = none →
        exec (.cameraService tag b on) s
          = .next (s.placeAnswer tag 0x0601 ⟨.refused, .noTables, []⟩).endEvent)
      ∧ (∀ bank, on = 1 → s.activeContents = some bank →
        ((bank.cameras[c]).fitted = false →
          exec (.cameraService tag b on) s
            = .next (s.placeAnswer tag 0x0601 ⟨.refused, .notFitted, []⟩).endEvent)
        ∧ ((bank.cameras[c]).fitted = true → s.lines[c].state ≠ .outOfService →
          s.lines[c].state ≠ .down →
          exec (.cameraService tag b on) s
            = .next (s.placeAnswer tag 0x0601
                ⟨.done, .ok, [BitVec.ofNat 8 s.lines[c].state.toCode]⟩).endEvent)
        ∧ ((bank.cameras[c]).fitted = true →
          s.lines[c].state = .outOfService ∨ s.lines[c].state = .down →
          ∃ u : State,
            exec (.cameraService tag b on) s
              = .next (u.placeAnswer tag 0x0601 ⟨.done, .ok, [1]⟩).endEvent
            ∧ u.lines[c].state = .linking ∧ u.lines[c].accumulated = 0
            ∧ u.lines[c].disableMark = false ∧ u.lines[c].slots = s.lines[c].slots
            ∧ (∀ o, s.lines[c].outstanding = some o →
                u.lines[c].outstanding = some o ∧ u.lines[c].linking = some (.waiting false))
            ∧ (s.lines[c].outstanding = none →
                u.lines[c].outstanding = some ⟨.relink, s.clock.elapsed + 500000, false⟩
                ∧ u.lines[c].linking = some .relink)
            ∧ (∀ k : Camera, k ≠ c → u.lines[k] = s.lines[k])
            ∧ u.clock = s.clock ∧ u.tracks = s.tracks ∧ u.table = s.table
            ∧ u.shotQueue = s.shotQueue ∧ u.fire = s.fire ∧ u.strobes = s.strobes
            ∧ u.readout = s.readout ∧ u.memory = s.memory ∧ u.banks = s.banks))

/-- CAMERA SENSE: refused with BAD_ARGUMENT for a line above 11 and with CAMERA_DOWN for a line that is DOWN
or UNLINKED; otherwise it stays in progress and its SENSE is issued on a line without orders, with a timeout
of 50,000 µs, and placed pending behind another outstanding order (R112, R116, R130, R183). -/
def Obligations.CameraSenseRequest : Prop :=
  ∀ (s : State) (tag b : Byte), s.readyFor →
    (12 ≤ b.toNat →
      exec (.cameraSense tag b) s
        = .next (s.placeAnswer tag 0x0602 ⟨.refused, .badArgument, []⟩).endEvent)
    ∧ ∀ c : Camera, b.toNat = c.val →
      (s.lines[c].state = .down ∨ s.lines[c].state = .unlinked →
        exec (.cameraSense tag b) s
          = .next (s.placeAnswer tag 0x0602 ⟨.refused, .cameraDown, []⟩).endEvent)
      ∧ (s.lines[c].state ≠ .down → s.lines[c].state ≠ .unlinked →
        ∃ l : CameraLine,
          exec (.cameraSense tag b) s
            = .next ({ s with
                link := { s.link with inProgress := some (.cameraSense tag c) }
                lines := setAt s.lines c l } : State).endEvent
          ∧ l.state = s.lines[c].state ∧ l.slots = s.lines[c].slots
          ∧ l.accumulated = s.lines[c].accumulated ∧ l.disableMark = s.lines[c].disableMark
          ∧ l.linking = s.lines[c].linking
          ∧ (s.lines[c].outstanding = none → s.lines[c].orders = .none →
              l.outstanding = some ⟨.sense, s.clock.elapsed + 50000, false⟩ ∧ l.orders = .none)
          ∧ (∀ o, s.lines[c].outstanding = some o → o.order ≠ .sense →
              l.outstanding = some o ∧ l.orders = { s.lines[c].orders with sense := true })
          ∧ (∀ o, s.lines[c].outstanding = some o → o.order = .sense → o.ignored = false →
              l = s.lines[c]))

/-! ## Requests of the frame memory (chapter 7) -/

/-- PAGE RETIRE. The first check that fails decides the refusal: BAD_ARGUMENT, NOT_A_SPARE, SPARE_BAD,
SELF_SPARE, SPARE_IN_USE, NO_SPARE. Else the target is the spare named, or the lowest usable one (or none)
when none is named. A free page is retired to it, its old spare becoming bad, with PAGE_RETIRED, and without
a target goes OUT_OF_SERVICE with SPARES_EXHAUSTED; a held page is marked pending-retire, a spare named taking
the place of the preferred one; an OUT_OF_SERVICE page goes to the target without a notice. The response
carries the condition, the physical page and PENDING, whose byte stands where log 18 says. Every other page,
every byte and every reservation stay (R142, R144, R145, R146). -/
def Obligations.PageRetireRequest : Prop :=
  ∀ (s : State) (tag : Byte) (page spare : BitVec 16) (k sp : Nat) (p : Page), s.readyFor → s.memory.wf →
    k = page.toNat → sp = spare.toNat → p = s.memory.page k →
    (∀ d, (8192 ≤ k ∧ d = .badArgument)
        ∨ (k < 8192 ∧ spare ≠ 0xFFFF ∧ (sp < 8192 ∨ 8320 ≤ sp) ∧ d = .notASpare)
        ∨ (k < 8192 ∧ 8192 ≤ sp ∧ sp < 8320 ∧ s.memory.bad sp = true ∧ d = .spareBad)
        ∨ (k < 8192 ∧ 8192 ≤ sp ∧ sp < 8320 ∧ s.memory.bad sp = false ∧ p.spare = some sp
            ∧ d = .selfSpare)
        ∨ (k < 8192 ∧ 8192 ≤ sp ∧ sp < 8320 ∧ s.memory.bad sp = false ∧ p.spare ≠ some sp
            ∧ s.memory.assigned sp = true ∧ d = .spareInUse)
        ∨ (k < 8192 ∧ spare = 0xFFFF ∧ s.memory.lowestUsable = none ∧ d = .noSpare
            ∧ (p.condition = .outOfService
              ∨ (p.condition = .free ∧ s.memory.freeCount = s.memory.reservedCount))) →
      exec (.pageRetire tag page spare) s
        = .next (s.placeAnswer tag 0x0702 ⟨.refused, d, []⟩).endEvent)
    ∧ (∀ target : Option Nat, k < 8192 →
      (spare ≠ 0xFFFF ∧ s.memory.usable sp = true ∧ target = some sp)
        ∨ (spare = 0xFFFF ∧ target = s.memory.lowestUsable) →
      (p.condition = .free →
        (target = none → s.memory.freeCount ≠ s.memory.reservedCount) →
        ∃ m : FrameMemory,
          exec (.pageRetire tag page spare) s
            = .next (((s.setMemory m).queueNotices
                (.pageRetired k (p.spare.getD k) target p.spare .request m.badSpares.length
                  :: (if target = none then [.sparesExhausted k m.outOfServiceCount m.freeCount]
                    else []))).placeAnswer tag 0x0702 ⟨.done, .ok,
                      match target with
                      | some t => 0 :: 1 :: leBytes 2 t ++ [0]
                      | none => [2, 0, 0, 0, 0]⟩).endEvent
          ∧ m.page k = (match target with
            | some t => ⟨.free, some t, none⟩
            | none => ⟨.outOfService, none, none⟩)
          ∧ (∀ j, j ≠ k → m.page j = s.memory.page j)
          ∧ (p.spare = none → m.badSpares = s.memory.badSpares)
          ∧ (∀ old, p.spare = some old → m.badSpares = insertRising old s.memory.badSpares)
          ∧ m.cells = s.memory.cells ∧ m.wrong = s.memory.wrong
          ∧ m.reservations = s.memory.reservations ∧ m.low = s.memory.low)
      ∧ (∀ owner, p.condition = .held owner →
        ∃ m : FrameMemory,
          exec (.pageRetire tag page spare) s
            = .next ((s.setMemory m).placeAnswer tag 0x0702
                ⟨.done, .ok, 1 :: 1 :: leBytes 2 (p.spare.getD k) ++ [1]⟩).endEvent
          ∧ m.page k = ⟨.held owner, p.spare,
              some ⟨if spare = 0xFFFF then p.mark.bind (·.preferred) else some sp,
                p.mark.any (·.byFetch), true⟩⟩
          ∧ (∀ j, j ≠ k → m.page j = s.memory.page j)
          ∧ m.badSpares = s.memory.badSpares ∧ m.cells = s.memory.cells ∧ m.wrong = s.memory.wrong
          ∧ m.reservations = s.memory.reservations ∧ m.low = s.memory.low)
      ∧ (∀ t, p.condition = .outOfService → target = some t →
        ∃ m : FrameMemory,
          exec (.pageRetire tag page spare) s
            = .next ((s.setMemory m).placeAnswer tag 0x0702
                ⟨.done, .ok, 0 :: 1 :: leBytes 2 t ++ [0]⟩).endEvent
          ∧ m.page k = ⟨.free, some t, none⟩
          ∧ (∀ j, j ≠ k → m.page j = s.memory.page j)
          ∧ m.badSpares = s.memory.badSpares ∧ m.cells = s.memory.cells ∧ m.wrong = s.memory.wrong
          ∧ m.reservations = s.memory.reservations ∧ m.low = s.memory.low))

/-- PAGE RESTORE maps a free or OUT_OF_SERVICE page back to its own page, free and unmarked, and answers with
the spare released; a held page is refused with PAGE_HELD and a number above 8,191 with BAD_ARGUMENT. Every
other page, every byte, every bad spare and every reservation stay (R147). -/
def Obligations.PageRestoreRequest : Prop :=
  ∀ (s : State) (tag : Byte) (page : BitVec 16), s.readyFor → s.memory.wf →
    (8192 ≤ page.toNat →
      exec (.pageRestore tag page) s
        = .next (s.placeAnswer tag 0x0703 ⟨.refused, .badArgument, []⟩).endEvent)
    ∧ (∀ owner, page.toNat < 8192 → (s.memory.page page.toNat).condition = .held owner →
      exec (.pageRestore tag page) s
        = .next (s.placeAnswer tag 0x0703 ⟨.refused, .pageHeld, []⟩).endEvent)
    ∧ (page.toNat < 8192 →
      (s.memory.page page.toNat).condition = .free
        ∨ (s.memory.page page.toNat).condition = .outOfService →
      ∃ m : FrameMemory,
        (∀ sp, (s.memory.page page.toNat).spare = some sp →
          exec (.pageRestore tag page) s
            = .next ((s.setMemory m).placeAnswer tag 0x0703
                ⟨.done, .ok, 1 :: leBytes 2 sp⟩).endEvent)
        ∧ ((s.memory.page page.toNat).spare = none →
          exec (.pageRestore tag page) s
            = .next ((s.setMemory m).placeAnswer tag 0x0703 ⟨.done, .ok, [0, 0, 0]⟩).endEvent)
        ∧ m.page page.toNat = ⟨.free, none, none⟩
        ∧ (∀ j, j ≠ page.toNat → m.page j = s.memory.page j)
        ∧ m.badSpares = s.memory.badSpares ∧ m.cells = s.memory.cells ∧ m.wrong = s.memory.wrong
        ∧ m.reservations = s.memory.reservations ∧ m.low = s.memory.low)

/-- MEMORY STATUS, BANK STATUS and IDENTIFY return what their rules list and change nothing but the reply
list: of memory the counts, and of a named page its condition, its physical page, its mark with the preferred
spare, and its owner (R148, R165, R189; field widths: log 17; the COLD indication at depth 0, where there is
no BEGIN: log 30). -/
def Obligations.StatusRequests : Prop :=
  ∀ (s : State) (tag : Byte) (counts : List Byte), s.readyFor →
    counts = leBytes 2 s.memory.freeCount ++ leBytes 2 s.memory.heldCount
      ++ leBytes 2 s.memory.outOfServiceCount ++ leBytes 2 s.memory.reservedCount
      ++ [BitVec.ofNat 8 s.memory.spareCounts.1, BitVec.ofNat 8 s.memory.spareCounts.2.1,
        BitVec.ofNat 8 s.memory.spareCounts.2.2]
      ++ leBytes 2 s.memory.markedCount ++ leBytes 2 s.threshold ++ [if s.memory.low then 0 else 1] →
    exec (.memoryStatus tag 0xFFFF) s
      = .next (s.placeAnswer tag 0x0701 ⟨.done, .ok, counts⟩).endEvent
    ∧ (∀ page : BitVec 16, 8192 ≤ page.toNat → page ≠ 0xFFFF →
      exec (.memoryStatus tag page) s
        = .next (s.placeAnswer tag 0x0701 ⟨.refused, .badArgument, []⟩).endEvent)
    ∧ (∀ (page : BitVec 16) (p : Page) (condition : Byte) (physical : Option Nat)
        (owner : Option PageOwner), page.toNat < 8192 → p = s.memory.page page.toNat →
      (p.condition = .free ∧ condition = 0 ∧ physical = some (p.spare.getD page.toNat) ∧ owner = none)
        ∨ (∃ o, p.condition = .held o ∧ condition = 1 ∧ physical = some (p.spare.getD page.toNat)
          ∧ owner = some o)
        ∨ (p.condition = .outOfService ∧ condition = 2 ∧ physical = none ∧ owner = none) →
      exec (.memoryStatus tag page) s
        = .next (s.placeAnswer tag 0x0701 ⟨.done, .ok, counts ++ condition :: optBytes 2 (leBytes 2) physical
            ++ [if p.mark.isSome then 1 else 0] ++ optBytes 2 (leBytes 2) (p.mark.bind (·.preferred))
            ++ optBytes 4 (fun o : PageOwner => leBytes 2 o.shot.passage
                ++ [BitVec.ofNat 8 o.shot.shot, BitVec.ofNat 8 o.segment]) owner⟩).endEvent)
    ∧ exec (.bankStatus tag) s
      = .next (s.placeAnswer tag 0x0806 ⟨.done, .ok,
          [BitVec.ofNat 8 s.banks.slots[(0 : BankNo)].state.toCode, BitVec.ofNat 8 (s.boundCount 0),
            BitVec.ofNat 8 (s.openCount 0), BitVec.ofNat 8 (s.busyCount 0),
            BitVec.ofNat 8 s.banks.slots[(1 : BankNo)].state.toCode, BitVec.ofNat 8 (s.boundCount 1),
            BitVec.ofNat 8 (s.openCount 1), BitVec.ofNat 8 (s.busyCount 1),
            BitVec.ofNat 8 s.banks.depth]
            ++ optBytes 1 (fun b : BankNo => byteOf b.val) s.banks.open?
            ++ [if s.banks.open?.isSome && s.banks.restoreImage.isNone then 1 else 0,
              if s.banks.active?.isSome then 1 else 0]
            ++ optBytes 1 (fun b : BankNo => byteOf b.val) s.banks.active?⟩).endEvent
    ∧ exec (.identify tag) s
      = .next (s.placeAnswer tag 0x0901 ⟨.done, .ok,
          [0x91, 0x3E, 0x45, 0x42, 0x2D, 0x34, 0x31, 0x32, 1, 4, 12, 4, 4, 8, 128, 24, 48, 64, 64,
            0, 1, 0, 32, 128, 0, 0, 1, 0, 4, 64, 8, 16]⟩).endEvent

/-! ## Requests of the table banks (chapter 8) -/

/-- TABLE GET returns the bank's state and the entry's contents, for a bank in any state and at any depth;
a bank other than 0 or 1 or an address that names no entry is refused with BAD_ARGUMENT. After a TABLE PUT
the entry reads as the contents given, its flag bytes 0 or 1, and every other entry as before (R161, R162,
R200). -/
def Obligations.TableEntriesReadAsPut : Prop :=
  (∀ (s : State) (tag bank kind index : Byte), s.readyFor →
    (∀ (k : BankNo) (a : EntryAddress), bank.toNat = k.val → entryAddress kind index = some a →
      exec (.tableGet tag bank kind index) s
        = .next (s.placeAnswer tag 0x0803 ⟨.done, .ok,
            BitVec.ofNat 8 s.banks.slots[k].state.toCode
              :: s.banks.slots[k].contents.entryBytes a⟩).endEvent)
    ∧ (1 < bank.toNat ∨ entryAddress kind index = none →
      exec (.tableGet tag bank kind index) s
        = .next (s.placeAnswer tag 0x0803 ⟨.refused, .badArgument, []⟩).endEvent))
  ∧ (∀ (b : Bank) (kind index : Byte) (a : EntryAddress) (contents : List Byte),
    entryAddress kind index = some a → entryLength kind = some contents.length →
      (∀ i, ((b.putEntry a contents).entryBytes a).getD i 0
        = if (i = 0 ∧ kind ≠ 4) ∨ (i = 11 ∧ kind = 2) ∨ (i = 22 ∧ kind = 5) then
              (if contents.getD i 0 = 0 then 0 else 1)
            else contents.getD i 0)
      ∧ ((b.putEntry a contents).entryBytes a).length = contents.length
      ∧ ∀ a', a' ≠ a → (b.putEntry a contents).entryBytes a' = b.entryBytes a')

/-- TABLE BEGIN at depth 0 stages the bank that is not ACTIVE (bank 0 while COLD) with a copy of the ACTIVE
bank, kept as the restore image (the empty bank and no image while COLD), unless that bank is DRAINING or
has a busy passage; at depth 1 to 3 it raises the depth; at depth 4 it is refused with DEPTH_LIMIT (R157,
R159, R160). -/
def Obligations.TableBeginRequest : Prop :=
  ∀ (s : State) (tag : Byte), s.readyFor → s.banks.sound →
    (s.banks.depth = 0 → ∀ k : BankNo,
      ((∃ a : BankNo, s.banks.slots[a].state = .active ∧ k ≠ a)
        ∨ ((∀ a : BankNo, s.banks.slots[a].state ≠ .active) ∧ k = 0)) →
      (s.banks.slots[k].state = .draining
          ∨ (∃ p ∈ s.table.passages, p.bank = k ∧ (p.state = .clear ∨ p.state = .stopping)) →
        exec (.tableBegin tag) s
          = .next (s.placeAnswer tag 0x0801 ⟨.refused, .bankDraining, []⟩).endEvent)
      ∧ (s.banks.slots[k].state ≠ .draining →
        (∀ p ∈ s.table.passages, p.bank = k → p.state ≠ .clear ∧ p.state ≠ .stopping) →
        (∀ a : BankNo, s.banks.slots[a].state = .active →
          exec (.tableBegin tag) s
            = .next (({ s with banks :=
                ⟨setAt s.banks.slots k ⟨.staging, s.banks.slots[a].contents⟩, 1,
                  some s.banks.slots[a].contents⟩ } : State).placeAnswer tag 0x0801
                ⟨.done, .ok, [BitVec.ofNat 8 k.val, 1]⟩).endEvent)
        ∧ ((∀ a : BankNo, s.banks.slots[a].state ≠ .active) →
          exec (.tableBegin tag) s
            = .next (({ s with banks := ⟨setAt s.banks.slots k ⟨.staging, Bank.empty⟩, 1, none⟩ }
                : State).placeAnswer tag 0x0801 ⟨.done, .ok, [BitVec.ofNat 8 k.val, 1]⟩).endEvent)))
    ∧ (∀ k : BankNo, s.banks.slots[k].state = .staging →
      (s.banks.depth < 4 →
        exec (.tableBegin tag) s
          = .next (({ s with banks := { s.banks with depth := s.banks.depth + 1 } } : State).placeAnswer
              tag 0x0801
              ⟨.done, .ok, [BitVec.ofNat 8 k.val, BitVec.ofNat 8 (s.banks.depth + 1)]⟩).endEvent)
      ∧ (s.banks.depth = 4 →
        exec (.tableBegin tag) s
          = .next (s.placeAnswer tag 0x0801 ⟨.refused, .depthLimit, []⟩).endEvent))

/-- TABLE PUT replaces the addressed entry of the STAGING bank and returns its previous contents; at depth 0
it is refused with NO_TRANSACTION, and an address that names no entry with BAD_ARGUMENT (R161). -/
def Obligations.TablePutRequest : Prop :=
  ∀ (s : State) (tag kind index : Byte) (contents : List Byte), s.readyFor → s.banks.sound →
    (∀ n, entryLength kind = some n → contents.length = n) →
    (s.banks.depth = 0 →
      exec (.tablePut tag kind index contents) s
        = .next (s.placeAnswer tag 0x0802 ⟨.refused, .noTransaction, []⟩).endEvent)
    ∧ (∀ k : BankNo, s.banks.slots[k].state = .staging →
      (entryAddress kind index = none →
        exec (.tablePut tag kind index contents) s
          = .next (s.placeAnswer tag 0x0802 ⟨.refused, .badArgument, []⟩).endEvent)
      ∧ (∀ a, entryAddress kind index = some a →
        exec (.tablePut tag kind index contents) s
          = .next (({ s with banks := { s.banks with
                slots := (setAt s.banks.slots k
                  ⟨.staging, s.banks.slots[k].contents.putEntry a contents⟩) } } : State).placeAnswer
              tag 0x0802 ⟨.done, .ok, s.banks.slots[k].contents.entryBytes a⟩).endEvent))

/-- TABLE END at depth 2 to 4 lowers the depth. TABLE ABORT ends the transaction at any depth: the STAGING
bank goes to STANDBY with the restore image, or to EMPTY with the empty bank when the part was COLD at the
BEGIN. At depth 0 both are refused with NO_TRANSACTION (R163, R164). -/
def Obligations.TableEndAndAbort : Prop :=
  ∀ (s : State) (tag : Byte), s.readyFor → s.banks.sound →
    (s.banks.depth = 0 →
      exec (.tableEnd tag) s = .next (s.placeAnswer tag 0x0804 ⟨.refused, .noTransaction, []⟩).endEvent
      ∧ exec (.tableAbort tag) s
          = .next (s.placeAnswer tag 0x0805 ⟨.refused, .noTransaction, []⟩).endEvent)
    ∧ (2 ≤ s.banks.depth →
      exec (.tableEnd tag) s
        = .next (({ s with banks := { s.banks with depth := s.banks.depth - 1 } } : State).placeAnswer
            tag 0x0804 ⟨.done, .ok, [BitVec.ofNat 8 (s.banks.depth - 1)]⟩).endEvent)
    ∧ (∀ k : BankNo, s.banks.slots[k].state = .staging →
      (∀ image, s.banks.restoreImage = some image →
        exec (.tableAbort tag) s
          = .next (({ s with banks := ⟨setAt s.banks.slots k ⟨.standby, image⟩, 0, none⟩ }
              : State).placeAnswer tag 0x0805 ⟨.done, .ok, [BitVec.ofNat 8 k.val, 4]⟩).endEvent)
      ∧ (s.banks.restoreImage = none →
        exec (.tableAbort tag) s
          = .next (({ s with banks := ⟨setAt s.banks.slots k ⟨.empty, Bank.empty⟩, 0, none⟩ }
              : State).placeAnswer tag 0x0805 ⟨.done, .ok, [BitVec.ofNat 8 k.val, 0]⟩).endEvent))

/-- TABLE END at depth 1 validates the STAGING bank: of the conditions of a commit, in their order, the first
that does not hold decides (`commitConditions`; R6, R56, R74, R96, R109, R149, R166, R167). A bank that passes
becomes ACTIVE; the previous ACTIVE bank becomes DRAINING when it has an open passage and STANDBY otherwise;
every UNLINKED line whose camera the new bank has fitted goes to LINKING, and every other line stays. A bank
that fails is discarded as by an abort, and the response carries the failing condition: entry kind, index,
condition, sub-index, and the camera line or 0xFF (R129, R163, R168, R169, R170, 9.11.1). -/
def Obligations.CommitRequest : Prop :=
  (∀ (s : State) (b : Bank),
    (s.validate b = none ↔ ∀ x ∈ s.commitConditions b, x.1)
    ∧ ∀ f, s.validate b = some f ↔ ∃ before condition after,
        s.commitConditions b = before ++ (condition, f) :: after ∧ ¬ condition ∧ ∀ x ∈ before, x.1)
  ∧ (∀ (s : State) (tag : Byte) (k : BankNo), s.readyFor → s.banks.sound →
    s.banks.slots[k].state = .staging → s.banks.depth = 1 →
    (∀ f, s.validate s.banks.slots[k].contents = some f →
      exec (.tableEnd tag) s
        = .next (s.abortTransaction.placeAnswer tag 0x0804
            ⟨.failed, .tableInvalid, [BitVec.ofNat 8 f.kind, BitVec.ofNat 8 f.index,
              BitVec.ofNat 8 f.condition, BitVec.ofNat 8 f.sub,
              BitVec.ofNat 8 (f.camera.getD 0xFF)]⟩).endEvent)
    ∧ (s.validate s.banks.slots[k].contents = none →
      ∃ (u : State) (data : List Byte),
        exec (.tableEnd tag) s
          = .next (u.placeAnswer tag 0x0804 ⟨.done, .ok, BitVec.ofNat 8 k.val :: data⟩).endEvent
        ∧ u.banks.slots[k] = ⟨.active, s.banks.slots[k].contents⟩
        ∧ u.banks.depth = 0 ∧ u.banks.restoreImage = none
        ∧ (∀ a : BankNo, s.banks.slots[a].state = .active →
            u.banks.slots[a].contents = s.banks.slots[a].contents
            ∧ ((∃ p ∈ s.table.passages, p.bank = a ∧ (p.state = .approaching ∨ p.state = .tail)) →
                u.banks.slots[a].state = .draining ∧ data = [1, 3])
            ∧ ((∀ p ∈ s.table.passages, p.bank = a → p.state ≠ .approaching ∧ p.state ≠ .tail) →
                u.banks.slots[a].state = .standby ∧ data = [1, 4]))
        ∧ ((∀ a : BankNo, s.banks.slots[a].state ≠ .active) →
            data = [0, 0] ∧ ∀ a : BankNo, a ≠ k → u.banks.slots[a] = s.banks.slots[a])
        ∧ (∀ c : Camera, s.lines[c].state = .unlinked →
            (s.banks.slots[k].contents.cameras[c]).fitted = true →
            u.lines[c].state = .linking ∧ u.lines[c].slots = s.lines[c].slots)
        ∧ (∀ c : Camera, (s.lines[c].state ≠ .unlinked
            ∨ (s.banks.slots[k].contents.cameras[c]).fitted = false) → u.lines[c] = s.lines[c])
        ∧ u.clock = s.clock ∧ u.tracks = s.tracks ∧ u.table = s.table ∧ u.shotQueue = s.shotQueue
        ∧ u.fire = s.fire ∧ u.strobes = s.strobes ∧ u.readout = s.readout ∧ u.memory = s.memory))

/-! ## RESTART and FETCH IMAGE (chapter 9) -/

/-- RESTART is answered DONE OK and stays in progress. Its effect is taken when the last byte of its response
has been sent, whatever bits of frame memory have gone wrong by then (log 8), and it restarts every block. No
passage, queued shot, busy interval, flash, readout or reservation is left, and running pulses run on. Of a
line that is not UNLINKED nothing is left pending, its flags are cleared, and it links anew: at once with a
DISCARD of slot 0, or behind an order in flight, whose result is ignored. Every held page is freed in rising
order, a marked one retired, so that none is held. An open transaction is aborted, a DRAINING bank goes to
STANDBY, and the ACTIVE bank and every other keep state and contents. An armed track goes to IGNORING with its
quiet timer started, and on to HEAD_FAULT while a head is faulty. RESTARTED, with the passages discarded, the
open transaction and the ACTIVE bank, is the first notice of the emptied queue, before those of tracks that
went on to HEAD_FAULT (in track order: log 21). Clock, next number, waiting requests and the link's other
state are kept (R25, R53, R89, R108, R127, R133, R152, R175, R190, R191). -/
def Obligations.RestartRequest : Prop :=
  (∀ (s : State) (tag : Byte), s.readyFor →
    exec (.restart tag) s
      = .next ((s.placeAnswer tag 0x0902 ⟨.done, .ok, []⟩).setInProgress
          (.restart (0 < s.banks.depth))).endEvent)
  ∧ (∀ (s : State) (r : Response) (rest : List Response) (transaction : Bool) (wrong : List Nat)
      (active : Option BankNo) (threshold : Nat) (held : List Nat) (m : FrameMemory),
    (∀ b ∈ wrong, b < 545259520 * 8) →
    s.link.sending = some .response → s.link.replies = r :: rest → r.immediate = false →
    s.link.inProgress = some (.restart transaction) → s.banks.sound → s.memory.wf →
    (∀ b : BankNo, active = some b ↔ s.banks.slots[b].state = .active) →
    (∀ bank, s.activeContents = some bank → threshold = bank.global.threshold.toNat) →
    (s.activeContents = none → threshold = 0) →
    held.Pairwise (· < ·) → (∀ k, k ∈ held ↔ ∃ o, (s.memory.page k).condition = .held o) →
    m = held.foldl (fun m k => (m.free k).1) s.memory →
    ∃ u : State, exec (.frameSent wrong) s = .next u.takeRequest.endEvent
      ∧ u.clock = s.clock
      ∧ u.table = ⟨[], s.table.nextNumber⟩ ∧ u.shotQueue = []
      ∧ (∀ c : Camera, u.fire[c] = ⟨s.fire[c].trigger, none⟩)
      ∧ (∀ b : StrobeNo, u.strobes[b] = ⟨none, none, s.strobes[b].output⟩)
      ∧ (∀ c : Camera,
          (s.lines[c].state = .unlinked → u.lines[c] = { s.lines[c] with
            slots := Vector.replicate 2 none, orders := .none, disableMark := false
            outstanding := s.lines[c].outstanding.map (fun o => { o with ignored := true }) })
          ∧ (s.lines[c].state ≠ .unlinked → s.lines[c].outstanding = none →
            u.lines[c] = ⟨.linking, Vector.replicate 2 none, .none,
              some ⟨.discard 0, s.clock.elapsed + 50000, false⟩, 0, false, some (.restartDiscard 0)⟩)
          ∧ (∀ o, s.lines[c].state ≠ .unlinked → s.lines[c].outstanding = some o →
            u.lines[c] = ⟨.linking, Vector.replicate 2 none, .none, some { o with ignored := true }, 0,
              false, some (.waiting true)⟩))
      ∧ u.readout = ⟨[], Vector.replicate 4 none⟩
      ∧ u.memory.pages = m.pages ∧ u.memory.badSpares = m.badSpares ∧ u.memory.reservations = []
      ∧ (∀ k o, (u.memory.page k).condition ≠ .held o)
      ∧ (u.memory.low = true ↔ u.memory.freeCount < threshold)
      ∧ (∀ a, u.memory.byteAt a = (s.memory.upsets wrong).byteAt a)
      ∧ u.memory.wrong = (s.memory.upsets wrong).wrong
      ∧ u.banks.depth = 0 ∧ u.banks.restoreImage = none
      ∧ (∀ b : BankNo,
          (s.banks.slots[b].state ≠ .staging → s.banks.slots[b].state ≠ .draining →
            u.banks.slots[b] = s.banks.slots[b])
          ∧ (s.banks.slots[b].state = .draining →
            u.banks.slots[b] = ⟨.standby, s.banks.slots[b].contents⟩)
          ∧ (s.banks.slots[b].state = .staging →
            (∀ image, s.banks.restoreImage = some image → u.banks.slots[b] = ⟨.standby, image⟩)
            ∧ (s.banks.restoreImage = none → u.banks.slots[b] = ⟨.empty, Bank.empty⟩)))
      ∧ (∀ t : Track, (s.tracks[t].state = .disarmed → u.tracks[t] = s.tracks[t])
          ∧ (s.tracks[t].state ≠ .disarmed →
              u.tracks[t] = if s.tracks[t].health = .allHealthy
                then ⟨.ignoring, .allHealthy, [], [], some (s.clock.elapsed + s.quietTime t)⟩
                else ⟨.headFault, s.tracks[t].health, [], [], none⟩))
      ∧ u.link = { s.link with
          sending := none, lastSent := some .response, replies := rest, inProgress := none
          dropped := false
          notices := ⟨.restarted s.table.passages.length transaction active, s.clock.epoch, s.clock.time,
              false⟩
            :: ((List.finRange 4).filter (fun t : Track =>
                  s.tracks[t].state ≠ .disarmed ∧ s.tracks[t].health ≠ .allHealthy)).map (fun t =>
                ⟨.trackState t .ignoring .headFault s.tracks[t].health, s.clock.epoch, s.clock.time,
                  false⟩) })

/-- FETCH IMAGE: after the passage number's checks (number 0 BAD_ARGUMENT, one that no live passage holds
NO_SUCH_PASSAGE: R47), the shot, segment and state checks in order; a stored
shot's fetch is answered DONE OK with the segments it sends (those asked for that are below segments stored)
and 16 chunks for each, and stays in progress unless there are none (R192, R193; with none to send the first
segment that the response names is the model's choice, log 30). -/
def Obligations.FetchImageRequest : Prop :=
  ∀ (s : State) (tag : Byte) (n : BitVec 16) (shot first count : Byte), s.readyFor →
    (n = 0 →
      exec (.fetchImage tag n shot first count) s
        = .next (s.placeAnswer tag 0x0903 ⟨.refused, .badArgument, []⟩).endEvent)
    ∧ (n ≠ 0 → s.passage? n.toNat = none →
      exec (.fetchImage tag n shot first count) s
        = .next (s.placeAnswer tag 0x0903 ⟨.refused, .noSuchPassage, []⟩).endEvent)
    ∧ ∀ p, n ≠ 0 → s.passage? n.toNat = some p →
    (47 < shot.toNat →
      exec (.fetchImage tag n shot first count) s
        = .next (s.placeAnswer tag 0x0903 ⟨.refused, .badArgument, []⟩).endEvent)
    ∧ (shot.toNat ≤ 47 → p.shots[shot.toNat]? = none →
      exec (.fetchImage tag n shot first count) s
        = .next (s.placeAnswer tag 0x0903 ⟨.refused, .noSuchShot, []⟩).endEvent)
    ∧ (∀ k, shot.toNat ≤ 47 → p.shots[shot.toNat]? = some k →
      (63 < first.toNat ∨ count.toNat = 0 ∨ 64 < count.toNat ∨ 64 < first.toNat + count.toNat →
        exec (.fetchImage tag n shot first count) s
          = .next (s.placeAnswer tag 0x0903 ⟨.refused, .badArgument, []⟩).endEvent)
      ∧ (first.toNat ≤ 63 → 0 < count.toNat → first.toNat + count.toNat ≤ 64 →
        (k.state ≠ .stored → k.state ≠ .partialStored →
          exec (.fetchImage tag n shot first count) s
            = .next (s.placeAnswer tag 0x0903 ⟨.refused, .notReady, []⟩).endEvent)
        ∧ (k.state = .stored ∨ k.state = .partialStored →
          ∀ segments, segments = min (first.toNat + count.toNat) k.segmentsStored - first.toNat →
          ∃ u : State,
            u = s.placeAnswer tag 0x0903 ⟨.done, .ok,
              leBytes 2 p.number ++ [shot, BitVec.ofNat 8 k.state.toCode,
                BitVec.ofNat 8 k.segmentsExpected, BitVec.ofNat 8 k.segmentsStored, first,
                BitVec.ofNat 8 segments] ++ leBytes 2 (16 * segments)⟩
            ∧ (segments = 0 → exec (.fetchImage tag n shot first count) s = .next u.endEvent)
            ∧ (segments ≠ 0 → exec (.fetchImage tag n shot first count) s
                = .next (u.setInProgress (.fetch ⟨tag, ⟨p.number, shot.toNat⟩, first.toNat, segments, 0,
                    false⟩)).endEvent))))


/-! ## Detector heads and track monitors (chapter 1) -/

/-- HEAD_FAULT and HEAD_HEALTHY set the head's health and, off OCCUPIED, do this to the track: a fault takes
IGNORING and VACANT to HEAD_FAULT with the quiet timer stopped; the recovery of the last faulty head takes
HEAD_FAULT to IGNORING with the timer started; nothing else changes. A level that a head already has is no
event (R9, R10, R21; log 3). -/
def Obligations.HeadLevels : Prop :=
  ∀ (s : State) (t : Track) (h : Head) (m : TrackMonitor), s.tracksSound → s.tracks[t] = m →
    (m.health.get h = .fault → exec (.headFault t h) s = .next s)
    ∧ (m.health.get h = .healthy → exec (.headHealthy t h) s = .next s)
    ∧ (m.health.get h = .healthy →
      (m.state = .disarmed ∨ m.state = .headFault →
        exec (.headFault t h) s
          = .next (s.setTrack t { m with health := m.health.set h .fault }).endEvent)
      ∧ (m.state = .ignoring ∨ m.state = .vacant →
        exec (.headFault t h) s
          = .next ((s.setTrack t { m with
                health := m.health.set h .fault, state := .headFault, quiet := none }).queueNotice
              (.trackState t m.state .headFault (m.health.set h .fault))).endEvent))
    ∧ (m.health.get h = .fault →
      (m.state = .headFault → m.health.set h .healthy = .allHealthy →
        exec (.headHealthy t h) s
          = .next ((s.setTrack t { m with
                health := .allHealthy, state := .ignoring
                quiet := some (s.clock.elapsed + s.quietTime t) }).queueNotice
              (.trackState t .headFault .ignoring .allHealthy)).endEvent)
      ∧ (m.state ≠ .headFault ∨ m.health.set h .healthy ≠ .allHealthy →
        exec (.headHealthy t h) s
          = .next (s.setTrack t { m with health := m.health.set h .healthy }).endEvent))

/-- A fault of a healthy head of an OCCUPIED track empties both FIFOs without a fault of theirs, takes the
track to HEAD_FAULT, and abandons its open passage with reason HEAD_FAULT and fault HEAD_FAULT: its timers
stop, its PLANNED and FROZEN shots are CANCELLED and leave the shot queue, every other shot keeps its state,
its HELD shots leave the readout queue with their reservations returned and a DISCARD of their slots placed
(order: log 31), and with every shot terminal it is ABANDONED at once. Its bank is checked for draining, and
TRACK_STATE, BANK_DRAINED and PASSAGE_ABANDONED are queued in this order (`LeftOpen`). Other tracks and other
passages keep as they were (R9, R21, R39, R41, R43, R44, R45, R88, R125, R158, R172). -/
def Obligations.HeadFaultAbandonsOpenPassage : Prop :=
  ∀ (s : State) (t : Track) (h : Head) (p : Passage), s.tracksInv →
    s.tracks[t].health.get h = .healthy → s.tracks[t].state = .occupied →
    p ∈ s.table.passages → p.track = t → p.state = .approaching ∨ p.state = .tail →
    ∃ (u : State) (q : Passage), exec (.headFault t h) s = .next u.endEvent
      ∧ u.tracks[t] = ⟨.headFault, s.tracks[t].health.set h .fault, [], [], none⟩
      ∧ (∀ k : Track, k ≠ t → u.tracks[k] = s.tracks[k])
      ∧ u.passage? p.number = some q
      ∧ q.abandonReason = some .headFault ∧ q.faults = p.faults.record .headFault none none
      ∧ q.tailWindow = none ∧ q.exitTimeout = none ∧ q.axles = p.axles ∧ q.axleTotal = p.axleTotal
      ∧ q.exitCount = p.exitCount ∧ q.vehicles = p.vehicles
      ∧ q.shots = p.shots.map (fun k : Shot =>
          if k.state = .planned ∨ k.state = .frozen then { k with state := .cancelled } else k)
      ∧ (q.shots.all (fun k => k.state.terminal) = true →
          q.state = .abandoned ∧ q.settle = some (s.clock.time, s.clock.epoch))
      ∧ (q.shots.all (fun k => k.state.terminal) = false → q.state = .stopping ∧ q.settle = p.settle)
      ∧ WoundDown s u p
      ∧ (∀ r ∈ s.table.passages, r.number ≠ p.number → r ∈ u.table.passages)
      ∧ (∀ r ∈ u.table.passages, r.number ≠ p.number → r ∈ s.table.passages)
      ∧ LeftOpen s u p q [.trackState t .occupied .headFault (s.tracks[t].health.set h .fault)]
      ∧ u.clock = s.clock ∧ u.fire = s.fire ∧ u.strobes = s.strobes

/-- The quiet timer of a track in IGNORING takes it to VACANT, and the pair timeout of a FIFO's oldest entry
removes it with PAIR_TIMEOUT, once their intervals have come to their ends; before that neither does anything
(R12, R16, R21; log 3). -/
def Obligations.TrackTimers : Prop :=
  ∀ (s : State) (t : Track), s.tracksInv →
    (∀ e, s.tracks[t].quiet = some e →
      (e ≤ s.clock.elapsed →
        exec (.quietTimerExpiry t) s
          = .next ((s.setTrack t { s.tracks[t] with state := .vacant, quiet := none }).queueNotice
              (.trackState t .ignoring .vacant s.tracks[t].health)).endEvent)
      ∧ (s.clock.elapsed < e → exec (.quietTimerExpiry t) s = .next s))
    ∧ (s.tracks[t].quiet = none → exec (.quietTimerExpiry t) s = .next s)
    ∧ (∀ (side : Side) (e : PairEntry) (rest : List PairEntry), s.tracks[t].fifo side = e :: rest →
      (e.ends ≤ s.clock.elapsed → ∀ p ∈ s.table.passages, p.track = t →
        p.state = .approaching ∨ p.state = .tail →
        exec (.pairTimeout t side) s
          = .next ((s.setTrack t (s.tracks[t].setFifo side rest)).modifyPassage p.number
              (fun q : Passage =>
                { q with faults := q.faults.record .pairTimeout none none })).endEvent)
      ∧ (s.clock.elapsed < e.ends → exec (.pairTimeout t side) s = .next s))
    ∧ (∀ side : Side, s.tracks[t].fifo side = [] → exec (.pairTimeout t side) s = .next s)

/-- A crossing on a track that is not OCCUPIED: DISARMED and HEAD_FAULT ignore it, IGNORING restarts the quiet
timer, VACANT reports one of an inner head with STRAY_CROSSING; one of an outer head of a VACANT track with 8
live passages is refused with OPEN_REFUSED and sends the track to IGNORING, and otherwise opens a passage on
the ACTIVE bank, with the crossing as the first in its pair FIFO. The number of the new passage is the
counter's value unless a live passage holds it, and else the first number after it, with 65,535 followed by 1,
that no live passage holds (R11 to R13, R15, R27 to R29). -/
def Obligations.CrossingOffOccupied : Prop :=
  (∀ (s : State) (t : Track) (h : Head) (m : TrackMonitor), s.tracksSound → s.tracks[t] = m →
    (m.state = .disarmed ∨ m.state = .headFault → exec (.crossing t h) s = .next s.endEvent)
    ∧ (m.state = .ignoring →
      exec (.crossing t h) s
        = .next (s.setTrack t { m with
            quiet := some (s.clock.elapsed + s.quietTime t) }).endEvent)
    ∧ (m.state = .vacant → h = .a2 ∨ h = .b2 →
      exec (.crossing t h) s = .next (s.queueNotice (.strayCrossing t h s.clock.time)).endEvent)
    ∧ (∀ d : Direction, m.state = .vacant → (h = .a1 ∧ d = .ab) ∨ (h = .b1 ∧ d = .ba) →
      (8 ≤ s.table.passages.length →
        exec (.crossing t h) s
          = .next (((s.setTrack t { m with
                state := .ignoring, quiet := some (s.clock.elapsed + s.quietTime t) }).queueNotice
              (.openRefused t d s.clock.time)).queueNotice
                (.trackState t .vacant .ignoring m.health)).endEvent)
      ∧ (∀ bank : BankNo, s.table.passages.length < 8 → s.banks.active? = some bank →
        exec (.crossing t h) s
          = .next (((({ s with table := ⟨s.table.passages ++ [{
                  number := s.newNumber, track := t, direction := d, bank := bank
                  epoch := s.clock.epoch, state := .approaching, openTime := s.clock.time
                  tailTime := none, clearTime := none, settle := none, axleTotal := 0, speed := none
                  axles := [], exitCount := 0, cursor := 0, vehicles := [], stretchOpen := false
                  shots := [], faults := ⟨none, 0⟩, abandonReason := none
                  tailWindow := some (s.clock.elapsed + 10000000), exitTimeout := none }],
                if s.newNumber = 65535 then 1 else s.newNumber + 1⟩ } : State).setTrack t
              { m with
                state := .occupied
                fifoA := if d = .ab then [⟨s.clock.time, s.clock.elapsed + 2000000⟩] else []
                fifoB := if d = .ba then [⟨s.clock.time, s.clock.elapsed + 2000000⟩] else []
                }).queueNotice (.passageOpened s.newNumber t d bank s.clock.time)).queueNotice
                  (.trackState t .vacant .occupied m.health)).endEvent)))
  ∧ (∀ s : State, s.numbered → s.table.passages.length < 8 →
    1 ≤ s.newNumber ∧ s.newNumber ≤ 65535
    ∧ (∀ p ∈ s.table.passages, p.number ≠ s.newNumber)
    ∧ ∃ k, k ≤ 7
      ∧ s.newNumber = Nat.repeat (fun n => if n = 65535 then 1 else n + 1) k s.table.nextNumber
      ∧ ∀ j, j < k → ∃ p ∈ s.table.passages,
          p.number = Nat.repeat (fun n => if n = 65535 then 1 else n + 1) j s.table.nextNumber)

/-- A crossing on an OCCUPIED track that makes no axle and clears nothing: an outer approach crossing is
pushed into its FIFO (a full one loses its oldest entry with PAIR_OVERFLOW), an inner approach crossing that
finds the FIFO empty records HEAD_ORDER, an inner exit crossing is ignored, and an outer exit crossing is
counted, with EXIT_EXCESS above the axle total (R14, R15, R17, R36). -/
def Obligations.CrossingOnOccupied : Prop :=
  ∀ (s : State) (t : Track) (p : Passage) (side : Side) (outer inner : Head), s.tracksInv →
    p ∈ s.table.passages → p.track = t → p.state = .approaching ∨ p.state = .tail →
    (p.direction = .ab ∧ side = .sideA ∧ outer = .a1 ∧ inner = .a2)
      ∨ (p.direction = .ba ∧ side = .sideB ∧ outer = .b1 ∧ inner = .b2) →
    (∀ f, f = s.tracks[t].fifo side →
      (f.length < 4 →
        exec (.crossing t outer) s
          = .next (s.setTrack t (s.tracks[t].setFifo side
              (f ++ [⟨s.clock.time, s.clock.elapsed + 2000000⟩]))).endEvent)
      ∧ (f.length = 4 →
        exec (.crossing t outer) s
          = .next ((s.setTrack t (s.tracks[t].setFifo side
                (f.drop 1 ++ [⟨s.clock.time, s.clock.elapsed + 2000000⟩]))).modifyPassage p.number
              (fun q : Passage =>
                { q with faults := q.faults.record .pairOverflow none none })).endEvent)
      ∧ (f = [] →
        exec (.crossing t inner) s
          = .next (s.modifyPassage p.number (fun q : Passage =>
              { q with faults := q.faults.record .headOrder none none })).endEvent))
    ∧ (∀ exitOuter exitInner : Head,
      (p.direction = .ab ∧ exitOuter = .b1 ∧ exitInner = .b2)
        ∨ (p.direction = .ba ∧ exitOuter = .a1 ∧ exitInner = .a2) →
      exec (.crossing t exitInner) s = .next s.endEvent
      ∧ (∀ n, n = min 65535 (p.exitCount + 1) → p.state = .approaching ∨ n < p.axleTotal →
        exec (.crossing t exitOuter) s
          = .next (s.modifyPassage p.number (fun q : Passage => { q with
              exitCount := n
              faults := if p.axleTotal < n then q.faults.record .exitExcess none none
                else q.faults })).endEvent))

/-- An inner approach crossing that finds an entry in its FIFO makes an axle of the pair: the entry leaves the
FIFO; the axle's speed is head spacing × 1,000,000 / transit when that is plausible and else the passage's,
its spacing is taken to the axle before; total and passage speed follow, the axle is stored while there is
room, a passage in TAIL reopens, the faults are recorded, and the tail window starts afresh. A stored axle
then runs the matcher and re-times the passage's PLANNED shots. A step of the run accepts a candidate and
hands over its pantographs in order, or waits, or takes an unmatched axle into a STRETCH, or with 23 entries
into the REMAINDER, which later axles join; the bound on a run's steps is never met (R17 to R19, R31 to R33,
R35, R63 to R67, R71, R83). -/
def Obligations.PairedCrossingMakesAxle : Prop :=
  (∀ (s : State) (t : Track) (p : Passage) (side : Side) (inner : Head) (spacing : Nat)
    (e : PairEntry) (rest : List PairEntry), s.tracksInv →
    p ∈ s.table.passages → p.track = t → p.state = .approaching ∨ p.state = .tail →
    (p.direction = .ab ∧ side = .sideA ∧ inner = .a2 ∧ spacing = (s.trackEntry p).headSpacingA.toNat)
      ∨ (p.direction = .ba ∧ side = .sideB ∧ inner = .b2
          ∧ spacing = (s.trackEntry p).headSpacingB.toNat) →
    s.tracks[t].fifo side = e :: rest →
    ∃ (v u : State) (q : Passage) (a : Axle), exec (.crossing t inner) s = .next u.endEvent
      ∧ v = (s.setTrack t (s.tracks[t].setFifo side rest)).modifyPassage p.number (fun _ => q)
      ∧ (p.axles.length < 128 → u = (v.matchPassage p.number).retimeAll p.number)
      ∧ (128 ≤ p.axles.length → u = v)
      ∧ u.tracks = v.tracks ∧ u.clock = s.clock ∧ u.banks = s.banks
      ∧ u.table.nextNumber = s.table.nextNumber
      ∧ a.time = s.clock.time
      ∧ (∀ dt, dt = timeDiff s.clock.time e.time →
          (0 < dt → spacing * 1000000 / dt.toNat ≤ 150000 →
            a.speed = some (spacing * 1000000 / dt.toNat) ∧ a.speedValid = true)
          ∧ (dt ≤ 0 ∨ 150000 < spacing * 1000000 / dt.toNat →
            a.speed = p.speed ∧ a.speedValid = false))
      ∧ (p.axles = [] → a.spacing = .absent)
      ∧ (∀ b, p.axles.getLast? = some b →
          (∀ v w, a.speed = some v → b.speed = some w →
            a.spacing = .known ((timeDiff s.clock.time b.time * ((v : Int) + w)).tdiv 2000000))
          ∧ (a.speed = none ∨ b.speed = none → a.spacing = .unknown))
      ∧ (∀ (index : Option Nat) (f g : FaultRecord) (window : Nat),
        index = (if p.axles.length < 128 then some p.axles.length else none) →
        f = (if a.speedValid then p.faults else p.faults.record .speedImplausible index none) →
        g = (if p.state = .tail then f.record .tailReopened index none else f) →
        (∀ v, a.speed = some v → window
          = min 10000000 (max 50000 ((s.trackEntry p).tailDistance.toNat * 1000000 / v))) →
        (a.speed = none → window = 10000000) →
        q = { p with
          axles := if p.axles.length < 128 then p.axles ++ [a] else p.axles
          axleTotal := min 65535 (p.axleTotal + 1), speed := a.speed
          faults := if p.axles.length < 128 then g else g.record .axleOverflow none none
          state := .approaching
          tailTime := if p.state = .tail then none else p.tailTime
          exitTimeout := if p.state = .tail then none else p.exitTimeout
          tailWindow := some (s.clock.elapsed + window) }))
  ∧ (∀ (s : State) (n bound : Nat) (p : Passage), s.passage? n = some p →
    (p.axles.length ≤ p.cursor → State.runMatcher (bound + 1) s n = s)
    ∧ (p.cursor < p.axles.length → (∃ v ∈ p.vehicles, v.kind = .remainder) →
      State.runMatcher (bound + 1) s n = s.modifyPassage n (fun q : Passage => { q with
        vehicles := q.vehicles.modify (q.vehicles.length - 1)
          (fun v => { v with axleCount := v.axleCount + (q.axles.length - q.cursor) })
        cursor := q.axles.length }))
    ∧ (p.cursor < p.axles.length → (∀ v ∈ p.vehicles, v.kind ≠ .remainder) →
      (23 ≤ p.vehicles.length →
        State.runMatcher (bound + 1) s n = s.modifyPassage n (fun q : Passage => { q with
          vehicles := q.vehicles ++ [⟨.remainder, q.cursor, q.axles.length - q.cursor⟩]
          cursor := q.axles.length
          faults := q.faults.record .vehicleOverflow (some q.cursor) none }))
      ∧ (p.vehicles.length < 23 → ∀ b d, b = s.banks.slots[p.bank].contents →
        decideAt b p.axles (p.state = .tail) p.cursor = d →
        (d = .wait → State.runMatcher (bound + 1) s n = s)
        ∧ (∀ x e, d = .accept x → e = b.profiles[x.profile] →
          State.runMatcher (bound + 1) s n = State.runMatcher bound
            ((e.pantographs.toList.take e.pantographCount.toNat).zipIdx.foldl (fun u y =>
                u.planPantograph n p.vehicles.length y.2 p.cursor (e.position x.orientation y.1)
                  y.1.cameras)
              (s.modifyPassage n (fun q : Passage => { q with
                vehicles := q.vehicles ++ [⟨.matched x.profile x.orientation e.pantographCount.toNat,
                  q.cursor, e.axleCount.toNat⟩]
                cursor := q.cursor + e.axleCount.toNat, stretchOpen := false }))) n)
        ∧ (d = .unmatched →
          (p.stretchOpen = true → p.vehicles.getLast?.map (·.kind) = some .stretch →
            State.runMatcher (bound + 1) s n = State.runMatcher bound
              (s.modifyPassage n (fun q : Passage => { q with
                vehicles := q.vehicles.modify (q.vehicles.length - 1)
                  (fun v => { v with axleCount := v.axleCount + 1 })
                cursor := q.cursor + 1 })) n)
          ∧ (p.stretchOpen = false ∨ p.vehicles.getLast?.map (·.kind) ≠ some .stretch →
            State.runMatcher (bound + 1) s n = State.runMatcher bound
              (s.modifyPassage n (fun q : Passage => { q with
                vehicles := q.vehicles ++ [⟨.stretch, q.cursor, 1⟩]
                cursor := q.cursor + 1, stretchOpen := true
                faults := q.faults.record .unmatchedAxles (some q.cursor) none })) n))))
    ∧ (p.axles.length ≤ 128 →
      (∀ k : Fin 64, (s.banks.slots[p.bank].contents.profiles[k]).present = true →
        2 ≤ (s.banks.slots[p.bank].contents.profiles[k]).axleCount.toNat) →
      State.runMatcher (129 + bound) s n = s.matchPassage n))

/-! ## Tail, clearance and settlement (chapter 2) -/

/-- TAIL_WINDOW_EXPIRY takes a passage in APPROACHING to TAIL with the tail time and the exit timeout of its
bound bank started; then the matcher runs, which ends with the cursor at the number of stored axles and the
stretch closed; then, with the exit count at the axle total, the passage clears at once, its track goes to
VACANT and its bank is checked for draining, with the notices of `LeftOpen`; short of it no bank changes and
nothing more is queued. Before the window's end, and in any other state, it does nothing (R34, R37, R39, R41,
R68, R158, R172; a step of the run: `PairedCrossingMakesAxle`; log 3). -/
def Obligations.TailDeclaration : Prop :=
  ∀ (s : State) (p : Passage), s.tracksInv → p ∈ s.table.passages →
    (p.state ≠ .approaching ∨ p.tailWindow = none
        ∨ (∃ e, p.tailWindow = some e ∧ s.clock.elapsed < e) →
      exec (.tailWindowExpiry p.number) s = .next s)
    ∧ (∀ e ends, p.state = .approaching → p.tailWindow = some e → e ≤ s.clock.elapsed →
      ends = s.clock.elapsed + (s.trackEntry p).exitTimeout.toNat →
      ∃ (w u : State) (r q : Passage), exec (.tailWindowExpiry p.number) s = .next u.endEvent
        ∧ w = (s.modifyPassage p.number (fun x : Passage => { x with
            state := .tail, tailTime := some s.clock.time, tailWindow := none
            exitTimeout := some ends })).matchPassage p.number
        ∧ w.passage? p.number = some r ∧ u.passage? p.number = some q
        ∧ (p.axles.length ≤ 128 → p.cursor ≤ p.axles.length →
            (∀ k : Fin 64, (s.banks.slots[p.bank].contents.profiles[k]).present = true →
              2 ≤ (s.banks.slots[p.bank].contents.profiles[k]).axleCount.toNat) →
            q.cursor = p.axles.length)
        ∧ w.banks = s.banks
        ∧ (p.exitCount < p.axleTotal → u.tracks = s.tracks ∧ q = { r with stretchOpen := false }
            ∧ u.banks = s.banks ∧ u.link = w.link)
        ∧ (p.axleTotal ≤ p.exitCount →
            LeftOpen w u p q [.trackState p.track .occupied .vacant s.tracks[p.track].health]
            ∧ u.tracks = setAt s.tracks p.track ⟨.vacant, s.tracks[p.track].health, [], [], none⟩
            ∧ (r.shots.all (fun k => k.state.terminal) = false →
              q = { r with
                stretchOpen := false, state := .clear, clearTime := some s.clock.time
                exitTimeout := none })
            ∧ (r.shots.all (fun k => k.state.terminal) = true →
              q = { r with
                stretchOpen := false, state := .filed, clearTime := some s.clock.time
                exitTimeout := none, settle := some (s.clock.time, s.clock.epoch) }))
        ∧ r.state = .tail ∧ r.tailTime = some s.clock.time ∧ r.tailWindow = none
        ∧ r.exitTimeout = some ends
        ∧ r.axles = p.axles ∧ r.axleTotal = p.axleTotal ∧ r.exitCount = p.exitCount
        ∧ r.speed = p.speed ∧ r.clearTime = p.clearTime ∧ r.settle = p.settle
        ∧ u.clock = s.clock ∧ u.shotQueue = w.shotQueue ∧ u.fire = w.fire ∧ u.strobes = w.strobes
        ∧ u.lines = w.lines ∧ u.readout = w.readout ∧ u.memory = w.memory)

/-- A passage in TAIL clears by count at the outer exit crossing that brings its exit count to its axle total,
its track going to VACANT, and clears short at its EXIT_TIMEOUT with EXIT_SHORT, its track going to IGNORING
with the quiet timer started. Either way its clear time is recorded and its exit timeout stopped, its bank is
checked for draining, it goes on to FILED with the settle time when every shot is terminal, and TRACK_STATE,
BANK_DRAINED and PASSAGE_FILED are queued in this order (`LeftOpen`). Before its end the timeout does nothing
(R20, R21, R36 to R41, R158, R172; log 3). -/
def Obligations.Clearance : Prop :=
  ∀ (s : State) (p : Passage), s.tracksInv → p ∈ s.table.passages →
    (p.state ≠ .tail ∨ p.exitTimeout = none ∨ (∃ e, p.exitTimeout = some e ∧ s.clock.elapsed < e) →
      exec (.exitTimeout p.number) s = .next s)
    ∧ (∀ (c : Instr) (n : Nat) (faults : FaultRecord) (m : TrackMonitor), p.state = .tail →
      (((p.direction = .ab ∧ c = .crossing p.track .b1) ∨ (p.direction = .ba ∧ c = .crossing p.track .a1))
          ∧ n = min 65535 (p.exitCount + 1) ∧ p.axleTotal ≤ n
          ∧ faults = (if p.axleTotal < n then p.faults.record .exitExcess none none else p.faults)
          ∧ m = ⟨.vacant, s.tracks[p.track].health, [], [], none⟩)
        ∨ (c = .exitTimeout p.number ∧ (∃ e, p.exitTimeout = some e ∧ e ≤ s.clock.elapsed)
          ∧ n = p.exitCount ∧ faults = p.faults.record .exitShort none none
          ∧ m = ⟨.ignoring, s.tracks[p.track].health, [], [],
              some (s.clock.elapsed + s.quietTime p.track)⟩) →
      ∃ u : State, exec c s = .next u.endEvent
        ∧ u.tracks = setAt s.tracks p.track m
        ∧ (p.shots.all (fun k => k.state.terminal) = false →
            u.passage? p.number = some { p with
              exitCount := n, faults := faults, state := .clear, clearTime := some s.clock.time
              tailWindow := none, exitTimeout := none })
        ∧ (p.shots.all (fun k => k.state.terminal) = true →
            u.passage? p.number = some { p with
              exitCount := n, faults := faults, state := .filed, clearTime := some s.clock.time
              tailWindow := none, exitTimeout := none
              settle := some (s.clock.time, s.clock.epoch) })
        ∧ (∀ r ∈ s.table.passages, r.number ≠ p.number → r ∈ u.table.passages)
        ∧ u.clock = s.clock ∧ u.shotQueue = s.shotQueue ∧ u.fire = s.fire ∧ u.strobes = s.strobes
        ∧ u.lines = s.lines ∧ u.readout = s.readout ∧ u.memory = s.memory
        ∧ (∀ q, u.passage? p.number = some q →
            LeftOpen s u p q [.trackState p.track .occupied m.state s.tracks[p.track].health]))

/-- The settlement check files a settled passage in CLEAR and brings a settled one in STOPPING to ABANDONED,
with the settle time and epoch and its notice; a passage that is not settled, or in another state, keeps as
it is (R40, R41, R45). -/
def Obligations.SettlementCheck : Prop :=
  ∀ (s : State) (n : Nat) (p : Passage), s.passage? n = some p →
    (p.shots.all (fun k => k.state.terminal) = true →
      (p.state = .clear →
        s.checkSettled n = (s.modifyPassage n (fun q : Passage =>
            { q with state := .filed, settle := some (s.clock.time, s.clock.epoch) })).queueNotice
          (.passageFiled p.number p.track p.direction p.axleTotal p.axles.length p.vehicles.length
            p.terminalCounts (p.faults.first.map (·.code))))
      ∧ (p.state = .stopping →
        s.checkSettled n = (s.modifyPassage n (fun q : Passage =>
            { q with state := .abandoned, settle := some (s.clock.time, s.clock.epoch) })).queueNotice
          (.passageAbandoned p.number p.track p.direction p.abandonReason p.terminalCounts
            (p.faults.first.map (·.code)))))
    ∧ (p.shots.all (fun k => k.state.terminal) = false
        ∨ (p.state ≠ .clear ∧ p.state ≠ .stopping) → s.checkSettled n = s)

/-! ## Shots, outputs and strobes (chapters 4 and 5) -/

/-- SHOT_DUE hands the first due shot in queue order to the fire unit, a FROZEN shot whose planned fire time
has come; without one it does nothing (the model's choice, log 3). The shot fires when its band allows
capture, its line is IN_SERVICE with no busy interval and a free slot, and frame memory has the pages: pages
reserved, the slot occupied, busy interval and trigger pulse started (a pulse whose end has not been taken yet
is replaced: log 32), the shot HELD with its actual fire time, lateness, lighting and flash sharing, the shot
at the end of the readout queue. Its strobe bank opens a flash when READY; a flash whose window is open is
joined; behind the window FIRE_UNLIT fires unlit; without a strobe bank the lighting is NONE. Then channels
are granted: the lowest idle one takes the oldest queued shot of a pressed camera, else the oldest of a camera
that no channel serves, which leaves the queue, is READING and has its first page drawn and its first READ
placed beside the orders that are pending; a line with no order in flight issues the first by R112's priority;
until no grant is left (R86, R90, R93, R97 to R100, R102 to R106, R119 to R121). -/
def Obligations.DueShotFires : Prop :=
  (∀ (s : State) (due : ShotRef → Prop), (∀ q, due q ↔ ∃ k f, s.shot? q = some k ∧ k.state = .frozen
      ∧ k.plannedFire = some f ∧ timeDiff f s.clock.time ≤ 0) →
    ((∀ q ∈ s.shotQueue, ¬ due q) → exec .shotDue s = .next s)
    ∧ ∀ before r after, s.shotQueue = before ++ r :: after → due r → (∀ q ∈ before, ¬ due q) →
      exec .shotDue s = .next (s.handOver r).endEvent)
  ∧ (∀ (s : State) (r : ShotRef) (p : Passage) (k : Shot) (tm : Timing) (slot : SlotNo)
      (lighting : Lighting) (sharing : Option FlashSharing) (strobes : Vector StrobeBank 4)
      (e : CameraEntry),
    s.passage? r.passage = some p → s.shot? r = some k →
    k.timing = some tm → tm.captureAllowed = true → s.lines[k.camera].state = .inService →
    s.fire[k.camera].busy = none →
    (s.lines[k.camera].slots[slot] = none ∧ (slot = 1 →
      s.lines[k.camera].slots[(0 : SlotNo)] ≠ none)) →
    s.memory.reservedCount + k.segmentsExpected ≤ s.memory.freeCount →
    e = s.banks.slots[p.bank].contents.cameras[k.camera] →
    (3 < e.strobe.toNat ∧ lighting = .none ∧ sharing = none ∧ strobes = s.strobes)
      ∨ (∃ (b : StrobeNo) (se : StrobeEntry), e.strobe.toNat = b.val
        ∧ se = s.banks.slots[p.bank].contents.strobes[b]
        ∧ ((s.strobes[b].recharge = none ∧ lighting = .lit ∧ sharing = none
            ∧ strobes = setAt s.strobes b
                ⟨some (s.clock.elapsed + se.recharge.toNat),
                  some ⟨s.clock.time, r, se.window.toNat, s.clock.elapsed⟩,
                  some (s.clock.elapsed + tm.flashWidth)⟩)
          ∨ (s.strobes[b].recharge ≠ none ∧ strobes = s.strobes
            ∧ ∃ f, s.strobes[b].flash = some f
            ∧ ((s.clock.elapsed - f.since ≤ f.window ∧ lighting = .lit
                ∧ sharing = some ⟨f.opener, f.start⟩)
              ∨ (f.window < s.clock.elapsed - f.since ∧ se.policy = 0 ∧ lighting = .unlit
                ∧ sharing = none))))) →
    ∃ u : State, s.handOver r = u.grantAll
      ∧ u.shotQueue = s.shotQueue.filter (· != r)
      ∧ u.memory = { s.memory with
          reservations := s.memory.reservations ++ [⟨r, k.segmentsExpected⟩] }
      ∧ u.lines = setAt s.lines k.camera { s.lines[k.camera] with
          slots := setAt s.lines[k.camera].slots slot (some r) }
      ∧ u.fire = setAt s.fire k.camera
          ⟨some (s.clock.elapsed + tm.exposureWidth),
            some (s.clock.elapsed + max e.deadTime.toNat tm.exposureWidth)⟩
      ∧ u.strobes = strobes
      ∧ u.readout = { s.readout with queue := s.readout.queue ++ [r] }
      ∧ u.table = (s.modifyShot r (fun q : Shot => { q with
          state := .held, actualFire := some s.clock.time
          lateness := (timeDiff s.clock.time (q.plannedFire.getD s.clock.time)).toNat
          lighting := some lighting, sharing := sharing })).table
      ∧ u.clock = s.clock ∧ u.tracks = s.tracks ∧ u.banks = s.banks ∧ u.link = s.link)
  ∧ (∀ (s : State) (may pressed : ShotRef → Prop),
    (∀ q, may q ↔ ∃ k, s.shot? q = some k ∧ s.serving? k.camera = none) →
    (∀ q, pressed q ↔ ∃ k, s.shot? q = some k ∧ ∀ slot : SlotNo, ∃ x,
      s.lines[k.camera].slots[slot] = some x ∧ ∀ y, s.shot? x = some y → y.state ≠ .reading) →
    ((∀ ch : ChannelNo, s.readout.channels[ch] ≠ none) ∨ (∀ q ∈ s.readout.queue, ¬ may q) →
      s.grantAll = s)
    ∧ ∀ (ch : ChannelNo) (before after : List ShotRef) (r : ShotRef) (k : Shot) (l : CameraLine)
      (slot : SlotNo), s.readout.channels[ch] = none →
      (∀ j : ChannelNo, j < ch → s.readout.channels[j] ≠ none) →
      s.readout.queue = before ++ r :: after → may r →
      (pressed r ∧ ∀ q ∈ before, ¬ (may q ∧ pressed q))
        ∨ ((∀ q ∈ s.readout.queue, may q → ¬ pressed q) ∧ ∀ q ∈ before, ¬ may q) →
      s.shot? r = some k → s.lines[k.camera] = l → l.slotOf r = some slot → l.orders.read = none →
      ∃ u : State, s.grantAll = u.grantAll
        ∧ u.readout = ⟨s.readout.queue.filter (· != r),
            setAt s.readout.channels ch (some ⟨r, 0, 0, .read, s.memory.lowestFree⟩)⟩
        ∧ u.memory = (s.memory.draw r 0).1
        ∧ u.table = (s.modifyShot r (fun q : Shot => { q with state := .reading })).table
        ∧ (∀ j : Camera, j ≠ k.camera → u.lines[j] = s.lines[j])
        ∧ (∀ placed : PendingOrders,
          placed = { l.orders with read := some ⟨slot, 0, 1 = k.segmentsExpected⟩ } →
          (∀ o, l.outstanding = some o → (o.ignored = true ∨ ∀ a b c, o.order ≠ .read a b c) →
            u.lines[k.camera] = { l with orders := placed })
          ∧ (l.outstanding = none → ∀ (order : Order) (length : Nat) (rest : PendingOrders),
            (l.orders.relink = true ∧ order = .relink ∧ length = 500000
                ∧ rest = { placed with relink := false })
              ∨ (l.orders.relink = false ∧ l.orders.discard0 = true ∧ order = .discard 0
                ∧ length = 50000 ∧ rest = { placed with discard0 := false })
              ∨ (l.orders.relink = false ∧ l.orders.discard0 = false ∧ l.orders.discard1 = true
                ∧ order = .discard 1 ∧ length = 50000 ∧ rest = { placed with discard1 := false })
              ∨ (l.orders.relink = false ∧ l.orders.discard0 = false ∧ l.orders.discard1 = false
                ∧ order = .read slot 0 (1 = k.segmentsExpected) ∧ length = 50000
                ∧ rest = l.orders) →
            u.lines[k.camera] = { l with
              orders := rest, outstanding := some ⟨order, s.clock.elapsed + length, false⟩ }))
        ∧ u.clock = s.clock ∧ u.tracks = s.tracks ∧ u.shotQueue = s.shotQueue ∧ u.fire = s.fire
        ∧ u.strobes = s.strobes ∧ u.banks = s.banks ∧ u.link = s.link)

/-- SHOT_DUE makes the due shot SKIPPED at the first of the six checks that fails, with its reason: SPEED,
CAMERA, CAMERA_BUSY, CAMERA_FULL, NO_SPACE, NO_FLASH. The shot leaves the queue and its passage is checked
for settlement; nothing else changes (R86, R90 to R95, R97, R100). -/
def Obligations.DueShotIsSkipped : Prop :=
  ∀ (s : State) (r : ShotRef) (p : Passage) (k : Shot) (tm : Timing) (reason : SkipReason)
    (e : CameraEntry),
    s.firstDue = some r → s.passage? r.passage = some p → s.shot? r = some k → k.timing = some tm →
    e = s.banks.slots[p.bank].contents.cameras[k.camera] →
    (tm.captureAllowed = false ∧ reason = .speed)
      ∨ (tm.captureAllowed = true ∧
        ((s.lines[k.camera].state ≠ .inService ∧ reason = .camera)
        ∨ (s.lines[k.camera].state = .inService ∧
          ((s.fire[k.camera].busy ≠ none ∧ reason = .cameraBusy)
          ∨ (s.fire[k.camera].busy = none ∧
            (((∀ slot : SlotNo, s.lines[k.camera].slots[slot] ≠ none) ∧ reason = .cameraFull)
            ∨ ((∃ slot : SlotNo, s.lines[k.camera].slots[slot] = none) ∧
              ((s.memory.freeCount < s.memory.reservedCount + k.segmentsExpected ∧ reason = .noSpace)
              ∨ (s.memory.reservedCount + k.segmentsExpected ≤ s.memory.freeCount
                ∧ reason = .noFlash ∧ ∃ b : StrobeNo, e.strobe.toNat = b.val
                ∧ s.strobes[b].recharge ≠ none
                ∧ (s.banks.slots[p.bank].contents.strobes[b]).policy = 1
                ∧ ∃ f, s.strobes[b].flash = some f
                    ∧ f.window < s.clock.elapsed - f.since))))))))) →
    exec .shotDue s
      = .next ((({ s with shotQueue := s.shotQueue.filter (· != r) } : State).modifyShot r
          (fun q : Shot => { q with skipReason := some reason, state := .skipped })).checkSettled
            r.passage).endEvent

/-- SHOT_FREEZE makes a PLANNED shot FROZEN once its planned fire time is 2,000 µs away or less (R81, R85). A
busy interval that has ended stops (R93), a trigger or flash output whose pulse has run its width goes low
(R104, R105), and a strobe bank whose recharge has expired is READY with its last flash kept (R101). Before
their times come none of the five does anything (log 3). -/
def Obligations.ShotFreezesAndIntervalsEnd : Prop :=
  ∀ s : State,
    (∀ (n k : Nat) (shot : Shot), s.shot? ⟨n, k⟩ = some shot →
      (∀ f, shot.state = .planned → shot.plannedFire = some f → timeDiff f s.clock.time ≤ 2000 →
        exec (.shotFreeze n k) s
          = .next (s.modifyShot ⟨n, k⟩ (fun q : Shot => { q with state := .frozen })).endEvent)
      ∧ (shot.state ≠ .planned ∨ shot.plannedFire = none
          ∨ (∃ f, shot.plannedFire = some f ∧ 2000 < timeDiff f s.clock.time) →
        exec (.shotFreeze n k) s = .next s))
    ∧ ∀ (c : Camera) (b : StrobeNo),
    (∀ e, s.fire[c].busy = some e →
      (e ≤ s.clock.elapsed → exec (.busyIntervalEnd c) s
        = .next (s.setFire c ⟨s.fire[c].trigger, none⟩).endEvent)
      ∧ (s.clock.elapsed < e → exec (.busyIntervalEnd c) s = .next s))
    ∧ (s.fire[c].busy = none → exec (.busyIntervalEnd c) s = .next s)
    ∧ (∀ e, s.fire[c].trigger = some e →
      (e ≤ s.clock.elapsed → exec (.triggerPulseEnd c) s
        = .next (s.setFire c ⟨none, s.fire[c].busy⟩).endEvent)
      ∧ (s.clock.elapsed < e → exec (.triggerPulseEnd c) s = .next s))
    ∧ (s.fire[c].trigger = none → exec (.triggerPulseEnd c) s = .next s)
    ∧ (∀ e, s.strobes[b].output = some e →
      (e ≤ s.clock.elapsed → exec (.flashPulseEnd b) s
        = .next (s.setStrobe b ⟨s.strobes[b].recharge, s.strobes[b].flash, none⟩).endEvent)
      ∧ (s.clock.elapsed < e → exec (.flashPulseEnd b) s = .next s))
    ∧ (s.strobes[b].output = none → exec (.flashPulseEnd b) s = .next s)
    ∧ (∀ e, s.strobes[b].recharge = some e →
      (e ≤ s.clock.elapsed → exec (.rechargeExpiry b) s
        = .next (s.setStrobe b ⟨none, s.strobes[b].flash, s.strobes[b].output⟩).endEvent)
      ∧ (s.clock.elapsed < e → exec (.rechargeExpiry b) s = .next s))
    ∧ (s.strobes[b].recharge = none → exec (.rechargeExpiry b) s = .next s)

/-- A handed-over pantograph makes a shot for each camera of its set, in ascending order, that the bound bank
has fitted on the passage's track with a direction filter that admits it. A new shot with room in its
passage's list is timed and placed: LATE at once when the timing makes it so, SKIPPED with QUEUE_FULL when 64
shots are queued, and else in the queue, PLANNED or FROZEN, at the place its fire time gives it, ties by
passage opening order and shot number; one due at once is handed to the fire unit as soon as it is placed,
before another is placed (log 26). At 48 shots no shot is made and SHOT_LIMIT is recorded. A queue in order
stays in order while its fire times lie within 2^46 µs of one another. A re-timing takes the PLANNED shots in
shot-number order and places each anew, LATE or at its new place in the queue (R77, R78, R80 to R83, R86, R87;
the record of a shot that R80 makes LATE: log 13). -/
def Obligations.NewShotIsPlaced : Prop :=
  (∀ (s : State) (p : Passage) (k : Shot) (f : Option GantryTime) (tm : Timing) (tolerance : Nat),
    (p.timeShot s.banks.slots[p.bank].contents k) = ⟨tm, f⟩ →
    tolerance = (s.banks.slots[p.bank].contents.tracks[p.track]).lateTolerance.toNat →
    (f = none → s.timeShot p k = ({ k with timing := some tm, state := .late }, .late))
    ∧ (∀ t x, f = some t → x = placeByLead (timeDiff t s.clock.time) tolerance →
      s.timeShot p k = ({ k with
        timing := some tm, plannedFire := some t
        state := if x = .planned then .planned else if x = .late then .late else .frozen
        lateness := if x = .late then tolerance else k.lateness }, x)))
  ∧ (∀ (s : State) (a b : ShotRef) (ka kb : Shot) (fa fb : GantryTime) (pre mid : List Passage)
      (pa : Passage), s.numbered → s.shot? a = some ka → s.shot? b = some kb →
    ka.plannedFire = some fa → kb.plannedFire = some fb →
    s.table.passages = pre ++ pa :: mid → pa.number = a.passage →
    (s.queueBefore a b = true ↔ timeDiff fa fb < 0 ∨ (timeDiff fa fb = 0
      ∧ ((∃ pb ∈ mid, pb.number = b.passage) ∨ (a.passage = b.passage ∧ a.shot < b.shot)))))
  ∧ (∀ (s : State) (p : Passage) (k : Shot), s.numbered → p ∈ s.table.passages →
    (48 ≤ p.shots.length →
      s.makeShot p k = s.modifyPassage p.number (fun q : Passage =>
        { q with faults := q.faults.record .shotLimit none none }))
    ∧ (p.shots.length < 48 → ∀ x v, s.timeShot p k = x →
      v = s.modifyPassage p.number (fun q : Passage => { q with shots := q.shots ++ [x.1] }) →
      (x.2 = .late → s.makeShot p k = v.checkSettled p.number)
      ∧ (x.2 ≠ .late → 64 ≤ s.shotQueue.length →
        s.makeShot p k = (s.modifyPassage p.number (fun q : Passage =>
            { q with shots := q.shots ++
              [{ x.1 with state := .skipped, skipReason := some .queueFull }] })).checkSettled p.number)
      ∧ (x.2 ≠ .late → s.shotQueue.length < 64 → ∀ r u, r = ⟨p.number, p.shots.length⟩ →
        u = ({ v with shotQueue := v.insertQueue r s.shotQueue } : State) →
        (x.2 = .planned ∨ x.2 = .frozen → s.makeShot p k = u)
        ∧ (x.2 = .dueAtOnce → s.makeShot p k = u.handOver r))))
  ∧ (∀ (s : State) (r : ShotRef) (queue : List ShotRef),
    (∃ before after, queue = before ++ after ∧ s.insertQueue r queue = before ++ r :: after
      ∧ (∀ q ∈ before, s.queueBefore r q = false)
      ∧ (∀ q, after.head? = some q → s.queueBefore r q = true))
    ∧ (s.numbered → r ∉ queue →
      (∀ q ∈ r :: queue, ∃ k f, s.shot? q = some k ∧ k.plannedFire = some f) →
      (∀ a ∈ r :: queue, ∀ b ∈ r :: queue,
        (timeDiff (s.fireTimeOf a) (s.fireTimeOf b)).natAbs < 2 ^ 46) →
      queue.Pairwise (fun a b => s.queueBefore a b = true) →
      (s.insertQueue r queue).Pairwise (fun a b => s.queueBefore a b = true)))
  ∧ (∀ (s : State) (n : Nat) (p : Passage), s.passage? n = some p →
    s.retimeAll n = (List.range p.shots.length).foldl (fun u i => u.retimeShot ⟨n, i⟩) s
    ∧ ∀ (i : Nat) (k : Shot) (r : ShotRef), r = ⟨n, i⟩ → p.shots[i]? = some k →
      (k.state ≠ .planned → s.retimeShot r = s)
      ∧ (k.state = .planned → ∀ x v u, s.timeShot p k = x →
        v = (({ s with shotQueue := s.shotQueue.filter (· != r) } : State).modifyShot r (fun _ => x.1)) →
        u = ({ v with shotQueue := v.insertQueue r v.shotQueue } : State) →
        (x.2 = .late → s.retimeShot r = v.checkSettled n)
        ∧ (x.2 = .planned ∨ x.2 = .frozen → s.retimeShot r = u)
        ∧ (x.2 = .dueAtOnce → s.retimeShot r = u.handOver r)))
  ∧ (∀ (s : State) (n vehicle pantograph reference : Nat) (position : Int) (cameras : BitVec 16),
    s.planPantograph n vehicle pantograph reference position cameras
      = ((List.finRange 12).filter (fun c => cameras.getLsbD c.val)).foldl
          (fun u c => u.planCamera n vehicle pantograph reference position c) s
    ∧ ∀ (c : Camera) (p : Passage) (e : CameraEntry), s.passage? n = some p →
      e = s.banks.slots[p.bank].contents.cameras[c] →
      (e.fitted = true ∧ e.track.toNat = p.track.val + 1
          ∧ (e.directionFilter = 2 ∨ (e.directionFilter = 0 ∧ p.direction = .ab)
            ∨ (e.directionFilter = 1 ∧ p.direction = .ba)) →
        s.planCamera n vehicle pantograph reference position c = s.makeShot p {
          vehicle := vehicle, pantograph := pantograph, camera := c, referenceAxle := reference
          position := position, state := .planned, skipReason := none, plannedFire := none
          timing := none, actualFire := none, lateness := 0, lighting := none, sharing := none
          flags := 0, flagged := false, segmentsExpected := e.segments.toNat, segmentsStored := 0
          corrected := 0, damaged := [], pages := [] })
      ∧ (e.fitted = false ∨ e.track.toNat ≠ p.track.val + 1
          ∨ (e.directionFilter ≠ 2 ∧ (e.directionFilter = 0 → p.direction = .ba)
            ∧ (e.directionFilter = 1 → p.direction = .ab)) →
        s.planCamera n vehicle pantograph reference position c = s))

/-- The figures of chapters 1 to 4: the speed band (R75), the length of the tail window (R33), plane distance,
remaining distance and fire time of a shot timed from an axle with a speed (R79, R80), and the placing by its
lead (R81); the candidates of a bank in their order (R55, R59), the spacings they are laid against and the
positions of their pantographs (R55), when one is undecidable and when it fits (R60 to R62), and the decision
at the cursor (R63). -/
def Obligations.Figures : Prop :=
  (∀ v : Nat, speedBand v ≤ 255 ∧ speedBand v = min 255 (v * 9 / 5000))
  ∧ (∀ distance : Nat, tailWindowLength distance none = 10000000)
  ∧ (∀ distance v : Nat,
      (50000 ≤ distance * 1000000 / v → distance * 1000000 / v ≤ 10000000 →
        tailWindowLength distance (some v) = distance * 1000000 / v)
      ∧ (distance * 1000000 / v < 50000 → tailWindowLength distance (some v) = 50000)
      ∧ (10000000 < distance * 1000000 / v → tailWindowLength distance (some v) = 10000000))
  ∧ (∀ (lead : Int) (tolerance : Nat),
      (2000 ≤ lead → placeByLead lead tolerance = .planned)
      ∧ (0 ≤ lead → lead < 2000 → placeByLead lead tolerance = .frozen)
      ∧ (lead < 0 → -(tolerance : Int) ≤ lead → placeByLead lead tolerance = .dueAtOnce)
      ∧ (lead < -(tolerance : Int) → placeByLead lead tolerance = .late))
  ∧ (∀ (p : Passage) (b : Bank) (k : Shot) (a : Axle) (v : Nat) (plane remaining : Int)
      (e : ExposureEntry) (band : Fin 256),
      p.axles.getLast? = some a → a.speed = some v → band.val = speedBand v → e = b.exposures[band] →
      plane = (if p.direction = .ab then
          (b.tracks[p.track]).dA.toNat + (b.cameras[k.camera]).planeOffset.toInt
        else (b.tracks[p.track]).dB.toNat - (b.cameras[k.camera]).planeOffset.toInt) →
      remaining = plane + k.position - ((p.axles.drop (k.referenceAxle + 1)).map Axle.mm).sum →
      (p.timeShot b k).record = ⟨p.axles.length - 1, v, speedBand v, e.captureAllowed,
          e.exposureWidth.toNat, e.flashWidth.toNat⟩
      ∧ (remaining ≤ 0 → (p.timeShot b k).fireTime = none)
      ∧ (0 < remaining → (p.timeShot b k).fireTime
          = some (a.time + BitVec.ofInt 48 ((remaining * 1000000).tdiv v + e.trim.toInt))))
  ∧ (∀ b : Bank,
      b.candidates.Pairwise (fun x y => x.profile < y.profile
        ∨ (x.profile = y.profile ∧ x.orientation = .forward ∧ y.orientation = .reversed))
      ∧ ∀ x, x ∈ b.candidates ↔ (b.profiles[x.profile]).present = true
        ∧ (x.orientation = .forward ∨ (b.profiles[x.profile]).symmetric = false))
  ∧ (∀ (e : ProfileEntry) (n : Nat) (p : PantographEntry), n = e.axleCount.toNat →
      (∀ j, 1 ≤ j → j < n →
        e.expected .forward j = (e.spacings.toList.getD (j - 1) 0).toNat
        ∧ e.expected .reversed j = (e.spacings.toList.getD (n - j - 1) 0).toNat)
      ∧ e.position .forward p = p.offset.toInt
      ∧ e.position .reversed p
        = (((e.spacings.toList.take (n - 1)).map (·.toNat)).sum : Nat) - p.offset.toInt)
  ∧ (∀ (axles : List Axle) (inTail : Bool) (cursor n : Nat) (e : ProfileEntry) (o : Orientation)
      (inner : Prop), n = e.axleCount.toNat →
      (inner ↔ ∀ j, 1 ≤ j → j < n → ∃ a mm, axles[cursor + j]? = some a ∧ a.spacing = .known mm
        ∧ (mm - (e.expected o j : Int)).natAbs ≤ e.tolerance.toNat) →
      (∀ a, axles[cursor + n]? = some a →
        verdict axles inTail cursor e o ≠ .undecidable
        ∧ (verdict axles inTail cursor e o = .fits ↔ inner ∧ ∃ mm, a.spacing = .known mm
          ∧ (e.gapMin.toNat : Int) ≤ mm ∧ mm ≤ e.gapMax.toNat))
      ∧ (axles.length ≤ cursor + n → inTail = false → verdict axles inTail cursor e o = .undecidable)
      ∧ (axles.length ≤ cursor + n → inTail = true →
        verdict axles inTail cursor e o ≠ .undecidable
        ∧ (verdict axles inTail cursor e o = .fits ↔ inner ∧ axles.length = cursor + n)))
  ∧ (∀ (b : Bank) (axles : List Axle) (inTail : Bool) (cursor : Nat) (shows : Candidate → Verdict),
      (∀ x, shows x = verdict axles inTail cursor b.profiles[x.profile] x.orientation) →
      ((∀ x ∈ b.candidates, shows x = .unfit) → decideAt b axles inTail cursor = .unmatched)
      ∧ ∀ before x after, b.candidates = before ++ x :: after → (∀ y ∈ before, shows y = .unfit) →
        (shows x = .undecidable → decideAt b axles inTail cursor = .wait)
        ∧ (shows x = .fits → decideAt b axles inTail cursor = .accept x))

/-! ## Camera orders and readout (chapter 6) -/

/-- A READ answered DONE with a right check: its bytes stand in the physical page of the segment's page, its
flags join the shot and the line, a flag of the disable set marks an IN_SERVICE line while the readout goes
on, and the page joins the shot's page list. With the release flag the slot is freed, the shot STORED, the
channel idle, its passage checked for settlement, and a marked IN_SERVICE line goes OUT_OF_SERVICE with
CAMERA_STATE; without it the next segment's page is drawn and its READ placed pending, or, in STOPPING, a
DISCARD. Nothing else of frame memory changes but the page drawn or the reservation returned. Orders that were
pending before stay so. The line goes on as `afterOrder` says (R113, R117, R118,
R121, R126, R138). -/
def Obligations.ReadSucceeds : Prop :=
  ∀ (s : State) (c : Camera) (ch : ChannelNo) (w : ChannelWork) (k k' : Shot) (p : Passage)
    (slot : SlotNo) (seg : Nat) (release mark : Bool) (issued pg ph : Nat) (bytes : List Byte)
    (flags : FlagSet) (e : CameraEntry),
    s.lines[c].outstanding = some ⟨.read slot seg release, issued + 50000, false⟩ →
    s.lines[c].orders.read = none → s.memory.wf →
    s.serving? c = some (ch, w) → s.shot? w.shot = some k → s.passage? w.shot.passage = some p →
    w.page = some pg → (s.memory.page pg).physical pg = some ph → bytes.length = 65536 →
    s.lines[c].slotOf w.shot = some slot → e = s.banks.slots[p.bank].contents.cameras[c] →
    k' = { k with
      flags := k.flags ||| flags, flagged := k.flagged || (flags &&& e.careSet) != 0
      segmentsStored := k.segmentsStored + 1, pages := k.pages ++ [pg] } →
    mark = (s.lines[c].disableMark || (s.lines[c].state = .inService && (flags &&& e.disableSet) != 0)) →
    ∃ (u : State) (q : Passage), exec (.readComplete ⟨c, issued⟩ bytes (crc32 bytes) .done flags) s
        = .next (u.afterOrder c).endEvent
      ∧ (∀ i, i < 65536 → u.memory.byteAt (ph * 65536 + i) = bytes.getD i 0)
      ∧ (∀ a, a < ph * 65536 ∨ ph * 65536 + 65536 ≤ a → u.memory.byteAt a = s.memory.byteAt a)
      ∧ (∀ j : Camera, j ≠ c → u.lines[j] = s.lines[j])
      ∧ u.lines[c].accumulated = s.lines[c].accumulated ||| flags ∧ u.lines[c].outstanding = none
      ∧ u.clock = s.clock ∧ u.tracks = s.tracks ∧ u.fire = s.fire ∧ u.strobes = s.strobes
      ∧ u.shotQueue = s.shotQueue ∧ u.banks = s.banks ∧ u.readout.queue = s.readout.queue
      ∧ u.passage? w.shot.passage = some q ∧ q.faults = p.faults
      ∧ (release = true →
          u.shot? w.shot = some { k' with state := .stored } ∧ s.settledFrom p q
          ∧ u.readout.channels = setAt s.readout.channels ch none
          ∧ u.lines[c].slots = setAt s.lines[c].slots slot none
          ∧ u.lines[c].orders = s.lines[c].orders ∧ u.memory = s.memory.write (ph * 65536) bytes
          ∧ (mark = true → s.lines[c].state = .inService →
              u.lines[c].state = .outOfService ∧ u.lines[c].disableMark = false
              ∧ s.endsWithNotice u (.cameraState c .inService .outOfService .disableFlag
                  (s.lines[c].accumulated ||| flags) 0))
          ∧ (mark = false ∨ s.lines[c].state ≠ .inService →
              u.lines[c].state = s.lines[c].state ∧ u.lines[c].disableMark = mark))
      ∧ (release = false → u.lines[c].slots = s.lines[c].slots ∧ u.shot? w.shot = some k'
          ∧ u.lines[c].state = s.lines[c].state ∧ u.lines[c].disableMark = mark ∧ q.state = p.state
          ∧ (p.state ≠ .stopping →
              u.readout.channels = setAt s.readout.channels ch
                (some ⟨w.shot, w.segment + 1, 0, .read, s.memory.lowestFree⟩)
              ∧ u.lines[c].orders = { s.lines[c].orders with
                  read := some ⟨slot, w.segment + 1, w.segment + 2 = k.segmentsExpected⟩ }
              ∧ u.memory = ((s.memory.write (ph * 65536) bytes).draw w.shot (w.segment + 1)).1
              ∧ (∀ j, s.memory.lowestFree = some j → u.memory.page j
                  = { s.memory.page j with condition := .held ⟨w.shot, w.segment + 1⟩ }))
          ∧ (p.state = .stopping →
              u.readout.channels = setAt s.readout.channels ch
                (some ⟨w.shot, w.segment, 0, .stopping, none⟩)
              ∧ u.lines[c].orders = s.lines[c].orders.add (.discard slot)
              ∧ u.memory = { s.memory.write (ph * 65536) bytes with
                  reservations := s.memory.reservations.filter (fun r => r.shot != w.shot) }))

/-- A READ that fails, by a FAILED outcome, a wrong check or its timeout (which brings no flags): in STOPPING
a DISCARD; with retries a READ of the same segment again after the first three failures and a RELINK after
the fourth; without retries a DISCARD, the drawn page and the reservation returned. A flag of the disable set
marks an IN_SERVICE line while the readout goes on, and orders that were pending before stay so. A final try
that fails takes the line DOWN with cause READ_FAILURE, its shot PARTIAL when a segment was stored and LOST
when none was, and all else that `WentDown` says (the order of two HELD shots: log 34). The bytes that came
stand in the physical page of the segment's page, and no other byte changes; a timeout brings none. The
attempts of a channel whose readout the failure ends are as before it, which is the model's choice (log 33)
(R113, R116 to R118, R122 to R124, R126, R131, R139, R140). -/
def Obligations.ReadFails : Prop :=
  ∀ (s : State) (c : Camera) (ch : ChannelNo) (w : ChannelWork) (k : Shot) (p : Passage)
    (slot : SlotNo) (seg : Nat) (release : Bool) (issued : Nat) (flags : FlagSet) (e : CameraEntry)
    (command : Instr) (physical : Option Nat) (m : FrameMemory),
    s.lines[c].outstanding = some ⟨.read slot seg release, issued + 50000, false⟩ →
    s.lines[c].orders.read = none →
    s.serving? c = some (ch, w) → s.shot? w.shot = some k → s.passage? w.shot.passage = some p →
    k.state = .reading → (w.step = .read ∨ w.step = .final) →
    s.lines[c].slotOf w.shot = some slot → e = s.banks.slots[p.bank].contents.cameras[c] →
    physical = w.page.bind (fun pg => (s.memory.page pg).physical pg) →
    (∃ bytes check outcome, command = .readComplete ⟨c, issued⟩ bytes check outcome flags
        ∧ (outcome = .failed ∨ crc32 bytes ≠ check)
        ∧ (physical = none → m = s.memory)
        ∧ (∀ ph, physical = some ph → m = s.memory.write (ph * 65536) (bytes.take 65536)))
      ∨ (command = .orderTimeout c ∧ issued + 50000 ≤ s.clock.elapsed ∧ flags = 0 ∧ m = s.memory) →
    ∃ u : State, exec command s = .next (u.afterOrder c).endEvent
      ∧ (s.memory.wf → ∀ bytes check outcome ph,
          command = .readComplete ⟨c, issued⟩ bytes check outcome flags → physical = some ph →
          bytes.length = 65536 →
          (∀ i, i < 65536 → u.memory.byteAt (ph * 65536 + i) = bytes.getD i 0)
          ∧ ∀ a, a < ph * 65536 ∨ ph * 65536 + 65536 ≤ a → u.memory.byteAt a = s.memory.byteAt a)
      ∧ (command = .orderTimeout c ∨ physical = none →
          (∀ a, u.memory.byteAt a = s.memory.byteAt a) ∧ u.memory.wrong = s.memory.wrong)
      ∧ (∀ j : Camera, j ≠ c → u.lines[j] = s.lines[j])
      ∧ u.clock = s.clock ∧ u.tracks = s.tracks ∧ u.fire = s.fire ∧ u.strobes = s.strobes
      ∧ u.shotQueue = s.shotQueue ∧ u.banks = s.banks
      ∧ u.lines[c].accumulated = s.lines[c].accumulated ||| flags ∧ u.lines[c].outstanding = none
      ∧ (w.step = .read →
          u.shot? w.shot = some { k with
            flags := k.flags ||| flags, flagged := k.flagged || (flags &&& e.careSet) != 0 }
          ∧ u.lines[c].state = s.lines[c].state ∧ u.lines[c].slots = s.lines[c].slots
          ∧ u.lines[c].linking = s.lines[c].linking
          ∧ (u.lines[c].disableMark = true ↔ s.lines[c].disableMark = true
              ∨ (s.lines[c].state = .inService ∧ flags &&& e.disableSet ≠ 0))
          ∧ u.readout.queue = s.readout.queue
          ∧ (p.state ≠ .stopping → e.retries = true → w.attempts < 3 →
              u.readout.channels = setAt s.readout.channels ch
                (some { w with attempts := w.attempts + 1 })
              ∧ u.lines[c].orders = { s.lines[c].orders with
                  read := some ⟨slot, w.segment, w.segment + 1 = k.segmentsExpected⟩ }
              ∧ u.memory = m)
          ∧ (p.state ≠ .stopping → e.retries = true → w.attempts = 3 →
              u.readout.channels = setAt s.readout.channels ch
                (some { w with attempts := 4, step := .relink })
              ∧ u.lines[c].orders = { s.lines[c].orders with relink := true }
              ∧ u.memory = m)
          ∧ (∀ step : ChannelStep, (p.state = .stopping ∧ step = .stopping)
                ∨ (p.state ≠ .stopping ∧ e.retries = false ∧ step = .discard) →
              u.readout.channels = setAt s.readout.channels ch
                (some { w with page := none, step := step })
              ∧ u.lines[c].orders = s.lines[c].orders.add (.discard slot)
              ∧ ∀ freed : FrameMemory, (w.page = none → freed = m) →
                  (∀ j, w.page = some j → freed = (m.free j).1) →
                  u.memory = { freed with
                    reservations := s.memory.reservations.filter (fun r => r.shot != w.shot) }))
      ∧ (w.step = .final →
          u.lines[c].state = .down ∧ u.lines[c].orders = .none ∧ u.lines[c].linking = none
          ∧ u.lines[c].disableMark = false ∧ u.lines[c].slots = Vector.replicate 2 none
          ∧ u.readout.channels = setAt s.readout.channels ch none
          ∧ (u.shot? w.shot).map (·.state)
              = some (if k.segmentsStored = 0 then .lost else .partialStored)
          ∧ ((∀ r, s.lines[c].slots[(0 : SlotNo)] = some r →
                s.lines[c].slots[(1 : SlotNo)] ≠ some r) →
            (∀ (x : SlotNo) (r : ShotRef), s.lines[c].slots[x] = some r →
              s.shotState r = some .held ∨ s.shotState r = some .reading) →
            WentDown (((s.setMemory m).setLine c { s.lines[c] with
                    outstanding := none, accumulated := s.lines[c].accumulated ||| flags
                    }).modifyShot w.shot (fun x : Shot => { x with
                    flags := x.flags ||| flags
                    flagged := x.flagged || (flags &&& e.careSet) != 0 })) u c .readFailure))

/-- A DISCARD acknowledged frees its slot. The READING shot it was for is finished and its channel idle:
PARTIAL with IMAGE_PARTIAL when a segment was stored, else CANCELLED in the step STOPPING and FAILED with
CAMERA_LOSS in the step DISCARD, its passage checked for settlement, and a marked IN_SERVICE line goes
OUT_OF_SERVICE with CAMERA_STATE; a HELD shot of a stopping passage becomes CANCELLED without a fault. In the
linking sequence after a RESTART the DISCARD of slot 0 leads to that of slot 1 and that to a RELINK; the last
DISCARD of a slot that the SENSE found full ends the sequence, IN_SERVICE, or OUT_OF_SERVICE when the camera
is not fitted or a flag of the SENSE is in its disable set. An answer to no outstanding DISCARD is ignored
(R40, R45, R114, R116, R118, R123, R125 to R127, R131, R133; the command names the order it answers, log 28).
-/
def Obligations.DiscardCompletes : Prop :=
  ∀ (s : State) (c : Camera) (issued : Nat) (m : CameraLine),
    m = { s.lines[c] with outstanding := none } →
    (∀ (slot : SlotNo) (r : ShotRef) (k : Shot) (p : Passage),
      s.lines[c].outstanding = some ⟨.discard slot, issued + 50000, false⟩ →
      s.lines[c].linking ≠ some (.restartDiscard slot) →
      (∀ flags clear0 clear1, s.lines[c].linking = some (.clearing flags clear0 clear1) →
        (slot = 0 ∧ clear0 = false ∧ clear1 = true) ∨ (slot = 1 ∧ clear0 = true ∧ clear1 = false)) →
      s.lines[c].slots[slot] = some r → s.shot? r = some k → s.passage? r.passage = some p →
      ∃ (u : State) (q : Passage), exec (.discardComplete ⟨c, issued⟩) s = .next (u.afterOrder c).endEvent
        ∧ u.lines[c].slots = setAt s.lines[c].slots slot none ∧ u.lines[c].outstanding = none
        ∧ u.lines[c].accumulated = s.lines[c].accumulated ∧ u.lines[c].orders = s.lines[c].orders
        ∧ u.lines[c].linking = s.lines[c].linking
        ∧ u.passage? r.passage = some q ∧ s.settledFrom p q
        ∧ (∀ j : Camera, j ≠ c → u.lines[j] = s.lines[j])
        ∧ u.memory = s.memory ∧ u.clock = s.clock ∧ u.tracks = s.tracks ∧ u.fire = s.fire
        ∧ u.strobes = s.strobes ∧ u.shotQueue = s.shotQueue ∧ u.banks = s.banks
        ∧ (∀ ch w, s.serving? c = some (ch, w) → w.shot = r →
            u.readout = { s.readout with channels := setAt s.readout.channels ch none }
            ∧ (k.segmentsStored ≠ 0 → u.shot? r = some { k with state := .partialStored }
                ∧ q.faults = p.faults.record .imagePartial none (some r.shot))
            ∧ (k.segmentsStored = 0 → w.step = .stopping →
                u.shot? r = some { k with state := .cancelled } ∧ q.faults = p.faults)
            ∧ (k.segmentsStored = 0 → w.step ≠ .stopping → u.shot? r = some { k with state := .failed }
                ∧ q.faults = p.faults.record .cameraLoss none (some r.shot))
            ∧ (s.lines[c].disableMark = true → s.lines[c].state = .inService →
                u.lines[c].state = .outOfService ∧ u.lines[c].disableMark = false
                ∧ s.endsWithNotice u (.cameraState c .inService .outOfService .disableFlag
                    s.lines[c].accumulated 0))
            ∧ (s.lines[c].disableMark = false ∨ s.lines[c].state ≠ .inService →
                u.lines[c].state = s.lines[c].state
                ∧ u.lines[c].disableMark = s.lines[c].disableMark))
        ∧ ((∀ ch w, s.serving? c = some (ch, w) → w.shot ≠ r) →
            u.readout = s.readout ∧ u.shot? r = some { k with state := .cancelled }
            ∧ q.faults = p.faults ∧ u.lines[c].state = s.lines[c].state
            ∧ u.lines[c].disableMark = s.lines[c].disableMark))
    ∧ (∀ slot : SlotNo, s.lines[c].outstanding = some ⟨.discard slot, issued + 50000, false⟩ →
      s.lines[c].slots[slot] = none →
      (s.lines[c].linking = some (.restartDiscard slot) →
        (slot = 0 → m.orders.discard1 = false →
          exec (.discardComplete ⟨c, issued⟩) s
            = .next ((s.setLine c { m with
                orders := { m.orders with discard1 := true }
                linking := some (.restartDiscard 1) }).afterOrder c).endEvent)
        ∧ (slot = 1 → m.orders.relink = false →
          exec (.discardComplete ⟨c, issued⟩) s
            = .next ((s.setLine c { m with
                orders := { m.orders with relink := true }, linking := some .relink }).afterOrder
                  c).endEvent))
      ∧ (∀ flags clear0 clear1 left0 left1,
        s.lines[c].linking = some (.clearing flags clear0 clear1) →
        left0 = (clear0 && slot != 0) → left1 = (clear1 && slot != 1) →
        (left0 = true ∨ left1 = true →
          exec (.discardComplete ⟨c, issued⟩) s
            = .next ((s.setLine c { m with linking := some (.clearing flags left0 left1) }).afterOrder
                c).endEvent)
        ∧ (left0 = false → left1 = false →
          ∀ new, new = (if (s.activeCamera c).fitted = true ∧ flags &&& (s.activeCamera c).disableSet = 0
              then LineState.inService else .outOfService) →
          exec (.discardComplete ⟨c, issued⟩) s
            = .next (((s.setLine c { m with linking := none, state := new, disableMark := false
                }).queueNotice (.cameraState c s.lines[c].state new .linked m.accumulated 0)).afterOrder
                  c).endEvent)))
    ∧ ((∀ slot ignored, s.lines[c].outstanding ≠ some ⟨.discard slot, issued + 50000, ignored⟩) →
      exec (.discardComplete ⟨c, issued⟩) s = .next s)

/-- The linking sequence: its RELINK leads to a SENSE; the SENSE answer's flags join the line, a DISCARD is
placed for each slot reported full that the line counts free, and with none the line goes IN_SERVICE, or
OUT_OF_SERVICE when its camera is not fitted or a flag is in its disable set, both by the ACTIVE bank. A
RELINK of the segment loop leads to the final try, or, for a passage in STOPPING, to a DISCARD, the drawn page
and the reservation returned. A CAMERA SENSE in progress is answered DONE OK with the line's state, the flags,
the accumulated flags, the two full marks, the shots in the slots and the readout under way (from before
linking acts on the answer: log 14; widths: log 17). Answers to no outstanding order are ignored (R115 to
R117, R122, R126, R127, R130, R131; the commands name the order they answer, log 28). -/
def Obligations.LinkingAndSenseAnswers : Prop :=
  ∀ (s : State) (c : Camera) (issued : Nat) (m : CameraLine),
    m = { s.lines[c] with outstanding := none } →
    (∀ b : State, s.lines[c].outstanding = some ⟨.relink, issued + 500000, false⟩ →
      ((∀ ch w, s.serving? c = some (ch, w) → w.step ≠ .relink) ∧ b = s.setLine c m)
        ∨ (∃ ch w p k slot, s.serving? c = some (ch, w) ∧ w.step = .relink
          ∧ s.passage? w.shot.passage = some p ∧ s.shot? w.shot = some k
          ∧ m.slotOf w.shot = some slot
          ∧ ((p.state ≠ .stopping ∧ m.orders.read = none
              ∧ b = (s.setChannel ch (some { w with step := .final })).setLine c { m with
                  orders := { m.orders with
                    read := some ⟨slot, w.segment, w.segment + 1 = k.segmentsExpected⟩ } })
            ∨ (p.state = .stopping ∧ ∃ pg, w.page = some pg
              ∧ b = (((s.setChannel ch (some { w with page := none, step := .stopping })).setLine c { m with
                  orders := m.orders.add (.discard slot) }).setMemory { (s.memory.free pg).1 with
                    reservations := s.memory.reservations.filter (fun r => r.shot != w.shot)
                    }).queueNotices (s.memory.free pg).2))) →
      (s.lines[c].linking ≠ some .relink →
        exec (.relinkComplete ⟨c, issued⟩) s = .next (b.afterOrder c).endEvent)
      ∧ (s.lines[c].linking = some .relink →
        exec (.relinkComplete ⟨c, issued⟩) s
          = .next ((b.setLine c { b.lines[c] with
              orders := { b.lines[c].orders with sense := true }, linking := some .sense }).afterOrder
                c).endEvent))
    ∧ (∀ (flags : FlagSet) (full0 full1 : Bool) (data : List Byte) (b : State),
      s.lines[c].outstanding = some ⟨.sense, issued + 50000, false⟩ →
      data = [BitVec.ofNat 8 s.lines[c].state.toCode, flags, m.accumulated ||| flags,
          if full0 then 1 else 0, if full1 then 1 else 0]
        ++ optBytes 3 (fun r : ShotRef => leBytes 2 r.passage ++ [BitVec.ofNat 8 r.shot])
            m.slots[(0 : SlotNo)]
        ++ optBytes 3 (fun r : ShotRef => leBytes 2 r.passage ++ [BitVec.ofNat 8 r.shot])
            m.slots[(1 : SlotNo)]
        ++ optBytes 4 (fun x : ChannelNo × ChannelWork => leBytes 2 x.2.shot.passage
            ++ [BitVec.ofNat 8 x.2.shot.shot, BitVec.ofNat 8 x.2.segment]) (s.serving? c) →
      ((∀ tag, s.link.inProgress ≠ some (.cameraSense tag c)) ∧ b = s)
        ∨ (∃ tag, s.link.inProgress = some (.cameraSense tag c)
          ∧ b = ({ s with link := { s.link with inProgress := none } } : State).placeAnswer tag 0x0602
              ⟨.done, .ok, data⟩) →
      (s.lines[c].linking ≠ some .sense →
        exec (.senseComplete ⟨c, issued⟩ flags full0 full1) s
          = .next ((b.setLine c { m with accumulated := m.accumulated ||| flags }).afterOrder c).endEvent)
      ∧ (s.lines[c].linking = some .sense →
        (full0 = true → m.slots[(0 : SlotNo)] ≠ none) → (full1 = true → m.slots[(1 : SlotNo)] ≠ none) →
        ∀ new, new = (if (s.activeCamera c).fitted = true ∧ flags &&& (s.activeCamera c).disableSet = 0
            then LineState.inService else .outOfService) →
        exec (.senseComplete ⟨c, issued⟩ flags full0 full1) s
          = .next (((b.setLine c { m with
                accumulated := m.accumulated ||| flags, linking := none, state := new
                disableMark := false }).queueNotice
              (.cameraState c s.lines[c].state new .linked (m.accumulated ||| flags) 0)).afterOrder
                c).endEvent)
      ∧ (s.lines[c].linking = some .sense →
        ∀ clear0 clear1, clear0 = (full0 && m.slots[(0 : SlotNo)].isNone) →
        clear1 = (full1 && m.slots[(1 : SlotNo)].isNone) → (clear0 = true ∨ clear1 = true) →
        exec (.senseComplete ⟨c, issued⟩ flags full0 full1) s
          = .next ((b.setLine c { m with
              accumulated := m.accumulated ||| flags
              orders := { m.orders with
                discard0 := m.orders.discard0 || clear0, discard1 := m.orders.discard1 || clear1 }
              linking := some (.clearing flags clear0 clear1) }).afterOrder c).endEvent))
    ∧ ((∀ ignored, s.lines[c].outstanding ≠ some ⟨.relink, issued + 500000, ignored⟩) →
      exec (.relinkComplete ⟨c, issued⟩) s = .next s)
    ∧ ((∀ ignored, s.lines[c].outstanding ≠ some ⟨.sense, issued + 50000, ignored⟩) →
      ∀ flags full0 full1, exec (.senseComplete ⟨c, issued⟩ flags full0 full1) s = .next s)

/-- The timeout of a RELINK, a DISCARD or the linking SENSE takes the line DOWN: every order dropped, both
slots free, no linking sequence; its READING shot is PARTIAL or LOST with its drawn page and reservation
returned, the HELD shots in its slots are LOST (the order of two of them: log 34), CAMERA_STATE carries the
number lost, and a CAMERA SENSE on it fails. The timeout of another SENSE answers the CAMERA SENSE in progress
with CAMERA_NO_ANSWER, and only ends the order when none is in progress. Before its end, or without an order,
it does nothing (log 3). An answer to no outstanding READ is ignored (log 28). An order that a RESTART cut off
only ends. A line whose order has ended starts the linking sequence that waited for it, whose first order
joins those that are pending, and issues the pending order of highest priority (R112, R113, R116, R124, R127,
R130, R131, R133; a READ's own timeout: `ReadFails`). -/
def Obligations.OrderTimesOut : Prop :=
  ∀ (s : State) (c : Camera),
    (s.lines[c].outstanding = none → exec (.orderTimeout c) s = .next s)
    ∧ (∀ issued, (∀ slot segment release ignored, s.lines[c].outstanding
          ≠ some ⟨.read slot segment release, issued + 50000, ignored⟩) →
      ∀ bytes check outcome flags,
        exec (.readComplete ⟨c, issued⟩ bytes check outcome flags) s = .next s)
    ∧ (∀ out, s.lines[c].outstanding = some out →
      (s.clock.elapsed < out.ends → exec (.orderTimeout c) s = .next s)
      ∧ (∀ (issued : Nat) (command : Instr), out.ignored = true →
        (command = .orderTimeout c ∧ out.ends ≤ s.clock.elapsed)
          ∨ ((∃ slot segment release, out.order = .read slot segment release)
            ∧ out.ends = issued + 50000
            ∧ ∃ bytes check outcome flags, command = .readComplete ⟨c, issued⟩ bytes check outcome flags)
          ∨ ((∃ slot, out.order = .discard slot) ∧ out.ends = issued + 50000
            ∧ command = .discardComplete ⟨c, issued⟩)
          ∨ (out.order = .sense ∧ out.ends = issued + 50000
            ∧ ∃ flags full0 full1, command = .senseComplete ⟨c, issued⟩ flags full0 full1)
          ∨ (out.order = .relink ∧ out.ends = issued + 500000 ∧ command = .relinkComplete ⟨c, issued⟩) →
        exec command s
          = .next ((s.setLine c { s.lines[c] with outstanding := none }).afterOrder c).endEvent)
      ∧ (out.ends ≤ s.clock.elapsed → out.ignored = false →
        ((out.order = .relink ∨ (∃ slot, out.order = .discard slot)
            ∨ (out.order = .sense ∧ s.lines[c].linking = some .sense)) →
          (∀ ch w, s.serving? c = some (ch, w) → s.shotState w.shot = some .reading
            ∧ ∃ slot : SlotNo, s.lines[c].slots[slot] = some w.shot) →
          (∀ r, s.lines[c].slots[(0 : SlotNo)] = some r → s.lines[c].slots[(1 : SlotNo)] ≠ some r) →
          (∀ (slot : SlotNo) (r : ShotRef), s.lines[c].slots[slot] = some r →
            s.shotState r = some .held ∨ s.shotState r = some .reading) →
          ∃ u : State, exec (.orderTimeout c) s = .next (u.afterOrder c).endEvent
            ∧ WentDown s u c .noAnswer)
        ∧ (out.order = .sense → s.lines[c].linking ≠ some .sense →
          (∀ tag, s.link.inProgress ≠ some (.cameraSense tag c)) →
          exec (.orderTimeout c) s
            = .next ((s.setLine c { s.lines[c] with outstanding := none }).afterOrder c).endEvent)
        ∧ (∀ tag, out.order = .sense → s.lines[c].linking ≠ some .sense →
          s.link.inProgress = some (.cameraSense tag c) →
          exec (.orderTimeout c) s
            = .next (((({ s with link := { s.link with inProgress := none } } : State).setLine c
                { s.lines[c] with outstanding := none }).placeAnswer tag 0x0602
                  ⟨.failed, .cameraNoAnswer, []⟩).afterOrder c).endEvent)))
    ∧ (∀ l, s.lines[c] = l → l.outstanding = none →
      (∀ (byRestart : Bool) (order : Order) (length : Nat) (rest : PendingOrders),
        l.linking = some (.waiting byRestart) →
        (byRestart = false ∧ order = .relink ∧ length = 500000
            ∧ rest = { l.orders with relink := false })
          ∨ (byRestart = true ∧ l.orders.relink = false ∧ order = .discard 0 ∧ length = 50000
            ∧ rest = { l.orders with discard0 := false })
          ∨ (byRestart = true ∧ l.orders.relink = true ∧ order = .relink ∧ length = 500000
            ∧ rest = { l.orders with relink := false, discard0 := true }) →
        s.afterOrder c = (s.setLine c { l with
          linking := some (if byRestart then .restartDiscard 0 else .relink)
          orders := rest, outstanding := some ⟨order, s.clock.elapsed + length, false⟩ }).grantAll)
      ∧ ((∀ byRestart, l.linking ≠ some (.waiting byRestart)) →
        (l.orders = .none → s.afterOrder c = s.grantAll)
        ∧ (∀ (order : Order) (length : Nat) (rest : PendingOrders),
          (l.orders.relink = true ∧ order = .relink ∧ length = 500000
              ∧ rest = { l.orders with relink := false })
            ∨ (l.orders.relink = false ∧ length = 50000
              ∧ ((l.orders.discard0 = true ∧ order = .discard 0
                  ∧ rest = { l.orders with discard0 := false })
                ∨ (l.orders.discard0 = false
                  ∧ ((l.orders.discard1 = true ∧ order = .discard 1
                      ∧ rest = { l.orders with discard1 := false })
                    ∨ (l.orders.discard1 = false
                      ∧ ((∃ o, l.orders.read = some o ∧ order = .read o.slot o.segment o.release
                          ∧ rest = { l.orders with read := none })
                        ∨ (l.orders.read = none ∧ l.orders.sense = true ∧ order = .sense
                          ∧ rest = { l.orders with sense := false }))))))) →
          s.afterOrder c = (s.setLine c { l with
            orders := rest, outstanding := some ⟨order, s.clock.elapsed + length, false⟩
            }).grantAll)))

/-! ## Frame memory (chapter 7) -/

/-- A draw takes the lowest-numbered free page and makes it held by its segment, and its shot's reservation
remainder falls by one. A freed page without a mark is free on the page it was on. A freed page with a mark
is retired: its spare becomes bad, and it goes to its preferred spare when that is usable, else to the lowest
usable spare, else OUT_OF_SERVICE, with PAGE_RETIRED and its cause, and SPARES_EXHAUSTED when none was left.
No other page and no byte changes (R137, R138, R142 to R144). -/
def Obligations.FrameMemoryPages : Prop :=
  ∀ m : FrameMemory, m.wf →
    (∀ k, m.lowestFree = some k →
      k < 8192 ∧ (m.page k).condition = .free ∧ ∀ j, j < k → (m.page j).condition ≠ .free)
    ∧ (m.lowestFree = none → ∀ j, j < 8192 → (m.page j).condition ≠ .free)
    ∧ (∀ (r : ShotRef) (segment k : Nat), m.lowestFree = some k →
      (m.draw r segment).2 = some k
      ∧ (m.draw r segment).1.page k = { m.page k with condition := .held ⟨r, segment⟩ }
      ∧ (∀ j, j ≠ k → (m.draw r segment).1.page j = m.page j)
      ∧ (∀ a, (m.draw r segment).1.byteAt a = m.byteAt a)
      ∧ (m.draw r segment).1.badSpares = m.badSpares
      ∧ ((m.reservations.map (·.shot)).Nodup →
        (m.draw r segment).1.remainder r = m.remainder r - 1
        ∧ (m.draw r segment).1.reservedCount + min 1 (m.remainder r) = m.reservedCount
        ∧ ∀ q, q ≠ r → (m.draw r segment).1.remainder q = m.remainder q))
    ∧ (∀ k, (m.page k).mark = none →
      (m.free k).2 = [] ∧ (m.free k).1.page k = { m.page k with condition := .free }
      ∧ (∀ j, j ≠ k → (m.free k).1.page j = m.page j)
      ∧ (∀ a, (m.free k).1.byteAt a = m.byteAt a)
      ∧ (m.free k).1.reservations = m.reservations ∧ (m.free k).1.badSpares = m.badSpares)
    ∧ (∀ (k : Nat) (mark : RetireMark) (p : Page) (target : Option Nat) (cause : RetireCause),
      p = m.page k → p.mark = some mark →
      (∀ sp, mark.preferred = some sp → m.usable sp = true → target = some sp) →
      (mark.preferred = none ∨ (∃ sp, mark.preferred = some sp ∧ m.usable sp = false) →
        target = m.lowestUsable) →
      cause = (if mark.byRequest = true ∧ (mark.byFetch = false ∨ mark.preferred ≠ none) then .request
        else .fetch) →
      (m.free k).1.page k = (match target with
        | some sp => ⟨.free, some sp, none⟩
        | none => ⟨.outOfService, none, none⟩)
      ∧ (∀ sp, (m.free k).1.bad sp = true ↔ m.bad sp = true ∨ p.spare = some sp)
      ∧ (m.free k).2 = .pageRetired k (p.spare.getD k) target p.spare cause
            (m.free k).1.badSpares.length
          :: (if target = none then
              [.sparesExhausted k (m.free k).1.outOfServiceCount (m.free k).1.freeCount] else [])
      ∧ (∀ j, j ≠ k → (m.free k).1.page j = m.page j)
      ∧ (∀ a, (m.free k).1.byteAt a = m.byteAt a) ∧ (m.free k).1.reservations = m.reservations)

/-- Bytes written into frame memory stand where they were written, without a wrong bit, and nothing else
changes. They read back: a word as written reads correct; one wrong bit is
corrected, so the word is delivered as written; two wrong bits make it damaged (R140, R141). Bits that go
wrong turn over just those bits of the stored bytes. -/
def Obligations.FrameMemoryWords : Prop :=
  ∀ m : FrameMemory, m.wf →
    (∀ (base : Nat) (bytes : List Byte) (n : FrameMemory), n = m.write base bytes →
      (∀ i, i < bytes.length → n.byteAt (base + i) = bytes.getD i 0)
      ∧ (∀ a, a < base ∨ base + bytes.length ≤ a → n.byteAt a = m.byteAt a)
      ∧ (∀ b, b ∈ n.wrong ↔ b ∈ m.wrong ∧ (b / 8 < base ∨ base + bytes.length ≤ b / 8))
      ∧ n.pages = m.pages ∧ n.reservations = m.reservations ∧ n.badSpares = m.badSpares ∧ n.low = m.low)
    ∧ (∀ (word : Nat) (bytes : List Byte), bytes.length = 8 →
      (m.write (word * 8) bytes).readWord word = (.correct, bytes)
      ∧ (∀ b, b / 64 = word →
          ((m.write (word * 8) bytes).upset b).readWord word = (.corrected, bytes))
      ∧ (∀ b b', b / 64 = word → b' / 64 = word → b ≠ b' →
          ((((m.write (word * 8) bytes).upset b).upset b').readWord word).1 = .damaged))
    ∧ (∀ (bits : List Nat) (a i : Nat), bits.Nodup → i < 8 →
      ((m.upsets bits).byteAt a).getLsbD i = ((m.byteAt a).getLsbD i ^^ bits.contains (a * 8 + i)))

/-! ## The gantry link's line (chapter 9) -/

/-- LINE_LOCK_GAINED takes the link UP with LINK_UP, which carries the number of notices ahead of it.
LINE_LOCK_LOST takes it DOWN: receiver, request queue, reply list and the frame being sent are dropped, the
request in progress ends, an open transaction is aborted, and a restart in progress takes effect; notices,
and without that restart every other block, keep as they were. A level the link already has is no event
(R174, R196 to R198; log 3). -/
def Obligations.LineLock : Prop :=
  ∀ s : State,
    (s.link.up = true → exec .lineLockGained s = .next s)
    ∧ (s.link.up = false → exec .lineLockLost s = .next s)
    ∧ (s.link.up = false →
      exec .lineLockGained s
        = .next (({ s with link := { s.link with up := true } } : State).queueNotice
            (.linkUp s.link.notices.length)).endEvent)
    ∧ (s.link.up = true → ∀ down : Link,
      down = ⟨false, [], [], none, [], s.link.notices, s.link.dropped, none, none⟩ →
      ((∀ b, s.link.inProgress ≠ some (.restart b)) →
        exec .lineLockLost s
          = .next (({ s with link := down } : State).abortTransaction).endEvent)
      ∧ (∀ b, s.link.inProgress = some (.restart b) →
        exec .lineLockLost s
          = .next ((({ s with link := down } : State).abortTransaction).takeRestart b).endEvent))

/-- FRAME_SENT: the item whose last byte has been sent leaves (a response, a notice, or a chunk; the last
chunk ends its fetch, and a fetch whose DONE response has been sent may start), and the oldest waiting request
is then taken when none is in progress and no response of request processing waits. With no frame being sent
nothing happens and the wrong bits are ignored too (the model's choice, log 3); a wrong bit outside frame
memory is a fault (R135, R181 to R183, R185, R186, R193; wrong bits: log 8; a restart's response:
`RestartRequest`). -/
def Obligations.FrameIsSent : Prop :=
  ∀ (s : State) (wrong : List Nat),
    ((∃ b ∈ wrong, 545259520 * 8 ≤ b) →
      ∃ b ∈ wrong, exec (.frameSent wrong) s = .fault (.outsideFrameMemory b))
    ∧ ((∀ b ∈ wrong, b < 545259520 * 8) → ∀ m, m = s.memory.upsets wrong →
      (s.link.sending = none → exec (.frameSent wrong) s = .next s)
      ∧ (∀ n rest, s.link.sending = some .notice → s.link.notices = n :: rest →
        exec (.frameSent wrong) s
          = .next (({ s with memory := m, link := { s.link with
              sending := none, lastSent := some .notice, notices := rest } } : State).takeRequest).endEvent)
      ∧ (∀ r rest, s.link.sending = some .response → s.link.replies = r :: rest →
        (r.immediate = true ∨ s.link.inProgress = none
            ∨ (∃ t c, s.link.inProgress = some (.cameraSense t c)) →
          exec (.frameSent wrong) s
            = .next (({ s with memory := m, link := { s.link with
                sending := none, lastSent := some .response
                replies := rest } } : State).takeRequest).endEvent)
        ∧ (∀ f, r.immediate = false → s.link.inProgress = some (.fetch f) →
          exec (.frameSent wrong) s
            = .next ({ s with memory := m, link := { s.link with
                sending := none, lastSent := some .response, replies := rest
                inProgress := some (.fetch { f with responseSent := true }) } } : State).endEvent))
      ∧ (∀ image, s.link.sending = some (.chunk image) →
        exec (.frameSent wrong) s
          = .next (({ s with memory := m, link := { s.link with
              sending := none, lastSent := some .imageData
              inProgress := if image.final then none else s.link.inProgress } } : State
              ).takeRequest).endEvent))
    ∧ (s.link.inProgress = none → s.link.replies.any (fun r => !r.immediate) = false →
      (s.link.requests = [] → s.takeRequest = s)
      ∧ (∀ w rest, s.link.requests = w :: rest →
        s.takeRequest
          = ({ s with link := { s.link with requests := rest } } : State).carryOut w.tag w.request))
    ∧ (s.link.inProgress ≠ none ∨ s.link.replies.any (fun r => !r.immediate) = true →
      s.takeRequest = s)

end
end

