-- ==== Sys2Proof/Laws/Memory.lean ====
section
/-! SUPPORT. The canonical form of frame memory: every memory operation keeps it, and reading one place
after a write. -/

namespace Sys2Proof.Machine

section Sparse

variable {α : Type} [DecidableEq α] {d : α}

theorem sparseWf_nil : sparseWf d ([] : List (Nat × α)) := ⟨List.Pairwise.nil, by simp⟩

theorem sparseWf_tail {e : Nat × α} {l : List (Nat × α)} (h : sparseWf d (e :: l)) : sparseWf d l :=
  ⟨(List.pairwise_cons.1 h.1).2, fun x hx => h.2 x (List.mem_cons_of_mem _ hx)⟩

/-- A key of the new list is a key of the old one or the key put. -/
theorem mem_sparsePut {l : List (Nat × α)} {k : Nat} {v : α} {e : Nat × α}
    (h : e ∈ sparsePut d l k v) : e ∈ l ∨ (e = (k, v) ∧ v ≠ d) := by
  induction l with
  | nil =>
    simp only [sparsePut] at h
    split at h <;> simp_all
  | cons x rest ih =>
    obtain ⟨j, w⟩ := x
    simp only [sparsePut] at h
    split at h
    · split at h
      · exact Or.inl h
      · rcases List.mem_cons.1 h with h | h
        · exact Or.inr ⟨h, by assumption⟩
        · exact Or.inl h
    · split at h
      · split at h
        · exact Or.inl (List.mem_cons_of_mem _ h)
        · rcases List.mem_cons.1 h with h | h
          · exact Or.inr ⟨h, by assumption⟩
          · exact Or.inl (List.mem_cons_of_mem _ h)
      · rcases List.mem_cons.1 h with h | h
        · exact Or.inl (by simp [h])
        · rcases ih h with h | h
          · exact Or.inl (by simp [h])
          · exact Or.inr h

/-- Putting a value keeps the canonical form. -/
theorem sparsePut_wf {l : List (Nat × α)} (h : sparseWf d l) (k : Nat) (v : α) :
    sparseWf d (sparsePut d l k v) := by
  refine ⟨?_, ?_⟩
  · induction l with
    | nil => simp only [sparsePut]; split <;> simp
    | cons x rest ih =>
      obtain ⟨j, w⟩ := x
      have hr := ih (sparseWf_tail h)
      obtain ⟨hp, -⟩ := h
      rw [List.pairwise_cons] at hp
      simp only [sparsePut]
      split
      · rename_i hk
        split
        · exact List.pairwise_cons.2 hp
        · refine List.pairwise_cons.2 ⟨?_, List.pairwise_cons.2 hp⟩
          intro e he
          rcases List.mem_cons.1 he with he | he
          · rw [he]; exact hk
          · have := hp.1 e he
            simp only at this ⊢; omega
      · split
        · rename_i hk
          split
          · exact hp.2
          · exact List.pairwise_cons.2 ⟨fun e he => by have := hp.1 e he; simp only at this ⊢; omega, hp.2⟩
        · refine List.pairwise_cons.2 ⟨?_, hr⟩
          intro e he
          rcases mem_sparsePut he with he | ⟨he, -⟩
          · exact hp.1 e he
          · rw [he]; simp only; omega
  · intro e he
    rcases mem_sparsePut he with he | ⟨he, hv⟩
    · exact h.2 e he
    · rw [he]; exact hv

/-- An entry of the listed values has its key in their range and is not the default. -/
theorem mem_sparseListed {vs : List α} {k : Nat} {e : Nat × α} (h : e ∈ sparseListed d k vs) :
    k ≤ e.1 ∧ e.1 < k + vs.length ∧ e.2 ≠ d := by
  induction vs generalizing k with
  | nil => simp [sparseListed] at h
  | cons v vs ih =>
    simp only [sparseListed] at h
    split at h
    · obtain ⟨h1, h2, h3⟩ := ih h
      simp only [List.length_cons]; exact ⟨by omega, by omega, h3⟩
    · rcases List.mem_cons.1 h with h | h
      · subst h; simp only [List.length_cons]; refine ⟨by omega, by omega, by assumption⟩
      · obtain ⟨h1, h2, h3⟩ := ih h
        simp only [List.length_cons]; exact ⟨by omega, by omega, h3⟩

theorem sparseListed_wf (k : Nat) (vs : List α) : sparseWf d (sparseListed d k vs) := by
  refine ⟨?_, fun e he => (mem_sparseListed he).2.2⟩
  induction vs generalizing k with
  | nil => simp [sparseListed]
  | cons v vs ih =>
    simp only [sparseListed]
    split
    · exact ih _
    · refine List.pairwise_cons.2 ⟨fun e he => ?_, ih _⟩
      have := mem_sparseListed he
      simp only; omega

/-- Writing values keeps the canonical form. -/
theorem sparseWrite_wf {l : List (Nat × α)} (h : sparseWf d l) (base : Nat) (vs : List α) :
    sparseWf d (sparseWrite d l base vs) := by
  refine ⟨?_, ?_⟩
  · simp only [sparseWrite]
    rw [List.pairwise_append, List.pairwise_append]
    refine ⟨⟨h.1.filter _, (sparseListed_wf base vs).1, ?_⟩, h.1.filter _, ?_⟩
    · intro a ha b hb
      have := mem_sparseListed hb
      simp only [List.mem_filter, decide_eq_true_eq] at ha
      omega
    · intro a ha b hb
      simp only [List.mem_filter, decide_eq_true_eq, List.mem_append] at ha hb
      rcases ha with ha | ha
      · omega
      · have := mem_sparseListed ha
        omega
  · intro e he
    simp only [sparseWrite, List.mem_append, List.mem_filter] at he
    rcases he with (he | he) | he
    · exact h.2 e he.1
    · exact (mem_sparseListed he).2.2
    · exact h.2 e he.1

/-- Reading another place after a put. -/
theorem sparseGet_sparsePut_ne {l : List (Nat × α)} (h : sparseWf d l) (k j : Nat) (v : α)
    (hj : j ≠ k) : sparseGet d (sparsePut d l k v) j = sparseGet d l j := by
  have hjk : (j == k) = false := by simpa using hj
  induction l with
  | nil => simp only [sparsePut]; split <;> simp [sparseGet, List.lookup, hjk]
  | cons x rest ih =>
    obtain ⟨i, w⟩ := x
    have ih := ih (sparseWf_tail h)
    simp only [sparsePut]
    split
    · split <;> simp [sparseGet, List.lookup, hjk]
    · split
      · rename_i hki
        subst hki
        split <;> simp [sparseGet, List.lookup, hjk]
      · simp only [sparseGet, List.lookup_cons] at ih ⊢
        split <;> simp_all

omit [DecidableEq α] in
/-- Reading a place the list does not hold. -/
theorem sparseGet_of_forall_ne {l : List (Nat × α)} {k : Nat} (h : ∀ e ∈ l, e.1 ≠ k) :
    sparseGet d l k = d := by
  induction l with
  | nil => simp [sparseGet]
  | cons x rest ih =>
    obtain ⟨j, w⟩ := x
    have hx : (k == j) = false := by simpa using (h (j, w) (by simp)).symm
    have := ih (fun e he => h e (List.mem_cons_of_mem _ he))
    simpa [sparseGet, List.lookup_cons, hx] using this

/-- Reading the place just put. -/
theorem sparseGet_sparsePut_self {l : List (Nat × α)} (h : sparseWf d l) (k : Nat) (v : α) :
    sparseGet d (sparsePut d l k v) k = v := by
  induction l with
  | nil => simp only [sparsePut]; split <;> simp_all [sparseGet, List.lookup]
  | cons x rest ih =>
    obtain ⟨j, w⟩ := x
    have ih := ih (sparseWf_tail h)
    have hp := (List.pairwise_cons.1 h.1).1
    simp only [sparsePut]
    split
    · rename_i hk
      split
      · rename_i hv
        rw [hv]
        refine sparseGet_of_forall_ne (fun e he => ?_)
        rcases List.mem_cons.1 he with he | he
        · rw [he]; simp only; omega
        · have := hp e he; simp only at this; omega
      · simp [sparseGet, List.lookup]
    · split
      · rename_i hk
        split
        · rename_i hv
          rw [hv]
          refine sparseGet_of_forall_ne (fun e he => ?_)
          have := hp e he; simp only at this; omega
        · simp [sparseGet, List.lookup]
      · rename_i h1 h2
        have hkj : (k == j) = false := by simpa using h2
        simpa [sparseGet, List.lookup_cons, hkj] using ih

omit [DecidableEq α] in
theorem lookup_filter_of_true {l : List (Nat × α)} (p : Nat → Bool) (k : Nat) (hk : p k = true) :
    (l.filter (fun e => p e.1)).lookup k = l.lookup k := by
  induction l with
  | nil => rfl
  | cons x rest ih =>
    obtain ⟨j, w⟩ := x
    by_cases hx : p j = true
    · simp only [List.filter_cons, hx, if_true, List.lookup_cons, ih]
    · have : (k == j) = false := by
        rw [beq_eq_false_iff_ne]; intro h; subst h; exact hx hk
      simp only [List.filter_cons, hx, Bool.false_eq_true, if_false, ih, List.lookup_cons, this]

omit [DecidableEq α] in
theorem lookup_append_none {l m : List (Nat × α)} {k : Nat} (h : ∀ e ∈ l, e.1 ≠ k) :
    (l ++ m).lookup k = m.lookup k := by
  induction l with
  | nil => rfl
  | cons x rest ih =>
    obtain ⟨j, w⟩ := x
    have hx : (k == j) = false := by simpa using (h (j, w) (by simp)).symm
    simp only [List.cons_append, List.lookup_cons, hx]
    exact ih (fun e he => h e (List.mem_cons_of_mem _ he))

omit [DecidableEq α] in
theorem lookup_eq_none_of_forall_ne {m : List (Nat × α)} {k : Nat} (h : ∀ e ∈ m, e.1 ≠ k) :
    m.lookup k = none := by
  simpa using lookup_append_none (m := []) h

omit [DecidableEq α] in
theorem lookup_append_right {l m : List (Nat × α)} {k : Nat} (h : ∀ e ∈ m, e.1 ≠ k) :
    (l ++ m).lookup k = l.lookup k := by
  induction l with
  | nil => simpa using lookup_eq_none_of_forall_ne h
  | cons x rest ih =>
    obtain ⟨j, w⟩ := x
    simp only [List.cons_append, List.lookup_cons, ih]

/-- Reading a place outside the values written. -/
theorem sparseGet_sparseWrite_outside {l : List (Nat × α)} (base : Nat) (vs : List α) (k : Nat)
    (hk : k < base ∨ base + vs.length ≤ k) :
    sparseGet d (sparseWrite d l base vs) k = sparseGet d l k := by
  simp only [sparseGet, sparseWrite]
  congr 1
  rcases hk with hk | hk
  · rw [List.append_assoc, lookup_append_right, lookup_filter_of_true (fun n => decide (n < base)) k (by simpa)]
    intro e he
    rcases List.mem_append.1 he with he | he
    · have := mem_sparseListed he; omega
    · simp only [List.mem_filter, decide_eq_true_eq] at he; omega
  · rw [lookup_append_none, lookup_filter_of_true (fun n => decide (base + vs.length ≤ n)) k (by simpa)]
    intro e he
    rcases List.mem_append.1 he with he | he
    · simp only [List.mem_filter, decide_eq_true_eq] at he; omega
    · have := mem_sparseListed he; omega

theorem lookup_sparseListed (k : Nat) (vs : List α) (i : Nat) (hi : i < vs.length) :
    ((sparseListed d k vs).lookup (k + i)).getD d = vs[i] := by
  induction vs generalizing k i with
  | nil => simp at hi
  | cons v vs ih =>
    cases i with
    | zero =>
      simp only [sparseListed]
      split
      · rename_i hv
        have : sparseGet d (sparseListed d (k + 1) vs) k = d :=
          sparseGet_of_forall_ne (fun e he => by have := mem_sparseListed he; omega)
        simpa [hv, sparseGet] using this
      · simp
    | succ i =>
      have h1 := ih (k + 1) i (by simpa using hi)
      have e1 : k + 1 + i = k + (i + 1) := by omega
      rw [e1] at h1
      simp only [sparseListed]
      split
      · simpa using h1
      · have : (k + (i + 1) == k) = false := by simp
        simpa [List.lookup_cons, this] using h1

/-- Reading a place among the values written. -/
theorem sparseGet_sparseWrite_inside {l : List (Nat × α)} (base : Nat) (vs : List α) (i : Nat)
    (hi : i < vs.length) : sparseGet d (sparseWrite d l base vs) (base + i) = vs[i] := by
  simp only [sparseGet, sparseWrite]
  rw [List.append_assoc, lookup_append_none, lookup_append_right]
  · exact lookup_sparseListed base vs i hi
  · intro e he
    simp only [List.mem_filter, decide_eq_true_eq] at he; omega
  · intro e he
    simp only [List.mem_filter, decide_eq_true_eq] at he; omega

end Sparse

/-! ## The page table -/

/-- The page put is the page read. -/
theorem FrameMemory.page_setPage_self {m : FrameMemory} (h : m.wf) (k : Nat) (p : Page) :
    (m.setPage k p).page k = p := sparseGet_sparsePut_self h.2 k p

/-- Every other page is as it was. -/
theorem FrameMemory.page_setPage_ne {m : FrameMemory} (h : m.wf) (k j : Nat) (p : Page) (hj : j ≠ k) :
    (m.setPage k p).page j = m.page j := sparseGet_sparsePut_ne h.2 k j p hj

theorem FrameMemory.setPage_wf {m : FrameMemory} (h : m.wf) (k : Nat) (p : Page) : (m.setPage k p).wf :=
  ⟨h.1, sparsePut_wf h.2 k p⟩

/-- A memory that differs in neither bytes nor page table is canonical with it. -/
theorem FrameMemory.wf_of_eq {m q : FrameMemory} (h : m.wf) (hc : q.cells = m.cells)
    (hp : q.pages = m.pages) : q.wf := by
  unfold FrameMemory.wf; rw [hc, hp]; exact h

theorem FrameMemory.powerUp_wf : FrameMemory.powerUp.wf := ⟨sparseWf_nil, sparseWf_nil⟩

theorem FrameMemory.reserve_wf {m : FrameMemory} (h : m.wf) (r : ShotRef) (n : Nat) : (m.reserve r n).wf :=
  h

theorem FrameMemory.lowerRemainder_wf {m : FrameMemory} (h : m.wf) (r : ShotRef) :
    (m.lowerRemainder r).wf := h

theorem FrameMemory.returnReservation_wf {m : FrameMemory} (h : m.wf) (r : ShotRef) :
    (m.returnReservation r).wf := h

theorem FrameMemory.draw_wf {m : FrameMemory} (h : m.wf) (r : ShotRef) (g : Nat) : (m.draw r g).1.wf := by
  unfold FrameMemory.draw
  split
  · exact lowerRemainder_wf (setPage_wf h _ _) r
  · exact h

theorem FrameMemory.retire_wf {m : FrameMemory} (h : m.wf) (k : Nat) (sp : Option Nat)
    (c : RetireCause) : (m.retire k sp c).1.wf := by
  have h1 : ({ m.setPage k { m.page k with spare := none } with
      badSpares := match (m.page k).spare with
        | some sp => insertRising sp m.badSpares
        | none => m.badSpares } : FrameMemory).wf := setPage_wf h k _
  unfold FrameMemory.retire
  dsimp only
  split
  · exact setPage_wf h1 _ _
  · exact setPage_wf h1 _ _

theorem FrameMemory.free_wf {m : FrameMemory} (h : m.wf) (k : Nat) : (m.free k).1.wf := by
  unfold FrameMemory.free
  split
  · exact setPage_wf h _ _
  · exact retire_wf h _ _ _

theorem FrameMemory.markByFetch_wf {m : FrameMemory} (h : m.wf) (k : Nat) : (m.markByFetch k).wf := by
  unfold FrameMemory.markByFetch
  dsimp only
  split
  · exact setPage_wf h _ _
  · exact h

/-- A page already marked keeps its mark, and the memory is as it was (R142). -/
theorem FrameMemory.markByFetch_marked {m : FrameMemory} {k : Nat} {mark : RetireMark}
    (h : (m.page k).mark = some mark) : m.markByFetch k = m := by
  simp [FrameMemory.markByFetch, h]

/-- An unmarked page takes a mark without a preferred spare (R142). -/
theorem FrameMemory.markByFetch_unmarked {m : FrameMemory} {k : Nat} (h : (m.page k).mark = none) :
    m.markByFetch k = m.setPage k { m.page k with mark := some ⟨none, true, false⟩ } := by
  simp [FrameMemory.markByFetch, h]

theorem FrameMemory.markByRequest_wf {m : FrameMemory} (h : m.wf) (k : Nat) (sp : Option Nat) :
    (m.markByRequest k sp).wf := setPage_wf h _ _

theorem FrameMemory.write_wf {m : FrameMemory} (h : m.wf) (a : Nat) (bs : List Byte) : (m.write a bs).wf :=
  ⟨sparseWrite_wf h.1 a bs, h.2⟩

theorem FrameMemory.upset_wf {m : FrameMemory} (h : m.wf) (b : Nat) : (m.upset b).wf :=
  ⟨sparsePut_wf h.1 _ _, h.2⟩

theorem FrameMemory.upsets_wf {m : FrameMemory} (h : m.wf) (bs : List Nat) : (m.upsets bs).wf := by
  induction bs generalizing m with
  | nil => exact h
  | cons b bs ih => exact ih (upset_wf h b)

theorem FrameMemory.markDamaged_wf {m : FrameMemory} (h : m.wf) (p : Option Nat) (d : Bool) :
    (m.markDamaged p d).wf := by
  unfold FrameMemory.markDamaged
  split
  · split
    · exact markByFetch_wf h _
    · exact h
  · exact h

theorem FrameMemory.returnToService_wf {m : FrameMemory} (h : m.wf) (k : Nat) (sp : Option Nat) :
    (m.returnToService k sp).wf := setPage_wf h _ _

theorem FrameMemory.pageRetire_wf {m : FrameMemory} (h : m.wf) (k : Nat) (sp : Option Nat) :
    (m.pageRetire k sp).1.wf := by
  unfold FrameMemory.pageRetire
  split
  · exact retire_wf h _ _ _
  · exact markByRequest_wf h _ _
  · exact returnToService_wf h _ _

theorem FrameMemory.restart_wf {m : FrameMemory} (h : m.wf) : m.restart.wf := by
  have : ∀ (ks : List Nat) (q : FrameMemory), q.wf → (ks.foldl (fun q k => (q.free k).1) q).wf := by
    intro ks
    induction ks with
    | nil => exact fun q hq => hq
    | cons k ks ih => exact fun q hq => ih _ (free_wf hq k)
  exact this _ m h

/-! ## Bytes -/

/-- Reading a byte just written. -/
theorem FrameMemory.byteAt_write_inside (m : FrameMemory) (base : Nat) (bs : List Byte) (i : Nat)
    (hi : i < bs.length) : (m.write base bs).byteAt (base + i) = bs[i] :=
  sparseGet_sparseWrite_inside base bs i hi

/-- Reading a byte outside those written. -/
theorem FrameMemory.byteAt_write_outside (m : FrameMemory) (base : Nat) (bs : List Byte) (a : Nat)
    (ha : a < base ∨ base + bs.length ≤ a) : (m.write base bs).byteAt a = m.byteAt a :=
  sparseGet_sparseWrite_outside base bs a ha

/-- No operation over the page table touches a byte. -/
@[simp] theorem FrameMemory.byteAt_setPage (m : FrameMemory) (k : Nat) (p : Page) (a : Nat) :
    (m.setPage k p).byteAt a = m.byteAt a := rfl

end Sys2Proof.Machine
end

