-- ==== Sys2Proof/Laws/Keeps.lean ====
section
/-! SUPPORT. What matching, planning, firing, readout, camera lines and the link's transmitter leave alone:
`Keeps s t` says that `t` has the clock, the tracks, the table banks and the waiting commands of `s`, the
same passages with the same numbers, tracks, directions and banks, open where they were open, and that
passages, memory and link are sound where they were. `Works s t` says in addition that the records differ
in their vehicles, shots, faults and settlement only, and that the receiver, the request queue and the frame
being sent are as they were. One lemma per shared operation. -/

namespace Sys2Proof.Machine

set_option Elab.async false

/-! ## One passage -/

/-- A passage before and after an operation that does not open, close or rename it. -/
structure PassageKeeps (p q : Passage) : Prop where
  number : q.number = p.number
  track : q.track = p.track
  direction : q.direction = p.direction
  bank : q.bank = p.bank
  isOpen : q.isOpen = p.isOpen
  sound : p.sound → q.sound

theorem PassageKeeps.refl (p : Passage) : PassageKeeps p p := ⟨rfl, rfl, rfl, rfl, rfl, id⟩

theorem PassageKeeps.trans {p q r : Passage} (h : PassageKeeps p q) (k : PassageKeeps q r) :
    PassageKeeps p r :=
  ⟨k.number.trans h.number, k.track.trans h.track, k.direction.trans h.direction, k.bank.trans h.bank,
    k.isOpen.trans h.isOpen, k.sound ∘ h.sound⟩

/-- Soundness looks at the axle, vehicle and shot lists and the cursor only. -/
theorem Passage.sound_of_eq {p q : Passage} (hv : q.vehicles = p.vehicles) (hc : q.cursor = p.cursor)
    (ha : q.axles = p.axles) (hs : q.shots.length = p.shots.length) (h : p.sound) : q.sound := by
  unfold Passage.sound Passage.hasRemainder at *
  rw [hv, hc, ha, hs]; exact h

theorem Passage.modifyShot_keeps (p : Passage) (k : Nat) (f : Shot → Shot) :
    PassageKeeps p (p.modifyShot k f) :=
  ⟨rfl, rfl, rfl, rfl, rfl,
    fun h => Passage.sound_of_eq (p := p) rfl rfl rfl (by simp [Passage.modifyShot]) h⟩

theorem Passage.recordFault_keeps (p : Passage) (c : FaultCode) (a k : Option Nat) :
    PassageKeeps p (p.recordFault c a k) :=
  ⟨rfl, rfl, rfl, rfl, rfl, fun h => Passage.sound_of_eq (p := p) rfl rfl rfl rfl h⟩

/-- A passage before and after matching, planning, firing or readout: only its vehicles, shots, faults and
settlement have changed. -/
structure PassageWorks (p q : Passage) : Prop extends PassageKeeps p q where
  epoch : q.epoch = p.epoch
  openTime : q.openTime = p.openTime
  tailTime : q.tailTime = p.tailTime
  clearTime : q.clearTime = p.clearTime
  axleTotal : q.axleTotal = p.axleTotal
  speed : q.speed = p.speed
  axles : q.axles = p.axles
  exitCount : q.exitCount = p.exitCount
  abandonReason : q.abandonReason = p.abandonReason
  tailWindow : q.tailWindow = p.tailWindow
  exitTimeout : q.exitTimeout = p.exitTimeout
  state : q.state = p.state ∨ (p.state = .clear ∧ q.state = .filed)
    ∨ (p.state = .stopping ∧ q.state = .abandoned)

/-- A record that keeps its passage and everything but vehicles, shots and faults. -/
theorem PassageKeeps.works {p q : Passage} (h : PassageKeeps p q) (h1 : q.epoch = p.epoch := by rfl)
    (h2 : q.openTime = p.openTime := by rfl) (h3 : q.tailTime = p.tailTime := by rfl)
    (h4 : q.clearTime = p.clearTime := by rfl) (h5 : q.axleTotal = p.axleTotal := by rfl)
    (h6 : q.speed = p.speed := by rfl) (h7 : q.axles = p.axles := by rfl)
    (h8 : q.exitCount = p.exitCount := by rfl) (h9 : q.abandonReason = p.abandonReason := by rfl)
    (h10 : q.tailWindow = p.tailWindow := by rfl) (h11 : q.exitTimeout = p.exitTimeout := by rfl)
    (h12 : q.state = p.state := by rfl) : PassageWorks p q :=
  ⟨h, h1, h2, h3, h4, h5, h6, h7, h8, h9, h10, h11, Or.inl h12⟩

theorem PassageWorks.refl (p : Passage) : PassageWorks p p := (PassageKeeps.refl p).works

theorem PassageWorks.trans {p q r : Passage} (h : PassageWorks p q) (k : PassageWorks q r) :
    PassageWorks p r := by
  refine ⟨h.toPassageKeeps.trans k.toPassageKeeps, k.epoch.trans h.epoch, k.openTime.trans h.openTime,
    k.tailTime.trans h.tailTime, k.clearTime.trans h.clearTime, k.axleTotal.trans h.axleTotal,
    k.speed.trans h.speed, k.axles.trans h.axles, k.exitCount.trans h.exitCount,
    k.abandonReason.trans h.abandonReason, k.tailWindow.trans h.tailWindow,
    k.exitTimeout.trans h.exitTimeout, ?_⟩
  rcases h.state with h1 | ⟨h1, h2⟩ | ⟨h1, h2⟩
  · rw [← h1]; exact k.state
  · rcases k.state with k1 | ⟨k1, -⟩ | ⟨k1, -⟩
    · exact Or.inr (Or.inl ⟨h1, k1.trans h2⟩)
    · rw [h2] at k1; cases k1
    · rw [h2] at k1; cases k1
  · rcases k.state with k1 | ⟨k1, -⟩ | ⟨k1, -⟩
    · exact Or.inr (Or.inr ⟨h1, k1.trans h2⟩)
    · rw [h2] at k1; cases k1
    · rw [h2] at k1; cases k1

theorem Passage.modifyShot_works (p : Passage) (k : Nat) (f : Shot → Shot) :
    PassageWorks p (p.modifyShot k f) := (p.modifyShot_keeps k f).works

theorem Passage.recordFault_works (p : Passage) (c : FaultCode) (a k : Option Nat) :
    PassageWorks p (p.recordFault c a k) := (p.recordFault_keeps c a k).works

/-! ## The list of passages -/

theorem changePassage_forall₂ {R : Passage → Passage → Prop} (hr : ∀ p, R p p) (n : Nat)
    (f : Passage → Passage) (l : List Passage)
    (h : ∀ p, l.find? (fun p => p.number == n) = some p → R p (f p)) :
    List.Forall₂ R l (changePassage n f l) := by
  induction l with
  | nil => exact List.Forall₂.nil
  | cons p ps ih =>
    unfold changePassage
    by_cases hp : p.number = n
    · rw [if_pos hp]
      refine List.Forall₂.cons (h p ?_) (List.forall₂_same.2 (fun x _ => hr x))
      simp [hp]
    · rw [if_neg hp]
      refine List.Forall₂.cons (hr p) (ih (fun q hq => h q ?_))
      have : (p.number == n) = false := by simpa using hp
      simpa [List.find?_cons, this] using hq

theorem passage?_number {s : State} {n : Nat} {p : Passage} (h : s.passage? n = some p) :
    p.number = n := by
  have := List.find?_some h
  simpa using this

theorem passage?_mem {s : State} {n : Nat} {p : Passage} (h : s.passage? n = some p) :
    p ∈ s.table.passages := List.mem_of_find?_eq_some h

/-! ## The relation -/

/-- What an operation inside an event leaves alone. -/
structure Keeps (s t : State) : Prop where
  clock : t.clock = s.clock
  tracks : t.tracks = s.tracks
  banks : t.banks = s.banks
  pending : t.pending = s.pending
  counter : t.table.nextNumber = s.table.nextNumber
  passages : List.Forall₂ PassageKeeps s.table.passages t.table.passages
  memory : s.memory.wf → t.memory.wf
  link : s.link.sound → t.link.sound
  idle : s.link.inProgress = none → t.link.inProgress = none ∧ t.link.replies = s.link.replies
  up : t.link.up = s.link.up
  received : t.link.received = s.link.received
  requests : t.link.requests = s.link.requests

theorem PassageKeeps.refl_list (l : List Passage) : List.Forall₂ PassageKeeps l l :=
  List.forall₂_same.2 (fun p _ => PassageKeeps.refl p)

theorem PassageKeeps.trans_list {l m n : List Passage} (h : List.Forall₂ PassageKeeps l m)
    (k : List.Forall₂ PassageKeeps m n) : List.Forall₂ PassageKeeps l n := by
  induction h generalizing n with
  | nil => exact k
  | cons hp _ ih =>
    cases k with
    | cons kp kt => exact List.Forall₂.cons (hp.trans kp) (ih kt)

theorem Keeps.refl (s : State) : Keeps s s :=
  ⟨rfl, rfl, rfl, rfl, rfl, PassageKeeps.refl_list _, id, id, fun h => ⟨h, rfl⟩, rfl, rfl, rfl⟩

theorem Keeps.trans {s t u : State} (h : Keeps s t) (k : Keeps t u) : Keeps s u :=
  ⟨k.clock.trans h.clock, k.tracks.trans h.tracks, k.banks.trans h.banks, k.pending.trans h.pending,
    k.counter.trans h.counter, PassageKeeps.trans_list h.passages k.passages, k.memory ∘ h.memory,
    k.link ∘ h.link,
    fun hs => ⟨(k.idle (h.idle hs).1).1, (k.idle (h.idle hs).1).2.trans (h.idle hs).2⟩,
    k.up.trans h.up, k.received.trans h.received, k.requests.trans h.requests⟩

/-- An operation that touches none of the blocks the relation speaks of. -/
theorem Keeps.inert {s t : State} (hc : t.clock = s.clock := by rfl) (ht : t.tracks = s.tracks := by rfl)
    (hb : t.banks = s.banks := by rfl) (hp : t.pending = s.pending := by rfl)
    (hq : t.table = s.table := by rfl) (hm : t.memory = s.memory := by rfl)
    (hl : t.link = s.link := by rfl) : Keeps s t :=
  ⟨hc, ht, hb, hp, by rw [hq], by rw [hq]; exact PassageKeeps.refl_list _, by rw [hm]; exact id,
    by rw [hl]; exact id, by rw [hl]; exact fun h => ⟨h, rfl⟩, by rw [hl], by rw [hl],
    by rw [hl]⟩

/-- An operation over the link alone that keeps it sound. -/
theorem Keeps.ofLink (s : State) {l : Link} (h : s.link.sound → l.sound)
    (hi : s.link.inProgress = none → l.inProgress = none ∧ l.replies = s.link.replies)
    (hu : l.up = s.link.up := by rfl) (hr : l.received = s.link.received := by rfl)
    (hq : l.requests = s.link.requests := by rfl) : Keeps s { s with link := l } :=
  ⟨rfl, rfl, rfl, rfl, rfl, PassageKeeps.refl_list _, id, h, hi, hu, hr, hq⟩

/-- An operation over memory alone that keeps it canonical. -/
theorem Keeps.setMemory (s : State) {m : FrameMemory} (h : s.memory.wf → m.wf) :
    Keeps s (s.setMemory m) :=
  ⟨rfl, rfl, rfl, rfl, rfl, PassageKeeps.refl_list _, h, id, fun h => ⟨h, rfl⟩, rfl, rfl,
    rfl⟩

theorem Keeps.modifyPassage (s : State) (n : Nat) (f : Passage → Passage)
    (h : ∀ p, s.passage? n = some p → PassageKeeps p (f p)) : Keeps s (s.modifyPassage n f) :=
  ⟨rfl, rfl, rfl, rfl, rfl, changePassage_forall₂ PassageKeeps.refl n f _ h, id, id, fun h => ⟨h, rfl⟩,
    rfl, rfl, rfl⟩

theorem Keeps.modifyShot (s : State) (r : ShotRef) (f : Shot → Shot) : Keeps s (s.modifyShot r f) :=
  Keeps.modifyPassage s _ _ (fun p _ => p.modifyShot_keeps _ f)

theorem Keeps.recordFault (s : State) (n : Nat) (c : FaultCode) (a k : Option Nat) :
    Keeps s (s.recordFault n c a k) :=
  Keeps.modifyPassage s _ _ (fun p _ => p.recordFault_keeps c a k)

theorem Keeps.foldl {α : Type} (f : State → α → State) (h : ∀ s a, Keeps s (f s a)) (l : List α)
    (s : State) : Keeps s (l.foldl f s) := by
  induction l generalizing s with
  | nil => exact Keeps.refl s
  | cons a l ih => exact (h s a).trans (ih _)

/-! ## The narrower relation -/

/-- What matching, planning, firing and readout leave alone. -/
structure Works (s t : State) : Prop extends Keeps s t where
  work : List.Forall₂ PassageWorks s.table.passages t.table.passages
  sending : t.link.sending = s.link.sending
  lastSent : t.link.lastSent = s.link.lastSent

theorem PassageWorks.refl_list (l : List Passage) : List.Forall₂ PassageWorks l l :=
  List.forall₂_same.2 (fun p _ => PassageWorks.refl p)

theorem PassageWorks.trans_list {l m n : List Passage} (h : List.Forall₂ PassageWorks l m)
    (k : List.Forall₂ PassageWorks m n) : List.Forall₂ PassageWorks l n := by
  induction h generalizing n with
  | nil => exact k
  | cons hp _ ih =>
    cases k with
    | cons kp kt => exact List.Forall₂.cons (hp.trans kp) (ih kt)

theorem Works.refl (s : State) : Works s s :=
  ⟨Keeps.refl s, PassageWorks.refl_list _, rfl, rfl⟩

theorem Works.trans {s t u : State} (h : Works s t) (k : Works t u) : Works s u :=
  ⟨h.toKeeps.trans k.toKeeps, PassageWorks.trans_list h.work k.work,
    k.sending.trans h.sending, k.lastSent.trans h.lastSent⟩

theorem Works.inert {s t : State} (hc : t.clock = s.clock := by rfl) (ht : t.tracks = s.tracks := by rfl)
    (hb : t.banks = s.banks := by rfl) (hp : t.pending = s.pending := by rfl)
    (hq : t.table = s.table := by rfl) (hm : t.memory = s.memory := by rfl)
    (hl : t.link = s.link := by rfl) : Works s t :=
  ⟨Keeps.inert hc ht hb hp hq hm hl, by rw [hq]; exact PassageWorks.refl_list _, by rw [hl],
    by rw [hl]⟩

theorem Works.setMemory (s : State) {m : FrameMemory} (h : s.memory.wf → m.wf) :
    Works s (s.setMemory m) :=
  ⟨Keeps.setMemory s h, PassageWorks.refl_list _, rfl, rfl⟩

theorem Works.modifyPassage (s : State) (n : Nat) (f : Passage → Passage)
    (h : ∀ p, s.passage? n = some p → PassageWorks p (f p)) : Works s (s.modifyPassage n f) :=
  ⟨Keeps.modifyPassage s n f (fun p hp => (h p hp).toPassageKeeps),
    changePassage_forall₂ PassageWorks.refl n f _ h, rfl, rfl⟩

theorem Works.modifyShot (s : State) (r : ShotRef) (f : Shot → Shot) : Works s (s.modifyShot r f) :=
  Works.modifyPassage s _ _ (fun p _ => p.modifyShot_works _ f)

theorem Works.recordFault (s : State) (n : Nat) (c : FaultCode) (a k : Option Nat) :
    Works s (s.recordFault n c a k) :=
  Works.modifyPassage s _ _ (fun p _ => p.recordFault_works c a k)

theorem Works.foldl {α : Type} (f : State → α → State) (h : ∀ s a, Works s (f s a)) (l : List α)
    (s : State) : Works s (l.foldl f s) := by
  induction l generalizing s with
  | nil => exact Works.refl s
  | cons a l ih => exact (h s a).trans (ih _)

/-! ## Consequences -/

theorem Keeps.numbers {s t : State} (h : Keeps s t) :
    t.table.passages.map (·.number) = s.table.passages.map (·.number) := by
  have : ∀ l m : List Passage, List.Forall₂ PassageKeeps l m →
      m.map (·.number) = l.map (·.number) := by
    intro l m hf
    induction hf with
    | nil => rfl
    | cons hp _ ih => simp [hp.number, ih]
  exact this _ _ h.passages

theorem Keeps.numbered {s t : State} (h : Keeps s t) (hs : s.numbered) : t.numbered := by
  obtain ⟨h1, h2, h3, h4⟩ := hs
  refine ⟨h.passages.length_eq ▸ h1, h.numbers ▸ h2, ?_, h.counter ▸ h4⟩
  have h5 : ∀ n ∈ s.table.passages.map (·.number), isPassageNumber n := by
    intro n hn; obtain ⟨p, hp, rfl⟩ := List.mem_map.1 hn; exact h3 p hp
  intro p hp
  exact h5 _ (h.numbers ▸ List.mem_map_of_mem hp)

theorem forall₂_mem_right {R : Passage → Passage → Prop} {l m : List Passage}
    (h : List.Forall₂ R l m) {q : Passage} (hq : q ∈ m) : ∃ p ∈ l, R p q := by
  induction h with
  | nil => simp at hq
  | cons hp _ ih =>
    rcases List.mem_cons.1 hq with rfl | hq
    · exact ⟨_, List.mem_cons_self, hp⟩
    · obtain ⟨p, hp, hr⟩ := ih hq; exact ⟨p, List.mem_cons_of_mem _ hp, hr⟩

theorem forall₂_mem_left {R : Passage → Passage → Prop} {l m : List Passage}
    (h : List.Forall₂ R l m) {p : Passage} (hp : p ∈ l) : ∃ q ∈ m, R p q := by
  induction h with
  | nil => simp at hp
  | cons hr _ ih =>
    rcases List.mem_cons.1 hp with rfl | hp
    · exact ⟨_, List.mem_cons_self, hr⟩
    · obtain ⟨q, hq, hr⟩ := ih hp; exact ⟨q, List.mem_cons_of_mem _ hq, hr⟩

theorem Keeps.passagesSound {s t : State} (h : Keeps s t) (hs : s.passagesSound) : t.passagesSound := by
  intro q hq
  obtain ⟨p, hp, hr⟩ := forall₂_mem_right h.passages hq
  exact hr.sound (hs p hp)

theorem Keeps.tracksSound {s t : State} (h : Keeps s t) (hs : s.tracksSound) : t.tracksSound := by
  unfold State.tracksSound; rw [h.tracks]; exact hs

theorem Keeps.tracksAgree {s t : State} (h : Keeps s t) (hs : s.tracksAgree) : t.tracksAgree := by
  obtain ⟨h1, h2, h3⟩ := hs
  refine ⟨?_, ?_, ?_⟩
  · intro q hq ho
    obtain ⟨p, hp, hr⟩ := forall₂_mem_right h.passages hq
    have := h1 p hp (hr.isOpen ▸ ho)
    rw [← h.tracks] at this
    simpa only [hr.track] using this
  · intro t ht
    rw [h.tracks] at ht
    obtain ⟨p, hp, hpt, ho⟩ := h2 t ht
    obtain ⟨q, hq, hr⟩ := forall₂_mem_left h.passages hp
    exact ⟨q, hq, hr.track.trans hpt, hr.isOpen.trans ho⟩
  · have : ∀ l m : List Passage, List.Forall₂ PassageKeeps l m →
        l.Pairwise (fun p q => p.isOpen = true → q.isOpen = true → p.track ≠ q.track) →
        m.Pairwise (fun p q => p.isOpen = true → q.isOpen = true → p.track ≠ q.track) := by
      intro l m hf
      induction hf with
      | nil => exact id
      | cons hp hl ih =>
        intro h3
        obtain ⟨ha, hb⟩ := List.pairwise_cons.1 h3
        refine List.pairwise_cons.2 ⟨?_, ih hb⟩
        intro q hq ho hq2
        obtain ⟨p, hpm, hr⟩ := forall₂_mem_right hl hq
        rw [hp.track, hr.track]
        exact ha p hpm (hp.isOpen ▸ ho) (hr.isOpen ▸ hq2)
    exact this _ _ h.passages h3

theorem Keeps.tracksInv {s t : State} (h : Keeps s t) (hs : s.tracksInv) : t.tracksInv :=
  ⟨h.tracksSound hs.1, h.numbered hs.2.1, h.tracksAgree hs.2.2⟩

theorem Keeps.banksSound {s t : State} (h : Keeps s t) (hs : s.banks.sound) : t.banks.sound :=
  h.banks ▸ hs

/-! ## Notices -/

theorem Works.queueNotice (s : State) (n : Notice) : Works s (s.queueNotice n) := by
  unfold State.queueNotice
  split
  · rename_i hn
    refine ⟨Keeps.ofLink s (fun h => ⟨?_, h.2⟩) (fun h => ⟨h, rfl⟩), PassageWorks.refl_list _, rfl, rfl⟩
    simp only [List.length_append, List.length_singleton]; omega
  · exact ⟨Keeps.ofLink s id (fun h => ⟨h, rfl⟩), PassageWorks.refl_list _, rfl, rfl⟩

theorem Works.queueNotices (s : State) (ns : List Notice) : Works s (s.queueNotices ns) :=
  Works.foldl _ Works.queueNotice ns s

/-! ## Blocks the relation does not speak of -/

theorem Works.setLine (s : State) (c : Camera) (l : CameraLine) : Works s (s.setLine c l) := Works.inert
theorem Works.setFire (s : State) (c : Camera) (l : FireLine) : Works s (s.setFire c l) := Works.inert
theorem Works.setStrobe (s : State) (b : StrobeNo) (k : StrobeBank) : Works s (s.setStrobe b k) :=
  Works.inert
theorem Works.setChannel (s : State) (ch : ChannelNo) (w : Option ChannelWork) :
    Works s (s.setChannel ch w) := Works.inert
theorem Works.leaveReadoutQueue (s : State) (r : ShotRef) : Works s (s.leaveReadoutQueue r) := Works.inert
theorem Works.joinReadoutQueue (s : State) (r : ShotRef) : Works s (s.joinReadoutQueue r) := Works.inert
theorem Works.leaveShotQueue (s : State) (r : ShotRef) : Works s (s.leaveShotQueue r) := Works.inert
theorem Works.joinShotQueue (s : State) (r : ShotRef) : Works s (s.joinShotQueue r) := Works.inert
theorem Works.setSlot (s : State) (c : Camera) (k : SlotNo) (r : Option ShotRef) :
    Works s (s.setSlot c k r) := Works.inert
theorem Works.pendOrder (s : State) (c : Camera) (o : Order) : Works s (s.pendOrder c o) := Works.inert
theorem Works.issueOrder (s : State) (c : Camera) : Works s (s.issueOrder c) := Works.inert
theorem Works.placeOrder (s : State) (c : Camera) (o : Order) : Works s (s.placeOrder c o) := Works.inert

/-! ## Passage table (chapter 2) -/

theorem Passage.settleAs_works {p : Passage} {st : PassageState}
    (hst : (p.state = .clear ∧ st = .filed) ∨ (p.state = .stopping ∧ st = .abandoned)) (t : GantryTime)
    (e : Byte) : PassageWorks p (p.settleAs st t e) := by
  refine ⟨⟨rfl, rfl, rfl, rfl, ?_, fun h => Passage.sound_of_eq (p := p) rfl rfl rfl rfl h⟩, rfl, rfl, rfl,
    rfl, rfl, rfl, rfl, rfl, rfl, rfl, rfl, Or.inr hst⟩
  rcases hst with ⟨hp, rfl⟩ | ⟨hp, rfl⟩ <;> simp [Passage.isOpen, Passage.settleAs, hp]

theorem Works.checkSettled (s : State) (n : Nat) : Works s (s.checkSettled n) := by
  unfold State.checkSettled
  split
  · exact Works.refl s
  · rename_i p hp
    split
    · split
      · rename_i hst
        refine (Works.modifyPassage s _ _ (fun q hq => ?_)).trans (Works.queueNotice _ _)
        obtain rfl : p = q := by rw [hp] at hq; exact Option.some.inj hq
        exact Passage.settleAs_works (Or.inl ⟨hst, rfl⟩) _ _
      · rename_i hst
        refine (Works.modifyPassage s _ _ (fun q hq => ?_)).trans (Works.queueNotice _ _)
        obtain rfl : p = q := by rw [hp] at hq; exact Option.some.inj hq
        exact Passage.settleAs_works (Or.inr ⟨hst, rfl⟩) _ _
      all_goals exact Works.refl s
    · exact Works.refl s

theorem Works.endShot (s : State) (r : ShotRef) (st : ShotState) : Works s (s.endShot r st) :=
  (Works.modifyShot s r _).trans (Works.checkSettled _ _)

/-! ## Camera lines (chapter 6) -/

theorem Works.changeLine (s : State) (c : Camera) (st : LineState) (why : LineCause) (k : Nat) :
    Works s (s.changeLine c st why k) := (Works.setLine s c _).trans (Works.queueNotice _ _)

theorem Works.beginLinking (s : State) (c : Camera) (why : LineCause) :
    Works s (s.beginLinking c why) :=
  (((Works.setLine s c _).trans (Works.changeLine _ c _ _ _)).trans (Works.setLine _ c _)).trans
    (Works.issueOrder _ c)

theorem Works.finishLinking (s : State) (c : Camera) (f : FlagSet) : Works s (s.finishLinking c f) :=
  (Works.setLine s c _).trans (Works.changeLine _ c _ _ _)

theorem Works.linkingSensed (s : State) (c : Camera) (f : FlagSet) (a b : Bool) :
    Works s (s.linkingSensed c f a b) := by
  unfold State.linkingSensed
  dsimp only
  split
  · exact Works.setLine s c _
  · exact Works.finishLinking s c f

theorem Works.linkingDiscarded (s : State) (c : Camera) (k : SlotNo) :
    Works s (s.linkingDiscarded c k) := by
  unfold State.linkingDiscarded
  dsimp only
  repeat' split
  all_goals first
    | exact Works.refl s
    | exact Works.setLine s c _
    | exact Works.finishLinking s c _

theorem Works.linkingRelinked (s : State) (c : Camera) : Works s (s.linkingRelinked c) := by
  unfold State.linkingRelinked
  dsimp only
  split
  · exact Works.setLine s c _
  · exact Works.refl s

theorem Works.linkingResumed (s : State) (c : Camera) : Works s (s.linkingResumed c) := by
  unfold State.linkingResumed
  dsimp only
  split
  · exact Works.setLine s c _
  · exact Works.refl s

/-! ## Frame memory (chapter 7) -/

theorem Works.freePage (s : State) (k : Nat) : Works s (s.freePage k) :=
  (Works.setMemory s (fun h => FrameMemory.free_wf h k)).trans (Works.queueNotices _ _)

theorem Works.freePages (s : State) (ks : List Nat) : Works s (s.freePages ks) :=
  Works.foldl _ Works.freePage ks s

theorem Works.compareLow (s : State) : Works s s.compareLow := by
  unfold State.compareLow
  dsimp only
  split
  · refine Works.trans (Works.setMemory s ?_) (Works.queueNotice _ _); exact fun h => h
  · split
    · refine Works.trans (Works.setMemory s ?_) (Works.queueNotice _ _); exact fun h => h
    · exact Works.refl s

/-! ## Readout (chapter 6) -/

theorem Works.drawPage (s : State) (r : ShotRef) (g : Nat) : Works s (s.drawPage r g).1 :=
  Works.setMemory s (fun h => FrameMemory.draw_wf h r g)

theorem Works.returnPages (s : State) (r : ShotRef) (p : Option Nat) : Works s (s.returnPages r p) := by
  unfold State.returnPages
  dsimp only
  split
  · exact (Works.freePage s _).trans (Works.setMemory _ id)
  · exact Works.setMemory s id

theorem Works.pendRead (s : State) (c : Camera) (w : ChannelWork) : Works s (s.pendRead c w) := by
  unfold State.pendRead
  split
  · exact Works.pendOrder s c _
  · exact Works.refl s

theorem Works.startSegment (s : State) (c : Camera) (ch : ChannelNo) (w : ChannelWork) :
    Works s (s.startSegment c ch w) :=
  ((Works.drawPage s _ _).trans (Works.setChannel _ ch _)).trans (Works.pendRead _ c _)

theorem Works.grant (s : State) (ch : ChannelNo) (r : ShotRef) (c : Camera) : Works s (s.grant ch r c) :=
  (((Works.leaveReadoutQueue s r).trans (Works.modifyShot _ r _)).trans (Works.startSegment _ c ch _)).trans
    (Works.issueOrder _ c)

theorem Works.grantOne (s : State) : Works s s.grantOne := by
  unfold State.grantOne
  split
  · split
    · exact Works.grant s _ _ _
    · exact Works.refl s
  · exact Works.refl s

theorem Works.grantAll (s : State) : Works s s.grantAll :=
  (((Works.grantOne s).trans (Works.grantOne _)).trans (Works.grantOne _)).trans (Works.grantOne _)

theorem Works.finishShot (s : State) (r : ShotRef) (st : ShotState) : Works s (s.finishShot r st) := by
  unfold State.finishShot
  dsimp only
  split
  · exact (Works.modifyShot s r _).trans (Works.recordFault _ _ _ _ _)
  · exact Works.modifyShot s r _

theorem Works.actOnMark (s : State) (c : Camera) : Works s (s.actOnMark c) := by
  unfold State.actOnMark
  split
  · exact Works.changeLine s c _ _ _
  · exact Works.refl s

theorem Works.endReadout (s : State) (c : Camera) (ch : ChannelNo) (r : ShotRef) (st : ShotState) :
    Works s (s.endReadout c ch r st) :=
  (((Works.finishShot s r st).trans (Works.checkSettled _ _)).trans (Works.setChannel _ ch _)).trans
    (Works.actOnMark _ c)

theorem Works.discardReadout (s : State) (c : Camera) (ch : ChannelNo) (w : ChannelWork)
    (st : ChannelStep) : Works s (s.discardReadout c ch w st) := by
  unfold State.discardReadout
  dsimp only
  split
  · exact ((Works.returnPages s _ _).trans (Works.setChannel _ ch _)).trans (Works.pendOrder _ c _)
  · exact (Works.returnPages s _ _).trans (Works.setChannel _ ch _)

/-! ## CAMERA SENSE in progress (R130) -/

theorem Link.sound_endRequest {l : Link} (h : l.sound) : ({ l with inProgress := none } : Link).sound :=
  ⟨h.1, h.2.1, h.2.2.1, h.2.2.2.1, by intro hs; simp [Link.sensing] at hs⟩

theorem Works.endRequest (s : State) : Works s s.endRequest :=
  ⟨Keeps.ofLink s Link.sound_endRequest (fun _ => ⟨rfl, rfl⟩), PassageWorks.refl_list _, rfl, rfl⟩

/-- A CAMERA SENSE is answered: its request ends and its response takes the place R182 kept for it. -/
theorem Works.answerSensing (s : State) (tag : Byte) (c : Camera) (code : BitVec 16) (a : Answer)
    (h : s.link.inProgress = some (.cameraSense tag c)) :
    Works s (s.endRequest.placeAnswer tag code a) := by
  refine ⟨Keeps.ofLink s (fun hl => ?_) (fun hn => by rw [h] at hn; cases hn), PassageWorks.refl_list _, rfl, rfl⟩
  have h0 : s.link.processingReplies = 0 := hl.2.2.2.2 (by simp [Link.sensing, h])
  refine ⟨hl.1, hl.2.1, ?_, ?_, by intro hs; simp [Link.sensing, State.endRequest] at hs⟩
  · have := hl.2.2.1
    simpa [Link.immediateReplies, State.endRequest] using this
  · simp only [Link.processingReplies] at h0
    simp [Link.processingReplies, State.endRequest, h0]

theorem Works.failSense (s : State) (c : Camera) (d : Detail) : Works s (s.failSense c d) := by
  unfold State.failSense
  split
  · rename_i tag k h
    split
    · exact Works.answerSensing s tag k _ _ h
    · exact Works.refl s
  · exact Works.refl s

theorem Works.answerSense (s : State) (c : Camera) (f : FlagSet) (a b : Bool) :
    Works s (s.answerSense c f a b) := by
  unfold State.answerSense
  split
  · rename_i tag k h
    split
    · exact Works.answerSensing s tag k _ _ h
    · exact Works.refl s
  · exact Works.refl s

/-! ## DOWN (R124) -/

theorem Works.finishReading (s : State) (c : Camera) : Works s (s.finishReading c) := by
  unfold State.finishReading
  split
  · exact Works.refl s
  · dsimp only
    split
    · exact (Works.finishShot s _ _).trans (Works.setChannel _ _ _)
    · exact ((Works.returnPages s _ _).trans (Works.finishShot _ _ _)).trans (Works.setChannel _ _ _)

theorem Works.loseHeld (s : State) (r : Option ShotRef) : Works s (s.loseHeld r) := by
  unfold State.loseHeld
  split
  · split
    · exact ((Works.leaveReadoutQueue s _).trans (Works.returnPages _ _ _)).trans (Works.finishShot _ _ _)
    · exact Works.refl s
  · exact Works.refl s

theorem Works.reportSlot (s : State) (r : Option ShotRef) : Works s (s.reportSlot r) := by
  unfold State.reportSlot
  split
  · exact Works.checkSettled s _
  · exact Works.refl s

theorem Works.goDown (s : State) (c : Camera) (why : LineCause) : Works s (s.goDown c why) := by
  unfold State.goDown
  dsimp only
  refine Works.trans ?_ (Works.failSense _ c _)
  refine Works.trans ?_ (Works.changeLine _ c _ _ _)
  refine Works.trans ?_ (Works.reportSlot _ _)
  refine Works.trans ?_ (Works.reportSlot _ _)
  refine Works.trans ?_ (Works.setSlot _ c _ _)
  refine Works.trans ?_ (Works.setSlot _ c _ _)
  refine Works.trans ?_ (Works.loseHeld _ _)
  refine Works.trans ?_ (Works.loseHeld _ _)
  exact (Works.setLine s c _).trans (Works.finishReading _ c)

/-! ## Answers and timeouts (R113 to R116, R121 to R127) -/

theorem Works.takeReadFlags (s : State) (c : Camera) (r : ShotRef) (f : FlagSet) :
    Works s (s.takeReadFlags c r f) := (Works.modifyShot s r _).trans (Works.setLine _ c _)

theorem Works.writeSegment (s : State) (w : ChannelWork) (bs : List Byte) :
    Works s (s.writeSegment w bs) := by
  unfold State.writeSegment
  split
  · exact Works.refl s
  · split
    · exact Works.setMemory s (fun h => FrameMemory.write_wf h _ _)
    · exact Works.refl s

theorem Works.attemptSucceeded (s : State) (c : Camera) (ch : ChannelNo) (w : ChannelWork) (k : SlotNo)
    (last : Bool) : Works s (s.attemptSucceeded c ch w k last) := by
  unfold State.attemptSucceeded
  dsimp only
  have h1 := Works.modifyShot s w.shot (·.storeSegment w.page)
  split
  · exact (h1.trans (Works.setSlot _ c _ _)).trans (Works.endReadout _ c ch _ _)
  · split
    · exact h1.trans (Works.discardReadout _ c ch _ _)
    · exact h1.trans (Works.startSegment _ c ch _)

theorem Works.attemptFailed (s : State) (c : Camera) (ch : ChannelNo) (w : ChannelWork) :
    Works s (s.attemptFailed c ch w) := by
  unfold State.attemptFailed
  split
  · exact Works.goDown s c _
  · split
    · exact Works.discardReadout s c ch _ _
    · split
      · dsimp only
        split
        · exact (Works.setChannel s ch _).trans (Works.pendRead _ c _)
        · exact (Works.setChannel s ch _).trans (Works.pendOrder _ c _)
      · exact Works.discardReadout s c ch _ _

theorem Works.readAnswered (s : State) (c : Camera) (k : SlotNo) (last : Bool) (bs : List Byte)
    (check : BitVec 32) (o : ReadOutcome) (f : FlagSet) :
    Works s (s.readAnswered c k last bs check o f) := by
  unfold State.readAnswered
  split
  · exact Works.refl s
  · rename_i ch w hw
    dsimp only
    have h1 := (Works.takeReadFlags s c w.shot f).trans (Works.writeSegment _ w bs)
    split
    · exact h1.trans (Works.attemptSucceeded _ c _ _ k last)
    · exact h1.trans (Works.attemptFailed _ c _ _)

theorem Works.finishDiscarded (s : State) (c : Camera) (r : ShotRef) :
    Works s (s.finishDiscarded c r) := by
  unfold State.finishDiscarded
  split
  · split
    · exact Works.endReadout s c _ r _
    · exact Works.endShot s r _
  · exact Works.endShot s r _

theorem Works.discardAnswered (s : State) (c : Camera) (k : SlotNo) :
    Works s (s.discardAnswered c k) := by
  unfold State.discardAnswered
  dsimp only
  refine Works.trans ?_ (Works.linkingDiscarded _ c k)
  split
  · exact (Works.setSlot s c k _).trans (Works.finishDiscarded _ c _)
  · exact Works.setSlot s c k _

theorem Works.relinkAnswered (s : State) (c : Camera) : Works s (s.relinkAnswered c) := by
  unfold State.relinkAnswered
  dsimp only
  refine Works.trans ?_ (Works.linkingRelinked _ c)
  split
  · split
    · split
      · exact Works.discardReadout s c _ _ _
      · exact (Works.setChannel s _ _).trans (Works.pendRead _ c _)
    · exact Works.refl s
  · exact Works.refl s

theorem Works.senseAnswered (s : State) (c : Camera) (f : FlagSet) (a b : Bool) :
    Works s (s.senseAnswered c f a b) := by
  unfold State.senseAnswered
  dsimp only
  have h1 := (Works.setLine s c (s.lines[c].takeFlags f)).trans (Works.answerSense _ c f a b)
  split
  · exact h1.trans (Works.linkingSensed _ c f a b)
  · exact h1

theorem Works.orderTimedOut (s : State) (c : Camera) (o : Order) : Works s (s.orderTimedOut c o) := by
  unfold State.orderTimedOut
  split
  · split
    · exact Works.attemptFailed s c _ _
    · exact Works.refl s
  · exact Works.goDown s c _
  · exact Works.goDown s c _
  · split
    · exact Works.goDown s c _
    · exact Works.failSense s c _

theorem Works.afterOrder (s : State) (c : Camera) : Works s (s.afterOrder c) :=
  ((Works.linkingResumed s c).trans (Works.issueOrder _ c)).trans (Works.grantAll _)

theorem Works.endOrder (s : State) (c : Camera) (out : Outstanding) (act : State → State)
    (h : ∀ q, Works q (act q)) : Works s (s.endOrder c out act) := by
  unfold State.endOrder
  dsimp only
  refine Works.trans ?_ (Works.afterOrder _ c)
  split
  · exact Works.setLine s c _
  · exact (Works.setLine s c _).trans (h _)

/-! ## Firing (chapter 5) -/

theorem Works.openFlash (s : State) (r : ShotRef) (k : Shot) (o : StrobeOutcome) :
    Works s (s.openFlash r k o) := by
  unfold State.openFlash
  split
  · exact Works.setStrobe s _ _
  all_goals exact Works.refl s

theorem Works.skipShot (s : State) (r : ShotRef) (w : SkipReason) : Works s (s.skipShot r w) :=
  (Works.modifyShot s r _).trans (Works.endShot _ r _)

theorem Works.fireShot (s : State) (r : ShotRef) (b : BankNo) (k : Shot) (o : StrobeOutcome) :
    Works s (s.fireShot r b k o) := by
  unfold State.fireShot
  dsimp only
  refine Works.trans ?_ (Works.grantAll _)
  refine Works.trans ?_ (Works.joinReadoutQueue _ r)
  refine Works.trans ?_ (Works.openFlash _ r k o)
  refine Works.trans ?_ (Works.modifyShot _ r _)
  refine Works.trans ?_ (Works.setFire _ _ _)
  have h1 : Works s (s.setMemory (s.memory.reserve r k.segmentsExpected)) :=
    Works.setMemory s (fun h => FrameMemory.reserve_wf h _ _)
  split
  · exact h1.trans (Works.setSlot _ _ _ _)
  · exact h1

theorem Works.decideShot (s : State) (r : ShotRef) : Works s (s.decideShot r) := by
  unfold State.decideShot
  split
  · split
    · exact Works.skipShot s r _
    · exact Works.fireShot s r _ _ _
  · exact Works.refl s

theorem Works.handOver (s : State) (r : ShotRef) : Works s (s.handOver r) :=
  (Works.leaveShotQueue s r).trans (Works.decideShot _ r)

/-! ## Planning (chapter 4) -/

theorem Works.afterPlacing (s : State) (r : ShotRef) (p : Placing) : Works s (s.afterPlacing r p) := by
  unfold State.afterPlacing
  split
  · exact Works.handOver s r
  · exact Works.refl s

/-- Appending a shot keeps a passage that has room for it. -/
theorem Works.appendShot (s : State) {p : Passage} (hp : s.passage? p.number = some p)
    (hl : p.shots.length < shotListPlaces) (k : Shot) : Works s (s.appendShot p.number k) := by
  refine Works.modifyPassage s _ _ (fun q hq => ?_)
  obtain rfl : p = q := by rw [hp] at hq; exact Option.some.inj hq
  refine PassageKeeps.works ⟨rfl, rfl, rfl, rfl, rfl, fun h => ⟨h.1, h.2.1, h.2.2.1, ?_, h.2.2.2.2⟩⟩
  simp only [List.length_append, List.length_singleton]; omega

theorem Works.makeShot (s : State) {p : Passage} (hp : s.passage? p.number = some p) (k : Shot) :
    Works s (s.makeShot p k) := by
  unfold State.makeShot
  split
  · rename_i hl
    dsimp only
    split
    · exact (Works.appendShot s hp hl _).trans (Works.checkSettled _ _)
    · split
      · exact ((Works.appendShot s hp hl _).trans (Works.joinShotQueue _ _)).trans
          (Works.afterPlacing _ _ _)
      · exact (Works.appendShot s hp hl _).trans (Works.skipShot _ _ _)
  · exact Works.recordFault s _ _ _ _

theorem Works.planCamera (s : State) (n v q r : Nat) (x : Int) (c : Camera) :
    Works s (s.planCamera n v q r x c) := by
  unfold State.planCamera
  split
  · exact Works.refl s
  · rename_i p hp
    dsimp only
    split
    · exact Works.makeShot s (by rw [passage?_number hp]; exact hp) _
    · exact Works.refl s

theorem Works.planPantograph (s : State) (n v q r : Nat) (x : Int) (cs : BitVec 16) :
    Works s (s.planPantograph n v q r x cs) :=
  Works.foldl _ (fun _ _ => Works.planCamera _ n v q r x _) _ s

theorem Works.retimeShot (s : State) (r : ShotRef) : Works s (s.retimeShot r) := by
  unfold State.retimeShot
  split
  · rename_i p k _ _
    split
    · dsimp only
      have h1 := (Works.leaveShotQueue s r).trans (Works.modifyShot _ r (fun _ => (s.timeShot p k).1))
      split
      · exact h1.trans (Works.checkSettled _ _)
      · exact h1.trans ((Works.joinShotQueue _ r).trans (Works.afterPlacing _ _ _))
    · exact Works.refl s
  · exact Works.refl s

theorem Works.retimeAll (s : State) (n : Nat) : Works s (s.retimeAll n) := by
  unfold State.retimeAll
  split
  · exact Works.refl s
  · exact Works.foldl _ (fun q _ => Works.retimeShot q _) _ s

/-! ## Matching (chapter 3) -/

theorem coverage_append (n : Nat) (l m : List Vehicle) :
    coverage n (l ++ m) = (coverage n l).bind (fun k => coverage k m) := by
  induction l generalizing n with
  | nil => rfl
  | cons v vs ih =>
    simp only [List.cons_append, coverage]
    split
    · exact ih _
    · rfl

/-- Growing the last entry moves the covered end. -/
theorem coverage_growLast (k n c : Nat) (l : List Vehicle) (hl : l ≠ [])
    (h : coverage k l = some c) :
    coverage k (l.modify (l.length - 1) (fun v => { v with axleCount := v.axleCount + n }))
      = some (c + n) := by
  induction l generalizing k with
  | nil => exact absurd rfl hl
  | cons v vs ih =>
    cases vs with
    | nil =>
      simp only [coverage] at h
      split at h
      · rename_i hv
        simp only [List.length_singleton, Nat.sub_self, List.modify_zero_cons, coverage, hv, if_true]
        cases h; congr 1; omega
      · cases h
    | cons w ws =>
      simp only [List.length_cons, Nat.add_sub_cancel, List.modify_succ_cons] at *
      unfold coverage at h ⊢
      split at h
      · rename_i hv
        rw [if_pos hv]
        exact ih _ (by simp) h
      · cases h

theorem any_remainder_modify (l : List Vehicle) (i n : Nat) :
    (l.modify i (fun v => { v with axleCount := v.axleCount + n })).any (fun v => v.kind == .remainder)
      = l.any (fun v => v.kind == .remainder) := by
  induction l generalizing i with
  | nil => simp
  | cons v vs ih =>
    cases i with
    | zero => simp [List.modify_zero_cons]
    | succ i => simp [List.modify_succ_cons, ih]

/-- Growing the last entry up to a stored axle keeps a passage. -/
theorem Passage.growLast_works (p : Passage) (n : Nat) (hv : p.vehicles ≠ [])
    (hn : p.cursor + n ≤ p.axles.length) : PassageWorks p (p.growLast n) := by
  refine PassageKeeps.works ⟨rfl, rfl, rfl, rfl, rfl, fun h => ⟨coverage_growLast 0 n _ _ hv h.1, hn, h.2.2.1, h.2.2.2.1,
    ?_, ?_⟩⟩
  · simpa [Passage.growLast] using h.2.2.2.2.1
  · intro hr
    have : p.hasRemainder = false := by
      unfold Passage.hasRemainder Passage.growLast at hr
      rw [any_remainder_modify] at hr; exact hr
    simpa [Passage.growLast] using h.2.2.2.2.2 this

theorem Passage.hasRemainder_append (p : Passage) (v : Vehicle) :
    (p.vehicles ++ [v]).any (fun v => v.kind == .remainder)
      = (p.hasRemainder || v.kind == .remainder) := by
  simp [Passage.hasRemainder]

/-- Appending an entry that starts at the cursor keeps a passage with room for it. -/
theorem Passage.appendVehicle_sound {p q : Passage} {v : Vehicle} (h : p.sound)
    (hq : q.vehicles = p.vehicles ++ [v]) (hf : v.firstAxle = p.cursor)
    (hc : q.cursor = p.cursor + v.axleCount) (hle : q.cursor ≤ q.axles.length)
    (ha : q.axles = p.axles) (hs : q.shots = p.shots)
    (hlen : p.vehicles.length + 1 ≤ matchedVehiclePlaces ∨
      (p.vehicles.length ≤ matchedVehiclePlaces ∧ v.kind = .remainder)) : q.sound := by
  have h5 := h.2.2.2.2
  refine ⟨?_, hle, ha ▸ h.2.2.1, hs ▸ h.2.2.2.1, ?_, ?_⟩
  · rw [hq, coverage_append, h.1, hc]
    simp [coverage, hf]
  · rw [hq, List.length_append, List.length_singleton]; omega
  · intro hr
    rw [Passage.hasRemainder, hq, Passage.hasRemainder_append] at hr
    rw [hq, List.length_append, List.length_singleton]
    rcases hlen with hlen | ⟨-, hk⟩
    · exact hlen
    · simp [hk] at hr

theorem Passage.acceptVehicle_works (p : Passage) (c : Candidate) (e : ProfileEntry)
    (hle : p.cursor + e.axles ≤ p.axles.length)
    (hlen : p.vehicles.length + 1 ≤ matchedVehiclePlaces) :
    PassageWorks p (p.acceptVehicle c e) :=
  PassageKeeps.works ⟨rfl, rfl, rfl, rfl, rfl,
    fun h => Passage.appendVehicle_sound h rfl rfl rfl hle rfl rfl (Or.inl hlen)⟩

theorem Passage.unmatchedAxle_works (p : Passage) (hle : p.cursor < p.axles.length)
    (hlen : p.vehicles.length + 1 ≤ matchedVehiclePlaces) : PassageWorks p p.unmatchedAxle := by
  unfold Passage.unmatchedAxle
  split
  · rename_i hi
    refine p.growLast_works 1 ?_ hle
    intro hn
    simp [Passage.inStretch, hn] at hi
  · refine PassageWorks.trans ?_ (Passage.recordFault_works _ _ _ _)
    exact PassageKeeps.works ⟨rfl, rfl, rfl, rfl, rfl,
      fun h => Passage.appendVehicle_sound h rfl rfl rfl hle rfl rfl (Or.inl hlen)⟩

theorem Passage.startRemainder_works (p : Passage) (hr : p.hasRemainder = false)
    (hle : p.cursor ≤ p.axles.length) : PassageWorks p p.startRemainder := by
  unfold Passage.startRemainder
  refine PassageWorks.trans ?_ (Passage.recordFault_works _ _ _ _)
  refine PassageKeeps.works ⟨rfl, rfl, rfl, rfl, rfl, fun h => ?_⟩
  refine Passage.appendVehicle_sound h rfl rfl ?_ (Nat.le_refl _) rfl rfl (Or.inr ⟨h.2.2.2.2.2 hr, rfl⟩)
  simp only; omega

/-- What fits takes stored axles. -/
theorem verdict_fits {axles : List Axle} {t : Bool} {n : Nat} {e : ProfileEntry} {o : Orientation}
    (h : verdict axles t n e o = .fits) : n + e.axles ≤ axles.length := by
  unfold verdict at h
  split at h
  · rename_i a ha
    obtain ⟨hlt, -⟩ := List.getElem?_eq_some_iff.1 ha
    omega
  · split at h
    · split at h
      · rename_i hf
        simp only [Bool.and_eq_true, decide_eq_true_eq] at hf
        omega
      · cases h
    · cases h

/-- An accepted candidate fits. -/
theorem decideAt_accept {b : Bank} {axles : List Axle} {t : Bool} {n : Nat} {c : Candidate}
    (h : decideAt b axles t n = .accept c) :
    verdict axles t n b.profiles[c.profile] c.orientation = .fits := by
  unfold decideAt at h
  generalize hf : List.findSome? _ _ = x at h
  cases x with
  | none => cases h
  | some d =>
    obtain ⟨x, -, hx⟩ := List.exists_of_findSome?_eq_some hf
    simp only [Option.getD_some] at h
    subst h
    split at hx <;> simp_all

theorem Works.handPantographs (s : State) (n v r : Nat) (c : Candidate) (e : ProfileEntry) :
    Works s (s.handPantographs n v r c e) :=
  Works.foldl _ (fun q _ => Works.planPantograph q _ _ _ _ _ _) _ s

theorem Works.acceptVehicle (s : State) {p : Passage} (hp : s.passage? p.number = some p) (c : Candidate)
    (hle : p.cursor + (s.bank p.bank).profiles[c.profile].axles ≤ p.axles.length)
    (hlen : p.vehicles.length + 1 ≤ matchedVehiclePlaces) : Works s (s.acceptVehicle p c) := by
  refine Works.trans (Works.modifyPassage s _ _ (fun q hq => ?_)) (Works.handPantographs _ _ _ _ _ _)
  obtain rfl : p = q := by rw [hp] at hq; exact Option.some.inj hq
  exact p.acceptVehicle_works c _ hle hlen

theorem Works.runMatcher (bound : Nat) (s : State) (n : Nat) : Works s (State.runMatcher bound s n) := by
  induction bound generalizing s with
  | zero => exact Works.refl s
  | succ bound ih =>
    unfold State.runMatcher
    split
    · exact Works.refl s
    · rename_i p hp
      have hn := passage?_number hp
      have same : ∀ q, s.passage? n = some q → q = p := fun q hq => by
        rw [hp] at hq; exact (Option.some.inj hq).symm
      split
      · exact Works.refl s
      · rename_i hc
        split
        · rename_i hr
          refine Works.modifyPassage s _ _ (fun q hq => ?_)
          obtain rfl := same q hq
          refine q.growLast_works _ ?_ (by omega)
          intro hv; simp [Passage.hasRemainder, hv] at hr
        · rename_i hr
          split
          · refine Works.modifyPassage s _ _ (fun q hq => ?_)
            obtain rfl := same q hq
            exact q.startRemainder_works (by simpa using hr) (by omega)
          · rename_i hm
            split
            · exact Works.refl s
            · rename_i c hd
              refine Works.trans (Works.acceptVehicle s (by rw [hn]; exact hp) c ?_ (by omega)) (ih _)
              exact verdict_fits (decideAt_accept hd)
            · refine Works.trans (Works.modifyPassage s _ _ (fun q hq => ?_)) (ih _)
              obtain rfl := same q hq
              exact q.unmatchedAxle_works (by omega) (by omega)

theorem Works.matchPassage (s : State) (n : Nat) : Works s (s.matchPassage n) := Works.runMatcher _ s n

theorem Works.matchTail (s : State) (n : Nat) : Works s (s.matchTail n) :=
  (Works.matchPassage s n).trans (Works.modifyPassage _ _ _ (fun p _ =>
    PassageKeeps.works ⟨rfl, rfl, rfl, rfl, rfl, fun h => Passage.sound_of_eq (p := p) rfl rfl rfl rfl h⟩))

/-! ## Winding down (R44, R88, R125) -/

theorem Works.discardHeld (s : State) (r : ShotRef) (c : Camera) : Works s (s.discardHeld r c) := by
  unfold State.discardHeld
  dsimp only
  refine Works.trans ((Works.leaveReadoutQueue s r).trans (Works.returnPages _ r none)) ?_
  split
  · exact Works.placeOrder _ c _
  · exact Works.refl _

theorem Works.windDownShot (s : State) (r : ShotRef) : Works s (s.windDownShot r) := by
  unfold State.windDownShot
  split
  · split
    · exact (Works.leaveShotQueue s r).trans (Works.modifyShot _ r _)
    · exact (Works.leaveShotQueue s r).trans (Works.modifyShot _ r _)
    · exact Works.discardHeld s r _
    all_goals exact Works.refl s
  · exact Works.refl s

theorem Works.windDown (s : State) (p : Passage) : Works s (s.windDown p) :=
  Works.foldl _ (fun q _ => Works.windDownShot q _) _ s

/-! ## The wider relation of the same operations -/

theorem Keeps.queueNotice (s : State) (n : Notice) : Keeps s (s.queueNotice n) :=
  (Works.queueNotice s n).toKeeps
theorem Keeps.queueNotices (s : State) (ns : List Notice) : Keeps s (s.queueNotices ns) :=
  (Works.queueNotices s ns).toKeeps
theorem Keeps.setLine (s : State) (c : Camera) (l : CameraLine) : Keeps s (s.setLine c l) :=
  (Works.setLine s c l).toKeeps
theorem Keeps.setFire (s : State) (c : Camera) (l : FireLine) : Keeps s (s.setFire c l) :=
  (Works.setFire s c l).toKeeps
theorem Keeps.setStrobe (s : State) (b : StrobeNo) (k : StrobeBank) : Keeps s (s.setStrobe b k) :=
  (Works.setStrobe s b k).toKeeps
theorem Keeps.issueOrder (s : State) (c : Camera) : Keeps s (s.issueOrder c) :=
  (Works.issueOrder s c).toKeeps
theorem Keeps.placeOrder (s : State) (c : Camera) (o : Order) : Keeps s (s.placeOrder c o) :=
  (Works.placeOrder s c o).toKeeps
theorem Keeps.changeLine (s : State) (c : Camera) (st : LineState) (why : LineCause) (k : Nat) :
    Keeps s (s.changeLine c st why k) :=
  (Works.changeLine s c st why k).toKeeps
theorem Keeps.beginLinking (s : State) (c : Camera) (why : LineCause) : Keeps s (s.beginLinking c why) :=
  (Works.beginLinking s c why).toKeeps
theorem Keeps.checkSettled (s : State) (n : Nat) : Keeps s (s.checkSettled n) :=
  (Works.checkSettled s n).toKeeps
theorem Keeps.freePages (s : State) (ks : List Nat) : Keeps s (s.freePages ks) :=
  (Works.freePages s ks).toKeeps
theorem Keeps.compareLow (s : State) : Keeps s s.compareLow :=
  (Works.compareLow s).toKeeps
theorem Keeps.endRequest (s : State) : Keeps s s.endRequest :=
  (Works.endRequest s).toKeeps
theorem Keeps.endOrder (s : State) (c : Camera) (out : Outstanding) (act : State → State)
    (h : ∀ q, Works q (act q)) : Keeps s (s.endOrder c out act) :=
  (Works.endOrder s c out act h).toKeeps
theorem Keeps.handOver (s : State) (r : ShotRef) : Keeps s (s.handOver r) :=
  (Works.handOver s r).toKeeps
theorem Keeps.matchPassage (s : State) (n : Nat) : Keeps s (s.matchPassage n) :=
  (Works.matchPassage s n).toKeeps
theorem Keeps.matchTail (s : State) (n : Nat) : Keeps s (s.matchTail n) :=
  (Works.matchTail s n).toKeeps
theorem Keeps.retimeAll (s : State) (n : Nat) : Keeps s (s.retimeAll n) :=
  (Works.retimeAll s n).toKeeps
theorem Keeps.windDown (s : State) (p : Passage) : Keeps s (s.windDown p) :=
  (Works.windDown s p).toKeeps

theorem Keeps.startTailWindow (s : State) (n : Nat) : Keeps s (s.startTailWindow n) := by
  unfold State.startTailWindow
  split
  · exact Keeps.refl s
  · exact Keeps.modifyPassage s _ _ (fun p _ =>
      ⟨rfl, rfl, rfl, rfl, rfl, fun h => Passage.sound_of_eq (p := p) rfl rfl rfl rfl h⟩)

/-! ## Axles (chapter 2) -/

theorem Passage.takeAxle_keeps (p : Passage) (a : Axle) : PassageKeeps p (p.takeAxle a) := by
  unfold Passage.takeAxle
  dsimp only
  split
  · rename_i hl
    refine ⟨rfl, rfl, rfl, rfl, rfl, fun h => ⟨h.1, ?_, ?_, h.2.2.2⟩⟩
    · have := h.2.1
      simp only [List.length_append, List.length_singleton]; omega
    · simp only [List.length_append, List.length_singleton]; omega
  · refine PassageKeeps.trans ?_ (Passage.recordFault_keeps _ _ _ _)
    exact ⟨rfl, rfl, rfl, rfl, rfl, fun h => Passage.sound_of_eq (p := p) rfl rfl rfl rfl h⟩

theorem Passage.reopen_keeps {p : Passage} (h : p.state = .tail) : PassageKeeps p p.reopen := by
  refine PassageKeeps.trans ?_ (Passage.recordFault_keeps _ _ _ _)
  exact ⟨rfl, rfl, rfl, rfl, by simp [Passage.isOpen, h],
    fun h => Passage.sound_of_eq (p := p) rfl rfl rfl rfl h⟩

theorem Passage.receiveAxle_keeps (p : Passage) (a : Axle) : PassageKeeps p (p.receiveAxle a) := by
  unfold Passage.receiveAxle
  dsimp only
  refine PassageKeeps.trans ?_ (Passage.takeAxle_keeps _ a)
  have h2 : ∀ q : Passage, PassageKeeps q (if q.state = .tail then q.reopen else q) := by
    intro q
    split
    · rename_i hq
      exact Passage.reopen_keeps hq
    · exact PassageKeeps.refl q
  refine PassageKeeps.trans ?_ (h2 _)
  split
  · exact PassageKeeps.refl p
  · exact p.recordFault_keeps _ _ _

theorem Keeps.handAxle (s : State) (p : Passage) (a : Axle) : Keeps s (s.handAxle p a) := by
  unfold State.handAxle
  dsimp only
  have h1 : Keeps s ((s.modifyPassage p.number (·.receiveAxle a)).startTailWindow p.number) :=
    (Keeps.modifyPassage s _ _ (fun q _ => q.receiveAxle_keeps a)).trans (Keeps.startTailWindow _ _)
  split
  · exact (h1.trans (Keeps.matchPassage _ _)).trans (Keeps.retimeAll _ _)
  · exact h1

theorem Passage.countExit_keeps (p : Passage) : PassageKeeps p p.countExit := by
  unfold Passage.countExit
  dsimp only
  have h1 : PassageKeeps p { p with exitCount := countUp 65535 p.exitCount } :=
    ⟨rfl, rfl, rfl, rfl, rfl, fun h => Passage.sound_of_eq (p := p) rfl rfl rfl rfl h⟩
  split
  · exact h1.trans (Passage.recordFault_keeps _ _ _ _)
  · exact h1

theorem Passage.enterTail_keeps {p : Passage} (h : p.isOpen = true) (t : GantryTime) (e : Nat) :
    PassageKeeps p (p.enterTail t e) :=
  ⟨rfl, rfl, rfl, rfl, by rw [h]; rfl, fun h => Passage.sound_of_eq (p := p) rfl rfl rfl rfl h⟩

/-! ## The transmitter (R185) and the close of an event -/

theorem Keeps.sendChunk (s : State) (f : Fetch) (hi : s.link.inProgress ≠ none) :
    Keeps s (s.sendChunk f) := by
  unfold State.sendChunk
  dsimp only
  refine Keeps.trans ((Keeps.setMemory s (fun h => FrameMemory.markDamaged_wf h _ _)).trans
    (Keeps.modifyShot _ _ _)) (Keeps.ofLink _ (fun h => ?_) (fun h => absurd h hi))
  exact ⟨h.1, h.2.1, h.2.2.1, h.2.2.2.1, by intro hs; simp [Link.sensing] at hs⟩

theorem Keeps.sendNotice (s : State) : Keeps s s.sendNotice := by
  unfold State.sendNotice
  split
  · exact Keeps.refl s
  · rename_i n rest hn
    refine Keeps.ofLink s (fun h => ⟨?_, h.2⟩) (fun h => ⟨h, rfl⟩)
    have := h.1
    rw [hn] at this
    simpa using this

theorem Keeps.arbitrate (s : State) : Keeps s s.arbitrate := by
  unfold State.arbitrate
  split
  · split
    · exact Keeps.sendNotice s
    · split
      · exact Keeps.ofLink s id (fun h => ⟨h, rfl⟩)
      · split
        · rename_i f hf
          exact Keeps.sendChunk s f (by intro hn; simp [hn] at hf)
        · exact Keeps.sendNotice s
  · exact Keeps.refl s

theorem Keeps.endEvent (s : State) : Keeps s s.endEvent := (Keeps.compareLow s).trans (Keeps.arbitrate _)

end Sys2Proof.Machine
end

