-- ==== Sys2Proof/Laws/State.lean ====
section
/-! SUPPORT. The fields of the state after each basic update: the ones it does not touch, and the one it
writes. All are true by rfl, so that no later proof unfolds a record update. -/

namespace Sys2Proof.Machine

@[simp] theorem State.setTrack_clock (s : State) (t : Track) (m : TrackMonitor) :
    (s.setTrack t m).clock = s.clock := rfl
@[simp] theorem State.setTrack_table (s : State) (t : Track) (m : TrackMonitor) :
    (s.setTrack t m).table = s.table := rfl
@[simp] theorem State.setTrack_shotQueue (s : State) (t : Track) (m : TrackMonitor) :
    (s.setTrack t m).shotQueue = s.shotQueue := rfl
@[simp] theorem State.setTrack_fire (s : State) (t : Track) (m : TrackMonitor) :
    (s.setTrack t m).fire = s.fire := rfl
@[simp] theorem State.setTrack_strobes (s : State) (t : Track) (m : TrackMonitor) :
    (s.setTrack t m).strobes = s.strobes := rfl
@[simp] theorem State.setTrack_lines (s : State) (t : Track) (m : TrackMonitor) :
    (s.setTrack t m).lines = s.lines := rfl
@[simp] theorem State.setTrack_readout (s : State) (t : Track) (m : TrackMonitor) :
    (s.setTrack t m).readout = s.readout := rfl
@[simp] theorem State.setTrack_memory (s : State) (t : Track) (m : TrackMonitor) :
    (s.setTrack t m).memory = s.memory := rfl
@[simp] theorem State.setTrack_banks (s : State) (t : Track) (m : TrackMonitor) :
    (s.setTrack t m).banks = s.banks := rfl
@[simp] theorem State.setTrack_link (s : State) (t : Track) (m : TrackMonitor) :
    (s.setTrack t m).link = s.link := rfl
@[simp] theorem State.setTrack_pending (s : State) (t : Track) (m : TrackMonitor) :
    (s.setTrack t m).pending = s.pending := rfl

@[simp] theorem State.setLine_clock (s : State) (c : Camera) (l : CameraLine) :
    (s.setLine c l).clock = s.clock := rfl
@[simp] theorem State.setLine_tracks (s : State) (c : Camera) (l : CameraLine) :
    (s.setLine c l).tracks = s.tracks := rfl
@[simp] theorem State.setLine_table (s : State) (c : Camera) (l : CameraLine) :
    (s.setLine c l).table = s.table := rfl
@[simp] theorem State.setLine_shotQueue (s : State) (c : Camera) (l : CameraLine) :
    (s.setLine c l).shotQueue = s.shotQueue := rfl
@[simp] theorem State.setLine_fire (s : State) (c : Camera) (l : CameraLine) :
    (s.setLine c l).fire = s.fire := rfl
@[simp] theorem State.setLine_strobes (s : State) (c : Camera) (l : CameraLine) :
    (s.setLine c l).strobes = s.strobes := rfl
@[simp] theorem State.setLine_readout (s : State) (c : Camera) (l : CameraLine) :
    (s.setLine c l).readout = s.readout := rfl
@[simp] theorem State.setLine_memory (s : State) (c : Camera) (l : CameraLine) :
    (s.setLine c l).memory = s.memory := rfl
@[simp] theorem State.setLine_banks (s : State) (c : Camera) (l : CameraLine) :
    (s.setLine c l).banks = s.banks := rfl
@[simp] theorem State.setLine_link (s : State) (c : Camera) (l : CameraLine) :
    (s.setLine c l).link = s.link := rfl
@[simp] theorem State.setLine_pending (s : State) (c : Camera) (l : CameraLine) :
    (s.setLine c l).pending = s.pending := rfl

@[simp] theorem State.setFire_clock (s : State) (c : Camera) (f : FireLine) :
    (s.setFire c f).clock = s.clock := rfl
@[simp] theorem State.setFire_tracks (s : State) (c : Camera) (f : FireLine) :
    (s.setFire c f).tracks = s.tracks := rfl
@[simp] theorem State.setFire_table (s : State) (c : Camera) (f : FireLine) :
    (s.setFire c f).table = s.table := rfl
@[simp] theorem State.setFire_shotQueue (s : State) (c : Camera) (f : FireLine) :
    (s.setFire c f).shotQueue = s.shotQueue := rfl
@[simp] theorem State.setFire_strobes (s : State) (c : Camera) (f : FireLine) :
    (s.setFire c f).strobes = s.strobes := rfl
@[simp] theorem State.setFire_lines (s : State) (c : Camera) (f : FireLine) :
    (s.setFire c f).lines = s.lines := rfl
@[simp] theorem State.setFire_readout (s : State) (c : Camera) (f : FireLine) :
    (s.setFire c f).readout = s.readout := rfl
@[simp] theorem State.setFire_memory (s : State) (c : Camera) (f : FireLine) :
    (s.setFire c f).memory = s.memory := rfl
@[simp] theorem State.setFire_banks (s : State) (c : Camera) (f : FireLine) :
    (s.setFire c f).banks = s.banks := rfl
@[simp] theorem State.setFire_link (s : State) (c : Camera) (f : FireLine) :
    (s.setFire c f).link = s.link := rfl
@[simp] theorem State.setFire_pending (s : State) (c : Camera) (f : FireLine) :
    (s.setFire c f).pending = s.pending := rfl

@[simp] theorem State.setStrobe_clock (s : State) (b : StrobeNo) (k : StrobeBank) :
    (s.setStrobe b k).clock = s.clock := rfl
@[simp] theorem State.setStrobe_tracks (s : State) (b : StrobeNo) (k : StrobeBank) :
    (s.setStrobe b k).tracks = s.tracks := rfl
@[simp] theorem State.setStrobe_table (s : State) (b : StrobeNo) (k : StrobeBank) :
    (s.setStrobe b k).table = s.table := rfl
@[simp] theorem State.setStrobe_shotQueue (s : State) (b : StrobeNo) (k : StrobeBank) :
    (s.setStrobe b k).shotQueue = s.shotQueue := rfl
@[simp] theorem State.setStrobe_fire (s : State) (b : StrobeNo) (k : StrobeBank) :
    (s.setStrobe b k).fire = s.fire := rfl
@[simp] theorem State.setStrobe_lines (s : State) (b : StrobeNo) (k : StrobeBank) :
    (s.setStrobe b k).lines = s.lines := rfl
@[simp] theorem State.setStrobe_readout (s : State) (b : StrobeNo) (k : StrobeBank) :
    (s.setStrobe b k).readout = s.readout := rfl
@[simp] theorem State.setStrobe_memory (s : State) (b : StrobeNo) (k : StrobeBank) :
    (s.setStrobe b k).memory = s.memory := rfl
@[simp] theorem State.setStrobe_banks (s : State) (b : StrobeNo) (k : StrobeBank) :
    (s.setStrobe b k).banks = s.banks := rfl
@[simp] theorem State.setStrobe_link (s : State) (b : StrobeNo) (k : StrobeBank) :
    (s.setStrobe b k).link = s.link := rfl
@[simp] theorem State.setStrobe_pending (s : State) (b : StrobeNo) (k : StrobeBank) :
    (s.setStrobe b k).pending = s.pending := rfl

@[simp] theorem State.setChannel_clock (s : State) (ch : ChannelNo) (w : Option ChannelWork) :
    (s.setChannel ch w).clock = s.clock := rfl
@[simp] theorem State.setChannel_tracks (s : State) (ch : ChannelNo) (w : Option ChannelWork) :
    (s.setChannel ch w).tracks = s.tracks := rfl
@[simp] theorem State.setChannel_table (s : State) (ch : ChannelNo) (w : Option ChannelWork) :
    (s.setChannel ch w).table = s.table := rfl
@[simp] theorem State.setChannel_shotQueue (s : State) (ch : ChannelNo) (w : Option ChannelWork) :
    (s.setChannel ch w).shotQueue = s.shotQueue := rfl
@[simp] theorem State.setChannel_fire (s : State) (ch : ChannelNo) (w : Option ChannelWork) :
    (s.setChannel ch w).fire = s.fire := rfl
@[simp] theorem State.setChannel_strobes (s : State) (ch : ChannelNo) (w : Option ChannelWork) :
    (s.setChannel ch w).strobes = s.strobes := rfl
@[simp] theorem State.setChannel_lines (s : State) (ch : ChannelNo) (w : Option ChannelWork) :
    (s.setChannel ch w).lines = s.lines := rfl
@[simp] theorem State.setChannel_memory (s : State) (ch : ChannelNo) (w : Option ChannelWork) :
    (s.setChannel ch w).memory = s.memory := rfl
@[simp] theorem State.setChannel_banks (s : State) (ch : ChannelNo) (w : Option ChannelWork) :
    (s.setChannel ch w).banks = s.banks := rfl
@[simp] theorem State.setChannel_link (s : State) (ch : ChannelNo) (w : Option ChannelWork) :
    (s.setChannel ch w).link = s.link := rfl
@[simp] theorem State.setChannel_pending (s : State) (ch : ChannelNo) (w : Option ChannelWork) :
    (s.setChannel ch w).pending = s.pending := rfl

@[simp] theorem State.setMemory_clock (s : State) (m : FrameMemory) :
    (s.setMemory m).clock = s.clock := rfl
@[simp] theorem State.setMemory_tracks (s : State) (m : FrameMemory) :
    (s.setMemory m).tracks = s.tracks := rfl
@[simp] theorem State.setMemory_table (s : State) (m : FrameMemory) :
    (s.setMemory m).table = s.table := rfl
@[simp] theorem State.setMemory_shotQueue (s : State) (m : FrameMemory) :
    (s.setMemory m).shotQueue = s.shotQueue := rfl
@[simp] theorem State.setMemory_fire (s : State) (m : FrameMemory) :
    (s.setMemory m).fire = s.fire := rfl
@[simp] theorem State.setMemory_strobes (s : State) (m : FrameMemory) :
    (s.setMemory m).strobes = s.strobes := rfl
@[simp] theorem State.setMemory_lines (s : State) (m : FrameMemory) :
    (s.setMemory m).lines = s.lines := rfl
@[simp] theorem State.setMemory_readout (s : State) (m : FrameMemory) :
    (s.setMemory m).readout = s.readout := rfl
@[simp] theorem State.setMemory_banks (s : State) (m : FrameMemory) :
    (s.setMemory m).banks = s.banks := rfl
@[simp] theorem State.setMemory_link (s : State) (m : FrameMemory) :
    (s.setMemory m).link = s.link := rfl
@[simp] theorem State.setMemory_pending (s : State) (m : FrameMemory) :
    (s.setMemory m).pending = s.pending := rfl

@[simp] theorem State.modifyPassage_clock (s : State) (n : Nat) (f : Passage → Passage) :
    (s.modifyPassage n f).clock = s.clock := rfl
@[simp] theorem State.modifyPassage_tracks (s : State) (n : Nat) (f : Passage → Passage) :
    (s.modifyPassage n f).tracks = s.tracks := rfl
@[simp] theorem State.modifyPassage_shotQueue (s : State) (n : Nat) (f : Passage → Passage) :
    (s.modifyPassage n f).shotQueue = s.shotQueue := rfl
@[simp] theorem State.modifyPassage_fire (s : State) (n : Nat) (f : Passage → Passage) :
    (s.modifyPassage n f).fire = s.fire := rfl
@[simp] theorem State.modifyPassage_strobes (s : State) (n : Nat) (f : Passage → Passage) :
    (s.modifyPassage n f).strobes = s.strobes := rfl
@[simp] theorem State.modifyPassage_lines (s : State) (n : Nat) (f : Passage → Passage) :
    (s.modifyPassage n f).lines = s.lines := rfl
@[simp] theorem State.modifyPassage_readout (s : State) (n : Nat) (f : Passage → Passage) :
    (s.modifyPassage n f).readout = s.readout := rfl
@[simp] theorem State.modifyPassage_memory (s : State) (n : Nat) (f : Passage → Passage) :
    (s.modifyPassage n f).memory = s.memory := rfl
@[simp] theorem State.modifyPassage_banks (s : State) (n : Nat) (f : Passage → Passage) :
    (s.modifyPassage n f).banks = s.banks := rfl
@[simp] theorem State.modifyPassage_link (s : State) (n : Nat) (f : Passage → Passage) :
    (s.modifyPassage n f).link = s.link := rfl
@[simp] theorem State.modifyPassage_pending (s : State) (n : Nat) (f : Passage → Passage) :
    (s.modifyPassage n f).pending = s.pending := rfl

@[simp] theorem State.modifyShot_clock (s : State) (r : ShotRef) (f : Shot → Shot) :
    (s.modifyShot r f).clock = s.clock := rfl
@[simp] theorem State.modifyShot_tracks (s : State) (r : ShotRef) (f : Shot → Shot) :
    (s.modifyShot r f).tracks = s.tracks := rfl
@[simp] theorem State.modifyShot_shotQueue (s : State) (r : ShotRef) (f : Shot → Shot) :
    (s.modifyShot r f).shotQueue = s.shotQueue := rfl
@[simp] theorem State.modifyShot_fire (s : State) (r : ShotRef) (f : Shot → Shot) :
    (s.modifyShot r f).fire = s.fire := rfl
@[simp] theorem State.modifyShot_strobes (s : State) (r : ShotRef) (f : Shot → Shot) :
    (s.modifyShot r f).strobes = s.strobes := rfl
@[simp] theorem State.modifyShot_lines (s : State) (r : ShotRef) (f : Shot → Shot) :
    (s.modifyShot r f).lines = s.lines := rfl
@[simp] theorem State.modifyShot_readout (s : State) (r : ShotRef) (f : Shot → Shot) :
    (s.modifyShot r f).readout = s.readout := rfl
@[simp] theorem State.modifyShot_memory (s : State) (r : ShotRef) (f : Shot → Shot) :
    (s.modifyShot r f).memory = s.memory := rfl
@[simp] theorem State.modifyShot_banks (s : State) (r : ShotRef) (f : Shot → Shot) :
    (s.modifyShot r f).banks = s.banks := rfl
@[simp] theorem State.modifyShot_link (s : State) (r : ShotRef) (f : Shot → Shot) :
    (s.modifyShot r f).link = s.link := rfl
@[simp] theorem State.modifyShot_pending (s : State) (r : ShotRef) (f : Shot → Shot) :
    (s.modifyShot r f).pending = s.pending := rfl

@[simp] theorem State.recordFault_clock (s : State) (n : Nat) (code : FaultCode) (axle shot : Option Nat) :
    (s.recordFault n code axle shot).clock = s.clock := rfl
@[simp] theorem State.recordFault_tracks (s : State) (n : Nat) (code : FaultCode) (axle shot : Option Nat) :
    (s.recordFault n code axle shot).tracks = s.tracks := rfl
@[simp] theorem State.recordFault_shotQueue (s : State) (n : Nat) (code : FaultCode) (axle shot : Option Nat) :
    (s.recordFault n code axle shot).shotQueue = s.shotQueue := rfl
@[simp] theorem State.recordFault_fire (s : State) (n : Nat) (code : FaultCode) (axle shot : Option Nat) :
    (s.recordFault n code axle shot).fire = s.fire := rfl
@[simp] theorem State.recordFault_strobes (s : State) (n : Nat) (code : FaultCode) (axle shot : Option Nat) :
    (s.recordFault n code axle shot).strobes = s.strobes := rfl
@[simp] theorem State.recordFault_lines (s : State) (n : Nat) (code : FaultCode) (axle shot : Option Nat) :
    (s.recordFault n code axle shot).lines = s.lines := rfl
@[simp] theorem State.recordFault_readout (s : State) (n : Nat) (code : FaultCode) (axle shot : Option Nat) :
    (s.recordFault n code axle shot).readout = s.readout := rfl
@[simp] theorem State.recordFault_memory (s : State) (n : Nat) (code : FaultCode) (axle shot : Option Nat) :
    (s.recordFault n code axle shot).memory = s.memory := rfl
@[simp] theorem State.recordFault_banks (s : State) (n : Nat) (code : FaultCode) (axle shot : Option Nat) :
    (s.recordFault n code axle shot).banks = s.banks := rfl
@[simp] theorem State.recordFault_link (s : State) (n : Nat) (code : FaultCode) (axle shot : Option Nat) :
    (s.recordFault n code axle shot).link = s.link := rfl
@[simp] theorem State.recordFault_pending (s : State) (n : Nat) (code : FaultCode) (axle shot : Option Nat) :
    (s.recordFault n code axle shot).pending = s.pending := rfl

@[simp] theorem State.setBankState_clock (s : State) (b : BankNo) (st : BankState) :
    (s.setBankState b st).clock = s.clock := rfl
@[simp] theorem State.setBankState_tracks (s : State) (b : BankNo) (st : BankState) :
    (s.setBankState b st).tracks = s.tracks := rfl
@[simp] theorem State.setBankState_table (s : State) (b : BankNo) (st : BankState) :
    (s.setBankState b st).table = s.table := rfl
@[simp] theorem State.setBankState_shotQueue (s : State) (b : BankNo) (st : BankState) :
    (s.setBankState b st).shotQueue = s.shotQueue := rfl
@[simp] theorem State.setBankState_fire (s : State) (b : BankNo) (st : BankState) :
    (s.setBankState b st).fire = s.fire := rfl
@[simp] theorem State.setBankState_strobes (s : State) (b : BankNo) (st : BankState) :
    (s.setBankState b st).strobes = s.strobes := rfl
@[simp] theorem State.setBankState_lines (s : State) (b : BankNo) (st : BankState) :
    (s.setBankState b st).lines = s.lines := rfl
@[simp] theorem State.setBankState_readout (s : State) (b : BankNo) (st : BankState) :
    (s.setBankState b st).readout = s.readout := rfl
@[simp] theorem State.setBankState_memory (s : State) (b : BankNo) (st : BankState) :
    (s.setBankState b st).memory = s.memory := rfl
@[simp] theorem State.setBankState_link (s : State) (b : BankNo) (st : BankState) :
    (s.setBankState b st).link = s.link := rfl
@[simp] theorem State.setBankState_pending (s : State) (b : BankNo) (st : BankState) :
    (s.setBankState b st).pending = s.pending := rfl

@[simp] theorem State.setSlot_clock (s : State) (c : Camera) (slot : SlotNo) (r : Option ShotRef) :
    (s.setSlot c slot r).clock = s.clock := rfl
@[simp] theorem State.setSlot_tracks (s : State) (c : Camera) (slot : SlotNo) (r : Option ShotRef) :
    (s.setSlot c slot r).tracks = s.tracks := rfl
@[simp] theorem State.setSlot_table (s : State) (c : Camera) (slot : SlotNo) (r : Option ShotRef) :
    (s.setSlot c slot r).table = s.table := rfl
@[simp] theorem State.setSlot_shotQueue (s : State) (c : Camera) (slot : SlotNo) (r : Option ShotRef) :
    (s.setSlot c slot r).shotQueue = s.shotQueue := rfl
@[simp] theorem State.setSlot_fire (s : State) (c : Camera) (slot : SlotNo) (r : Option ShotRef) :
    (s.setSlot c slot r).fire = s.fire := rfl
@[simp] theorem State.setSlot_strobes (s : State) (c : Camera) (slot : SlotNo) (r : Option ShotRef) :
    (s.setSlot c slot r).strobes = s.strobes := rfl
@[simp] theorem State.setSlot_readout (s : State) (c : Camera) (slot : SlotNo) (r : Option ShotRef) :
    (s.setSlot c slot r).readout = s.readout := rfl
@[simp] theorem State.setSlot_memory (s : State) (c : Camera) (slot : SlotNo) (r : Option ShotRef) :
    (s.setSlot c slot r).memory = s.memory := rfl
@[simp] theorem State.setSlot_banks (s : State) (c : Camera) (slot : SlotNo) (r : Option ShotRef) :
    (s.setSlot c slot r).banks = s.banks := rfl
@[simp] theorem State.setSlot_link (s : State) (c : Camera) (slot : SlotNo) (r : Option ShotRef) :
    (s.setSlot c slot r).link = s.link := rfl
@[simp] theorem State.setSlot_pending (s : State) (c : Camera) (slot : SlotNo) (r : Option ShotRef) :
    (s.setSlot c slot r).pending = s.pending := rfl

@[simp] theorem State.pendOrder_clock (s : State) (c : Camera) (o : Order) :
    (s.pendOrder c o).clock = s.clock := rfl
@[simp] theorem State.pendOrder_tracks (s : State) (c : Camera) (o : Order) :
    (s.pendOrder c o).tracks = s.tracks := rfl
@[simp] theorem State.pendOrder_table (s : State) (c : Camera) (o : Order) :
    (s.pendOrder c o).table = s.table := rfl
@[simp] theorem State.pendOrder_shotQueue (s : State) (c : Camera) (o : Order) :
    (s.pendOrder c o).shotQueue = s.shotQueue := rfl
@[simp] theorem State.pendOrder_fire (s : State) (c : Camera) (o : Order) :
    (s.pendOrder c o).fire = s.fire := rfl
@[simp] theorem State.pendOrder_strobes (s : State) (c : Camera) (o : Order) :
    (s.pendOrder c o).strobes = s.strobes := rfl
@[simp] theorem State.pendOrder_readout (s : State) (c : Camera) (o : Order) :
    (s.pendOrder c o).readout = s.readout := rfl
@[simp] theorem State.pendOrder_memory (s : State) (c : Camera) (o : Order) :
    (s.pendOrder c o).memory = s.memory := rfl
@[simp] theorem State.pendOrder_banks (s : State) (c : Camera) (o : Order) :
    (s.pendOrder c o).banks = s.banks := rfl
@[simp] theorem State.pendOrder_link (s : State) (c : Camera) (o : Order) :
    (s.pendOrder c o).link = s.link := rfl
@[simp] theorem State.pendOrder_pending (s : State) (c : Camera) (o : Order) :
    (s.pendOrder c o).pending = s.pending := rfl

@[simp] theorem State.issueOrder_clock (s : State) (c : Camera) :
    (s.issueOrder c).clock = s.clock := rfl
@[simp] theorem State.issueOrder_tracks (s : State) (c : Camera) :
    (s.issueOrder c).tracks = s.tracks := rfl
@[simp] theorem State.issueOrder_table (s : State) (c : Camera) :
    (s.issueOrder c).table = s.table := rfl
@[simp] theorem State.issueOrder_shotQueue (s : State) (c : Camera) :
    (s.issueOrder c).shotQueue = s.shotQueue := rfl
@[simp] theorem State.issueOrder_fire (s : State) (c : Camera) :
    (s.issueOrder c).fire = s.fire := rfl
@[simp] theorem State.issueOrder_strobes (s : State) (c : Camera) :
    (s.issueOrder c).strobes = s.strobes := rfl
@[simp] theorem State.issueOrder_readout (s : State) (c : Camera) :
    (s.issueOrder c).readout = s.readout := rfl
@[simp] theorem State.issueOrder_memory (s : State) (c : Camera) :
    (s.issueOrder c).memory = s.memory := rfl
@[simp] theorem State.issueOrder_banks (s : State) (c : Camera) :
    (s.issueOrder c).banks = s.banks := rfl
@[simp] theorem State.issueOrder_link (s : State) (c : Camera) :
    (s.issueOrder c).link = s.link := rfl
@[simp] theorem State.issueOrder_pending (s : State) (c : Camera) :
    (s.issueOrder c).pending = s.pending := rfl

@[simp] theorem State.placeOrder_clock (s : State) (c : Camera) (o : Order) :
    (s.placeOrder c o).clock = s.clock := rfl
@[simp] theorem State.placeOrder_tracks (s : State) (c : Camera) (o : Order) :
    (s.placeOrder c o).tracks = s.tracks := rfl
@[simp] theorem State.placeOrder_table (s : State) (c : Camera) (o : Order) :
    (s.placeOrder c o).table = s.table := rfl
@[simp] theorem State.placeOrder_shotQueue (s : State) (c : Camera) (o : Order) :
    (s.placeOrder c o).shotQueue = s.shotQueue := rfl
@[simp] theorem State.placeOrder_fire (s : State) (c : Camera) (o : Order) :
    (s.placeOrder c o).fire = s.fire := rfl
@[simp] theorem State.placeOrder_strobes (s : State) (c : Camera) (o : Order) :
    (s.placeOrder c o).strobes = s.strobes := rfl
@[simp] theorem State.placeOrder_readout (s : State) (c : Camera) (o : Order) :
    (s.placeOrder c o).readout = s.readout := rfl
@[simp] theorem State.placeOrder_memory (s : State) (c : Camera) (o : Order) :
    (s.placeOrder c o).memory = s.memory := rfl
@[simp] theorem State.placeOrder_banks (s : State) (c : Camera) (o : Order) :
    (s.placeOrder c o).banks = s.banks := rfl
@[simp] theorem State.placeOrder_link (s : State) (c : Camera) (o : Order) :
    (s.placeOrder c o).link = s.link := rfl
@[simp] theorem State.placeOrder_pending (s : State) (c : Camera) (o : Order) :
    (s.placeOrder c o).pending = s.pending := rfl

@[simp] theorem State.leaveReadoutQueue_clock (s : State) (r : ShotRef) :
    (s.leaveReadoutQueue r).clock = s.clock := rfl
@[simp] theorem State.leaveReadoutQueue_tracks (s : State) (r : ShotRef) :
    (s.leaveReadoutQueue r).tracks = s.tracks := rfl
@[simp] theorem State.leaveReadoutQueue_table (s : State) (r : ShotRef) :
    (s.leaveReadoutQueue r).table = s.table := rfl
@[simp] theorem State.leaveReadoutQueue_shotQueue (s : State) (r : ShotRef) :
    (s.leaveReadoutQueue r).shotQueue = s.shotQueue := rfl
@[simp] theorem State.leaveReadoutQueue_fire (s : State) (r : ShotRef) :
    (s.leaveReadoutQueue r).fire = s.fire := rfl
@[simp] theorem State.leaveReadoutQueue_strobes (s : State) (r : ShotRef) :
    (s.leaveReadoutQueue r).strobes = s.strobes := rfl
@[simp] theorem State.leaveReadoutQueue_lines (s : State) (r : ShotRef) :
    (s.leaveReadoutQueue r).lines = s.lines := rfl
@[simp] theorem State.leaveReadoutQueue_memory (s : State) (r : ShotRef) :
    (s.leaveReadoutQueue r).memory = s.memory := rfl
@[simp] theorem State.leaveReadoutQueue_banks (s : State) (r : ShotRef) :
    (s.leaveReadoutQueue r).banks = s.banks := rfl
@[simp] theorem State.leaveReadoutQueue_link (s : State) (r : ShotRef) :
    (s.leaveReadoutQueue r).link = s.link := rfl
@[simp] theorem State.leaveReadoutQueue_pending (s : State) (r : ShotRef) :
    (s.leaveReadoutQueue r).pending = s.pending := rfl

@[simp] theorem State.joinReadoutQueue_clock (s : State) (r : ShotRef) :
    (s.joinReadoutQueue r).clock = s.clock := rfl
@[simp] theorem State.joinReadoutQueue_tracks (s : State) (r : ShotRef) :
    (s.joinReadoutQueue r).tracks = s.tracks := rfl
@[simp] theorem State.joinReadoutQueue_table (s : State) (r : ShotRef) :
    (s.joinReadoutQueue r).table = s.table := rfl
@[simp] theorem State.joinReadoutQueue_shotQueue (s : State) (r : ShotRef) :
    (s.joinReadoutQueue r).shotQueue = s.shotQueue := rfl
@[simp] theorem State.joinReadoutQueue_fire (s : State) (r : ShotRef) :
    (s.joinReadoutQueue r).fire = s.fire := rfl
@[simp] theorem State.joinReadoutQueue_strobes (s : State) (r : ShotRef) :
    (s.joinReadoutQueue r).strobes = s.strobes := rfl
@[simp] theorem State.joinReadoutQueue_lines (s : State) (r : ShotRef) :
    (s.joinReadoutQueue r).lines = s.lines := rfl
@[simp] theorem State.joinReadoutQueue_memory (s : State) (r : ShotRef) :
    (s.joinReadoutQueue r).memory = s.memory := rfl
@[simp] theorem State.joinReadoutQueue_banks (s : State) (r : ShotRef) :
    (s.joinReadoutQueue r).banks = s.banks := rfl
@[simp] theorem State.joinReadoutQueue_link (s : State) (r : ShotRef) :
    (s.joinReadoutQueue r).link = s.link := rfl
@[simp] theorem State.joinReadoutQueue_pending (s : State) (r : ShotRef) :
    (s.joinReadoutQueue r).pending = s.pending := rfl

@[simp] theorem State.leaveShotQueue_clock (s : State) (r : ShotRef) :
    (s.leaveShotQueue r).clock = s.clock := rfl
@[simp] theorem State.leaveShotQueue_tracks (s : State) (r : ShotRef) :
    (s.leaveShotQueue r).tracks = s.tracks := rfl
@[simp] theorem State.leaveShotQueue_table (s : State) (r : ShotRef) :
    (s.leaveShotQueue r).table = s.table := rfl
@[simp] theorem State.leaveShotQueue_fire (s : State) (r : ShotRef) :
    (s.leaveShotQueue r).fire = s.fire := rfl
@[simp] theorem State.leaveShotQueue_strobes (s : State) (r : ShotRef) :
    (s.leaveShotQueue r).strobes = s.strobes := rfl
@[simp] theorem State.leaveShotQueue_lines (s : State) (r : ShotRef) :
    (s.leaveShotQueue r).lines = s.lines := rfl
@[simp] theorem State.leaveShotQueue_readout (s : State) (r : ShotRef) :
    (s.leaveShotQueue r).readout = s.readout := rfl
@[simp] theorem State.leaveShotQueue_memory (s : State) (r : ShotRef) :
    (s.leaveShotQueue r).memory = s.memory := rfl
@[simp] theorem State.leaveShotQueue_banks (s : State) (r : ShotRef) :
    (s.leaveShotQueue r).banks = s.banks := rfl
@[simp] theorem State.leaveShotQueue_link (s : State) (r : ShotRef) :
    (s.leaveShotQueue r).link = s.link := rfl
@[simp] theorem State.leaveShotQueue_pending (s : State) (r : ShotRef) :
    (s.leaveShotQueue r).pending = s.pending := rfl

@[simp] theorem State.joinShotQueue_clock (s : State) (r : ShotRef) :
    (s.joinShotQueue r).clock = s.clock := rfl
@[simp] theorem State.joinShotQueue_tracks (s : State) (r : ShotRef) :
    (s.joinShotQueue r).tracks = s.tracks := rfl
@[simp] theorem State.joinShotQueue_table (s : State) (r : ShotRef) :
    (s.joinShotQueue r).table = s.table := rfl
@[simp] theorem State.joinShotQueue_fire (s : State) (r : ShotRef) :
    (s.joinShotQueue r).fire = s.fire := rfl
@[simp] theorem State.joinShotQueue_strobes (s : State) (r : ShotRef) :
    (s.joinShotQueue r).strobes = s.strobes := rfl
@[simp] theorem State.joinShotQueue_lines (s : State) (r : ShotRef) :
    (s.joinShotQueue r).lines = s.lines := rfl
@[simp] theorem State.joinShotQueue_readout (s : State) (r : ShotRef) :
    (s.joinShotQueue r).readout = s.readout := rfl
@[simp] theorem State.joinShotQueue_memory (s : State) (r : ShotRef) :
    (s.joinShotQueue r).memory = s.memory := rfl
@[simp] theorem State.joinShotQueue_banks (s : State) (r : ShotRef) :
    (s.joinShotQueue r).banks = s.banks := rfl
@[simp] theorem State.joinShotQueue_link (s : State) (r : ShotRef) :
    (s.joinShotQueue r).link = s.link := rfl
@[simp] theorem State.joinShotQueue_pending (s : State) (r : ShotRef) :
    (s.joinShotQueue r).pending = s.pending := rfl

@[simp] theorem State.appendShot_clock (s : State) (n : Nat) (k : Shot) :
    (s.appendShot n k).clock = s.clock := rfl
@[simp] theorem State.appendShot_tracks (s : State) (n : Nat) (k : Shot) :
    (s.appendShot n k).tracks = s.tracks := rfl
@[simp] theorem State.appendShot_shotQueue (s : State) (n : Nat) (k : Shot) :
    (s.appendShot n k).shotQueue = s.shotQueue := rfl
@[simp] theorem State.appendShot_fire (s : State) (n : Nat) (k : Shot) :
    (s.appendShot n k).fire = s.fire := rfl
@[simp] theorem State.appendShot_strobes (s : State) (n : Nat) (k : Shot) :
    (s.appendShot n k).strobes = s.strobes := rfl
@[simp] theorem State.appendShot_lines (s : State) (n : Nat) (k : Shot) :
    (s.appendShot n k).lines = s.lines := rfl
@[simp] theorem State.appendShot_readout (s : State) (n : Nat) (k : Shot) :
    (s.appendShot n k).readout = s.readout := rfl
@[simp] theorem State.appendShot_memory (s : State) (n : Nat) (k : Shot) :
    (s.appendShot n k).memory = s.memory := rfl
@[simp] theorem State.appendShot_banks (s : State) (n : Nat) (k : Shot) :
    (s.appendShot n k).banks = s.banks := rfl
@[simp] theorem State.appendShot_link (s : State) (n : Nat) (k : Shot) :
    (s.appendShot n k).link = s.link := rfl
@[simp] theorem State.appendShot_pending (s : State) (n : Nat) (k : Shot) :
    (s.appendShot n k).pending = s.pending := rfl

@[simp] theorem State.removePassage_clock (s : State) (n : Nat) :
    (s.removePassage n).clock = s.clock := rfl
@[simp] theorem State.removePassage_tracks (s : State) (n : Nat) :
    (s.removePassage n).tracks = s.tracks := rfl
@[simp] theorem State.removePassage_shotQueue (s : State) (n : Nat) :
    (s.removePassage n).shotQueue = s.shotQueue := rfl
@[simp] theorem State.removePassage_fire (s : State) (n : Nat) :
    (s.removePassage n).fire = s.fire := rfl
@[simp] theorem State.removePassage_strobes (s : State) (n : Nat) :
    (s.removePassage n).strobes = s.strobes := rfl
@[simp] theorem State.removePassage_lines (s : State) (n : Nat) :
    (s.removePassage n).lines = s.lines := rfl
@[simp] theorem State.removePassage_readout (s : State) (n : Nat) :
    (s.removePassage n).readout = s.readout := rfl
@[simp] theorem State.removePassage_memory (s : State) (n : Nat) :
    (s.removePassage n).memory = s.memory := rfl
@[simp] theorem State.removePassage_banks (s : State) (n : Nat) :
    (s.removePassage n).banks = s.banks := rfl
@[simp] theorem State.removePassage_link (s : State) (n : Nat) :
    (s.removePassage n).link = s.link := rfl
@[simp] theorem State.removePassage_pending (s : State) (n : Nat) :
    (s.removePassage n).pending = s.pending := rfl

@[simp] theorem State.setHealth_clock (s : State) (t : Track) (h : Head) (v : Health) :
    (s.setHealth t h v).clock = s.clock := rfl
@[simp] theorem State.setHealth_table (s : State) (t : Track) (h : Head) (v : Health) :
    (s.setHealth t h v).table = s.table := rfl
@[simp] theorem State.setHealth_shotQueue (s : State) (t : Track) (h : Head) (v : Health) :
    (s.setHealth t h v).shotQueue = s.shotQueue := rfl
@[simp] theorem State.setHealth_fire (s : State) (t : Track) (h : Head) (v : Health) :
    (s.setHealth t h v).fire = s.fire := rfl
@[simp] theorem State.setHealth_strobes (s : State) (t : Track) (h : Head) (v : Health) :
    (s.setHealth t h v).strobes = s.strobes := rfl
@[simp] theorem State.setHealth_lines (s : State) (t : Track) (h : Head) (v : Health) :
    (s.setHealth t h v).lines = s.lines := rfl
@[simp] theorem State.setHealth_readout (s : State) (t : Track) (h : Head) (v : Health) :
    (s.setHealth t h v).readout = s.readout := rfl
@[simp] theorem State.setHealth_memory (s : State) (t : Track) (h : Head) (v : Health) :
    (s.setHealth t h v).memory = s.memory := rfl
@[simp] theorem State.setHealth_banks (s : State) (t : Track) (h : Head) (v : Health) :
    (s.setHealth t h v).banks = s.banks := rfl
@[simp] theorem State.setHealth_link (s : State) (t : Track) (h : Head) (v : Health) :
    (s.setHealth t h v).link = s.link := rfl
@[simp] theorem State.setHealth_pending (s : State) (t : Track) (h : Head) (v : Health) :
    (s.setHealth t h v).pending = s.pending := rfl

@[simp] theorem State.placeResponse_clock (s : State) (r : Response) :
    (s.placeResponse r).clock = s.clock := rfl
@[simp] theorem State.placeResponse_tracks (s : State) (r : Response) :
    (s.placeResponse r).tracks = s.tracks := rfl
@[simp] theorem State.placeResponse_table (s : State) (r : Response) :
    (s.placeResponse r).table = s.table := rfl
@[simp] theorem State.placeResponse_shotQueue (s : State) (r : Response) :
    (s.placeResponse r).shotQueue = s.shotQueue := rfl
@[simp] theorem State.placeResponse_fire (s : State) (r : Response) :
    (s.placeResponse r).fire = s.fire := rfl
@[simp] theorem State.placeResponse_strobes (s : State) (r : Response) :
    (s.placeResponse r).strobes = s.strobes := rfl
@[simp] theorem State.placeResponse_lines (s : State) (r : Response) :
    (s.placeResponse r).lines = s.lines := rfl
@[simp] theorem State.placeResponse_readout (s : State) (r : Response) :
    (s.placeResponse r).readout = s.readout := rfl
@[simp] theorem State.placeResponse_memory (s : State) (r : Response) :
    (s.placeResponse r).memory = s.memory := rfl
@[simp] theorem State.placeResponse_banks (s : State) (r : Response) :
    (s.placeResponse r).banks = s.banks := rfl
@[simp] theorem State.placeResponse_pending (s : State) (r : Response) :
    (s.placeResponse r).pending = s.pending := rfl

@[simp] theorem State.placeAnswer_clock (s : State) (tag : Byte) (code : BitVec 16) (a : Answer) :
    (s.placeAnswer tag code a).clock = s.clock := rfl
@[simp] theorem State.placeAnswer_tracks (s : State) (tag : Byte) (code : BitVec 16) (a : Answer) :
    (s.placeAnswer tag code a).tracks = s.tracks := rfl
@[simp] theorem State.placeAnswer_table (s : State) (tag : Byte) (code : BitVec 16) (a : Answer) :
    (s.placeAnswer tag code a).table = s.table := rfl
@[simp] theorem State.placeAnswer_shotQueue (s : State) (tag : Byte) (code : BitVec 16) (a : Answer) :
    (s.placeAnswer tag code a).shotQueue = s.shotQueue := rfl
@[simp] theorem State.placeAnswer_fire (s : State) (tag : Byte) (code : BitVec 16) (a : Answer) :
    (s.placeAnswer tag code a).fire = s.fire := rfl
@[simp] theorem State.placeAnswer_strobes (s : State) (tag : Byte) (code : BitVec 16) (a : Answer) :
    (s.placeAnswer tag code a).strobes = s.strobes := rfl
@[simp] theorem State.placeAnswer_lines (s : State) (tag : Byte) (code : BitVec 16) (a : Answer) :
    (s.placeAnswer tag code a).lines = s.lines := rfl
@[simp] theorem State.placeAnswer_readout (s : State) (tag : Byte) (code : BitVec 16) (a : Answer) :
    (s.placeAnswer tag code a).readout = s.readout := rfl
@[simp] theorem State.placeAnswer_memory (s : State) (tag : Byte) (code : BitVec 16) (a : Answer) :
    (s.placeAnswer tag code a).memory = s.memory := rfl
@[simp] theorem State.placeAnswer_banks (s : State) (tag : Byte) (code : BitVec 16) (a : Answer) :
    (s.placeAnswer tag code a).banks = s.banks := rfl
@[simp] theorem State.placeAnswer_pending (s : State) (tag : Byte) (code : BitVec 16) (a : Answer) :
    (s.placeAnswer tag code a).pending = s.pending := rfl

@[simp] theorem State.endRequest_clock (s : State) :
    (s.endRequest).clock = s.clock := rfl
@[simp] theorem State.endRequest_tracks (s : State) :
    (s.endRequest).tracks = s.tracks := rfl
@[simp] theorem State.endRequest_table (s : State) :
    (s.endRequest).table = s.table := rfl
@[simp] theorem State.endRequest_shotQueue (s : State) :
    (s.endRequest).shotQueue = s.shotQueue := rfl
@[simp] theorem State.endRequest_fire (s : State) :
    (s.endRequest).fire = s.fire := rfl
@[simp] theorem State.endRequest_strobes (s : State) :
    (s.endRequest).strobes = s.strobes := rfl
@[simp] theorem State.endRequest_lines (s : State) :
    (s.endRequest).lines = s.lines := rfl
@[simp] theorem State.endRequest_readout (s : State) :
    (s.endRequest).readout = s.readout := rfl
@[simp] theorem State.endRequest_memory (s : State) :
    (s.endRequest).memory = s.memory := rfl
@[simp] theorem State.endRequest_banks (s : State) :
    (s.endRequest).banks = s.banks := rfl
@[simp] theorem State.endRequest_pending (s : State) :
    (s.endRequest).pending = s.pending := rfl

@[simp] theorem State.setInProgress_clock (s : State) (p : InProgress) :
    (s.setInProgress p).clock = s.clock := rfl
@[simp] theorem State.setInProgress_tracks (s : State) (p : InProgress) :
    (s.setInProgress p).tracks = s.tracks := rfl
@[simp] theorem State.setInProgress_table (s : State) (p : InProgress) :
    (s.setInProgress p).table = s.table := rfl
@[simp] theorem State.setInProgress_shotQueue (s : State) (p : InProgress) :
    (s.setInProgress p).shotQueue = s.shotQueue := rfl
@[simp] theorem State.setInProgress_fire (s : State) (p : InProgress) :
    (s.setInProgress p).fire = s.fire := rfl
@[simp] theorem State.setInProgress_strobes (s : State) (p : InProgress) :
    (s.setInProgress p).strobes = s.strobes := rfl
@[simp] theorem State.setInProgress_lines (s : State) (p : InProgress) :
    (s.setInProgress p).lines = s.lines := rfl
@[simp] theorem State.setInProgress_readout (s : State) (p : InProgress) :
    (s.setInProgress p).readout = s.readout := rfl
@[simp] theorem State.setInProgress_memory (s : State) (p : InProgress) :
    (s.setInProgress p).memory = s.memory := rfl
@[simp] theorem State.setInProgress_banks (s : State) (p : InProgress) :
    (s.setInProgress p).banks = s.banks := rfl
@[simp] theorem State.setInProgress_pending (s : State) (p : InProgress) :
    (s.setInProgress p).pending = s.pending := rfl

@[simp] theorem State.queueRequest_clock (s : State) (tag : Byte) (r : Request) :
    (s.queueRequest tag r).clock = s.clock := rfl
@[simp] theorem State.queueRequest_tracks (s : State) (tag : Byte) (r : Request) :
    (s.queueRequest tag r).tracks = s.tracks := rfl
@[simp] theorem State.queueRequest_table (s : State) (tag : Byte) (r : Request) :
    (s.queueRequest tag r).table = s.table := rfl
@[simp] theorem State.queueRequest_shotQueue (s : State) (tag : Byte) (r : Request) :
    (s.queueRequest tag r).shotQueue = s.shotQueue := rfl
@[simp] theorem State.queueRequest_fire (s : State) (tag : Byte) (r : Request) :
    (s.queueRequest tag r).fire = s.fire := rfl
@[simp] theorem State.queueRequest_strobes (s : State) (tag : Byte) (r : Request) :
    (s.queueRequest tag r).strobes = s.strobes := rfl
@[simp] theorem State.queueRequest_lines (s : State) (tag : Byte) (r : Request) :
    (s.queueRequest tag r).lines = s.lines := rfl
@[simp] theorem State.queueRequest_readout (s : State) (tag : Byte) (r : Request) :
    (s.queueRequest tag r).readout = s.readout := rfl
@[simp] theorem State.queueRequest_memory (s : State) (tag : Byte) (r : Request) :
    (s.queueRequest tag r).memory = s.memory := rfl
@[simp] theorem State.queueRequest_banks (s : State) (tag : Byte) (r : Request) :
    (s.queueRequest tag r).banks = s.banks := rfl
@[simp] theorem State.queueRequest_pending (s : State) (tag : Byte) (r : Request) :
    (s.queueRequest tag r).pending = s.pending := rfl

@[simp] theorem State.setReceived_clock (s : State) (bytes : List Byte) :
    (s.setReceived bytes).clock = s.clock := rfl
@[simp] theorem State.setReceived_tracks (s : State) (bytes : List Byte) :
    (s.setReceived bytes).tracks = s.tracks := rfl
@[simp] theorem State.setReceived_table (s : State) (bytes : List Byte) :
    (s.setReceived bytes).table = s.table := rfl
@[simp] theorem State.setReceived_shotQueue (s : State) (bytes : List Byte) :
    (s.setReceived bytes).shotQueue = s.shotQueue := rfl
@[simp] theorem State.setReceived_fire (s : State) (bytes : List Byte) :
    (s.setReceived bytes).fire = s.fire := rfl
@[simp] theorem State.setReceived_strobes (s : State) (bytes : List Byte) :
    (s.setReceived bytes).strobes = s.strobes := rfl
@[simp] theorem State.setReceived_lines (s : State) (bytes : List Byte) :
    (s.setReceived bytes).lines = s.lines := rfl
@[simp] theorem State.setReceived_readout (s : State) (bytes : List Byte) :
    (s.setReceived bytes).readout = s.readout := rfl
@[simp] theorem State.setReceived_memory (s : State) (bytes : List Byte) :
    (s.setReceived bytes).memory = s.memory := rfl
@[simp] theorem State.setReceived_banks (s : State) (bytes : List Byte) :
    (s.setReceived bytes).banks = s.banks := rfl
@[simp] theorem State.setReceived_pending (s : State) (bytes : List Byte) :
    (s.setReceived bytes).pending = s.pending := rfl

@[simp] theorem State.clearNotices_clock (s : State) :
    (s.clearNotices).clock = s.clock := rfl
@[simp] theorem State.clearNotices_tracks (s : State) :
    (s.clearNotices).tracks = s.tracks := rfl
@[simp] theorem State.clearNotices_table (s : State) :
    (s.clearNotices).table = s.table := rfl
@[simp] theorem State.clearNotices_shotQueue (s : State) :
    (s.clearNotices).shotQueue = s.shotQueue := rfl
@[simp] theorem State.clearNotices_fire (s : State) :
    (s.clearNotices).fire = s.fire := rfl
@[simp] theorem State.clearNotices_strobes (s : State) :
    (s.clearNotices).strobes = s.strobes := rfl
@[simp] theorem State.clearNotices_lines (s : State) :
    (s.clearNotices).lines = s.lines := rfl
@[simp] theorem State.clearNotices_readout (s : State) :
    (s.clearNotices).readout = s.readout := rfl
@[simp] theorem State.clearNotices_memory (s : State) :
    (s.clearNotices).memory = s.memory := rfl
@[simp] theorem State.clearNotices_banks (s : State) :
    (s.clearNotices).banks = s.banks := rfl
@[simp] theorem State.clearNotices_pending (s : State) :
    (s.clearNotices).pending = s.pending := rfl

@[simp] theorem State.tick_tracks (s : State) :
    (s.tick).tracks = s.tracks := rfl
@[simp] theorem State.tick_table (s : State) :
    (s.tick).table = s.table := rfl
@[simp] theorem State.tick_shotQueue (s : State) :
    (s.tick).shotQueue = s.shotQueue := rfl
@[simp] theorem State.tick_fire (s : State) :
    (s.tick).fire = s.fire := rfl
@[simp] theorem State.tick_strobes (s : State) :
    (s.tick).strobes = s.strobes := rfl
@[simp] theorem State.tick_lines (s : State) :
    (s.tick).lines = s.lines := rfl
@[simp] theorem State.tick_readout (s : State) :
    (s.tick).readout = s.readout := rfl
@[simp] theorem State.tick_memory (s : State) :
    (s.tick).memory = s.memory := rfl
@[simp] theorem State.tick_banks (s : State) :
    (s.tick).banks = s.banks := rfl
@[simp] theorem State.tick_link (s : State) :
    (s.tick).link = s.link := rfl
@[simp] theorem State.tick_pending (s : State) :
    (s.tick).pending = s.pending := rfl

@[simp] theorem State.queueNotice_clock (s : State) (n : Notice) :
    (s.queueNotice n).clock = s.clock := by unfold State.queueNotice; split <;> rfl
@[simp] theorem State.queueNotice_tracks (s : State) (n : Notice) :
    (s.queueNotice n).tracks = s.tracks := by unfold State.queueNotice; split <;> rfl
@[simp] theorem State.queueNotice_table (s : State) (n : Notice) :
    (s.queueNotice n).table = s.table := by unfold State.queueNotice; split <;> rfl
@[simp] theorem State.queueNotice_shotQueue (s : State) (n : Notice) :
    (s.queueNotice n).shotQueue = s.shotQueue := by unfold State.queueNotice; split <;> rfl
@[simp] theorem State.queueNotice_fire (s : State) (n : Notice) :
    (s.queueNotice n).fire = s.fire := by unfold State.queueNotice; split <;> rfl
@[simp] theorem State.queueNotice_strobes (s : State) (n : Notice) :
    (s.queueNotice n).strobes = s.strobes := by unfold State.queueNotice; split <;> rfl
@[simp] theorem State.queueNotice_lines (s : State) (n : Notice) :
    (s.queueNotice n).lines = s.lines := by unfold State.queueNotice; split <;> rfl
@[simp] theorem State.queueNotice_readout (s : State) (n : Notice) :
    (s.queueNotice n).readout = s.readout := by unfold State.queueNotice; split <;> rfl
@[simp] theorem State.queueNotice_memory (s : State) (n : Notice) :
    (s.queueNotice n).memory = s.memory := by unfold State.queueNotice; split <;> rfl
@[simp] theorem State.queueNotice_banks (s : State) (n : Notice) :
    (s.queueNotice n).banks = s.banks := by unfold State.queueNotice; split <;> rfl
@[simp] theorem State.queueNotice_pending (s : State) (n : Notice) :
    (s.queueNotice n).pending = s.pending := by unfold State.queueNotice; split <;> rfl

@[simp] theorem State.setTrack_tracks (s : State) (t : Track) (m : TrackMonitor) :
    (s.setTrack t m).tracks = setAt s.tracks t m := rfl
@[simp] theorem State.setLine_lines (s : State) (c : Camera) (l : CameraLine) :
    (s.setLine c l).lines = setAt s.lines c l := rfl
@[simp] theorem State.setFire_fire (s : State) (c : Camera) (f : FireLine) :
    (s.setFire c f).fire = setAt s.fire c f := rfl
@[simp] theorem State.setStrobe_strobes (s : State) (b : StrobeNo) (k : StrobeBank) :
    (s.setStrobe b k).strobes = setAt s.strobes b k := rfl
@[simp] theorem State.setMemory_memory (s : State) (m : FrameMemory) :
    (s.setMemory m).memory = m := rfl
@[simp] theorem State.setHealth_tracks (s : State) (t : Track) (h : Head) (v : Health) :
    (s.setHealth t h v).tracks = setAt s.tracks t { s.tracks[t] with health := s.tracks[t].health.set h v } := rfl

/-- Reading the place just written. -/
@[simp] theorem getElem_setAt_self {α : Type} {n : Nat} (v : Vector α n) (i : Fin n) (x : α) :
    (setAt v i x)[i] = x := by simp [setAt]

/-- Reading another place. -/
theorem getElem_setAt_ne {α : Type} {n : Nat} (v : Vector α n) (i j : Fin n) (x : α) (h : j ≠ i) :
    (setAt v i x)[j] = v[j] := by
  have h' : i.val ≠ j.val := fun e => h (Fin.ext e.symm)
  simp [setAt, h']

/-- Reading any place after a write. -/
theorem getElem_setAt {α : Type} {n : Nat} (v : Vector α n) (i j : Fin n) (x : α) :
    (setAt v i x)[j] = if j = i then x else v[j] := by
  by_cases h : j = i
  · subst h; rw [if_pos rfl]; exact getElem_setAt_self v j x
  · rw [if_neg h]; exact getElem_setAt_ne v i j x h

/-- Reading any place by its number, the form that simp brings an index to. -/
@[simp] theorem getElem_setAt_nat {α : Type} {n : Nat} (v : Vector α n) (i : Fin n) (x : α) (j : Nat)
    (hj : j < n) : (setAt v i x)[j] = if j = i.val then x else v[j] := by
  have := getElem_setAt v i ⟨j, hj⟩ x
  simp only [Fin.ext_iff, Fin.getElem_fin] at this
  exact this

end Sys2Proof.Machine
end

