-- ==== Sys2Proof/Laws/Preserves.lean ====
section
/-! SUPPORT. The invariants over whole events: `Preserves s t` says that `t` has the waiting commands and
the elapsed count of `s` and each invariant that `s` has; one lemma per operation that moves tracks, opens
or closes passages, moves table banks, or takes and answers requests. -/

namespace Sys2Proof.Machine

set_option Elab.async false

/-! ## The relations -/

/-- Every invariant but that of the tracks. -/
structure Partly (s t : State) : Prop where
  elapsed : t.clock.elapsed = s.clock.elapsed
  pending : t.pending = s.pending
  numbered : s.numbered → t.numbered
  passages : s.numbered → s.passagesSound → t.passagesSound
  memory : s.memory.wf → t.memory.wf
  banks : s.banks.sound → t.banks.sound
  link : s.link.sound → t.link.sound

/-- No request is taken, ended or answered where none is in progress, and the link's state, the receiver
and the waiting requests are as they were. -/
def Idle (s t : State) : Prop :=
  (s.link.inProgress = none → t.link.inProgress = none ∧ t.link.replies = s.link.replies)
    ∧ t.link.up = s.link.up ∧ t.link.received = s.link.received ∧ t.link.requests = s.link.requests

/-- Every invariant. -/
structure Preserves (s t : State) : Prop extends Partly s t where
  tracks : s.tracksInv → t.tracksInv

theorem Partly.refl (s : State) : Partly s s := ⟨rfl, rfl, id, fun _ h => h, id, id, id⟩

theorem Partly.trans {s t u : State} (h : Partly s t) (k : Partly t u) : Partly s u :=
  ⟨k.elapsed.trans h.elapsed, k.pending.trans h.pending, k.numbered ∘ h.numbered,
    fun hn hp => k.passages (h.numbered hn) (h.passages hn hp), k.memory ∘ h.memory, k.banks ∘ h.banks,
    k.link ∘ h.link⟩

theorem Idle.refl (s : State) : Idle s s := ⟨fun h => ⟨h, rfl⟩, rfl, rfl, rfl⟩

theorem Idle.trans {s t u : State} (h : Idle s t) (k : Idle t u) : Idle s u :=
  ⟨fun hs => ⟨(k.1 (h.1 hs).1).1, (k.1 (h.1 hs).1).2.trans (h.1 hs).2⟩, k.2.1.trans h.2.1,
    k.2.2.1.trans h.2.2.1, k.2.2.2.trans h.2.2.2⟩

theorem Keeps.toIdle {s t : State} (h : Keeps s t) : Idle s t := ⟨h.idle, h.up, h.received, h.requests⟩

/-- An operation that leaves the link alone. -/
theorem Idle.ofLink {s t : State} (h : t.link = s.link) : Idle s t := by
  unfold Idle; rw [h]; exact ⟨fun hn => ⟨hn, rfl⟩, rfl, rfl, rfl⟩

theorem Preserves.refl (s : State) : Preserves s s := ⟨Partly.refl s, id⟩

theorem Preserves.trans {s t u : State} (h : Preserves s t) (k : Preserves t u) : Preserves s u :=
  ⟨h.toPartly.trans k.toPartly, k.tracks ∘ h.tracks⟩

theorem Keeps.partly {s t : State} (h : Keeps s t) : Partly s t :=
  ⟨by rw [h.clock], h.pending, h.numbered, fun _ => h.passagesSound, h.memory, h.banksSound, h.link⟩

theorem Keeps.preserves {s t : State} (h : Keeps s t) : Preserves s t := ⟨h.partly, h.tracksInv⟩

/-- An operation that touches none of table, memory, banks, link, elapsed count and waiting commands. -/
theorem Partly.inert {s t : State} (hc : t.clock.elapsed = s.clock.elapsed) (hp : t.pending = s.pending)
    (hq : t.table = s.table) (hm : t.memory = s.memory) (hb : t.banks = s.banks)
    (hl : t.link = s.link) : Partly s t :=
  ⟨hc, hp, by unfold State.numbered; rw [hq]; exact id,
    fun _ => by unfold State.passagesSound; rw [hq]; exact id, by rw [hm]; exact id,
    by rw [hb]; exact id, by rw [hl]; exact id⟩

theorem Partly.setTrack (s : State) (t : Track) (m : TrackMonitor) : Partly s (s.setTrack t m) :=
  Partly.inert rfl rfl rfl rfl rfl rfl

/-! ## One track moved -/

/-- A change of one monitor that neither enters nor leaves OCCUPIED. -/
theorem tracksInv_setTrack {s u : State} {t : Track} {m : TrackMonitor} (htab : u.table = s.table)
    (htr : u.tracks = setAt s.tracks t m) (hs : s.tracks[t].sound → m.sound)
    (ho : m.state = .occupied ↔ s.tracks[t].state = .occupied) (h : s.tracksInv) : u.tracksInv := by
  obtain ⟨h1, h2, h3, h4, h5⟩ := h
  have same : ∀ k : Track, u.tracks[k].state = .occupied ↔ s.tracks[k].state = .occupied := by
    intro k
    rw [htr, getElem_setAt]
    split
    · rename_i hk; subst hk; exact ho
    · rfl
  refine ⟨?_, by unfold State.numbered; rw [htab]; exact h2, ?_, ?_, by rw [htab]; exact h5⟩
  · intro k
    rw [htr, getElem_setAt]
    split
    · exact hs (h1 t)
    · exact h1 k
  · intro p hp hpo
    rw [htab] at hp
    exact (same _).2 (h3 p hp hpo)
  · intro k hk
    rw [htab]
    exact h4 k ((same k).1 hk)

theorem Idle.queueNotice (s : State) (n : Notice) : Idle s (s.queueNotice n) := (Keeps.queueNotice s n).toIdle

theorem Partly.trackTo (s : State) (t : Track) (new : TrackState) : Partly s (s.trackTo t new) := by
  unfold State.trackTo
  dsimp only
  split
  · exact Partly.setTrack s t _
  · exact (Partly.setTrack s t _).trans (Keeps.queueNotice _ _).partly

theorem Idle.trackTo (s : State) (t : Track) (new : TrackState) : Idle s (s.trackTo t new) := by
  unfold State.trackTo
  dsimp only
  split
  · exact Idle.ofLink rfl
  · exact Idle.queueNotice (s.setTrack t _) _

theorem State.trackTo_table (s : State) (t : Track) (new : TrackState) :
    (s.trackTo t new).table = s.table := by
  unfold State.trackTo
  dsimp only
  split
  · rfl
  · exact State.queueNotice_table _ _

/-- The monitor that a change of state leaves. -/
def State.movedTrack (s : State) (t : Track) (new : TrackState) : TrackMonitor :=
  { s.tracks[t] with
    state := new
    fifoA := if new = .occupied then s.tracks[t].fifoA else []
    fifoB := if new = .occupied then s.tracks[t].fifoB else []
    quiet := if new = .ignoring then some (s.after (s.quietTime t)) else none }

theorem State.trackTo_tracks (s : State) (t : Track) (new : TrackState) :
    (s.trackTo t new).tracks = setAt s.tracks t (s.movedTrack t new) := by
  unfold State.trackTo
  dsimp only
  split
  · rfl
  · exact State.queueNotice_tracks _ _

theorem State.movedTrack_sound (s : State) (t : Track) (new : TrackState) (h : s.tracks[t].sound) :
    (s.movedTrack t new).sound := by
  obtain ⟨-, h2, h3, -⟩ := h
  refine ⟨?_, ?_, ?_, ?_⟩
  · by_cases hn : new = .ignoring <;> simp [State.movedTrack, hn]
  · by_cases hn : new = .occupied
    · simpa only [State.movedTrack, hn, if_true] using h2
    · simp [State.movedTrack, hn]
  · by_cases hn : new = .occupied
    · simpa only [State.movedTrack, hn, if_true] using h3
    · simp [State.movedTrack, hn]
  · intro hn
    have hn : new ≠ .occupied := hn
    simp [State.movedTrack, hn]

theorem Preserves.trackTo (s : State) (t : Track) (new : TrackState)
    (h1 : s.tracks[t].state ≠ .occupied) (h2 : new ≠ .occupied) : Preserves s (s.trackTo t new) :=
  ⟨Partly.trackTo s t new, tracksInv_setTrack (s.trackTo_table t new) (s.trackTo_tracks t new)
    (s.movedTrack_sound t new) ⟨fun h => absurd h h2, fun h => absurd h h1⟩⟩

theorem Preserves.setTrack (s : State) (t : Track) (m : TrackMonitor) (hst : m.state = s.tracks[t].state)
    (hs : s.tracks[t].sound → m.sound) : Preserves s (s.setTrack t m) :=
  ⟨Partly.setTrack s t m, tracksInv_setTrack rfl rfl hs (by rw [hst])⟩

theorem Preserves.setHealth (s : State) (t : Track) (h : Head) (v : Health) :
    Preserves s (s.setHealth t h v) := Preserves.setTrack s t _ rfl id

/-! ## Pair FIFOs -/

theorem TrackMonitor.setFifo_sound {m : TrackMonitor} {side : Side} {f : List PairEntry}
    (h : m.sound) (hl : f.length ≤ fifoPlaces) (ho : m.state ≠ .occupied → f = []) :
    (m.setFifo side f).sound := by
  obtain ⟨h1, h2, h3, h4⟩ := h
  cases side
  · exact ⟨h1, hl, h3, fun hn => ⟨ho hn, (h4 hn).2⟩⟩
  · exact ⟨h1, h2, hl, fun hn => ⟨(h4 hn).1, ho hn⟩⟩

theorem TrackMonitor.setFifo_state (m : TrackMonitor) (side : Side) (f : List PairEntry) :
    (m.setFifo side f).state = m.state := by cases side <;> rfl

theorem TrackMonitor.fifo_length {m : TrackMonitor} (h : m.sound) (side : Side) :
    (m.fifo side).length ≤ fifoPlaces := by cases side <;> simp [TrackMonitor.fifo, h.2.1, h.2.2.1]

theorem TrackMonitor.fifo_empty {m : TrackMonitor} (h : m.sound) (side : Side)
    (ho : m.state ≠ .occupied) : m.fifo side = [] := by
  cases side <;> simp [TrackMonitor.fifo, h.2.2.2 ho]

theorem Preserves.pushCrossing (s : State) (t : Track) (p : Passage) (side : Side)
    (ho : s.tracks[t].state = .occupied) : Preserves s (s.pushCrossing t p side) := by
  unfold State.pushCrossing
  dsimp only
  split
  · rename_i hl
    refine Preserves.setTrack s t _ (TrackMonitor.setFifo_state _ _ _) (fun h => ?_)
    refine TrackMonitor.setFifo_sound h ?_ (fun hn => absurd ho hn)
    simp only [List.length_append, List.length_singleton]; omega
  · refine Preserves.trans ?_ (Keeps.recordFault _ _ _ _ _).preserves
    refine Preserves.setTrack s t _ (TrackMonitor.setFifo_state _ _ _) (fun h => ?_)
    refine TrackMonitor.setFifo_sound h ?_ (fun hn => absurd ho hn)
    have := TrackMonitor.fifo_length h side
    simp only [List.length_append, List.length_singleton, List.length_drop]
    simp only [fifoPlaces] at *
    omega

/-- The oldest entry of a pair FIFO leaves. -/
theorem Preserves.popFifo (s : State) (t : Track) (side : Side) {entry : PairEntry}
    {rest : List PairEntry} (hf : s.tracks[t].fifo side = entry :: rest) :
    Preserves s (s.setTrack t (s.tracks[t].setFifo side rest)) := by
  refine Preserves.setTrack s t _ (TrackMonitor.setFifo_state _ _ _) (fun h => ?_)
  refine TrackMonitor.setFifo_sound h ?_ (fun hn => ?_)
  · have := TrackMonitor.fifo_length h side
    rw [hf] at this
    simp only [List.length_cons] at this
    omega
  · rw [TrackMonitor.fifo_empty h side hn] at hf
    cases hf

theorem Preserves.pairCrossing (s : State) (t : Track) (p : Passage) (side : Side) :
    Preserves s (s.pairCrossing t p side) := by
  unfold State.pairCrossing
  dsimp only
  split
  · exact (Keeps.recordFault s _ _ _ _).preserves
  · rename_i entry rest hf
    exact (Preserves.popFifo s t side hf).trans (Keeps.handAxle _ _ _).preserves

theorem Preserves.expirePair (s : State) (t : Track) (side : Side) :
    Preserves s (s.expirePair t side) := by
  unfold State.expirePair
  dsimp only
  split
  · exact Preserves.refl s
  · rename_i entry rest hf
    split
    · split
      · exact (Preserves.popFifo s t side hf).trans (Keeps.recordFault _ _ _ _ _).preserves
      · exact Preserves.popFifo s t side hf
    · exact Preserves.refl s

/-! ## A passage opened (R26 to R28) -/

theorem numberAfter_eq {n : Nat} (h : isPassageNumber n) : numberAfter n = n % 65535 + 1 := by
  unfold isPassageNumber at h
  unfold numberAfter
  split <;> omega

theorem numberAfter_ok {n : Nat} (h : isPassageNumber n) : isPassageNumber (numberAfter n) := by
  unfold isPassageNumber numberAfter at *
  split <;> omega

theorem iterate_numberAfter {n : Nat} (h : isPassageNumber n) (i : Nat) :
    numberAfter^[i] n = (n - 1 + i) % 65535 + 1 := by
  induction i with
  | zero => unfold isPassageNumber at h; simp; omega
  | succ i ih =>
    rw [Function.iterate_succ_apply', ih, numberAfter_eq (by unfold isPassageNumber; omega)]
    omega

theorem unusedNumber_ok (k : Nat) (held : List Nat) {n : Nat} (h : isPassageNumber n) :
    isPassageNumber (unusedNumber k held n) := by
  induction k generalizing n with
  | zero => exact h
  | succ k ih =>
    unfold unusedNumber
    split
    · exact ih (numberAfter_ok h)
    · exact h

theorem iterates_held_of_unusedNumber_held (k : Nat) (held : List Nat) (n : Nat)
    (h : unusedNumber k held n ∈ held) : ∀ i ≤ k, numberAfter^[i] n ∈ held := by
  induction k generalizing n with
  | zero => intro i hi; obtain rfl : i = 0 := by omega
            exact h
  | succ k ih =>
    unfold unusedNumber at h
    split at h
    · rename_i hn
      intro i hi
      cases i with
      | zero => simpa using hn
      | succ i => rw [Function.iterate_succ_apply]; exact ih _ h i (by omega)
    · rename_i hn
      exact absurd h (by simpa using hn)

/-- With fewer numbers held than the counter is advanced at most, the number found is held by none. -/
theorem unusedNumber_unheld (k : Nat) (held : List Nat) {n : Nat} (hn : isPassageNumber n)
    (hk : k < 65535) (hl : held.length ≤ k) : unusedNumber k held n ∉ held := by
  intro h
  have hall := iterates_held_of_unusedNumber_held k held n h
  have hinj : Set.InjOn (fun i => numberAfter^[i] n) (Finset.range (k + 1) : Set Nat) := by
    intro i hi j hj hij
    simp only [Finset.coe_range, Set.mem_Iio] at hi hj
    simp only [iterate_numberAfter hn] at hij
    omega
  have hsub : (Finset.range (k + 1)).image (fun i => numberAfter^[i] n) ⊆ held.toFinset := by
    intro x hx
    obtain ⟨i, hi, rfl⟩ := Finset.mem_image.1 hx
    simp only [Finset.mem_range] at hi
    exact List.mem_toFinset.2 (hall i (by omega))
  have h1 := Finset.card_le_card hsub
  rw [Finset.card_image_of_injOn hinj, Finset.card_range] at h1
  have h2 := List.toFinset_card_le held
  omega

/-- The number a passage takes when it opens: in range and held by no live passage. -/
theorem State.newNumber_fresh (s : State) (h : s.numbered)
    (hl : s.table.passages.length < passagePlaces) :
    isPassageNumber s.newNumber ∧ ∀ p ∈ s.table.passages, p.number ≠ s.newNumber := by
  refine ⟨unusedNumber_ok _ _ h.2.2.2, fun p hp he => ?_⟩
  have := unusedNumber_unheld passagePlaces (s.table.passages.map (·.number)) h.2.2.2
    (by decide) (by rw [List.length_map]; omega)
  exact this (List.mem_map.2 ⟨p, hp, he⟩)

theorem Passage.new_sound (n : Nat) (t : Track) (d : Direction) (b : BankNo) (e : Byte)
    (time : GantryTime) (w : Nat) : (Passage.new n t d b e time w).sound := by
  simp [Passage.sound, Passage.new, coverage]

/-- The state with a new passage in the table. -/
def State.withPassage (s : State) (p : Passage) (next : Nat) : State :=
  { s with table := ⟨s.table.passages ++ [p], next⟩ }

theorem State.withPassage_numbered {s : State} {p : Passage} {next : Nat} (h : s.numbered)
    (hl : s.table.passages.length < passagePlaces) (hp : isPassageNumber p.number)
    (hf : ∀ q ∈ s.table.passages, q.number ≠ p.number) (hn : isPassageNumber next) :
    (s.withPassage p next).numbered := by
  refine ⟨?_, ?_, ?_, hn⟩
  · simp only [State.withPassage, List.length_append, List.length_singleton]; omega
  · simp only [State.withPassage, List.map_append, List.map_cons, List.map_nil]
    refine List.nodup_append.2 ⟨h.2.1, by simp, ?_⟩
    intro a ha b hb
    obtain ⟨q, hq, rfl⟩ := List.mem_map.1 ha
    obtain rfl := List.mem_singleton.1 hb
    exact hf q hq
  · intro q hq
    rcases List.mem_append.1 hq with hq | hq
    · exact h.2.2.1 q hq
    · obtain rfl := List.mem_singleton.1 hq
      exact hp

/-- A passage opened on a VACANT track with the track taken to OCCUPIED. -/
theorem tracksInv_open {s u : State} {t : Track} {p : Passage} {next : Nat} {m : TrackMonitor}
    (htab : u.table = (s.withPassage p next).table) (htr : u.tracks = setAt s.tracks t m)
    (hv : s.tracks[t].state ≠ .occupied) (hm : m.state = .occupied)
    (hs : s.tracks[t].sound → m.sound) (hpt : p.track = t) (hpo : p.isOpen = true)
    (hn : s.numbered → u.numbered) (h : s.tracksInv) : u.tracksInv := by
  obtain ⟨h1, h2, h3, h4, h5⟩ := h
  have hopen : ∀ q ∈ s.table.passages, q.isOpen = true → q.track ≠ t := by
    intro q hq ho he
    subst he
    exact hv (h3 q hq ho)
  have other : ∀ k : Track, k ≠ t → u.tracks[k] = s.tracks[k] := by
    intro k hk; rw [htr, getElem_setAt, if_neg hk]
  have self : u.tracks[t] = m := by rw [htr, getElem_setAt, if_pos rfl]
  refine ⟨?_, hn h2, ?_, ?_, ?_⟩
  · intro k
    rw [htr, getElem_setAt]
    split
    · exact hs (h1 t)
    · exact h1 k
  · intro q hq ho
    rw [htab] at hq
    rcases List.mem_append.1 hq with hq | hq
    · rw [other _ (hopen q hq ho)]
      exact h3 q hq ho
    · obtain rfl := List.mem_singleton.1 hq
      subst hpt
      rw [self]; exact hm
  · intro k hk
    rw [htab]
    by_cases hkt : k = t
    · exact ⟨p, by simp [State.withPassage], by rw [hpt, hkt], hpo⟩
    · rw [other k hkt] at hk
      obtain ⟨q, hq, hqk, hqo⟩ := h4 k hk
      exact ⟨q, List.mem_append_left _ hq, hqk, hqo⟩
  · rw [htab]
    refine List.pairwise_append.2 ⟨h5, List.pairwise_singleton _ _, ?_⟩
    intro a ha b hb hao _
    obtain rfl := List.mem_singleton.1 hb
    rw [hpt]
    exact hopen a ha hao

theorem Partly.withPassage {s : State} {p : Passage} {next : Nat} (hp : p.sound)
    (hn : s.numbered → (s.withPassage p next).numbered) : Partly s (s.withPassage p next) := by
  refine ⟨rfl, rfl, hn, fun _ hs q hq => ?_, id, id, id⟩
  rcases List.mem_append.1 hq with hq | hq
  · exact hs q hq
  · obtain rfl := List.mem_singleton.1 hq
    exact hp

theorem Preserves.openPassage (s : State) (t : Track) (side : Side) (b : BankNo)
    (hv : s.tracks[t].state ≠ .occupied) (hl : s.table.passages.length < passagePlaces) :
    Preserves s (s.openPassage t side b) := by
  unfold State.openPassage
  dsimp only
  generalize hp : Passage.new s.newNumber t (directionFrom side) b s.clock.epoch s.now
    (s.after (tailWindowLength 0 none)) = p
  have hpn : p.number = s.newNumber := by rw [← hp]; rfl
  have hnum : s.numbered → (s.withPassage p (numberAfter s.newNumber)).numbered := by
    intro h
    obtain ⟨ha, hb⟩ := s.newNumber_fresh h hl
    exact State.withPassage_numbered h hl (hpn ▸ ha) (fun q hq => hpn ▸ hb q hq) (numberAfter_ok ha)
  have h1 := Partly.withPassage (s := s) (p := p) (next := numberAfter s.newNumber)
    (by rw [← hp]; exact Passage.new_sound _ _ _ _ _ _ _) hnum
  generalize hn : Notice.passageOpened s.newNumber t (directionFrom side) b s.now = note
  have h2 := (h1.trans (Keeps.queueNotice _ note).partly).trans (Partly.trackTo _ t .occupied)
  refine Preserves.trans (t := ((s.withPassage p (numberAfter s.newNumber)).queueNotice note).trackTo t
    .occupied) ⟨h2, ?_⟩ ?_
  · refine tracksInv_open (s := s) (t := t) (p := p) (next := numberAfter s.newNumber)
      (m := ((s.withPassage p (numberAfter s.newNumber)).queueNotice note).movedTrack t .occupied) ?_
      (State.trackTo_tracks _ t .occupied |>.trans ?_) hv rfl ?_ (by rw [← hp]; rfl) (by rw [← hp]; rfl)
      h2.numbered
    · rw [State.trackTo_table, State.queueNotice_table]
    · rw [State.queueNotice_tracks]; rfl
    · intro hs
      refine State.movedTrack_sound _ t _ ?_
      rw [State.queueNotice_tracks]; exact hs
  · refine Preserves.pushCrossing _ t p side ?_
    rw [State.trackTo_tracks, getElem_setAt, if_pos rfl]; rfl

theorem Preserves.askOpening (s : State) (t : Track) (side : Side)
    (hv : s.tracks[t].state ≠ .occupied) : Preserves s (s.askOpening t side) := by
  unfold State.askOpening
  split
  · rename_i hl
    exact Preserves.openPassage s t side _ hv hl
  · refine Preserves.trans (Keeps.queueNotice s _).preserves (Preserves.trackTo _ t _ ?_ (by decide))
    rw [State.queueNotice_tracks]; exact hv

/-! ## A passage leaves APPROACHING and TAIL (R39) -/

/-- One passage of the list closed, every other as it was. -/
def Closes (n : Nat) (p q : Passage) : Prop :=
  q.number = p.number ∧ q.track = p.track ∧ q.isOpen = (p.isOpen && !(p.number == n))

theorem changePassage_closes {l : List Passage} (hd : (l.map (·.number)).Nodup) (n : Nat)
    (f : Passage → Passage)
    (hf : ∀ p, (f p).number = p.number ∧ (f p).track = p.track ∧ (f p).isOpen = false) :
    List.Forall₂ (Closes n) l (changePassage n f l) := by
  induction l with
  | nil => exact List.Forall₂.nil
  | cons p ps ih =>
    simp only [List.map_cons, List.nodup_cons] at hd
    unfold changePassage
    by_cases hp : p.number = n
    · rw [if_pos hp]
      refine List.Forall₂.cons ⟨(hf p).1, (hf p).2.1, by simp [(hf p).2.2, hp]⟩ ?_
      refine List.forall₂_same.2 (fun q hq => ⟨rfl, rfl, ?_⟩)
      have : q.number ≠ n := by
        intro he
        exact hd.1 (List.mem_map.2 ⟨q, hq, by rw [he, hp]⟩)
      simp [this]
    · rw [if_neg hp]
      exact List.Forall₂.cons ⟨rfl, rfl, by simp [hp]⟩ (ih hd.2)

/-- A number names one passage. -/
theorem passage_eq_of_number {s : State} (h : s.numbered) {p q : Passage} (hp : p ∈ s.table.passages)
    (hq : q ∈ s.table.passages) (hn : q.number = p.number) : q = p :=
  List.inj_on_of_nodup_map h.2.1 hq hp hn

theorem tracksAgree_leave {s u : State} {p : Passage} (hd : s.numbered) (hp : p ∈ s.table.passages)
    (ho : p.isOpen = true) (hl : List.Forall₂ (Closes p.number) s.table.passages u.table.passages)
    (hk : ∀ k : Track, k ≠ p.track → u.tracks[k].state = s.tracks[k].state)
    (hpt : u.tracks[p.track].state ≠ .occupied) (h : s.tracksAgree) : u.tracksAgree := by
  obtain ⟨h3, h4, h5⟩ := h
  have hne : ∀ q ∈ s.table.passages, q.isOpen = true → q.number ≠ p.number → q.track ≠ p.track := by
    intro q hq hqo hqn he
    obtain ⟨i, hi, rfl⟩ := List.mem_iff_getElem.1 hq
    obtain ⟨j, hj, rfl⟩ := List.mem_iff_getElem.1 hp
    have hpw := List.pairwise_iff_getElem.1 h5
    rcases Nat.lt_trichotomy i j with hij | hij | hij
    · exact hpw i j hi hj hij hqo ho he
    · subst hij; exact hqn rfl
    · exact hpw j i hj hi hij ho hqo he.symm
  refine ⟨?_, ?_, ?_⟩
  · intro q' hq' hqo'
    obtain ⟨q, hq, hr1, hr2, hr3⟩ := forall₂_mem_right hl hq'
    rw [hr3, Bool.and_eq_true] at hqo'
    have hqn : q.number ≠ p.number := by simpa using hqo'.2
    have htr := hne q hq hqo'.1 hqn
    have := h3 q hq hqo'.1
    rw [← hk _ htr] at this
    simpa only [hr2] using this
  · intro k hko
    have hkp : k ≠ p.track := by rintro rfl; exact hpt hko
    rw [hk k hkp] at hko
    obtain ⟨q, hq, hqk, hqo⟩ := h4 k hko
    obtain ⟨q', hq', hr1, hr2, hr3⟩ := forall₂_mem_left hl hq
    refine ⟨q', hq', hr2.trans hqk, ?_⟩
    have hqn : q.number ≠ p.number := by
      intro hqn
      rw [passage_eq_of_number hd hp hq hqn] at hqk
      exact hkp hqk.symm
    rw [hr3]; simp [hqo, hqn]
  · have : ∀ l m : List Passage, List.Forall₂ (Closes p.number) l m →
        l.Pairwise (fun p q => p.isOpen = true → q.isOpen = true → p.track ≠ q.track) →
        m.Pairwise (fun p q => p.isOpen = true → q.isOpen = true → p.track ≠ q.track) := by
      intro l m hf
      induction hf with
      | nil => exact id
      | cons hp hl ih =>
        intro h3
        obtain ⟨ha, hb⟩ := List.pairwise_cons.1 h3
        refine List.pairwise_cons.2 ⟨?_, ih hb⟩
        intro q hq ho hq2
        obtain ⟨p, hpm, hr⟩ := forall₂_mem_right hl hq
        rw [hp.2.1, hr.2.1]
        rw [hp.2.2, Bool.and_eq_true] at ho
        rw [hr.2.2, Bool.and_eq_true] at hq2
        exact ha p hpm ho.1 hq2.1
    exact this _ _ hl h5

end Sys2Proof.Machine
end

