-- ==== Sys2Proof/Laws/Closing.lean ====
section
/-! SUPPORT. The invariants over closing and abandoning passages, health, crossings and timers, and table
banks. -/

namespace Sys2Proof.Machine

set_option Elab.async false

/-! ## Bank states -/

/-- Soundness of the banks read off both states. -/
theorem Banks.sound_iff (b : Banks) : b.sound ↔
    b.depth ≤ 4
      ∧ (0 < b.depth ↔ b.slots[(0 : BankNo)].state = .staging ∨ b.slots[(1 : BankNo)].state = .staging)
      ∧ ¬ (b.slots[(0 : BankNo)].state = .active ∧ b.slots[(1 : BankNo)].state = .active)
      ∧ ¬ (b.slots[(0 : BankNo)].state = .staging ∧ b.slots[(1 : BankNo)].state = .staging)
      ∧ (b.depth = 0 → b.restoreImage = none) := by
  unfold Banks.sound
  constructor
  · rintro ⟨h1, h2, h3, h4, h5⟩
    refine ⟨h1, h2.trans ⟨?_, ?_⟩, fun h => ?_, fun h => ?_, h5⟩
    · rintro ⟨k, hk⟩
      match k, hk with
      | 0, hk => exact Or.inl hk
      | 1, hk => exact Or.inr hk
    · rintro (h | h)
      · exact ⟨0, h⟩
      · exact ⟨1, h⟩
    · exact absurd (h3 0 1 h.1 h.2) (by decide)
    · exact absurd (h4 0 1 h.1 h.2) (by decide)
  · rintro ⟨h1, h2, h3, h4, h5⟩
    refine ⟨h1, h2.trans ⟨?_, ?_⟩, ?_, ?_, h5⟩
    · rintro (h | h)
      · exact ⟨0, h⟩
      · exact ⟨1, h⟩
    · rintro ⟨k, hk⟩
      match k, hk with
      | 0, hk => exact Or.inl hk
      | 1, hk => exact Or.inr hk
    · intro j k hj hk
      match j, k, hj, hk with
      | 0, 0, _, _ => rfl
      | 1, 1, _, _ => rfl
      | 0, 1, hj, hk => exact absurd ⟨hj, hk⟩ h3
      | 1, 0, hj, hk => exact absurd ⟨hk, hj⟩ h3
    · intro j k hj hk
      match j, k, hj, hk with
      | 0, 0, _, _ => rfl
      | 1, 1, _, _ => rfl
      | 0, 1, hj, hk => exact absurd ⟨hj, hk⟩ h4
      | 1, 0, hj, hk => exact absurd ⟨hk, hj⟩ h4

/-- A bank that is neither ACTIVE nor STAGING goes to a state that is neither. -/
theorem Banks.sound_idleSlot {b : Banks} {k : BankNo} {x : BankSlot} (h : b.sound)
    (h1 : b.slots[k].state ≠ .active) (h2 : b.slots[k].state ≠ .staging) (h3 : x.state ≠ .active)
    (h4 : x.state ≠ .staging) : ({ b with slots := setAt b.slots k x } : Banks).sound := by
  rw [Banks.sound_iff] at h ⊢
  match k, h1, h2 with
  | 0, h1, h2 => simp_all [setAt]
  | 1, h1, h2 => simp_all [setAt]

/-- An operation over the banks alone that keeps them sound. -/
theorem Preserves.ofBanks (s : State) {b : Banks} (h : s.banks.sound → b.sound) :
    Preserves s { s with banks := b } :=
  ⟨⟨rfl, rfl, id, fun _ h => h, id, h, id⟩, id⟩

theorem Idle.ofBanks (s : State) (b : Banks) : Idle s { s with banks := b } := Idle.ofLink rfl

theorem Preserves.standby (s : State) (k : BankNo) (hd : s.banks.slots[k].state = .draining) :
    Preserves s (s.setBankState k .standby) :=
  Preserves.ofBanks s (fun h => Banks.sound_idleSlot h (by rw [hd]; decide) (by rw [hd]; decide)
    (fun h => nomatch h) (fun h => nomatch h))

theorem Preserves.drainCheck (s : State) (k : BankNo) : Preserves s (s.drainCheck k) := by
  unfold State.drainCheck
  split
  · rename_i h
    exact (Preserves.standby s k h.1).trans (Keeps.queueNotice _ _).preserves
  · exact Preserves.refl s

theorem Idle.drainCheck (s : State) (k : BankNo) : Idle s (s.drainCheck k) := by
  unfold State.drainCheck
  split
  · exact (Idle.ofBanks s _).trans (Idle.queueNotice _ _)
  · exact Idle.refl s

/-! ## Passages that leave APPROACHING and TAIL (R39) -/

/-- A record changed in state and timers. -/
theorem Partly.modifyPassage (s : State) (n : Nat) (f : Passage → Passage)
    (h : ∀ p, (f p).number = p.number ∧ (p.sound → (f p).sound)) : Partly s (s.modifyPassage n f) := by
  have hf : List.Forall₂ (fun p q : Passage => q.number = p.number ∧ (p.sound → q.sound))
      s.table.passages (s.modifyPassage n f).table.passages :=
    changePassage_forall₂ (fun _ => ⟨rfl, id⟩) n f _ (fun p _ => h p)
  have hm : (s.modifyPassage n f).table.passages.map (·.number) = s.table.passages.map (·.number) := by
    generalize (s.modifyPassage n f).table.passages = l at hf ⊢
    generalize s.table.passages = l0 at hf ⊢
    induction hf with
    | nil => rfl
    | cons hp _ ih => simp [hp.1, ih]
  refine ⟨rfl, rfl, ?_, ?_, id, id, id⟩
  · rintro ⟨h1, h2, h3, h4⟩
    refine ⟨hf.length_eq ▸ h1, hm ▸ h2, fun q hq => ?_, h4⟩
    obtain ⟨p, hp, hr⟩ := forall₂_mem_right hf hq
    rw [hr.1]; exact h3 p hp
  · intro _ hs q hq
    obtain ⟨p, hp, hr⟩ := forall₂_mem_right hf hq
    exact hr.2 (hs p hp)

theorem Passage.left_sound (p : Passage) (st : PassageState) (c : Option GantryTime) (h : p.sound) :
    (p.left st c).sound := Passage.sound_of_eq (p := p) rfl rfl rfl rfl h

theorem Passage.left_isOpen (p : Passage) {st : PassageState} (c : Option GantryTime)
    (h : st ≠ .approaching ∧ st ≠ .tail) : (p.left st c).isOpen = false := by
  simp [Passage.isOpen, Passage.left, h.1, h.2]

/-- The clear time that `leaveOpen` gives a passage. -/
def State.clearOf (s : State) (p : Passage) (st : PassageState) : Option GantryTime :=
  if st = .clear then some s.now else p.clearTime

theorem State.leaveOpen_eq (s : State) (p : Passage) (st : PassageState) (track : TrackState) :
    s.leaveOpen p st track
      = ((s.modifyPassage p.number (·.left st (s.clearOf p st))).trackTo p.track track).drainCheck
          p.bank := rfl

theorem Partly.leaveOpen (s : State) (p : Passage) (st : PassageState) (track : TrackState) :
    Partly s (s.leaveOpen p st track) := by
  rw [State.leaveOpen_eq]
  have h1 := Partly.modifyPassage s p.number (·.left st (s.clearOf p st))
    (fun q => ⟨rfl, q.left_sound _ _⟩)
  generalize s.modifyPassage p.number (·.left st (s.clearOf p st)) = s1 at h1
  have h2 := h1.trans (Partly.trackTo s1 p.track track)
  generalize s1.trackTo p.track track = s2 at h2
  exact h2.trans (Preserves.drainCheck s2 p.bank).toPartly

theorem Idle.leaveOpen (s : State) (p : Passage) (st : PassageState) (track : TrackState) :
    Idle s (s.leaveOpen p st track) := by
  rw [State.leaveOpen_eq]
  have h1 : Idle s (s.modifyPassage p.number (·.left st (s.clearOf p st))) := Idle.ofLink rfl
  generalize s.modifyPassage p.number (·.left st (s.clearOf p st)) = s1 at h1
  have h2 := h1.trans (Idle.trackTo s1 p.track track)
  generalize s1.trackTo p.track track = s2 at h2
  exact h2.trans (Idle.drainCheck s2 p.bank)

theorem State.drainCheck_table (s : State) (k : BankNo) : (s.drainCheck k).table = s.table := by
  unfold State.drainCheck
  split
  · rw [State.queueNotice_table]; rfl
  · rfl

theorem State.drainCheck_tracks (s : State) (k : BankNo) : (s.drainCheck k).tracks = s.tracks := by
  unfold State.drainCheck
  split
  · rw [State.queueNotice_tracks]; rfl
  · rfl

theorem Partly.tracksInv_leave {s u : State} {p : Passage} {m : TrackMonitor} (hu : Partly s u)
    (hp : p ∈ s.table.passages) (ho : p.isOpen = true)
    (hl : s.numbered → List.Forall₂ (Closes p.number) s.table.passages u.table.passages)
    (htr : u.tracks = setAt s.tracks p.track m) (hm : m.state ≠ .occupied)
    (hs : s.tracks[p.track].sound → m.sound) (h : s.tracksInv) : u.tracksInv := by
  obtain ⟨h1, h2, h3⟩ := h
  refine ⟨?_, hu.numbered h2, tracksAgree_leave h2 hp ho (hl h2) ?_ ?_ h3⟩
  · intro k
    rw [htr, getElem_setAt]
    split
    · exact hs (h1 _)
    · exact h1 k
  · intro k hk
    rw [htr, getElem_setAt, if_neg hk]
  · rw [htr, getElem_setAt, if_pos rfl]; exact hm

/-- A passage leaves APPROACHING and TAIL and its track leaves OCCUPIED. -/
theorem Preserves.leaveOpen (s : State) {p : Passage} (hp : p ∈ s.table.passages) (ho : p.isOpen = true)
    (st : PassageState) (hst : st ≠ .approaching ∧ st ≠ .tail) (track : TrackState)
    (ht : track ≠ .occupied) : Preserves s (s.leaveOpen p st track) := by
  refine ⟨Partly.leaveOpen s p st track, ?_⟩
  refine Partly.tracksInv_leave (m := (s.modifyPassage p.number
    (·.left st (s.clearOf p st))).movedTrack p.track track) (Partly.leaveOpen s p st track) hp ho ?_ ?_ ht ?_
  · intro hn
    rw [State.leaveOpen_eq, State.drainCheck_table, State.trackTo_table]
    exact changePassage_closes hn.2.1 _ _ (fun q => ⟨rfl, rfl, q.left_isOpen _ hst⟩)
  · rw [State.leaveOpen_eq, State.drainCheck_tracks, State.trackTo_tracks]; rfl
  · exact State.movedTrack_sound _ _ _

theorem Preserves.clearPassage (s : State) {p : Passage} (hp : p ∈ s.table.passages)
    (ho : p.isOpen = true) (track : TrackState) (ht : track ≠ .occupied) :
    Preserves s (s.clearPassage p track) :=
  (Preserves.leaveOpen s hp ho .clear (by decide) track ht).trans (Keeps.checkSettled _ _).preserves

theorem Preserves.checkCleared (s : State) (n : Nat) : Preserves s (s.checkCleared n) := by
  unfold State.checkCleared
  split
  · exact Preserves.refl s
  · rename_i p hp
    split
    · rename_i h
      exact Preserves.clearPassage s (passage?_mem hp) (by simp [Passage.isOpen, h.1]) _ (by decide)
    · exact Preserves.refl s

theorem Preserves.exitCrossing (s : State) (n : Nat) : Preserves s (s.exitCrossing n) :=
  (Keeps.modifyPassage s _ _ (fun p _ => p.countExit_keeps)).preserves.trans (Preserves.checkCleared _ _)

theorem Preserves.declareTail (s : State) {p : Passage} (hp : s.passage? p.number = some p)
    (ha : p.state = .approaching) : Preserves s (s.declareTail p) := by
  unfold State.declareTail
  dsimp only
  refine Preserves.trans (Keeps.trans (Keeps.modifyPassage s _ _ (fun q hq => ?_))
    (Keeps.matchTail _ _)).preserves (Preserves.checkCleared _ _)
  obtain rfl : p = q := by rw [hp] at hq; exact Option.some.inj hq
  exact Passage.enterTail_keeps (by simp [Passage.isOpen, ha]) _ _

/-- A fault recorded leaves an open passage of the table open, under its number and track. -/
theorem Keeps.mem_right {s t : State} (h : Keeps s t) {p : Passage} (hp : p ∈ s.table.passages) :
    ∃ q ∈ t.table.passages, PassageKeeps p q := forall₂_mem_left h.passages hp

/-- `leaveOpen` looks at a record's number, track, bank and clear time only. -/
theorem State.leaveOpen_congr (s : State) {p q : Passage} (hn : q.number = p.number)
    (ht : q.track = p.track) (hb : q.bank = p.bank) (hc : q.clearTime = p.clearTime)
    (st : PassageState) (track : TrackState) : s.leaveOpen p st track = s.leaveOpen q st track := by
  unfold State.leaveOpen
  rw [hn, ht, hb, hc]

theorem Preserves.clearShort (s : State) {p : Passage} (hp : p ∈ s.table.passages)
    (ho : p.isOpen = true) : Preserves s (s.clearShort p) := by
  unfold State.clearShort State.clearPassage
  have h1 := Keeps.recordFault s p.number .exitShort none none
  obtain ⟨q, hq, hk⟩ := h1.mem_right hp
  generalize s.recordFault p.number .exitShort none none = s1 at h1 hq ⊢
  refine Preserves.trans ?_ (Keeps.checkSettled _ _).preserves
  refine h1.preserves.trans ⟨Partly.leaveOpen s1 p .clear .ignoring, ?_⟩
  refine Partly.tracksInv_leave (p := q) (m := (s1.modifyPassage p.number
    (·.left .clear (s1.clearOf p .clear))).movedTrack p.track .ignoring)
    (Partly.leaveOpen s1 p .clear .ignoring) hq (hk.isOpen.trans ho) ?_ ?_ (fun h => nomatch h) ?_
  · intro hn
    rw [State.leaveOpen_eq, State.drainCheck_table, State.trackTo_table, hk.number]
    exact changePassage_closes hn.2.1 _ _ (fun q => ⟨rfl, rfl, q.left_isOpen _ (by decide)⟩)
  · rw [State.leaveOpen_eq, State.drainCheck_tracks, State.trackTo_tracks, hk.track]; rfl
  · intro h0
    refine State.movedTrack_sound _ _ _ ?_
    simp only [hk.track] at h0
    exact h0

/-! ## Abandon (R42 to R44) -/

theorem State.abandon_eq (s : State) (p : Passage) (reason : AbandonReason) (track : TrackState) :
    s.abandon p reason track
      = ((s.stopPassage p reason track).windDown p).checkSettled p.number := rfl

theorem Passage.giveReason_keeps (p : Passage) (reason : AbandonReason) :
    PassageKeeps p (p.giveReason reason) :=
  ⟨rfl, rfl, rfl, rfl, rfl, fun h => Passage.sound_of_eq (p := p) rfl rfl rfl rfl h⟩

theorem Passage.stop_sound (p : Passage) (h : p.sound) : p.stop.sound :=
  Passage.sound_of_eq (p := p) rfl rfl rfl rfl h

theorem Keeps.giveReason (s : State) (n : Nat) (reason : AbandonReason) :
    Keeps s (s.modifyPassage n (·.giveReason reason)) :=
  Keeps.modifyPassage s _ _ (fun p _ => p.giveReason_keeps reason)

theorem Partly.stopPassage (s : State) (p : Passage) (reason : AbandonReason) (track : TrackState) :
    Partly s (s.stopPassage p reason track) := by
  unfold State.stopPassage
  dsimp only
  split
  · exact (Keeps.giveReason s _ _).partly.trans (Partly.leaveOpen _ _ _ _)
  · exact (Keeps.giveReason s _ _).partly.trans
      (Partly.modifyPassage _ _ _ (fun q => ⟨rfl, q.stop_sound⟩))

theorem Idle.stopPassage (s : State) (p : Passage) (reason : AbandonReason) (track : TrackState) :
    Idle s (s.stopPassage p reason track) := by
  unfold State.stopPassage
  dsimp only
  split
  · exact Idle.trans (Keeps.giveReason s _ _).toIdle (Idle.leaveOpen _ _ _ _)
  · exact Idle.ofLink rfl

/-- How an open passage that stops changes the list, whatever fault has been recorded in it before. -/
theorem stopPassage_closes {s : State} {p : Passage} (hd : (s.table.passages.map (·.number)).Nodup)
    (ho : p.isOpen = true) (reason : AbandonReason) (track : TrackState) :
    List.Forall₂ (Closes p.number) s.table.passages (s.stopPassage p reason track).table.passages := by
  have e : (s.stopPassage p reason track).table.passages
      = changePassage p.number (·.left .stopping (s.clearOf p .stopping))
          (changePassage p.number (·.giveReason reason) s.table.passages) := by
    unfold State.stopPassage
    dsimp only
    rw [if_pos ho, State.leaveOpen_eq, State.drainCheck_table, State.trackTo_table]
    rfl
  rw [e]
  have two : ∀ l : List Passage, (l.map (·.number)).Nodup →
      List.Forall₂ (Closes p.number) l
        (changePassage p.number (·.left .stopping (s.clearOf p .stopping))
          (changePassage p.number (·.giveReason reason) l)) := by
    intro l
    induction l with
    | nil => exact fun _ => List.Forall₂.nil
    | cons a l ih =>
      intro hd
      simp only [List.map_cons, List.nodup_cons] at hd
      by_cases ha : a.number = p.number
      · have hg : (a.giveReason reason).number = p.number := ha
        rw [changePassage, if_pos ha, changePassage, if_pos hg]
        refine List.Forall₂.cons ⟨rfl, rfl, by
          rw [Passage.left_isOpen _ _ (by decide)]; simp [ha]⟩ ?_
        refine List.forall₂_same.2 (fun q hq => ⟨rfl, rfl, ?_⟩)
        have : q.number ≠ p.number := by
          intro he
          exact hd.1 (List.mem_map.2 ⟨q, hq, by rw [he, ha]⟩)
        simp [this]
      · rw [changePassage, if_neg ha, changePassage, if_neg ha]
        exact List.Forall₂.cons ⟨rfl, rfl, by simp [ha]⟩ (ih hd.2)
  exact two _ hd

theorem stopPassage_tracks {s : State} {p : Passage} (ho : p.isOpen = true) (reason : AbandonReason)
    (track : TrackState) : ∃ m : TrackMonitor, m.state = track
      ∧ (s.stopPassage p reason track).tracks = setAt s.tracks p.track m
      ∧ (s.tracks[p.track].sound → m.sound) := by
  unfold State.stopPassage
  dsimp only
  rw [if_pos ho, State.leaveOpen_eq, State.drainCheck_tracks, State.trackTo_tracks]
  exact ⟨_, rfl, rfl, State.movedTrack_sound _ _ _⟩

/-- An ordered abandon of a live passage. -/
theorem Preserves.abandon (s : State) {p : Passage} (hp : s.passage? p.number = some p)
    (reason : AbandonReason) (track : TrackState) (ht : track ≠ .occupied) :
    Preserves s (s.abandon p reason track) := by
  rw [State.abandon_eq]
  refine Preserves.trans ?_ ((Keeps.windDown _ p).trans (Keeps.checkSettled _ _)).preserves
  by_cases ho : p.isOpen = true
  · refine ⟨Partly.stopPassage s p reason track, ?_⟩
    obtain ⟨m, hm, htr, hs⟩ := stopPassage_tracks (s := s) ho reason track
    exact Partly.tracksInv_leave (Partly.stopPassage s p reason track) (passage?_mem hp) ho
      (fun hn => stopPassage_closes hn.2.1 ho reason track) htr (hm ▸ ht) hs
  · have hno : p.isOpen = false := by simpa using ho
    unfold State.stopPassage
    dsimp only
    rw [if_neg ho]
    have hk : Keeps s ((s.modifyPassage p.number (·.giveReason reason)).modifyPassage p.number
        (·.stop)) := by
      refine (Keeps.giveReason s _ _).trans (Keeps.modifyPassage _ _ _ (fun q hq => ?_))
      have hqo : q.isOpen = false := by
        have : ∀ l : List Passage, l.find? (fun x => x.number == p.number) = some p →
            (changePassage p.number (·.giveReason reason) l).find? (fun x => x.number == p.number)
              = some (p.giveReason reason) := by
          intro l
          induction l with
          | nil => intro h; cases h
          | cons a l ih =>
            intro h
            by_cases ha : a.number = p.number
            · have : a = p := by simpa [List.find?_cons, ha] using h
              subst this
              simp [changePassage, Passage.giveReason]
            · have hf : (a.number == p.number) = false := by simpa using ha
              rw [List.find?_cons, hf] at h
              simp only [changePassage, ha, if_false, List.find?_cons, hf]
              exact ih h
        have h2 := this _ hp
        have h3 : some q = some (p.giveReason reason) := by
          rw [← h2]; exact hq.symm
        rw [Option.some.inj h3]
        exact hno
      exact ⟨rfl, rfl, rfl, rfl, by rw [hqo]; rfl, q.stop_sound⟩
    exact hk.preserves

theorem Idle.abandon (s : State) (p : Passage) (reason : AbandonReason) (track : TrackState) :
    Idle s (s.abandon p reason track) := by
  rw [State.abandon_eq]
  exact Idle.trans (Idle.stopPassage s p reason track)
    ((Keeps.windDown _ p).trans (Keeps.checkSettled _ _)).toIdle

theorem openPassageOn_spec {s : State} {t : Track} {p : Passage} (h : s.openPassageOn t = some p) :
    p ∈ s.table.passages ∧ p.track = t ∧ p.isOpen = true := by
  refine ⟨List.mem_of_find?_eq_some h, ?_⟩
  have := List.find?_some h
  simp only [Bool.and_eq_true, decide_eq_true_eq] at this
  exact ⟨this.1, this.2⟩

theorem openPassageOn_isSome {s : State} {t : Track} (h : s.tracksAgree)
    (ho : s.tracks[t].state = .occupied) : ∃ p, s.openPassageOn t = some p := by
  obtain ⟨p, hp, hpt, hpo⟩ := h.2.1 t ho
  cases hf : s.openPassageOn t with
  | some q => exact ⟨q, rfl⟩
  | none =>
    have := List.find?_eq_none.1 hf p hp
    exfalso
    apply this
    have hpo2 : (decide (p.state = .approaching) || decide (p.state = .tail)) = true := hpo
    simp [hpt, hpo2]

/-- A head fault on an OCCUPIED track: HEAD_FAULT, and its passage is abandoned. -/
theorem Preserves.occupiedFault (s : State) (t : Track) :
    Partly s ((s.trackTo t .headFault).abandonByFault t)
      ∧ (s.tracks[t].state = .occupied → s.tracksInv →
          ((s.trackTo t .headFault).abandonByFault t).tracksInv) := by
  have hp1 := Partly.trackTo s t .headFault
  have htab := s.trackTo_table t .headFault
  have htr := s.trackTo_tracks t .headFault
  unfold State.abandonByFault
  split
  · rename_i p hp
    obtain ⟨hmem, hpt, hpo⟩ := openPassageOn_spec hp
    have hk := Keeps.recordFault (s.trackTo t .headFault) p.number .headFault none none
    have hpart := (hp1.trans hk.partly).trans (Partly.stopPassage _ p .headFault .headFault)
    rw [State.abandon_eq]
    have hk2 := (Keeps.windDown (((s.trackTo t .headFault).recordFault p.number .headFault none
      none).stopPassage p .headFault .headFault) p).trans (Keeps.checkSettled _ p.number)
    refine ⟨hpart.trans hk2.partly, fun ho h => hk2.tracksInv ?_⟩
    obtain ⟨m, hm, htr2, hs⟩ := stopPassage_tracks (s := (s.trackTo t .headFault).recordFault p.number
      .headFault none none) hpo .headFault .headFault
    have hmem' : p ∈ s.table.passages := htab ▸ hmem
    subst hpt
    refine Partly.tracksInv_leave (m := m) hpart hmem' hpo ?_ ?_ (by rw [hm]; decide) ?_ h
    · intro hn
      have hn2 := hk.numbered (hp1.numbered hn)
      have h1 : List.Forall₂ (fun a b : Passage => b.number = a.number ∧ b.track = a.track ∧
          b.isOpen = a.isOpen) s.table.passages ((s.trackTo p.track .headFault).recordFault p.number
            .headFault none none).table.passages := by
        rw [← htab]
        exact hk.passages.imp (fun a b h => ⟨h.number, h.track, h.isOpen⟩)
      have h2 := stopPassage_closes (s := (s.trackTo p.track .headFault).recordFault p.number .headFault
        none none) hn2.2.1 hpo .headFault .headFault
      generalize ((s.trackTo p.track .headFault).recordFault p.number .headFault none
        none).table.passages = l at h1 h2
      generalize (((s.trackTo p.track .headFault).recordFault p.number .headFault none
        none).stopPassage p .headFault .headFault).table.passages = l2 at h2
      generalize s.table.passages = l0 at h1
      clear hpart hk2 htr2
      induction h1 generalizing l2 with
      | nil => cases h2; exact List.Forall₂.nil
      | cons hr _ ih =>
        cases h2 with
        | cons hc ht =>
          exact List.Forall₂.cons ⟨hc.1.trans hr.1, hc.2.1.trans hr.2.1, by
            rw [hc.2.2, hr.2.2, hr.1]⟩ (ih _ ht)
    · rw [htr2]
      change setAt (s.trackTo p.track .headFault).tracks p.track m = _
      rw [htr]
      simp [setAt]
    · intro h0
      apply hs
      change (s.trackTo p.track .headFault).tracks[p.track].sound
      rw [htr, getElem_setAt, if_pos rfl]
      exact s.movedTrack_sound _ _ h0
  · rename_i hn
    refine ⟨hp1, fun ho h => ?_⟩
    obtain ⟨p, hp⟩ := openPassageOn_isSome h.2.2 ho
    have : (s.trackTo t .headFault).openPassageOn t = s.openPassageOn t := by
      unfold State.openPassageOn; rw [htab]
    rw [this, hp] at hn
    cases hn

theorem Preserves.actOnFault (s : State) (t : Track) : Preserves s (s.actOnFault t) := by
  unfold State.actOnFault
  split
  · exact Preserves.refl s
  · exact Preserves.refl s
  · rename_i h; exact Preserves.trackTo s t _ (by rw [h]; decide) (by decide)
  · rename_i h; exact Preserves.trackTo s t _ (by rw [h]; decide) (by decide)
  · rename_i h
    obtain ⟨h1, h2⟩ := Preserves.occupiedFault s t
    exact ⟨h1, h2 h⟩

theorem Preserves.actOnRecovery (s : State) (t : Track) : Preserves s (s.actOnRecovery t) := by
  unfold State.actOnRecovery
  split
  · rename_i h; exact Preserves.trackTo s t _ (by rw [h.1]; decide) (by decide)
  · exact Preserves.refl s

/-! ## Crossings (R11 to R14) -/

theorem Preserves.routeCrossing (s : State) (t : Track) (h : Head) (p : Passage)
    (ho : s.tracks[t].state = .occupied) : Preserves s (s.routeCrossing t h p) := by
  unfold State.routeCrossing
  split
  · split
    · exact Preserves.pushCrossing s t p _ ho
    · exact Preserves.pairCrossing s t p _
  · split
    · exact Preserves.exitCrossing s _
    · exact Preserves.refl s

theorem Preserves.crossing (s : State) (t : Track) (h : Head) : Preserves s (s.crossing t h) := by
  unfold State.crossing
  split
  · exact Preserves.refl s
  · exact Preserves.refl s
  · rename_i hs; exact Preserves.trackTo s t _ (by rw [hs]; decide) (by decide)
  · rename_i hs
    split
    · exact Preserves.askOpening s t _ (by rw [hs]; decide)
    · exact (Keeps.queueNotice s _).preserves
  · rename_i hs
    split
    · exact Preserves.routeCrossing s t h _ hs
    · exact Preserves.refl s

end Sys2Proof.Machine
end

