-- ==== Sys2Proof/Laws/Requests.lean ====
section
/-! SUPPORT. The invariants over requests, the gantry link, RESTART and whole commands. -/

namespace Sys2Proof.Machine

set_option Elab.async false

/-! ## Table banks (chapter 8) -/

theorem Banks.staging?_some {b : Banks} {k : BankNo} (h : b.staging? = some k) :
    b.slots[k].state = .staging := by
  unfold Banks.staging? at h
  split at h
  · cases h; assumption
  · split at h
    · cases h; assumption
    · cases h

theorem Banks.staging?_none {b : Banks} (h : b.staging? = none) (k : BankNo) :
    b.slots[k].state ≠ .staging := by
  unfold Banks.staging? at h
  split at h
  · cases h
  · split at h
    · cases h
    · match k with
      | 0 => assumption
      | 1 => assumption

theorem Banks.active?_some {b : Banks} {k : BankNo} (h : b.active? = some k) :
    b.slots[k].state = .active := by
  unfold Banks.active? at h
  split at h
  · cases h; assumption
  · split at h
    · cases h; assumption
    · cases h

theorem Banks.active?_none {b : Banks} (h : b.active? = none) (k : BankNo) :
    b.slots[k].state ≠ .active := by
  unfold Banks.active? at h
  split at h
  · cases h
  · split at h
    · cases h
    · match k with
      | 0 => assumption
      | 1 => assumption

theorem Banks.open?_some {b : Banks} {k : BankNo} (h : b.open? = some k) :
    b.depth ≠ 0 ∧ b.slots[k].state = .staging := by
  unfold Banks.open? at h
  split at h
  · cases h
  · exact ⟨by assumption, staging?_some h⟩

/-- No transaction is open: depth 0. -/
theorem Banks.open?_none {b : Banks} (hb : b.sound) (h : b.open? = none) : b.depth = 0 := by
  unfold Banks.open? at h
  split at h
  · assumption
  · rename_i hd
    obtain ⟨k, hk⟩ := hb.2.1.1 (by omega)
    exact absurd hk (staging?_none h k)

/-- A bank takes STAGING at depth 0, or keeps it, or leaves it: soundness from both states. -/
theorem Banks.stage_sound {b : Banks} (hb : b.sound) (h : b.open? = none) : (b.stage b.toStage).sound := by
  have hd := open?_none hb h
  have hs : ∀ k : BankNo, b.slots[k].state ≠ .staging := by
    intro k hk
    have := hb.2.1.2 ⟨k, hk⟩
    omega
  have h0 := hs 0
  have h1 := hs 1
  have key : ∀ (k : BankNo) (c : Bank) (r : Option Bank),
      ({ b.setSlot k .staging c with depth := 1, restoreImage := r } : Banks).sound := by
    intro k c r
    rw [Banks.sound_iff]
    match k with
    | 0 => simp_all [Banks.setSlot]
    | 1 => simp_all [Banks.setSlot]
  unfold Banks.stage
  split
  · exact key _ _ _
  · exact key _ _ _

theorem Banks.deeper_sound {b : Banks} (hb : b.sound) (h1 : b.depth ≠ 0) (h4 : b.depth < 4) :
    ({ b with depth := b.depth + 1 } : Banks).sound := by
  refine ⟨by simp only; omega, ?_, hb.2.2.1, hb.2.2.2.1, fun h => by simp only at h; omega⟩
  exact ⟨fun _ => hb.2.1.1 (by omega), fun _ => by simp only; omega⟩

theorem Banks.shallower_sound {b : Banks} (hb : b.sound) (h2 : 2 ≤ b.depth) :
    ({ b with depth := b.depth - 1 } : Banks).sound := by
  have := hb.1
  refine ⟨by simp only; omega, ?_, hb.2.2.1, hb.2.2.2.1, fun h => by simp only at h; omega⟩
  exact ⟨fun _ => hb.2.1.1 (by omega), fun _ => by simp only; omega⟩

theorem Banks.setStaging_sound {b : Banks} {k : BankNo} (hb : b.sound)
    (hk : b.slots[k].state = .staging) (c : Bank) : (b.setSlot k .staging c).sound := by
  rw [Banks.sound_iff] at hb ⊢
  match k, hk with
  | 0, hk => simp_all [Banks.setSlot]
  | 1, hk => simp_all [Banks.setSlot]

theorem Banks.abort_sound {b : Banks} (hb : b.sound) : b.abort.sound := by
  unfold Banks.abort
  have key : ∀ (k : BankNo) (st : BankState) (c : Bank), st ≠ .active → st ≠ .staging →
      b.slots[k].state = .staging →
      ({ b.setSlot k st c with depth := 0, restoreImage := none } : Banks).sound := by
    intro k st c h1 h2 hk
    rw [Banks.sound_iff] at hb ⊢
    match k, hk with
    | 0, hk => simp_all [Banks.setSlot]
    | 1, hk => simp_all [Banks.setSlot]
  split
  · rename_i k hk
    split
    · exact key k _ _ (by decide) (by decide) (staging?_some hk)
    · exact key k _ _ (by decide) (by decide) (staging?_some hk)
  · rename_i hk
    have h0 := staging?_none hk 0
    have h1 := staging?_none hk 1
    rw [Banks.sound_iff] at hb ⊢
    simp_all

theorem Preserves.abortTransaction (s : State) : Preserves s s.abortTransaction := by
  unfold State.abortTransaction
  split
  · exact Preserves.refl s
  · exact Preserves.ofBanks s Banks.abort_sound

theorem Idle.abortTransaction (s : State) : Idle s s.abortTransaction := by
  unfold State.abortTransaction
  split
  · exact Idle.refl s
  · exact Idle.ofBanks s _

/-- The banks after the switch of a commit. -/
theorem Preserves.switchBanks (s : State) {k : BankNo} (hk : s.banks.open? = some k) :
    Preserves s (s.switchBanks k) ∧ Idle s (s.switchBanks k) := by
  obtain ⟨hd, hks⟩ := Banks.open?_some hk
  have aside : ∀ a, s.standAside a ≠ .active ∧ s.standAside a ≠ .staging := by
    intro a
    unfold State.standAside
    split <;> exact ⟨by decide, by decide⟩
  unfold State.switchBanks
  dsimp only
  split
  · rename_i a ha
    have has := Banks.active?_some ha
    have hp := aside a
    generalize s.standAside a = st at hp ⊢
    refine ⟨Preserves.ofBanks s (fun hb => ?_), Idle.ofBanks s _⟩
    rw [Banks.sound_iff] at hb ⊢
    match k, a, hks, has with
    | 0, 0, hks, has => rw [hks] at has; cases has
    | 1, 1, hks, has => rw [hks] at has; cases has
    | 0, 1, hks, has => simp_all [State.setBankState]
    | 1, 0, hks, has => simp_all [State.setBankState]
  · rename_i ha
    have h0 := Banks.active?_none ha 0
    have h1 := Banks.active?_none ha 1
    refine ⟨Preserves.ofBanks s (fun hb => ?_), Idle.ofBanks s _⟩
    rw [Banks.sound_iff] at hb ⊢
    match k, hks with
    | 0, hks => simp_all [State.setBankState]
    | 1, hks => simp_all [State.setBankState]

theorem Keeps.commitLine (s : State) (c : Camera) : Keeps s (s.commitLine c) := by
  unfold State.commitLine
  split
  · exact Keeps.beginLinking s c _
  · exact Keeps.refl s

theorem Preserves.commit (s : State) {k : BankNo} (hk : s.banks.open? = some k) :
    Preserves s (s.commit k) ∧ Idle s (s.commit k) := by
  obtain ⟨h1, h2⟩ := Preserves.switchBanks s hk
  unfold State.commit
  generalize List.finRange 12 = l
  have h3 := Keeps.foldl State.commitLine Keeps.commitLine l (s.switchBanks k)
  exact ⟨h1.trans h3.preserves, Idle.trans h2 h3.toIdle⟩

/-! ## What owners do (9.3.2) -/

/-- An owner's new state: the invariants, and no request touched. -/
def Serves (s : State) (x : State × Answer) : Prop := Preserves s x.1 ∧ Idle s x.1

theorem Serves.same (s : State) (a : Answer) : Serves s (s, a) := ⟨Preserves.refl s, Idle.refl s⟩

theorem Keeps.serves {s t : State} (h : Keeps s t) (a : Answer) : Serves s (t, a) := ⟨h.preserves, h.toIdle⟩

theorem Serves.timeSet (s : State) (x : BitVec 64) : Serves s (s.timeSet x) := by
  unfold State.timeSet
  split
  · exact Serves.same s _
  · split
    · exact Serves.same s _
    · exact ⟨⟨⟨rfl, rfl, id, fun _ h => h, id, id, id⟩, id⟩, Idle.ofLink rfl⟩

theorem Serves.trackArm (s : State) (x : Byte) : Serves s (s.trackArm x) := by
  unfold State.trackArm
  split
  · exact Serves.same s _
  · exact Serves.same s _
  · split
    · exact Serves.same s _
    · split
      · exact Serves.same s _
      · rename_i h
        have h1 := not_not.1 h
        refine ⟨Preserves.trackTo s _ _ (by rw [h1]; decide) ?_, Idle.trackTo s _ _⟩
        split <;> decide

theorem Serves.trackDisarm (s : State) (x : Byte) : Serves s (s.trackDisarm x) := by
  unfold State.trackDisarm
  split
  · exact Serves.same s _
  · split
    · exact Serves.same s _
    · exact Serves.same s _
    all_goals
      rename_i h
      exact ⟨Preserves.trackTo s _ _ (by rw [h]; decide) (by decide), Idle.trackTo s _ _⟩

/-- Passages leave the table. -/
theorem Partly.filterPassages (s : State) (f : Passage → Bool) :
    Partly s { s with table := { s.table with passages := s.table.passages.filter f } } := by
  refine ⟨rfl, rfl, ?_, fun _ h q hq => h q (List.mem_filter.1 hq).1, id, id, id⟩
  rintro ⟨h1, h2, h3, h4⟩
  refine ⟨(List.length_filter_le _ _).trans h1, ?_, fun p hp => h3 p (List.mem_filter.1 hp).1, h4⟩
  exact h2.sublist ((List.filter_sublist (l := s.table.passages)).map _)

theorem Preserves.removePassage (s : State) (n : Nat)
    (h : ∀ p ∈ s.table.passages, p.number = n → p.isOpen = false) : Preserves s (s.removePassage n) := by
  refine ⟨Partly.filterPassages s _, ?_⟩
  rintro ⟨h1, h2, h3, h4, h5⟩
  refine ⟨h1, (Partly.filterPassages s _).numbered h2, fun p hp => h3 p (List.mem_filter.1 hp).1, ?_,
    h5.filter _⟩
  intro t ht
  obtain ⟨p, hp, hpt, hpo⟩ := h4 t ht
  refine ⟨p, List.mem_filter.2 ⟨hp, ?_⟩, hpt, hpo⟩
  simp only [bne_iff_ne, ne_eq]
  intro hn
  rw [h p hp hn] at hpo
  cases hpo

theorem namedPassage_ok {s : State} {n : BitVec 16} {p : Passage} (h : s.namedPassage n = .ok p) :
    s.passage? n.toNat = some p := by
  unfold State.namedPassage at h
  split at h
  · cases h
  · split at h
    · rename_i q hq
      cases h; exact hq
    · cases h

theorem Serves.releasePassage (s : State) (n : BitVec 16) : Serves s (s.releasePassage n) := by
  unfold State.releasePassage
  split
  · exact Serves.same s _
  · rename_i p hp
    split
    · rename_i hst
      have h0 := namedPassage_ok hp
      have hno : p.isOpen = false := by rcases hst with h | h <;> simp [Passage.isOpen, h]
      have hk := Keeps.freePages s p.allPages
      refine ⟨⟨hk.partly.trans (Partly.filterPassages _ _), fun ht => ?_⟩,
        Idle.trans hk.toIdle (Idle.ofLink rfl)⟩
      have ht2 := hk.tracksInv ht
      refine (Preserves.removePassage _ p.number (fun q hq hqn => ?_)).tracks ht2
      obtain ⟨r, hr, hrk⟩ := forall₂_mem_right hk.passages hq
      have : r = p := passage_eq_of_number ht.2.1 (passage?_mem h0) hr (hrk.number.symm.trans hqn)
      rw [hrk.isOpen, this]; exact hno
    · exact Serves.same s _

theorem Serves.abandonPassage (s : State) (n : BitVec 16) : Serves s (s.abandonPassage n) := by
  unfold State.abandonPassage
  split
  · exact Serves.same s _
  · rename_i p hp
    have h0 := namedPassage_ok hp
    have h1 : s.passage? p.number = some p := by rw [passage?_number h0]; exact h0
    split
    all_goals first
      | exact ⟨Preserves.abandon s h1 _ _ (by decide), Idle.abandon s p _ _⟩
      | exact Serves.same s _

theorem Keeps.serviceOn (s : State) (c : Camera) : Keeps s (s.serviceOn c) := by
  unfold State.serviceOn
  split
  all_goals first
    | exact Keeps.beginLinking s c _
    | exact Keeps.refl s

theorem Keeps.serviceOff (s : State) (c : Camera) : Keeps s (s.serviceOff c) := by
  unfold State.serviceOff
  split
  all_goals first
    | exact Keeps.changeLine s c _ _ _
    | exact Keeps.refl s

theorem Serves.cameraService (s : State) (l o : Byte) : Serves s (s.cameraService l o) := by
  unfold State.cameraService
  split
  · exact Serves.same s _
  · split
    · exact (Keeps.serviceOff s _).serves _
    · split
      · exact Serves.same s _
      · split
        · exact (Keeps.serviceOn s _).serves _
        · exact Serves.same s _
    · exact Serves.same s _

theorem Serves.pageRetire (s : State) (p sp : BitVec 16) : Serves s (s.pageRetire p sp) := by
  unfold State.pageRetire
  dsimp only
  split
  · exact Serves.same s _
  · exact ((Keeps.setMemory s (fun h => FrameMemory.pageRetire_wf h _ _)).trans
      (Keeps.queueNotices _ _)).serves _

theorem Serves.pageRestore (s : State) (p : BitVec 16) : Serves s (s.pageRestore p) := by
  unfold State.pageRestore
  dsimp only
  split
  · exact Serves.same s _
  · split
    · exact Serves.same s _
    · exact (Keeps.setMemory s (fun h => FrameMemory.setPage_wf h _ _)).serves _

theorem Serves.tableBegin (s : State) : Serves s s.tableBegin := by
  unfold State.tableBegin
  split
  · rename_i h
    dsimp only
    split
    · exact Serves.same s _
    · exact ⟨Preserves.ofBanks s (fun hb => Banks.stage_sound hb h), Idle.ofBanks s _⟩
  · rename_i k h
    split
    · exact Serves.same s _
    · rename_i h4
      exact ⟨Preserves.ofBanks s (fun hb => Banks.deeper_sound hb (Banks.open?_some h).1 (by omega)),
        Idle.ofBanks s _⟩

theorem Serves.tablePut (s : State) (kind index : Byte) (c : List Byte) :
    Serves s (s.tablePut kind index c) := by
  unfold State.tablePut
  split
  · exact Serves.same s _
  · exact Serves.same s _
  · rename_i k a h _
    exact ⟨Preserves.ofBanks s (fun hb => Banks.setStaging_sound hb (Banks.open?_some h).2 _),
      Idle.ofBanks s _⟩

theorem Serves.commitBank (s : State) {k : BankNo} (hk : s.banks.open? = some k) :
    Serves s (s.commitBank k) := by
  unfold State.commitBank
  split
  · exact ⟨Preserves.abortTransaction s, Idle.abortTransaction s⟩
  · obtain ⟨h1, h2⟩ := Preserves.commit s hk
    generalize s.commit k = t at h1 h2 ⊢
    exact ⟨h1, h2⟩

theorem Serves.tableEnd (s : State) : Serves s s.tableEnd := by
  unfold State.tableEnd
  split
  · exact Serves.same s _
  · rename_i k h
    split
    · rename_i h2
      exact ⟨Preserves.ofBanks s (fun hb => Banks.shallower_sound hb h2), Idle.ofBanks s _⟩
    · exact Serves.commitBank s h

theorem Serves.tableAbort (s : State) : Serves s s.tableAbort := by
  unfold State.tableAbort
  split
  · exact Serves.same s _
  · exact ⟨Preserves.abortTransaction s, Idle.abortTransaction s⟩

/-! ## Taking requests (R182, R183) -/

theorem Link.processingReply_iff (l : Link) : l.processingReply = false ↔ l.processingReplies = 0 := by
  unfold Link.processingReply Link.processingReplies
  rw [List.countP_eq_zero, List.any_eq_false]

/-- An operation over the link alone. -/
theorem Preserves.ofLink (s : State) {l : Link} (h : s.link.sound → l.sound) :
    Preserves s { s with link := l } :=
  ⟨⟨rfl, rfl, id, fun _ h => h, id, id, h⟩, id⟩

/-- A response of request processing takes the one place it has. -/
theorem Preserves.placeAnswer (s : State) (tag : Byte) (code : BitVec 16) (a : Answer)
    (h0 : s.link.processingReplies = 0) (hi : s.link.inProgress = none) :
    Preserves s (s.placeAnswer tag code a) := by
  refine Preserves.ofLink s (fun hl => ⟨hl.1, hl.2.1, ?_, ?_, ?_⟩)
  · have := hl.2.2.1
    simpa [Link.immediateReplies] using this
  · simp only [Link.processingReplies] at h0
    simp [Link.processingReplies, h0]
  · intro hs
    simp [Link.sensing, hi] at hs

theorem Preserves.reply {s : State} {x : State × Answer} (h : Serves s x) (tag : Byte) (code : BitVec 16)
    (h0 : s.link.processingReplies = 0) (hi : s.link.inProgress = none) :
    Preserves s (State.reply x tag code) := by
  obtain ⟨hp, hq⟩ := h
  obtain ⟨h1, h2⟩ := hq.1 hi
  refine hp.trans (Preserves.placeAnswer _ tag code _ ?_ h1)
  unfold Link.processingReplies at *
  rw [h2]; exact h0

theorem Preserves.setRestart (s : State) (b : Bool) : Preserves s (s.setInProgress (.restart b)) :=
  Preserves.ofLink s (fun h => ⟨h.1, h.2.1, h.2.2.1, h.2.2.2.1, fun hs => by simp [Link.sensing] at hs⟩)

theorem Preserves.setFetch (s : State) (f : Fetch) : Preserves s (s.setInProgress (.fetch f)) :=
  Preserves.ofLink s (fun h => ⟨h.1, h.2.1, h.2.2.1, h.2.2.2.1, fun hs => by simp [Link.sensing] at hs⟩)

theorem Preserves.takeCameraSense (s : State) (tag line : Byte)
    (h0 : s.link.processingReplies = 0) (hi : s.link.inProgress = none) :
    Preserves s (s.takeCameraSense tag line) := by
  unfold State.takeCameraSense
  split
  · exact Preserves.placeAnswer s _ _ _ h0 hi
  · refine Preserves.trans (Preserves.ofLink s (fun h => ?_)) (Keeps.placeOrder _ _ _).preserves
    exact ⟨h.1, h.2.1, h.2.2.1, h.2.2.2.1, fun _ => h0⟩

theorem Preserves.takeFetch (s : State) (tag : Byte) (n : BitVec 16) (k f c : Byte)
    (h0 : s.link.processingReplies = 0) (hi : s.link.inProgress = none) :
    Preserves s (s.takeFetch tag n k f c) := by
  unfold State.takeFetch
  split
  · exact Preserves.placeAnswer s _ _ _ h0 hi
  · dsimp only
    have h1 := fun d => Preserves.placeAnswer s tag 0x0903 (.done d) h0 hi
    split
    · exact h1 _
    · exact (h1 _).trans (Preserves.setFetch _ _)

theorem Preserves.carryOut (s : State) (tag : Byte) (r : Request)
    (h0 : s.link.processingReplies = 0) (hi : s.link.inProgress = none) :
    Preserves s (s.carryOut tag r) := by
  have look : ∀ a code, Preserves s (State.reply (s, a) tag code) :=
    fun a code => Preserves.reply (Serves.same s a) tag code h0 hi
  cases r with
  | timeSet t => exact Preserves.reply (Serves.timeSet s t) tag _ h0 hi
  | timeGet => exact look _ _
  | trackArm t => exact Preserves.reply (Serves.trackArm s t) tag _ h0 hi
  | trackDisarm t => exact Preserves.reply (Serves.trackDisarm s t) tag _ h0 hi
  | trackStatus t => exact look _ _
  | listPassages => exact look _ _
  | readPassage p part start => exact look _ _
  | releasePassage p => exact Preserves.reply (Serves.releasePassage s p) tag _ h0 hi
  | abandonPassage p => exact Preserves.reply (Serves.abandonPassage s p) tag _ h0 hi
  | cameraService l on => exact Preserves.reply (Serves.cameraService s l on) tag _ h0 hi
  | cameraSense l => exact Preserves.takeCameraSense s tag l h0 hi
  | memoryStatus p => exact look _ _
  | pageRetire p sp => exact Preserves.reply (Serves.pageRetire s p sp) tag _ h0 hi
  | pageRestore p => exact Preserves.reply (Serves.pageRestore s p) tag _ h0 hi
  | tableBegin => exact Preserves.reply (Serves.tableBegin s) tag _ h0 hi
  | tablePut kind index c => exact Preserves.reply (Serves.tablePut s kind index c) tag _ h0 hi
  | tableGet b kind index => exact look _ _
  | tableEnd => exact Preserves.reply (Serves.tableEnd s) tag _ h0 hi
  | tableAbort => exact Preserves.reply (Serves.tableAbort s) tag _ h0 hi
  | bankStatus => exact look _ _
  | identify => exact look _ _
  | restart =>
    exact (Preserves.placeAnswer s tag 0x0902 (.done []) h0 hi).trans (Preserves.setRestart _ _)
  | fetchImage p k f c => exact Preserves.takeFetch s tag p k f c h0 hi

theorem Preserves.takeRequest (s : State) : Preserves s s.takeRequest := by
  unfold State.takeRequest
  split
  · rename_i w rest hi hr
    split
    · exact Preserves.refl s
    · rename_i hp
      have h0 : s.link.processingReplies = 0 := (Link.processingReply_iff _).1 (by simpa using hp)
      have h1 : Preserves s { s with link := { s.link with requests := rest } } := by
        refine Preserves.ofLink s (fun h => ⟨h.1, ?_, h.2.2⟩)
        have := h.2.1
        rw [hr] at this
        simp only [List.length_cons] at this
        change rest.length ≤ requestPlaces
        omega
      exact h1.trans (Preserves.carryOut _ w.tag w.request h0 hi)
  · exact Preserves.refl s

theorem Preserves.refuseAtOnce (s : State) (tag : Byte) (code : BitVec 16) (d : Detail) :
    Preserves s (s.refuseAtOnce tag code d) := by
  unfold State.refuseAtOnce
  split
  · rename_i h8
    refine Preserves.ofLink s (fun hl => ⟨hl.1, hl.2.1, ?_, ?_, ?_⟩)
    · simp only [Link.immediateReplies, List.countP_append, List.countP_singleton]
      simp only [immediatePlaces] at *
      simp only [if_true]; omega
    · have := hl.2.2.2.1
      simpa [Link.processingReplies] using this
    · intro hs
      have := hl.2.2.2.2 hs
      simp only [Link.processingReplies] at this
      simp [Link.processingReplies, this]
  · exact Preserves.refl s

theorem Preserves.enrol (s : State) (tag : Byte) (r : Request) : Preserves s (s.enrol tag r) := by
  unfold State.enrol
  split
  · rename_i h4
    have h1 : Preserves s (s.queueRequest tag r) := by
      refine Preserves.ofLink s (fun h => ⟨h.1, ?_, h.2.2⟩)
      simp only [List.length_append, List.length_singleton]; omega
    exact h1.trans (Preserves.takeRequest _)
  · exact Preserves.refuseAtOnce s _ _ _

theorem Preserves.arrive (s : State) (tag : Byte) (body : List Byte) : Preserves s (s.arrive tag body) := by
  unfold State.arrive
  split
  · exact (Preserves.enrol s tag _).trans (Keeps.endEvent _).preserves
  · exact (Preserves.refuseAtOnce s tag _ _).trans (Keeps.endEvent _).preserves

theorem Preserves.request (s : State) (tag : Byte) (r : Request) : Preserves s (s.request tag r) := by
  unfold State.request
  split
  · split
    · exact (Preserves.enrol s tag _).trans (Keeps.endEvent _).preserves
    · exact (Preserves.refuseAtOnce s tag _ _).trans (Keeps.endEvent _).preserves
  · exact Preserves.refl s

theorem Preserves.setReceived (s : State) (bs : List Byte) : Preserves s (s.setReceived bs) :=
  Preserves.ofLink s id

theorem Preserves.receive (bound : Nat) (s : State) (bs : List Byte) :
    Preserves s (State.receive bound s bs) := by
  induction bound generalizing s bs with
  | zero => exact Preserves.setReceived s bs
  | succ bound ih =>
    unfold State.receive
    split
    · exact Preserves.setReceived s _
    · exact ih s _
    · exact ((Preserves.setReceived s []).trans (Preserves.arrive _ _ _)).trans (ih _ _)

/-! ## RESTART (R190) -/

theorem Partly.foldl {α : Type} (f : State → α → State) (h : ∀ s a, Partly s (f s a)) (l : List α)
    (s : State) : Partly s (l.foldl f s) := by
  induction l generalizing s with
  | nil => exact Partly.refl s
  | cons a l ih => exact (h s a).trans (ih _)

theorem Partly.restartTrack (s : State) (t : Track) : Partly s (s.restartTrack t) := by
  unfold State.restartTrack
  dsimp only
  split
  · exact Partly.refl s
  · exact Partly.setTrack s t _

theorem Keeps.restartLine (s : State) (c : Camera) : Keeps s (s.restartLine c) := by
  unfold State.restartLine
  dsimp only
  split
  · exact Keeps.setLine s c _
  · exact (Keeps.setLine s c _).trans (Keeps.issueOrder _ c)

theorem Preserves.restartBank (s : State) (k : BankNo) : Preserves s (s.restartBank k) := by
  unfold State.restartBank
  split
  · rename_i h; exact Preserves.standby s k h
  · exact Preserves.refl s

theorem Partly.emptyTable (s : State) :
    Partly s { s with table := { s.table with passages := [] }, shotQueue := [] } := by
  refine ⟨rfl, rfl, ?_, fun _ _ p hp => by simp at hp, id, id, id⟩
  rintro ⟨-, -, -, h4⟩
  exact ⟨by simp, by simp, by simp, h4⟩

theorem Partly.settleLow (s : State) : Partly s s.settleLow :=
  ⟨rfl, rfl, id, fun _ h => h, id, id, id⟩

/-- The blocks restarted, but for the tracks. -/
theorem Partly.restartBlocks (s : State) : Partly s s.restartBlocks := by
  unfold State.restartBlocks
  dsimp only
  generalize List.finRange 12 = l12
  generalize List.finRange 4 = l4
  generalize List.finRange 2 = l2
  have h1 := (Partly.foldl _ Partly.restartTrack l4 s).trans (Partly.emptyTable _)
  generalize l4.foldl State.restartTrack s = s1 at h1
  have h2 := (h1.trans (Partly.foldl State.restartFire (fun s c => (Keeps.setFire s c _).partly) l12
    _)).trans (Partly.foldl State.restartStrobe (fun s b => (Keeps.setStrobe s b _).partly) l4 _)
  generalize l4.foldl State.restartStrobe (l12.foldl State.restartFire
    { s1 with table := { s1.table with passages := [] }, shotQueue := [] }) = s3 at h2
  have h3 := (h2.trans (Partly.inert (t := { s3 with readout := ⟨[], Vector.replicate 4 none⟩ })
    rfl rfl rfl rfl rfl rfl)).trans (Partly.foldl State.restartLine
      (fun s c => (Keeps.restartLine s c).partly) l12 _)
  generalize l12.foldl State.restartLine { s3 with readout := ⟨[], Vector.replicate 4 none⟩ } = s5 at h3
  have h4 := (h3.trans (Keeps.setMemory s5 FrameMemory.restart_wf).partly).trans
    (Preserves.abortTransaction _).toPartly
  have h5 := h4.trans (Partly.foldl State.restartBank (fun s k => (Preserves.restartBank s k).toPartly)
    l2 _)
  generalize l2.foldl State.restartBank (s5.setMemory s5.memory.restart).abortTransaction = s6 at h5
  exact h5.trans (Partly.settleLow s6)

/-- Where no passage is live and no track is OCCUPIED, tracks and passages agree. -/
theorem tracksInv_of_empty {s : State} (h1 : s.tracksSound) (h2 : s.numbered)
    (h3 : s.table.passages = []) (h4 : ∀ t : Track, s.tracks[t].state ≠ .occupied) : s.tracksInv :=
  ⟨h1, h2, by rw [h3]; simp, fun t ht => absurd ht (h4 t), by rw [h3]; exact List.Pairwise.nil⟩

/-- What an operation of the restart after the tracks leaves of them and of the table. -/
def SameTracks (s t : State) : Prop := t.tracks = s.tracks ∧ (s.table.passages = [] → t.table.passages = [])

theorem SameTracks.refl (s : State) : SameTracks s s := ⟨rfl, id⟩

theorem SameTracks.trans {s t u : State} (h : SameTracks s t) (k : SameTracks t u) : SameTracks s u :=
  ⟨k.1.trans h.1, k.2 ∘ h.2⟩

theorem SameTracks.foldl {α : Type} (f : State → α → State) (h : ∀ s a, SameTracks s (f s a))
    (l : List α) (s : State) : SameTracks s (l.foldl f s) := by
  induction l generalizing s with
  | nil => exact SameTracks.refl s
  | cons a l ih => exact (h s a).trans (ih _)

theorem Keeps.sameTracks {s t : State} (h : Keeps s t) : SameTracks s t :=
  ⟨h.tracks, fun he => by have := h.passages; rw [he] at this; exact List.forall₂_nil_left_iff.1 this⟩

theorem SameTracks.abortTransaction (s : State) : SameTracks s s.abortTransaction := by
  unfold State.abortTransaction
  split <;> exact ⟨rfl, id⟩

theorem SameTracks.restartBank (s : State) (k : BankNo) : SameTracks s (s.restartBank k) := by
  unfold State.restartBank
  split <;> exact ⟨rfl, id⟩

/-- A restarted monitor: sound, and not OCCUPIED. -/
theorem restartTracks_spec (l : List Track) (s : State) :
    ∀ t : Track, (s.tracks[t].sound → (l.foldl State.restartTrack s).tracks[t].sound)
      ∧ (t ∈ l ∨ s.tracks[t].state ≠ .occupied →
          (l.foldl State.restartTrack s).tracks[t].state ≠ .occupied) := by
  induction l generalizing s with
  | nil => intro t; exact ⟨id, fun h => by simpa using h⟩
  | cons a l ih =>
    intro t
    have h1 : (s.tracks[t].sound → (s.restartTrack a).tracks[t].sound)
        ∧ (t = a ∨ s.tracks[t].state ≠ .occupied → (s.restartTrack a).tracks[t].state ≠ .occupied) := by
      by_cases hd : s.tracks[a].state = .disarmed
      · have e : s.restartTrack a = s := by unfold State.restartTrack; exact if_pos hd
        rw [e]
        refine ⟨id, fun h => ?_⟩
        rcases h with rfl | h
        · rw [hd]; decide
        · exact h
      · have e : (s.restartTrack a).tracks = setAt s.tracks a { s.tracks[a] with
            state := .ignoring, fifoA := [], fifoB := [], quiet := some (s.after (s.quietTime a)) } := by
          unfold State.restartTrack; dsimp only; rw [if_neg hd]; rfl
        simp only [e, getElem_setAt]
        split
        · exact ⟨fun _ => ⟨by simp, by simp, by simp, fun _ => ⟨rfl, rfl⟩⟩, fun _ => by simp⟩
        · rename_i hta
          exact ⟨id, fun h => h.resolve_left hta⟩
    obtain ⟨h2, h3⟩ := ih (s.restartTrack a) t
    refine ⟨h2 ∘ h1.1, fun h => ?_⟩
    rcases h with h | h
    · rcases List.mem_cons.1 h with h | h
      · exact h3 (Or.inr (h1.2 (Or.inl h)))
      · exact h3 (Or.inl h)
    · exact h3 (Or.inr (h1.2 (Or.inr h)))

theorem restartBlocks_tracks (s : State) :
    s.restartBlocks.tracks = ((List.finRange 4).foldl State.restartTrack s).tracks
      ∧ s.restartBlocks.table.passages = [] := by
  unfold State.restartBlocks
  dsimp only
  generalize List.finRange 12 = l12
  generalize List.finRange 4 = l4
  generalize List.finRange 2 = l2
  generalize l4.foldl State.restartTrack s = s1
  have h0 : SameTracks s1 { s1 with table := { s1.table with passages := [] }, shotQueue := [] } :=
    ⟨rfl, fun _ => rfl⟩
  generalize hs2 : ({ s1 with table := { s1.table with passages := [] }, shotQueue := [] } : State) = s2
    at h0
  have he : s2.table.passages = [] := by rw [← hs2]
  have h := (SameTracks.foldl State.restartFire (fun s c => (Keeps.setFire s c _).sameTracks) l12
    s2).trans (SameTracks.foldl State.restartStrobe (fun s b => (Keeps.setStrobe s b _).sameTracks) l4 _)
  generalize l4.foldl State.restartStrobe (l12.foldl State.restartFire s2) = s3 at h
  have h2 : SameTracks s3 { s3 with readout := ⟨[], Vector.replicate 4 none⟩ } := ⟨rfl, id⟩
  have h3 := (h.trans h2).trans (SameTracks.foldl State.restartLine
    (fun s c => (Keeps.restartLine s c).sameTracks) l12 _)
  generalize l12.foldl State.restartLine { s3 with readout := ⟨[], Vector.replicate 4 none⟩ } = s5 at h3
  have h4 := (h3.trans (Keeps.setMemory s5 (m := s5.memory.restart) FrameMemory.restart_wf).sameTracks).trans
    (SameTracks.abortTransaction (s5.setMemory s5.memory.restart))
  have h5 := h4.trans (SameTracks.foldl State.restartBank SameTracks.restartBank l2 _)
  generalize l2.foldl State.restartBank (s5.setMemory s5.memory.restart).abortTransaction = s6 at h5
  have h6 : SameTracks s2 s6.settleLow := h5.trans ⟨rfl, id⟩
  exact ⟨h6.1.trans h0.1, h6.2 he⟩

theorem Preserves.restartBlocks (s : State) : Preserves s s.restartBlocks := by
  refine ⟨Partly.restartBlocks s, fun h => ?_⟩
  obtain ⟨h1, h2⟩ := restartBlocks_tracks s
  refine tracksInv_of_empty ?_ ((Partly.restartBlocks s).numbered h.2.1) h2 ?_
  · intro t
    simp only [h1]
    exact (restartTracks_spec _ s t).1 (h.1 t)
  · intro t
    simp only [h1]
    exact (restartTracks_spec _ s t).2 (Or.inl (List.mem_finRange t))

theorem Preserves.foldl {α : Type} (f : State → α → State) (h : ∀ s a, Preserves s (f s a))
    (l : List α) (s : State) : Preserves s (l.foldl f s) := by
  induction l generalizing s with
  | nil => exact Preserves.refl s
  | cons a l ih => exact (h s a).trans (ih _)

theorem Preserves.refault (s : State) (t : Track) : Preserves s (s.refault t) := by
  unfold State.refault
  split
  · rename_i h; exact Preserves.trackTo s t _ (by rw [h.1]; decide) (by decide)
  · exact Preserves.refl s

theorem Preserves.clearNotices (s : State) : Preserves s s.clearNotices :=
  Preserves.ofLink s (fun h => ⟨by simp, h.2⟩)

theorem Preserves.takeRestart (s : State) (b : Bool) : Preserves s (s.takeRestart b) := by
  unfold State.takeRestart
  dsimp only
  refine Preserves.trans ?_ (Keeps.endRequest _).preserves
  refine Preserves.trans ?_ (Preserves.foldl _ Preserves.refault _ _)
  refine Preserves.trans ?_ (Keeps.queueNotice _ _).preserves
  exact (Preserves.clearNotices s).trans (Preserves.restartBlocks _)

/-! ## The link's line and the end of a sent frame -/

theorem Preserves.responseSent (s : State) : Preserves s s.responseSent := by
  unfold State.responseSent
  split
  · exact Preserves.takeRestart s _
  · exact Preserves.setFetch s _
  · exact Preserves.refl s
  · exact Preserves.refl s

theorem countP_drop_le {α : Type} (p : α → Bool) (l : List α) (n : Nat) :
    (l.drop n).countP p ≤ l.countP p := (List.drop_sublist n l).countP_le

theorem Preserves.finishSending (s : State) (x : Sending) : Preserves s (s.finishSending x) := by
  unfold State.finishSending
  split
  · dsimp only
    have h1 : Preserves s { s with link := { s.link with
        sending := none, lastSent := some .response, replies := s.link.replies.drop 1 } } := by
      refine Preserves.ofLink s (fun h => ⟨h.1, h.2.1, ?_, ?_, fun hs => ?_⟩)
      · exact (countP_drop_le _ _ _).trans h.2.2.1
      · exact (countP_drop_le _ _ _).trans h.2.2.2.1
      · have h0 := h.2.2.2.2 hs
        have := countP_drop_le (fun r : Response => !r.immediate) s.link.replies 1
        simp only [Link.processingReplies] at h0 ⊢
        omega
    split
    · split
      · exact h1
      · exact h1.trans (Preserves.responseSent _)
    · exact h1
  · refine Preserves.ofLink s (fun h => ⟨?_, h.2⟩)
    have := h.1
    simp only [List.length_drop]; omega
  · dsimp only
    have h1 : Preserves s { s with link := { s.link with sending := none, lastSent := some .imageData } } :=
      Preserves.ofLink s id
    split
    · exact h1.trans (Keeps.endRequest _).preserves
    · exact h1

theorem Preserves.frameSent (s : State) : Preserves s s.frameSent := by
  unfold State.frameSent
  split
  · exact ((Preserves.finishSending s _).trans (Preserves.takeRequest _)).trans (Keeps.endEvent _).preserves
  · exact Preserves.refl s

theorem Preserves.loseLock (s : State) : Preserves s s.loseLock := by
  unfold State.loseLock
  dsimp only
  have h1 : Preserves s { s with link := { s.link with
      up := false, received := [], requests := [], inProgress := none, replies := []
      sending := none, lastSent := none } } :=
    Preserves.ofLink s (fun h => ⟨h.1, by simp, by simp [Link.immediateReplies],
      by simp [Link.processingReplies], by simp [Link.processingReplies]⟩)
  have h2 := h1.trans (Preserves.abortTransaction _)
  split
  · exact h2.trans (Preserves.takeRestart _ _)
  · exact h2

theorem Preserves.gainLock (s : State) : Preserves s s.gainLock := by
  have h1 : Preserves s { s with link := { s.link with up := true } } := Preserves.ofLink s id
  exact h1.trans (Keeps.queueNotice _ _).preserves

end Sys2Proof.Machine
end

