-- ==== Sys2Proof/Laws/Commands.lean ====
section
/-! SUPPORT. What every command does to the invariants: POWER_UP establishes them, every other command keeps
them, the waiting commands and the elapsed count. -/

namespace Sys2Proof.Machine

set_option Elab.async false

/-- The state after power-up has every invariant. -/
theorem State.powerUp_inv (levels : Vector HeadHealth 4) (pending : List Instr) :
    (State.powerUp levels pending).inv := by
  have htr : ∀ t : Track, (State.powerUp levels pending).tracks[t]
      = TrackMonitor.powerUp levels[t] := by
    intro t
    match t with
    | 0 => rfl
    | 1 => rfl
    | 2 => rfl
    | 3 => rfl
  refine ⟨FrameMemory.powerUp_wf, tracksInv_of_empty ?_ ?_ rfl ?_, ?_, ?_, ?_⟩
  · intro t
    rw [htr t]
    exact ⟨by simp [TrackMonitor.powerUp], by simp [TrackMonitor.powerUp],
      by simp [TrackMonitor.powerUp], fun _ => ⟨rfl, rfl⟩⟩
  · refine ⟨Nat.zero_le _, List.nodup_nil, ?_, ?_⟩
    · intro p hp; cases hp
    · change isPassageNumber 1
      exact ⟨Nat.le_refl 1, by decide⟩
  · intro t
    rw [htr t]
    simp [TrackMonitor.powerUp]
  · intro p hp; cases hp
  · change Banks.powerUp.sound
    rw [Banks.sound_iff]; decide
  · exact ⟨Nat.zero_le _, Nat.zero_le _, Nat.zero_le _, Nat.zero_le _, fun _ => rfl⟩

/-- A command in the form it takes when it reaches its effect or leaves the state alone. -/
theorem Preserves.ite {s t u : State} {c : Prop} [Decidable c] (h1 : c → Preserves s t)
    (h2 : ¬ c → Preserves s u) {v : State}
    (h : (if c then (.next t : Host.Outcome State Fault Refusal) else .next u) = .next v) :
    Preserves s v := by
  split at h
  · cases h; exact h1 (by assumption)
  · cases h; exact h2 (by assumption)

theorem Preserves.event {s t : State} (h : Preserves s t) : Preserves s t.endEvent :=
  h.trans (Keeps.endEvent t).preserves

/-- The quiet timer ends only in IGNORING. -/
theorem Preserves.quietEnds (s : State) (t : Track) (h : s.ended s.tracks[t].quiet = true) :
    Preserves s (s.trackTo t .vacant) := by
  refine ⟨Partly.trackTo s t .vacant, fun hi => ?_⟩
  have hq : s.tracks[t].quiet.isSome = true := by
    unfold State.ended at h
    split at h
    · rename_i e he; rw [he]; rfl
    · cases h
  have hs := (hi.1 t).1.1 hq
  exact (Preserves.trackTo s t .vacant (by rw [hs]; decide) (by decide)).tracks hi

theorem Preserves.upsets (s : State) (bits : List Nat) :
    Preserves s (s.setMemory (s.memory.upsets bits)) :=
  (Keeps.setMemory s (fun h => FrameMemory.upsets_wf h bits)).preserves

/-- Every command but POWER_UP keeps every invariant. -/
theorem exec_preserves {c : Instr} {s t : State} (hc : ∀ levels, c ≠ .powerUp levels)
    (h : exec c s = .next t) : Preserves s t := by
  cases c with
  | powerUp levels => exact absurd rfl (hc levels)
  | crossing k head => cases h; exact (Preserves.crossing s k head).event
  | headFault k head =>
    exact Preserves.ite (fun _ => Preserves.refl s)
      (fun _ => ((Preserves.setHealth s k head .fault).trans (Preserves.actOnFault _ k)).event) h
  | headHealthy k head =>
    exact Preserves.ite (fun _ => Preserves.refl s)
      (fun _ => ((Preserves.setHealth s k head .healthy).trans (Preserves.actOnRecovery _ k)).event) h
  | quietTimerExpiry k =>
    exact Preserves.ite (fun hq => (Preserves.quietEnds s k hq).event) (fun _ => Preserves.refl s) h
  | pairTimeout k side =>
    exact Preserves.ite (fun _ => (Preserves.expirePair s k side).event) (fun _ => Preserves.refl s) h
  | tailWindowExpiry n =>
    change execTailWindowExpiry n s = .next t at h
    unfold execTailWindowExpiry at h
    split at h
    · rename_i p hp
      refine Preserves.ite (fun ha => ?_) (fun _ => Preserves.refl s) h
      exact (Preserves.declareTail s (by rw [passage?_number hp]; exact hp) ha.1).event
    · cases h; exact Preserves.refl s
  | exitTimeout n =>
    change execExitTimeout n s = .next t at h
    unfold execExitTimeout at h
    split at h
    · rename_i p hp
      refine Preserves.ite (fun ha => ?_) (fun _ => Preserves.refl s) h
      exact (Preserves.clearShort s (passage?_mem hp) (by simp [Passage.isOpen, ha.1])).event
    · cases h; exact Preserves.refl s
  | shotFreeze n k =>
    exact Preserves.ite (fun _ => (Keeps.modifyShot s _ _).preserves.event)
      (fun _ => Preserves.refl s) h
  | shotDue =>
    change execShotDue s = .next t at h
    unfold execShotDue at h
    split at h
    · cases h; exact (Keeps.handOver s _).preserves.event
    · cases h; exact Preserves.refl s
  | busyIntervalEnd k =>
    exact Preserves.ite (fun _ => (Keeps.setFire s k _).preserves.event) (fun _ => Preserves.refl s) h
  | triggerPulseEnd k =>
    exact Preserves.ite (fun _ => (Keeps.setFire s k _).preserves.event) (fun _ => Preserves.refl s) h
  | flashPulseEnd k =>
    exact Preserves.ite (fun _ => (Keeps.setStrobe s k _).preserves.event) (fun _ => Preserves.refl s) h
  | rechargeExpiry k =>
    exact Preserves.ite (fun _ => (Keeps.setStrobe s k _).preserves.event) (fun _ => Preserves.refl s) h
  | readComplete o segment check outcome flags =>
    change execReadComplete o segment check outcome flags s = .next t at h
    unfold execReadComplete at h
    split at h
    · cases h
      exact (Keeps.endOrder s o.camera _ _ (fun q => Works.readAnswered q o.camera _ _ _ _ _ _)).preserves.event
    · cases h; exact Preserves.refl s
  | discardComplete o =>
    change execDiscardComplete o s = .next t at h
    unfold execDiscardComplete at h
    split at h
    · cases h; exact (Keeps.endOrder s o.camera _ _ (fun q => Works.discardAnswered q o.camera _)).preserves.event
    · cases h; exact Preserves.refl s
  | senseComplete o flags a b =>
    change execSenseComplete o flags a b s = .next t at h
    unfold execSenseComplete at h
    split at h
    · cases h; exact (Keeps.endOrder s o.camera _ _ (fun q => Works.senseAnswered q o.camera _ _ _)).preserves.event
    · cases h; exact Preserves.refl s
  | relinkComplete o =>
    change execRelinkComplete o s = .next t at h
    unfold execRelinkComplete at h
    split at h
    · cases h; exact (Keeps.endOrder s o.camera _ _ (fun q => Works.relinkAnswered q o.camera)).preserves.event
    · cases h; exact Preserves.refl s
  | orderTimeout k =>
    change execOrderTimeout k s = .next t at h
    unfold execOrderTimeout at h
    split at h
    · exact Preserves.ite
        (fun _ => (Keeps.endOrder s k _ _ (fun q => Works.orderTimedOut q k _)).preserves.event)
        (fun _ => Preserves.refl s) h
    · cases h; exact Preserves.refl s
  | lineLockGained =>
    exact Preserves.ite (fun _ => Preserves.refl s) (fun _ => (Preserves.gainLock s).event) h
  | lineLockLost =>
    exact Preserves.ite (fun _ => (Preserves.loseLock s).event) (fun _ => Preserves.refl s) h
  | frameReceived bytes =>
    exact Preserves.ite (fun _ => Preserves.receive _ s _) (fun _ => Preserves.refl s) h
  | frameSent wrong =>
    change execFrameSent wrong s = .next t at h
    unfold execFrameSent at h
    split at h
    · cases h
    · split at h
      · cases h; exact (Preserves.upsets s wrong).trans (Preserves.frameSent _)
      · cases h; exact Preserves.refl s
  | timeSet tag a => cases h; exact Preserves.request s tag _
  | timeGet tag => cases h; exact Preserves.request s tag _
  | trackArm tag a => cases h; exact Preserves.request s tag _
  | trackDisarm tag a => cases h; exact Preserves.request s tag _
  | trackStatus tag a => cases h; exact Preserves.request s tag _
  | listPassages tag => cases h; exact Preserves.request s tag _
  | readPassage tag a b d => cases h; exact Preserves.request s tag _
  | releasePassage tag a => cases h; exact Preserves.request s tag _
  | abandonPassage tag a => cases h; exact Preserves.request s tag _
  | cameraService tag a b => cases h; exact Preserves.request s tag _
  | cameraSense tag a => cases h; exact Preserves.request s tag _
  | memoryStatus tag a => cases h; exact Preserves.request s tag _
  | pageRetire tag a b => cases h; exact Preserves.request s tag _
  | pageRestore tag a => cases h; exact Preserves.request s tag _
  | tableBegin tag => cases h; exact Preserves.request s tag _
  | tablePut tag a b d => cases h; exact Preserves.request s tag _
  | tableGet tag a b d => cases h; exact Preserves.request s tag _
  | tableEnd tag => cases h; exact Preserves.request s tag _
  | tableAbort tag => cases h; exact Preserves.request s tag _
  | bankStatus tag => cases h; exact Preserves.request s tag _
  | identify tag => cases h; exact Preserves.request s tag _
  | restart tag => cases h; exact Preserves.request s tag _
  | fetchImage tag a b d e => cases h; exact Preserves.request s tag _

end Sys2Proof.Machine
end

