-- ==== Sys2Proof/Laws/Taken.lean ====
section
/-! SUPPORT. A request that arrives while the part is ready for it is carried out in the same event, and no
request touches the receiver. -/

namespace Sys2Proof.Machine

set_option Elab.async false

/-- A request taken as it arrives. -/
theorem State.enrol_ready {s : State} (h : s.readyFor) (tag : Byte) (r : Request) :
    s.enrol tag r = s.carryOut tag r := by
  obtain ⟨-, h1, h2, h3⟩ := h
  obtain ⟨clock, tracks, table, queue, fire, strobes, lines, readout, memory, banks, link, pending⟩ := s
  obtain ⟨up, received, requests, inProgress, replies, notices, dropped, sending, lastSent⟩ := link
  simp only at h1 h2
  subst h1 h2
  unfold State.enrol State.takeRequest State.queueRequest
  simp only [List.length_nil, requestPlaces, Nat.zero_lt_succ, if_true, List.nil_append]
  have h4 : (replies.any fun r => !r.immediate) = false := h3
  unfold Link.processingReply
  simp only [h4]
  rfl

/-- What a request command does while the part is ready for it. -/
theorem State.request_ready {s : State} (h : s.readyFor) (tag : Byte) {r : Request}
    (hr : contentsLengthOk r = true) : s.request tag r = (s.carryOut tag r).endEvent := by
  unfold State.request
  rw [if_pos h.1, if_pos hr, State.enrol_ready h]

/-- While the link is DOWN a request command changes nothing (R177). -/
theorem State.request_down {s : State} (h : s.link.up = false) (tag : Byte) (r : Request) :
    s.request tag r = s := by
  unfold State.request
  rw [h]; rfl

theorem State.reply_received {s : State} {x : State × Answer} (h : Serves s x) (tag : Byte)
    (code : BitVec 16) : (State.reply x tag code).link.received = s.link.received := h.2.2.2.1

/-- Carrying out a request leaves the receiver alone. -/
theorem State.carryOut_received (s : State) (tag : Byte) (r : Request) :
    (s.carryOut tag r).link.received = s.link.received := by
  cases r with
  | timeSet t => exact State.reply_received (Serves.timeSet s t) tag _
  | trackArm t => exact State.reply_received (Serves.trackArm s t) tag _
  | trackDisarm t => exact State.reply_received (Serves.trackDisarm s t) tag _
  | releasePassage p => exact State.reply_received (Serves.releasePassage s p) tag _
  | abandonPassage p => exact State.reply_received (Serves.abandonPassage s p) tag _
  | cameraService l on => exact State.reply_received (Serves.cameraService s l on) tag _
  | pageRetire p sp => exact State.reply_received (Serves.pageRetire s p sp) tag _
  | pageRestore p => exact State.reply_received (Serves.pageRestore s p) tag _
  | tableBegin => exact State.reply_received (Serves.tableBegin s) tag _
  | tablePut kind index c => exact State.reply_received (Serves.tablePut s kind index c) tag _
  | tableEnd => exact State.reply_received (Serves.tableEnd s) tag _
  | tableAbort => exact State.reply_received (Serves.tableAbort s) tag _
  | cameraSense l =>
    change (s.takeCameraSense tag l).link.received = _
    unfold State.takeCameraSense
    split
    · rfl
    · exact (Keeps.placeOrder _ _ _).received
  | fetchImage p k f c =>
    change (s.takeFetch tag p k f c).link.received = _
    unfold State.takeFetch
    split
    · rfl
    · dsimp only
      split <;> rfl
  | timeGet => rfl
  | trackStatus t => rfl
  | listPassages => rfl
  | readPassage p part start => rfl
  | memoryStatus p => rfl
  | tableGet b kind index => rfl
  | bankStatus => rfl
  | identify => rfl
  | restart => rfl

/-- A request leaves the receiver alone. -/
theorem State.request_received (s : State) (tag : Byte) (r : Request) :
    (s.request tag r).link.received = s.link.received := by
  have refuse : ∀ d, (s.refuseAtOnce tag r.code d).link.received = s.link.received := by
    intro d
    unfold State.refuseAtOnce
    split <;> rfl
  have enrol : (s.enrol tag r).link.received = s.link.received := by
    unfold State.enrol
    split
    · unfold State.takeRequest
      split
      · split
        · rfl
        · rw [State.carryOut_received]; rfl
      · rfl
    · exact refuse _
  unfold State.request
  split
  · split
    · rw [(Keeps.endEvent _).received]; exact enrol
    · rw [(Keeps.endEvent _).received]; exact refuse _
  · rfl

end Sys2Proof.Machine
end

