-- ==== Sys2Proof/Laws/Effects.lean ====
section
/-! SUPPORT. What the shared operations do, one lemma each: finding and changing passages and shots, the
change of a track's state, the settlement check, a shot's end, the lines of a state, the channel that serves
a camera, and the requests as they are carried out. -/

namespace Sys2Proof.Machine

set_option Elab.async false

/-! ## Requests carried out as they arrive -/

/-- A request command while the part is ready for it, by what carrying it out gives. -/
theorem request_answers {s t : State} {tag : Byte} {r : Request} (h : s.readyFor)
    (hr : contentsLengthOk r = true) (e : s.carryOut tag r = t) :
    (Host.Outcome.next (s.request tag r) : Host.Outcome State Fault Refusal) = .next t.endEvent := by
  rw [State.request_ready h _ hr, e]

/-- The passage number 0 names none (R47). -/
theorem namedPassage_zero (s : State) : s.namedPassage 0 = .error .badArgument := rfl

/-- A number that no live passage has (R47). -/
theorem namedPassage_none {s : State} {n : BitVec 16} (h : n ≠ 0) (h2 : s.passage? n.toNat = none) :
    s.namedPassage n = .error .noSuchPassage := by
  unfold State.namedPassage; rw [if_neg h, h2]

/-- The number of a live passage (R47). -/
theorem namedPassage_some {s : State} {n : BitVec 16} {p : Passage} (h : n ≠ 0)
    (h2 : s.passage? n.toNat = some p) : s.namedPassage n = .ok p := by
  unfold State.namedPassage; rw [if_neg h, h2]

/-- A byte that names no track. -/
theorem trackOf_bad {b : Byte} (h : b.toNat = 0 ∨ 4 < b.toNat) : trackOf b = none := by
  unfold trackOf
  rw [dif_neg (by omega)]

/-- The byte of a track. -/
theorem trackOf_good {b : Byte} {t : Track} (h : b.toNat = t.val + 1) : trackOf b = some t := by
  unfold trackOf
  rw [dif_pos (by omega)]
  congr 1; ext; simp; omega

/-- The byte of a camera line. -/
theorem cameraOfByte_good {b : Byte} {c : Camera} (h : b.toNat = c.val) : cameraOfByte b = some c := by
  unfold cameraOfByte
  rw [dif_pos (by omega)]
  congr 1; ext; exact h

/-! ## Tracks -/

/-- A track that changes its state. -/
theorem trackTo_ne (s : State) (t : Track) (new : TrackState) {m : TrackMonitor} (hm : s.tracks[t] = m)
    (h : m.state ≠ new) :
    s.trackTo t new = (s.setTrack t { m with
      state := new
      fifoA := if new = .occupied then m.fifoA else []
      fifoB := if new = .occupied then m.fifoB else []
      quiet := if new = .ignoring then some (s.clock.elapsed + s.quietTime t) else none
      }).queueNotice (.trackState t m.state new m.health) := by
  unfold State.trackTo
  simp only [hm, if_neg h]
  rfl

/-- A track that goes to the state it is in. -/
theorem trackTo_same (s : State) (t : Track) (new : TrackState) {m : TrackMonitor} (hm : s.tracks[t] = m)
    (h : m.state = new) :
    s.trackTo t new = s.setTrack t { m with
      fifoA := if new = .occupied then m.fifoA else []
      fifoB := if new = .occupied then m.fifoB else []
      quiet := if new = .ignoring then some (s.clock.elapsed + s.quietTime t) else none } := by
  unfold State.trackTo
  simp only [hm, if_pos h]
  subst h; rfl

theorem setTrack_setTrack (s : State) (t : Track) (a b : TrackMonitor) :
    (s.setTrack t a).setTrack t b = s.setTrack t b := by
  unfold State.setTrack setAt; simp [Vector.set_set]

theorem tracks_setTrack (s : State) (t : Track) (a : TrackMonitor) : (s.setTrack t a).tracks[t] = a := by
  simp [State.setTrack, setAt]

theorem queueNotice_setTrack (s : State) (n : Notice) (t : Track) (m : TrackMonitor) :
    (s.queueNotice n).setTrack t m = (s.setTrack t m).queueNotice n := by
  unfold State.queueNotice State.setTrack; simp only; split <;> rfl

/-- A notice touches the link only. -/
theorem queueNotice_facts (s : State) (n : Notice) :
    (s.queueNotice n).clock = s.clock ∧ (s.queueNotice n).tracks = s.tracks
    ∧ (s.queueNotice n).table = s.table ∧ (s.queueNotice n).shotQueue = s.shotQueue
    ∧ (s.queueNotice n).fire = s.fire ∧ (s.queueNotice n).strobes = s.strobes
    ∧ (s.queueNotice n).lines = s.lines ∧ (s.queueNotice n).readout = s.readout
    ∧ (s.queueNotice n).memory = s.memory ∧ (s.queueNotice n).banks = s.banks
    ∧ (s.queueNotice n).link.replies = s.link.replies
    ∧ (s.queueNotice n).link.inProgress = s.link.inProgress := by
  unfold State.queueNotice; split <;> simp

/-! ## Passages -/

/-- A passage of the table is found by its number. -/
theorem passage?_of_mem {s : State} (h : s.numbered) {p : Passage} (hp : p ∈ s.table.passages) :
    s.passage? p.number = some p := by
  unfold State.passage?
  have hn := h.2.1
  revert hp hn
  generalize s.table.passages = l
  intro hp hn
  induction l with
  | nil => cases hp
  | cons a l ih =>
    rw [List.map_cons, List.nodup_cons] at hn
    rcases List.mem_cons.1 hp with rfl | hp'
    · simp
    · rw [List.find?_cons_of_neg, ih hp' hn.2]
      simp only [beq_iff_eq]
      intro he
      exact hn.1 (by rw [he]; exact List.mem_map_of_mem hp')

theorem Passage.isOpen_iff (p : Passage) :
    p.isOpen = true ↔ (p.state = .approaching ∨ p.state = .tail) := by
  simp [Passage.isOpen]

/-- The open passage of a track is the one in the table. -/
theorem openPassageOn_of_mem {s : State} (h : s.tracksInv) {p : Passage} (hp : p ∈ s.table.passages)
    (ho : p.state = .approaching ∨ p.state = .tail) : s.openPassageOn p.track = some p := by
  obtain ⟨-, -, -, -, hpw⟩ := h
  unfold State.openPassageOn
  revert hp hpw
  generalize s.table.passages = l
  intro hp hpw
  induction l with
  | nil => cases hp
  | cons a l ih =>
    rw [List.pairwise_cons] at hpw
    rcases List.mem_cons.1 hp with rfl | hp'
    · rw [List.find?_cons_of_pos]; simp [ho]
    · rw [List.find?_cons_of_neg, ih hp' hpw.2]
      intro hh
      have h2 := hpw.1 p hp'
      simp only [Bool.and_eq_true, decide_eq_true_eq, Bool.or_eq_true] at hh
      exact h2 ((Passage.isOpen_iff a).2 hh.2) ((Passage.isOpen_iff p).2 ho) hh.1

theorem occupied_of_mem {s : State} (h : s.tracksInv) {p : Passage} (hp : p ∈ s.table.passages)
    (ho : p.state = .approaching ∨ p.state = .tail) : s.tracks[p.track].state = .occupied :=
  h.2.2.1 p hp ((Passage.isOpen_iff p).2 ho)

theorem forall₂_find {R : Passage → Passage → Prop} (hn : ∀ p q, R p q → q.number = p.number)
    {l m : List Passage} (h : List.Forall₂ R l m) (n : Nat) {p : Passage}
    (hp : l.find? (fun p => p.number == n) = some p) :
    ∃ q, m.find? (fun p => p.number == n) = some q ∧ R p q := by
  induction h with
  | nil => cases hp
  | @cons a b l m hab _ ih =>
    by_cases ha : a.number = n
    · rw [List.find?_cons_of_pos (by simpa using ha)] at hp
      cases hp
      exact ⟨b, by rw [List.find?_cons_of_pos (by simpa [hn _ b hab] using ha)], hab⟩
    · rw [List.find?_cons_of_neg (by simpa using ha)] at hp
      rw [List.find?_cons_of_neg (by simpa [hn a b hab] using ha)]
      exact ih hp

/-- A passage after an operation that works on shots and vehicles. -/
theorem Works.passage? {s u : State} (h : Works s u) {n : Nat} {p : Passage}
    (hp : s.passage? n = some p) : ∃ q, u.passage? n = some q ∧ PassageWorks p q :=
  forall₂_find (fun _ _ h => h.number) h.work n hp

theorem find?_changePassage (n : Nat) (f : Passage → Passage) (hf : ∀ p, (f p).number = p.number)
    (l : List Passage) (m : Nat) :
    (changePassage n f l).find? (fun p => p.number == m)
      = (l.find? (fun p => p.number == m)).map (fun p => if m = n then f p else p) := by
  induction l with
  | nil => rfl
  | cons a l ih =>
    unfold changePassage
    by_cases ha : a.number = n
    · rw [if_pos ha]
      by_cases hm : a.number = m
      · rw [List.find?_cons_of_pos (by simpa [hf] using hm),
          List.find?_cons_of_pos (by simpa using hm)]
        simp [← hm, ha]
      · rw [List.find?_cons_of_neg (by simpa [hf] using hm),
          List.find?_cons_of_neg (by simpa using hm)]
        have : m ≠ n := by rintro rfl; exact hm ha
        simp [this]
    · rw [if_neg ha]
      by_cases hm : a.number = m
      · rw [List.find?_cons_of_pos (by simpa using hm), List.find?_cons_of_pos (by simpa using hm)]
        have : m ≠ n := by rintro rfl; exact ha hm
        simp [this]
      · rw [List.find?_cons_of_neg (by simpa using hm), List.find?_cons_of_neg (by simpa using hm), ih]

/-- The passage whose record is changed. -/
theorem passage?_modifyPassage {s : State} {n : Nat} {f : Passage → Passage}
    (hf : ∀ p, (f p).number = p.number) {p : Passage} (hp : s.passage? n = some p) :
    (s.modifyPassage n f).passage? n = some (f p) := by
  unfold State.passage? State.modifyPassage at *
  dsimp only
  rw [find?_changePassage n f hf, hp]; simp

/-! ## Shots -/

/-- The shots a reference names after one is changed. -/
theorem shot?_modifyShot (s : State) (r q : ShotRef) (f : Shot → Shot) :
    (s.modifyShot r f).shot? q = (s.shot? q).map (fun k => if q = r then f k else k) := by
  unfold State.shot? State.modifyShot State.modifyPassage State.passage?
  dsimp only
  rw [find?_changePassage _ _ (by intro p; rfl)]
  cases h : s.table.passages.find? (fun p => p.number == q.passage) with
  | none => rfl
  | some p =>
    simp only [Option.map_some]
    by_cases h1 : q.passage = r.passage
    · rw [if_pos h1]
      simp only [Passage.modifyShot, List.getElem?_modify]
      by_cases h2 : q.shot = r.shot
      · have : q = r := by cases q; cases r; simp_all
        simp [this]
      · have : q ≠ r := by rintro rfl; exact h2 rfl
        simp [this, Ne.symm h2]
    · have : q ≠ r := by rintro rfl; exact h1 rfl
      simp [this, h1]

/-- A change of a passage's record that leaves its shots alone. -/
theorem shot?_modifyPassage (s : State) (n : Nat) (f : Passage → Passage) (q : ShotRef)
    (hf : ∀ p, (f p).number = p.number) (hs : ∀ p, (f p).shots = p.shots) :
    (s.modifyPassage n f).shot? q = s.shot? q := by
  unfold State.shot? State.modifyPassage State.passage?
  dsimp only
  rw [find?_changePassage _ _ hf]
  cases h : s.table.passages.find? (fun p => p.number == q.passage) with
  | none => rfl
  | some p =>
    simp only [Option.map_some]
    split
    · rw [hs]
    · rfl

/-- What the settlement check leaves alone. -/
theorem checkSettled_facts (s : State) (n : Nat) :
    (∀ r, (s.checkSettled n).shot? r = s.shot? r) ∧ (s.checkSettled n).lines = s.lines
    ∧ (s.checkSettled n).readout = s.readout ∧ (s.checkSettled n).memory = s.memory
    ∧ (s.checkSettled n).clock = s.clock ∧ (s.checkSettled n).tracks = s.tracks
    ∧ (s.checkSettled n).fire = s.fire ∧ (s.checkSettled n).strobes = s.strobes
    ∧ (s.checkSettled n).shotQueue = s.shotQueue ∧ (s.checkSettled n).banks = s.banks
    ∧ (s.checkSettled n).link.replies = s.link.replies
    ∧ (s.checkSettled n).link.inProgress = s.link.inProgress := by
  have key : ∀ (st : PassageState) (x : Notice) (r : ShotRef),
      ((s.modifyPassage n (·.settleAs st s.now s.clock.epoch)).queueNotice x).shot? r = s.shot? r := by
    intro st x r
    have h1 := shot?_modifyPassage s n (·.settleAs st s.now s.clock.epoch) r (fun _ => rfl) (fun _ => rfl)
    rw [← h1]
    unfold State.shot? State.passage?
    rw [(queueNotice_facts _ x).2.2.1]
  unfold State.checkSettled
  split
  · simp
  · split
    · split
      · refine ⟨key _ _, ?_⟩
        simp only [queueNotice_facts]; simp [State.modifyPassage]
      · refine ⟨key _ _, ?_⟩
        simp only [queueNotice_facts]; simp [State.modifyPassage]
      all_goals simp
    · simp

/-- What the end of a shot does: its state, and a fault in its passage. -/
theorem finishShot_facts (s : State) (r : ShotRef) (st : ShotState) :
    (∀ q, (s.finishShot r st).shot? q
        = (s.shot? q).map (fun k => if q = r then { k with state := st } else k))
    ∧ (s.finishShot r st).lines = s.lines ∧ (s.finishShot r st).readout = s.readout
    ∧ (s.finishShot r st).memory = s.memory ∧ (s.finishShot r st).clock = s.clock
    ∧ (s.finishShot r st).tracks = s.tracks ∧ (s.finishShot r st).fire = s.fire
    ∧ (s.finishShot r st).strobes = s.strobes ∧ (s.finishShot r st).shotQueue = s.shotQueue
    ∧ (s.finishShot r st).banks = s.banks ∧ (s.finishShot r st).link = s.link := by
  unfold State.finishShot
  split
  · refine ⟨fun q => ?_, rfl, rfl, rfl, rfl, rfl, rfl, rfl, rfl, rfl, rfl⟩
    exact (shot?_modifyPassage _ _ (·.recordFault _ none (some r.shot)) q (fun _ => rfl)
      (fun _ => rfl)).trans (shot?_modifyShot s r q _)
  · exact ⟨fun q => shot?_modifyShot s r q _, rfl, rfl, rfl, rfl, rfl, rfl, rfl, rfl, rfl, rfl⟩

/-! ## Lines and channels -/

theorem lines_setLine (s : State) (c : Camera) (l : CameraLine) : (s.setLine c l).lines[c] = l := by
  simp [State.setLine, setAt]

theorem lines_setLine_ne (s : State) {c j : Camera} (l : CameraLine) (h : j ≠ c) :
    (s.setLine c l).lines[j] = s.lines[j] := by
  have : c.val ≠ j.val := fun h' => h (Fin.ext h'.symm)
  simp [State.setLine, setAt, this]

theorem setLine_setLine (s : State) (c : Camera) (a b : CameraLine) :
    (s.setLine c a).setLine c b = s.setLine c b := by
  unfold State.setLine setAt; simp [Vector.set_set]

/-- The channel that serves a camera depends on the channels and on the shots' cameras only. -/
theorem serving?_congr {s u : State} (c : Camera) (h1 : u.readout.channels = s.readout.channels)
    (h2 : ∀ r, u.cameraOf r = s.cameraOf r) : u.serving? c = s.serving? c := by
  unfold State.serving?; rw [h1]; simp only [h2]

/-- The channel that serves a camera holds its work, and the work's shot is one of that camera. -/
theorem serving?_some {s : State} {c : Camera} {ch : ChannelNo} {w : ChannelWork}
    (h : s.serving? c = some (ch, w)) :
    s.readout.channels[ch] = some w ∧ s.cameraOf w.shot = some c := by
  unfold State.serving? at h
  rw [List.findSome?_eq_some_iff] at h
  obtain ⟨l1, x, l2, -, h, -⟩ := h
  split at h
  · rename_i w' hw
    split at h
    · cases h; exact ⟨hw, by assumption⟩
    · cases h
  · cases h

/-! ## Figures -/

/-- A plausible speed (R18). -/
theorem measuredSpeed_some {spacing : Nat} {dt : Int} (h : 0 < dt)
    (h2 : spacing * 1000000 / dt.toNat ≤ 150000) :
    measuredSpeed spacing dt = some (spacing * 1000000 / dt.toNat) := by
  unfold measuredSpeed; rw [if_pos h]; simp only [if_pos h2]

/-- An implausible speed (R18). -/
theorem measuredSpeed_none {spacing : Nat} {dt : Int}
    (h : dt ≤ 0 ∨ 150000 < spacing * 1000000 / dt.toNat) : measuredSpeed spacing dt = none := by
  unfold measuredSpeed
  split
  · rcases h with h | h
    · omega
    · simp only [if_neg (Nat.not_le.2 h)]
  · rfl

end Sys2Proof.Machine
end

