-- ==== Sys2Proof/Laws/Readouts.lean ====
section
/-! SUPPORT. What the operations of a readout do, one lemma each: returned pages, the end of a readout, a
readout that stores no more, a change of line state, a line going DOWN, and the lowest free page. -/

namespace Sys2Proof.Machine

set_option Elab.async false

/-! ## What stays -/

/-- The blocks that no operation of a readout touches. -/
structure SameBlocks (s u : State) : Prop where
  clock : u.clock = s.clock
  tracks : u.tracks = s.tracks
  fire : u.fire = s.fire
  strobes : u.strobes = s.strobes
  shotQueue : u.shotQueue = s.shotQueue
  banks : u.banks = s.banks

theorem SameBlocks.refl (s : State) : SameBlocks s s := ⟨rfl, rfl, rfl, rfl, rfl, rfl⟩

theorem SameBlocks.trans {a b c : State} (h : SameBlocks a b) (k : SameBlocks b c) : SameBlocks a c :=
  ⟨k.1.trans h.1, k.2.trans h.2, k.3.trans h.3, k.4.trans h.4, k.5.trans h.5, k.6.trans h.6⟩

/-- The same blocks, lines, replies and request in progress. -/
def SameLines (s u : State) : Prop :=
  SameBlocks s u ∧ u.lines = s.lines ∧ u.link.replies = s.link.replies
    ∧ u.link.inProgress = s.link.inProgress

theorem SameLines.refl (s : State) : SameLines s s := ⟨SameBlocks.refl s, rfl, rfl, rfl⟩

theorem SameLines.trans {a b c : State} (h : SameLines a b) (k : SameLines b c) : SameLines a c :=
  ⟨h.1.trans k.1, k.2.1.trans h.2.1, k.2.2.1.trans h.2.2.1, k.2.2.2.trans h.2.2.2⟩

/-- The shots of two states with one passage table. -/
theorem shot?_of_table {s u : State} (h : u.table = s.table) (r : ShotRef) : u.shot? r = s.shot? r := by
  unfold State.shot? State.passage?; rw [h]

/-- Notices touch the link only. -/
theorem queueNotices_facts (ns : List Notice) : ∀ s : State,
    SameLines s (s.queueNotices ns) ∧ (s.queueNotices ns).table = s.table
    ∧ (s.queueNotices ns).readout = s.readout ∧ (s.queueNotices ns).memory = s.memory := by
  induction ns with
  | nil => intro s; exact ⟨SameLines.refl s, rfl, rfl, rfl⟩
  | cons n ns ih =>
    intro s
    obtain ⟨q1, q2, q3, q4, q5, q6, q7, q8, q9, q10, q11, q12⟩ := queueNotice_facts s n
    obtain ⟨a, b, c, d⟩ := ih (s.queueNotice n)
    exact ⟨SameLines.trans ⟨⟨q1, q2, q5, q6, q4, q10⟩, q7, q11, q12⟩ a, b.trans q3, c.trans q8,
      d.trans q9⟩

/-- Returned pages touch frame memory and the notices only (R139). -/
theorem returnPages_facts (s : State) (r : ShotRef) (page : Option Nat) :
    SameLines s (s.returnPages r page) ∧ (s.returnPages r page).table = s.table
    ∧ (s.returnPages r page).readout = s.readout := by
  unfold State.returnPages
  cases page with
  | none => exact ⟨⟨⟨rfl, rfl, rfl, rfl, rfl, rfl⟩, rfl, rfl, rfl⟩, rfl, rfl⟩
  | some k =>
    obtain ⟨a, b, c, -⟩ := queueNotices_facts (s.memory.free k).2 (s.setMemory (s.memory.free k).1)
    exact ⟨⟨⟨a.1.1, a.1.2, a.1.3, a.1.4, a.1.5, a.1.6⟩, a.2.1, a.2.2.1, a.2.2.2⟩, b, c⟩

theorem SameLines.finishShot (s : State) (r : ShotRef) (st : ShotState) :
    SameLines s (s.finishShot r st) := by
  obtain ⟨g1, g2, g3, g4, g5, g6, g7, g8, g9, g10, g11⟩ := finishShot_facts s r st
  exact ⟨⟨g5, g6, g7, g8, g9, g10⟩, g2, by rw [g11], by rw [g11]⟩

theorem SameLines.checkSettled (s : State) (n : Nat) : SameLines s (s.checkSettled n) := by
  obtain ⟨g1, g2, g3, g4, g5, g6, g7, g8, g9, g10, g11, g12⟩ := checkSettled_facts s n
  exact ⟨⟨g5, g6, g7, g8, g9, g10⟩, g2, g11, g12⟩

/-! ## The end of a readout -/

/-- A line's change of state touches the line and the notices only (R131). -/
theorem changeLine_facts (s : State) (c : Camera) (new : LineState) (cause : LineCause) (lost : Nat) :
    SameBlocks s (s.changeLine c new cause lost) ∧ (s.changeLine c new cause lost).table = s.table
    ∧ (s.changeLine c new cause lost).readout = s.readout
    ∧ (s.changeLine c new cause lost).memory = s.memory
    ∧ (∀ j : Camera, j ≠ c → (s.changeLine c new cause lost).lines[j] = s.lines[j])
    ∧ (s.changeLine c new cause lost).lines[c] = { s.lines[c] with state := new, disableMark := false }
    ∧ (s.changeLine c new cause lost).link.replies = s.link.replies
    ∧ (s.changeLine c new cause lost).link.inProgress = s.link.inProgress := by
  unfold State.changeLine
  simp only
  obtain ⟨q1, q2, q3, q4, q5, q6, q7, q8, q9, q10, q11, q12⟩ :=
    queueNotice_facts (s.setLine c { s.lines[c] with state := new, disableMark := false })
      (.cameraState c s.lines[c].state new cause s.lines[c].accumulated lost)
  refine ⟨⟨q1, q2, q5, q6, q4, q10⟩, q3, q8, q9, ?_, ?_, q11, q12⟩
  · intro j hj; simp only [q7]; exact lines_setLine_ne _ _ hj
  · simp only [q7]; exact lines_setLine _ _ _

/-- A line on which a disable mark has taken effect (R118). -/
def CameraLine.marked (l : CameraLine) : CameraLine :=
  if l.disableMark = true ∧ l.state = .inService then
    { l with state := .outOfService, disableMark := false }
  else l

/-- A disable mark takes effect (R118). -/
theorem actOnMark_facts (s : State) (c : Camera) :
    SameBlocks s (s.actOnMark c) ∧ (s.actOnMark c).table = s.table
    ∧ (s.actOnMark c).readout = s.readout ∧ (s.actOnMark c).memory = s.memory
    ∧ (∀ j : Camera, j ≠ c → (s.actOnMark c).lines[j] = s.lines[j])
    ∧ (s.actOnMark c).lines[c] = s.lines[c].marked := by
  unfold CameraLine.marked
  by_cases h : s.lines[c].disableMark = true ∧ s.lines[c].state = .inService
  · have : s.actOnMark c = s.changeLine c .outOfService .disableFlag 0 := by
      unfold State.actOnMark; rw [if_pos h]
    obtain ⟨a1, a2, a3, a4, a5, a6, -⟩ := changeLine_facts s c .outOfService .disableFlag 0
    simp only [this, if_pos h]; exact ⟨a1, a2, a3, a4, a5, a6⟩
  · have : s.actOnMark c = s := by unfold State.actOnMark; rw [if_neg h]
    simp only [this, if_neg h]
    exact ⟨SameBlocks.refl s, by simp⟩

/-- A readout ends: its shot takes its state, its channel is idle, and a disable mark takes effect. -/
theorem endReadout_facts (s : State) (c : Camera) (ch : ChannelNo) (r : ShotRef) (st : ShotState) :
    SameBlocks s (s.endReadout c ch r st)
    ∧ (∀ q, (s.endReadout c ch r st).shot? q
        = (s.shot? q).map (fun k => if q = r then { k with state := st } else k))
    ∧ (s.endReadout c ch r st).readout
        = { s.readout with channels := setAt s.readout.channels ch none }
    ∧ (s.endReadout c ch r st).memory = s.memory
    ∧ (∀ j : Camera, j ≠ c → (s.endReadout c ch r st).lines[j] = s.lines[j])
    ∧ (s.endReadout c ch r st).lines[c] = s.lines[c].marked := by
  unfold State.endReadout
  obtain ⟨g1, g2, g3, g4, g5, g6, g7, g8, g9, g10, g11⟩ := finishShot_facts s r st
  obtain ⟨c1, c2, c3, c4, c5, c6, c7, c8, c9, c10, c11, c12⟩ :=
    checkSettled_facts (s.finishShot r st) r.passage
  generalize hu : ((s.finishShot r st).checkSettled r.passage) = u at *
  obtain ⟨a1, a2, a3, a4, a5, a6⟩ := actOnMark_facts (u.setChannel ch none) c
  have hs : SameBlocks s u := ⟨by rw [c5, g5], by rw [c6, g6], by rw [c7, g7], by rw [c8, g8],
    by rw [c9, g9], by rw [c10, g10]⟩
  have hul : (u.setChannel ch none).lines = s.lines := by change u.lines = _; rw [c2, g2]
  refine ⟨(hs.trans (c := u.setChannel ch none) ⟨rfl, rfl, rfl, rfl, rfl, rfl⟩).trans a1,
    ?_, ?_, ?_, ?_, ?_⟩
  · intro q; rw [shot?_of_table a2]; change u.shot? q = _; rw [c1, g1]
  · rw [a3]; unfold State.setChannel; simp only [c3, g3]
  · rw [a4]; change u.memory = _; rw [c4, g4]
  · intro j hj; rw [a5 j hj, hul]
  · rw [a6, hul]

/-- A shot that is not being read takes a terminal state and is reported (R40). -/
theorem endShot_facts (s : State) (r : ShotRef) (st : ShotState) :
    SameLines s (s.endShot r st)
    ∧ (∀ q, (s.endShot r st).shot? q
        = (s.shot? q).map (fun k => if q = r then { k with state := st } else k))
    ∧ (s.endShot r st).readout = s.readout ∧ (s.endShot r st).memory = s.memory := by
  unfold State.endShot
  obtain ⟨c1, c2, c3, c4, c5, c6, c7, c8, c9, c10, c11, c12⟩ :=
    checkSettled_facts (s.modifyShot r (fun k => { k with state := st })) r.passage
  exact ⟨⟨⟨c5, c6, c7, c8, c9, c10⟩, c2, c11, c12⟩, fun q => (c1 q).trans (shot?_modifyShot s r q _),
    c3, c4⟩

/-- A readout that stores no more: its pages are returned, its channel takes the step, and on a line
without orders the DISCARD of its slot is pending (R123, R126). -/
theorem discardReadout_facts {s : State} {c : Camera} {slot : SlotNo} {w : ChannelWork} (ch : ChannelNo)
    (step : ChannelStep) (hs : s.lines[c].slotOf w.shot = some slot) (ho : s.lines[c].orders = .none)
    (hn : s.lines[c].outstanding = none) :
    SameBlocks s (s.discardReadout c ch w step) ∧ (s.discardReadout c ch w step).table = s.table
    ∧ (s.discardReadout c ch w step).memory = (s.returnPages w.shot w.page).memory
    ∧ (s.discardReadout c ch w step).readout = { s.readout with
        channels := setAt s.readout.channels ch (some { w with page := none, step := step }) }
    ∧ (∀ j : Camera, j ≠ c → (s.discardReadout c ch w step).lines[j] = s.lines[j])
    ∧ (s.discardReadout c ch w step).lines[c]
        = { s.lines[c] with orders := ⟨false, slot = 0, slot = 1, none, false⟩ } := by
  unfold State.discardReadout
  simp only
  obtain ⟨a, b, e⟩ := returnPages_facts s w.shot w.page
  generalize hu : s.returnPages w.shot w.page = u at *
  have hl : (u.setChannel ch (some { w with page := none, step := step })).lines = s.lines := a.2.1
  rw [hl, hs]; simp only
  unfold State.pendOrder
  rw [hl]
  have hp : s.lines[c].pend (.discard slot)
      = { s.lines[c] with orders := ⟨false, slot = 0, slot = 1, none, false⟩ } := by
    generalize s.lines[c] = l at *
    obtain ⟨_, _, _, _, _, _, _⟩ := l
    simp only at hn ho; subst hn ho
    match slot with
    | 0 => rfl
    | 1 => rfl
  rw [hp]
  refine ⟨a.1.trans ⟨rfl, rfl, rfl, rfl, rfl, rfl⟩, b, rfl, ?_, ?_, lines_setLine _ _ _⟩
  · unfold State.setChannel State.setLine; simp only [e]
  · intro j hj; rw [lines_setLine_ne _ _ hj, hl]

/-! ## DOWN (R124) -/

/-- Without a channel serving its camera no shot is READING. -/
theorem finishReading_none {s : State} {c : Camera} (h : s.serving? c = none) :
    s.finishReading c = s := by
  unfold State.finishReading; rw [h]

/-- The READING shot of a line that goes DOWN: PARTIAL when a segment was stored, else LOST. -/
theorem finishReading_some {s : State} {c : Camera} {ch : ChannelNo} {w : ChannelWork}
    (h : s.serving? c = some (ch, w)) {k : Shot} (hk : s.shot? w.shot = some k) :
    SameLines s (s.finishReading c)
    ∧ (s.finishReading c).readout = { s.readout with channels := setAt s.readout.channels ch none }
    ∧ ∀ q, (s.finishReading c).shot? q = (s.shot? q).map (fun k' =>
        if q = w.shot then { k' with state := if k.segmentsStored = 0 then .lost else .partialStored }
        else k') := by
  unfold State.finishReading; rw [h]; simp only
  generalize hs1 : (if w.step = .discard ∨ w.step = .stopping then s
    else s.returnPages w.shot w.page) = s1
  have h1 : SameLines s s1 ∧ s1.table = s.table ∧ s1.readout = s.readout := by
    rw [← hs1]; split
    · exact ⟨SameLines.refl s, rfl, rfl⟩
    · exact returnPages_facts s w.shot w.page
  have hst : s1.hasStored w.shot = (k.segmentsStored != 0) := by
    unfold State.hasStored; rw [shot?_of_table h1.2.1, hk]
  rw [hst]
  obtain ⟨g1, g2, g3, g4, g5, g6, g7, g8, g9, g10, g11⟩ := finishShot_facts s1 w.shot
    (if (k.segmentsStored != 0) = true then ShotState.partialStored else .lost)
  refine ⟨(h1.1.trans (SameLines.finishShot s1 _ _)).trans
    ⟨⟨rfl, rfl, rfl, rfl, rfl, rfl⟩, rfl, rfl, rfl⟩, ?_, ?_⟩
  · unfold State.setChannel
    simp only [g3, h1.2.2]
  · intro q
    change (s1.finishShot _ _).shot? q = _
    rw [g1, shot?_of_table h1.2.1]
    congr 1; funext k'
    split
    · by_cases hz : k.segmentsStored = 0 <;> simp [hz]
    · rfl

/-- A HELD shot in a slot of a line that goes DOWN is LOST. -/
theorem loseHeld_facts (s : State) (x : Option ShotRef) :
    SameLines s (s.loseHeld x) ∧ (s.loseHeld x).readout.channels = s.readout.channels
    ∧ ∀ q, (s.loseHeld x).shot? q = (s.shot? q).map (fun k =>
        if x = some q ∧ k.state = .held then { k with state := .lost } else k) := by
  unfold State.loseHeld
  cases x with
  | none => exact ⟨SameLines.refl s, rfl, fun q => by simp⟩
  | some r =>
    simp only
    split
    · rename_i h
      obtain ⟨a, b, d⟩ := returnPages_facts (s.leaveReadoutQueue r) r none
      obtain ⟨g1, g2, g3, g4, g5, g6, g7, g8, g9, g10, g11⟩ :=
        finishShot_facts ((s.leaveReadoutQueue r).returnPages r none) r .lost
      have hq : SameLines s (s.leaveReadoutQueue r) :=
        ⟨⟨rfl, rfl, rfl, rfl, rfl, rfl⟩, rfl, rfl, rfl⟩
      refine ⟨(hq.trans a).trans (SameLines.finishShot _ _ _), ?_, ?_⟩
      · rw [g3, d]; rfl
      · intro q
        rw [g1, shot?_of_table b, show (s.leaveReadoutQueue r).shot? q = s.shot? q from rfl]
        by_cases hq : q = r
        · subst hq
          unfold State.shotState at h
          cases hk : s.shot? q with
          | none => rfl
          | some k => rw [hk] at h; simp at h; simp [h]
        · have : r ≠ q := fun h => hq h.symm
          simp [hq, this]
    · rename_i h
      refine ⟨SameLines.refl s, rfl, fun q => ?_⟩
      cases hk : s.shot? q with
      | none => rfl
      | some k =>
        simp only [Option.map_some]
        rw [if_neg]
        rintro ⟨h1, h2⟩
        cases h1
        apply h; unfold State.shotState; rw [hk]; simp [h2]

/-- Both slots of a line freed. -/
theorem setAt_both (v : Vector (Option ShotRef) 2) :
    setAt (setAt v (0 : SlotNo) none) (1 : SlotNo) none = Vector.replicate 2 none := by
  apply Vector.ext; intro i hi
  unfold setAt
  rcases i with _ | _ | i
  · simp
  · simp
  · omega

theorem SameLines.finishReading (s : State) (c : Camera) : SameLines s (s.finishReading c) := by
  cases h : s.serving? c with
  | none => rw [finishReading_none h]; exact SameLines.refl _
  | some x =>
    obtain ⟨ch, w⟩ := x
    have h2 := (serving?_some h).2
    unfold State.cameraOf at h2
    cases hk : s.shot? w.shot with
    | none => rw [hk] at h2; cases h2
    | some k => exact (finishReading_some h hk).1

/-- The report of a slot's shot is a settlement check. -/
theorem reportSlot_facts (s : State) (x : Option ShotRef) :
    SameLines s (s.reportSlot x) ∧ (∀ q, (s.reportSlot x).shot? q = s.shot? q)
    ∧ (s.reportSlot x).readout = s.readout := by
  unfold State.reportSlot
  cases x with
  | none => exact ⟨SameLines.refl s, fun _ => rfl, rfl⟩
  | some r =>
    obtain ⟨a1, a2, a3, -⟩ := checkSettled_facts s r.passage
    exact ⟨SameLines.checkSettled s _, a1, a3⟩

/-- A failed CAMERA SENSE touches the link only (R130). -/
theorem failSense_facts (s : State) (c : Camera) (d : Detail) :
    SameBlocks s (s.failSense c d) ∧ (s.failSense c d).lines = s.lines
    ∧ (s.failSense c d).table = s.table ∧ (s.failSense c d).readout = s.readout
    ∧ ∀ tag, s.link.inProgress = some (.cameraSense tag c) →
        (s.failSense c d).link.inProgress = none
        ∧ (s.failSense c d).link.replies = s.link.replies ++ [⟨tag, 0x0602, .failed, d, [], false⟩] := by
  unfold State.failSense
  split
  · rename_i tag k hk
    split
    · rename_i hkc
      refine ⟨⟨rfl, rfl, rfl, rfl, rfl, rfl⟩, rfl, rfl, rfl, fun tag' h => ?_⟩
      rw [hk] at h; cases h; exact ⟨rfl, rfl⟩
    · rename_i hkc
      refine ⟨SameBlocks.refl _, rfl, rfl, rfl, fun tag' h => ?_⟩
      rw [hk] at h; cases h; exact absurd rfl hkc
  · rename_i hk
    exact ⟨SameBlocks.refl _, rfl, rfl, rfl, fun tag' h => absurd h (hk tag' c)⟩

/-- A line goes DOWN (R124): no order, both slots free, no linking sequence; a CAMERA SENSE in progress on
it fails; its shots end as `finishReading_some` and `loseHeld_facts` say. -/
theorem goDown_facts (s : State) (c : Camera) (cause : LineCause) :
    SameBlocks s (s.goDown c cause)
    ∧ (s.goDown c cause).lines[c]
        = ⟨.down, Vector.replicate 2 none, .none, none, s.lines[c].accumulated, false, none⟩
    ∧ (∀ j : Camera, j ≠ c → (s.goDown c cause).lines[j] = s.lines[j])
    ∧ (∀ tag, s.link.inProgress = some (.cameraSense tag c) →
        (s.goDown c cause).link.inProgress = none
        ∧ (s.goDown c cause).link.replies
            = s.link.replies ++ [⟨tag, 0x0602, .failed, .cameraDown, [], false⟩])
    ∧ (∀ r, (s.goDown c cause).shot? r
        = ((((s.setLine c s.lines[c].dropOrders).finishReading c).loseHeld
            s.lines[c].slots[(0 : SlotNo)]).loseHeld s.lines[c].slots[(1 : SlotNo)]).shot? r)
    ∧ (s.goDown c cause).readout.channels
        = ((s.setLine c s.lines[c].dropOrders).finishReading c).readout.channels := by
  unfold State.goDown
  simp only
  set s1 := s.setLine c s.lines[c].dropOrders with hs1
  have hf := SameLines.finishReading s1 c
  obtain ⟨l0, l0c, l0s⟩ := loseHeld_facts (s1.finishReading c) s.lines[c].slots[(0 : SlotNo)]
  obtain ⟨l1, l1c, l1s⟩ := loseHeld_facts
    ((s1.finishReading c).loseHeld s.lines[c].slots[(0 : SlotNo)]) s.lines[c].slots[(1 : SlotNo)]
  set s2 := ((s1.finishReading c).loseHeld s.lines[c].slots[(0 : SlotNo)]).loseHeld
    s.lines[c].slots[(1 : SlotNo)] with hs2
  have h2 : SameLines s1 s2 := (hf.trans l0).trans l1
  generalize hlost : s2.lostIn s.lines[c].slots[(0 : SlotNo)]
    + s2.lostIn s.lines[c].slots[(1 : SlotNo)] = lost
  set s3 := (s2.setSlot c 0 none).setSlot c 1 none with hs3
  clear_value s2
  have h2l : s2.lines[c] = s.lines[c].dropOrders := by rw [h2.2.1, hs1]; exact lines_setLine _ _ _
  have h3l : s3.lines[c] = { s.lines[c].dropOrders with slots := Vector.replicate 2 none } := by
    rw [hs3]; unfold State.setSlot
    rw [lines_setLine, lines_setLine, h2l]
    unfold CameraLine.setSlot
    simp only [setAt_both]
  have h3j : ∀ j : Camera, j ≠ c → s3.lines[j] = s.lines[j] := by
    intro j hj
    rw [hs3]; unfold State.setSlot
    rw [lines_setLine_ne _ _ hj, lines_setLine_ne _ _ hj, h2.2.1, hs1, lines_setLine_ne _ _ hj]
  have h3 : SameBlocks s2 s3 := ⟨rfl, rfl, rfl, rfl, rfl, rfl⟩
  have h3t : s3.table = s2.table ∧ s3.readout = s2.readout ∧ s3.link = s2.link := ⟨rfl, rfl, rfl⟩
  clear_value s3
  obtain ⟨r0, r0s, r0r⟩ := reportSlot_facts s3 s.lines[c].slots[(0 : SlotNo)]
  obtain ⟨r1, r1s, r1r⟩ := reportSlot_facts (s3.reportSlot s.lines[c].slots[(0 : SlotNo)])
    s.lines[c].slots[(1 : SlotNo)]
  set s4 := (s3.reportSlot s.lines[c].slots[(0 : SlotNo)]).reportSlot s.lines[c].slots[(1 : SlotNo)]
  have h4 : SameLines s3 s4 := r0.trans r1
  have s4s : ∀ q, s4.shot? q = s2.shot? q :=
    fun q => (r1s q).trans ((r0s q).trans (shot?_of_table h3t.1 q))
  have s4r : s4.readout = s2.readout := r1r.trans (r0r.trans h3t.2.1)
  clear_value s4
  obtain ⟨c1, c2, c3, c4, c5, c6, c7, c8⟩ := changeLine_facts s4 c .down cause lost
  set s5 := s4.changeLine c .down cause lost
  clear_value s5
  obtain ⟨f1, f2, f3, f4, f5⟩ := failSense_facts s5 c .cameraDown
  have hi : s5.link.inProgress = s.link.inProgress := c8.trans (h4.2.2.2.trans
    ((show s3.link.inProgress = s2.link.inProgress by rw [h3t.2.2]).trans h2.2.2.2))
  have hr : s5.link.replies = s.link.replies := c7.trans (h4.2.2.1.trans
    ((show s3.link.replies = s2.link.replies by rw [h3t.2.2]).trans h2.2.2.1))
  have h1 : SameBlocks s s1 := ⟨rfl, rfl, rfl, rfl, rfl, rfl⟩
  refine ⟨((((h1.trans h2.1).trans h3).trans h4.1).trans c1).trans f1, ?_, ?_, ?_, ?_, ?_⟩
  · simp only [f2, c6]
    rw [h4.2.1, h3l]; rfl
  · intro j hj
    simp only [f2]
    rw [c5 j hj, h4.2.1, h3j j hj]
  · intro tag ht
    rw [← hr]; exact f5 tag (hi.trans ht)
  · intro r
    rw [shot?_of_table f3, shot?_of_table c2, s4s]
  · rw [f4, c3, s4r, l1c, l0c]

/-! ## The lowest free page (R138) -/

/-- The lowest free number from n on, by a page table whose keys rise from n on. -/
theorem lowestFreeFrom_facts (l : List (Nat × Page)) : ∀ n, l.Pairwise (fun a b => a.1 < b.1) →
    (∀ e ∈ l, n ≤ e.1) → n ≤ lowestFreeFrom l n
    ∧ (sparseGet Page.initial l (lowestFreeFrom l n)).condition = .free
    ∧ ∀ j, n ≤ j → j < lowestFreeFrom l n → (sparseGet Page.initial l j).condition ≠ .free := by
  induction l with
  | nil =>
    intro n _ _
    refine ⟨Nat.le_refl _, rfl, fun j h1 h2 => ?_⟩
    simp [lowestFreeFrom] at h2; omega
  | cons e rest ih =>
    obtain ⟨k, p⟩ := e
    intro n hp hn
    have hkn : n ≤ k := hn (k, p) (by simp)
    rw [List.pairwise_cons] at hp
    have hrest : ∀ j, j ≤ k → rest.lookup j = none := by
      intro j hj
      exact lookup_eq_none_of_forall_ne (fun e he => by have := hp.1 e he; simp at this; omega)
    have hget : ∀ j, sparseGet Page.initial ((k, p) :: rest) j
        = if j = k then p else sparseGet Page.initial rest j := by
      intro j
      unfold sparseGet
      simp only [List.lookup_cons]
      by_cases h : j = k
      · simp [h]
      · rw [if_neg h]
        have : (j == k) = false := by simpa using h
        simp [this]
    unfold lowestFreeFrom
    split
    · refine ⟨Nat.le_refl _, ?_, fun j h1 h2 => by omega⟩
      rw [hget, if_neg (by omega)]
      unfold sparseGet; rw [hrest n (by omega)]; rfl
    · split
      · rename_i hf
        exact ⟨hkn, by rw [hget, if_pos rfl]; exact hf, fun j h1 h2 => by omega⟩
      · rename_i hf
        obtain ⟨i1, i2, i3⟩ := ih (k + 1) hp.2
          (fun e he => by have := hp.1 e he; simp at this; omega)
        refine ⟨by omega, ?_, fun j h1 h2 => ?_⟩
        · rw [hget, if_neg (by omega)]; exact i2
        · rw [hget]
          split
          · exact hf
          · exact i3 j (by omega) h2

end Sys2Proof.Machine
end

