-- ==== Sys2Proof/Laws/Down.lean ====
section
/-! SUPPORT. What a line going DOWN does to its shots, their passages, the channels, the readout queue, frame
memory and the notices (R124): `goDown` has the effect that `WentDown` names. -/

namespace Sys2Proof.Machine

set_option Elab.async false

/-! ## Passages -/

/-- The passage a number names after a record is changed. -/
theorem passage?_modify (s : State) (n m : Nat) (f : Passage → Passage)
    (hf : ∀ p, (f p).number = p.number) :
    (s.modifyPassage n f).passage? m = (s.passage? m).map (fun p => if m = n then f p else p) := by
  unfold State.passage? State.modifyPassage
  exact find?_changePassage n f hf _ m

theorem passage?_of_table {s u : State} (h : u.table = s.table) (n : Nat) :
    u.passage? n = s.passage? n := by
  unfold State.passage?; rw [h]

/-- A passage in which one of the named shots ends: its state, and its fault (R123, R124, R126). -/
def Passage.endAt (p : Passage) (n : Nat) (x : ShotRef × ShotState) : Passage :=
  if x.1.passage = n then
    let q := p.modifyShot x.1.shot (fun k => { k with state := x.2 })
    match x.2.fault with
    | some code => q.recordFault code none (some x.1.shot)
    | none => q
  else p

theorem Passage.endAt_number (p : Passage) (n : Nat) (x : ShotRef × ShotState) :
    (p.endAt n x).number = p.number := by
  unfold Passage.endAt; split
  · simp only; split <;> rfl
  · rfl

theorem Passage.endAt_state (p : Passage) (n : Nat) (x : ShotRef × ShotState) :
    (p.endAt n x).state = p.state := by
  unfold Passage.endAt; split
  · simp only; split <;> rfl
  · rfl

theorem Passage.endAt_settle (p : Passage) (n : Nat) (x : ShotRef × ShotState) :
    (p.endAt n x).settle = p.settle := by
  unfold Passage.endAt; split
  · simp only; split <;> rfl
  · rfl

theorem finishShot_passage? (s : State) (r : ShotRef) (st : ShotState) (n : Nat) :
    (s.finishShot r st).passage? n = (s.passage? n).map (fun p => p.endAt n (r, st)) := by
  have hm : ∀ (u : State) (f : Shot → Shot), (u.modifyShot r f).passage? n
      = (u.passage? n).map (fun p => if n = r.passage then p.modifyShot r.shot f else p) :=
    fun u f => passage?_modify u r.passage n (fun p => p.modifyShot r.shot f) (fun _ => rfl)
  have hf : ∀ (u : State) (code : FaultCode), (u.recordFault r.passage code none (some r.shot)).passage? n
      = (u.passage? n).map (fun p =>
          if n = r.passage then p.recordFault code none (some r.shot) else p) :=
    fun u code => passage?_modify u r.passage n (fun p => p.recordFault code none (some r.shot))
      (fun _ => rfl)
  unfold State.finishShot Passage.endAt
  split
  · rename_i code hc
    dsimp only
    rw [hf, hm]
    cases s.passage? n with
    | none => rfl
    | some p =>
      by_cases h : n = r.passage
      · simp [h, hc]
      · simp [h, Ne.symm h]
  · rename_i hc
    dsimp only
    rw [hm]
    cases s.passage? n with
    | none => rfl
    | some p =>
      by_cases h : n = r.passage
      · simp [h, hc]
      · simp [h, Ne.symm h]

/-- The settlement check of a passage: its own record, by the check; no other. -/
theorem checkSettled_passage? (s : State) (n m : Nat) {p : Passage} (hp : s.passage? m = some p) :
    ∃ q, (s.checkSettled n).passage? m = some q ∧ q.faults = p.faults ∧ q.shots = p.shots
      ∧ (n = m → p.settled = true → p.state = .clear →
          q.state = .filed ∧ q.settle = some (s.clock.time, s.clock.epoch))
      ∧ (n = m → p.settled = true → p.state = .stopping →
          q.state = .abandoned ∧ q.settle = some (s.clock.time, s.clock.epoch))
      ∧ (n ≠ m ∨ p.settled = false ∨ (p.state ≠ .clear ∧ p.state ≠ .stopping) → q = p) := by
  have hkeep : (n = m → p.settled = true → p.state = .clear → False) →
      (n = m → p.settled = true → p.state = .stopping → False) → ∀ u : State, u.passage? m = some p →
      ∃ q, u.passage? m = some q ∧ q.faults = p.faults ∧ q.shots = p.shots
      ∧ (n = m → p.settled = true → p.state = .clear →
          q.state = .filed ∧ q.settle = some (s.clock.time, s.clock.epoch))
      ∧ (n = m → p.settled = true → p.state = .stopping →
          q.state = .abandoned ∧ q.settle = some (s.clock.time, s.clock.epoch))
      ∧ (n ≠ m ∨ p.settled = false ∨ (p.state ≠ .clear ∧ p.state ≠ .stopping) → q = p) :=
    fun h1 h2 u hu => ⟨p, hu, rfl, rfl, fun a b c => (h1 a b c).elim, fun a b c => (h2 a b c).elim,
      fun _ => rfl⟩
  have hchange : ∀ (st : PassageState) (x : Notice),
      ((s.modifyPassage n (·.settleAs st s.now s.clock.epoch)).queueNotice x).passage? m
        = some (if m = n then p.settleAs st s.now s.clock.epoch else p) := by
    intro st x
    rw [passage?_of_table (queueNotice_facts _ x).2.2.1,
      passage?_modify s n m (·.settleAs st s.now s.clock.epoch) (fun _ => rfl), hp]; rfl
  unfold State.checkSettled
  split
  · rename_i hn
    refine hkeep ?_ ?_ s hp <;> intro hnm <;> subst hnm <;> rw [hp] at hn <;> cases hn
  · rename_i p' hn
    by_cases hm : m = n
    · subst hm
      rw [hp] at hn; cases hn
      by_cases hset : p.settled = true
      · rw [if_pos hset]
        split
        · rename_i hst
          exact ⟨_, hchange _ _, by simp [Passage.settleAs], by simp [Passage.settleAs],
            fun _ _ _ => by simp [Passage.settleAs, State.now], fun _ _ h => by simp [hst] at h,
            by simp [hset, hst]⟩
        · rename_i hst
          exact ⟨_, hchange _ _, by simp [Passage.settleAs], by simp [Passage.settleAs],
            fun _ _ h => by simp [hst] at h, fun _ _ _ => by simp [Passage.settleAs, State.now],
            by simp [hset, hst]⟩
        all_goals
          rename_i hst
          exact hkeep (fun _ _ h => by simp [hst] at h) (fun _ _ h => by simp [hst] at h) s hp
      · rw [if_neg hset]
        exact hkeep (fun _ h => absurd h hset) (fun _ h => absurd h hset) s hp
    · have hnm : n ≠ m := fun h => hm h.symm
      split
      · split
        all_goals first
          | exact hkeep (fun h => absurd h hnm) (fun h => absurd h hnm) _
              ((hchange _ _).trans (by rw [if_neg hm]))
          | exact hkeep (fun h => absurd h hnm) (fun h => absurd h hnm) _ hp
      · exact hkeep (fun h => absurd h hnm) (fun h => absurd h hnm) s hp

/-! ## Notices -/

/-- A queued notice leaves those before it in their places (R186). -/
theorem queueNotice_prefix (s : State) (n : Notice) : s.link.notices <+: (s.queueNotice n).link.notices := by
  unfold State.queueNotice; split
  · exact List.prefix_append _ _
  · exact List.prefix_refl _

theorem queueNotices_prefix (ns : List Notice) : ∀ s : State,
    s.link.notices <+: (s.queueNotices ns).link.notices := by
  induction ns with
  | nil => intro s; exact List.prefix_refl _
  | cons n ns ih => intro s; exact (queueNotice_prefix s n).trans (ih _)

theorem checkSettled_prefix (s : State) (n : Nat) :
    s.link.notices <+: (s.checkSettled n).link.notices := by
  unfold State.checkSettled
  split
  · exact List.prefix_refl _
  · split
    · split
      · exact queueNotice_prefix (s.modifyPassage n _) _
      · exact queueNotice_prefix (s.modifyPassage n _) _
      all_goals exact List.prefix_refl _
    · exact List.prefix_refl _

theorem returnPages_prefix (s : State) (r : ShotRef) (page : Option Nat) :
    s.link.notices <+: (s.returnPages r page).link.notices := by
  unfold State.returnPages
  cases page with
  | none => exact List.prefix_refl _
  | some k => exact queueNotices_prefix (s.memory.free k).2 (s.setMemory (s.memory.free k).1)

/-! ## The shots of a line that goes DOWN -/

/-- The memory after pages are returned (R139). -/
theorem returnPages_memory (s : State) (r : ShotRef) (page : Option Nat) :
    (s.returnPages r page).memory = (match page with
      | some k => (s.memory.free k).1.returnReservation r
      | none => s.memory.returnReservation r) := by
  unfold State.returnPages
  cases page with
  | none => rfl
  | some k =>
    have := (queueNotices_facts (s.memory.free k).2 (s.setMemory (s.memory.free k).1)).2.2.2
    exact congrArg (fun m => FrameMemory.returnReservation m r) this

/-- The READING shot of a line that goes DOWN, as one entry of `endedByDown`. -/
def State.readingEnded (s : State) (c : Camera) : List (ShotRef × ShotState) :=
  match s.serving? c with
  | some (_, w) => [(w.shot, if s.hasStored w.shot = true then .partialStored else .lost)]
  | none => []

theorem finishReading_down (s : State) (c : Camera) :
    (∀ n, (s.finishReading c).passage? n
        = (s.passage? n).map (fun p => (s.readingEnded c).foldl (fun q x => q.endAt n x) p))
    ∧ (s.finishReading c).memory = s.memoryAfterDown c
    ∧ (s.finishReading c).readout = { s.readout with channels := (match s.serving? c with
        | some (ch, _) => setAt s.readout.channels ch none
        | none => s.readout.channels) }
    ∧ s.link.notices <+: (s.finishReading c).link.notices := by
  unfold State.finishReading State.readingEnded State.memoryAfterDown
  cases h : s.serving? c with
  | none => exact ⟨fun n => by simp, rfl, rfl, List.prefix_refl _⟩
  | some x =>
    obtain ⟨ch, w⟩ := x
    dsimp only
    generalize hs1 : (if w.step = .discard ∨ w.step = .stopping then s
      else s.returnPages w.shot w.page) = s1
    have h1 : s1.table = s.table ∧ s1.readout = s.readout ∧ s.link.notices <+: s1.link.notices
        ∧ s1.memory = (if w.step = .discard ∨ w.step = .stopping then s.memory else
          match w.page with
          | some k => (s.memory.free k).1.returnReservation w.shot
          | none => s.memory.returnReservation w.shot) := by
      rw [← hs1]; split
      · exact ⟨rfl, rfl, List.prefix_refl _, rfl⟩
      · exact ⟨(returnPages_facts s w.shot w.page).2.1, (returnPages_facts s w.shot w.page).2.2,
          returnPages_prefix s _ _, returnPages_memory s _ _⟩
    have hst : s1.hasStored w.shot = s.hasStored w.shot := by
      unfold State.hasStored; rw [shot?_of_table h1.1]
    rw [hst]
    obtain ⟨g1, g2, g3, g4, g5, g6, g7, g8, g9, g10, g11⟩ := finishShot_facts s1 w.shot
      (if s.hasStored w.shot = true then ShotState.partialStored else .lost)
    refine ⟨fun n => ?_, ?_, ?_, ?_⟩
    · change (s1.finishShot _ _).passage? n = _
      rw [finishShot_passage?, passage?_of_table h1.1]; rfl
    · change (s1.finishShot _ _).memory = _
      rw [g4, h1.2.2.2]
      all_goals
        split
        · rfl
        · cases w.page <;> rfl
    · unfold State.setChannel; simp only [g3, h1.2.1]
    · change _ <+: (s1.finishShot _ _).link.notices
      rw [g11]; exact h1.2.2.1

/-- The HELD shot in a slot, as entries of `heldIn`. -/
def State.heldAt (s : State) (x : Option ShotRef) : List ShotRef :=
  (x.bind (fun r => if s.shotState r = some .held then some r else none)).toList

theorem loseHeld_down (s : State) (x : Option ShotRef) :
    (∀ n, (s.loseHeld x).passage? n
        = (s.passage? n).map (fun p => ((s.heldAt x).map (fun r => (r, ShotState.lost))).foldl
            (fun q y => q.endAt n y) p))
    ∧ (s.loseHeld x).memory = { s.memory with
        reservations := s.memory.reservations.filter (fun e => !(s.heldAt x).contains e.shot) }
    ∧ (s.loseHeld x).readout = { s.readout with
        queue := s.readout.queue.filter (fun r => !(s.heldAt x).contains r) }
    ∧ s.link.notices <+: (s.loseHeld x).link.notices := by
  unfold State.loseHeld State.heldAt
  cases x with
  | none => exact ⟨fun n => by simp, by simp, by simp, List.prefix_refl _⟩
  | some r =>
    dsimp only [Option.bind_some]
    split
    · obtain ⟨g1, g2, g3, g4, g5, g6, g7, g8, g9, g10, g11⟩ :=
        finishShot_facts ((s.leaveReadoutQueue r).returnPages r none) r .lost
      refine ⟨fun n => ?_, ?_, ?_, ?_⟩
      · rw [finishShot_passage?]; rfl
      · rw [g4]
        change s.memory.returnReservation r = _
        unfold FrameMemory.returnReservation
        congr 1
        apply List.filter_congr; intro e _
        simp only [List.contains_cons, List.contains_nil, Bool.or_false, bne,
          Option.toList_some]
      · rw [g3]
        change (s.leaveReadoutQueue r).readout = _
        unfold State.leaveReadoutQueue
        simp only
        congr 1
        apply List.filter_congr; intro e _
        simp only [List.contains_cons, List.contains_nil, Bool.or_false, bne,
          Option.toList_some]
      · rw [g11]; exact List.prefix_refl _
    · exact ⟨fun n => by simp, by simp, by simp, List.prefix_refl _⟩

theorem State.heldIn_eq (s : State) (c : Camera) :
    s.heldIn c = s.heldAt s.lines[c].slots[(0 : SlotNo)] ++ s.heldAt s.lines[c].slots[(1 : SlotNo)] := by
  unfold State.heldIn State.heldAt
  have : s.lines[c].slots.toList
      = [s.lines[c].slots[(0 : SlotNo)], s.lines[c].slots[(1 : SlotNo)]] := by
    generalize s.lines[c].slots = v
    apply List.ext_getElem
    · simp
    · intro i h1 h2
      simp only [List.length_cons, List.length_nil] at h2
      match i, h2 with
      | 0, _ => simp
      | 1, _ => simp
  rw [this]
  simp only [List.filterMap_cons, List.filterMap_nil]
  cases s.lines[c].slots[(0 : SlotNo)].bind _ <;> cases s.lines[c].slots[(1 : SlotNo)].bind _ <;> rfl

/-! ## The shots that end -/

/-- A shot given the state that a list of ended shots names for it. -/
def Shot.endedIn (ended : List (ShotRef × ShotState)) (r : ShotRef) (k : Shot) : Shot :=
  match ended.lookup r with
  | some st => { k with state := st }
  | none => k

theorem Shot.endedIn_append {a b : List (ShotRef × ShotState)} {r : ShotRef}
    (h : a.lookup r = none ∨ b.lookup r = none) (k : Shot) :
    Shot.endedIn (a ++ b) r k = Shot.endedIn b r (Shot.endedIn a r k) := by
  unfold Shot.endedIn
  rw [List.lookup_append]
  rcases h with h | h <;> rw [h]
  · simp
  · cases a.lookup r <;> rfl

theorem finishReading_shots {s : State} {c : Camera} (q : ShotRef) :
    (s.finishReading c).shot? q = (s.shot? q).map (Shot.endedIn (s.readingEnded c) q) := by
  unfold State.readingEnded
  cases h : s.serving? c with
  | none => rw [finishReading_none h]; cases s.shot? q <;> rfl
  | some x =>
    obtain ⟨ch, w⟩ := x
    have h2 := (serving?_some h).2
    unfold State.cameraOf at h2
    cases hk : s.shot? w.shot with
    | none => rw [hk] at h2; cases h2
    | some k =>
      rw [(finishReading_some h hk).2.2]
      congr 1; funext k'
      unfold Shot.endedIn State.hasStored
      simp only [hk]
      by_cases hq : q = w.shot
      · subst hq
        by_cases hz : k.segmentsStored = 0 <;> simp [List.lookup, hz]
      · simp [List.lookup, hq, beq_eq_false_iff_ne.2 hq]

theorem loseHeld_shots (s : State) (x : Option ShotRef) (q : ShotRef) :
    (s.loseHeld x).shot? q
      = (s.shot? q).map (Shot.endedIn ((s.heldAt x).map (fun r => (r, ShotState.lost))) q) := by
  rw [(loseHeld_facts s x).2.2]
  cases hk : s.shot? q with
  | none => rfl
  | some k =>
    simp only [Option.map_some, Option.some.injEq]
    unfold Shot.endedIn State.heldAt
    cases x with
    | none => rfl
    | some r =>
      simp only [Option.bind_some, Option.some.injEq]
      by_cases hr : r = q
      · subst hr
        have : s.shotState r = some k.state := by unfold State.shotState; rw [hk]; rfl
        by_cases hs : k.state = .held <;> simp [this, hs]
      · have : (q == r) = false := beq_eq_false_iff_ne.2 (Ne.symm hr)
        by_cases hs : s.shotState r = some .held <;> simp [hs, hr, List.lookup, this]

theorem shotState_of_shots {s u : State} {ended : List (ShotRef × ShotState)} {q : ShotRef}
    (h : u.shot? q = (s.shot? q).map (Shot.endedIn ended q)) (hn : ended.lookup q = none) :
    u.shotState q = s.shotState q := by
  unfold State.shotState
  rw [h]
  cases s.shot? q with
  | none => rfl
  | some k => simp [Shot.endedIn, hn]

theorem shotState_of_ended {s u : State} {ended : List (ShotRef × ShotState)} {q : ShotRef}
    {st : ShotState} (h : u.shot? q = (s.shot? q).map (Shot.endedIn ended q))
    (hn : ended.lookup q = some st) (hk : s.shotState q ≠ none) : u.shotState q = some st := by
  unfold State.shotState at hk ⊢
  rw [h]
  cases hq : s.shot? q with
  | none => rw [hq] at hk; exact absurd rfl hk
  | some k => simp [Shot.endedIn, hn]

theorem endAts_fixed (n : Nat) (l : List (ShotRef × ShotState)) : ∀ p : Passage,
    (l.foldl (fun q x => q.endAt n x) p).state = p.state
    ∧ (l.foldl (fun q x => q.endAt n x) p).settle = p.settle := by
  induction l with
  | nil => intro p; exact ⟨rfl, rfl⟩
  | cons x l ih =>
    intro p
    exact ⟨(ih _).1.trans (p.endAt_state n x), (ih _).2.trans (p.endAt_settle n x)⟩

/-- The faults of the shots that end in a passage, in order. -/
theorem endAts_faults (n : Nat) (l : List (ShotRef × ShotState))
    (hl : ∀ x ∈ l, x.2 = .lost ∨ x.2 = .partialStored) : ∀ p : Passage,
    (l.foldl (fun q x => q.endAt n x) p).faults
      = (l.filter (fun x => x.1.passage == n)).foldl (fun f x =>
        f.record (if x.2 = .lost then .cameraLoss else .imagePartial) none (some x.1.shot)) p.faults := by
  induction l with
  | nil => intro p; rfl
  | cons x l ih =>
    intro p
    rw [List.foldl_cons, ih (fun y hy => hl y (List.mem_cons_of_mem _ hy))]
    by_cases h : x.1.passage = n
    · rw [List.filter_cons_of_pos (by simp [h]), List.foldl_cons]
      congr 1
      unfold Passage.endAt
      rw [if_pos h]
      rcases hl x List.mem_cons_self with h2 | h2 <;> simp only [h2] <;> rfl
    · rw [List.filter_cons_of_neg (by simp [h])]
      congr 1
      unfold Passage.endAt
      rw [if_neg h]

/-- What a report of a slot's shot does to a passage. -/
theorem reportSlot_passage? (s : State) (x : Option ShotRef) (m : Nat) {p : Passage}
    (hp : s.passage? m = some p) :
    ∃ q, (s.reportSlot x).passage? m = some q ∧ q.faults = p.faults ∧ q.shots = p.shots
      ∧ (x.map (·.passage) = some m → p.settled = true → p.state = .clear →
          q.state = .filed ∧ q.settle = some (s.clock.time, s.clock.epoch))
      ∧ (x.map (·.passage) = some m → p.settled = true → p.state = .stopping →
          q.state = .abandoned ∧ q.settle = some (s.clock.time, s.clock.epoch))
      ∧ (x.map (·.passage) ≠ some m ∨ p.settled = false ∨ (p.state ≠ .clear ∧ p.state ≠ .stopping) →
          q = p) := by
  unfold State.reportSlot
  cases x with
  | none => exact ⟨p, hp, rfl, rfl, by simp, by simp, fun _ => rfl⟩
  | some r =>
    obtain ⟨q, h1, h2, h3, h4, h5, h6⟩ := checkSettled_passage? s r.passage m hp
    exact ⟨q, h1, h2, h3, by simpa using h4, by simpa using h5, by simpa using h6⟩

theorem reportSlot_rest (s : State) (x : Option ShotRef) :
    (s.reportSlot x).memory = s.memory ∧ s.link.notices <+: (s.reportSlot x).link.notices := by
  unfold State.reportSlot
  cases x with
  | none => exact ⟨rfl, List.prefix_refl _⟩
  | some r => exact ⟨(checkSettled_facts s r.passage).2.2.2.1, checkSettled_prefix s r.passage⟩

theorem failSense_rest (s : State) (c : Camera) (x : Detail) :
    (s.failSense c x).memory = s.memory ∧ (s.failSense c x).link.notices = s.link.notices
    ∧ (s.failSense c x).link.dropped = s.link.dropped := by
  unfold State.failSense
  split
  · split <;> exact ⟨rfl, rfl, rfl⟩
  · exact ⟨rfl, rfl, rfl⟩

/-- A line goes DOWN: everything R124 says of it. The shots in its slots are HELD or READING (R111), in two
slots never one and the same, and the shot a channel serves is READING and in a slot. -/
theorem goDown_wentDown (s : State) (c : Camera) (cause : LineCause)
    (hserve : ∀ ch w, s.serving? c = some (ch, w) → s.shotState w.shot = some .reading
      ∧ ∃ slot : SlotNo, s.lines[c].slots[slot] = some w.shot)
    (hne : ∀ r, s.lines[c].slots[(0 : SlotNo)] = some r → s.lines[c].slots[(1 : SlotNo)] ≠ some r)
    (hst : ∀ (slot : SlotNo) (r : ShotRef), s.lines[c].slots[slot] = some r →
      s.shotState r = some .held ∨ s.shotState r = some .reading) :
    WentDown s (s.goDown c cause) c cause := by
  obtain ⟨G1, G2, G3, G4, G5, G6⟩ := goDown_facts s c cause
  have h0 := hst 0
  have h1 := hst 1
  have heldIn := s.heldIn_eq c
  generalize hx0 : s.lines[c].slots[(0 : SlotNo)] = x0 at *
  generalize hx1 : s.lines[c].slots[(1 : SlotNo)] = x1 at *
  set s1 := s.setLine c s.lines[c].dropOrders with hs1
  have e1 : s1.readingEnded c = s.readingEnded c := rfl
  have m1 : s1.memoryAfterDown c = s.memoryAfterDown c := rfl
  have v1 : s1.serving? c = s.serving? c := rfl
  obtain ⟨F1, F2, F3, F4⟩ := finishReading_down s1 c
  have F5 := fun q => finishReading_shots (s := s1) (c := c) q
  rw [e1] at F1 F5
  rw [m1] at F2
  rw [v1] at F3
  set f := s1.finishReading c with hf
  have hread : ∀ q st, (s.readingEnded c).lookup q = some st → s.shotState q = some .reading
      ∧ (st = .lost ∨ st = .partialStored) ∧ (x0 = some q ∨ x1 = some q) := by
    intro q st h
    unfold State.readingEnded at h
    cases hv : s.serving? c with
    | none => rw [hv] at h; simp at h
    | some y =>
      obtain ⟨ch, w⟩ := y
      rw [hv] at h
      obtain ⟨a, slot, b⟩ := hserve ch w hv
      by_cases hq : q = w.shot
      · subst hq
        refine ⟨a, ?_, ?_⟩
        · simp [List.lookup] at h; rw [← h]; split <;> simp
        · match slot, b with
          | 0, b => left; rw [← hx0]; exact b
          | 1, b => right; rw [← hx1]; exact b
      · simp [List.lookup, beq_eq_false_iff_ne.2 hq] at h
  have heldF : ∀ x, f.heldAt x = s.heldAt x := by
    intro x
    unfold State.heldAt
    cases x with
    | none => rfl
    | some r =>
      have : (f.shotState r = some .held) ↔ (s.shotState r = some .held) := by
        cases hl : (s.readingEnded c).lookup r with
        | none => rw [shotState_of_shots (F5 r) hl]; exact Iff.rfl
        | some st =>
          obtain ⟨a, b, -⟩ := hread r st hl
          rw [shotState_of_ended (s := s1) (F5 r) hl (by rw [show s1.shotState r = s.shotState r from rfl, a]; simp), a]
          rcases b with b | b <;> simp [b]
      simp only [Option.bind_some, this]
  obtain ⟨A1, A2, A3, A4⟩ := loseHeld_down f x0
  have A5 := loseHeld_shots f x0
  rw [heldF] at A1 A2 A3 A5
  set g := f.loseHeld x0 with hg
  have memHeld : ∀ x q st, ((s.heldAt x).map (fun r => (r, ShotState.lost))).lookup q = some st →
      st = .lost ∧ s.shotState q = some .held ∧ x = some q := by
    intro x q st h
    unfold State.heldAt at h
    cases x with
    | none => simp at h
    | some r =>
      by_cases hr : s.shotState r = some .held
      · by_cases hq : q = r
        · subst hq; simp [hr] at h; exact ⟨h.symm, hr, rfl⟩
        · simp [hr, List.lookup, beq_eq_false_iff_ne.2 hq] at h
      · simp [hr] at h
  have heldG : g.heldAt x1 = s.heldAt x1 := by
    rw [← heldF x1]
    unfold State.heldAt
    cases hx : x1 with
    | none => rfl
    | some r =>
      have : g.shotState r = f.shotState r := by
        apply shotState_of_shots (A5 r)
        cases hl : ((s.heldAt x0).map (fun r => (r, ShotState.lost))).lookup r with
        | none => rfl
        | some st => exact absurd hx (hne r (memHeld _ _ _ hl).2.2)
      simp only [Option.bind_some, this]
  obtain ⟨B1, B2, B3, B4⟩ := loseHeld_down g x1
  have B5 := loseHeld_shots g x1
  rw [heldG] at B1 B2 B3 B5
  set d := g.loseHeld x1 with hd
  have ended : s.endedByDown c = s.readingEnded c ++ ((s.heldAt x0).map (fun r => (r, ShotState.lost))
      ++ (s.heldAt x1).map (fun r => (r, ShotState.lost))) := by
    unfold State.endedByDown State.readingEnded
    rw [heldIn, List.map_append]
    all_goals cases s.serving? c <;> rfl
  have shots : ∀ q, d.shot? q = (s.shot? q).map (Shot.endedIn (s.endedByDown c) q) := by
    intro q
    rw [B5, A5, F5, show s1.shot? q = s.shot? q from rfl, ended]
    cases s.shot? q with
    | none => rfl
    | some k =>
      simp only [Option.map_some, Option.some.injEq]
      rw [Shot.endedIn_append, Shot.endedIn_append]
      · cases hl : ((s.heldAt x0).map (fun r => (r, ShotState.lost))).lookup q with
        | none => exact Or.inl rfl
        | some st =>
          right
          cases hl2 : ((s.heldAt x1).map (fun r => (r, ShotState.lost))).lookup q with
          | none => rfl
          | some st' => exact absurd (memHeld _ _ _ hl2).2.2 (hne q (memHeld _ _ _ hl).2.2)
      · cases hl : (s.readingEnded c).lookup q with
        | none => exact Or.inl rfl
        | some st =>
          right
          have hr := (hread q st hl).1
          rw [List.lookup_append]
          have : ∀ x, ((s.heldAt x).map (fun r => (r, ShotState.lost))).lookup q = none := by
            intro x
            cases hl2 : ((s.heldAt x).map (fun r => (r, ShotState.lost))).lookup q with
            | none => rfl
            | some st' => have := (memHeld _ _ _ hl2).2.1; rw [hr] at this; simp at this
          rw [this, this]; rfl
  -- the number of shots LOST
  have lookEnded : ∀ (x : Option ShotRef) (r : ShotRef), x = some r → (x = x0 ∨ x = x1) →
      d.lostIn x = if s.shotState r = some .held ∨ (s.readingEnded c).lookup r = some .lost
        then 1 else 0 := by
    intro x r hx h01
    have hstate : s.shotState r = some .held ∨ s.shotState r = some .reading := by
      rcases h01 with h | h
      · exact h0 r (h ▸ hx)
      · exact h1 r (h ▸ hx)
    unfold State.lostIn
    rw [hx]
    simp only
    congr 1
    apply propext
    unfold State.shotState
    rw [shots]
    unfold State.shotState at hstate hread memHeld
    cases hk : s.shot? r with
    | none => rw [hk] at hstate; simp at hstate
    | some k =>
      rw [hk] at hstate
      simp only [Option.map_some, Option.some.injEq] at hstate ⊢
      rw [ended, Shot.endedIn, List.lookup_append, List.lookup_append]
      have hheld : k.state = .held → (s.heldAt x).map (fun r => (r, ShotState.lost)) = [(r, .lost)] := by
        intro hh
        unfold State.heldAt State.shotState
        rw [hx]; simp [hk, hh]
      cases hl : (s.readingEnded c).lookup r with
      | some st =>
        have := hread r st hl
        rw [hk] at this
        simp at this
        simp [this.1]
      | none =>
        rcases hstate with hh | hh
        · have : ((s.heldAt x0).map (fun r => (r, ShotState.lost))).lookup r = some .lost
              ∨ (((s.heldAt x0).map (fun r => (r, ShotState.lost))).lookup r = none
                ∧ ((s.heldAt x1).map (fun r => (r, ShotState.lost))).lookup r = some .lost) := by
            rcases h01 with h | h
            · left; rw [← h, hheld hh]; simp [List.lookup]
            · right
              refine ⟨?_, by rw [← h, hheld hh]; simp [List.lookup]⟩
              cases hl2 : ((s.heldAt x0).map (fun r => (r, ShotState.lost))).lookup r with
              | none => rfl
              | some st => exact absurd (h ▸ hx) (hne r (memHeld _ _ _ hl2).2.2)
          rcases this with h | ⟨h, h'⟩
          · simp [h, hh]
          · simp [h, h', hh]
        · have hno : ∀ x, ((s.heldAt x).map (fun r => (r, ShotState.lost))).lookup r = none := by
            intro x
            cases hl2 : ((s.heldAt x).map (fun r => (r, ShotState.lost))).lookup r with
            | none => rfl
            | some st =>
              have := (memHeld _ _ _ hl2).2.1
              rw [hk] at this; simp [hh] at this
          simp [hno, hh]
  have lostAt : ∀ x, x = x0 ∨ x = x1 → d.lostIn x = (s.heldAt x).length
      + (if x.bind (fun r => (s.readingEnded c).lookup r) = some .lost then 1 else 0) := by
    intro x h01
    cases hx : x with
    | none => simp [State.lostIn, State.heldAt]
    | some r =>
      rw [← hx, lookEnded x r hx h01]
      unfold State.heldAt
      rw [hx]
      cases hl : (s.readingEnded c).lookup r with
      | none => by_cases hh : s.shotState r = some .held <;> simp [hh, hl]
      | some st => simp [(hread r st hl).1, hl]
  have lost : d.lostIn x0 + d.lostIn x1 = (s.endedByDown c).countP (fun x => x.2 = .lost) := by
    rw [lostAt x0 (.inl rfl), lostAt x1 (.inr rfl), ended, List.countP_append, List.countP_append]
    have hl : ∀ x, ((s.heldAt x).map (fun r => (r, ShotState.lost))).countP (fun x => x.2 = .lost)
        = (s.heldAt x).length := by
      intro x
      rw [List.countP_eq_length.2 (by simp), List.length_map]
    rw [hl, hl]
    have : (if x0.bind (fun r => (s.readingEnded c).lookup r) = some .lost then 1 else 0)
        + (if x1.bind (fun r => (s.readingEnded c).lookup r) = some .lost then 1 else 0)
        = (s.readingEnded c).countP (fun x => x.2 = .lost) := by
      cases hv : s.readingEnded c with
      | nil => cases x0 <;> cases x1 <;> simp
      | cons y l =>
        obtain ⟨r, st⟩ := y
        have hl : l = [] := by
          unfold State.readingEnded at hv
          split at hv
          · simp at hv; exact hv.2
          · simp at hv
        subst hl
        have h := (hread r st (by rw [hv]; simp [List.lookup])).2.2
        rcases h with h | h
        · have hn := hne r h
          cases hx : x1 with
          | none => by_cases hs : st = .lost <;> simp [h, List.lookup, hs]
          | some q =>
            have : q ≠ r := fun hq => hn (by rw [hx, hq])
            by_cases hs : st = .lost <;> simp [h, List.lookup, hs, beq_eq_false_iff_ne.2 this]
        · cases hx : x0 with
          | none => by_cases hs : st = .lost <;> simp [h, List.lookup, hs]
          | some q =>
            have : q ≠ r := fun hq => hne q hx (by rw [hq]; exact h)
            by_cases hs : st = .lost <;> simp [h, List.lookup, hs, beq_eq_false_iff_ne.2 this]
    omega
  -- the reports, the change of state and a CAMERA SENSE in progress
  have hgo : s.goDown c cause = ((((((d.setSlot c 0 none).setSlot c 1 none).reportSlot x0).reportSlot x1
      ).changeLine c .down cause (d.lostIn x0 + d.lostIn x1)).failSense c .cameraDown) := by
    rw [hd, hg, hf, hs1, ← hx0, ← hx1]; rfl
  generalize hs3 : (d.setSlot c 0 none).setSlot c 1 none = s3 at hgo
  have t3 : s3.table = d.table ∧ s3.readout = d.readout ∧ s3.memory = d.memory ∧ s3.link = d.link := by
    rw [← hs3]; exact ⟨rfl, rfl, rfl, rfl⟩
  have hclock : s3.clock = s.clock := by
    rw [← hs3]
    exact (((SameLines.finishReading s1 c).trans (loseHeld_facts f x0).1).trans
      (loseHeld_facts g x1).1).1.clock
  set s4 := s3.reportSlot x0 with hs4
  set s5 := s4.reportSlot x1 with hs5
  have k4 := reportSlot_facts s3 x0
  have k5 := reportSlot_facts s4 x1
  have p4 := reportSlot_rest s3 x0
  have p5 := reportSlot_rest s4 x1
  rw [← hs4] at k4 p4
  rw [← hs5] at k5 p5
  obtain ⟨z1, z2, z3, z4, z5, z6, z7, z8⟩ := changeLine_facts s5 c .down cause (d.lostIn x0 + d.lostIn x1)
  set s6 := s5.changeLine c .down cause (d.lostIn x0 + d.lostIn x1) with hs6
  obtain ⟨y1, y2, y3, y4, y5⟩ := failSense_facts s6 c .cameraDown
  obtain ⟨y6, y7, y8⟩ := failSense_rest s6 c .cameraDown
  have c5 : s5.clock = s.clock := k5.1.1.clock.trans (k4.1.1.clock.trans hclock)
  have l5 : s5.lines[c].state = s.lines[c].state ∧ s5.lines[c].accumulated = s.lines[c].accumulated := by
    rw [show s5.lines = s3.lines from k5.1.2.1.trans k4.1.2.1, ← hs3]
    unfold State.setSlot
    simp only [lines_setLine, CameraLine.setSlot]
    rw [show d.lines = s1.lines from ((SameLines.finishReading s1 c).trans
      ((loseHeld_facts f x0).1.trans (loseHeld_facts g x1).1)).2.1, hs1, lines_setLine]
    exact ⟨rfl, rfl⟩
  have pass : ∀ n p, s.passage? n = some p → s3.passage? n
      = some ((s.endedByDown c).foldl (fun q x => q.endAt n x) p) := by
    intro n p hp
    rw [passage?_of_table t3.1, B1, A1, F1, show s1.passage? n = s.passage? n from rfl, hp, ended]
    simp only [Option.map_some, List.foldl_append]
  have lostOr : ∀ x ∈ s.endedByDown c, x.2 = .lost ∨ x.2 = .partialStored := by
    intro x hx
    rw [ended] at hx
    simp only [List.mem_append, List.mem_map] at hx
    rcases hx with hx | ⟨r, -, rfl⟩ | ⟨r, -, rfl⟩
    · unfold State.readingEnded at hx
      split at hx
      · simp at hx; rw [hx]; simp only; split <;> simp
      · simp at hx
    · exact .inl rfl
    · exact .inl rfl
  have slotPassage : ∀ n, (∃ slot : SlotNo, (s.lines[c].slots[slot]).map (·.passage) = some n)
      ↔ x0.map (·.passage) = some n ∨ x1.map (·.passage) = some n := by
    intro n
    constructor
    · rintro ⟨slot, h⟩
      match slot, h with
      | 0, h => left; rw [← hx0]; exact h
      | 1, h => right; rw [← hx1]; exact h
    · rintro (h | h)
      · exact ⟨0, by rw [hx0]; exact h⟩
      · exact ⟨1, by rw [hx1]; exact h⟩
  refine ⟨G2, G3, ?_, ?_, ?_, ?_, ?_, ?_, G4, ⟨G1.1, G1.2, G1.3, G1.4, G1.5, G1.6⟩⟩
  · intro r; exact (G5 r).trans (shots r)
  · intro n p hp
    obtain ⟨fs, ft⟩ := endAts_fixed n (s.endedByDown c) p
    have fq := endAts_faults n (s.endedByDown c) lostOr p
    set p3 := (s.endedByDown c).foldl (fun q x => q.endAt n x) p with hp3
    obtain ⟨q4, a1, a2, a3, a4, a5, a6⟩ := reportSlot_passage? s3 x0 n (pass n p hp)
    obtain ⟨q5, b1, b2, b3, b4, b5, b6⟩ := reportSlot_passage? s4 x1 n a1
    have last : (s.goDown c cause).passage? n = some q5 := by
      rw [hgo, passage?_of_table y3, passage?_of_table z2]; exact b1
    have c4 : s4.clock = s.clock := k4.1.1.clock.trans hclock
    have set4 : q4.settled = p3.settled := by unfold Passage.settled; rw [a3]
    have set5 : q5.shots.all (fun k => k.state.terminal) = p3.settled := by
      unfold Passage.settled; rw [b3, a3]
    rw [hclock, fs] at a4 a5
    rw [fs] at a6
    rw [c4, set4] at b4 b5
    rw [set4] at b6
    refine ⟨q5, last, ?_, ?_, ?_⟩
    · rw [b2, a2, fq]
    · intro hslot hall
      rw [set5] at hall
      rw [slotPassage] at hslot
      by_cases hf0 : x0.map (·.passage) = some n
      · constructor
        · intro hc
          obtain ⟨u1, u2⟩ := a4 hf0 hall hc
          have : q5 = q4 := b6 (.inr (.inr (by simp [u1])))
          rw [this]; exact ⟨u1, u2⟩
        · intro hc
          obtain ⟨u1, u2⟩ := a5 hf0 hall hc
          have : q5 = q4 := b6 (.inr (.inr (by simp [u1])))
          rw [this]; exact ⟨u1, u2⟩
      · have h4 : q4 = p3 := a6 (.inl hf0)
        have hf1 := hslot.resolve_left hf0
        rw [h4, fs] at b4 b5
        exact ⟨b4 hf1 hall, b5 hf1 hall⟩
    · intro h
      rw [set5] at h
      have hno : (∀ slot : SlotNo, (s.lines[c].slots[slot]).map (·.passage) ≠ some n) ↔
          ¬ (x0.map (·.passage) = some n ∨ x1.map (·.passage) = some n) := by
        rw [← slotPassage]; simp
      rw [hno] at h
      have h4 : q4 = p3 := by
        apply a6
        rcases h with h | h | h
        · exact .inr (.inl h)
        · exact .inr (.inr h)
        · exact .inl (fun h' => h (.inl h'))
      have h5 : q5 = q4 := by
        apply b6
        rw [h4, fs]
        rcases h with h | h | h
        · exact .inr (.inl h)
        · exact .inr (.inr h)
        · exact .inl (fun h' => h (.inr h'))
      rw [h5, h4, fs]
  · rw [G6, F3]; cases s.serving? c <;> rfl
  · rw [hgo, y4, z3, k5.2.2, k4.2.2, t3.2.1, B3, A3, F3, heldIn]
    simp only [List.filter_filter]
    apply List.filter_congr
    intro r _
    simp [List.contains_eq_mem, Bool.and_comm]
  · rw [hgo, y6, z4, p5.1, p4.1, t3.2.2.1, B2, A2, F2, heldIn]
    simp only [List.filter_filter]
    congr 1
    apply List.filter_congr
    intro r _
    simp [List.contains_eq_mem, Bool.and_comm]
  · refine ⟨s5.link.notices, ?_, ?_, ?_⟩
    · have : s.link.notices <+: d.link.notices := F4.trans (A4.trans B4)
      rw [← t3.2.2.2] at this
      exact this.trans (p4.2.trans p5.2)
    · intro h
      rw [hgo, y7, hs6]
      unfold State.changeLine State.queueNotice
      rw [if_pos (show (s5.setLine c _).link.notices.length < noticePlaces from h)]
      simp only [State.setLine]
      rw [l5.1, l5.2, c5, lost]
    · intro h
      rw [hgo, y7, y8, hs6]
      unfold State.changeLine State.queueNotice
      rw [if_neg (show ¬ (s5.setLine c _).link.notices.length < noticePlaces from not_lt.2 h)]
      exact ⟨rfl, rfl⟩

end Sys2Proof.Machine
end

