-- ==== Sys2Proof/Laws/Encoding.lean ====
section
/-! SUPPORT. Little-endian fields: their lengths, and reading back what was written. -/

namespace Sys2Proof.Machine

set_option Elab.async false

@[simp] theorem leBytes_length (n v : Nat) : (leBytes n v).length = n := by
  induction n generalizing v with
  | zero => rfl
  | succ n ih => simp [leBytes, ih]

@[simp] theorem flagByte_length (b : Bool) : (flagByte b).length = 1 := rfl

@[simp] theorem byteOf_length (n : Nat) : (byteOf n).length = 1 := rfl

@[simp] theorem bytes16_length (x : BitVec 16) : (bytes16 x).length = 2 := rfl

@[simp] theorem bytes64_length (x : BitVec 64) : (bytes64 x).length = 8 := rfl

/-- What n bytes hold of a number. -/
theorem leNat_leBytes (n v : Nat) : leNat (leBytes n v) = v % 256 ^ n := by
  induction n generalizing v with
  | zero => simp [leBytes, leNat, Nat.mod_one]
  | succ n ih =>
    simp only [leBytes, leNat, ih, BitVec.toNat_ofNat]
    rw [show (2 : Nat) ^ 8 = 256 from rfl, pow_succ, Nat.mul_comm (256 ^ n) 256,
      Nat.mod_mul]

/-- A number that fits is read back. -/
theorem leNat_leBytes_of_lt {n v : Nat} (h : v < 256 ^ n) : leNat (leBytes n v) = v := by
  rw [leNat_leBytes, Nat.mod_eq_of_lt h]

/-- A word read back from its two bytes. -/
theorem word16_bytes16 (x : BitVec 16) : word16 (x.extractLsb' 0 8) (x.extractLsb' 8 8) = x := by
  unfold word16
  ext i hi
  simp only [BitVec.getElem_append, BitVec.getElem_extractLsb']
  split
  · simp [BitVec.getLsbD_eq_getElem hi]
  · rename_i h
    have : 8 + (i - 8) = i := by omega
    rw [this, BitVec.getLsbD_eq_getElem hi]

/-- A field at the front of the bytes it was written to. -/
theorem fieldAt_zero {n w : Nat} (x : BitVec w) (rest : List Byte) (h : 2 ^ w ≤ 256 ^ n) :
    fieldAt (leBytes n x.toNat ++ rest) 0 n w = x := by
  unfold fieldAt
  rw [List.drop_zero, List.take_left' (by simp), leNat_leBytes_of_lt (lt_of_lt_of_le x.isLt h)]
  simp

/-- Fields behind the bytes before them. -/
theorem fieldAt_append (pre bs : List Byte) (n w k : Nat) (h : k = pre.length) (o : Nat) :
    fieldAt (pre ++ bs) (k + o) n w = fieldAt bs o n w := by
  unfold fieldAt
  rw [h, List.drop_append, List.drop_eq_nil_of_le (by omega)]
  simp

end Sys2Proof.Machine
end

