-- ==== Sys2Proof/Laws/Leaving.lean ====
section
/-! SUPPORT. What becomes of a passage's bank, and which notices are queued, when the passage leaves
APPROACHING and TAIL (R39, R172) and is then checked for settlement (R40, R41, R45). -/

namespace Sys2Proof.Machine

set_option Elab.async false

/-! ## Notices -/

theorem queueNotice_congr {s u : State} (hl : u.link = s.link) (hc : u.clock = s.clock) (n : Notice) :
    (u.queueNotice n).link = (s.queueNotice n).link ∧ (u.queueNotice n).clock = (s.queueNotice n).clock := by
  unfold State.queueNotice
  rw [hl, hc]
  split <;> exact ⟨rfl, rfl⟩

/-- Notices queued look at the link and the clock only. -/
theorem queueNotices_congr (ns : List Notice) : ∀ {s u : State}, u.link = s.link → u.clock = s.clock →
    (u.queueNotices ns).link = (s.queueNotices ns).link := by
  induction ns with
  | nil => exact fun hl _ => hl
  | cons n ns ih =>
    intro s u hl hc
    obtain ⟨h1, h2⟩ := queueNotice_congr hl hc n
    exact ih h1 h2

theorem queueNotices_append (s : State) (a b : List Notice) :
    s.queueNotices (a ++ b) = (s.queueNotices a).queueNotices b := by
  unfold State.queueNotices; rw [List.foldl_append]

theorem queueNotices_clock (ns : List Notice) : ∀ s : State, (s.queueNotices ns).clock = s.clock := by
  induction ns with
  | nil => exact fun _ => rfl
  | cons n ns ih => exact fun s => (ih (s.queueNotice n)).trans (queueNotice_facts s n).1

/-- The notice of a track's change of state, if it changes (R21). -/
def State.trackNotice (s : State) (t : Track) (new : TrackState) : List Notice :=
  if s.tracks[t].state = new then [] else [.trackState t s.tracks[t].state new s.tracks[t].health]

theorem trackTo_link (s : State) (t : Track) (new : TrackState) :
    (s.trackTo t new).link = (s.queueNotices (s.trackNotice t new)).link
    ∧ (s.trackTo t new).clock = s.clock ∧ (s.trackTo t new).banks = s.banks := by
  unfold State.trackTo State.trackNotice
  dsimp only
  split
  · exact ⟨rfl, rfl, rfl⟩
  · refine ⟨queueNotices_congr [_] (s := s) (u := s.setTrack t _) rfl rfl, ?_, ?_⟩
    · rw [(queueNotice_facts _ _).1]; rfl
    · rw [(queueNotice_facts _ _).2.2.2.2.2.2.2.2.2.1]; rfl

/-! ## The drain check (R172) -/

/-- A DRAINING bank without an open passage is STANDBY after the check, with BANK_DRAINED. -/
theorem drainCheck_drains {s : State} {b : BankNo} (hd : s.banks.slots[b].state = .draining)
    (h0 : s.openCount b = 0) :
    (s.drainCheck b).banks
      = { s.banks with slots := setAt s.banks.slots b ⟨.standby, s.banks.slots[b].contents⟩ }
    ∧ (s.drainCheck b).link
      = (s.queueNotices [.bankDrained b (s.boundCount b) (s.busyCount b)]).link
    ∧ (s.drainCheck b).clock = s.clock := by
  unfold State.drainCheck
  rw [if_pos ⟨hd, h0⟩]
  refine ⟨?_, queueNotices_congr [_] (s := s) (u := s.setBankState b .standby) rfl rfl, ?_⟩
  · rw [(queueNotice_facts _ _).2.2.2.2.2.2.2.2.2.1]; rfl
  · rw [(queueNotice_facts _ _).1]; rfl

/-- Any other bank is left alone by the check. -/
theorem drainCheck_keeps {s : State} {b : BankNo}
    (h : ¬ (s.banks.slots[b].state = .draining ∧ s.openCount b = 0)) : s.drainCheck b = s := by
  unfold State.drainCheck; rw [if_neg h]

/-! ## The counts of a bank after a passage has left (R158) -/

/-- A record changed where it stands: how many records of the list have a property. -/
theorem countP_changePassage {l : List Passage} {n : Nat} {f : Passage → Passage} {p : Passage}
    (hd : (l.map (·.number)).Nodup) (hp : p ∈ l) (hn : p.number = n) (g : Passage → Bool) :
    (changePassage n f l).countP g + (if g p then 1 else 0) = l.countP g + (if g (f p) then 1 else 0) := by
  induction l with
  | nil => cases hp
  | cons a l ih =>
    simp only [List.map_cons, List.nodup_cons] at hd
    by_cases ha : a.number = n
    · have : p = a := by
        rcases List.mem_cons.1 hp with h | h
        · exact h
        · exact absurd (List.mem_map.2 ⟨p, h, by rw [hn, ha]⟩) hd.1
      subst this
      simp only [changePassage, ha, if_true, List.countP_cons]
      omega
    · have hl : p ∈ l := by
        rcases List.mem_cons.1 hp with h | h
        · exact absurd (h ▸ hn) ha
        · exact h
      simp only [changePassage, ha, if_false, List.countP_cons]
      have := ih hd.2 hl
      omega

/-- The records of other numbers stay in the list. -/
theorem mem_changePassage_ne {l : List Passage} {n : Nat} {f : Passage → Passage} {r : Passage}
    (hr : r ∈ l) (hn : r.number ≠ n) : r ∈ changePassage n f l := by
  induction l with
  | nil => cases hr
  | cons a l ih =>
    unfold changePassage
    rcases List.mem_cons.1 hr with h | h
    · subst h; rw [if_neg hn]; exact List.mem_cons_self
    · split
      · exact List.mem_cons_of_mem _ h
      · exact List.mem_cons_of_mem _ (ih h)

/-- The state after the record of an open passage has left APPROACHING and TAIL: nothing open is left of its
bank exactly when no other passage bound to it is open, and its counts are those before, one more busy. -/
theorem left_counts {s : State} {p : Passage} {st : PassageState} (cl : Option GantryTime)
    (hn : s.numbered) (hp : p ∈ s.table.passages) (ho : p.state = .approaching ∨ p.state = .tail)
    (hst : st = .clear ∨ st = .stopping) :
    ((s.modifyPassage p.number (·.left st cl)).openCount p.bank = 0
        ↔ ∀ r ∈ s.table.passages, r.number ≠ p.number → r.bank = p.bank →
          r.state ≠ .approaching ∧ r.state ≠ .tail)
    ∧ (s.modifyPassage p.number (·.left st cl)).boundCount p.bank = s.boundCount p.bank
    ∧ (s.modifyPassage p.number (·.left st cl)).busyCount p.bank = s.busyCount p.bank + 1 := by
  have count := fun g => countP_changePassage (f := (·.left st cl)) hn.2.1 hp rfl g
  have hmem : ∀ r, r ∈ s.table.passages → r.number = p.number → r = p := by
    intro r hr he
    have h1 := passage?_of_mem hn hr
    have h2 := passage?_of_mem hn hp
    rw [he, h2] at h1
    exact (Option.some.inj h1).symm
  refine ⟨?_, ?_, ?_⟩
  · have := count (fun q => decide (q.bank = p.bank)
      && (decide (q.state = .approaching) || decide (q.state = .tail)))
    have hnew : ((p.left st cl).state ≠ .approaching) ∧ (p.left st cl).state ≠ .tail := by
      rcases hst with rfl | rfl <;> exact ⟨nofun, nofun⟩
    have hg : (decide (p.bank = p.bank)
        && (decide (p.state = .approaching) || decide (p.state = .tail))) = true := by simp [ho]
    have hg' : (decide ((p.left st cl).bank = p.bank) && (decide ((p.left st cl).state = .approaching)
        || decide ((p.left st cl).state = .tail))) = false := by simp [hnew.1, hnew.2]
    rw [if_pos hg, if_neg (by rw [hg']; exact Bool.false_ne_true), Nat.add_zero] at this
    have hone : (s.modifyPassage p.number (·.left st cl)).openCount p.bank + 1 = s.openCount p.bank := this
    constructor
    · intro h0 r hr hne hb
      by_contra hopen
      have hr' : r.state = .approaching ∨ r.state = .tail := by
        by_contra hc; exact hopen ⟨fun h => hc (.inl h), fun h => hc (.inr h)⟩
      have hin : r ∈ (s.modifyPassage p.number (·.left st cl)).table.passages :=
        mem_changePassage_ne hr hne
      have : 0 < (s.modifyPassage p.number (·.left st cl)).openCount p.bank :=
        List.countP_pos_iff.2 ⟨r, hin, by simp [hb, hr']⟩
      omega
    · intro h
      have h1 : s.openCount p.bank = s.table.passages.countP (fun r => r.number = p.number) := by
        refine List.countP_congr (fun r hr => ?_)
        by_cases hr' : r.number = p.number
        · rw [hmem r hr hr']; simp [ho]
        · have := h r hr hr'
          simp only [hr', decide_false, Bool.false_eq_true, iff_false]
          simp only [Bool.and_eq_true, Bool.or_eq_true, decide_eq_true_eq, not_and, not_or]
          exact this
      have h2 : s.table.passages.countP (fun r => decide (r.number = p.number))
          = (s.table.passages.map (·.number)).count p.number := by
        rw [List.count_eq_countP, List.countP_map]
        exact List.countP_congr (fun r _ => by simp)
      have h3 := List.nodup_iff_count_le_one.1 hn.2.1 p.number
      omega
  · have := count (fun q => decide (q.bank = p.bank))
    have hb : (p.left st cl).bank = p.bank := rfl
    simp only [hb] at this
    exact Nat.add_right_cancel this
  · have := count (fun q => decide (q.bank = p.bank)
      && (decide (q.state = .clear) || decide (q.state = .stopping)))
    have hg : (decide (p.bank = p.bank)
        && (decide (p.state = .clear) || decide (p.state = .stopping))) = false := by
      rcases ho with h | h <;> simp [h]
    have hg' : (decide ((p.left st cl).bank = p.bank) && (decide ((p.left st cl).state = .clear)
        || decide ((p.left st cl).state = .stopping))) = true := by
      rcases hst with rfl | rfl <;> simp [Passage.left]
    rw [if_neg (by rw [hg]; exact Bool.false_ne_true), if_pos hg', Nat.add_zero] at this
    exact this

/-! ## Leaving APPROACHING and TAIL (R39) -/

/-- The banks, the notices and the clock after an open passage has left APPROACHING and TAIL. -/
theorem leaveOpen_drains {s : State} {p : Passage} {st : PassageState} (track : TrackState)
    (hn : s.numbered) (hp : p ∈ s.table.passages) (ho : p.state = .approaching ∨ p.state = .tail)
    (hst : st = .clear ∨ st = .stopping) :
    (s.drainsWith p →
      (s.leaveOpen p st track).banks = { s.banks with
        slots := setAt s.banks.slots p.bank ⟨.standby, s.banks.slots[p.bank].contents⟩ }
      ∧ (s.leaveOpen p st track).link = (s.queueNotices (s.trackNotice p.track track
          ++ [.bankDrained p.bank (s.boundCount p.bank) (s.busyCount p.bank + 1)])).link)
    ∧ (¬ s.drainsWith p →
      (s.leaveOpen p st track).banks = s.banks
      ∧ (s.leaveOpen p st track).link = (s.queueNotices (s.trackNotice p.track track)).link)
    ∧ (s.leaveOpen p st track).clock = s.clock := by
  rw [State.leaveOpen_eq]
  obtain ⟨h0, hb, hy⟩ := left_counts (s.clearOf p st) hn hp ho hst
  set v := s.modifyPassage p.number (·.left st (s.clearOf p st)) with hv
  obtain ⟨l1, l2, l3⟩ := trackTo_link v p.track track
  have ht : (v.trackTo p.track track).table = v.table := State.trackTo_table v p.track track
  set w := v.trackTo p.track track with hw
  have hwo : w.openCount p.bank = v.openCount p.bank := by unfold State.openCount; rw [ht]
  have hwb : w.boundCount p.bank = s.boundCount p.bank := by rw [← hb]; unfold State.boundCount; rw [ht]
  have hwy : w.busyCount p.bank = s.busyCount p.bank + 1 := by rw [← hy]; unfold State.busyCount; rw [ht]
  have hbk : w.banks = s.banks := l3
  have hwl : w.link = (s.queueNotices (s.trackNotice p.track track)).link :=
    l1.trans (queueNotices_congr _ rfl rfl)
  have hwc : w.clock = s.clock := l2
  have hiff : s.drainsWith p ↔ w.banks.slots[p.bank].state = .draining ∧ w.openCount p.bank = 0 := by
    rw [hbk, hwo, h0]; rfl
  refine ⟨fun h => ?_, fun h => ?_, ?_⟩
  · obtain ⟨h1, h2⟩ := hiff.1 h
    obtain ⟨d1, d2, -⟩ := drainCheck_drains h1 h2
    refine ⟨by rw [d1, hbk], ?_⟩
    rw [d2, hwb, hwy, queueNotices_append]
    exact queueNotices_congr _ hwl (hwc.trans (queueNotices_clock _ s).symm)
  · rw [drainCheck_keeps (fun hh => h (hiff.2 hh))]
    exact ⟨hbk, hwl⟩
  · by_cases h : w.banks.slots[p.bank].state = .draining ∧ w.openCount p.bank = 0
    · exact (drainCheck_drains h.1 h.2).2.2.trans hwc
    · rw [drainCheck_keeps h]; exact hwc

/-! ## The settlement check's notice (R41) -/

/-- The check of a passage in CLEAR or STOPPING queues the notice of the record it leaves. -/
theorem checkSettled_notices {s : State} {n : Nat} {p q : Passage} (hp : s.passage? n = some p)
    (hst : p.state = .clear ∨ p.state = .stopping) (hq : (s.checkSettled n).passage? n = some q) :
    (s.checkSettled n).link = (s.queueNotices q.settleNotices).link := by
  have hnum : p.number = n := by
    have := List.find?_some hp
    simpa using this
  have after : ∀ (st : PassageState) (x : Notice),
      ((s.modifyPassage n (·.settleAs st s.now s.clock.epoch)).queueNotice x).passage? n
        = some (p.settleAs st s.now s.clock.epoch) := by
    intro st x
    have h1 := passage?_modifyPassage (s := s) (n := n) (f := (·.settleAs st s.now s.clock.epoch))
      (fun _ => rfl) hp
    rw [← h1]
    unfold State.passage?
    rw [(queueNotice_facts _ x).2.2.1]
  by_cases hs : p.settled = true
  · rcases hst with h | h
    · have e : s.checkSettled n
          = (s.modifyPassage n (·.settleAs .filed s.now s.clock.epoch)).queueNotice p.filedNotice := by
        unfold State.checkSettled; rw [hp]; simp only [hs, if_true, h]
      rw [e] at hq ⊢
      rw [after] at hq
      obtain rfl := Option.some.inj hq
      exact queueNotices_congr [_] (s := s) (u := s.modifyPassage n _) rfl rfl
    · have e : s.checkSettled n
          = (s.modifyPassage n (·.settleAs .abandoned s.now s.clock.epoch)).queueNotice
              p.abandonedNotice := by
        unfold State.checkSettled; rw [hp]; simp only [hs, if_true, h]
      rw [e] at hq ⊢
      rw [after] at hq
      obtain rfl := Option.some.inj hq
      exact queueNotices_congr [_] (s := s) (u := s.modifyPassage n _) rfl rfl
  · have e : s.checkSettled n = s := by
      unfold State.checkSettled; rw [hp]; simp only [hs, if_false, Bool.false_eq_true]
    rw [e] at hq ⊢
    rw [hp] at hq
    obtain rfl := Option.some.inj hq
    have : p.settleNotices = [] := by
      unfold Passage.settleNotices
      rcases hst with h | h <;> simp [h]
    rw [this]; rfl

/-- The record of a passage that has left APPROACHING and TAIL. -/
theorem leaveOpen_passage? {s : State} {p : Passage} (st : PassageState) (track : TrackState)
    (hn : s.numbered) (hp : p ∈ s.table.passages) :
    (s.leaveOpen p st track).passage? p.number = some (p.left st (s.clearOf p st)) := by
  have h := passage?_modifyPassage (f := (·.left st (s.clearOf p st))) (fun _ => rfl)
    (passage?_of_mem hn hp)
  rw [← h]
  unfold State.passage?
  rw [State.leaveOpen_eq, State.drainCheck_table, State.trackTo_table]

/-! ## From the event's start to its end -/

/-- An open passage leaves APPROACHING and TAIL in a state v, with nothing between but what leaves banks,
link and clock alone, and is checked for settlement last. -/
theorem leftOpen_of {s v w : State} {p q r : Passage} {st : PassageState} {track : TrackState}
    {first : List Notice}
    (hn : v.numbered) (hr : r ∈ v.table.passages) (ho : r.state = .approaching ∨ r.state = .tail)
    (hst : st = .clear ∨ st = .stopping)
    (hd : s.drainsWith p ↔ v.drainsWith r) (hbank : r.bank = p.bank)
    (hcount : v.boundCount p.bank = s.boundCount p.bank ∧ v.busyCount p.bank = s.busyCount p.bank)
    (hb : v.banks = s.banks) (hc : v.clock = s.clock)
    (hl : (v.queueNotices (v.trackNotice r.track track)).link = (s.queueNotices first).link)
    (wb : w.banks = (v.leaveOpen r st track).banks) (wl : w.link = (v.leaveOpen r st track).link)
    (wc : w.clock = (v.leaveOpen r st track).clock)
    {x : Passage} (hx : w.passage? p.number = some x) (hxs : x.state = .clear ∨ x.state = .stopping)
    (hq : (w.checkSettled p.number).passage? p.number = some q) :
    LeftOpen s (w.checkSettled p.number) p q first := by
  obtain ⟨a1, a2, a3⟩ := leaveOpen_drains track hn hr ho hst
  have hset := checkSettled_notices hx hxs hq
  have hbk : (w.checkSettled p.number).banks = w.banks := (checkSettled_facts w p.number).2.2.2.2.2.2.2.2.2.1
  have hwc : w.clock = s.clock := wc.trans (a3.trans hc)
  have fin : ∀ drain : List Notice,
      (v.leaveOpen r st track).link = (v.queueNotices (v.trackNotice r.track track ++ drain)).link →
      (w.checkSettled p.number).link = (s.queueNotices (first ++ drain ++ q.settleNotices)).link := by
    intro drain h
    rw [hset, queueNotices_append]
    refine queueNotices_congr _ ?_ (hwc.trans (queueNotices_clock _ s).symm)
    rw [wl, h, queueNotices_append, queueNotices_append]
    refine queueNotices_congr _ hl ?_
    rw [queueNotices_clock, queueNotices_clock, hc]
  refine ⟨fun h => ?_, fun h => ?_, fun drain d1 d2 => ?_⟩
  · rw [hbk, wb, (a1 (hd.1 h)).1, hb]; simp only [hbank]
  · rw [hbk, wb, (a2 (fun hh => h (hd.2 hh))).1, hb]
  · by_cases h : s.drainsWith p
    · have := fin drain (by
        rw [d1 h, (a1 (hd.1 h)).2, hbank, hcount.1, hcount.2])
      rw [this]; exact ⟨rfl, rfl⟩
    · have := fin drain (by
        rw [d2 h, (a2 (fun hh => h (hd.2 hh))).2, List.append_nil])
      rw [this]; exact ⟨rfl, rfl⟩

/-! ## A record changed under its number, bank and state -/

/-- What a change of records keeps that the drain check looks at. -/
theorem modify_views {s : State} (n : Nat) {f : Passage → Passage}
    (hf : ∀ q, (f q).number = q.number ∧ (f q).bank = q.bank ∧ (f q).state = q.state) :
    List.Forall₂ (fun a b : Passage => b.number = a.number ∧ b.bank = a.bank ∧ b.state = a.state)
      s.table.passages (s.modifyPassage n f).table.passages :=
  changePassage_forall₂ (fun _ => ⟨rfl, rfl, rfl⟩) n f _ (fun a _ => hf a)

theorem drainsWith_modify {s : State} {p : Passage} (n : Nat) {f : Passage → Passage}
    (hf : ∀ q, (f q).number = q.number ∧ (f q).bank = q.bank ∧ (f q).state = q.state) :
    (s.modifyPassage n f).drainsWith p ↔ s.drainsWith p := by
  have h := modify_views (s := s) n hf
  constructor
  · rintro ⟨h1, h2⟩
    refine ⟨h1, fun r hr => ?_⟩
    obtain ⟨q, hq, e1, e2, e3⟩ := forall₂_mem_left h hr
    have := h2 q hq
    rwa [e1, e2, e3] at this
  · rintro ⟨h1, h2⟩
    refine ⟨h1, fun r hr => ?_⟩
    obtain ⟨q, hq, e1, e2, e3⟩ := forall₂_mem_right h hr
    have := h2 q hq
    rwa [← e1, ← e2, ← e3] at this

theorem counts_modify {s : State} (n : Nat) {f : Passage → Passage} (b : BankNo)
    (hf : ∀ q, (f q).number = q.number ∧ (f q).bank = q.bank ∧ (f q).state = q.state) :
    (s.modifyPassage n f).boundCount b = s.boundCount b
    ∧ (s.modifyPassage n f).busyCount b = s.busyCount b := by
  have h := modify_views (s := s) n hf
  unfold State.boundCount State.busyCount
  generalize (s.modifyPassage n f).table.passages = l at h
  generalize s.table.passages = m at h
  induction h with
  | nil => exact ⟨rfl, rfl⟩
  | cons hp _ ih =>
    simp only [List.countP_cons, ih.1, ih.2, hp.2.1, hp.2.2]
    exact ⟨trivial, trivial⟩

/-- The changed record stands in the list. -/
theorem mem_modify {s : State} {p : Passage} (hn : s.numbered) (hp : p ∈ s.table.passages)
    (f : Passage → Passage) (hf : ∀ q, (f q).number = q.number) :
    f p ∈ (s.modifyPassage p.number f).table.passages :=
  List.mem_of_find?_eq_some (passage?_modifyPassage (n := p.number) hf (passage?_of_mem hn hp))

/-! ## Winding down (R44) -/

/-- A shot changed leaves the passages' states alone. -/
theorem modifyShot_states (s : State) (r : ShotRef) (f : Shot → Shot) (n : Nat) :
    ((s.modifyShot r f).passage? n).map (·.state) = (s.passage? n).map (·.state) := by
  unfold State.modifyShot
  rw [passage?_modify s r.passage n (fun p => p.modifyShot r.shot f) (fun _ => rfl)]
  cases s.passage? n with
  | none => rfl
  | some p => simp only [Option.map_some]; split <;> rfl

theorem windDownShot_facts (s : State) (r : ShotRef) : (s.windDownShot r).link = s.link
    ∧ ∀ n, ((s.windDownShot r).passage? n).map (·.state) = (s.passage? n).map (·.state) := by
  unfold State.windDownShot
  split
  · split
    all_goals first
      | exact ⟨rfl, fun _ => rfl⟩
      | exact ⟨rfl, modifyShot_states _ r _⟩
      | (unfold State.discardHeld; dsimp only; split <;> exact ⟨rfl, fun _ => rfl⟩)
  · exact ⟨rfl, fun _ => rfl⟩

/-- Winding down leaves the link and the passages' states alone. -/
theorem windDown_facts (s : State) (p : Passage) : (s.windDown p).link = s.link
    ∧ ∀ n, ((s.windDown p).passage? n).map (·.state) = (s.passage? n).map (·.state) := by
  unfold State.windDown
  generalize List.range p.shots.length = l
  induction l generalizing s with
  | nil => exact ⟨rfl, fun _ => rfl⟩
  | cons a l ih =>
    obtain ⟨a1, a2⟩ := ih (s.windDownShot ⟨p.number, a⟩)
    obtain ⟨b1, b2⟩ := windDownShot_facts s ⟨p.number, a⟩
    exact ⟨a1.trans b1, fun n => (a2 n).trans (b2 n)⟩

/-- An open passage is abandoned: what becomes of its bank, and the notices. -/
theorem abandon_leftOpen {s : State} {p q : Passage} (reason : AbandonReason) (track : TrackState)
    (hn : s.numbered) (hp : p ∈ s.table.passages) (ho : p.state = .approaching ∨ p.state = .tail)
    (hq : (s.abandon p reason track).passage? p.number = some q) :
    LeftOpen s (s.abandon p reason track) p q (s.trackNotice p.track track) := by
  have hio : p.isOpen = true := by unfold Passage.isOpen; simpa using ho
  have hs : s.abandon p reason track = (((s.modifyPassage p.number (·.giveReason reason)).leaveOpen p
      .stopping track).windDown p).checkSettled p.number := by
    unfold State.abandon State.stopPassage; simp only [hio, if_true]
  set v := s.modifyPassage p.number (·.giveReason reason) with hv
  have hkeep : ∀ q : Passage, (q.giveReason reason).number = q.number
      ∧ (q.giveReason reason).bank = q.bank ∧ (q.giveReason reason).state = q.state :=
    fun q => ⟨rfl, rfl, rfl⟩
  have hvn : v.numbered := (Keeps.giveReason s _ _).partly.numbered hn
  have hr : p.giveReason reason ∈ v.table.passages := mem_modify hn hp _ (fun _ => rfl)
  have hcong : v.leaveOpen p .stopping track = v.leaveOpen (p.giveReason reason) .stopping track :=
    State.leaveOpen_congr _ rfl rfl rfl rfl _ _
  rw [hs, hcong] at hq ⊢
  have hw := Keeps.windDown (v.leaveOpen (p.giveReason reason) .stopping track) p
  obtain ⟨wl, wp⟩ := windDown_facts (v.leaveOpen (p.giveReason reason) .stopping track) p
  have hleft : ((v.leaveOpen (p.giveReason reason) .stopping track).passage? p.number).map (·.state)
      = some .stopping := by
    have h := leaveOpen_passage? (p := p.giveReason reason) .stopping track hvn hr
    exact (congrArg (Option.map (·.state)) h).trans rfl
  obtain ⟨x, hx, hxs⟩ := Option.map_eq_some_iff.1 ((wp p.number).trans hleft)
  exact leftOpen_of (r := p.giveReason reason) (st := .stopping) (track := track) (v := v) hvn hr ho
    (.inr rfl) (drainsWith_modify (p := p) p.number hkeep).symm rfl (counts_modify _ _ hkeep) rfl rfl
    (queueNotices_congr _ rfl rfl) hw.banks wl hw.clock hx (.inr hxs) hq

/-- An open passage clears in a state v that has come from s by a change of its record alone: what becomes of
its bank, and the notices. -/
theorem clearPassage_leftOpen {s : State} {p q : Passage} {f : Passage → Passage} (track : TrackState)
    (hf : ∀ q, (f q).number = q.number ∧ (f q).bank = q.bank ∧ (f q).state = q.state
      ∧ (f q).track = q.track)
    (hn : s.numbered) (hv : (s.modifyPassage p.number f).numbered) (hp : p ∈ s.table.passages)
    (ho : p.state = .approaching ∨ p.state = .tail)
    (hq : ((s.modifyPassage p.number f).clearPassage (f p) track).passage? p.number = some q) :
    LeftOpen s ((s.modifyPassage p.number f).clearPassage (f p) track) p q
      (s.trackNotice p.track track) := by
  have hkeep : ∀ q, (f q).number = q.number ∧ (f q).bank = q.bank ∧ (f q).state = q.state :=
    fun q => ⟨(hf q).1, (hf q).2.1, (hf q).2.2.1⟩
  have hr : f p ∈ (s.modifyPassage p.number f).table.passages := mem_modify hn hp f (fun q => (hf q).1)
  unfold State.clearPassage at hq ⊢
  rw [(hf p).1] at hq ⊢
  have hx := leaveOpen_passage? (p := f p) .clear track hv hr
  rw [(hf p).1] at hx
  have hd : (s.modifyPassage p.number f).drainsWith p
      ↔ (s.modifyPassage p.number f).drainsWith (f p) := by
    unfold State.drainsWith; simp only [(hf p).1, (hf p).2.1]
  refine leftOpen_of (r := f p) (st := .clear) (track := track) hv hr (by rw [(hf p).2.2.1]; exact ho)
    (.inl rfl) ((drainsWith_modify (p := p) p.number hkeep).symm.trans hd) (hf p).2.1
    (counts_modify _ _ hkeep) rfl rfl ?_ rfl rfl rfl hx (.inl rfl) hq
  rw [(hf p).2.2.2]
  exact queueNotices_congr _ rfl rfl

end Sys2Proof.Machine
end

