-- ==== Sys2Proof/Laws/Pages.lean ====
section
/-! SUPPORT. What the operations on the page map do, one lemma each: which spares are assigned, bad and
usable, a page retired (R144), a page freed (R143), and the remainders a draw leaves (R138). -/

namespace Sys2Proof.Machine

/-- A listed entry is what its page reads as. -/
theorem FrameMemory.page_of_mem {m : FrameMemory} (h : m.wf) {e : Nat × Page} (he : e ∈ m.pages) :
    m.page e.1 = e.2 := by
  unfold FrameMemory.page sparseGet
  obtain ⟨l1, l2, hl⟩ := List.append_of_mem he
  have hp := h.2.1
  rw [hl, List.pairwise_append] at hp
  have h1 : l1.lookup e.1 = none := lookup_eq_none_of_forall_ne (fun x hx =>
    Nat.ne_of_lt (hp.2.2 x hx e (List.mem_cons_self ..)))
  rw [hl, List.lookup_append, h1]
  obtain ⟨k, p⟩ := e
  simp

/-- A page that does not read as it does at power-up is listed. -/
theorem FrameMemory.mem_of_page {m : FrameMemory} {k : Nat} (h : m.page k ≠ Page.initial) :
    (k, m.page k) ∈ m.pages := by
  unfold FrameMemory.page sparseGet at h ⊢
  cases hl : m.pages.lookup k with
  | none => rw [hl] at h; exact absurd rfl h
  | some p =>
    obtain ⟨l1, l2, h1, -⟩ := List.lookup_eq_some_iff.1 hl
    rw [h1]
    exact List.mem_append_right _ (List.mem_cons_self ..)

/-- A spare is assigned when some logical page is mapped to it. -/
theorem FrameMemory.assigned_iff {m : FrameMemory} (h : m.wf) (sp : Nat) :
    m.assigned sp = true ↔ ∃ k, (m.page k).spare = some sp := by
  unfold FrameMemory.assigned
  rw [List.any_eq_true]
  constructor
  · rintro ⟨e, he, hs⟩
    exact ⟨e.1, by rw [FrameMemory.page_of_mem h he]; exact of_decide_eq_true hs⟩
  · rintro ⟨k, hk⟩
    refine ⟨(k, m.page k), FrameMemory.mem_of_page (fun h' => ?_), by simpa using hk⟩
    rw [h'] at hk; cases hk

theorem mem_insertRising {n k : Nat} {l : List Nat} : k ∈ insertRising n l ↔ k = n ∨ k ∈ l := by
  induction l with
  | nil => simp [insertRising]
  | cons a l ih =>
    unfold insertRising
    split
    · simp
    · split
      · rename_i h; subst h; simp
      · simp only [List.mem_cons, ih]; tauto

/-- The bad spares after a page's spare, if it is on one, becomes bad. -/
def FrameMemory.badWith (m : FrameMemory) (spare : Option Nat) : List Nat :=
  match spare with
  | some sp => insertRising sp m.badSpares
  | none => m.badSpares

theorem mem_badWith {m : FrameMemory} {spare : Option Nat} {sp : Nat} :
    sp ∈ m.badWith spare ↔ sp ∈ m.badSpares ∨ spare = some sp := by
  cases spare with
  | none => simp [FrameMemory.badWith]
  | some x =>
    unfold FrameMemory.badWith
    rw [mem_insertRising, Option.some.injEq, eq_comm (a := sp) (b := x), or_comm]

/-- Step 1 of R144: the page off its spare, which is bad. -/
def FrameMemory.offSpare (m : FrameMemory) (k : Nat) : FrameMemory :=
  { m.setPage k { m.page k with spare := none } with badSpares := m.badWith (m.page k).spare }

theorem FrameMemory.offSpare_wf {m : FrameMemory} (h : m.wf) (k : Nat) : (m.offSpare k).wf :=
  FrameMemory.setPage_wf h k _

/-- Step 1 leaves the usable spares as they were: the page's own spare was assigned and is now bad. -/
theorem FrameMemory.usable_offSpare {m : FrameMemory} (h : m.wf) (k sp : Nat) :
    (m.offSpare k).usable sp = m.usable sp := by
  have hself : (m.offSpare k).page k = { m.page k with spare := none } :=
    FrameMemory.page_setPage_self h k _
  have hne : ∀ j, j ≠ k → (m.offSpare k).page j = m.page j := fun j hj =>
    FrameMemory.page_setPage_ne h k j _ hj
  have hbad : (m.offSpare k).bad sp = true ↔ m.bad sp = true ∨ (m.page k).spare = some sp := by
    unfold FrameMemory.bad
    rw [List.contains_iff_mem, List.contains_iff_mem]
    exact mem_badWith
  have has : (m.offSpare k).assigned sp = true ↔ ∃ j, j ≠ k ∧ (m.page j).spare = some sp := by
    rw [FrameMemory.assigned_iff (FrameMemory.offSpare_wf h k)]
    constructor
    · rintro ⟨j, hj⟩
      by_cases hjk : j = k
      · subst hjk; rw [hself] at hj; cases hj
      · exact ⟨j, hjk, by rw [← hne j hjk]; exact hj⟩
    · rintro ⟨j, hjk, hj⟩
      exact ⟨j, by rw [hne j hjk]; exact hj⟩
  have hold := FrameMemory.assigned_iff h sp
  have key : ((m.offSpare k).bad sp = true ∨ (m.offSpare k).assigned sp = true)
      ↔ (m.bad sp = true ∨ m.assigned sp = true) := by
    rw [hbad, has, hold]
    constructor
    · rintro ((hb | hb) | ⟨j, -, hj⟩)
      · exact .inl hb
      · exact .inr ⟨k, hb⟩
      · exact .inr ⟨j, hj⟩
    · rintro (hb | ⟨j, hj⟩)
      · exact .inl (.inl hb)
      · by_cases hjk : j = k
        · subst hjk; exact .inl (.inr hj)
        · exact .inr ⟨j, hjk, hj⟩
  unfold FrameMemory.usable
  cases h1 : (m.offSpare k).bad sp <;> cases h2 : (m.offSpare k).assigned sp <;>
    cases h3 : m.bad sp <;> cases h4 : m.assigned sp <;> simp_all

theorem FrameMemory.lowestUsable_offSpare {m : FrameMemory} (h : m.wf) (k : Nat) :
    (m.offSpare k).lowestUsable = m.lowestUsable := by
  unfold FrameMemory.lowestUsable
  congr 1
  exact funext (FrameMemory.usable_offSpare h k)

/-- The spare a page is retired to: the preferred one when it is usable, else the lowest usable one. -/
def FrameMemory.target (m : FrameMemory) (preferred : Option Nat) : Option Nat :=
  match preferred with
  | some sp => if m.usable sp then some sp else m.lowestUsable
  | none => m.lowestUsable

/-- A page on its way to a spare, or OUT_OF_SERVICE without one. -/
def Page.movedTo : Option Nat → Page
  | some sp => ⟨.free, some sp, none⟩
  | none => ⟨.outOfService, none, none⟩

/-- Everything a retirement does (R144). -/
theorem FrameMemory.retire_facts {m : FrameMemory} (h : m.wf) (k : Nat) (preferred : Option Nat)
    (cause : RetireCause) :
    (m.retire k preferred cause).1.page k = Page.movedTo (m.target preferred)
    ∧ (m.retire k preferred cause).1.badSpares = m.badWith (m.page k).spare
    ∧ (m.retire k preferred cause).2 = .pageRetired k ((m.page k).spare.getD k) (m.target preferred)
          (m.page k).spare cause (m.retire k preferred cause).1.badSpares.length
        :: (if m.target preferred = none then
            [.sparesExhausted k (m.retire k preferred cause).1.outOfServiceCount
              (m.retire k preferred cause).1.freeCount] else [])
    ∧ (∀ j, j ≠ k → (m.retire k preferred cause).1.page j = m.page j)
    ∧ (m.retire k preferred cause).1.cells = m.cells ∧ (m.retire k preferred cause).1.wrong = m.wrong
    ∧ (m.retire k preferred cause).1.reservations = m.reservations
    ∧ (m.retire k preferred cause).1.low = m.low := by
  have hw := FrameMemory.offSpare_wf h k
  have ht : (match preferred with
      | some sp => if (m.offSpare k).usable sp then some sp else (m.offSpare k).lowestUsable
      | none => (m.offSpare k).lowestUsable) = m.target preferred := by
    unfold FrameMemory.target
    rw [FrameMemory.lowestUsable_offSpare h]
    cases preferred with
    | none => rfl
    | some sp => dsimp only; rw [FrameMemory.usable_offSpare h]
  have hr : m.retire k preferred cause = (match m.target preferred with
      | some sp => ((m.offSpare k).setPage k ⟨.free, some sp, none⟩,
          [.pageRetired k ((m.page k).spare.getD k) (some sp) (m.page k).spare cause
            (m.badWith (m.page k).spare).length])
      | none => ((m.offSpare k).setPage k ⟨.outOfService, none, none⟩,
          [.pageRetired k ((m.page k).spare.getD k) none (m.page k).spare cause
              (m.badWith (m.page k).spare).length,
            .sparesExhausted k ((m.offSpare k).setPage k ⟨.outOfService, none, none⟩).outOfServiceCount
              ((m.offSpare k).setPage k ⟨.outOfService, none, none⟩).freeCount])) := by
    rw [← ht]; rfl
  have hne : ∀ p j, j ≠ k → ((m.offSpare k).setPage k p).page j = m.page j := fun p j hj => by
    rw [FrameMemory.page_setPage_ne hw k j p hj]
    exact FrameMemory.page_setPage_ne h k j _ hj
  rw [hr]
  cases m.target preferred with
  | none =>
    exact ⟨FrameMemory.page_setPage_self hw k _, rfl, rfl, hne _, rfl, rfl, rfl, rfl⟩
  | some sp =>
    exact ⟨FrameMemory.page_setPage_self hw k _, rfl, rfl, hne _, rfl, rfl, rfl, rfl⟩

/-! ## Remainders (R137, R138) -/

/-- What a list of reservations leaves a shot. -/
def remainderIn (q : ShotRef) : List Reservation → Nat
  | [] => 0
  | e :: l => if e.shot = q then e.pages else remainderIn q l

/-- A list of reservations with a shot's lowered by one and spent ones dropped. -/
def lowered (r : ShotRef) : List Reservation → List Reservation
  | [] => []
  | e :: l =>
    let n := if e.shot = r then e.pages - 1 else e.pages
    if n = 0 then lowered r l else ⟨e.shot, n⟩ :: lowered r l

theorem remainderIn_cons (q : ShotRef) (e : Reservation) (l : List Reservation) :
    remainderIn q (e :: l) = if e.shot = q then e.pages else remainderIn q l := rfl

theorem lowered_cons (r : ShotRef) (e : Reservation) (l : List Reservation) :
    lowered r (e :: l) = if (if e.shot = r then e.pages - 1 else e.pages) = 0 then lowered r l
      else ⟨e.shot, if e.shot = r then e.pages - 1 else e.pages⟩ :: lowered r l := rfl

theorem FrameMemory.remainder_eq (m : FrameMemory) (q : ShotRef) :
    m.remainder q = remainderIn q m.reservations := by
  unfold FrameMemory.remainder
  generalize m.reservations = l
  induction l with
  | nil => rfl
  | cons e l ih =>
    unfold remainderIn
    rw [List.find?_cons]
    by_cases h : e.shot = q
    · rw [if_pos h, beq_iff_eq.2 h]
    · rw [if_neg h, show (e.shot == q) = false by simpa using h]; exact ih

theorem FrameMemory.lowerRemainder_eq (m : FrameMemory) (r : ShotRef) :
    m.lowerRemainder r = { m with reservations := lowered r m.reservations } := by
  have hl : ∀ l : List Reservation, (l.map (fun e : Reservation =>
      if e.shot = r then { e with pages := e.pages - 1 } else e)).filter (fun e => e.pages != 0)
        = lowered r l := by
    intro l
    induction l with
    | nil => rfl
    | cons e l ih =>
      unfold lowered
      rw [List.map_cons, List.filter_cons, ih]
      by_cases h : e.shot = r
      · simp only [if_pos h]
        by_cases hz : e.pages - 1 = 0 <;> simp [hz]
      · simp only [if_neg h]
        by_cases hz : e.pages = 0 <;> simp [hz]
  unfold FrameMemory.lowerRemainder
  dsimp only
  rw [hl]

theorem remainderIn_none {q : ShotRef} {l : List Reservation} (h : q ∉ l.map (·.shot)) :
    remainderIn q l = 0 := by
  induction l with
  | nil => rfl
  | cons e l ih =>
    rw [List.map_cons, List.mem_cons, not_or] at h
    unfold remainderIn
    rw [if_neg (Ne.symm h.1), ih h.2]

theorem lowered_none {r : ShotRef} {l : List Reservation} (h : r ∉ l.map (·.shot)) :
    ((lowered r l).map Reservation.pages).sum = (l.map Reservation.pages).sum := by
  induction l with
  | nil => rfl
  | cons e l ih =>
    rw [List.map_cons, List.mem_cons, not_or] at h
    unfold lowered
    rw [if_neg (Ne.symm h.1)]
    by_cases hz : e.pages = 0
    · simp [hz, ih h.2]
    · simp [hz, ih h.2]

theorem shots_lowered (r : ShotRef) (l : List Reservation) :
    ((lowered r l).map (·.shot)).Sublist (l.map (·.shot)) := by
  induction l with
  | nil => exact List.Sublist.slnil
  | cons e l ih =>
    unfold lowered
    by_cases hz : (if e.shot = r then e.pages - 1 else e.pages) = 0
    · rw [if_pos hz]; exact ih.cons _
    · rw [if_neg hz]; exact ih.cons_cons _

theorem lowered_facts (r : ShotRef) {l : List Reservation} (h : (l.map (·.shot)).Nodup) :
    remainderIn r (lowered r l) = remainderIn r l - 1
    ∧ ((lowered r l).map Reservation.pages).sum + min 1 (remainderIn r l)
        = (l.map Reservation.pages).sum
    ∧ ∀ q, q ≠ r → remainderIn q (lowered r l) = remainderIn q l := by
  induction l with
  | nil => exact ⟨rfl, rfl, fun _ _ => rfl⟩
  | cons e l ih =>
    rw [List.map_cons, List.nodup_cons] at h
    obtain ⟨i1, i2, i3⟩ := ih h.2
    have hsub : ∀ q, q ∉ l.map (·.shot) → q ∉ (lowered r l).map (·.shot) :=
      fun q hq hm => hq ((shots_lowered r l).subset hm)
    by_cases he : e.shot = r
    · have hr : r ∉ l.map (·.shot) := he ▸ h.1
      have hn := remainderIn_none (hsub r hr)
      have hs := lowered_none hr
      rw [lowered_cons, remainderIn_cons, if_pos he, if_pos he]
      have hq' : ∀ q, q ≠ r → e.shot ≠ q := fun q hq hc => hq (hc ▸ he)
      by_cases hz : e.pages - 1 = 0
      · rw [if_pos hz]
        refine ⟨by omega, by simp only [List.map_cons, List.sum_cons]; omega, fun q hq => ?_⟩
        rw [remainderIn_cons, if_neg (hq' q hq)]; exact i3 q hq
      · rw [if_neg hz, remainderIn_cons, if_pos he]
        refine ⟨rfl, by simp only [List.map_cons, List.sum_cons]; omega, fun q hq => ?_⟩
        rw [remainderIn_cons, remainderIn_cons, if_neg (hq' q hq), if_neg (hq' q hq)]; exact i3 q hq
    · rw [lowered_cons, remainderIn_cons, if_neg he, if_neg he]
      by_cases hz : e.pages = 0
      · rw [if_pos hz]
        refine ⟨i1, by simp only [List.map_cons, List.sum_cons]; omega, fun q hq => ?_⟩
        rw [remainderIn_cons]
        by_cases hq' : e.shot = q
        · rw [if_pos hq', hz]; exact remainderIn_none (hsub q (hq' ▸ h.1))
        · rw [if_neg hq']; exact i3 q hq
      · rw [if_neg hz, remainderIn_cons, if_neg he]
        refine ⟨i1, by simp only [List.map_cons, List.sum_cons]; omega, fun q hq => ?_⟩
        rw [remainderIn_cons, remainderIn_cons, i3 q hq]

/-- A draw lowers the shot's remainder by one, the reserved count with it, and no other remainder. -/
theorem FrameMemory.lowerRemainder_facts (m : FrameMemory) (r : ShotRef)
    (h : (m.reservations.map (·.shot)).Nodup) :
    (m.lowerRemainder r).remainder r = m.remainder r - 1
    ∧ (m.lowerRemainder r).reservedCount + min 1 (m.remainder r) = m.reservedCount
    ∧ ∀ q, q ≠ r → (m.lowerRemainder r).remainder q = m.remainder q := by
  obtain ⟨i1, i2, i3⟩ := lowered_facts r h
  rw [FrameMemory.lowerRemainder_eq]
  refine ⟨?_, ?_, fun q hq => ?_⟩
  · rw [FrameMemory.remainder_eq, FrameMemory.remainder_eq]; exact i1
  · rw [FrameMemory.remainder_eq]; exact i2
  · rw [FrameMemory.remainder_eq, FrameMemory.remainder_eq]; exact i3 q hq

end Sys2Proof.Machine
end

