-- ==== Sys2Proof/Laws/PerInstr.lean ====
section
/-! SUPPORT. Facts about every command as syntax, one lemma per constructor: the body of the frame that a
well-formed request row stands for fits the longest body (9.2). -/

namespace Sys2Proof.Laws.BodyFits

open Sys2Proof.Machine

/-- The body of the request that the command carries, if it carries one, fits a frame. -/
def Statement (i : Instr) : Prop :=
  ∀ (tag : Byte) (r : Request), i.carried = some (tag, r) → i.wellFormed = true →
    (requestBody r).length ≤ longestBody

theorem powerUp : ∀ a, Statement (.powerUp a) := by
  intro _ _ _ h _; cases h
theorem crossing : ∀ a b, Statement (.crossing a b) := by
  intro _ _ _ _ h _; cases h
theorem headFault : ∀ a b, Statement (.headFault a b) := by
  intro _ _ _ _ h _; cases h
theorem headHealthy : ∀ a b, Statement (.headHealthy a b) := by
  intro _ _ _ _ h _; cases h
theorem quietTimerExpiry : ∀ a, Statement (.quietTimerExpiry a) := by
  intro _ _ _ h _; cases h
theorem pairTimeout : ∀ a b, Statement (.pairTimeout a b) := by
  intro _ _ _ _ h _; cases h
theorem tailWindowExpiry : ∀ a, Statement (.tailWindowExpiry a) := by
  intro _ _ _ h _; cases h
theorem exitTimeout : ∀ a, Statement (.exitTimeout a) := by
  intro _ _ _ h _; cases h
theorem shotFreeze : ∀ a b, Statement (.shotFreeze a b) := by
  intro _ _ _ _ h _; cases h
theorem shotDue : Statement .shotDue := by
  intro _ _ h _; cases h
theorem busyIntervalEnd : ∀ a, Statement (.busyIntervalEnd a) := by
  intro _ _ _ h _; cases h
theorem triggerPulseEnd : ∀ a, Statement (.triggerPulseEnd a) := by
  intro _ _ _ h _; cases h
theorem flashPulseEnd : ∀ a, Statement (.flashPulseEnd a) := by
  intro _ _ _ h _; cases h
theorem rechargeExpiry : ∀ a, Statement (.rechargeExpiry a) := by
  intro _ _ _ h _; cases h
theorem readComplete : ∀ a b c d e, Statement (.readComplete a b c d e) := by
  intro _ _ _ _ _ _ _ h _; cases h
theorem discardComplete : ∀ a, Statement (.discardComplete a) := by
  intro _ _ _ h _; cases h
theorem senseComplete : ∀ a b c d, Statement (.senseComplete a b c d) := by
  intro _ _ _ _ _ _ h _; cases h
theorem relinkComplete : ∀ a, Statement (.relinkComplete a) := by
  intro _ _ _ h _; cases h
theorem orderTimeout : ∀ a, Statement (.orderTimeout a) := by
  intro _ _ _ h _; cases h
theorem lineLockGained : Statement .lineLockGained := by
  intro _ _ h _; cases h
theorem lineLockLost : Statement .lineLockLost := by
  intro _ _ h _; cases h
theorem frameReceived : ∀ a, Statement (.frameReceived a) := by
  intro _ _ _ h _; cases h
theorem frameSent : ∀ a, Statement (.frameSent a) := by
  intro _ _ _ h _; cases h
theorem timeSet : ∀ a b, Statement (.timeSet a b) := by
  intro _ _ _ _ h _; cases h; exact Nat.le_of_ble_eq_true rfl
theorem timeGet : ∀ a, Statement (.timeGet a) := by
  intro _ _ _ h _; cases h; exact Nat.le_of_ble_eq_true rfl
theorem trackArm : ∀ a b, Statement (.trackArm a b) := by
  intro _ _ _ _ h _; cases h; exact Nat.le_of_ble_eq_true rfl
theorem trackDisarm : ∀ a b, Statement (.trackDisarm a b) := by
  intro _ _ _ _ h _; cases h; exact Nat.le_of_ble_eq_true rfl
theorem trackStatus : ∀ a b, Statement (.trackStatus a b) := by
  intro _ _ _ _ h _; cases h; exact Nat.le_of_ble_eq_true rfl
theorem listPassages : ∀ a, Statement (.listPassages a) := by
  intro _ _ _ h _; cases h; exact Nat.le_of_ble_eq_true rfl
theorem readPassage : ∀ a b c d, Statement (.readPassage a b c d) := by
  intro _ _ _ _ _ _ h _; cases h; exact Nat.le_of_ble_eq_true rfl
theorem releasePassage : ∀ a b, Statement (.releasePassage a b) := by
  intro _ _ _ _ h _; cases h; exact Nat.le_of_ble_eq_true rfl
theorem abandonPassage : ∀ a b, Statement (.abandonPassage a b) := by
  intro _ _ _ _ h _; cases h; exact Nat.le_of_ble_eq_true rfl
theorem cameraService : ∀ a b c, Statement (.cameraService a b c) := by
  intro _ _ _ _ _ h _; cases h; exact Nat.le_of_ble_eq_true rfl
theorem cameraSense : ∀ a b, Statement (.cameraSense a b) := by
  intro _ _ _ _ h _; cases h; exact Nat.le_of_ble_eq_true rfl
theorem memoryStatus : ∀ a b, Statement (.memoryStatus a b) := by
  intro _ _ _ _ h _; cases h; exact Nat.le_of_ble_eq_true rfl
theorem pageRetire : ∀ a b c, Statement (.pageRetire a b c) := by
  intro _ _ _ _ _ h _; cases h; exact Nat.le_of_ble_eq_true rfl
theorem pageRestore : ∀ a b, Statement (.pageRestore a b) := by
  intro _ _ _ _ h _; cases h; exact Nat.le_of_ble_eq_true rfl
theorem tableBegin : ∀ a, Statement (.tableBegin a) := by
  intro _ _ _ h _; cases h; exact Nat.le_of_ble_eq_true rfl
theorem tablePut : ∀ a b c d, Statement (.tablePut a b c d) := by
  intro a b c d tag r h hw
  cases h
  have hd : d.length ≤ 4100 := by simpa [Instr.wellFormed] using hw
  simp only [requestBody, requestArguments, bytes16, List.length_append, List.length_cons,
    List.length_nil, longestBody]
  omega
theorem tableGet : ∀ a b c d, Statement (.tableGet a b c d) := by
  intro _ _ _ _ _ _ h _; cases h; exact Nat.le_of_ble_eq_true rfl
theorem tableEnd : ∀ a, Statement (.tableEnd a) := by
  intro _ _ _ h _; cases h; exact Nat.le_of_ble_eq_true rfl
theorem tableAbort : ∀ a, Statement (.tableAbort a) := by
  intro _ _ _ h _; cases h; exact Nat.le_of_ble_eq_true rfl
theorem bankStatus : ∀ a, Statement (.bankStatus a) := by
  intro _ _ _ h _; cases h; exact Nat.le_of_ble_eq_true rfl
theorem identify : ∀ a, Statement (.identify a) := by
  intro _ _ _ h _; cases h; exact Nat.le_of_ble_eq_true rfl
theorem restart : ∀ a, Statement (.restart a) := by
  intro _ _ _ h _; cases h; exact Nat.le_of_ble_eq_true rfl
theorem fetchImage : ∀ a b c d e, Statement (.fetchImage a b c d e) := by
  intro _ _ _ _ _ _ _ h _; cases h; exact Nat.le_of_ble_eq_true rfl

end Sys2Proof.Laws.BodyFits
end

