-- ==== Sys2Proof/Tests/Slice0.lean ====
section
/-! SUPPORT. Tests: commands that are not well formed, worked figures of the spec, what single commands do on
small states, and for each statement states and operands that meet its hypotheses, clause by clause. -/

namespace Sys2Proof.Tests

open Sys2Proof.Machine

set_option Elab.async false

/-! ## Well-formed commands -/

theorem test_passage_number_zero_is_refused : (Instr.tailWindowExpiry 0).wellFormed = false := by decide
theorem test_passage_number_too_high_is_refused : (Instr.exitTimeout 65536).wellFormed = false := by decide
theorem test_shot_freeze_of_passage_zero_is_refused : (Instr.shotFreeze 0 0).wellFormed = false := by
  decide
theorem test_shot_number_too_high_is_refused : (Instr.shotFreeze 1 48).wellFormed = false := by decide
theorem test_short_segment_is_refused : (Instr.readComplete ⟨0, 0⟩ [1, 2, 3] 0 .done 0).wellFormed = false := by
  decide
theorem test_wrong_bit_outside_memory_is_refused :
    (Instr.frameSent [frameMemoryBits]).wellFormed = false := by decide
theorem test_wrong_bit_named_twice_is_refused : (Instr.frameSent [9, 9]).wellFormed = false := by decide
theorem test_long_contents_are_refused :
    (Instr.tablePut 0 1 1 (List.replicate 4101 0)).wellFormed = false := by decide +kernel

theorem long_segment (n : Nat) (outcome : ReadOutcome) :
    (Instr.readComplete ⟨0, 0⟩ (List.replicate n 0) 0 outcome 0).wellFormed = (n == 65536) := by
  change ((List.replicate n (0 : Byte)).length == 65536) = (n == 65536)
  rw [List.length_replicate]

/-- The last values that are well formed (`EveryWellFormedCommandCompletes`). -/
theorem test_well_formed_bounds :
    (Instr.tailWindowExpiry 1).wellFormed = true ∧ (Instr.exitTimeout 65535).wellFormed = true
    ∧ (Instr.shotFreeze 65535 47).wellFormed = true
    ∧ (Instr.frameSent [0, frameMemoryBits - 1]).wellFormed = true
    ∧ (Instr.tablePut 0 1 1 (List.replicate 4100 0)).wellFormed = true
    ∧ (Instr.identify 0).wellFormed = true
    ∧ (Instr.readComplete ⟨0, 0⟩ (List.replicate 65536 0) 0 .done 0).wellFormed = true
    ∧ (Instr.readComplete ⟨0, 0⟩ (List.replicate 65537 0) 0 .failed 0).wellFormed = false := by
  rw [long_segment, long_segment]
  decide +kernel

/-! ## Worked figures -/

/-- The check value of the CRC of R178 over the digits 1 to 9. -/
theorem test_crc : crc32 [0x31, 0x32, 0x33, 0x34, 0x35, 0x36, 0x37, 0x38, 0x39] = 0xCBF43926 := by decide +kernel

/-- A TIME GET frame with tag 7: start mark, kind, tag, length 2, code 0x0102, check. -/
theorem test_request_frame : (requestFrame 7 .timeGet).take 8 = [0xD4, 0x2B, 1, 7, 2, 0, 2, 1]
    ∧ (requestFrame 7 .timeGet).length = 12 := by decide +kernel

/-- Gantry time goes round at 2^48 and differences are signed (R2). -/
theorem test_time_difference : timeDiff 5 0xFFFFFFFFFFFF = 6 ∧ timeDiff 0xFFFFFFFFFFFF 5 = -6
    ∧ timePlus 3 (-5) = 0xFFFFFFFFFFFE := by decide

/-- Speed and spacing (R18, R19): 2,000 mm in 24,000 µs, and a second axle. -/
theorem test_speed_and_spacing : measuredSpeed 2000 24000 = some 83333 ∧ measuredSpeed 2000 13333 = none
    ∧ measuredSpeed 2000 0 = none
    ∧ axleSpacing (some ⟨0, some 80000, true, .absent⟩) 32500 (some 80000) = .known 2600 := by decide

/-- Speed bands (R75). -/
theorem test_speed_bands : speedBand 555 = 0 ∧ speedBand 556 = 1 ∧ speedBand 80000 = 144
    ∧ speedBand 150000 = 255 := by decide

/-- Tail windows (R33) and placings (R81) at the ends of their ranges. -/
theorem test_tail_windows_and_placings : tailWindowLength 60000 (some 80000) = 750000
    ∧ tailWindowLength 20000 (some 500000) = 50000 ∧ tailWindowLength 200000 (some 500) = 10000000
    ∧ tailWindowLength 60000 none = 10000000
    ∧ placeByLead 2000 100 = .planned ∧ placeByLead 1999 100 = .frozen ∧ placeByLead 0 100 = .frozen
    ∧ placeByLead (-1) 100 = .dueAtOnce ∧ placeByLead (-100) 100 = .dueAtOnce
    ∧ placeByLead (-101) 100 = .late ∧ placeByLead (-1) 0 = .late := by decide

/-- The first commit of R170's kind: an all-empty bank passes validation. -/
theorem test_empty_bank_passes : State.reset.validate Bank.empty = none := by decide +kernel

/-! ## States -/

def trackA : TrackEntry := ⟨true, 2000, 2400, 100000, 100000, 60000, 20000000, 1000000, 100⟩
def cameraA : CameraEntry := ⟨true, 1, 0, 2, 0, 2, 5000, true, 0x20, 0x80⟩

/-- A bank with track 1, one camera, and strobe bank 0 with an unlit policy. -/
def bankA (c : CameraEntry) (policy : Byte) : Bank :=
  { Bank.empty with
    tracks := setAt Bank.empty.tracks 0 trackA
    cameras := setAt Bank.empty.cameras 0 c
    strobes := setAt Bank.empty.strobes 0 ⟨true, 20000, 100, policy⟩ }

/-- A part with the link UP and bank 0 ACTIVE. -/
def base : State :=
  { State.reset with
    banks := ⟨#v[⟨.active, bankA cameraA 0⟩, ⟨.empty, .empty⟩], 0, none⟩
    link := { State.reset.link with up := true } }

/-- Track 1 in a state, side A's FIFO and quiet timer as given. -/
def onTrack (st : TrackState) (fifo : List PairEntry) (quiet : Option Nat) (elapsed : Nat) : State :=
  { base.setTrack 0 ⟨st, .allHealthy, fifo, [], quiet⟩ with
    clock := ⟨BitVec.ofNat 48 elapsed, 0, elapsed⟩ }

/-- Track 1 OCCUPIED, or in another state, with one passage. -/
def withPassage (p : Passage) (st : TrackState) (fifo : List PairEntry) (elapsed : Nat) : State :=
  { onTrack st fifo none elapsed with table := ⟨[p], 2⟩ }

/-- A passage just opened on track 1, travelling AB. -/
def passageA : Passage := Passage.new 1 0 .ab 0 0 0 10000000

def inTail : Passage :=
  { passageA with state := .tail, tailTime := some 9, tailWindow := none, exitTimeout := some 500,
                  axleTotal := 2, exitCount := 1 }

/-- A shot of camera 0. -/
def shotIn (st : ShotState) : Shot :=
  { Shot.new 0 0 0 0 0 2 with
    state := st, plannedFire := some 1000, timing := some ⟨0, 20000, 36, true, 50, 60⟩ }

def withShots (ks : List Shot) (st : PassageState) : Passage := { passageA with state := st, shots := ks }

/-- What a command leads to. -/
def after (c : Instr) (s : State) : State :=
  match exec c s with
  | .next t => t
  | .fault _ => s
  | .refused _ => s

/-- The invariant of tracks and passages written out. -/
theorem tracksInv_iff (s : State) : s.tracksInv ↔
    (∀ t : Track, ((s.tracks[t].quiet.isSome = true ↔ s.tracks[t].state = .ignoring)
      ∧ s.tracks[t].fifoA.length ≤ 4 ∧ s.tracks[t].fifoB.length ≤ 4
      ∧ (s.tracks[t].state ≠ .occupied → s.tracks[t].fifoA = [] ∧ s.tracks[t].fifoB = [])))
    ∧ (s.table.passages.length ≤ 8 ∧ (s.table.passages.map (·.number)).Nodup
      ∧ (∀ p ∈ s.table.passages, 1 ≤ p.number ∧ p.number ≤ 65535)
      ∧ (1 ≤ s.table.nextNumber ∧ s.table.nextNumber ≤ 65535))
    ∧ ((∀ p ∈ s.table.passages, p.isOpen = true → s.tracks[p.track].state = .occupied)
      ∧ (∀ t : Track, s.tracks[t].state = .occupied →
          ∃ p ∈ s.table.passages, p.track = t ∧ p.isOpen = true)
      ∧ s.table.passages.Pairwise
          (fun p q => p.isOpen = true → q.isOpen = true → p.track ≠ q.track)) := Iff.rfl

theorem base_ready : base.readyFor := ⟨rfl, rfl, rfl, rfl⟩

theorem base_inv : base.inv :=
  ⟨FrameMemory.powerUp_wf, (State.powerUp_inv (Vector.replicate 4 .allHealthy) []).2.1, (State.powerUp_inv (Vector.replicate 4 .allHealthy) []).2.2.1,
    (Banks.sound_iff _).2 (by decide), (State.powerUp_inv (Vector.replicate 4 .allHealthy) []).2.2.2.2⟩

theorem occupied_inv : (withPassage passageA .occupied [⟨0, 2000000⟩] 0).tracksInv :=
  (tracksInv_iff _).2 (by decide)

theorem tail_inv : (withPassage inTail .occupied [] 500).tracksInv := (tracksInv_iff _).2 (by decide)

/-! ## States and operands that meet the hypotheses: the block -/

def upLink : Link := { State.reset.link with up := true }

/-- A part with the link UP that stays COLD. -/
def cold : State := { State.reset with link := upLink }

/-- The part with this gantry link. -/
def linked (l : Link) : State := { base with link := l }

theorem ready_of {s : State} (h : s.link = upLink) : s.readyFor := by
  unfold State.readyFor; rw [h]; exact ⟨rfl, rfl, rfl, rfl⟩

theorem tracksSound_iff (s : State) : s.tracksSound ↔
    ∀ t : Track, ((s.tracks[t].quiet.isSome = true ↔ s.tracks[t].state = .ignoring)
      ∧ s.tracks[t].fifoA.length ≤ 4 ∧ s.tracks[t].fifoB.length ≤ 4
      ∧ (s.tracks[t].state ≠ .occupied → s.tracks[t].fifoA = [] ∧ s.tracks[t].fifoB = [])) := Iff.rfl

theorem reset_inv : State.reset.inv := State.powerUp_inv (Vector.replicate 4 .allHealthy) []

theorem test_hyps_StepRunsFrontCommand :
    ({ base with pending := [.shotDue, .timeGet 3] } : State).pending = .shotDue :: [.timeGet 3] := rfl

/-- A due quiet timer, and no event due. -/
theorem test_hyps_StepOnEmptyQueue :
    (onTrack .ignoring [] (some 7) 7).pending = []
    ∧ (onTrack .ignoring [] (some 7) 7).dueEvent = some (.quietTimerExpiry 0)
    ∧ (onTrack .ignoring [] (some 7) 6).dueEvent = none := by decide +kernel

theorem test_hyps_CommandsLeaveQueueAndElapsedCount :
    exec .shotDue State.reset = .next State.reset
    ∧ ∀ levels, Instr.shotDue ≠ .powerUp levels := ⟨rfl, fun _ h => by cases h⟩

theorem reset_step : step State.reset
    = .next { State.reset with clock := ⟨1, 0, 1⟩ } := rfl

theorem test_hyps_EveryReachedStateIsSound :
    ∃ t, Reaches (State.powerUp (Vector.replicate 4 .allHealthy) []) t ∧ t ≠ State.reset
      ∧ t.pending = [.shotDue] :=
  ⟨_, .arrive .shotDue (.step (.here _) reset_step), by decide +kernel, rfl⟩

/-- A vehicle of two axles, and a remainder of one. -/
def covered : Passage :=
  { passageA with
    axles := [⟨0, none, false, .absent⟩, ⟨1, none, false, .unknown⟩, ⟨2, none, false, .unknown⟩]
    cursor := 3, vehicles := [⟨.matched 0 .forward 0, 0, 2⟩, ⟨.remainder, 2, 1⟩] }

theorem covered_sound : (withPassage covered .occupied [] 0).passagesSound := by
  intro p hp
  rw [show (withPassage covered .occupied [] 0).table.passages = [covered] from rfl,
    List.mem_singleton] at hp
  subst hp
  unfold Passage.sound
  decide +kernel

theorem test_hyps_VehicleListsCoverAxles :
    (withPassage covered .occupied [] 0).passagesSound
    ∧ covered ∈ (withPassage covered .occupied [] 0).table.passages
    ∧ 2 < covered.axles.length ∧ 2 < covered.cursor
    ∧ covered.vehicles[0]? = some ⟨.matched 0 .forward 0, 0, 2⟩
    ∧ covered.vehicles[0 + 1]? = some ⟨.remainder, 2, 1⟩
    ∧ covered.vehicles.getLast? = some ⟨.remainder, 2, 1⟩
    ∧ (withPassage passageA .occupied [] 0).passagesSound ∧ passageA.vehicles = [] := by
  refine ⟨covered_sound, List.mem_singleton.2 rfl, by decide, by decide, rfl, rfl, rfl, ?_, rfl⟩
  intro p hp
  rw [show (withPassage passageA .occupied [] 0).table.passages = [passageA] from rfl,
    List.mem_singleton] at hp
  subst hp
  unfold Passage.sound
  decide +kernel

/-- Nothing of the frame received, all but its last byte received, and the link DOWN. -/
theorem test_hyps_ReceiverTakesRequestFrames :
    (Instr.timeGet 7).carried = some (7, .timeGet) ∧ (Instr.timeGet 7).wellFormed = true
    ∧ 0 < (requestFrame 7 .timeGet).length ∧ 11 < (requestFrame 7 .timeGet).length
    ∧ base.link.up = true ∧ base.link.received = (requestFrame 7 .timeGet).take 0
    ∧ (linked { upLink with received := (requestFrame 7 .timeGet).take 11 }).link.received
        = (requestFrame 7 .timeGet).take 11
    ∧ base.link.received = [] ∧ State.reset.link.up = false := by decide +kernel

def reply1 : Response := ⟨1, 0x0102, .done, .ok, [], false⟩
def notice1 : QueuedNotice := ⟨.linkUp 0, 0, 0, false⟩

/-- A fetch of one segment at its n-th chunk. -/
def fetching (sent : Bool) (n : Nat) : Option InProgress := some (.fetch ⟨1, ⟨1, 0⟩, 0, 1, n, sent⟩)

theorem test_hyps_EventCloseFrame :
    State.reset.link.up = false ∧ (linked { upLink with sending := some .notice }).link.sending ≠ none := by
  decide

theorem test_hyps_ArbitrationOrder :
    (upLink.up = true ∧ upLink.sending = none)
    ∧ ({ upLink with notices := [notice1], lastSent := some .imageData } : Link).notices = notice1 :: []
    ∧ (upLink.lastSent ≠ some .imageData ∧ upLink.notices = [] ∧ upLink.replies = [])
    ∧ ({ upLink with replies := [reply1] } : Link).replies ≠ []
    ∧ (({ upLink with inProgress := fetching true 15 } : Link).inProgress
        = some (.fetch ⟨1, ⟨1, 0⟩, 0, 1, 15, true⟩) ∧ 15 < 16 * 1)
    ∧ (∀ f, ({ upLink with inProgress := fetching true 16 } : Link).inProgress = some (.fetch f) →
        f.responseSent = false ∨ 16 * f.segments ≤ f.next)
    ∧ (∀ f, ({ upLink with inProgress := fetching false 0 } : Link).inProgress = some (.fetch f) →
        f.responseSent = false ∨ 16 * f.segments ≤ f.next) := by
  refine ⟨by decide, rfl, by decide, by decide, ⟨rfl, by decide⟩, ?_, ?_⟩
  · intro f h; cases h; exact .inr (by decide)
  · intro f h; cases h; exact .inl rfl

/-! ## The same: requests -/

theorem test_hyps_TimeSetRequest :
    base.readyFor ∧ 2 ^ 48 ≤ (0x1000000000000 : BitVec 64).toNat
    ∧ (0xFFFFFFFFFFFF : BitVec 64).toNat < 2 ^ 48
    ∧ (∃ p ∈ (withPassage passageA .occupied [] 0).table.passages, p.state = .approaching)
    ∧ (∃ p ∈ (withPassage inTail .occupied [] 0).table.passages, p.state = .tail)
    ∧ (∃ p ∈ (withPassage (withShots [shotIn .planned] .clear) .vacant [] 0).table.passages,
        ∃ k ∈ p.shots, k.state = .planned)
    ∧ (∃ p ∈ (withPassage (withShots [shotIn .frozen] .clear) .vacant [] 0).table.passages,
        ∃ k ∈ p.shots, k.state = .frozen)
    ∧ ∀ p ∈ (withPassage (withShots [shotIn .held] .clear) .vacant [] 0).table.passages,
        p.state ≠ .approaching ∧ p.state ≠ .tail
          ∧ ∀ k ∈ p.shots, k.state ≠ .planned ∧ k.state ≠ .frozen := by
  refine ⟨base_ready, by decide +kernel, by decide +kernel, ?_⟩
  decide +kernel

/-- Track 0 and 5 name none, 1 and 4 name the first and the last. -/
theorem test_hyps_track_numbers :
    (0 : Byte).toNat = 0 ∧ 4 < (5 : Byte).toNat ∧ (1 : Byte).toNat = (0 : Track).val + 1
    ∧ (4 : Byte).toNat = (3 : Track).val + 1 := by decide

def faulty : HeadHealth := HeadHealth.allHealthy.set .a2 .fault

/-- Track 1 DISARMED or HEAD_FAULT with a faulty head. -/
def faultyTrack (st : TrackState) : State := base.setTrack 0 ⟨st, faulty, [], [], none⟩

theorem test_hyps_TrackArmAndDisarm :
    (cold.readyFor ∧ cold.tracksSound ∧ cold.activeContents = none)
    ∧ (base.readyFor ∧ base.tracksSound ∧ base.activeContents = some (bankA cameraA 0)
      ∧ ((bankA cameraA 0).tracks[(3 : Track)]).fitted = false
      ∧ ((bankA cameraA 0).tracks[(0 : Track)]).fitted = true
      ∧ base.tracks[(0 : Track)].state = .disarmed
      ∧ base.tracks[(0 : Track)].health = .allHealthy)
    ∧ ((onTrack .vacant [] none 0).readyFor ∧ (onTrack .vacant [] none 0).tracksSound
      ∧ (onTrack .vacant [] none 0).tracks[(0 : Track)].state = .vacant)
    ∧ ((onTrack .ignoring [] (some 5) 0).readyFor ∧ (onTrack .ignoring [] (some 5) 0).tracksSound
      ∧ (onTrack .ignoring [] (some 5) 0).tracks[(0 : Track)].state = .ignoring)
    ∧ ((onTrack .occupied [⟨0, 9⟩] none 0).readyFor ∧ (onTrack .occupied [⟨0, 9⟩] none 0).tracksSound
      ∧ (onTrack .occupied [⟨0, 9⟩] none 0).tracks[(0 : Track)].state = .occupied)
    ∧ ((faultyTrack .disarmed).readyFor ∧ (faultyTrack .disarmed).tracksSound
      ∧ (faultyTrack .disarmed).tracks[(0 : Track)].health ≠ .allHealthy) := by
  refine ⟨⟨ready_of rfl, (tracksSound_iff _).2 (by decide), rfl⟩,
    ⟨base_ready, (tracksSound_iff _).2 (by decide), rfl, rfl, rfl, rfl, rfl⟩,
    ⟨ready_of rfl, (tracksSound_iff _).2 (by decide), rfl⟩,
    ⟨ready_of rfl, (tracksSound_iff _).2 (by decide), rfl⟩,
    ⟨ready_of rfl, (tracksSound_iff _).2 (by decide), rfl⟩,
    ⟨ready_of rfl, (tracksSound_iff _).2 (by decide), by decide⟩⟩

/-- No passage, and a passage with parts at the ends of their ranges. -/
theorem test_hyps_ListAndReadPassages :
    base.readyFor ∧ (9 : BitVec 16) ≠ 0 ∧ base.passage? (9 : BitVec 16).toNat = none
    ∧ (withPassage passageA .occupied [] 0).readyFor ∧ (1 : BitVec 16) ≠ 0
    ∧ (withPassage passageA .occupied [] 0).passage? (1 : BitVec 16).toNat = some passageA
    ∧ (127 : Byte).toNat ≤ 127 ∧ 127 < (128 : Byte).toNat ∧ (47 : Byte).toNat ≤ 47
    ∧ 47 < (48 : Byte).toNat ∧ 3 < (4 : Byte).toNat
    ∧ (shotIn .held).timing = some ⟨0, 20000, 36, true, 50, 60⟩ := by
  refine ⟨base_ready, by decide, rfl, ready_of rfl, by decide, rfl, ?_⟩
  decide

/-- A passage that is FILED, ABANDONED, CLEAR, STOPPING or open (`AbandonPassageRequest` too). -/
theorem test_hyps_ReleasePassageRequest (st : PassageState) :
    (withPassage { passageA with state := st } .vacant [] 0).readyFor
    ∧ (1 : BitVec 16) ≠ 0
    ∧ (withPassage { passageA with state := st } .vacant [] 0).passage? (1 : BitVec 16).toNat
        = some { passageA with state := st } := ⟨ready_of rfl, by decide, rfl⟩

theorem test_hyps_AbandonPassageRequest :
    base.readyFor ∧ (0xFFFF : BitVec 16) ≠ 0 ∧ base.passage? (0xFFFF : BitVec 16).toNat = none
    ∧ ((withShots [shotIn .planned] .approaching).shots.all (fun k => k.state.terminal) = false)
    ∧ ((withShots [shotIn .stored] .clear).shots.all (fun k => k.state.terminal) = true) :=
  ⟨base_ready, by decide, rfl, by decide, by decide⟩

/-- Camera line 0 in this state, with these orders. -/
def onLine (l : CameraLine) : State := { base with lines := setAt base.lines 0 l }
def lineIn (st : LineState) : CameraLine := { CameraLine.powerUp with state := st }

theorem test_hyps_CameraServiceRequest :
    (12 ≤ (12 : Byte).toNat ∧ (11 : Byte).toNat = (11 : Camera).val ∧ (0 : Byte).toNat = (0 : Camera).val
      ∧ 1 < (2 : Byte).toNat)
    ∧ (cold.readyFor ∧ cold.activeContents = none)
    ∧ (base.readyFor ∧ base.activeContents = some (bankA cameraA 0)
      ∧ ((bankA cameraA 0).cameras[(11 : Camera)]).fitted = false
      ∧ ((bankA cameraA 0).cameras[(0 : Camera)]).fitted = true
      ∧ base.lines[(0 : Camera)].state ≠ .inService ∧ base.lines[(0 : Camera)].state ≠ .outOfService
      ∧ base.lines[(0 : Camera)].state ≠ .down)
    ∧ (∀ st, (onLine (lineIn st)).readyFor ∧ (onLine (lineIn st)).lines[(0 : Camera)].state = st
      ∧ (onLine (lineIn st)).activeContents = some (bankA cameraA 0)
      ∧ (onLine (lineIn st)).lines[(0 : Camera)].outstanding = none)
    ∧ (onLine { lineIn .outOfService with outstanding := some ⟨.discard 1, 9, false⟩
        }).lines[(0 : Camera)].outstanding = some ⟨.discard 1, 9, false⟩ :=
  ⟨by decide, ⟨ready_of rfl, rfl⟩, ⟨base_ready, rfl, rfl, rfl, by decide, by decide, by decide⟩,
    fun _ => ⟨ready_of rfl, rfl, rfl, rfl⟩, rfl⟩

theorem test_hyps_CameraSenseRequest :
    (∀ st, (onLine (lineIn st)).readyFor ∧ (onLine (lineIn st)).lines[(0 : Camera)].state = st
      ∧ (onLine (lineIn st)).lines[(0 : Camera)].outstanding = none
      ∧ (onLine (lineIn st)).lines[(0 : Camera)].orders = .none)
    ∧ ∀ o ignored, (onLine { lineIn .inService with outstanding := some ⟨o, 9, ignored⟩ }).readyFor
      ∧ (onLine { lineIn .inService with outstanding := some ⟨o, 9, ignored⟩
          }).lines[(0 : Camera)].outstanding = some ⟨o, 9, ignored⟩ :=
  ⟨fun _ => ⟨ready_of rfl, rfl, rfl, rfl⟩, fun _ _ => ⟨ready_of rfl, rfl⟩⟩

/-- Page 5 in this condition on spare 8,192 or on its own page. -/
def pageIn (c : PageCondition) (spare : Option Nat) (bad : List Nat) : State :=
  { base with memory := { FrameMemory.powerUp with pages := [(5, ⟨c, spare, none⟩)], badSpares := bad } }

def owner1 : PageOwner := ⟨⟨1, 0⟩, 0⟩

theorem test_hyps_PageRetireRequest :
    (base.readyFor ∧ base.memory.wf ∧ 8192 ≤ (8192 : BitVec 16).toNat ∧ (8191 : BitVec 16).toNat < 8192
      ∧ (8191 : BitVec 16) ≠ 0xFFFF ∧ 8320 ≤ (8320 : BitVec 16).toNat
      ∧ base.memory.usable (8319 : BitVec 16).toNat = true
      ∧ (base.memory.page 8191).condition = .free ∧ (base.memory.page 8191).spare = none)
    ∧ ((pageIn .free (some 8192) []).readyFor ∧ (pageIn .free (some 8192) []).memory.wf
      ∧ (pageIn .free (some 8192) []).memory.usable (8193 : BitVec 16).toNat = true
      ∧ ((pageIn .free (some 8192) []).memory.page 5).condition = .free
      ∧ ((pageIn .free (some 8192) []).memory.page 5).spare = some 8192)
    ∧ ((pageIn (.held owner1) none []).readyFor ∧ (pageIn (.held owner1) none []).memory.wf
      ∧ ((pageIn (.held owner1) none []).memory.page 5).condition = .held owner1)
    ∧ ((pageIn .outOfService none [8192]).readyFor ∧ (pageIn .outOfService none [8192]).memory.wf
      ∧ ((pageIn .outOfService none [8192]).memory.page 5).condition = .outOfService
      ∧ (pageIn .outOfService none [8192]).memory.usable (8193 : BitVec 16).toNat = true)
    ∧ ((pageIn .outOfService none ((List.range 128).map (8192 + ·))).memory.wf
      ∧ (pageIn .outOfService none ((List.range 128).map (8192 + ·))).memory.lowestUsable = none) := by
  refine ⟨⟨base_ready, ?_⟩, ⟨ready_of rfl, ?_⟩, ⟨ready_of rfl, ?_⟩, ⟨ready_of rfl, ?_⟩, ?_⟩
  all_goals decide +kernel

theorem test_hyps_PageRestoreRequest :
    (pageIn (.held owner1) none []).readyFor ∧ (pageIn (.held owner1) none []).memory.wf
    ∧ ((pageIn .free (some 8192) []).memory.page 5).spare = some 8192
    ∧ ((pageIn .outOfService none [8192]).memory.page 5).spare = none
    ∧ 8192 ≤ (8192 : BitVec 16).toNat ∧ (5 : BitVec 16).toNat < 8192 := by
  refine ⟨ready_of rfl, ?_⟩
  decide +kernel

/-- The bounds of the page number, and a page in each condition. -/
theorem test_hyps_StatusRequests :
    base.readyFor ∧ 8192 ≤ (8192 : BitVec 16).toNat ∧ (8192 : BitVec 16) ≠ 0xFFFF
    ∧ (8191 : BitVec 16).toNat < 8192
    ∧ (∀ c, (pageIn c none []).readyFor ∧ ((pageIn c none []).memory.page (5 : BitVec 16).toNat).condition = c) :=
  ⟨base_ready, by decide, by decide, by decide, fun _ => ⟨ready_of rfl, rfl⟩⟩

theorem test_hyps_TableEntriesReadAsPut :
    base.readyFor ∧ (1 : Byte).toNat = (1 : BankNo).val ∧ (entryAddress 1 4).isSome = true
    ∧ (entryAddress 5 63).isSome = true ∧ (entryAddress 6 255).isSome = true
    ∧ 1 < (2 : Byte).toNat ∧ entryAddress 1 5 = none ∧ entryAddress 0 0 = none
    ∧ entryLength 4 = some (List.replicate 2 (0 : Byte)).length
    ∧ (entryAddress 4 0).isSome = true := ⟨base_ready, by decide⟩

/-- Bank 0 ACTIVE and bank 1 in this state, at this depth; bank 0 EMPTY when COLD. -/
def inBanks (first second : BankState) (depth : Nat) (image : Option Bank) : State :=
  { base with banks := ⟨#v[⟨first, bankA cameraA 0⟩, ⟨second, .empty⟩], depth, image⟩ }

/-- A transaction in bank 1 beside a bank 0 that is not STAGING. -/
theorem sound_staging (first : BankState) (h : first ≠ .staging) (c d : Bank) (depth : Nat)
    (hd : 0 < depth ∧ depth ≤ 4) (image : Option Bank) :
    (⟨#v[⟨first, c⟩, ⟨.staging, d⟩], depth, image⟩ : Banks).sound := by
  refine ⟨hd.2, ⟨fun _ => ⟨1, rfl⟩, fun _ => hd.1⟩, ?_, ?_, fun h' => ?_⟩
  · intro j k hj hk
    match j, k with
    | 0, 0 => rfl
    | 1, 1 => rfl
    | 0, 1 => exact nomatch (show BankState.staging = .active from hk)
    | 1, 0 => exact nomatch (show BankState.staging = .active from hj)
  · intro j k hj hk
    match j, k with
    | 0, 0 => rfl
    | 1, 1 => rfl
    | 0, 1 => exact absurd (show first = .staging from hj) h
    | 1, 0 => exact absurd (show first = .staging from hk) h
  · have : depth = 0 := h'
    omega

theorem banks_sound_staging (depth : Nat) (h : 0 < depth ∧ depth ≤ 4) (image : Option Bank) :
    (inBanks .active .staging depth image).banks.sound :=
  sound_staging .active (by decide) _ _ depth h image

theorem test_hyps_TableBeginRequest :
    (base.readyFor ∧ base.banks.sound ∧ base.banks.depth = 0
      ∧ base.banks.slots[(0 : BankNo)].state = .active ∧ (1 : BankNo) ≠ 0
      ∧ base.banks.slots[(1 : BankNo)].state ≠ .draining
      ∧ ∀ p ∈ base.table.passages, p.bank = 1 → p.state ≠ .clear ∧ p.state ≠ .stopping)
    ∧ ((inBanks .active .draining 0 none).readyFor ∧ (inBanks .active .draining 0 none).banks.sound
      ∧ (inBanks .active .draining 0 none).banks.slots[(1 : BankNo)].state = .draining)
    ∧ (∃ p ∈ ({ base with table := ⟨[{ passageA with bank := 1, state := .clear }], 2⟩ }
        : State).table.passages, p.bank = 1 ∧ (p.state = .clear ∨ p.state = .stopping))
    ∧ (cold.readyFor ∧ cold.banks.sound ∧ ∀ a : BankNo, cold.banks.slots[a].state ≠ .active)
    ∧ (∀ depth, 0 < depth ∧ depth ≤ 4 → (inBanks .active .staging depth none).readyFor
      ∧ (inBanks .active .staging depth none).banks.sound
      ∧ (inBanks .active .staging depth none).banks.slots[(1 : BankNo)].state = .staging) := by
  refine ⟨⟨base_ready, base_inv.2.2.2.1, rfl, rfl, by decide, by decide, by decide⟩,
    ⟨ready_of rfl, (Banks.sound_iff _).2 (by decide), rfl⟩, by decide,
    ⟨ready_of rfl, (Banks.sound_iff _).2 (by decide), by decide⟩,
    fun d h => ⟨ready_of rfl, banks_sound_staging d h none, rfl⟩⟩

theorem test_hyps_TablePutRequest :
    (base.readyFor ∧ base.banks.sound ∧ base.banks.depth = 0)
    ∧ (∀ n, entryLength 4 = some n → (List.replicate 2 (0 : Byte)).length = n)
    ∧ (∀ n, entryLength 9 = some n → ([] : List Byte).length = n)
    ∧ entryAddress 9 0 = none ∧ (entryAddress 4 0).isSome = true := by
  refine ⟨⟨base_ready, base_inv.2.2.2.1, rfl⟩, ?_, ?_, rfl, rfl⟩
  · intro n h; cases h; rfl
  · intro n h; cases h

/-- Depths 1, 2 and 4 and a restore image or none are met by `banks_sound_staging`. -/
theorem test_hyps_TableEndAndAbort (image : Option Bank) :
    (inBanks .active .staging 2 image).readyFor ∧ (inBanks .active .staging 2 image).banks.sound
    ∧ 2 ≤ (inBanks .active .staging 2 image).banks.depth
    ∧ (inBanks .active .staging 2 image).banks.slots[(1 : BankNo)].state = .staging
    ∧ (inBanks .active .staging 2 image).banks.restoreImage = image :=
  ⟨ready_of rfl, banks_sound_staging 2 (by decide) image, Nat.le.refl, rfl, rfl⟩

/-- A staged bank that passes, with and without an ACTIVE bank, and one that fails. -/
def toCommit (first : BankState) (p : List Passage) (lines : Vector CameraLine 12) : State :=
  { cold with
    banks := ⟨#v[⟨first, .empty⟩, ⟨.staging, .empty⟩], 1, none⟩, table := ⟨p, 2⟩, lines := lines }

theorem toCommit_sound (first : BankState) (h : first ≠ .staging) (p : List Passage)
    (lines : Vector CameraLine 12) : (toCommit first p lines).banks.sound :=
  sound_staging first h _ _ 1 (by decide) none

theorem test_hyps_CommitRequest :
    ((toCommit .active [] base.lines).readyFor ∧ (toCommit .active [] base.lines).banks.depth = 1
      ∧ (toCommit .active [] base.lines).banks.slots[(1 : BankNo)].state = .staging
      ∧ (toCommit .active [] base.lines).validate Bank.empty = none
      ∧ (toCommit .empty [] base.lines).validate Bank.empty = none
      ∧ ∀ a : BankNo, (toCommit .empty [] base.lines).banks.slots[a].state ≠ .active)
    ∧ (∃ p ∈ (toCommit .active [passageA] base.lines).table.passages,
        p.bank = 0 ∧ p.state = .approaching)
    ∧ (toCommit .active [passageA] base.lines).validate Bank.empty = none
    ∧ ((inBanks .active .staging 1 none).validate { Bank.empty with
        cameras := setAt Bank.empty.cameras 11 { cameraA with segments := 65 } }).isSome = true
    ∧ base.lines[(0 : Camera)].state = .unlinked
    ∧ ((bankA cameraA 0).cameras[(0 : Camera)]).fitted = true
    ∧ ((bankA cameraA 0).cameras[(11 : Camera)]).fitted = false := by
  refine ⟨⟨ready_of rfl, ?_⟩, ?_⟩
  all_goals decide +kernel

/-- A bank with a camera that passes: the commit links its line. -/
theorem test_bank_with_camera_passes :
    base.validate (bankA { cameraA with segments := 2 } 0) = none := by decide +kernel

/-- A restart whose response is being sent, with page 5 held. -/
def restarting : State :=
  { inBanks .active .staging 1 none with
    memory := (pageIn (.held owner1) none []).memory
    link := { upLink with sending := some .response, replies := [reply1]
                          inProgress := some (.restart true) } }

theorem test_hyps_RestartRequest :
    base.readyFor ∧ restarting.link.sending = some .response ∧ restarting.link.replies = reply1 :: []
    ∧ reply1.immediate = false ∧ restarting.link.inProgress = some (.restart true)
    ∧ restarting.banks.sound ∧ restarting.memory.wf
    ∧ (∀ b ∈ [0, 545259520 * 8 - 1], b < 545259520 * 8)
    ∧ (∀ b : BankNo, some 0 = some b ↔ restarting.banks.slots[b].state = .active)
    ∧ restarting.activeContents = some (bankA cameraA 0)
    ∧ [5].Pairwise (· < ·)
    ∧ ∀ k, k ∈ [5] ↔ ∃ o, (restarting.memory.page k).condition = .held o := by
  refine ⟨base_ready, rfl, rfl, rfl, rfl, banks_sound_staging 1 (by decide) none, by decide, by decide,
    by decide, rfl, by decide, fun k => ?_⟩
  by_cases h : k = 5
  · subst h; exact ⟨fun _ => ⟨owner1, rfl⟩, fun _ => by decide⟩
  · refine ⟨fun hk => absurd (List.mem_singleton.1 hk) h, fun ⟨o, ho⟩ => ?_⟩
    have : restarting.memory.page k = Page.initial := by
      change ((List.lookup k [(5, _)]).getD Page.initial) = _
      rw [List.lookup_cons, beq_eq_false_iff_ne.2 h]; rfl
    rw [this] at ho; cases ho

/-- The other bank DRAINING, or in a transaction with a restore image; no bank ACTIVE. -/
theorem test_hyps_RestartRequest_banks (image : Bank) :
    (inBanks .draining .active 0 none).banks.slots[(0 : BankNo)].state = .draining
    ∧ (inBanks .active .staging 1 (some image)).banks.sound
    ∧ (inBanks .active .staging 1 (some image)).banks.restoreImage = some image
    ∧ (∀ b : BankNo, none = some b ↔ cold.banks.slots[b].state = .active)
    ∧ cold.activeContents = none :=
  ⟨rfl, banks_sound_staging 1 (by decide) _, rfl, by decide, rfl⟩

/-- A shot STORED with two segments, and one that is not. -/
def storedShot : Shot := { shotIn .stored with segmentsExpected := 2, segmentsStored := 2, pages := [3, 5] }

theorem test_hyps_FetchImageRequest :
    base.readyFor ∧ (0xFFFF : BitVec 16) ≠ 0 ∧ base.passage? (0xFFFF : BitVec 16).toNat = none
    ∧ (withPassage (withShots [storedShot, shotIn .held] .clear) .vacant [] 0).readyFor
    ∧ (withPassage (withShots [storedShot, shotIn .held] .clear) .vacant [] 0).passage?
        (1 : BitVec 16).toNat = some (withShots [storedShot, shotIn .held] .clear)
    ∧ 47 < (48 : Byte).toNat ∧ (47 : Byte).toNat ≤ 47
    ∧ (withShots [storedShot, shotIn .held] .clear).shots[(47 : Byte).toNat]? = none
    ∧ (withShots [storedShot, shotIn .held] .clear).shots[(0 : Byte).toNat]? = some storedShot
    ∧ (withShots [storedShot, shotIn .held] .clear).shots[(1 : Byte).toNat]? = some (shotIn .held)
    ∧ 63 < (64 : Byte).toNat ∧ (63 : Byte).toNat ≤ 63 ∧ 0 < (1 : Byte).toNat
    ∧ (63 : Byte).toNat + (1 : Byte).toNat ≤ 64 ∧ 64 < (63 : Byte).toNat + (2 : Byte).toNat
    ∧ storedShot.state = .stored ∧ (shotIn .held).state ≠ .stored
    ∧ (shotIn .held).state ≠ .partialStored
    ∧ min ((0 : Byte).toNat + (64 : Byte).toNat) storedShot.segmentsStored - (0 : Byte).toNat = 2
    ∧ min ((63 : Byte).toNat + (1 : Byte).toNat) storedShot.segmentsStored - (63 : Byte).toNat = 0 := by
  refine ⟨base_ready, by decide, rfl, ready_of rfl, rfl, ?_⟩
  decide

/-! ## The same: tracks and passages -/

theorem test_hyps_HeadLevels :
    (base.tracksSound ∧ base.tracks[(0 : Track)] = ⟨.disarmed, .allHealthy, [], [], none⟩
      ∧ HeadHealth.allHealthy.get .b1 = .healthy)
    ∧ ((onTrack .ignoring [] (some 5) 0).tracksSound
      ∧ (onTrack .ignoring [] (some 5) 0).tracks[(0 : Track)].state = .ignoring)
    ∧ ((onTrack .vacant [] none 0).tracksSound
      ∧ (onTrack .vacant [] none 0).tracks[(0 : Track)].state = .vacant)
    ∧ ((faultyTrack .headFault).tracksSound
      ∧ (faultyTrack .headFault).tracks[(0 : Track)] = ⟨.headFault, faulty, [], [], none⟩
      ∧ faulty.get .a2 = .fault ∧ faulty.get .a1 = .healthy ∧ faulty.set .a2 .healthy = .allHealthy
      ∧ (faulty.set .b2 .fault).get .a2 = .fault
      ∧ (faulty.set .b2 .fault).set .a2 .healthy ≠ .allHealthy) :=
  ⟨⟨(tracksSound_iff _).2 (by decide), rfl, rfl⟩, ⟨(tracksSound_iff _).2 (by decide), rfl⟩,
    ⟨(tracksSound_iff _).2 (by decide), rfl⟩, ⟨(tracksSound_iff _).2 (by decide), rfl, by decide⟩⟩

/-- An open passage with no shot, and one with a shot FROZEN; in TAIL too. -/
theorem test_hyps_HeadFaultAbandonsOpenPassage :
    ((withPassage passageA .occupied [⟨0, 2000000⟩] 0).tracksInv
      ∧ (withPassage passageA .occupied [⟨0, 2000000⟩] 0).tracks[(0 : Track)].health.get .b1 = .healthy
      ∧ (withPassage passageA .occupied [⟨0, 2000000⟩] 0).tracks[(0 : Track)].state = .occupied
      ∧ passageA ∈ (withPassage passageA .occupied [⟨0, 2000000⟩] 0).table.passages
      ∧ passageA.track = 0 ∧ passageA.state = .approaching)
    ∧ (withPassage inTail .occupied [] 500).tracksInv ∧ inTail.state = .tail
    ∧ (withPassage (withShots [shotIn .frozen, shotIn .reading] .approaching) .occupied [] 0).tracksInv :=
  ⟨⟨occupied_inv, by decide⟩, tail_inv, rfl, (tracksInv_iff _).2 (by decide)⟩

theorem test_hyps_TrackTimers :
    ((onTrack .ignoring [] (some 5) 5).tracksInv
      ∧ (onTrack .ignoring [] (some 5) 5).tracks[(0 : Track)].quiet = some 5
      ∧ 5 ≤ (onTrack .ignoring [] (some 5) 5).clock.elapsed
      ∧ (onTrack .ignoring [] (some 5) 4).clock.elapsed < 5)
    ∧ (base.tracksInv ∧ base.tracks[(0 : Track)].quiet = none
      ∧ base.tracks[(0 : Track)].fifo .sideB = [])
    ∧ ((withPassage passageA .occupied [⟨0, 2000000⟩] 2000000).tracksInv
      ∧ (withPassage passageA .occupied [⟨0, 2000000⟩] 2000000).tracks[(0 : Track)].fifo .sideA
        = ⟨0, 2000000⟩ :: []
      ∧ 2000000 ≤ (withPassage passageA .occupied [⟨0, 2000000⟩] 2000000).clock.elapsed
      ∧ (withPassage passageA .occupied [⟨0, 2000000⟩] 1999999).clock.elapsed < 2000000
      ∧ passageA ∈ (withPassage passageA .occupied [⟨0, 2000000⟩] 2000000).table.passages) :=
  ⟨⟨(tracksInv_iff _).2 (by decide), by decide⟩, ⟨base_inv.2.1, by decide⟩,
    (tracksInv_iff _).2 (by decide), by decide⟩

/-- Eight live passages, none of them open. -/
def eight : List Passage :=
  (List.range 8).map (fun n => { passageA with number := n + 1, state := .filed })

def eightLive (st : TrackState) : State := { onTrack st [] none 0 with table := ⟨eight, 9⟩ }

theorem test_hyps_CrossingOffOccupied :
    ((onTrack .disarmed [] none 0).tracksSound ∧ (onTrack .headFault [] none 0).tracksSound
      ∧ (onTrack .ignoring [] (some 5) 0).tracksSound ∧ (onTrack .vacant [] none 0).tracksSound)
    ∧ ((onTrack .vacant [] none 0).table.passages.length < 8
      ∧ (onTrack .vacant [] none 0).banks.active? = some 0)
    ∧ ((eightLive .vacant).tracksSound ∧ 8 ≤ (eightLive .vacant).table.passages.length)
    ∧ (({ eightLive .vacant with table := ⟨eight.take 7, 9⟩ } : State).table.passages.length < 8) :=
  ⟨⟨(tracksSound_iff _).2 (by decide), (tracksSound_iff _).2 (by decide),
      (tracksSound_iff _).2 (by decide), (tracksSound_iff _).2 (by decide)⟩, by decide,
    ⟨(tracksSound_iff _).2 (by decide), by decide⟩, by decide⟩

/-- Seven live passages, the counter at a number that one of them holds, and at 65,535. -/
def sevenLive (next : Nat) : State := { base with table := ⟨eight.take 7, next⟩ }

theorem test_hyps_CrossingOffOccupied_numbers :
    ∀ next, 1 ≤ next ∧ next ≤ 65535 →
      (sevenLive next).numbered ∧ (sevenLive next).table.passages.length < 8 := by
  intro next h
  exact ⟨⟨(by decide : (eight.take 7).length ≤ 8),
      (by decide : ((eight.take 7).map (·.number)).Nodup),
      (by decide : ∀ p ∈ eight.take 7, 1 ≤ p.number ∧ p.number ≤ 65535), h⟩,
    (by decide : (eight.take 7).length < 8)⟩

def entries (n : Nat) : List PairEntry := List.replicate n ⟨0, 2000000⟩

/-- A passage travelling BA on track 1. -/
def passageB : Passage := { passageA with direction := .ba }

theorem test_hyps_CrossingOnOccupied :
    ((withPassage passageA .occupied (entries 3) 0).tracksInv
      ∧ ((withPassage passageA .occupied (entries 3) 0).tracks[(0 : Track)].fifo .sideA).length < 4)
    ∧ ((withPassage passageA .occupied (entries 4) 0).tracksInv
      ∧ ((withPassage passageA .occupied (entries 4) 0).tracks[(0 : Track)].fifo .sideA).length = 4)
    ∧ ((withPassage passageB .occupied [] 0).tracksInv
      ∧ (withPassage passageB .occupied [] 0).tracks[(0 : Track)].fifo .sideB = []
      ∧ passageB ∈ (withPassage passageB .occupied [] 0).table.passages ∧ passageB.direction = .ba)
    ∧ (passageA.direction = .ab ∧ passageA.state = .approaching
      ∧ 0 + 1 = min 65535 (passageA.exitCount + 1))
    ∧ ((withPassage { inTail with axleTotal := 3 } .occupied [] 500).tracksInv
      ∧ min 65535 (({ inTail with axleTotal := 3 } : Passage).exitCount + 1) < 3) :=
  ⟨⟨(tracksInv_iff _).2 (by decide), by decide⟩, ⟨(tracksInv_iff _).2 (by decide), by decide⟩,
    ⟨(tracksInv_iff _).2 (by decide), by decide⟩, by decide, (tracksInv_iff _).2 (by decide), by decide⟩

/-- Transits of no length, just implausible and just plausible, with 127 and 128 stored axles and in TAIL. -/
theorem test_hyps_PairedCrossingMakesAxle :
    ((withPassage passageA .occupied (entries 2) 13334).tracksInv
      ∧ (withPassage passageA .occupied (entries 2) 13334).tracks[(0 : Track)].fifo .sideA
        = ⟨0, 2000000⟩ :: entries 1
      ∧ ((withPassage passageA .occupied (entries 2) 13334).trackEntry passageA).headSpacingA.toNat = 2000
      ∧ 0 < timeDiff 13334 0 ∧ 2000 * 1000000 / (timeDiff 13334 0).toNat ≤ 150000
      ∧ 150000 < 2000 * 1000000 / (timeDiff 13333 0).toNat ∧ timeDiff 0 0 ≤ 0 ∧ passageA.axles = [])
    ∧ (∀ n, n = 127 ∨ n = 128 →
      (withPassage { passageA with axles := List.replicate n ⟨0, some 80000, true, .absent⟩ } .occupied
        (entries 1) 13334).tracksInv
      ∧ (List.replicate n (⟨0, some 80000, true, .absent⟩ : Axle)).getLast?
        = some ⟨0, some 80000, true, .absent⟩)
    ∧ ((withPassage inTail .occupied (entries 1) 13334).tracksInv ∧ inTail.state = .tail)
    ∧ ((withPassage inTail .occupied (entries 1) 13334).trackEntry inTail).headSpacingB.toNat = 2400 := by
  refine ⟨⟨(tracksInv_iff _).2 (by decide), by decide +kernel⟩, ?_, ⟨(tracksInv_iff _).2 (by decide), rfl⟩,
    by decide +kernel⟩
  rintro n (rfl | rfl)
  · exact ⟨(tracksInv_iff _).2 (by decide), by decide⟩
  · exact ⟨(tracksInv_iff _).2 (by decide), by decide⟩

theorem test_hyps_TailDeclaration :
    (let p : Passage := { passageA with axleTotal := 2, exitCount := 1, tailWindow := some 7 };
      (withPassage p .occupied [] 7).tracksInv ∧ p ∈ (withPassage p .occupied [] 7).table.passages
      ∧ p.state = .approaching ∧ p.tailWindow = some 7 ∧ 7 ≤ (withPassage p .occupied [] 7).clock.elapsed
      ∧ (withPassage p .occupied [] 6).clock.elapsed < 7 ∧ p.exitCount < p.axleTotal
      ∧ p.cursor ≤ p.axles.length ∧ p.axles.length ≤ 128
      ∧ (withPassage p .occupied [] 7).banks.slots[p.bank].contents = bankA cameraA 0)
    ∧ (∀ k : Fin 64, ((bankA cameraA 0).profiles[k]).present = true →
        2 ≤ ((bankA cameraA 0).profiles[k]).axleCount.toNat)
    ∧ (let p : Passage := { passageA with axleTotal := 2, exitCount := 2, tailWindow := some 7 };
      (withPassage p .occupied [] 7).tracksInv ∧ p.axleTotal ≤ p.exitCount)
    ∧ ((withPassage inTail .occupied [] 500).tracksInv ∧ inTail.state ≠ .approaching) :=
  ⟨⟨(tracksInv_iff _).2 (by decide), by decide, by decide, by decide, by decide, by decide, by decide,
      by decide, by decide, rfl⟩, by decide +kernel, ⟨(tracksInv_iff _).2 (by decide), by decide⟩, tail_inv,
    by decide⟩

/-- The last exit crossing, one too many, and the exit timeout; shots terminal or not; bank DRAINING. -/
theorem test_hyps_Clearance :
    ((withPassage inTail .occupied [] 500).tracksInv ∧ inTail.state = .tail ∧ inTail.direction = .ab
      ∧ inTail.axleTotal ≤ min 65535 (inTail.exitCount + 1)
      ∧ inTail.exitTimeout = some 500 ∧ 500 ≤ (withPassage inTail .occupied [] 500).clock.elapsed
      ∧ (withPassage inTail .occupied [] 499).clock.elapsed < 500
      ∧ inTail.shots.all (fun k => k.state.terminal) = true)
    ∧ (let p : Passage := { inTail with axleTotal := 1, shots := [shotIn .reading], direction := .ba };
      (withPassage p .occupied [] 500).tracksInv ∧ p.axleTotal < min 65535 (p.exitCount + 1)
      ∧ p.shots.all (fun k => k.state.terminal) = false)
    ∧ ((withPassage inTail .occupied [] 500).banks.slots[inTail.bank].state ≠ .draining
      ∧ ({ withPassage inTail .occupied [] 500 with banks := (inBanks .draining .active 0 none).banks }
        : State).banks.slots[inTail.bank].state = .draining
      ∧ ∀ r ∈ (withPassage inTail .occupied [] 500).table.passages, r.number ≠ inTail.number →
        r.bank = inTail.bank → r.state ≠ .approaching ∧ r.state ≠ .tail) :=
  ⟨⟨tail_inv, by decide⟩, ⟨(tracksInv_iff _).2 (by decide), by decide⟩, by decide⟩

/-- A passage in TAIL alone on its DRAINING bank, or beside another open one on track 2. -/
def draining (others : List Passage) : State :=
  { withPassage inTail .occupied [] 500 with
    banks := (inBanks .draining .active 0 none).banks, table := ⟨inTail :: others, 3⟩ }

/-- A bank that drains, one that another passage keeps DRAINING, and one that is ACTIVE (`LeftOpen`; R172). -/
theorem test_hyps_LeftOpen :
    (draining []).drainsWith inTail
    ∧ ¬ (draining [{ passageA with number := 2, track := 1 }]).drainsWith inTail
    ∧ ¬ (withPassage inTail .occupied [] 500).drainsWith inTail := by
  refine ⟨⟨rfl, by decide⟩, fun h => ?_, fun h => nomatch h.1⟩
  exact (h.2 _ (List.mem_cons_of_mem _ List.mem_cons_self) (by decide) rfl).1 rfl

/-- The exit timeout drains the bank: its state, and the notices in their order (R41, R172). -/
theorem test_exitTimeout_drains :
    let u := (draining []).clearShort inTail
    u.banks.slots[(0 : BankNo)].state = .standby
    ∧ u.link.notices.map (·.notice) = [.trackState 0 .occupied .ignoring .allHealthy, .bankDrained 0 1 1,
        .passageFiled 1 0 .ab 2 0 0 ⟨0, 0, 0, 0, 0, 0, 0⟩ (some .exitShort)] := by decide +kernel

theorem test_hyps_SettlementCheck (st : PassageState) :
    (withPassage (withShots [shotIn .stored] st) .vacant [] 0).passage? 1
        = some (withShots [shotIn .stored] st)
    ∧ (withShots [shotIn .stored] st).shots.all (fun k => k.state.terminal) = true
    ∧ (withPassage (withShots [shotIn .held] st) .vacant [] 0).passage? 1
        = some (withShots [shotIn .held] st)
    ∧ (withShots [shotIn .held] st).shots.all (fun k => k.state.terminal) = false := ⟨rfl, rfl, rfl, rfl⟩

/-! ## The same: shots and outputs -/

/-- A shot of camera 0 due at 1,000 in the queue, its line IN_SERVICE, its strobe bank by this entry. -/
def due (strobe policy : Byte) (bank : StrobeBank) (line : CameraLine) (busy : Option Nat)
    (reserved elapsed : Nat) (allowed : Bool) : State :=
  { withPassage (withShots [{ shotIn .frozen with timing := some ⟨0, 20000, 36, allowed, 50, 60⟩ }] .clear)
      .vacant [] elapsed with
    shotQueue := [⟨1, 0⟩]
    lines := setAt base.lines 0 line
    fire := setAt base.fire 0 ⟨none, busy⟩
    strobes := setAt base.strobes 0 bank
    memory := { FrameMemory.powerUp with reservations := [⟨⟨9, 0⟩, reserved⟩] }
    banks := ⟨#v[⟨.active, bankA { cameraA with strobe := strobe } policy⟩, ⟨.empty, .empty⟩], 0, none⟩ }

def dueShot (allowed : Bool) : Shot :=
  { shotIn .frozen with timing := some ⟨0, 20000, 36, allowed, 50, 60⟩ }

def flashAt900 : StrobeBank := ⟨some 21000, some ⟨900, ⟨1, 7⟩, 100, 900⟩, none⟩
def oneSlot : CameraLine := { lineIn .inService with slots := #v[some ⟨1, 9⟩, none] }
def noSlot : CameraLine := { lineIn .inService with slots := #v[some ⟨1, 9⟩, some ⟨1, 8⟩] }

/-- READY; joined at the window's end; unlit one microsecond later; no strobe; the second slot. -/
theorem test_hyps_DueShotFires :
    State.reset.firstDue = none
    ∧ ((due 0 0 ⟨none, none, none⟩ oneSlot none 8190 1000 true).firstDue = some ⟨1, 0⟩
      ∧ (due 0 0 ⟨none, none, none⟩ oneSlot none 8190 999 true).firstDue = none
      ∧ ((due 0 0 ⟨none, none, none⟩ oneSlot none 8190 1000 true).passage? 1).isSome = true
      ∧ (due 0 0 ⟨none, none, none⟩ oneSlot none 8190 1000 true).shot? ⟨1, 0⟩ = some (dueShot true)
      ∧ (due 0 0 ⟨none, none, none⟩ oneSlot none 8190 1000 true).lines[(0 : Camera)].state = .inService
      ∧ (due 0 0 ⟨none, none, none⟩ oneSlot none 8190 1000 true).fire[(0 : Camera)].busy = none
      ∧ (due 0 0 ⟨none, none, none⟩ oneSlot none 8190 1000 true).lines[(0 : Camera)].slots[(1 : SlotNo)]
        = none
      ∧ (due 0 0 ⟨none, none, none⟩ oneSlot none 8190 1000 true).lines[(0 : Camera)].slots[(0 : SlotNo)]
        ≠ none
      ∧ (dueShot true).segmentsExpected = 2
      ∧ (due 0 0 ⟨none, none, none⟩ oneSlot none 8190 1000 true).memory.reservedCount + 2
        ≤ (due 0 0 ⟨none, none, none⟩ oneSlot none 8190 1000 true).memory.freeCount)
    ∧ (3 < (0xFF : Byte).toNat ∧ (due 0xFF 0 ⟨none, none, none⟩ oneSlot none 0 1000 true).firstDue
        = some ⟨1, 0⟩)
    ∧ ((due 0 0 flashAt900 (lineIn .inService) none 0 1000 true).firstDue = some ⟨1, 0⟩
      ∧ (due 0 0 flashAt900 (lineIn .inService) none 0 1000 true).strobes[(0 : StrobeNo)] = flashAt900
      ∧ flashAt900.recharge ≠ none ∧ 1000 - 900 ≤ 100 ∧ 100 < 1001 - 900
      ∧ (due 0 0 flashAt900 (lineIn .inService) none 0 1001 true).firstDue = some ⟨1, 0⟩
      ∧ ((due 0 0 flashAt900 (lineIn .inService) none 0 1001 true).banks.slots[(0 :
          BankNo)].contents.strobes[(0 : StrobeNo)]).policy = 0) := by decide +kernel

/-- Each of the six reasons. -/
theorem test_hyps_DueShotIsSkipped :
    ((due 0 0 ⟨none, none, none⟩ oneSlot none 0 1000 false).firstDue = some ⟨1, 0⟩
      ∧ (due 0 0 ⟨none, none, none⟩ oneSlot none 0 1000 false).shot? ⟨1, 0⟩ = some (dueShot false))
    ∧ ((due 0 0 ⟨none, none, none⟩ (lineIn .outOfService) none 0 1000 true).firstDue = some ⟨1, 0⟩
      ∧ (due 0 0 ⟨none, none, none⟩ (lineIn .outOfService) none 0 1000 true).lines[(0 : Camera)].state
        ≠ .inService)
    ∧ ((due 0 0 ⟨none, none, none⟩ oneSlot (some 1001) 0 1000 true).firstDue = some ⟨1, 0⟩
      ∧ (due 0 0 ⟨none, none, none⟩ oneSlot (some 1001) 0 1000 true).fire[(0 : Camera)].busy ≠ none)
    ∧ ((due 0 0 ⟨none, none, none⟩ noSlot none 0 1000 true).firstDue = some ⟨1, 0⟩
      ∧ ∀ slot : SlotNo, (due 0 0 ⟨none, none, none⟩ noSlot none 0 1000 true).lines[(0 :
          Camera)].slots[slot] ≠ none)
    ∧ ((due 0 0 ⟨none, none, none⟩ oneSlot none 8191 1000 true).firstDue = some ⟨1, 0⟩
      ∧ (due 0 0 ⟨none, none, none⟩ oneSlot none 8191 1000 true).memory.freeCount
        < (due 0 0 ⟨none, none, none⟩ oneSlot none 8191 1000 true).memory.reservedCount + 2)
    ∧ ((due 0 1 flashAt900 oneSlot none 0 1001 true).firstDue = some ⟨1, 0⟩
      ∧ ((due 0 1 flashAt900 oneSlot none 0 1001 true).banks.slots[(0 :
          BankNo)].contents.strobes[(0 : StrobeNo)]).policy = 1
      ∧ 100 < 1001 - 900) := by decide +kernel

/-- A shot 2,000 µs and 2,001 µs ahead, intervals at their end and one microsecond before. -/
def running : State :=
  { due 0 0 ⟨some 900, none, some 900⟩ oneSlot (some 900) 0 900 true with
    fire := setAt base.fire 0 ⟨some 900, some 900⟩ }

theorem test_hyps_ShotFreezesAndIntervalsEnd :
    ((withPassage (withShots [shotIn .planned] .clear) .vacant [] 0).shot? ⟨1, 0⟩ = some (shotIn .planned)
      ∧ (shotIn .planned).plannedFire = some 1000
      ∧ timeDiff 1000 (BitVec.ofInt 48 (-1000)) ≤ 2000 ∧ 2000 < timeDiff 1000 (BitVec.ofInt 48 (-1001))
      ∧ (shotIn .frozen).state ≠ .planned)
    ∧ (running.fire[(0 : Camera)].busy = some 900 ∧ running.fire[(0 : Camera)].trigger = some 900
      ∧ running.strobes[(0 : StrobeNo)].output = some 900
      ∧ running.strobes[(0 : StrobeNo)].recharge = some 900 ∧ 900 ≤ running.clock.elapsed
      ∧ ({ running with clock := ⟨899, 0, 899⟩ } : State).clock.elapsed < 900)
    ∧ (base.fire[(0 : Camera)].busy = none ∧ base.fire[(0 : Camera)].trigger = none
      ∧ base.strobes[(0 : StrobeNo)].output = none ∧ base.strobes[(0 : StrobeNo)].recharge = none) := by
  decide +kernel

/-- A passage with an axle of 10 mm/s or 80,000 mm/s at gantry time 0. -/
def timed (v : Nat) : Passage := { passageA with axles := [⟨0, some v, true, .absent⟩] }

/-- Shots that are planned, frozen and late, with and without room in the queue, and 48 shots. -/
theorem test_hyps_NewShotIsPlaced :
    ((withPassage (timed 80000) .occupied [] 0).numbered
      ∧ (withPassage (timed 80000) .occupied [] 0).shotQueue.length < 64
      ∧ ((withPassage (timed 80000) .occupied [] 0).timeShot (timed 80000) (Shot.new 0 0 0 0 0 2)).2
        = .planned)
    ∧ ((withPassage (timed 80000) .occupied [] 1249000).timeShot (timed 80000)
        (Shot.new 0 0 0 0 0 2)).2 = .frozen
    ∧ ((withPassage (timed 80000) .occupied [] 9000000).timeShot (timed 80000)
        (Shot.new 0 0 0 0 0 2)).2 = .late
    ∧ 64 ≤ (List.replicate 64 (⟨9, 0⟩ : ShotRef)).length
    ∧ 48 ≤ ({ timed 80000 with shots := List.replicate 48 (shotIn .stored) } : Passage).shots.length
    ∧ ({ timed 80000 with shots := List.replicate 47 (shotIn .stored) } : Passage).shots.length < 48 := by
  refine ⟨⟨((tracksInv_iff (withPassage (timed 80000) .occupied [] 0)).2 (by decide)).2.1, ?_⟩, ?_⟩
  all_goals decide +kernel

theorem test_hyps_Figures :
    (50000 ≤ 60000 * 1000000 / 80000 ∧ 60000 * 1000000 / 80000 ≤ 10000000)
    ∧ (20000 * 1000000 / 500000 < 50000) ∧ (10000000 < 200000 * 1000000 / 500)
    ∧ (timed 80000).axles.getLast? = some ⟨0, some 80000, true, .absent⟩
    ∧ (144 : Fin 256).val = speedBand 80000 := by decide

/-! ## The same: readout -/

/-- Line 0 reading segment `seg` of shot 0 of passage 1 on channel 0 with page 5. -/
def readingState (seg : Nat) (release : Bool) (st : LineState) (mark : Bool) (step : ChannelStep)
    (attempts stored : Nat) (pst : PassageState) (retries : Bool) (elapsed : Nat) : State :=
  { withPassage (withShots [{ shotIn .reading with segmentsStored := stored }] pst) .vacant [] elapsed with
    lines := setAt base.lines 0 ⟨st, #v[some ⟨1, 0⟩, none], .none, some ⟨.read 0 seg release, 0 + 50000, false⟩, 0,
      mark, none⟩
    readout := ⟨[], #v[some ⟨⟨1, 0⟩, seg, attempts, step, some 5⟩, none, none, none]⟩
    memory := { FrameMemory.powerUp with
      pages := [(5, ⟨.held owner1, none, none⟩)], reservations := [⟨⟨1, 0⟩, 1⟩] }
    banks := ⟨#v[⟨.active, bankA { cameraA with retries := retries } 0⟩, ⟨.empty, .empty⟩], 0, none⟩ }

/-- The hypotheses on the line, the channel, the shot and the page, whatever the rest is. -/
theorem reading_hyps (seg : Nat) (release : Bool) (st : LineState) (mark : Bool) (step : ChannelStep)
    (attempts stored : Nat) (pst : PassageState) (retries : Bool) (elapsed : Nat) :
    let s := readingState seg release st mark step attempts stored pst retries elapsed
    s.lines[(0 : Camera)].outstanding = some ⟨.read 0 seg release, 0 + 50000, false⟩
    ∧ s.lines[(0 : Camera)].orders = .none ∧ s.lines[(0 : Camera)].linking = none
    ∧ s.serving? 0 = some (0, ⟨⟨1, 0⟩, seg, attempts, step, some 5⟩)
    ∧ s.shot? ⟨1, 0⟩ = some { shotIn .reading with segmentsStored := stored }
    ∧ s.passage? 1 = some (withShots [{ shotIn .reading with segmentsStored := stored }] pst)
    ∧ (s.memory.page 5).physical 5 = some 5
    ∧ s.lines[(0 : Camera)].slotOf ⟨1, 0⟩ = some 0
    ∧ s.lines[(0 : Camera)].state = st ∧ s.lines[(0 : Camera)].disableMark = mark
    ∧ (s.banks.slots[(0 : BankNo)].contents.cameras[(0 : Camera)]).retries = retries
    ∧ (s.banks.slots[(0 : BankNo)].contents.cameras[(0 : Camera)]).disableSet = 0x80
    ∧ s.memory.lowestFree = some 0 :=
  ⟨rfl, rfl, rfl, rfl, rfl, rfl, rfl, rfl, rfl, rfl, rfl, rfl, rfl⟩

/-! ## The same: every invariant at once -/

/-- A passage with a shot that is read and two that are queued for one time. -/
def threeShots : Passage := withShots [shotIn .reading, shotIn .frozen, shotIn .frozen] .clear

def reads : State :=
  { readingState 0 false .inService false .read 0 0 .clear true 0 with
    table := ⟨[threeShots], 2⟩, shotQueue := [⟨1, 1⟩, ⟨1, 2⟩] }

theorem reads_shot {r : ShotRef} {k : Shot} (h : reads.shot? r = some k) :
    (r = ⟨1, 0⟩ ∧ k = shotIn .reading) ∨ ((r = ⟨1, 1⟩ ∨ r = ⟨1, 2⟩) ∧ k = shotIn .frozen) := by
  obtain ⟨n, i⟩ := r
  by_cases hn : n = 1
  · subst hn
    rcases i with _ | _ | _ | i
    · exact .inl ⟨rfl, (Option.some.inj h).symm⟩
    · exact .inr ⟨.inl rfl, (Option.some.inj h).symm⟩
    · exact .inr ⟨.inr rfl, (Option.some.inj h).symm⟩
    · exact nomatch (show (none : Option Shot) = some k from h)
  · have : reads.passage? n = none := by
      unfold State.passage?
      rw [show reads.table.passages = [threeShots] from rfl,
        List.find?_cons_of_neg (by simpa [threeShots, withShots, passageA, Passage.new] using Ne.symm hn)]
      rfl
    unfold State.shot? at h
    rw [this] at h
    cases h

theorem reads_state {r : ShotRef} {st : ShotState} (h : reads.shotState r = some st) :
    (r = ⟨1, 0⟩ ∧ st = .reading) ∨ ((r = ⟨1, 1⟩ ∨ r = ⟨1, 2⟩) ∧ st = .frozen) := by
  unfold State.shotState at h
  cases hk : reads.shot? r with
  | none => rw [hk] at h; cases h
  | some k =>
    rw [hk] at h
    rcases reads_shot hk with ⟨rfl, rfl⟩ | ⟨hr, rfl⟩
    · exact .inl ⟨rfl, (Option.some.inj h).symm⟩
    · exact .inr ⟨hr, (Option.some.inj h).symm⟩

theorem reads_reading {r : ShotRef} (h : reads.shotState r = some .reading) : r = ⟨1, 0⟩ := by
  rcases reads_state h with ⟨hr, -⟩ | ⟨-, h⟩
  · exact hr
  · cases h

theorem reads_channel {ch : ChannelNo} {w : ChannelWork} (h : reads.readout.channels[ch] = some w) :
    ch = 0 ∧ w = ⟨⟨1, 0⟩, 0, 0, .read, some 5⟩ := by
  match ch, h with
  | 0, h => exact ⟨rfl, (Option.some.inj h).symm⟩
  | 1, h | 2, h | 3, h => exact nomatch (show (none : Option ChannelWork) = some w from h)

theorem reads_slot {c : Camera} {slot : SlotNo} {r : ShotRef}
    (h : reads.lines[c].slots[slot] = some r) : c = 0 ∧ slot = 0 ∧ r = ⟨1, 0⟩ := by
  have : ∀ (c : Camera) (slot : SlotNo), reads.lines[c].slots[slot] = none
      ∨ (c = 0 ∧ slot = 0 ∧ reads.lines[c].slots[slot] = some ⟨1, 0⟩) := by decide +kernel
  rcases this c slot with h' | ⟨rfl, rfl, h'⟩
  · rw [h'] at h; cases h
  · rw [h'] at h; exact ⟨rfl, rfl, (Option.some.inj h).symm⟩

theorem reads_wanted {c : Camera} {o : ReadOrder} (h : reads.lines[c].readWanted = some o) :
    c = 0 ∧ o = ⟨0, 0, false⟩ := by
  have : ∀ c : Camera, reads.lines[c].readWanted = none
      ∨ (c = 0 ∧ reads.lines[c].readWanted = some ⟨0, 0, false⟩) := by decide +kernel
  rcases this c with h' | ⟨rfl, h'⟩
  · rw [h'] at h; cases h
  · rw [h'] at h; exact ⟨rfl, (Option.some.inj h).symm⟩

theorem reads_not_held (r : ShotRef) : ¬ reads.waits r := by
  rintro ⟨h, -⟩
  rcases reads_state h with ⟨-, h⟩ | ⟨-, h⟩ <;> cases h

theorem reads_inv : reads.inv := by
  refine ⟨by decide +kernel, (tracksInv_iff _).2 (by decide +kernel), ?_, (Banks.sound_iff _).2 (by decide),
    reset_inv.2.2.2.2⟩
  intro p hp
  rw [show reads.table.passages = [threeShots] from rfl, List.mem_singleton] at hp
  subst hp
  unfold Passage.sound
  decide +kernel

theorem reads_bindings : reads.bindings := by
  refine ⟨?_, ?_, ?_⟩ <;> decide +kernel

theorem reads_spares : reads.memory.sparesSound := by
  have : ∀ k, (reads.memory.page k).spare = none ∧ (reads.memory.page k).condition ≠ .outOfService := by
    intro k
    unfold FrameMemory.page sparseGet
    rw [show reads.memory.pages = [(5, ⟨.held owner1, none, none⟩)] from rfl]
    by_cases h : k = 5
    · subst h; exact ⟨rfl, by decide⟩
    · rw [List.lookup_cons, beq_eq_false_iff_ne.2 h]; exact ⟨rfl, nofun⟩
  refine ⟨fun j _ sp h => ?_, fun k sp h => ?_, fun k _ => (this k).1⟩
  · rw [(this j).1] at h; cases h
  · rw [(this k).1] at h; cases h

theorem reads_agree : reads.agree where
  settled := by
    intro n p h
    have : p = threeShots := by
      have := List.mem_of_find?_eq_some h
      exact List.mem_singleton.1 this
    subst this
    decide
  segments := by decide +kernel
  expected := by intro r k h; rcases reads_shot h with ⟨-, rfl⟩ | ⟨-, rfl⟩ <;> decide
  queued := by
    intro r
    rw [show reads.shotQueue = [⟨1, 1⟩, ⟨1, 2⟩] from rfl, List.mem_pair]
    refine ⟨fun h => ?_, fun h => ?_⟩
    · rcases h with rfl | rfl <;> exact .inr rfl
    · rcases h with h | h <;> rcases reads_state h with ⟨-, h⟩ | ⟨hr, h⟩
      · cases h
      · cases h
      · cases h
      · exact hr
  queuedOnce := by decide
  queuePlaces := by decide
  occupied := by
    intro c slot r h
    obtain ⟨rfl, rfl, rfl⟩ := reads_slot h
    exact ⟨_, rfl, rfl, .inr rfl⟩
  twoSlots := by
    intro c r _ h
    obtain ⟨-, h, -⟩ := reads_slot h
    exact nomatch h
  slotted := by
    intro r k h hk
    rcases reads_shot h with ⟨rfl, rfl⟩ | ⟨-, rfl⟩
    · exact ⟨0, rfl⟩
    · rcases hk with hk | hk <;> cases hk
  serves := by intro ch w h; obtain ⟨-, rfl⟩ := reads_channel h; rfl
  served := by intro r h; rw [reads_reading h]; exact ⟨0, _, rfl, rfl⟩
  onePerCamera := by
    intro i j v w hi hj _
    rw [(reads_channel hi).1, (reads_channel hj).1]
  waiting := fun r => ⟨fun h => (nomatch h), fun h => absurd h (reads_not_held r)⟩
  waitingOnce := List.nodup_nil
  reads := by
    intro c o h
    obtain ⟨rfl, rfl⟩ := reads_wanted h
    exact ⟨0, _, _, rfl, rfl, rfl, .inl rfl, rfl, rfl, by decide⟩
  readOnce := by decide +kernel
  discardOnce := by decide +kernel
  discards := by
    intro c slot h
    have : ∀ (c : Camera) (slot : SlotNo), reads.lines[c].discardWanted slot = false := by decide +kernel
    rw [this] at h; cases h
  linking := by decide +kernel
  restarted := by
    intro c slot h
    have : ∀ c : Camera, reads.lines[c].linking = none := by decide +kernel
    rw [this] at h
    rcases h with h | h | h <;> cases h
  pageNumbers := by decide +kernel
  stored := by intro r k h i pg hp; rcases reads_shot h with ⟨-, rfl⟩ | ⟨-, rfl⟩ <;> exact nomatch hp
  unread := by intro r k h _; rcases reads_shot h with ⟨-, rfl⟩ | ⟨-, rfl⟩ <;> rfl
  drawn := by
    intro ch w k h hk
    obtain ⟨-, rfl⟩ := reads_channel h
    cases (show some (shotIn .reading) = some k from hk)
    exact ⟨fun _ => ⟨5, rfl, rfl, rfl, by decide⟩, fun h => (nomatch h)⟩
  reservedOnce := by decide +kernel
  reservedFor := by
    intro e he
    rw [show reads.memory.reservations = [⟨⟨1, 0⟩, 1⟩] from rfl, List.mem_singleton] at he
    subst he
    exact ⟨_, rfl, .inr ⟨0, _, rfl, rfl, rfl, by decide, rfl⟩⟩
  reservedAll := by
    intro r k h
    refine ⟨fun h => absurd h (reads_not_held _), fun ch w hw hr _ => ?_⟩
    obtain ⟨-, rfl⟩ := reads_channel hw
    subst hr
    cases (show some (shotIn .reading) = some k from h)
    rfl
  reserved := by decide +kernel

theorem reads_tick : step reads = .next { reads with clock := ⟨1, 0, 1⟩ } := rfl

theorem reads_step : ∃ t, step reads = .next t := ⟨_, reads_tick⟩

/-- The queued fire times lie 1,000 µs ahead; the bound is met by 2^45 - 1. -/
theorem test_hyps_ShotQueueStaysInOrder :
    reads.inv ∧ reads.bindings ∧ reads.agree ∧ reads.queueInOrder ∧ reads.queueNear reads.clock.time
    ∧ (∃ t, step reads = .next t ∧ t.queueNear reads.clock.time)
    ∧ (timeDiff 0x1FFFFFFFFFFF 0).natAbs < 2 ^ 45 := by
  have near : ∀ r ∈ reads.shotQueue, (timeDiff (reads.fireTimeOf r) 0).natAbs < 2 ^ 45 := by decide +kernel
  exact ⟨reads_inv, reads_bindings, reads_agree, by unfold State.queueInOrder; decide +kernel, near,
    ⟨_, reads_tick, near⟩, by decide +kernel⟩

theorem test_hyps_TracksAndPassagesStayInAgreement : reads.tracksInv ∧ ∃ t, step reads = .next t :=
  ⟨reads_inv.2.1, reads_step⟩

theorem test_hyps_MemoryBanksAndLinkStaySound :
    reads.memory.wf ∧ reads.memory.sparesSound ∧ reads.tracksInv ∧ reads.banks.sound ∧ reads.bindings
    ∧ reads.link.sound ∧ ∃ t, step reads = .next t :=
  ⟨reads_inv.1, reads_spares, reads_inv.2.1, reads_inv.2.2.2.1, reads_bindings, reads_inv.2.2.2.2,
    reads_step⟩

theorem test_hyps_ShotsSlotsAndPagesStayInAgreement :
    reads.inv ∧ reads.bindings ∧ reads.agree ∧ ∃ t, step reads = .next t :=
  ⟨reads_inv, reads_bindings, reads_agree, reads_step⟩

/-- Release or not, marked or not, a flag in the disable set or not, in STOPPING or not. -/
theorem test_hyps_ReadSucceeds :
    (readingState 1 true .inService true .read 0 1 .clear true 0).memory.wf
    ∧ (readingState 1 true .inService true .read 0 1 .clear true 0).lines[(0 : Camera)].orders.read = none
    ∧ (List.replicate 65536 (0 : Byte)).length = 65536
    ∧ (0x81 : FlagSet) &&& 0x80 ≠ 0 ∧ (0x7F : FlagSet) &&& 0x80 = 0
    ∧ (∀ st, (true || (st = LineState.inService && ((0x7F : FlagSet) &&& 0x80) != 0)) = true)
    ∧ (false || (LineState.inService = .inService && ((0x81 : FlagSet) &&& 0x80) != 0)) = true
    ∧ (false || (LineState.outOfService = .inService && ((0x81 : FlagSet) &&& 0x80) != 0)) = false := by
  refine ⟨by decide, rfl, List.length_replicate, by decide, by decide, fun _ => rfl, by decide, by decide⟩

/-- Each outcome: FAILED, a check that is not right, and the timeout at its end; steps READ and FINAL. -/
theorem test_hyps_ReadFails :
    (∃ bytes check outcome, Instr.readComplete ⟨0, 0⟩ [] 1 .done 0 = .readComplete ⟨0, 0⟩ bytes check outcome 0
      ∧ (outcome = .failed ∨ crc32 bytes ≠ check))
    ∧ 0 + 50000 ≤ (readingState 0 false .inService false .read 3 0 .clear true 50000).clock.elapsed
    ∧ (shotIn .reading).state = .reading
    ∧ ((readingState 0 false .inService false .read 3 0 .clear false 50000).memory.page 5).mark = none
    ∧ (readingState 0 false .inService false .read 3 0 .clear false 50000).memory.wf
    ∧ (∀ st step, (readingState 0 false st false step 4 0 .clear true 0).lines[(0 : Camera)].slots[(0 :
        SlotNo)] = some ⟨1, 0⟩
      ∧ (readingState 0 false st false step 4 0 .clear true 0).lines[(0 : Camera)].slots[(1 : SlotNo)] = none
      ∧ (readingState 0 false st false step 4 0 .clear true 0).shotState ⟨1, 0⟩ = some .reading)
    ∧ ((some 5).bind (fun pg =>
        ((readingState 0 false .inService false .read 3 0 .clear true 0).memory.page pg).physical pg) = some 5)
    ∧ (none : Option Nat).bind (fun pg =>
        ((readingState 0 false .inService false .read 3 0 .clear true 0).memory.page pg).physical pg) = none :=
  ⟨⟨[], 1, .done, rfl, .inr (by decide +kernel)⟩, by decide, rfl, rfl, by decide,
    fun _ _ => ⟨rfl, rfl, rfl⟩, rfl, rfl⟩

/-- A final try that fails leaves the bytes that came in the page it was for. -/
theorem test_failedRead_bytes :
    ((readingState 0 false .inService false .final 4 0 .clear true 0).readAnswered 0 0 false [7, 9] 1 .failed 0
      ).memory.cells = [(5 * 65536, 7), (5 * 65536 + 1, 9)] := by decide +kernel

/-- A DISCARD for the shot of a channel, and one for a HELD shot. -/
def discarding (step : ChannelStep) (stored : Nat) (served : Bool) : State :=
  { readingState 0 false .inService false step 0 stored .stopping false 0 with
    lines := setAt base.lines 0 ⟨.inService, #v[some ⟨1, 0⟩, none], .none,
      some ⟨.discard 0, 0 + 50000, false⟩, 0, false, none⟩
    readout := ⟨[], #v[if served then some ⟨⟨1, 0⟩, 0, 0, step, none⟩ else none, none, none, none]⟩ }

/-- Line 0 in LINKING at a step, with this order outstanding that was issued at 0. -/
def linkingLine (o : Order) (step : Option LinkStep) (ignored : Bool) : CameraLine :=
  { lineIn .linking with outstanding := some ⟨o, 0 + orderTimeoutLength o, ignored⟩, linking := step }

theorem test_hyps_DiscardCompletes (step : ChannelStep) (stored : Nat) :
    (discarding step stored true).lines[(0 : Camera)].outstanding = some ⟨.discard 0, 0 + 50000, false⟩
    ∧ (discarding step stored true).lines[(0 : Camera)].linking = none
    ∧ (discarding step stored true).lines[(0 : Camera)].slots[(0 : SlotNo)] = some ⟨1, 0⟩
    ∧ (discarding step stored true).shot? ⟨1, 0⟩
        = some { shotIn .reading with segmentsStored := stored }
    ∧ (discarding step stored true).passage? 1
        = some (withShots [{ shotIn .reading with segmentsStored := stored }] .stopping)
    ∧ (discarding step stored true).serving? 0 = some (0, ⟨⟨1, 0⟩, 0, 0, step, none⟩)
    ∧ (discarding step stored false).serving? 0 = none
    ∧ (∀ slot ignored, base.lines[(0 : Camera)].outstanding ≠ some ⟨.discard slot, 0 + 50000, ignored⟩)
    ∧ ∀ slot ignored, (discarding step stored true).lines[(0 : Camera)].outstanding
        ≠ some ⟨.discard slot, 1 + 50000, ignored⟩ :=
  ⟨rfl, rfl, rfl, rfl, rfl, rfl, rfl, fun _ _ h => (by cases h), fun _ _ h => (by cases h)⟩

/-- The DISCARD of an occupied slot on a line in LINKING that still has the other slot to clear. -/
theorem test_hyps_DiscardCompletes_whileLinking (flags : FlagSet) :
    let l := { linkingLine (.discard 0) (some (.clearing flags false true)) false with
      slots := #v[some ⟨1, 0⟩, none] }
    l.linking ≠ some (.restartDiscard 0) ∧ l.slots[(0 : SlotNo)] = some ⟨1, 0⟩
    ∧ (∀ f c0 c1, l.linking = some (.clearing f c0 c1) →
        ((0 : SlotNo) = 0 ∧ c0 = false ∧ c1 = true) ∨ ((0 : SlotNo) = 1 ∧ c0 = true ∧ c1 = false)) :=
  ⟨nofun, rfl, fun _ _ _ h => by cases h; exact .inl ⟨rfl, rfl, rfl⟩⟩

/-- The restart sequence at either slot; after the linking SENSE, with the other slot still to clear or
none. -/
theorem test_hyps_DiscardCompletes_linking (slot : SlotNo) (step : LinkStep) :
    (onLine (linkingLine (.discard slot) (some step) false)).lines[(0 : Camera)].outstanding
        = some ⟨.discard slot, 0 + 50000, false⟩
    ∧ (onLine (linkingLine (.discard slot) (some step) false)).lines[(0 : Camera)].slots[slot] = none
    ∧ (onLine (linkingLine (.discard slot) (some step) false)).lines[(0 : Camera)].linking = some step
    ∧ (linkingLine (.discard slot) (some step) false).orders.discard1 = false
    ∧ (linkingLine (.discard slot) (some step) false).orders.relink = false
    ∧ ((true && (0 : SlotNo) != 1) = true ∧ (true && (0 : SlotNo) != 0) = false) := by
  refine ⟨rfl, ?_, rfl, rfl, rfl, by decide⟩
  match slot with
  | 0 | 1 => rfl

def sensing (l : CameraLine) : State :=
  { onLine l with link := { upLink with inProgress := some (.cameraSense 1 0) } }

/-- Line 0 at its linking RELINK, at its linking SENSE, and after a SENSE of the supervisor. -/
def relinking : State := onLine (linkingLine .relink (some .relink) false)
def linkSensing : State := onLine (linkingLine .sense (some .sense) false)
def asked : State := sensing (linkingLine .sense none false)

/-- The linking SENSE while a CAMERA SENSE shares it. -/
def sharedSense : State := sensing (linkingLine .sense (some .sense) false)

/-- A channel's shot whose line is at the RELINK of the segment loop. -/
def loopRelink (pst : PassageState) : State :=
  { readingState 0 false .inService false .relink 4 0 pst true 0 with
    lines := setAt base.lines 0 ⟨.inService, #v[some ⟨1, 0⟩, none], .none,
      some ⟨.relink, 0 + 500000, false⟩, 0, false, none⟩ }

theorem test_hyps_LinkingAndSenseAnswers :
    (relinking.lines[(0 : Camera)].outstanding = some ⟨.relink, 0 + 500000, false⟩
      ∧ relinking.lines[(0 : Camera)].linking = some .relink ∧ relinking.serving? 0 = none
      ∧ ∀ ch w, relinking.serving? 0 = some (ch, w) → w.step ≠ .relink)
    ∧ (∀ pst, (loopRelink pst).lines[(0 : Camera)].outstanding = some ⟨.relink, 0 + 500000, false⟩
      ∧ (loopRelink pst).lines[(0 : Camera)].linking = none
      ∧ (loopRelink pst).serving? 0 = some (0, ⟨⟨1, 0⟩, 0, 4, .relink, some 5⟩)
      ∧ (loopRelink pst).passage? 1 = some (withShots [shotIn .reading] pst)
      ∧ (loopRelink pst).shot? ⟨1, 0⟩ = some (shotIn .reading)
      ∧ (loopRelink pst).lines[(0 : Camera)].slotOf ⟨1, 0⟩ = some 0
      ∧ (loopRelink pst).lines[(0 : Camera)].orders.read = none)
    ∧ (linkSensing.lines[(0 : Camera)].outstanding = some ⟨.sense, 0 + 50000, false⟩
      ∧ linkSensing.lines[(0 : Camera)].linking = some .sense
      ∧ (∀ tag, linkSensing.link.inProgress ≠ some (.cameraSense tag 0))
      ∧ (linkSensing.activeCamera 0).fitted = true ∧ (0x7F : FlagSet) &&& 0x80 = 0
      ∧ (0x80 : FlagSet) &&& (linkSensing.activeCamera 0).disableSet ≠ 0
      ∧ (true && linkSensing.lines[(0 : Camera)].slots[(1 : SlotNo)].isNone) = true)
    ∧ (asked.link.inProgress = some (.cameraSense 1 0)
      ∧ asked.lines[(0 : Camera)].outstanding = some ⟨.sense, 0 + 50000, false⟩
      ∧ asked.lines[(0 : Camera)].linking = none)
    ∧ (sharedSense.link.inProgress = some (.cameraSense 1 0)
      ∧ sharedSense.lines[(0 : Camera)].outstanding = some ⟨.sense, 0 + 50000, false⟩
      ∧ sharedSense.lines[(0 : Camera)].linking = some .sense)
    ∧ (∀ ignored, base.lines[(0 : Camera)].outstanding ≠ some ⟨.relink, 0 + 500000, ignored⟩)
    ∧ (∀ ignored, asked.lines[(0 : Camera)].outstanding ≠ some ⟨.sense, 1 + 50000, ignored⟩) :=
  ⟨⟨rfl, rfl, rfl, fun _ _ h => (by cases h)⟩, fun _ => ⟨rfl, rfl, rfl, rfl, rfl, rfl, rfl⟩,
    ⟨rfl, rfl, fun _ h => (by cases h), rfl, rfl, by decide, rfl⟩, ⟨rfl, rfl, rfl⟩, ⟨rfl, rfl, rfl⟩,
    fun _ h => (by cases h), fun _ h => (by cases h)⟩

/-- A line with a READING shot that a channel serves and a HELD one, whose DISCARD times out at 50,000. -/
def goingDown : State :=
  { discarding .discard 1 true with
    clock := ⟨50000, 0, 50000⟩
    table := ⟨[withShots [{ shotIn .reading with segmentsStored := 1 }, shotIn .held] .stopping], 2⟩
    lines := setAt base.lines 0 ⟨.inService, #v[some ⟨1, 0⟩, some ⟨1, 1⟩], .none,
      some ⟨.discard 0, 0 + 50000, false⟩, 0, false, none⟩ }

theorem test_hyps_OrderTimesOut :
    base.lines[(0 : Camera)].outstanding = none
    ∧ (∀ slot segment release ignored, reads.lines[(0 : Camera)].outstanding
        ≠ some ⟨.read slot segment release, 1 + 50000, ignored⟩)
    ∧ (∀ o step ignored, (onLine (linkingLine o step ignored)).lines[(0 : Camera)].outstanding
        = some ⟨o, 0 + orderTimeoutLength o, ignored⟩)
    ∧ ({ relinking with clock := ⟨499999, 0, 499999⟩ } : State).clock.elapsed < 0 + 500000
    ∧ 0 + 500000 ≤ ({ relinking with clock := ⟨500000, 0, 500000⟩ } : State).clock.elapsed
    ∧ (goingDown.lines[(0 : Camera)].outstanding = some ⟨.discard 0, 0 + 50000, false⟩
      ∧ 0 + 50000 ≤ goingDown.clock.elapsed
      ∧ (∀ ch w, goingDown.serving? 0 = some (ch, w) → goingDown.shotState w.shot = some .reading
        ∧ ∃ slot : SlotNo, goingDown.lines[(0 : Camera)].slots[slot] = some w.shot)
      ∧ (∀ r, goingDown.lines[(0 : Camera)].slots[(0 : SlotNo)] = some r →
        goingDown.lines[(0 : Camera)].slots[(1 : SlotNo)] ≠ some r)
      ∧ (∀ (slot : SlotNo) (r : ShotRef), goingDown.lines[(0 : Camera)].slots[slot] = some r →
        goingDown.shotState r = some .held ∨ goingDown.shotState r = some .reading))
    ∧ (asked.link.inProgress = some (.cameraSense 1 0)
      ∧ asked.lines[(0 : Camera)].linking ≠ some .sense)
    ∧ ((onLine (linkingLine .sense none false)).lines[(0 : Camera)].outstanding
        = some ⟨.sense, 0 + 50000, false⟩
      ∧ (onLine (linkingLine .sense none false)).lines[(0 : Camera)].linking ≠ some .sense
      ∧ ∀ tag, (onLine (linkingLine .sense none false)).link.inProgress ≠ some (.cameraSense tag 0)) := by
  refine ⟨rfl, fun _ _ _ _ h => (by cases h), fun _ _ _ => rfl, by decide, by decide,
    ⟨rfl, by decide, ?_, ?_, ?_⟩, ⟨rfl, by decide⟩, rfl, by decide, nofun⟩
  · intro ch w h
    have : goingDown.serving? 0 = some (0, ⟨⟨1, 0⟩, 0, 0, .discard, none⟩) := rfl
    rw [this] at h; cases h
    exact ⟨rfl, 0, rfl⟩
  · intro r h h'
    have h : some (⟨1, 0⟩ : ShotRef) = some r := h
    cases h
    exact nomatch (show some (⟨1, 1⟩ : ShotRef) = some ⟨1, 0⟩ from h')
  · intro slot r h
    match slot with
    | 0 => cases (show some (⟨1, 0⟩ : ShotRef) = some r from h); exact .inr rfl
    | 1 => cases (show some (⟨1, 1⟩ : ShotRef) = some r from h); exact .inl rfl

/-- What the end of an order leads to: the sequence that waited, no pending order, and each order as the
first pending one. -/
theorem test_hyps_OrderTimesOut_next :
    (∀ b orders, (onLine { lineIn .linking with linking := some (.waiting b), orders := orders
        }).lines[(0 : Camera)] = { lineIn .linking with linking := some (.waiting b), orders := orders })
    ∧ (lineIn .linking).outstanding = none
    ∧ (⟨false, false, false, some ⟨0, 1, true⟩, true⟩ : PendingOrders).relink = false
    ∧ (∀ b, (lineIn .inService).linking ≠ some (.waiting b))
    ∧ (⟨true, true, true, none, true⟩ : PendingOrders).relink = true
    ∧ (⟨false, true, true, none, true⟩ : PendingOrders).discard0 = true
    ∧ (⟨false, false, true, none, true⟩ : PendingOrders).discard1 = true
    ∧ (⟨false, false, false, some ⟨0, 1, true⟩, true⟩ : PendingOrders).read = some ⟨0, 1, true⟩
    ∧ (⟨false, false, false, none, true⟩ : PendingOrders).sense = true :=
  ⟨fun _ _ => rfl, rfl, rfl, fun _ h => (by cases h), rfl, rfl, rfl, rfl, rfl⟩

/-! ## The same: frame memory and the link's line -/

/-- A marked page on its own page, with a usable preferred spare, without one, and with none left. -/
def marked (preferred : Option Nat) (bad : List Nat) : FrameMemory :=
  { FrameMemory.powerUp with
    pages := [(5, ⟨.held owner1, none, some ⟨preferred, true, false⟩⟩)], badSpares := bad }

def allSpares : List Nat := (List.range 128).map (8192 + ·)

/-- A page drawn for a shot with a reservation; a freed page with a usable preferred spare, with one that is
assigned elsewhere, without one, with none left, and on a spare with none left; marked by both. -/
theorem test_hyps_FrameMemoryPages :
    (FrameMemory.powerUp.wf ∧ FrameMemory.powerUp.lowestFree = some 0
      ∧ (FrameMemory.powerUp.page 0).mark = none
      ∧ (({ FrameMemory.powerUp with reservations := [⟨⟨1, 0⟩, 1⟩, ⟨⟨1, 1⟩, 64⟩] }
        : FrameMemory).reservations.map (·.shot)).Nodup)
    ∧ ((marked (some 8319) []).wf ∧ ((marked (some 8319) []).page 5).mark
        = some ⟨some 8319, true, false⟩ ∧ (marked (some 8319) []).usable 8319 = true)
    ∧ ((marked (some 8192) [8192]).wf ∧ (marked (some 8192) [8192]).usable 8192 = false
      ∧ (marked (some 8192) [8192]).lowestUsable = some 8193)
    ∧ ((marked none [8192]).wf ∧ (marked none [8192]).lowestUsable = some 8193)
    ∧ ((marked none allSpares).wf ∧ ((marked none allSpares).page 5).spare = none
      ∧ (marked none allSpares).lowestUsable = none)
    ∧ (({ marked none (allSpares.drop 1) with
          pages := [(5, ⟨.held owner1, some 8192, some ⟨none, true, true⟩⟩)] } : FrameMemory).wf
      ∧ ({ marked none (allSpares.drop 1) with
          pages := [(5, ⟨.held owner1, some 8192, some ⟨none, true, true⟩⟩)] }
            : FrameMemory).lowestUsable = none)
    ∧ (pageIn (.held owner1) (some 8200) []).memory.wf := by decide +kernel

/-- A fetch marks an unmarked page without a preferred spare, and leaves a mark of PAGE RETIRE, with a preferred
spare and without, as it was (R142). -/
theorem test_markByFetch :
    ((FrameMemory.powerUp.markByFetch 5).page 5).mark = some ⟨none, true, false⟩
    ∧ ∀ preferred ∈ [none, some 8200],
        (((FrameMemory.powerUp.markByRequest 5 preferred).markByFetch 5).page 5).mark
          = some ⟨preferred, false, true⟩ := by decide +kernel

/-- No page is free. -/
theorem test_hyps_no_free_page :
    ({ FrameMemory.powerUp with
      pages := (List.range 8192).map (fun k => (k, ⟨.outOfService, none, none⟩)) }
        : FrameMemory).lowestFree = none := by decide +kernel

theorem test_hyps_FrameMemoryWords :
    FrameMemory.powerUp.wf ∧ (List.replicate 8 (0xA5 : Byte)).length = 8
    ∧ 63 / 64 = 0 ∧ 0 / 64 = 0 ∧ (0 : Nat) ≠ 63 ∧ [0, 7, 8].Nodup ∧ 7 < 8 := by decide

theorem test_hyps_LineLock :
    base.link.up = true ∧ State.reset.link.up = false
    ∧ (∀ b, base.link.inProgress ≠ some (.restart b))
    ∧ (linked { upLink with inProgress := some (.restart true) }).link.inProgress = some (.restart true) :=
  ⟨rfl, rfl, fun _ h => (by cases h), rfl⟩

def chunk1 (final : Bool) : ImageChunk := ⟨1, ⟨1, 0⟩, 0, 15, 15, final, false, []⟩

theorem test_hyps_FrameIsSent :
    ((∃ b ∈ [545259520 * 8], 545259520 * 8 ≤ b) ∧ ∀ b ∈ [545259520 * 8 - 1], b < 545259520 * 8)
    ∧ base.link.sending = none
    ∧ (linked { upLink with sending := some .notice, notices := [notice1] }).link.notices = notice1 :: []
    ∧ (linked { upLink with sending := some .response, replies := [reply1] }).link.replies = reply1 :: []
    ∧ (linked { upLink with sending := some .response, replies := [reply1]
                            inProgress := fetching false 0 }).link.inProgress
        = some (.fetch ⟨1, ⟨1, 0⟩, 0, 1, 0, false⟩)
    ∧ (∀ final, (linked { upLink with sending := some (.chunk (chunk1 final)) }).link.sending
        = some (.chunk (chunk1 final)))
    ∧ (base.link.inProgress = none ∧ base.link.replies.any (fun r => !r.immediate) = false
      ∧ base.link.requests = [])
    ∧ (linked { upLink with requests := [⟨1, .timeGet⟩] }).link.requests = ⟨1, .timeGet⟩ :: []
    ∧ (linked { upLink with replies := [reply1] }).link.replies.any (fun r => !r.immediate) = true := by
  refine ⟨by decide, rfl, rfl, rfl, rfl, fun _ => rfl, ⟨rfl, rfl, rfl⟩, rfl, rfl⟩

/-! ## The same: the link's receiver, requests and chunks -/

/-- A good frame of another kind with the longest body, one with a wrong check, and an over-long one. -/
theorem test_hyps_ReceiverTakesRequestFrames_discarded :
    base.link.up = true ∧ base.link.received = []
    ∧ ((2 : Byte) ≠ 1 ∧ 4104 ≤ 4104 ∧ (List.replicate 4104 (0 : Byte)).length = 4104
      ∧ ∀ n, (leBytes 4 n).length = 4)
    ∧ (¬ ([0, 0, 0, 0] : List Byte) = leBytes 4 (crc32 (1 :: 9 :: leBytes 2 0 ++ [])).toNat
      ∧ ([] : List Byte).length = 0
      ∧ ∀ b ∈ (1 : Byte) :: 9 :: leBytes 2 0 ++ [] ++ [0, 0, 0, 0], b ≠ 0xD4)
    ∧ (4104 < 4105 ∧ ∀ b ∈ (1 : Byte) :: 9 :: leBytes 2 4105 ++ [] ++ [0, 0, 0, 0], b ≠ 0xD4) := by
  refine ⟨rfl, rfl, ⟨by decide, Nat.le_refl _, List.length_replicate, fun _ => rfl⟩, ?_⟩
  decide +kernel

def refusal1 : Response := ⟨1, 0, .refused, .badLength, [], true⟩

/-- Requests that are refused at once, discarded, queued, and taken. -/
theorem test_hyps_ReceiverTakesRequestFrames_arrivals :
    ((Instr.tablePut 7 1 1 (List.replicate 26 0)).carried
        = some (7, .tablePut 1 1 (List.replicate 26 0))
      ∧ contentsLengthOk (.tablePut 1 1 (List.replicate 26 0)) = false
      ∧ contentsLengthOk (.tablePut 1 1 (List.replicate 27 0)) = true)
    ∧ ((linked { upLink with requests := List.replicate 4 ⟨1, .timeGet⟩ }).link.requests.length = 4
      ∧ (List.replicate 7 refusal1).countP (·.immediate) < 8
      ∧ 8 ≤ (List.replicate 8 refusal1).countP (·.immediate))
    ∧ ((linked { upLink with inProgress := fetching true 0 }).link.inProgress ≠ none
      ∧ (∃ x ∈ (linked { upLink with replies := [refusal1, reply1] }).link.replies, x.immediate = false)
      ∧ (linked { upLink with requests := List.replicate 3 ⟨1, .timeGet⟩ }).link.requests.length < 4)
    ∧ (base.link.inProgress = none ∧ (∀ x ∈ ({ upLink with replies := [refusal1] } : Link).replies,
        x.immediate = true) ∧ base.link.requests ++ [⟨7, .timeGet⟩] = ⟨7, .timeGet⟩ :: []) := by
  decide +kernel

/-- A body of one byte, a code that names no request, and bodies of a wrong length. -/
theorem test_hyps_ReceiverTakesRequestFrames_bodies :
    ([1] : List Byte).length < 2
    ∧ (2 ≤ ([0xFF, 0xFF] : List Byte).length ∧ (0xFFFF : BitVec 16).toNat = leNat [0xFF, 0xFF])
    ∧ (([2, 1, 0] : List Byte).length ≠ 2 ∧ (0x0102 : BitVec 16).toNat = leNat [2, 1])
    ∧ (([2, 8, 1] : List Byte).length < 4 ∧ (0x0802 : BitVec 16).toNat = leNat [2, 8])
    ∧ (entryLength (([2, 8, 4, 0, 1] : List Byte).getD 2 0) = some 2
      ∧ ([2, 8, 4, 0, 1] : List Byte).length ≠ 4 + 2)
    ∧ (List.replicate 4104 (0 : Byte)).length ≤ 4104 := by
  refine ⟨by decide, by decide, by decide, by decide, by decide, ?_⟩
  rw [List.length_replicate]

/-- One page held, so that 8,191 are free, under this threshold. -/
def lowState (low : Bool) (threshold : BitVec 16) : State :=
  { pageIn (.held owner1) none [] with
    memory := { (pageIn (.held owner1) none []).memory with low := low }
    banks := ⟨#v[⟨.active, { bankA cameraA 0 with global := ⟨threshold⟩ }⟩, ⟨.empty, .empty⟩], 0, none⟩ }

theorem test_hyps_EventCloseFrame_low :
    (∀ low threshold, (lowState low threshold).activeContents
        = some { bankA cameraA 0 with global := ⟨threshold⟩ } ∧ (lowState low threshold).memory.low = low)
    ∧ (lowState false 8192).memory.freeCount < (8192 : BitVec 16).toNat
    ∧ (8191 : BitVec 16).toNat ≤ (lowState true 8191).memory.freeCount
    ∧ cold.activeContents = none ∧ 0 ≤ cold.memory.freeCount :=
  ⟨fun _ _ => ⟨rfl, rfl⟩, by decide +kernel, by decide +kernel, rfl, Nat.zero_le _⟩

/-- The last chunk of segment 0 of a stored shot, and a second page on a spare. -/
def streaming : State :=
  { withPassage (withShots [storedShot] .filed) .vacant [] 0 with
    memory := { FrameMemory.powerUp with
      pages := [(3, ⟨.held owner1, none, none⟩),
        (5, ⟨.held ⟨⟨1, 0⟩, 1⟩, some 8192, some ⟨some 8200, false, true⟩⟩)] }
    link := { upLink with inProgress := fetching true 15 } }

theorem test_hyps_ArbitrationOrder_chunk :
    streaming.link.up = true ∧ streaming.link.sending = none ∧ streaming.link.replies = []
    ∧ streaming.link.inProgress = some (.fetch ⟨1, ⟨1, 0⟩, 0, 1, 15, true⟩) ∧ streaming.memory.wf
    ∧ streaming.shot? ⟨1, 0⟩ = some storedShot ∧ storedShot.pages[0 + 15 / 16]? = some 3
    ∧ (streaming.memory.page 3).physical 3 = some 3 ∧ storedShot.pages[1]? = some 5
    ∧ (streaming.memory.page 5).physical 5 = some 8192 := by decide +kernel

/-- Page 5 free with every spare bad, and with no page unreserved too. -/
def noSpares (reserved : Nat) : State :=
  { base with memory := { FrameMemory.powerUp with
      badSpares := allSpares, reservations := [⟨⟨9, 0⟩, reserved⟩] } }

theorem test_hyps_PageRetireRequest_targets :
    ((noSpares 8191).readyFor ∧ (noSpares 8191).memory.wf
      ∧ ((noSpares 8191).memory.page 5).condition = .free ∧ (noSpares 8191).memory.lowestUsable = none
      ∧ (noSpares 8191).memory.freeCount ≠ (noSpares 8191).memory.reservedCount)
    ∧ ((noSpares 8192).memory.wf
      ∧ (noSpares 8192).memory.freeCount = (noSpares 8192).memory.reservedCount)
    ∧ (base.memory.lowestUsable = some 8192
      ∧ (pageIn .outOfService none [8192]).memory.lowestUsable = some 8193)
    ∧ ((pageIn .free none [8192]).memory.bad (8192 : BitVec 16).toNat = true
      ∧ ((pageIn .free (some 8192) []).memory.page 5).spare = some (8192 : BitVec 16).toNat
      ∧ (pageIn .free (some 8192) []).memory.bad (8192 : BitVec 16).toNat = false
      ∧ ((pageIn .free (some 8192) []).memory.page 6).spare ≠ some (8192 : BitVec 16).toNat
      ∧ (pageIn .free (some 8192) []).memory.assigned (8192 : BitVec 16).toNat = true) := by
  refine ⟨⟨ready_of rfl, ?_⟩, ?_⟩
  all_goals decide +kernel

/-- A line in each state without an order, and one with each order. -/
theorem test_hyps_RestartRequest_lines :
    (∀ st, (onLine (lineIn st)).lines[(0 : Camera)].state = st
      ∧ (onLine (lineIn st)).lines[(0 : Camera)].outstanding = none)
    ∧ ∀ o step, (onLine (linkingLine o step false)).lines[(0 : Camera)].state ≠ .unlinked
      ∧ (onLine (linkingLine o step false)).lines[(0 : Camera)].outstanding
        = some ⟨o, 0 + orderTimeoutLength o, false⟩ :=
  ⟨fun _ => ⟨rfl, rfl⟩, fun _ _ => ⟨nofun, rfl⟩⟩

/-! ## The same: vehicles and shots -/

/-- Two axles 2,600 mm apart; a pantograph 500 mm behind the first, for camera 0. -/
def profileA : ProfileEntry :=
  ⟨true, 2, Vector.replicate 7 2600, 100, 4000, 20000, false, 1, #v[⟨500, 1⟩, ⟨0, 0⟩, ⟨0, 0⟩]⟩

def bankB : Bank := { bankA cameraA 0 with profiles := setAt Bank.empty.profiles 0 profileA }

/-- Axles this many millimetres behind one another. -/
def axlesAt (mms : List Int) : List Axle :=
  ⟨0, some 80000, true, .absent⟩ :: mms.map (fun mm => ⟨0, some 80000, true, .known mm⟩)

/-- A matcher waits for the axle behind two that fit, accepts them by it or in TAIL, and finds axles too far
apart unmatched. -/
theorem test_hyps_PairedCrossingMakesAxle_decisions :
    decideAt bankB (axlesAt [2700]) false 0 = .wait
    ∧ decideAt bankB (axlesAt [2700]) true 0 = .accept ⟨0, .forward⟩
    ∧ decideAt bankB (axlesAt [2500, 20000]) false 0 = .accept ⟨0, .forward⟩
    ∧ decideAt bankB (axlesAt [2701, 20000]) false 0 = .unmatched
    ∧ (bankB.profiles[(0 : Fin 64)]).present = true
    ∧ (∀ k : Fin 64, (bankB.profiles[k]).present = true → 2 ≤ (bankB.profiles[k]).axleCount.toNat)
    ∧ (axlesAt (List.replicate 127 2600)).length ≤ 128 := by decide +kernel

def stretched (n : Nat) (opened : Bool) : Passage :=
  { passageA with
    axles := axlesAt [2600, 2600], vehicles := List.replicate n ⟨.stretch, 0, 1⟩, stretchOpen := opened }

theorem test_hyps_PairedCrossingMakesAxle_run :
    ((withPassage covered .occupied [] 0).passage? 1 = some covered ∧ covered.axles.length ≤ covered.cursor)
    ∧ (let p : Passage := { covered with axles := axlesAt [1, 1, 1] };
      (withPassage p .occupied [] 0).passage? 1 = some p ∧ p.cursor < p.axles.length
      ∧ ∃ v ∈ p.vehicles, v.kind = .remainder)
    ∧ ((withPassage (stretched 23 false) .occupied [] 0).passage? 1 = some (stretched 23 false)
      ∧ (stretched 23 false).cursor < (stretched 23 false).axles.length
      ∧ (∀ v ∈ (stretched 23 false).vehicles, v.kind ≠ .remainder)
      ∧ 23 ≤ (stretched 23 false).vehicles.length)
    ∧ ((stretched 22 true).vehicles.length < 23 ∧ (stretched 22 true).stretchOpen = true
      ∧ (stretched 22 true).vehicles.getLast?.map (·.kind) = some .stretch
      ∧ (stretched 22 false).stretchOpen = false
      ∧ (stretched 0 true).vehicles.getLast?.map (·.kind) ≠ some .stretch) := by
  decide +kernel

/-- The due shot of `due` is the first one; a microsecond before it is not. -/
theorem test_hyps_DueShotFires_due :
    ∃ k f, (due 0 0 ⟨none, none, none⟩ oneSlot none 0 1000 true).shot? ⟨1, 0⟩ = some k
      ∧ k.state = .frozen ∧ k.plannedFire = some f ∧ timeDiff f 1000 ≤ 0 ∧ ¬ timeDiff f 999 ≤ 0
      ∧ (due 0 0 ⟨none, none, none⟩ oneSlot none 0 1000 true).shotQueue = [] ++ ⟨1, 0⟩ :: [] :=
  ⟨dueShot true, 1000, by decide +kernel⟩

/-- Camera 1 with one HELD shot, camera 0 with two, so that it is pressed, or one. -/
def queued (second : Option ShotRef) (busy : Option ChannelWork) : State :=
  { withPassage (withShots [{ shotIn .held with camera := 1 }, shotIn .held, shotIn .held] .clear) .vacant
      [] 0 with
    lines := setAt (setAt base.lines 1 { lineIn .inService with slots := #v[some ⟨1, 0⟩, none] }) 0
      { lineIn .inService with slots := #v[some ⟨1, 1⟩, second] }
    readout := ⟨[⟨1, 0⟩, ⟨1, 1⟩, ⟨1, 2⟩], Vector.replicate 4 busy⟩ }

theorem test_hyps_DueShotFires_grant :
    (queued (some ⟨1, 2⟩) none).readout.channels[(0 : ChannelNo)] = none
    ∧ (queued (some ⟨1, 2⟩) none).readout.queue = [⟨1, 0⟩] ++ ⟨1, 1⟩ :: [⟨1, 2⟩]
    ∧ (queued none none).readout.queue = [] ++ ⟨1, 0⟩ :: [⟨1, 1⟩, ⟨1, 2⟩]
    ∧ (∀ r ∈ (queued none none).readout.queue, (queued none none).mayTake r = true
        ∧ (queued none none).shotPressed r = false)
    ∧ (queued (some ⟨1, 2⟩) none).mayTake ⟨1, 1⟩ = true
    ∧ (queued (some ⟨1, 2⟩) none).shotPressed ⟨1, 1⟩ = true
    ∧ (queued (some ⟨1, 2⟩) none).shotPressed ⟨1, 0⟩ = false
    ∧ (queued none none).lines[(1 : Camera)].slotOf ⟨1, 0⟩ = some 0
    ∧ (queued none none).lines[(1 : Camera)].orders.read = none
    ∧ (∀ relink discard1 sense : Bool, (⟨relink, false, discard1, none, sense⟩ : PendingOrders).read = none)
    ∧ (∀ w, ∀ ch : ChannelNo, (queued none (some w)).readout.channels[ch] ≠ none) := by
  refine ⟨rfl, rfl, rfl, by decide +kernel, by decide +kernel, by decide +kernel, by decide +kernel, rfl, rfl,
    fun _ _ _ => rfl, ?_⟩
  intro w ch
  match ch with
  | 0 | 1 | 2 | 3 => exact nofun

/-- A shot due at once, at the end of the tolerance; two queued shots of one time, ordered by shot number. -/
theorem test_hyps_NewShotIsPlaced_queue :
    ((withPassage (timed 80000) .occupied [] 1250100).timeShot (timed 80000) (Shot.new 0 0 0 0 0 2)).2
        = .dueAtOnce
    ∧ ((withPassage (timed 80000) .occupied [] 1250101).timeShot (timed 80000) (Shot.new 0 0 0 0 0 2)).2
        = .late
    ∧ (let s := withPassage (withShots [shotIn .planned, shotIn .planned] .approaching) .occupied [] 0;
      (s.shot? ⟨1, 0⟩).map (·.plannedFire) = some (some 1000)
      ∧ (s.shot? ⟨1, 1⟩).map (·.plannedFire) = some (some 1000)
      ∧ s.table.passages = [] ++ withShots [shotIn .planned, shotIn .planned] .approaching :: []
      ∧ s.queueBefore ⟨1, 0⟩ ⟨1, 1⟩ = true ∧ s.queueBefore ⟨1, 1⟩ ⟨1, 0⟩ = false
      ∧ (timeDiff (s.fireTimeOf ⟨1, 0⟩) (s.fireTimeOf ⟨1, 1⟩)).natAbs < 2 ^ 46
      ∧ (⟨1, 1⟩ : ShotRef) ∉ [(⟨1, 0⟩ : ShotRef)]) := by decide +kernel

/-- Cameras that photograph a passage on track 1 and cameras that do not, by fitting, track and filter. -/
theorem test_hyps_NewShotIsPlaced_cameras :
    (withPassage passageA .occupied [] 0).passage? 1 = some passageA
    ∧ (cameraA.fitted = true ∧ cameraA.track.toNat = passageA.track.val + 1
      ∧ cameraA.directionFilter = 2 ∧ passageA.direction = .ab ∧ passageB.direction = .ba)
    ∧ ((bankA cameraA 0).cameras[(11 : Camera)]).fitted = false
    ∧ ({ cameraA with track := 2 } : CameraEntry).track.toNat ≠ passageA.track.val + 1
    ∧ ({ cameraA with directionFilter := 1 } : CameraEntry).directionFilter ≠ 2 := by decide +kernel

theorem test_hyps_Figures_matcher :
    bankB.candidates = [] ++ ⟨0, .forward⟩ :: [⟨0, .reversed⟩]
    ∧ (axlesAt [2600, 4000])[0 + 2]? = some ⟨0, some 80000, true, .known 4000⟩
    ∧ (axlesAt [2600]).length ≤ 0 + 2 ∧ profileA.axleCount.toNat = 2
    ∧ verdict (axlesAt [2600, 4000]) false 0 profileA .forward = .fits
    ∧ verdict (axlesAt [2600, 3999]) false 0 profileA .forward = .unfit
    ∧ verdict (axlesAt [2600]) false 0 profileA .forward = .undecidable
    ∧ verdict (axlesAt [2600]) true 0 profileA .forward = .fits
    ∧ (timed 80000).direction = .ab := by decide +kernel

/-! ## What single commands do -/

/-- The lead wheel at A1 opens passage 1 on the ACTIVE bank and takes the track to OCCUPIED. -/
theorem test_crossing_opens :
    let s := after (.crossing 0 .a1) (onTrack .vacant [] none 40)
    s.tracks[(0 : Track)] = ⟨.occupied, .allHealthy, [⟨40, 2000040⟩], [], none⟩
    ∧ s.table.passages.map (fun p => (p.number, p.state, p.tailWindow))
        = [(1, .approaching, some 10000040)]
    ∧ s.table.nextNumber = 2 ∧ s.link.notices.length = 2 := by decide +kernel

/-- The same wheel at A2 makes an axle of 2,000 mm in 24,000 µs (R18) and starts the tail window (R33). -/
theorem test_crossing_makes_axle :
    let s := after (.crossing 0 .a2) (withPassage passageA .occupied (entries 1) 24000)
    s.table.passages.map (fun p => (p.axles, p.axleTotal, p.tailWindow))
      = [([⟨24000, some 83333, true, .absent⟩], 1, some (24000 + 720002))] := by decide +kernel

/-- The last exit crossing files a passage without shots; its track is VACANT. -/
theorem test_exit_files :
    let s := after (.crossing 0 .b1) (withPassage inTail .occupied [] 400)
    s.table.passages.map (fun p => (p.state, p.clearTime, p.settle))
      = [(.filed, some 400, some (400, 0))]
    ∧ s.tracks[(0 : Track)].state = .vacant := by decide +kernel

/-- A due shot opens the flash of a READY bank: trigger 50 µs, busy 5,000 µs, flash 60 µs, recharge. -/
theorem test_shot_fires :
    let s := after .shotDue (due 0 0 ⟨none, none, none⟩ (lineIn .inService) none 0 1003 true)
    (s.shot? ⟨1, 0⟩).map (fun k => (k.state, k.lighting, k.lateness, k.actualFire))
      = some (.reading, some .lit, 3, some 1003)
    ∧ s.fire[(0 : Camera)] = ⟨some 1053, some 6003⟩
    ∧ s.strobes[(0 : StrobeNo)] = ⟨some 21003, some ⟨1003, ⟨1, 0⟩, 100, 1003⟩, some 1063⟩
    ∧ s.lines[(0 : Camera)].outstanding = some ⟨.read 0 0 false, 1003 + 50000, false⟩
    ∧ s.shotQueue = [] := by decide +kernel

/-- FIRE_UNLIT behind the window; SKIP behind the window. -/
theorem test_shot_behind_window :
    ((after .shotDue (due 0 0 flashAt900 (lineIn .inService) none 0 1001 true)).shot? ⟨1, 0⟩).map
        (fun k => (k.state, k.lighting)) = some (.reading, some .unlit)
    ∧ ((after .shotDue (due 0 1 flashAt900 (lineIn .inService) none 0 1001 true)).shot? ⟨1, 0⟩).map
        (fun k => (k.state, k.skipReason)) = some (.skipped, some .noFlash) := by decide +kernel

/-- The fourth failure of a segment asks for a RELINK; without retries the first asks for a DISCARD. -/
theorem test_read_fails :
    (after (.orderTimeout 0) (readingState 0 false .inService false .read 3 0 .clear true 50000)).lines[(0 :
        Camera)].outstanding = some ⟨.relink, 550000, false⟩
    ∧ (after (.orderTimeout 0) (readingState 0 false .inService false .read 0 0 .clear false 50000)).lines[(0 :
        Camera)].outstanding = some ⟨.discard 0, 100000, false⟩ := by decide +kernel

/-- The answer to a READ that has timed out is ignored; the READ issued since is answered (R116, R134). -/
theorem test_late_answer_is_ignored :
    let s := after (.orderTimeout 0) (readingState 0 false .inService false .read 0 0 .clear true 50000)
    s.lines[(0 : Camera)].outstanding = some ⟨.read 0 0 false, 100000, false⟩
    ∧ after (.readComplete ⟨0, 0⟩ [] (crc32 []) .done 0) s = s
    ∧ ((after (.readComplete ⟨0, 50000⟩ [] (crc32 []) .done 0) s).shot? ⟨1, 0⟩).map (·.segmentsStored)
        = some 1 := by decide +kernel

/-- PAGE RETIRE of a held page is answered DONE OK with held, page 5 and PENDING (R146). -/
theorem test_page_retire_is_pending :
    (after (.pageRetire 1 5 0xFFFF) (pageIn (.held owner1) none [])).link.replies
      = [⟨1, 0x0702, .done, .ok, [1, 1, 5, 0, 1], false⟩] := by decide +kernel

/-- The frame of TIME GET is answered with the time and the epoch, and its response is being sent. -/
theorem test_frame_is_answered :
    let s := after (.frameReceived ([0, 0xD4] ++ requestFrame 7 .timeGet)) base
    s.link.replies = [⟨7, 0x0102, .done, .ok, [0, 0, 0, 0, 0, 0, 0, 0, 0], false⟩]
    ∧ s.link.sending = some .response ∧ s.link.received = [] := by decide +kernel

/-- A strobe entry put and read back, its flag byte 0 or 1 (R200). -/
theorem test_table_put :
    let s := after (.tablePut 1 3 2 [7, 1, 0, 0, 0, 2, 0, 1]) (inBanks .active .staging 1 none)
    (s.banks.slots[(1 : BankNo)].contents.strobes[(2 : StrobeNo)]) = ⟨true, 1, 2, 1⟩ := by decide +kernel

/-- Losing the lock drops requests and responses and keeps notices. -/
theorem test_lock_lost :
    let s := after .lineLockLost (linked { upLink with replies := [reply1], notices := [notice1] })
    s.link = ⟨false, [], [], none, [], [notice1], false, none, none⟩ := by decide +kernel

/-- A free page retired to a named spare, then restored: the spare is released, not bad. -/
theorem test_page_retire_and_restore :
    let s := after (.pageRetire 1 5 8195) base
    s.memory.page 5 = ⟨.free, some 8195, none⟩
    ∧ (s.memory.setPage 5 ⟨.free, none, none⟩).pages = [] := by decide +kernel

end Sys2Proof.Tests
end

/-! SUPPORT and PROOFS of the family of the gantry clock, the tracks and the detector heads. First what one
step can do, then the obligations of steps and power-up. -/

namespace Sys2Proof.Proofs

open Sys2Proof.Machine

/-! ## What one step can do -/

/-- A step runs a command, on the rest of the queue or on an empty one, or lets a microsecond pass. -/
theorem step_cases {s t : State} (h : step s = .next t) :
    (∃ c rest, s.pending = c :: rest ∧ exec c { s with pending := rest } = .next t)
    ∨ (∃ c, s.pending = [] ∧ s.dueEvent = some c ∧ exec c s = .next t)
    ∨ (s.pending = [] ∧ s.dueEvent = none ∧ t = s.tick) := by
  unfold step at h
  cases hp : s.pending with
  | cons c rest =>
    rw [hp] at h
    exact .inl ⟨c, rest, rfl, h⟩
  | nil =>
    rw [hp] at h
    cases hd : s.dueEvent with
    | some c =>
      rw [hd] at h
      exact .inr (.inl ⟨c, rfl, rfl, h⟩)
    | none =>
      rw [hd] at h
      cases h
      exact .inr (.inr ⟨rfl, rfl, rfl⟩)

/-- A property that looks at neither the queue nor the clock is kept by every step when every command keeps
it. -/
theorem keptByStep_of_exec {P : State → Prop}
    (hqueue : ∀ (s : State) (rest : List Instr), P s → P { s with pending := rest })
    (htick : ∀ s : State, P s → P s.tick)
    (hexec : ∀ (c : Instr) (s t : State), P s → exec c s = .next t → P t) : KeptByStep P := by
  intro s t hs h
  obtain ⟨c, rest, -, h⟩ | ⟨c, -, -, h⟩ | ⟨-, -, rfl⟩ := step_cases h
  · exact hexec c _ t (hqueue s rest hs) h
  · exact hexec c s t hs h
  · exact htick s hs

/-- Every command keeps tracks and passages in agreement. -/
theorem exec_tracksInv {c : Instr} {s t : State} (hs : s.tracksInv) (h : exec c s = .next t) :
    t.tracksInv := by
  by_cases hc : ∃ levels, c = .powerUp levels
  · obtain ⟨levels, rfl⟩ := hc
    cases h
    exact (State.powerUp_inv levels s.pending).2.1
  · exact (exec_preserves (fun levels he => hc ⟨levels, he⟩) h).tracks hs

/-- Settles O8: POWER_UP establishes the invariant, every other command preserves it, and the clock's tick
touches neither tracks nor passages. -/
theorem tracksAndPassagesStayInAgreement : Obligations.TracksAndPassagesStayInAgreement :=
  keptByStep_of_exec (fun _ _ h => h) (fun _ h => h) (fun _ _ _ hs h => exec_tracksInv hs h)

/-- Settles O4: POWER_UP keeps the waiting commands, every other command the elapsed count too. -/
theorem commandsLeaveQueueAndElapsedCount : Obligations.CommandsLeaveQueueAndElapsedCount := by
  intro c s t h
  by_cases hc : ∃ levels, c = .powerUp levels
  · obtain ⟨levels, rfl⟩ := hc
    cases h
    exact ⟨rfl, fun hne => absurd rfl (hne levels)⟩
  · have hp := exec_preserves (fun levels he => hc ⟨levels, he⟩) h
    exact ⟨hp.pending, fun _ => hp.elapsed⟩

/-- On an empty queue the first due event is taken. -/
theorem step_of_due {s : State} {c : Instr} (hp : s.pending = []) (hd : s.dueEvent = some c) :
    step s = exec c s := by
  unfold step; rw [hp]; dsimp only; rw [hd]

/-- On an empty queue with nothing due the clock ticks. -/
theorem step_of_idle {s : State} (hp : s.pending = []) (hd : s.dueEvent = none) : step s = .next s.tick := by
  unfold step; rw [hp]; dsimp only; rw [hd]

/-- Settles O2. -/
theorem stepOnEmptyQueue : Obligations.StepOnEmptyQueue :=
  fun _ hp => ⟨fun _ hd => step_of_due hp hd, fun hd => step_of_idle hp hd⟩

/-- A track after power-up. -/
theorem powerUp_track (levels : Vector HeadHealth 4) (pending : List Instr) (t : Track) :
    (State.powerUp levels pending).tracks[t] = .powerUp levels[t] := by
  match t with
  | 0 => rfl
  | 1 => rfl
  | 2 => rfl
  | 3 => rfl

/-- Settles O5: field by field; a vector filled with one value holds it at every place. -/
theorem powerUpState : Obligations.PowerUpState := by
  intro levels s
  refine ⟨State.powerUp levels s.pending, rfl, rfl, powerUp_track levels s.pending, rfl, rfl, ?_, ?_, ?_,
    rfl, rfl, ?_, rfl, rfl, rfl, rfl⟩
  · exact fun c => Vector.getElem_replicate c.isLt
  · exact fun b => Vector.getElem_replicate b.isLt
  · exact fun c => Vector.getElem_replicate c.isLt
  · exact fun b => Vector.getElem_replicate b.isLt

/-! ## Requests of the clock and the tracks -/

/-- The part is busy exactly while a passage is open or a shot waits to fire (R4). -/
theorem tracksBusy_iff (s : State) : s.tracksBusy = true ↔
    ∃ p ∈ s.table.passages, p.state = .approaching ∨ p.state = .tail
      ∨ ∃ k ∈ p.shots, k.state = .planned ∨ k.state = .frozen := by
  simp [State.tracksBusy, Passage.isOpen, or_assoc]

theorem timeSet_badArgument {s : State} {t : BitVec 64} (h : 2 ^ 48 ≤ t.toNat) :
    s.timeSet t = (s, .refused .badArgument) := by
  unfold State.timeSet; rw [if_pos h]

theorem timeSet_tracksBusy {s : State} {t : BitVec 64} (h : t.toNat < 2 ^ 48) (hb : s.tracksBusy = true) :
    s.timeSet t = (s, .refused .tracksBusy) := by
  unfold State.timeSet; rw [if_neg (Nat.not_le.2 h), if_pos hb]

theorem timeSet_done {s : State} {t : BitVec 64} (h : t.toNat < 2 ^ 48) (hb : ¬ s.tracksBusy = true) :
    s.timeSet t = ({ s with clock := ⟨t.setWidth 48, s.clock.epoch + 1, s.clock.elapsed⟩ },
      .done (leBytes 8 t.toNat ++ [s.clock.epoch + 1])) := by
  have ht : (t.setWidth 48).toNat = t.toNat := by
    rw [BitVec.toNat_setWidth]; exact Nat.mod_eq_of_lt h
  unfold State.timeSet
  rw [if_neg (Nat.not_le.2 h), if_neg hb]
  simp only [timeBytes, ht]

/-- Settles O19: the three outcomes of R4's checks. -/
theorem timeSetRequest : Obligations.TimeSetRequest := by
  intro s tag t hr
  have run : ∀ x, s.timeSet t = x →
      exec (.timeSet tag t) s = .next (x.1.placeAnswer tag 0x0101 x.2).endEvent := fun x hx =>
    request_answers (r := .timeSet t) hr rfl (by rw [← hx]; rfl)
  refine ⟨fun h => ?_, fun h hb => ?_, fun h hb => ?_⟩
  · exact run _ (timeSet_badArgument h)
  · exact run _ (timeSet_tracksBusy h ((tracksBusy_iff s).2 hb))
  · refine run _ (timeSet_done h (fun hbusy => ?_))
    obtain ⟨p, hp, hstate⟩ := (tracksBusy_iff s).1 hbusy
    obtain ⟨ha, ht, hk⟩ := hb p hp
    rcases hstate with h1 | h1 | ⟨k, hk1, h1 | h1⟩
    · exact ha h1
    · exact ht h1
    · exact (hk k hk1).1 h1
    · exact (hk k hk1).2 h1

/-- Settles O20. -/
theorem timeGetRequest : Obligations.TimeGetRequest :=
  ⟨fun _ _ => rfl, fun _ _ hr => request_answers (r := .timeGet) hr rfl rfl⟩

/-- Settles O22. -/
theorem trackStatusRequest : Obligations.TrackStatusRequest := by
  intro s tag b
  have carried : ∀ a, s.trackStatus b = a → s.carryOut tag (.trackStatus b) = s.placeAnswer tag 0x0105 a :=
    fun a ha => by rw [← ha]; rfl
  refine ⟨fun hb => carried _ ?_, fun t hb => carried _ ?_, fun hs t => ?_, fun hr => ?_⟩
  · unfold State.trackStatus; rw [trackOf_bad hb]; rfl
  · unfold State.trackStatus; rw [trackOf_good hb]; rfl
  · obtain ⟨-, hA, hB, -⟩ := hs t
    exact ⟨hA, hB⟩
  · exact request_answers (r := .trackStatus b) hr rfl rfl

/-! ### TRACK ARM and TRACK DISARM -/

theorem trackArm_badArgument {s : State} {b : Byte} (h : b.toNat = 0 ∨ 4 < b.toNat) :
    s.trackArm b = (s, .refused .badArgument) := by
  unfold State.trackArm; rw [trackOf_bad h]

theorem trackArm_noTables {s : State} {b : Byte} {t : Track} (h : b.toNat = t.val + 1)
    (ha : s.activeContents = none) : s.trackArm b = (s, .refused .noTables) := by
  unfold State.trackArm; rw [trackOf_good h, ha]

/-- TRACK ARM of a track while the part is configured: the checks and the effect of R22. -/
theorem trackArm_configured {s : State} {b : Byte} {t : Track} {bank : Bank} (h : b.toNat = t.val + 1)
    (ha : s.activeContents = some bank) :
    s.trackArm b =
      if (bank.tracks[t]).fitted = false then (s, .refused .notFitted)
      else if s.tracks[t].state ≠ .disarmed then (s, .done [])
      else (s.trackTo t (if HeadHealth.allWell s.tracks[t].health then .ignoring else .headFault),
        .done []) := by
  unfold State.trackArm; rw [trackOf_good h, ha]

theorem allWell_iff (h : HeadHealth) : HeadHealth.allWell h = true ↔ h = .allHealthy := by
  simp [HeadHealth.allWell]

theorem quietTime_of_active {s : State} {bank : Bank} (h : s.activeContents = some bank) (t : Track) :
    s.quietTime t = (bank.tracks[t]).quietTime.toNat := by
  unfold State.quietTime; rw [h]

/-- A sound track that is not OCCUPIED has empty FIFOs, and its quiet timer runs only in IGNORING. -/
theorem idle_track {m : TrackMonitor} (h : m.sound) (ho : m.state ≠ .occupied) :
    m.fifoA = [] ∧ m.fifoB = [] ∧ (m.state ≠ .ignoring → m.quiet = none) := by
  obtain ⟨hquiet, -, -, hfifo⟩ := h
  obtain ⟨hA, hB⟩ := hfifo ho
  refine ⟨hA, hB, fun hi => ?_⟩
  cases hq : m.quiet with
  | none => rfl
  | some e => exact absurd (hquiet.1 (by rw [hq]; rfl)) hi

/-- The state change of a sound track between states other than OCCUPIED (R12, R21): its FIFOs stay empty. -/
theorem trackTo_idle {s : State} {t : Track} {new : TrackState} {m : TrackMonitor} (hm : s.tracks[t] = m)
    (h : m.sound) (ho : m.state ≠ .occupied) (hnew : new ≠ .occupied) (hne : m.state ≠ new) :
    s.trackTo t new = (s.setTrack t { m with
      state := new
      quiet := if new = .ignoring then some (s.clock.elapsed + s.quietTime t) else none
      }).queueNotice (.trackState t m.state new m.health) := by
  obtain ⟨hA, hB, -⟩ := idle_track h ho
  rw [trackTo_ne s t new hm hne, if_neg hnew, if_neg hnew, hA, hB]

theorem trackDisarm_badArgument {s : State} {b : Byte} (h : b.toNat = 0 ∨ 4 < b.toNat) :
    s.trackDisarm b = (s, .refused .badArgument) := by
  unfold State.trackDisarm; rw [trackOf_bad h]

/-- TRACK DISARM of a track: the checks and the effect of R23. -/
theorem trackDisarm_good {s : State} {b : Byte} {t : Track} (h : b.toNat = t.val + 1) :
    s.trackDisarm b =
      if s.tracks[t].state = .occupied then (s, .refused .trackOccupied)
      else if s.tracks[t].state = .disarmed then (s, .done [])
      else (s.trackTo t .disarmed, .done []) := by
  unfold State.trackDisarm; rw [trackOf_good h]
  dsimp only
  generalize s.tracks[t].state = st
  cases st <;> rfl

/-- The ARM of a fitted DISARMED track (R22). -/
theorem trackArm_disarmed {s : State} {t : Track} {bank : Bank} (hf : (bank.tracks[t]).fitted = true)
    (hst : s.tracks[t].state = .disarmed) :
    (if (bank.tracks[t]).fitted = false then (s, Answer.refused .notFitted)
      else if s.tracks[t].state ≠ .disarmed then (s, .done [])
      else (s.trackTo t (if HeadHealth.allWell s.tracks[t].health then .ignoring else .headFault),
        .done []))
    = (s.trackTo t (if HeadHealth.allWell s.tracks[t].health then .ignoring else .headFault), .done []) := by
  rw [if_neg (by rw [hf]; decide), if_neg (not_not.2 hst)]

/-- A sound DISARMED track that goes to IGNORING or HEAD_FAULT. -/
theorem trackTo_of_disarmed {s : State} {t : Track} {new : TrackState} (h : s.tracks[t].sound)
    (hst : s.tracks[t].state = .disarmed) (hnew : new ≠ .occupied) (hne : .disarmed ≠ new) :
    s.trackTo t new = (s.setTrack t { s.tracks[t] with
      state := new
      quiet := if new = .ignoring then some (s.clock.elapsed + s.quietTime t) else none
      }).queueNotice (.trackState t .disarmed new s.tracks[t].health) := by
  rw [trackTo_idle rfl h (by rw [hst]; decide) hnew (by rw [hst]; exact hne), hst]

/-- Settles O21: the refusals in their order, then the effect by the track's state. -/
theorem trackArmAndDisarm : Obligations.TrackArmAndDisarm := by
  intro s tag b hr hsound
  have arm : ∀ x, s.trackArm b = x →
      exec (.trackArm tag b) s = .next (x.1.placeAnswer tag 0x0103 x.2).endEvent := fun x hx =>
    request_answers (r := .trackArm b) hr rfl (by rw [← hx]; rfl)
  have disarm : ∀ x, s.trackDisarm b = x →
      exec (.trackDisarm tag b) s = .next (x.1.placeAnswer tag 0x0104 x.2).endEvent := fun x hx =>
    request_answers (r := .trackDisarm b) hr rfl (by rw [← hx]; rfl)
  refine ⟨fun hb => ⟨arm _ (trackArm_badArgument hb), disarm _ (trackDisarm_badArgument hb)⟩,
    fun t hb => ⟨fun ha => arm _ (trackArm_noTables hb ha), fun bank ha => ?_, fun ho => ?_, fun hd => ?_,
      fun ho hd => ?_⟩⟩
  · have hcheck := trackArm_configured hb ha
    refine ⟨fun hf => ?_, fun hf hst => ?_, fun hf hst hh => ?_, fun hf hst hh => ?_⟩
    · rw [arm _ hcheck, if_pos hf]; rfl
    · rw [arm _ hcheck, if_neg (by rw [hf]; decide), if_pos hst]; rfl
    · rw [arm _ (hcheck.trans (trackArm_disarmed hf hst)), if_pos ((allWell_iff _).2 hh),
        trackTo_of_disarmed (hsound t) hst (by decide) (by decide), if_pos rfl, quietTime_of_active ha]
      rfl
    · rw [arm _ (hcheck.trans (trackArm_disarmed hf hst)), if_neg (fun hw => hh ((allWell_iff _).1 hw)),
        trackTo_of_disarmed (hsound t) hst (by decide) (by decide), if_neg (by decide),
        ← (idle_track (hsound t) (by rw [hst]; decide)).2.2 (by rw [hst]; decide)]
      rfl
  · rw [disarm _ (trackDisarm_good hb), if_pos ho]; rfl
  · rw [disarm _ (trackDisarm_good hb), if_neg (by rw [hd]; decide), if_pos hd]; rfl
  · rw [disarm _ (trackDisarm_good hb), if_neg ho, if_neg hd, trackTo_ne s t .disarmed rfl hd]
    rfl

end Sys2Proof.Proofs


/-! PROOFS. Detector heads, track timers, and the crossings that make no axle and clear nothing. -/

namespace Sys2Proof.Proofs

open Sys2Proof.Machine

/-! ## Detector heads -/

theorem setHealth_track (s : State) (t : Track) (h : Head) (v : Health) :
    (s.setHealth t h v).tracks[t] = { s.tracks[t] with health := s.tracks[t].health.set h v } :=
  tracks_setTrack s t _

/-- A level reported for a healthy head of a DISARMED or HEAD_FAULT track leads to nothing (R9). -/
theorem actOnFault_unarmed {s : State} {t : Track}
    (h : s.tracks[t].state = .disarmed ∨ s.tracks[t].state = .headFault) : s.actOnFault t = s := by
  unfold State.actOnFault
  rcases h with h | h <;> rw [h]

/-- A fault on an IGNORING or VACANT track takes it to HEAD_FAULT (R9). -/
theorem actOnFault_armed {s : State} {t : Track}
    (h : s.tracks[t].state = .ignoring ∨ s.tracks[t].state = .vacant) :
    s.actOnFault t = s.trackTo t .headFault := by
  unfold State.actOnFault
  rcases h with h | h <;> rw [h]

/-- A fault on an OCCUPIED track abandons its passage (R9, R43). -/
theorem actOnFault_occupied {s : State} {t : Track} (h : s.tracks[t].state = .occupied) :
    s.actOnFault t = (s.trackTo t .headFault).abandonByFault t := by
  unfold State.actOnFault
  rw [h]

theorem execHeadFault_healthy {s : State} {t : Track} {h : Head}
    (hh : s.tracks[t].health.get h = .healthy) :
    exec (.headFault t h) s = .next ((s.setHealth t h .fault).actOnFault t).endEvent :=
  if_neg (by rw [hh]; decide)

theorem execHeadHealthy_fault {s : State} {t : Track} {h : Head} (hh : s.tracks[t].health.get h = .fault) :
    exec (.headHealthy t h) s = .next ((s.setHealth t h .healthy).actOnRecovery t).endEvent :=
  if_neg (by rw [hh]; decide)

/-- A track changed in health and then in state, off OCCUPIED: one record is written. -/
theorem setHealth_trackTo {s : State} {t : Track} {new : TrackState} (h : Head) (v : Health)
    (hs : s.tracks[t].sound) (ho : s.tracks[t].state ≠ .occupied) (hnew : new ≠ .occupied)
    (hne : s.tracks[t].state ≠ new) :
    (s.setHealth t h v).trackTo t new = (s.setTrack t { s.tracks[t] with
        state := new
        health := s.tracks[t].health.set h v
        quiet := if new = .ignoring then some (s.clock.elapsed + s.quietTime t) else none
      }).queueNotice (.trackState t s.tracks[t].state new (s.tracks[t].health.set h v)) := by
  rw [trackTo_idle (setHealth_track s t h v) hs ho hnew hne]
  exact congrArg (State.queueNotice · _) (setTrack_setTrack s t _ _)

/-- A recovery that does not end the faults of a HEAD_FAULT track leads to nothing more (R10). -/
theorem actOnRecovery_stays {s : State} {t : Track}
    (h : s.tracks[t].state ≠ .headFault ∨ s.tracks[t].health ≠ .allHealthy) : s.actOnRecovery t = s := by
  unfold State.actOnRecovery
  refine if_neg (fun hh => ?_)
  rcases h with h | h
  · exact h hh.1
  · exact h ((allWell_iff _).1 hh.2)

/-- The recovery of the last faulty head of a HEAD_FAULT track (R10). -/
theorem actOnRecovery_recovers {s : State} {t : Track} (h : s.tracks[t].state = .headFault)
    (hw : s.tracks[t].health = .allHealthy) : s.actOnRecovery t = s.trackTo t .ignoring :=
  if_pos ⟨h, (allWell_iff _).2 hw⟩

/-- Settles O38: a level that the head has is no event; else the health is written, and the track's state
decides what follows. -/
theorem headLevels : Obligations.HeadLevels := by
  intro s t h m hsound hm
  subst hm
  refine ⟨fun hf => if_pos hf, fun hf => if_pos hf, fun hh => ?_, fun hf => ?_⟩
  · rw [execHeadFault_healthy hh]
    have hstate : (s.setHealth t h .fault).tracks[t].state = s.tracks[t].state := by
      rw [setHealth_track]
    refine ⟨fun hst => ?_, fun hst => ?_⟩
    · rw [actOnFault_unarmed (by rw [hstate]; exact hst)]; rfl
    · rw [actOnFault_armed (by rw [hstate]; exact hst),
        setHealth_trackTo h .fault (hsound t) (by rcases hst with e | e <;> rw [e] <;> decide) (by decide)
          (by rcases hst with e | e <;> rw [e] <;> decide), if_neg (by decide)]
  · rw [execHeadHealthy_fault hf]
    refine ⟨fun hst hw => ?_, fun hst => ?_⟩
    · rw [actOnRecovery_recovers (by rw [setHealth_track]; exact hst) (by rw [setHealth_track]; exact hw),
        setHealth_trackTo h .healthy (hsound t) (by rw [hst]; decide) (by decide) (by rw [hst]; decide),
        if_pos rfl, hst, hw]
    · rw [actOnRecovery_stays (by rw [setHealth_track]; exact hst)]; rfl

/-! ## Track timers -/

theorem ended_some {s : State} {e : Nat} (h : e ≤ s.clock.elapsed) : s.ended (some e) = true :=
  decide_eq_true h

theorem not_ended_some {s : State} {e : Nat} (h : s.clock.elapsed < e) : ¬ s.ended (some e) = true := by
  change ¬ decide (e ≤ s.clock.elapsed) = true
  rw [decide_eq_true_eq]
  omega

theorem not_ended_none (s : State) : ¬ s.ended none = true := Bool.false_ne_true

/-- The pair timeout of a FIFO's oldest entry on the track of an open passage (R16). -/
theorem expirePair_ended {s : State} {t : Track} {side : Side} {e : PairEntry} {rest : List PairEntry}
    {p : Passage} (hf : s.tracks[t].fifo side = e :: rest) (he : e.ends ≤ s.clock.elapsed)
    (hp : s.openPassageOn t = some p) :
    s.expirePair t side
      = (s.setTrack t (s.tracks[t].setFifo side rest)).recordFault p.number .pairTimeout none none := by
  unfold State.expirePair
  dsimp only
  rw [hf]
  dsimp only
  rw [if_pos (ended_some he), hp]

/-- Settles O40: a timer that has not ended is no event; the quiet timer runs in IGNORING only, and the open
passage of the track takes the PAIR_TIMEOUT. -/
theorem trackTimers : Obligations.TrackTimers := by
  intro s t hinv
  refine ⟨fun e he => ⟨fun hle => ?_, fun hlt => ?_⟩, fun hn => ?_, fun side e rest hf => ⟨fun hle p hp hpt ho => ?_,
    fun hlt => ?_⟩, fun side hf => ?_⟩
  · have hst : s.tracks[t].state = .ignoring := (hinv.1 t).1.1 (by rw [he]; rfl)
    have hgo := trackTo_idle (new := .vacant) rfl (hinv.1 t) (by rw [hst]; decide) (by decide)
      (by rw [hst]; decide)
    rw [if_neg (by decide), hst] at hgo
    rw [← hgo]
    exact if_pos (by rw [he]; exact ended_some hle)
  · exact if_neg (by rw [he]; exact not_ended_some hlt)
  · exact if_neg (by rw [hn]; exact not_ended_none s)
  · have hfound := openPassageOn_of_mem hinv hp ho
    rw [hpt] at hfound
    refine (if_pos (by rw [hf]; exact ended_some hle)).trans ?_
    rw [expirePair_ended hf hle hfound]; rfl
  · exact if_neg (by rw [hf]; exact not_ended_some hlt)
  · exact if_neg (by rw [hf]; exact not_ended_none s)

/-! ## Crossings off OCCUPIED -/

theorem crossing_ignored {s : State} {t : Track} (h : Head)
    (hst : s.tracks[t].state = .disarmed ∨ s.tracks[t].state = .headFault) : s.crossing t h = s := by
  unfold State.crossing
  rcases hst with hst | hst <;> rw [hst]

theorem crossing_ignoring {s : State} {t : Track} (h : Head) (hst : s.tracks[t].state = .ignoring) :
    s.crossing t h = s.trackTo t .ignoring := by
  unfold State.crossing; rw [hst]

theorem crossing_stray {s : State} {t : Track} {h : Head} (hst : s.tracks[t].state = .vacant)
    (hh : h.isOuter = false) : s.crossing t h = s.queueNotice (.strayCrossing t h s.clock.time) := by
  unfold State.crossing; rw [hst]; dsimp only; rw [if_neg (by rw [hh]; decide)]; rfl

theorem crossing_opens {s : State} {t : Track} {h : Head} (hst : s.tracks[t].state = .vacant)
    (hh : h.isOuter = true) : s.crossing t h = s.askOpening t h.side := by
  unfold State.crossing; rw [hst]; dsimp only; rw [if_pos hh]

/-- A crossing on an IGNORING track restarts the quiet timer and changes nothing else (R12). -/
theorem trackTo_ignoring_again {s : State} {t : Track} (hs : s.tracks[t].sound)
    (hst : s.tracks[t].state = .ignoring) :
    s.trackTo t .ignoring
      = s.setTrack t { s.tracks[t] with quiet := some (s.clock.elapsed + s.quietTime t) } := by
  obtain ⟨hA, hB, -⟩ := idle_track hs (by rw [hst]; decide)
  rw [trackTo_same s t .ignoring rfl hst, if_neg (by decide), if_neg (by decide), if_pos rfl]
  simp only [hA, hB]

theorem quietTime_queueNotice (s : State) (n : Notice) (t : Track) :
    (s.queueNotice n).quietTime t = s.quietTime t := by
  unfold State.quietTime State.activeContents State.bank
  rw [State.queueNotice_banks]

/-- The refusal of a passage: OPEN_REFUSED, and the track goes to IGNORING (R29). -/
theorem askOpening_refused {s : State} {t : Track} (side : Side) (hs : s.tracks[t].sound)
    (hst : s.tracks[t].state = .vacant) (hl : passagePlaces ≤ s.table.passages.length) :
    s.askOpening t side = ((s.setTrack t { s.tracks[t] with
        state := .ignoring, quiet := some (s.clock.elapsed + s.quietTime t) }).queueNotice
          (.openRefused t (directionFrom side) s.clock.time)).queueNotice
            (.trackState t .vacant .ignoring s.tracks[t].health) := by
  have ht : (s.queueNotice (.openRefused t (directionFrom side) s.clock.time)).tracks[t] = s.tracks[t] := by
    rw [State.queueNotice_tracks]
  unfold State.askOpening
  rw [if_neg (Nat.not_lt.2 hl)]
  change (s.queueNotice (.openRefused t (directionFrom side) s.clock.time)).trackTo t .ignoring = _
  rw [trackTo_idle ht hs (by rw [hst]; decide) (by decide) (by rw [hst]; decide), if_pos rfl,
    queueNotice_setTrack, quietTime_queueNotice, State.queueNotice_clock, hst]

/-- A crossing pushed into a FIFO with room (R15). -/
theorem pushCrossing_room {s : State} {t : Track} (p : Passage) {side : Side}
    (h : (s.tracks[t].fifo side).length < 4) :
    s.pushCrossing t p side = s.setTrack t (s.tracks[t].setFifo side
      (s.tracks[t].fifo side ++ [⟨s.clock.time, s.clock.elapsed + 2000000⟩])) := by
  unfold State.pushCrossing
  exact if_pos h

/-- A crossing pushed into a full FIFO: the oldest entry is lost (R15). -/
theorem pushCrossing_full {s : State} {t : Track} (p : Passage) {side : Side}
    (h : (s.tracks[t].fifo side).length = 4) :
    s.pushCrossing t p side = (s.setTrack t (s.tracks[t].setFifo side
      ((s.tracks[t].fifo side).drop 1 ++ [⟨s.clock.time, s.clock.elapsed + 2000000⟩]))).recordFault
        p.number .pairOverflow none none := by
  unfold State.pushCrossing
  exact if_neg (by rw [h]; decide)

/-- The track of a passage just opened: OCCUPIED, the crossing alone in its FIFO. -/
def openedTrack (m : TrackMonitor) (side : Side) (entry : PairEntry) : TrackMonitor :=
  { m with
    state := .occupied
    fifoA := if side = .sideA then [entry] else []
    fifoB := if side = .sideB then [entry] else [] }

/-- A passage opened on a VACANT track: record, counter, PASSAGE_OPENED, the track OCCUPIED with the crossing
in its FIFO, and TRACK_STATE (R13, R15, R21, R27, R28). -/
theorem openPassage_eq {s : State} {t : Track} (side : Side) (bank : BankNo) (hs : s.tracks[t].sound)
    (hst : s.tracks[t].state = .vacant) :
    s.openPassage t side bank = (((s.withPassage
        (Passage.new s.newNumber t (directionFrom side) bank s.clock.epoch s.clock.time
          (s.clock.elapsed + 10000000)) (numberAfter s.newNumber)).setTrack t
        (openedTrack s.tracks[t] side ⟨s.clock.time, s.clock.elapsed + 2000000⟩)).queueNotice
        (.passageOpened s.newNumber t (directionFrom side) bank s.clock.time)).queueNotice
          (.trackState t .vacant .occupied s.tracks[t].health) := by
  obtain ⟨hA, hB, hquiet⟩ := idle_track hs (by rw [hst]; decide)
  have hq := hquiet (by rw [hst]; decide)
  generalize hp : Passage.new s.newNumber t (directionFrom side) bank s.clock.epoch s.clock.time
    (s.clock.elapsed + 10000000) = p
  generalize hn : Notice.passageOpened s.newNumber t (directionFrom side) bank s.clock.time = note
  have htrack : ((s.withPassage p (numberAfter s.newNumber)).queueNotice note).tracks[t] = s.tracks[t] := by
    rw [State.queueNotice_tracks]; rfl
  have hgo := trackTo_ne _ t .occupied htrack (by rw [hst]; decide)
  rw [if_pos rfl, if_pos rfl, if_neg (by decide), queueNotice_setTrack] at hgo
  have hopen : s.openPassage t side bank = (((s.withPassage p (numberAfter s.newNumber)).queueNotice
      note).trackTo t .occupied).pushCrossing t p side := by
    rw [← hp, ← hn]; rfl
  rw [hopen, hgo]
  set m : TrackMonitor := { s.tracks[t] with
    state := .occupied, fifoA := s.tracks[t].fifoA, fifoB := s.tracks[t].fifoB, quiet := none } with hm
  set v := (((s.withPassage p (numberAfter s.newNumber)).setTrack t m).queueNotice note).queueNotice
    (.trackState t s.tracks[t].state .occupied s.tracks[t].health) with hv
  have hvt : v.tracks[t] = m := by
    rw [hv, State.queueNotice_tracks, State.queueNotice_tracks, tracks_setTrack]
  have hempty : m.fifo side = [] := by cases side <;> assumption
  have hclock : v.clock = s.clock := by rw [hv, State.queueNotice_clock, State.queueNotice_clock]; rfl
  rw [pushCrossing_room p (by rw [hvt, hempty]; decide), hvt, hempty, hclock, hv, queueNotice_setTrack,
    queueNotice_setTrack, setTrack_setTrack, hst]
  congr 3
  rw [hm]
  cases side
  · simp only [TrackMonitor.setFifo, openedTrack, hB, hq]; rfl
  · simp only [TrackMonitor.setFifo, openedTrack, hA, hq]; rfl

/-- The number found is an iterate of the counter's value, and every iterate before it is held (R28). -/
theorem unusedNumber_iterate (bound : Nat) (held : List Nat) (n : Nat) :
    ∃ k ≤ bound, unusedNumber bound held n = numberAfter^[k] n ∧ ∀ j < k, numberAfter^[j] n ∈ held := by
  induction bound generalizing n with
  | zero => exact ⟨0, Nat.le_refl 0, rfl, fun j hj => absurd hj (Nat.not_lt_zero j)⟩
  | succ bound ih =>
    unfold unusedNumber
    by_cases hn : n ∈ held
    · obtain ⟨k, hk, he, hheld⟩ := ih (numberAfter n)
      refine ⟨k + 1, Nat.succ_le_succ hk, ?_, fun j hj => ?_⟩
      · rw [if_pos (List.contains_iff_mem.2 hn), he, Function.iterate_succ_apply]
      · cases j with
        | zero => exact hn
        | succ j => exact hheld j (Nat.lt_of_succ_lt_succ hj)
    · refine ⟨0, Nat.zero_le _, ?_, fun j hj => absurd hj (Nat.not_lt_zero j)⟩
      rw [if_neg (fun hc => hn (List.contains_iff_mem.1 hc))]; rfl

/-- A search that has found a number that is not held finds the same one with a higher bound. -/
theorem unusedNumber_succ (bound : Nat) (held : List Nat) (n : Nat) (h : unusedNumber bound held n ∉ held) :
    unusedNumber (bound + 1) held n = unusedNumber bound held n := by
  induction bound generalizing n with
  | zero => exact if_neg (fun hc => h (List.contains_iff_mem.1 hc))
  | succ bound ih =>
    by_cases hn : held.contains n = true
    · have step : ∀ b, unusedNumber (b + 1) held n = unusedNumber b held (numberAfter n) :=
        fun b => if_pos hn
      rw [step] at h ⊢
      rw [step, ih _ h]
    · have stop : ∀ b, unusedNumber (b + 1) held n = n := fun b => if_neg hn
      rw [stop, stop]

theorem repeat_numberAfter (k n : Nat) :
    Nat.repeat (fun n => if n = 65535 then 1 else n + 1) k n = numberAfter^[k] n := by
  induction k with
  | zero => rfl
  | succ k ih => rw [Function.iterate_succ_apply', ← ih]; rfl

/-- The number of a new passage with at most seven live (R28). -/
theorem newNumber_spec {s : State} (h : s.numbered) (hl : s.table.passages.length < 8) :
    ∃ k ≤ 7, s.newNumber = numberAfter^[k] s.table.nextNumber
      ∧ ∀ j < k, ∃ p ∈ s.table.passages, p.number = numberAfter^[j] s.table.nextNumber := by
  obtain ⟨-, -, -, hnext⟩ := h
  have hfree := unusedNumber_unheld 7 (s.table.passages.map (·.number)) hnext (by decide)
    (by rw [List.length_map]; omega)
  obtain ⟨k, hk, he, hheld⟩ := unusedNumber_iterate 7 (s.table.passages.map (·.number)) s.table.nextNumber
  refine ⟨k, hk, (unusedNumber_succ 7 _ _ hfree).trans he, fun j hj => ?_⟩
  obtain ⟨p, hp, hpn⟩ := List.mem_map.1 (hheld j hj)
  exact ⟨p, hp, hpn⟩

/-- Settles O41: the crossing by the track's state; then the number rule, by the search over the counter's
iterates. -/
theorem crossingOffOccupied : Obligations.CrossingOffOccupied := by
  refine ⟨fun s t h m hsound hm => ?_, fun s hn hl => ?_⟩
  · subst hm
    refine ⟨fun hst => ?_, fun hst => ?_, fun hst hh => ?_, fun d hst hd => ?_⟩
    · change Host.Outcome.next (s.crossing t h).endEvent = _
      rw [crossing_ignored h hst]
    · change Host.Outcome.next (s.crossing t h).endEvent = _
      rw [crossing_ignoring h hst, trackTo_ignoring_again (hsound t) hst]
    · change Host.Outcome.next (s.crossing t h).endEvent = _
      rw [crossing_stray hst (by rcases hh with rfl | rfl <;> rfl)]
    · have hask : exec (.crossing t h) s = .next (s.askOpening t h.side).endEvent := by
        change Host.Outcome.next (s.crossing t h).endEvent = _
        rw [crossing_opens hst (by rcases hd with ⟨rfl, -⟩ | ⟨rfl, -⟩ <;> rfl)]
      have hdir : d = directionFrom h.side := by rcases hd with ⟨rfl, rfl⟩ | ⟨rfl, rfl⟩ <;> rfl
      refine ⟨fun hl => ?_, fun bank hl hbank => ?_⟩
      · rw [hask, askOpening_refused _ (hsound t) hst hl, hdir]
      · have hopen : s.askOpening t h.side = s.openPassage t h.side bank := by
          unfold State.askOpening
          rw [hbank]; exact if_pos hl
        rw [hask, hopen, openPassage_eq _ _ (hsound t) hst]
        rcases hd with ⟨rfl, rfl⟩ | ⟨rfl, rfl⟩ <;> rfl
  · obtain ⟨hrange, hfresh⟩ := s.newNumber_fresh hn hl
    obtain ⟨k, hk, he, hheld⟩ := newNumber_spec hn hl
    refine ⟨hrange.1, hrange.2, hfresh, k, hk, ?_, fun j hj => ?_⟩
    · rw [repeat_numberAfter]; exact he
    · rw [repeat_numberAfter]; exact hheld j hj

/-! ## Crossings on OCCUPIED -/

/-- A crossing on a track with an open passage is routed by its head (R14). -/
theorem crossing_occupied {s : State} {p : Passage} (h : Head) (hinv : s.tracksInv)
    (hp : p ∈ s.table.passages) (ho : p.state = .approaching ∨ p.state = .tail) :
    s.crossing p.track h = s.routeCrossing p.track h p := by
  unfold State.crossing
  rw [occupied_of_mem hinv hp ho, openPassageOn_of_mem hinv hp ho]

theorem routeCrossing_outer {s : State} {t : Track} {h : Head} {p : Passage}
    (hs : h.side = p.direction.approach) (ho : h.isOuter = true) :
    s.routeCrossing t h p = s.pushCrossing t p h.side := by
  unfold State.routeCrossing; rw [if_pos hs, if_pos ho]

theorem routeCrossing_inner {s : State} {t : Track} {h : Head} {p : Passage}
    (hs : h.side = p.direction.approach) (ho : h.isOuter = false) :
    s.routeCrossing t h p = s.pairCrossing t p h.side := by
  unfold State.routeCrossing; rw [if_pos hs, if_neg (by rw [ho]; decide)]

theorem routeCrossing_exitOuter {s : State} {t : Track} {h : Head} {p : Passage}
    (hs : h.side ≠ p.direction.approach) (ho : h.isOuter = true) :
    s.routeCrossing t h p = s.exitCrossing p.number := by
  unfold State.routeCrossing; rw [if_neg hs, if_pos ho]

theorem routeCrossing_exitInner {s : State} {t : Track} {h : Head} {p : Passage}
    (hs : h.side ≠ p.direction.approach) (ho : h.isOuter = false) : s.routeCrossing t h p = s := by
  unfold State.routeCrossing; rw [if_neg hs, if_neg (by rw [ho]; decide)]

theorem pairCrossing_empty {s : State} {t : Track} {p : Passage} {side : Side}
    (hf : s.tracks[t].fifo side = []) :
    s.pairCrossing t p side = s.recordFault p.number .headOrder none none := by
  unfold State.pairCrossing; dsimp only; rw [hf]

/-- Changes of a record that agree on the one the number finds are the same change. -/
theorem modifyPassage_congr {s : State} {n : Nat} {f g : Passage → Passage}
    (h : ∀ p, s.passage? n = some p → f p = g p) : s.modifyPassage n f = s.modifyPassage n g := by
  have key : changePassage n f s.table.passages = changePassage n g s.table.passages := by
    revert h
    unfold State.passage?
    generalize s.table.passages = l
    intro h
    induction l with
    | nil => rfl
    | cons a l ih =>
      unfold changePassage
      by_cases ha : a.number = n
      · rw [if_pos ha, if_pos ha, h a (List.find?_cons_of_pos (by simpa using ha))]
      · rw [if_neg ha, if_neg ha, ih (fun p hp => h p (by
          rw [List.find?_cons_of_neg (by simpa using ha)]; exact hp))]
  unfold State.modifyPassage
  rw [key]

/-- The record of a passage with an exit crossing counted (R36). -/
theorem countExit_eq (p : Passage) : p.countExit = { p with
    exitCount := min 65535 (p.exitCount + 1)
    faults := if p.axleTotal < min 65535 (p.exitCount + 1) then p.faults.record .exitExcess none none
      else p.faults } := by
  unfold Passage.countExit
  dsimp only
  split
  · rename_i h
    have h : p.axleTotal < min 65535 (p.exitCount + 1) := h
    rw [if_pos h]; rfl
  · rename_i h
    have h : ¬ p.axleTotal < min 65535 (p.exitCount + 1) := h
    rw [if_neg h]; rfl

/-- An exit crossing counted where the passage does not clear by it (R36, R37). -/
theorem exitCrossing_stays {s : State} {p : Passage} (hp : s.passage? p.number = some p)
    (h : p.state = .approaching ∨ min 65535 (p.exitCount + 1) < p.axleTotal) :
    s.exitCrossing p.number = s.modifyPassage p.number (·.countExit) := by
  have hnumber : ∀ q : Passage, q.countExit.number = q.number := fun q => by rw [countExit_eq]
  unfold State.exitCrossing State.checkCleared
  rw [passage?_modifyPassage hnumber hp]
  refine if_neg (fun hc => ?_)
  rw [countExit_eq] at hc
  obtain ⟨hstate, htotal⟩ := hc
  rcases h with h | h
  · rw [h] at hstate; cases hstate
  · exact absurd h (Nat.not_lt.2 htotal)

/-- Settles O42: the approach side's FIFO decides about an approach crossing, the count about an exit
crossing. -/
theorem crossingOnOccupied : Obligations.CrossingOnOccupied := by
  intro s t p side outer inner hinv hp hpt ho hdir
  subst hpt
  have hfound := passage?_of_mem hinv.2.1 hp
  have run : ∀ (h : Head) (u : State), s.routeCrossing p.track h p = u →
      exec (.crossing p.track h) s = .next u.endEvent := by
    intro h u hu
    rw [← hu, ← crossing_occupied h hinv hp ho]; rfl
  have happroach : side = p.direction.approach ∧ outer.side = side ∧ inner.side = side
      ∧ outer.isOuter = true ∧ inner.isOuter = false := by
    rcases hdir with ⟨hd, rfl, rfl, rfl⟩ | ⟨hd, rfl, rfl, rfl⟩ <;> rw [hd] <;> decide
  obtain ⟨hside, houter, hinner, hisOuter, hisInner⟩ := happroach
  refine ⟨fun f hf => ⟨fun hl => run _ _ ?_, fun hl => run _ _ ?_, fun he => run _ _ ?_⟩,
    fun exitOuter exitInner hexit => ?_⟩
  · subst hf
    rw [routeCrossing_outer (houter.trans hside) hisOuter, houter, pushCrossing_room p hl]
  · subst hf
    rw [routeCrossing_outer (houter.trans hside) hisOuter, houter, pushCrossing_full p hl]; rfl
  · subst hf
    rw [routeCrossing_inner (hinner.trans hside) hisInner, hinner, pairCrossing_empty he]; rfl
  · have hfar : exitOuter.side ≠ p.direction.approach ∧ exitInner.side ≠ p.direction.approach
        ∧ exitOuter.isOuter = true ∧ exitInner.isOuter = false := by
      rcases hexit with ⟨hd, rfl, rfl⟩ | ⟨hd, rfl, rfl⟩ <;> rw [hd] <;> decide
    obtain ⟨hfarOuter, hfarInner, hexitOuter, hexitInner⟩ := hfar
    refine ⟨run _ _ (routeCrossing_exitInner hfarInner hexitInner), fun n hn hstay => run _ _ ?_⟩
    subst hn
    rw [routeCrossing_exitOuter hfarOuter hexitOuter, exitCrossing_stays hfound hstay]
    refine modifyPassage_congr (fun q hq => ?_)
    obtain rfl := Option.some.inj (hq.symm.trans hfound)
    exact countExit_eq q

end Sys2Proof.Proofs


/-! PROOFS. Winding down the shots of a passage that enters STOPPING (R44, R88, R125). -/

namespace Sys2Proof.Proofs

open Sys2Proof.Machine

/-! ## A DISCARD placed on a line (R112) -/

/-- A line with an order placed pending and issued if the line is free. -/
def placedLine (l : CameraLine) (o : Order) (elapsed : Nat) : CameraLine := (l.pend o).issue elapsed

theorem placeOrder_eq (s : State) (c : Camera) (o : Order) :
    s.placeOrder c o = s.setLine c (placedLine s.lines[c] o s.clock.elapsed) := by
  unfold State.placeOrder State.issueOrder State.pendOrder
  rw [setLine_setLine, lines_setLine]; rfl

/-- Placing an order writes a line's orders and its order in flight only. -/
theorem placedLine_frame (l : CameraLine) (o : Order) (elapsed : Nat) :
    placedLine l o elapsed = { l with
      orders := (placedLine l o elapsed).orders, outstanding := (placedLine l o elapsed).outstanding } := by
  have hpend : ∀ l : CameraLine, l.pend o = { l with orders := (l.pend o).orders } := by
    intro l; unfold CameraLine.pend; split <;> rfl
  have hissue : ∀ l : CameraLine, l.issue elapsed = { l with
      orders := (l.issue elapsed).orders, outstanding := (l.issue elapsed).outstanding } := by
    intro l; unfold CameraLine.issue
    split
    · rfl
    · split <;> rfl
  unfold placedLine
  rw [hissue, hpend]

theorem pend_outstanding (l : CameraLine) (o : Order) : (l.pend o).outstanding = l.outstanding := by
  unfold CameraLine.pend; split <;> rfl

/-- An order in flight goes on when another is placed. -/
theorem placedLine_inFlight {l : CameraLine} {x : Outstanding} (o : Order) (elapsed : Nat)
    (h : l.outstanding = some x) : (placedLine l o elapsed).outstanding = some x := by
  have hp : (l.pend o).outstanding = some x := (pend_outstanding l o).trans h
  unfold placedLine CameraLine.issue
  rw [hp]; exact hp

/-- A line without orders issues a placed one at once (R112, R116). -/
theorem placedLine_idle {l : CameraLine} {slot : SlotNo} (elapsed : Nat) (h : l.outstanding = none)
    (ho : l.orders = .none) :
    (placedLine l (.discard slot) elapsed).outstanding = some ⟨.discard slot, elapsed + 50000, false⟩ := by
  obtain ⟨state, slots, orders, outstanding, accumulated, mark, linking⟩ := l
  obtain rfl : outstanding = none := h
  obtain rfl : orders = .none := ho
  match slot with
  | 0 => rfl
  | 1 => rfl

/-- A DISCARD of a slot is pending on a line, or in flight with its result awaited. -/
def discardPlaced (l : CameraLine) (slot : SlotNo) : Prop :=
  l.orders.has (.discard slot) = true ∨ ∃ ends, l.outstanding = some ⟨.discard slot, ends, false⟩

theorem sharesOutstanding_discard {l : CameraLine} {slot : SlotNo}
    (h : l.sharesOutstanding (.discard slot) = true) :
    ∃ ends, l.outstanding = some ⟨.discard slot, ends, false⟩ := by
  unfold CameraLine.sharesOutstanding at h
  split at h
  · rename_i x hx
    obtain ⟨order, ends, ignored⟩ := x
    simp only [Bool.and_eq_true, Bool.not_eq_true'] at h
    obtain ⟨rfl, hkind⟩ := h
    cases order with
    | discard k =>
      obtain rfl : k = slot := eq_of_beq hkind
      exact ⟨ends, hx⟩
    | relink => cases hkind
    | read a b d => cases hkind
    | sense => cases hkind
  · cases h

theorem has_add_discard (p : PendingOrders) (a b : SlotNo) :
    (p.add (.discard a)).has (.discard b) = (p.has (.discard b) || (a == b)) := by
  match a, b with
  | 0, 0 => simp [PendingOrders.add, PendingOrders.has]
  | 0, 1 => simp [PendingOrders.add, PendingOrders.has]
  | 1, 0 => simp [PendingOrders.add, PendingOrders.has]
  | 1, 1 => simp [PendingOrders.add, PendingOrders.has]

/-- A DISCARD placed pending stands for its own slot, and leaves those of others standing. -/
theorem discardPlaced_pend {l : CameraLine} {a b : SlotNo} (h : a = b ∨ discardPlaced l b) :
    discardPlaced (l.pend (.discard a)) b := by
  unfold CameraLine.pend
  split
  · rename_i hshared
    rcases h with rfl | h
    · rcases Bool.or_eq_true_iff.1 hshared with hp | hs
      · exact .inl hp
      · exact .inr (sharesOutstanding_discard hs)
    · exact h
  · rcases h with rfl | h | h
    · exact .inl (by rw [has_add_discard]; simp)
    · exact .inl (by rw [has_add_discard, h]; rfl)
    · exact .inr h

/-- The order that a line issues is the one that leaves its pending orders (R112). -/
theorem next_discard {p rest : PendingOrders} {o : Order} {slot : SlotNo} (hn : p.next = some (o, rest))
    (h : p.has (.discard slot) = true) : rest.has (.discard slot) = true ∨ o = .discard slot := by
  unfold PendingOrders.next at hn
  split at hn
  · cases hn; exact .inl h
  split at hn
  · cases hn
    match slot with
    | 0 => exact .inr rfl
    | 1 => exact .inl h
  split at hn
  · cases hn
    match slot with
    | 0 => exact .inl h
    | 1 => exact .inr rfl
  split at hn
  · cases hn; exact .inl h
  split at hn
  · cases hn; exact .inl h
  · cases hn

theorem discardPlaced_issue {l : CameraLine} {slot : SlotNo} (elapsed : Nat) (h : discardPlaced l slot) :
    discardPlaced (l.issue elapsed) slot := by
  unfold CameraLine.issue
  split
  · exact h
  · rename_i hfree
    have hpending : l.orders.has (.discard slot) = true := by
      rcases h with h | ⟨ends, h⟩
      · exact h
      · rw [hfree] at h; cases h
    split
    · rename_i o rest hn
      rcases next_discard hn hpending with hr | rfl
      · exact .inl hr
      · exact .inr ⟨_, rfl⟩
    · exact .inl hpending

theorem discardPlaced_placedLine {l : CameraLine} {a b : SlotNo} (elapsed : Nat)
    (h : a = b ∨ discardPlaced l b) : discardPlaced (placedLine l (.discard a) elapsed) b :=
  discardPlaced_issue elapsed (discardPlaced_pend h)

/-! ## One shot wound down -/

/-- A passage with its first shots only, as far as winding down has come. -/
def firstShots (p : Passage) (i : Nat) : Passage := { p with shots := p.shots.take i }

theorem getElem?_firstShots_succ {p : Passage} {i : Nat} {k : Shot} (hk : p.shots[i]? = some k) (j : Nat)
    (k' : Shot) : (firstShots p (i + 1)).shots[j]? = some k'
      ↔ (firstShots p i).shots[j]? = some k' ∨ (j = i ∧ k' = k) := by
  simp only [firstShots, List.getElem?_take]
  by_cases hj : j < i
  · rw [if_pos (Nat.lt_succ_of_lt hj), if_pos hj]
    exact ⟨.inl, fun h => h.elim id (fun h => absurd h.1 (Nat.ne_of_lt hj))⟩
  · rw [if_neg hj]
    by_cases he : j = i
    · subst he
      rw [if_pos (Nat.lt_succ_self j), hk]
      simp [eq_comm]
    · rw [if_neg (by omega)]
      simp [he]

/-- A reference to one shot more. -/
theorem refIn_firstShots_succ {p : Passage} {i : Nat} {k : Shot} (hk : p.shots[i]? = some k)
    (states : List ShotState) (r : ShotRef) :
    (firstShots p (i + 1)).refIn states r
      = ((firstShots p i).refIn states r || (r == ⟨p.number, i⟩ && states.contains k.state)) := by
  rw [Bool.eq_iff_iff]
  simp only [Passage.refIn, Bool.or_eq_true, Bool.and_eq_true, beq_iff_eq, Option.any_eq_true]
  constructor
  · rintro ⟨hn, k', hk', hs⟩
    rcases (getElem?_firstShots_succ hk _ _).1 hk' with h | ⟨hi, rfl⟩
    · exact .inl ⟨hn, k', h, hs⟩
    · refine .inr ⟨?_, hs⟩
      obtain ⟨a, b⟩ := r
      obtain rfl : a = p.number := hn
      obtain rfl : b = i := hi
      rfl
  · rintro (⟨hn, k', hk', hs⟩ | ⟨rfl, hs⟩)
    · exact ⟨hn, k', (getElem?_firstShots_succ hk _ _).2 (.inl hk'), hs⟩
    · exact ⟨rfl, k, (getElem?_firstShots_succ hk _ _).2 (.inr ⟨rfl, rfl⟩), hs⟩

/-- With no shot taken, nothing is wound down. -/
theorem woundDown_none (s : State) (p : Passage) : WoundDown s s (firstShots p 0) := by
  have href : ∀ states r, (firstShots p 0).refIn states r = false := by
    intro states r; simp [firstShots, Passage.refIn]
  have hshots : ∀ (i : Nat) (k : Shot), (firstShots p 0).shots[i]? ≠ some k := by
    intro i k; simp [firstShots]
  refine ⟨?_, ?_, ?_, fun c => rfl, fun c _ => rfl, fun c o h => h, fun i k slot h => absurd h (hshots i k),
    fun i k slot h => absurd h (hshots i k)⟩
  · simp [href]
  · simp [href]
  · simp [href]

/-- One shot more has been taken that was not HELD: only the shot queue may change, by the shot's own place. -/
theorem woundDown_takes {s u v : State} {p : Passage} {i : Nat} {k : Shot}
    (h : WoundDown s u (firstShots p i)) (hk : p.shots[i]? = some k) (hheld : k.state ≠ .held)
    (hq : v.shotQueue = u.shotQueue.filter (fun r =>
      !(r == ⟨p.number, i⟩ && [ShotState.planned, .frozen].contains k.state)))
    (hl : v.lines = u.lines) (hr : v.readout = u.readout) (hm : v.memory = u.memory) :
    WoundDown s v (firstShots p (i + 1)) := by
  have hsame : ∀ r, (firstShots p (i + 1)).refIn [.held] r = (firstShots p i).refIn [.held] r := by
    intro r
    have : [ShotState.held].contains k.state = false := by simpa using fun he => hheld he
    rw [refIn_firstShots_succ hk, this, Bool.and_false, Bool.or_false]
  have hback : ∀ (j : Nat) (k' : Shot), (firstShots p (i + 1)).shots[j]? = some k' → k'.state = .held →
      (firstShots p i).shots[j]? = some k' := by
    intro j k' hj hs
    rcases (getElem?_firstShots_succ hk j k').1 hj with h | ⟨-, rfl⟩
    · exact h
    · exact absurd hs hheld
  have hforth : ∀ (j : Nat) (k' : Shot), (firstShots p i).shots[j]? = some k' →
      (firstShots p (i + 1)).shots[j]? = some k' :=
    fun j k' hj => (getElem?_firstShots_succ hk j k').2 (.inl hj)
  refine ⟨?_, ?_, ?_, fun c => ?_, fun c hc => ?_, fun c o ho => ?_, fun j k' slot hj hs hslot => ?_,
    fun j k' slot hj hs hslot hfirst => ?_⟩
  · rw [hq, h.shotQueue, List.filter_filter]
    refine List.filter_congr (fun r _ => ?_)
    rw [refIn_firstShots_succ hk, Bool.not_or, Bool.and_comm]
  · rw [hr, h.readout]
    simp only [hsame]
  · rw [hm, h.memory]
    simp only [hsame]
  · rw [hl]; exact h.lines c
  · rw [hl]
    refine h.otherLines c (fun k' hk' hs => ?_)
    obtain ⟨j, hj⟩ := List.mem_iff_getElem?.1 hk'
    exact hc k' (List.mem_of_getElem? (hforth j k' hj)) hs
  · rw [hl]; exact h.inFlight c o ho
  · rw [hl]; exact h.discards j k' slot (hback j k' hj hs) hs hslot
  · rw [hl]
    exact h.issued j k' slot (hback j k' hj hs) hs hslot (fun a b hab hb => hfirst a b hab (hforth a b hb))

/-- A HELD shot taken whose camera's line is written by placing the DISCARD of its slot, if it has one. -/
theorem woundDown_discards {s u v : State} {p : Passage} {i : Nat} {k : Shot}
    (h : WoundDown s u (firstShots p i)) (hk : p.shots[i]? = some k) (hheld : k.state = .held)
    (hclock : u.clock.elapsed = s.clock.elapsed)
    (hq : v.shotQueue = u.shotQueue)
    (hl : ∀ c : Camera, v.lines[c] = if c = k.camera then
      (match u.lines[c].slotOf ⟨p.number, i⟩ with
        | some slot => placedLine u.lines[c] (.discard slot) u.clock.elapsed
        | none => u.lines[c]) else u.lines[c])
    (hr : v.readout = { u.readout with queue := u.readout.queue.filter (· != ⟨p.number, i⟩) })
    (hm : v.memory = u.memory.returnReservation ⟨p.number, i⟩) :
    WoundDown s v (firstShots p (i + 1)) := by
  have hfires : ∀ r, (firstShots p (i + 1)).refIn [.planned, .frozen] r
      = (firstShots p i).refIn [.planned, .frozen] r := by
    intro r
    rw [refIn_firstShots_succ hk, hheld]
    exact (congrArg _ (Bool.and_false _)).trans (Bool.or_false _)
  have hholds : ∀ r, (firstShots p (i + 1)).refIn [.held] r
      = ((firstShots p i).refIn [.held] r || r == ⟨p.number, i⟩) := by
    intro r
    rw [refIn_firstShots_succ hk, hheld]
    exact congrArg _ (Bool.and_true _)
  have hnew := (getElem?_firstShots_succ hk i k).2 (.inr ⟨rfl, rfl⟩)
  have hforth : ∀ (j : Nat) (k' : Shot), (firstShots p i).shots[j]? = some k' →
      (firstShots p (i + 1)).shots[j]? = some k' :=
    fun j k' hj => (getElem?_firstShots_succ hk j k').2 (.inl hj)
  have hslots : ∀ c : Camera, u.lines[c].slotOf ⟨p.number, i⟩ = s.lines[c].slotOf ⟨p.number, i⟩ := by
    intro c; rw [h.lines c]; rfl
  have hkeeps : ∀ (c : Camera) (slot : SlotNo), discardPlaced u.lines[c] slot →
      discardPlaced v.lines[c] slot := by
    intro c slot hp
    rw [hl]
    split
    · split
      · exact discardPlaced_placedLine _ (.inr hp)
      · exact hp
    · exact hp
  have hflies : ∀ (c : Camera) (o : Outstanding), u.lines[c].outstanding = some o →
      v.lines[c].outstanding = some o := by
    intro c o ho
    rw [hl]
    split
    · split
      · exact placedLine_inFlight _ _ ho
      · exact ho
    · exact ho
  refine ⟨?_, ?_, ?_, fun c => ?_, fun c hc => ?_, fun c o ho => hflies c o (h.inFlight c o ho),
    fun j k' slot hj hs hslot => ?_, fun j k' slot hj hs hslot hfirst hfree hnone => ?_⟩
  · rw [hq, h.shotQueue]; simp only [hfires]
  · rw [hr, h.readout]
    simp only [hholds, List.filter_filter, Bool.not_or, Bool.and_comm, bne]
  · rw [hm, h.memory]
    unfold FrameMemory.returnReservation
    simp only [hholds, List.filter_filter, Bool.not_or, Bool.and_comm, bne]
  · have hframe : v.lines[c] = { u.lines[c] with
        orders := v.lines[c].orders, outstanding := v.lines[c].outstanding } := by
      rw [hl]
      split
      · split
        · exact placedLine_frame _ _ _
        · rfl
      · rfl
    rw [hframe, h.lines c]
  · rw [hl, if_neg (fun he => hc k (List.mem_of_getElem? hnew) hheld he.symm)]
    refine h.otherLines c (fun k' hk' hs => ?_)
    obtain ⟨j, hj⟩ := List.mem_iff_getElem?.1 hk'
    exact hc k' (List.mem_of_getElem? (hforth j k' hj)) hs
  · rcases (getElem?_firstShots_succ hk j k').1 hj with hj | ⟨rfl, rfl⟩
    · exact hkeeps _ _ (h.discards j k' slot hj hs hslot)
    · have hs' : u.lines[k'.camera].slotOf ⟨p.number, j⟩ = some slot := (hslots _).trans hslot
      rw [hl, if_pos rfl, hs']
      exact discardPlaced_placedLine _ (.inl rfl)
  · rcases (getElem?_firstShots_succ hk j k').1 hj with hj | ⟨rfl, rfl⟩
    · exact hflies _ _ (h.issued j k' slot hj hs hslot (fun a b hab hb => hfirst a b hab (hforth a b hb))
        hfree hnone)
    · have hs' : u.lines[k'.camera].slotOf ⟨p.number, j⟩ = some slot := (hslots _).trans hslot
      have hsame : u.lines[k'.camera] = s.lines[k'.camera] := by
        refine h.otherLines _ (fun b hb hbs => ?_)
        obtain ⟨a, ha⟩ := List.mem_iff_getElem?.1 hb
        have hlt : a < j := by
          by_contra hge
          have : (firstShots p j).shots[a]? = none := by
            simp [firstShots, List.getElem?_take]; omega
          rw [this] at ha; cases ha
        exact hfirst a b hlt (hforth a b ha) hbs
      rw [hl, if_pos rfl, hs', hsame, ← hclock]
      exact placedLine_idle _ hfree hnone

/-- A shot to fire is CANCELLED, and every other keeps its state (R88). -/
def cancelled (k : Shot) : Shot :=
  if k.state = .planned ∨ k.state = .frozen then { k with state := .cancelled } else k

/-- What winding down does to the states of a shot, by the shot's state (R44). -/
theorem windDownShot_eq {s : State} {r : ShotRef} {k : Shot} (hk : s.shot? r = some k) :
    (k.state = .planned ∨ k.state = .frozen →
      s.windDownShot r = (s.leaveShotQueue r).modifyShot r (fun q => { q with state := .cancelled }))
    ∧ (k.state = .held → s.windDownShot r = s.discardHeld r k.camera)
    ∧ (k.state ≠ .planned → k.state ≠ .frozen → k.state ≠ .held → s.windDownShot r = s) := by
  unfold State.windDownShot
  rw [hk]
  dsimp only
  generalize k.state = st
  cases st <;> simp

theorem discardHeld_eq (s : State) (r : ShotRef) (c : Camera) :
    s.discardHeld r c = { s with
      readout := { s.readout with queue := s.readout.queue.filter (· != r) }
      memory := s.memory.returnReservation r
      lines := (s.discardHeld r c).lines }
    ∧ ∀ j : Camera, (s.discardHeld r c).lines[j] = if j = c then
      (match s.lines[j].slotOf r with
        | some slot => placedLine s.lines[j] (.discard slot) s.clock.elapsed
        | none => s.lines[j]) else s.lines[j] := by
  unfold State.discardHeld State.returnPages
  dsimp only
  have hlines : ((s.leaveReadoutQueue r).setMemory
      ((s.leaveReadoutQueue r).memory.returnReservation r)).lines = s.lines := rfl
  cases hslot : s.lines[c].slotOf r with
  | none =>
    rw [hlines, hslot]
    refine ⟨rfl, fun j => ?_⟩
    rw [hlines]
    split
    · rename_i hj
      subst hj
      rw [hslot]
    · rfl
  | some slot =>
    rw [hlines, hslot]
    dsimp only
    rw [placeOrder_eq]
    refine ⟨rfl, fun j => ?_⟩
    rw [State.setLine_lines, getElem_setAt]
    split
    · rename_i hj
      subst hj
      rw [hslot]; rfl
    · rfl

end Sys2Proof.Proofs


namespace Sys2Proof.Proofs

open Sys2Proof.Machine

/-! ## Every shot wound down -/

/-- The passages of other numbers are the same ones. -/
def othersStay (n : Nat) (s u : State) : Prop :=
  ∀ r : Passage, r.number ≠ n → (r ∈ u.table.passages ↔ r ∈ s.table.passages)

theorem othersStay.refl (n : Nat) (s : State) : othersStay n s s := fun _ _ => Iff.rfl

theorem othersStay.trans {n : Nat} {s t u : State} (h : othersStay n s t) (k : othersStay n t u) :
    othersStay n s u := fun r hr => (k r hr).trans (h r hr)

theorem othersStay.of_table {n : Nat} {s u : State} (h : u.table = s.table) : othersStay n s u :=
  fun _ _ => by rw [h]

/-- A change of the record with a number leaves the records of other numbers alone. -/
theorem othersStay.modifyPassage (s : State) (n : Nat) {f : Passage → Passage}
    (hf : ∀ p, (f p).number = p.number) : othersStay n s (s.modifyPassage n f) := by
  intro r hr
  refine ⟨fun h => ?_, fun h => mem_changePassage_ne h hr⟩
  change r ∈ changePassage n f s.table.passages at h
  revert h
  generalize s.table.passages = l
  induction l with
  | nil => exact id
  | cons a l ih =>
    unfold changePassage
    intro h
    split at h
    · rename_i ha
      rcases List.mem_cons.1 h with rfl | h
      · exact absurd ((hf a).trans ha) hr
      · exact List.mem_cons_of_mem _ h
    · rcases List.mem_cons.1 h with rfl | h
      · exact List.mem_cons_self
      · exact List.mem_cons_of_mem _ (ih h)

/-- The shots of a passage as far as winding down has come. -/
def shotsWoundTo (p : Passage) (i : Nat) : List Shot := (p.shots.take i).map cancelled ++ p.shots.drop i

theorem getElem?_shotsWoundTo (p : Passage) (i : Nat) : (shotsWoundTo p i)[i]? = p.shots[i]? := by
  unfold shotsWoundTo
  by_cases hi : i ≤ p.shots.length
  · rw [List.getElem?_append_right (by simp), List.getElem?_drop]
    congr 1
    simp; omega
  · have hlength : ((p.shots.take i).map cancelled ++ p.shots.drop i).length = p.shots.length := by
      simp only [List.length_append, List.length_map, List.length_take, List.length_drop]; omega
    rw [List.getElem?_eq_none (by omega), List.getElem?_eq_none (by omega)]

theorem shotsWoundTo_succ {p : Passage} {i : Nat} {k : Shot} (hk : p.shots[i]? = some k) :
    shotsWoundTo p (i + 1) = (shotsWoundTo p i).modify i (fun _ => cancelled k) := by
  obtain ⟨hi, rfl⟩ := List.getElem?_eq_some_iff.1 hk
  apply List.ext_getElem?
  intro j
  rw [List.getElem?_modify]
  unfold shotsWoundTo
  rcases Nat.lt_trichotomy j i with h | h | h
  · rw [List.getElem?_append_left (by simp; omega), List.getElem?_append_left (by simp; omega)]
    simp [List.getElem?_take, h, Nat.lt_succ_of_lt h, Nat.ne_of_gt h]
  · subst h
    rw [List.getElem?_append_left (by simp; omega), List.getElem?_append_right (by simp)]
    simp [List.getElem?_take, hi, Nat.min_eq_left (Nat.le_of_lt hi)]
  · rw [List.getElem?_append_right (by simp; omega), List.getElem?_append_right (by simp; omega)]
    simp only [List.length_map, List.length_take, List.getElem?_drop, Nat.ne_of_lt h, if_false]
    rw [show i + 1 + (j - min (i + 1) p.shots.length) = i + (j - min i p.shots.length) by omega]
    simp

/-- From s to u the first shots of the passage p have been wound down: the parts of a state that winding down
does not touch, the record of the passage, which was x, and what `WoundDown` says. -/
structure WoundTo (s u : State) (p x : Passage) (i : Nat) : Prop where
  woundDown : WoundDown s u (firstShots p i)
  record : u.passage? p.number = some { x with shots := shotsWoundTo p i }
  others : othersStay p.number s u
  clock : u.clock = s.clock
  tracks : u.tracks = s.tracks
  banks : u.banks = s.banks
  link : u.link = s.link
  fire : u.fire = s.fire
  strobes : u.strobes = s.strobes

theorem shot?_of_passage? {s : State} {p : Passage} {n : Nat} (h : s.passage? n = some p) (i : Nat) :
    s.shot? ⟨n, i⟩ = p.shots[i]? := by
  unfold State.shot?; dsimp only; rw [h]

/-- The passage whose shot is changed. -/
theorem passage?_modifyShot {s : State} {n i : Nat} {f : Shot → Shot} {x : Passage}
    (h : s.passage? n = some x) :
    (s.modifyShot ⟨n, i⟩ f).passage? n = some { x with shots := x.shots.modify i f } :=
  passage?_modifyPassage (f := fun p => p.modifyShot i f) (fun _ => rfl) h

theorem modify_of_getElem? {α : Type} {l : List α} {i : Nat} {a : α} (h : l[i]? = some a) (f : α → α) :
    l.modify i f = l.modify i (fun _ => f a) := by
  apply List.ext_getElem?
  intro j
  rw [List.getElem?_modify, List.getElem?_modify]
  split
  · rename_i hj
    subst hj
    rw [h]; rfl
  · rfl

theorem modify_self {α : Type} {l : List α} {i : Nat} {a : α} (h : l[i]? = some a) :
    l.modify i (fun _ => a) = l :=
  (modify_of_getElem? h id).symm.trans (List.modify_id i l)

/-- One shot more is wound down. -/
theorem WoundTo.next {s u : State} {p x : Passage} {i : Nat} (h : WoundTo s u p x i)
    (hi : i < p.shots.length) : WoundTo s (u.windDownShot ⟨p.number, i⟩) p x (i + 1) := by
  obtain ⟨k, hk⟩ : ∃ k, p.shots[i]? = some k := ⟨_, List.getElem?_eq_getElem hi⟩
  have hshot : u.shot? ⟨p.number, i⟩ = some k := by
    rw [shot?_of_passage? h.record]; exact (getElem?_shotsWoundTo p i).trans hk
  obtain ⟨hfire, hheld, hrest⟩ := windDownShot_eq hshot
  have hsame : cancelled k = k → { x with shots := shotsWoundTo p (i + 1) }
      = { x with shots := shotsWoundTo p i } := by
    intro hc
    rw [shotsWoundTo_succ hk, hc, modify_self ((getElem?_shotsWoundTo p i).trans hk)]
  by_cases h1 : k.state = .planned ∨ k.state = .frozen
  · rw [hfire h1]
    refine ⟨woundDown_takes h.woundDown hk (by rcases h1 with e | e <;> rw [e] <;> decide) ?_ rfl rfl rfl, ?_, ?_,
      h.clock, h.tracks, h.banks, h.link, h.fire, h.strobes⟩
    · have hin : [ShotState.planned, .frozen].contains k.state = true := by
        rcases h1 with e | e <;> rw [e] <;> decide
      simp only [hin, Bool.and_true]; rfl
    · have hmod := passage?_modifyShot (s := u.leaveShotQueue ⟨p.number, i⟩) (i := i)
        (f := fun q => { q with state := .cancelled }) h.record
      rw [hmod, shotsWoundTo_succ hk, modify_of_getElem? ((getElem?_shotsWoundTo p i).trans hk)]
      congr 3
      unfold cancelled
      rw [if_pos h1]
    · exact h.others.trans (othersStay.modifyPassage (u.leaveShotQueue ⟨p.number, i⟩) p.number
        (fun _ => rfl))
  have hc : cancelled k = k := if_neg h1
  by_cases h2 : k.state = .held
  · rw [hheld h2]
    obtain ⟨hdis, hlines⟩ := discardHeld_eq u ⟨p.number, i⟩ k.camera
    have htable : (u.discardHeld ⟨p.number, i⟩ k.camera).table = u.table := by rw [hdis]
    refine ⟨woundDown_discards h.woundDown hk h2 (by rw [h.clock]) (by rw [hdis]) hlines (by rw [hdis])
      (by rw [hdis]), ?_, h.others.trans (.of_table htable), ?_, ?_, ?_, ?_, ?_, ?_⟩
    · rw [hsame hc, ← h.record]
      unfold State.passage?
      rw [htable]
    · rw [hdis]; exact h.clock
    · rw [hdis]; exact h.tracks
    · rw [hdis]; exact h.banks
    · rw [hdis]; exact h.link
    · rw [hdis]; exact h.fire
    · rw [hdis]; exact h.strobes
  · have h1' := not_or.1 h1
    rw [hrest h1'.1 h1'.2 h2]
    refine ⟨woundDown_takes h.woundDown hk h2 ?_ rfl rfl rfl, ?_, h.others, h.clock, h.tracks, h.banks, h.link,
      h.fire, h.strobes⟩
    · have hout : [ShotState.planned, .frozen].contains k.state = false := by
        simp [h1'.1, h1'.2]
      simp only [hout, Bool.and_false, Bool.not_false, List.filter_true]
    · rw [hsame hc]; exact h.record

/-- Winding down takes every shot of the passage (R44, R88, R125). -/
theorem windDown_woundTo {s : State} {p x : Passage} (hx : s.passage? p.number = some x)
    (hshots : x.shots = p.shots) : WoundTo s (s.windDown p) p x p.shots.length := by
  have key : ∀ i, i ≤ p.shots.length →
      WoundTo s ((List.range i).foldl (fun q j => q.windDownShot ⟨p.number, j⟩) s) p x i := by
    intro i
    induction i with
    | zero =>
      intro _
      refine ⟨woundDown_none s p, ?_, othersStay.refl _ _, rfl, rfl, rfl, rfl, rfl, rfl⟩
      rw [show shotsWoundTo p 0 = x.shots from hshots.symm]
      exact hx
    | succ i ih =>
      intro hi
      rw [List.range_succ, List.foldl_append]
      exact (ih (Nat.le_of_lt hi)).next hi
  exact key _ (Nat.le_refl _)

theorem firstShots_all (p : Passage) : firstShots p p.shots.length = p := by
  unfold firstShots; rw [List.take_length]

theorem shotsWoundTo_all (p : Passage) : shotsWoundTo p p.shots.length = p.shots.map cancelled := by
  unfold shotsWoundTo; simp

end Sys2Proof.Proofs


/-! PROOFS. A passage that leaves APPROACHING and TAIL: clearance, ABANDON PASSAGE, and the abandonment by a
head fault. -/

namespace Sys2Proof.Proofs

open Sys2Proof.Machine

/-! ## The settlement check (R40, R45) -/

/-- The record of a passage after the settlement check. -/
def afterSettlement (p : Passage) (time : GantryTime) (epoch : Byte) : Passage :=
  if p.settled = true ∧ p.state = .clear then p.settleAs .filed time epoch
  else if p.settled = true ∧ p.state = .stopping then p.settleAs .abandoned time epoch
  else p

/-- The settlement check writes a record's state and settlement only. -/
theorem afterSettlement_frame (p : Passage) (time : GantryTime) (epoch : Byte) :
    afterSettlement p time epoch = { p with
      state := (afterSettlement p time epoch).state, settle := (afterSettlement p time epoch).settle } := by
  unfold afterSettlement
  split
  · rfl
  · split <;> rfl

theorem afterSettlement_filed {p : Passage} (h : p.settled = true) (hst : p.state = .clear)
    (time : GantryTime) (epoch : Byte) : afterSettlement p time epoch = p.settleAs .filed time epoch :=
  if_pos ⟨h, hst⟩

theorem afterSettlement_abandoned {p : Passage} (h : p.settled = true) (hst : p.state = .stopping)
    (time : GantryTime) (epoch : Byte) : afterSettlement p time epoch = p.settleAs .abandoned time epoch := by
  unfold afterSettlement
  rw [if_neg (by rw [hst]; exact fun h => nomatch h.2), if_pos ⟨h, hst⟩]

theorem afterSettlement_unsettled {p : Passage} (h : p.settled = false) (time : GantryTime)
    (epoch : Byte) : afterSettlement p time epoch = p := by
  unfold afterSettlement
  rw [if_neg (by rw [h]; exact fun h => nomatch h.1), if_neg (by rw [h]; exact fun h => nomatch h.1)]

theorem passage?_queueNotice (s : State) (x : Notice) (n : Nat) :
    (s.queueNotice x).passage? n = s.passage? n := by
  unfold State.passage?; rw [State.queueNotice_table]

/-- The record that the settlement check leaves. -/
theorem checkSettled_passage? {s : State} {n : Nat} {p : Passage} (hp : s.passage? n = some p) :
    (s.checkSettled n).passage? n = some (afterSettlement p s.clock.time s.clock.epoch) := by
  have settles : ∀ (st : PassageState) (x : Notice),
      ((s.modifyPassage n (·.settleAs st s.now s.clock.epoch)).queueNotice x).passage? n
        = some (p.settleAs st s.clock.time s.clock.epoch) := fun st x =>
    (passage?_queueNotice _ x n).trans
      (passage?_modifyPassage (f := (·.settleAs st s.now s.clock.epoch)) (fun _ => rfl) hp)
  unfold State.checkSettled afterSettlement
  rw [hp]
  dsimp only
  by_cases hs : p.settled = true
  · rw [if_pos hs]
    cases hst : p.state with
    | clear => rw [if_pos ⟨hs, rfl⟩]; exact settles _ _
    | stopping => rw [if_neg (fun h => nomatch h.2), if_pos ⟨hs, rfl⟩]; exact settles _ _
    | approaching => rw [if_neg (fun h => nomatch h.2), if_neg (fun h => nomatch h.2)]; exact hp
    | tail => rw [if_neg (fun h => nomatch h.2), if_neg (fun h => nomatch h.2)]; exact hp
    | filed => rw [if_neg (fun h => nomatch h.2), if_neg (fun h => nomatch h.2)]; exact hp
    | abandoned => rw [if_neg (fun h => nomatch h.2), if_neg (fun h => nomatch h.2)]; exact hp
  · rw [if_neg hs, if_neg (fun h => hs h.1), if_neg (fun h => hs h.1)]
    exact hp

theorem othersStay.checkSettled (s : State) (n : Nat) : othersStay n s (s.checkSettled n) := by
  have settles : ∀ (st : PassageState) (x : Notice),
      othersStay n s ((s.modifyPassage n (·.settleAs st s.now s.clock.epoch)).queueNotice x) := fun st x =>
    (othersStay.modifyPassage s n (f := (·.settleAs st s.now s.clock.epoch)) (fun _ => rfl)).trans
      (.of_table (State.queueNotice_table _ x))
  unfold State.checkSettled
  split
  · exact .refl n s
  · split
    · split
      · exact settles _ _
      · exact settles _ _
      all_goals exact .refl n s
    · exact .refl n s

/-! ## Leaving APPROACHING and TAIL (R39) -/

/-- What the drain check leaves alone, beside table and tracks. -/
theorem drainCheck_frame (s : State) (b : BankNo) :
    (s.drainCheck b).shotQueue = s.shotQueue ∧ (s.drainCheck b).fire = s.fire
    ∧ (s.drainCheck b).strobes = s.strobes ∧ (s.drainCheck b).lines = s.lines
    ∧ (s.drainCheck b).readout = s.readout ∧ (s.drainCheck b).memory = s.memory
    ∧ (s.drainCheck b).clock = s.clock := by
  unfold State.drainCheck
  split
  · simp only [State.queueNotice_shotQueue, State.queueNotice_fire, State.queueNotice_strobes,
      State.queueNotice_lines, State.queueNotice_readout, State.queueNotice_memory, State.queueNotice_clock]
    exact ⟨rfl, rfl, rfl, rfl, rfl, rfl, rfl⟩
  · exact ⟨rfl, rfl, rfl, rfl, rfl, rfl, rfl⟩

/-- What a track's change of state leaves alone, beside the table. -/
theorem trackTo_frame (s : State) (t : Track) (new : TrackState) :
    (s.trackTo t new).shotQueue = s.shotQueue ∧ (s.trackTo t new).fire = s.fire
    ∧ (s.trackTo t new).strobes = s.strobes ∧ (s.trackTo t new).lines = s.lines
    ∧ (s.trackTo t new).readout = s.readout ∧ (s.trackTo t new).memory = s.memory
    ∧ (s.trackTo t new).clock = s.clock := by
  unfold State.trackTo
  dsimp only
  split
  · exact ⟨rfl, rfl, rfl, rfl, rfl, rfl, rfl⟩
  · simp only [State.queueNotice_shotQueue, State.queueNotice_fire, State.queueNotice_strobes,
      State.queueNotice_lines, State.queueNotice_readout, State.queueNotice_memory, State.queueNotice_clock]
    exact ⟨rfl, rfl, rfl, rfl, rfl, rfl, rfl⟩

/-- What the change out of APPROACHING and TAIL leaves alone. -/
theorem leaveOpen_frame (s : State) (p : Passage) (st : PassageState) (track : TrackState) :
    (s.leaveOpen p st track).shotQueue = s.shotQueue ∧ (s.leaveOpen p st track).fire = s.fire
    ∧ (s.leaveOpen p st track).strobes = s.strobes ∧ (s.leaveOpen p st track).lines = s.lines
    ∧ (s.leaveOpen p st track).readout = s.readout ∧ (s.leaveOpen p st track).memory = s.memory
    ∧ (s.leaveOpen p st track).clock = s.clock := by
  rw [State.leaveOpen_eq]
  obtain ⟨a1, a2, a3, a4, a5, a6, a7⟩ := drainCheck_frame
    ((s.modifyPassage p.number (·.left st (s.clearOf p st))).trackTo p.track track) p.bank
  obtain ⟨b1, b2, b3, b4, b5, b6, b7⟩ := trackTo_frame
    (s.modifyPassage p.number (·.left st (s.clearOf p st))) p.track track
  exact ⟨a1.trans b1, a2.trans b2, a3.trans b3, a4.trans b4, a5.trans b5, a6.trans b6, a7.trans b7⟩

theorem leaveOpen_table (s : State) (p : Passage) (st : PassageState) (track : TrackState) :
    (s.leaveOpen p st track).table
      = (s.modifyPassage p.number (·.left st (s.clearOf p st))).table := by
  rw [State.leaveOpen_eq, State.drainCheck_table, State.trackTo_table]

theorem leaveOpen_tracks (s : State) (p : Passage) (st : PassageState) (track : TrackState) :
    (s.leaveOpen p st track).tracks = setAt s.tracks p.track (s.movedTrack p.track track) := by
  rw [State.leaveOpen_eq, State.drainCheck_tracks, State.trackTo_tracks]; rfl

/-- The record of a passage that has left APPROACHING and TAIL. -/
theorem leaveOpen_record {s : State} {p x : Passage} (st : PassageState) (track : TrackState)
    (hx : s.passage? p.number = some x) :
    (s.leaveOpen p st track).passage? p.number = some (x.left st (s.clearOf p st)) := by
  have h := passage?_modifyPassage (f := (·.left st (s.clearOf p st))) (fun _ => rfl) hx
  rw [← h]
  unfold State.passage?
  rw [leaveOpen_table]

theorem othersStay.leaveOpen (s : State) (p : Passage) (st : PassageState) (track : TrackState) :
    othersStay p.number s (s.leaveOpen p st track) :=
  (othersStay.modifyPassage s p.number (f := (·.left st (s.clearOf p st))) (fun _ => rfl)).trans
    (.of_table (leaveOpen_table s p st track))

/-! ## Clearance (R37, R38) -/

/-- What becomes of a passage that clears, by its record x in the table. -/
theorem clearPassage_record {s : State} {p x : Passage} (track : TrackState)
    (hx : s.passage? p.number = some x) :
    (s.clearPassage p track).passage? p.number
      = some (afterSettlement (x.left .clear (some s.clock.time)) s.clock.time s.clock.epoch) := by
  have hclock : (s.leaveOpen p .clear track).clock = s.clock := (leaveOpen_frame s p .clear track).2.2.2.2.2.2
  have h := checkSettled_passage? (leaveOpen_record .clear track hx)
  rw [hclock] at h
  exact h

theorem othersStay.clearPassage (s : State) (p : Passage) (track : TrackState) :
    othersStay p.number s (s.clearPassage p track) :=
  (othersStay.leaveOpen s p .clear track).trans (.checkSettled _ _)

/-- What clearance leaves alone, and the track. -/
theorem clearPassage_frame (s : State) (p : Passage) (track : TrackState) :
    (s.clearPassage p track).shotQueue = s.shotQueue ∧ (s.clearPassage p track).fire = s.fire
    ∧ (s.clearPassage p track).strobes = s.strobes ∧ (s.clearPassage p track).lines = s.lines
    ∧ (s.clearPassage p track).readout = s.readout ∧ (s.clearPassage p track).memory = s.memory
    ∧ (s.clearPassage p track).clock = s.clock
    ∧ (s.clearPassage p track).tracks = setAt s.tracks p.track (s.movedTrack p.track track) := by
  obtain ⟨-, a4, a5, a6, a7, a8, a2, a3, a1, -⟩ := checkSettled_facts (s.leaveOpen p .clear track) p.number
  obtain ⟨b1, b2, b3, b4, b5, b6, b7⟩ := leaveOpen_frame s p .clear track
  exact ⟨a1.trans b1, a2.trans b2, a3.trans b3, a4.trans b4, a5.trans b5, a6.trans b6, a7.trans b7,
    a8.trans (leaveOpen_tracks s p .clear track)⟩

/-- A change of a record that clearance can follow: the fields it looks at are kept. -/
def keepsForClearance (f : Passage → Passage) : Prop :=
  ∀ q, (f q).number = q.number ∧ (f q).bank = q.bank ∧ (f q).state = q.state ∧ (f q).track = q.track

/-- A passage in TAIL clears from s, after a change of its record that gives it exit count and faults. -/
theorem clearance_of {s : State} {p : Passage} {f : Passage → Passage} {n : Nat} {faults : FaultRecord}
    {track : TrackState} (hinv : s.tracksInv) (hp : p ∈ s.table.passages) (hst : p.state = .tail)
    (hnum : (s.modifyPassage p.number f).numbered) (hf : keepsForClearance f)
    (hrecord : f p = { p with exitCount := n, faults := faults }) {u : State}
    (hu : u = (s.modifyPassage p.number f).clearPassage (f p) track) :
    u.tracks = setAt s.tracks p.track (s.movedTrack p.track track)
    ∧ u.passage? p.number = some (afterSettlement { p with
        exitCount := n, faults := faults, state := .clear, clearTime := some s.clock.time
        tailWindow := none, exitTimeout := none } s.clock.time s.clock.epoch)
    ∧ (∀ r ∈ s.table.passages, r.number ≠ p.number → r ∈ u.table.passages)
    ∧ u.clock = s.clock ∧ u.shotQueue = s.shotQueue ∧ u.fire = s.fire ∧ u.strobes = s.strobes
    ∧ u.lines = s.lines ∧ u.readout = s.readout ∧ u.memory = s.memory
    ∧ (∀ q, u.passage? p.number = some q → LeftOpen s u p q (s.trackNotice p.track track)) := by
  have hnumber : (f p).number = p.number := (hf p).1
  have hfound : (s.modifyPassage p.number f).passage? (f p).number = some (f p) := by
    rw [hnumber]; exact passage?_modifyPassage (fun q => (hf q).1) (passage?_of_mem hinv.2.1 hp)
  obtain ⟨a1, a2, a3, a4, a5, a6, a7, a8⟩ := clearPassage_frame (s.modifyPassage p.number f) (f p) track
  have hothers := (othersStay.modifyPassage s p.number (fun q => (hf q).1)).trans
    (hnumber ▸ othersStay.clearPassage (s.modifyPassage p.number f) (f p) track)
  have hrec := clearPassage_record track hfound
  subst hu
  refine ⟨?_, ?_, fun r hr hne => (hothers r hne).2 hr, a7, a1, a2, a3, a4, a5, a6, fun q hq => ?_⟩
  · rw [a8, (hf p).2.2.2]; rfl
  · rw [hnumber] at hrec
    rw [hrec, hrecord]; rfl
  · exact clearPassage_leftOpen track hf hinv.2.1 hnum hp (.inr hst) hq

/-- The monitor of an OCCUPIED track that becomes VACANT or IGNORING. -/
theorem movedTrack_vacant (s : State) (t : Track) :
    s.movedTrack t .vacant = ⟨.vacant, s.tracks[t].health, [], [], none⟩ := rfl

theorem movedTrack_ignoring (s : State) (t : Track) :
    s.movedTrack t .ignoring
      = ⟨.ignoring, s.tracks[t].health, [], [], some (s.clock.elapsed + s.quietTime t)⟩ := rfl

theorem trackNotice_of_ne {s : State} {t : Track} {old new : TrackState} (h : s.tracks[t].state = old)
    (hne : old ≠ new) : s.trackNotice t new = [.trackState t old new s.tracks[t].health] := by
  unfold State.trackNotice; rw [h, if_neg hne]

/-- The outer exit crossing by which a passage in TAIL clears (R36, R37). -/
theorem exitCrossing_clears {s : State} {p : Passage} (hp : s.passage? p.number = some p)
    (hst : p.state = .tail) (h : p.axleTotal ≤ min 65535 (p.exitCount + 1)) :
    s.exitCrossing p.number = (s.modifyPassage p.number (·.countExit)).clearPassage p.countExit .vacant := by
  have hnumber : ∀ q : Passage, q.countExit.number = q.number := fun q => by rw [countExit_eq]
  unfold State.exitCrossing State.checkCleared
  rw [passage?_modifyPassage hnumber hp]
  exact if_pos (by rw [countExit_eq]; exact ⟨hst, h⟩)

theorem execExitTimeout_eq {s : State} {p : Passage} (hp : s.passage? p.number = some p) :
    exec (.exitTimeout p.number) s = if p.state = .tail ∧ s.ended p.exitTimeout = true
      then .next (s.clearShort p).endEvent else .next s := by
  change execExitTimeout p.number s = _
  unfold execExitTimeout
  rw [hp]

/-- Settles O45: both ways to clear are `clearPassage` behind a change of the record; the settlement check then
decides between CLEAR and FILED. -/
theorem clearance : Obligations.Clearance := by
  intro s p hinv hp
  have hfound := passage?_of_mem hinv.2.1 hp
  refine ⟨fun hidle => ?_, fun c n faults m hst hway => ?_⟩
  · rw [execExitTimeout_eq hfound, if_neg]
    rintro ⟨hst, hended⟩
    rcases hidle with h | h | ⟨e, he, hlt⟩
    · exact h hst
    · rw [h] at hended; exact not_ended_none s hended
    · rw [he] at hended; exact not_ended_some hlt hended
  · have hocc : s.tracks[p.track].state = .occupied := occupied_of_mem hinv hp (.inr hst)
    suffices hclear : ∃ (f : Passage → Passage) (track : TrackState),
        (s.modifyPassage p.number f).numbered ∧ keepsForClearance f
        ∧ f p = { p with exitCount := n, faults := faults }
        ∧ exec c s = .next ((s.modifyPassage p.number f).clearPassage (f p) track).endEvent
        ∧ m = s.movedTrack p.track track ∧ track ≠ .occupied by
      obtain ⟨f, track, hnum, hf, hrecord, hexec, rfl, htrack⟩ := hclear
      obtain ⟨a1, a2, a3, a4, a5, a6, a7, a8, a9, a10, a11⟩ :=
        clearance_of hinv hp hst hnum hf hrecord (track := track) rfl
      refine ⟨_, hexec, a1, fun hopen => ?_, fun hdone => ?_, a3, a4, a5, a6, a7, a8, a9, a10,
        fun q hq => ?_⟩
      · refine a2.trans (congrArg some (afterSettlement_unsettled ?_ _ _))
        exact hopen
      · refine a2.trans (congrArg some (afterSettlement_filed ?_ rfl _ _))
        exact hdone
      · have := a11 q hq
        rwa [trackNotice_of_ne hocc htrack.symm] at this
    rcases hway with ⟨hcross, rfl, hcount, rfl, rfl⟩ | ⟨rfl, ⟨e, he, hle⟩, rfl, rfl, rfl⟩
    · have hkeeps : keepsForClearance (·.countExit) := by
        intro q
        dsimp only
        rw [countExit_eq]
        exact ⟨rfl, rfl, rfl, rfl⟩
      refine ⟨(·.countExit), .vacant, ?_, hkeeps, countExit_eq p, ?_, (movedTrack_vacant s p.track).symm,
        by decide⟩
      · exact (Keeps.modifyPassage s p.number _ (fun q _ => q.countExit_keeps)).numbered hinv.2.1
      · have hroute : ∀ h : Head, h.side ≠ p.direction.approach → h.isOuter = true →
            exec (.crossing p.track h) s
              = .next ((s.modifyPassage p.number (·.countExit)).clearPassage p.countExit .vacant).endEvent := by
          intro h hs ho
          change Host.Outcome.next (s.crossing p.track h).endEvent = _
          rw [crossing_occupied h hinv hp (.inr hst), routeCrossing_exitOuter hs ho,
            exitCrossing_clears hfound hst hcount]
        rcases hcross with ⟨hd, rfl⟩ | ⟨hd, rfl⟩
        · exact hroute .b1 (by rw [hd]; decide) rfl
        · exact hroute .a1 (by rw [hd]; decide) rfl
    · refine ⟨(·.recordFault .exitShort none none), .ignoring, ?_, fun q => ⟨rfl, rfl, rfl, rfl⟩, rfl, ?_,
        (movedTrack_ignoring s p.track).symm, by decide⟩
      · exact (Keeps.recordFault s p.number .exitShort none none).numbered hinv.2.1
      · rw [execExitTimeout_eq hfound, if_pos ⟨hst, by rw [he]; exact ended_some hle⟩]; rfl

/-! ## Abandon (R42 to R44) -/

/-- The record of a passage that has entered STOPPING, by its record x before. -/
def stopped (p x : Passage) (reason : AbandonReason) : Passage :=
  if p.isOpen then (x.giveReason reason).left .stopping p.clearTime else (x.giveReason reason).stop

theorem stopPassage_record {s : State} {p x : Passage} (reason : AbandonReason) (track : TrackState)
    (hx : s.passage? p.number = some x) :
    (s.stopPassage p reason track).passage? p.number = some (stopped p x reason) := by
  have hgiven : (s.modifyPassage p.number (·.giveReason reason)).passage? p.number
      = some (x.giveReason reason) :=
    passage?_modifyPassage (f := (·.giveReason reason)) (fun _ => rfl) hx
  unfold State.stopPassage stopped
  dsimp only
  split
  · exact leaveOpen_record .stopping track hgiven
  · exact passage?_modifyPassage (f := (·.stop)) (fun _ => rfl) hgiven

/-- What entering STOPPING leaves alone. -/
theorem stopPassage_frame (s : State) (p : Passage) (reason : AbandonReason) (track : TrackState) :
    (s.stopPassage p reason track).shotQueue = s.shotQueue ∧ (s.stopPassage p reason track).fire = s.fire
    ∧ (s.stopPassage p reason track).strobes = s.strobes ∧ (s.stopPassage p reason track).lines = s.lines
    ∧ (s.stopPassage p reason track).readout = s.readout
    ∧ (s.stopPassage p reason track).memory = s.memory
    ∧ (s.stopPassage p reason track).clock = s.clock
    ∧ othersStay p.number s (s.stopPassage p reason track) := by
  have hgive := othersStay.modifyPassage s p.number (f := (·.giveReason reason)) (fun _ => rfl)
  unfold State.stopPassage
  dsimp only
  split
  · obtain ⟨b1, b2, b3, b4, b5, b6, b7⟩ :=
      leaveOpen_frame (s.modifyPassage p.number (·.giveReason reason)) p .stopping track
    exact ⟨b1, b2, b3, b4, b5, b6, b7, hgive.trans (.leaveOpen _ p .stopping track)⟩
  · exact ⟨rfl, rfl, rfl, rfl, rfl, rfl, rfl, hgive.trans (.modifyPassage _ _ (fun _ => rfl))⟩

theorem stopPassage_tracks_open {s : State} {p : Passage} (h : p.isOpen = true) (reason : AbandonReason)
    (track : TrackState) :
    (s.stopPassage p reason track).tracks = setAt s.tracks p.track (s.movedTrack p.track track) := by
  unfold State.stopPassage
  dsimp only
  rw [if_pos h, leaveOpen_tracks]; rfl

theorem stopPassage_clear {s : State} {p : Passage} (h : p.isOpen = false) (reason : AbandonReason)
    (track : TrackState) : s.stopPassage p reason track
      = (s.modifyPassage p.number (·.giveReason reason)).modifyPassage p.number (·.stop) := by
  unfold State.stopPassage
  dsimp only
  rw [if_neg (by rw [h]; decide)]

/-- `WoundDown` looks at the blocks that winding down changes and at the elapsed count only. -/
theorem woundDown_congr {s s' u u' : State} {p : Passage} (h : WoundDown s u p)
    (h1 : s'.shotQueue = s.shotQueue) (h2 : s'.readout = s.readout) (h3 : s'.memory = s.memory)
    (h4 : s'.lines = s.lines) (h5 : s'.clock = s.clock) (k1 : u'.shotQueue = u.shotQueue)
    (k2 : u'.readout = u.readout) (k3 : u'.memory = u.memory) (k4 : u'.lines = u.lines) :
    WoundDown s' u' p := by
  obtain ⟨a1, a2, a3, a4, a5, a6, a7, a8⟩ := h
  refine ⟨?_, ?_, ?_, ?_, ?_, ?_, ?_, ?_⟩
  · rw [k1, h1]; exact a1
  · rw [k2, h2]; exact a2
  · rw [k3, h3]; exact a3
  · rw [k4, h4]; exact a4
  · rw [k4, h4]; exact a5
  · rw [k4, h4]; exact a6
  · rw [k4, h4]; exact a7
  · rw [k4, h4, h5]; exact a8

/-- A passage is abandoned: its record, the winding down of its shots, and what stays (R42 to R44). -/
structure Abandons (s u : State) (p x : Passage) (reason : AbandonReason) (track : TrackState) : Prop where
  record : u.passage? p.number = some (afterSettlement
    { stopped p x reason with shots := p.shots.map cancelled } s.clock.time s.clock.epoch)
  woundDown : WoundDown s u p
  others : othersStay p.number s u
  clock : u.clock = s.clock
  fire : u.fire = s.fire
  strobes : u.strobes = s.strobes
  tracks : u.tracks = (s.stopPassage p reason track).tracks

theorem abandon_abandons {s : State} {p x : Passage} (reason : AbandonReason) (track : TrackState)
    (hx : s.passage? p.number = some x) (hshots : x.shots = p.shots) :
    Abandons s (s.abandon p reason track) p x reason track := by
  obtain ⟨b1, b2, b3, b4, b5, b6, b7, b8⟩ := stopPassage_frame s p reason track
  have hw := windDown_woundTo (stopPassage_record reason track hx)
    (show (stopped p x reason).shots = p.shots by unfold stopped; split <;> exact hshots)
  obtain ⟨-, a4, a5, a6, a7, a8, a2, a3, a1, -⟩ :=
    checkSettled_facts ((s.stopPassage p reason track).windDown p) p.number
  have hclock := hw.clock.trans b7
  refine ⟨?_, ?_, ?_, a7.trans hclock, (a2.trans hw.fire).trans b2, (a3.trans hw.strobes).trans b3,
    a8.trans hw.tracks⟩
  · have h := checkSettled_passage? hw.record
    rw [shotsWoundTo_all, hclock] at h
    exact h
  · have hall := hw.woundDown
    rw [firstShots_all] at hall
    exact woundDown_congr hall b1.symm b5.symm b6.symm b4.symm b7.symm a1 a5 a6 a4
  · exact (b8.trans hw.others).trans (.checkSettled _ _)

/-- The record of an abandoned passage, field by field. -/
theorem abandoned_record {p x q : Passage} {reason : AbandonReason} {time : GantryTime} {epoch : Byte}
    (hq : q = afterSettlement { stopped p x reason with shots := p.shots.map cancelled } time epoch) :
    q.abandonReason = some reason ∧ q.faults = x.faults
    ∧ (p.isOpen = true → q.tailWindow = none ∧ q.exitTimeout = none)
    ∧ q.axles = x.axles ∧ q.axleTotal = x.axleTotal ∧ q.exitCount = x.exitCount ∧ q.vehicles = x.vehicles
    ∧ q.shots = p.shots.map cancelled
    ∧ (q.shots.all (fun k => k.state.terminal) = true → q.state = .abandoned ∧ q.settle = some (time, epoch))
    ∧ (q.shots.all (fun k => k.state.terminal) = false → q.state = .stopping ∧ q.settle = x.settle) := by
  generalize hy : ({ stopped p x reason with shots := p.shots.map cancelled } : Passage) = y at hq
  have hshots : y.shots = p.shots.map cancelled := by rw [← hy]
  have hstate : y.state = .stopping := by rw [← hy]; unfold stopped; split <;> rfl
  have hfields : y.abandonReason = some reason ∧ y.faults = x.faults ∧ y.axles = x.axles
      ∧ y.axleTotal = x.axleTotal ∧ y.exitCount = x.exitCount ∧ y.vehicles = x.vehicles
      ∧ y.settle = x.settle := by
    rw [← hy]; unfold stopped; split <;> exact ⟨rfl, rfl, rfl, rfl, rfl, rfl, rfl⟩
  have htimers : p.isOpen = true → y.tailWindow = none ∧ y.exitTimeout = none := by
    intro h; rw [← hy]; unfold stopped; rw [if_pos h]; exact ⟨rfl, rfl⟩
  obtain ⟨c1, c2, c3, c4, c5, c6, c7⟩ := hfields
  have hframe := afterSettlement_frame y time epoch
  rw [← hq] at hframe
  have hqs : q.shots = y.shots := by rw [hframe]
  refine ⟨by rw [hframe]; exact c1, by rw [hframe]; exact c2, fun h => by rw [hframe]; exact htimers h,
    by rw [hframe]; exact c3, by rw [hframe]; exact c4, by rw [hframe]; exact c5, by rw [hframe]; exact c6,
    hqs.trans hshots, fun hall => ?_, fun hnot => ?_⟩
  · rw [hqs] at hall
    rw [hq, afterSettlement_abandoned hall hstate]
    exact ⟨rfl, rfl⟩
  · rw [hqs] at hnot
    rw [hq, afterSettlement_unsettled hnot]
    exact ⟨hstate, c7⟩

/-! ## ABANDON PASSAGE (R42, R47) -/

/-- ABANDON PASSAGE of a live passage (R42). -/
theorem abandonPassage_named {s : State} {n : BitVec 16} {p : Passage} (hn : n ≠ 0)
    (hp : s.passage? n.toNat = some p) :
    (p.state = .approaching ∨ p.state = .tail ∨ p.state = .clear →
      s.abandonPassage n = (s.abandon p .ordered .ignoring,
        .done ((s.abandon p .ordered .ignoring).abandonData p.number)))
    ∧ (p.state = .stopping ∨ p.state = .filed ∨ p.state = .abandoned →
      s.abandonPassage n = (s, .refused .alreadySettled)) := by
  unfold State.abandonPassage
  rw [namedPassage_some hn hp]
  dsimp only
  refine ⟨fun h => ?_, fun h => ?_⟩
  · rcases h with h | h | h <;> rw [h]
  · rcases h with h | h | h <;> rw [h]

theorem abandonPassage_error {s : State} {n : BitVec 16} {d : Detail} (h : s.namedPassage n = .error d) :
    s.abandonPassage n = (s, .refused d) := by
  unfold State.abandonPassage; rw [h]

/-- A passage abandoned in CLEAR: no bank changes, and the settlement's notice is the only one. -/
theorem abandon_clear {s : State} {p q : Passage} (reason : AbandonReason) (track : TrackState)
    (hp : s.passage? p.number = some p) (hst : p.state = .clear)
    (hq : (s.abandon p reason track).passage? p.number = some q) :
    (s.abandon p reason track).banks = s.banks ∧ (s.abandon p reason track).tracks = s.tracks
    ∧ (s.abandon p reason track).link = (s.queueNotices q.settleNotices).link := by
  have hclosed : p.isOpen = false := by unfold Passage.isOpen; rw [hst]; rfl
  have hstop := stopPassage_clear hclosed (s := s) reason track
  have hw := windDown_woundTo (stopPassage_record reason track hp)
    (show (stopped p p reason).shots = p.shots by unfold stopped; split <;> rfl)
  obtain ⟨-, -, -, -, -, a8, -, -, -, a10, -⟩ :=
    checkSettled_facts ((s.stopPassage p reason track).windDown p) p.number
  have hstate : (stopped p p reason).state = .stopping := by unfold stopped; split <;> rfl
  refine ⟨?_, ?_, ?_⟩
  · exact a10.trans (hw.banks.trans (by rw [hstop]; rfl))
  · exact a8.trans (hw.tracks.trans (by rw [hstop]; rfl))
  · refine (checkSettled_notices hw.record (.inr hstate) hq).trans ?_
    refine queueNotices_congr _ ?_ ?_
    · rw [hw.link, hstop]; rfl
    · rw [hw.clock, hstop]; rfl

/-- Settles O25: the number's refusals, then the abandonment from CLEAR, or from APPROACHING and TAIL with the
drain check. -/
theorem abandonPassageRequest : Obligations.AbandonPassageRequest := by
  intro s tag n hr
  have run : ∀ x, s.abandonPassage n = x →
      exec (.abandonPassage tag n) s = .next (x.1.placeAnswer tag 0x0204 x.2).endEvent := fun x hx =>
    request_answers (r := .abandonPassage n) hr rfl (by rw [← hx]; rfl)
  refine ⟨fun hn => run _ (abandonPassage_error ?_), fun hn hp => run _ (abandonPassage_error ?_),
    fun p hn hp => ⟨fun hst => run _ ((abandonPassage_named hn hp).2 hst), fun hst => ?_⟩⟩
  · rw [hn]; rfl
  · exact namedPassage_none hn hp
  · have hnumber : p.number = n.toNat := passage?_number hp
    rw [← hnumber] at hp ⊢
    have ha := abandon_abandons .ordered .ignoring hp rfl
    obtain ⟨q, hq, hrec⟩ : ∃ q, (s.abandon p .ordered .ignoring).passage? p.number = some q
        ∧ q = afterSettlement { stopped p p .ordered with shots := p.shots.map cancelled } s.clock.time
          s.clock.epoch := ⟨_, ha.record, rfl⟩
    obtain ⟨c1, c2, c3, c4, c5, c6, c7, c8, c9, c10⟩ := abandoned_record hrec
    have hopen : p.state ≠ .clear → p.isOpen = true := by
      intro hc
      rcases hst with h | h | h
      · unfold Passage.isOpen; rw [h]; rfl
      · unfold Passage.isOpen; rw [h]; rfl
      · exact absurd h hc
    refine ⟨s.abandon p .ordered .ignoring, q, q.unsettledShots, ?_, hq, rfl, c1, c2,
      fun hc => c3 (hopen hc), c4, c5, c6, c7, c8, c9, c10, ha.woundDown,
      fun hc => (abandon_clear _ _ hp hc hq).2.1, fun hc => ?_, fun hc => ?_, fun hc hnum => ?_, ha.clock,
      ha.fire, ha.strobes⟩
    · rw [run _ ((abandonPassage_named hn (hnumber ▸ hp)).1 hst)]
      have hdata : (s.abandon p .ordered .ignoring).abandonData p.number
          = [BitVec.ofNat 8 q.state.toCode, BitVec.ofNat 8 q.unsettledShots] := by
        unfold State.abandonData; rw [hq]; rfl
      rw [hdata]; rfl
    · have htracks : (s.abandon p .ordered .ignoring).tracks
          = setAt s.tracks p.track (s.movedTrack p.track .ignoring) :=
        ha.tracks.trans (stopPassage_tracks_open (hopen hc) _ _)
      rw [htracks]
      refine ⟨?_, ?_, ?_, ?_, fun t ht => getElem_setAt_ne _ _ _ _ ht⟩
      all_goals rw [getElem_setAt_self]; rfl
    · obtain ⟨hbanks, -, hlink⟩ := abandon_clear .ordered .ignoring hp hc hq
      exact ⟨hbanks, by rw [hlink], by rw [hlink]⟩
    · have ho : p.state = .approaching ∨ p.state = .tail := (Passage.isOpen_iff p).1 (hopen hc)
      exact abandon_leftOpen .ordered .ignoring hnum (passage?_mem hp) ho hq

/-! ## A head fault on an OCCUPIED track (R9, R43) -/

/-- `LeftOpen` from a state that has come from another by notices and by what neither the drain check nor the
counts look at. -/
theorem leftOpen_behind {s v u : State} {p x q : Passage} {first : List Notice} (h : LeftOpen v u x q [])
    (hb : v.banks = s.banks) (hbank : x.bank = p.bank) (hd : v.drainsWith x ↔ s.drainsWith p)
    (hcount : v.boundCount p.bank = s.boundCount p.bank ∧ v.busyCount p.bank = s.busyCount p.bank)
    (hl : v.link = (s.queueNotices first).link) (hc : v.clock = s.clock) : LeftOpen s u p q first := by
  obtain ⟨hbound, hbusy⟩ := hcount
  refine ⟨fun hdr => ?_, fun hdr => ?_, fun drain d1 d2 => ?_⟩
  · rw [h.drained (hd.2 hdr), hb]; simp only [hbank]
  · rw [h.kept (fun hv => hdr (hd.1 hv)), hb]
  · obtain ⟨e1, e2⟩ := h.notices drain
      (fun hv => by rw [hbank, hbound, hbusy]; exact d1 (hd.1 hv)) (fun hv => d2 (fun hs => hv (hd.2 hs)))
    have hlink : (v.queueNotices ([] ++ drain ++ q.settleNotices)).link
        = (s.queueNotices (first ++ drain ++ q.settleNotices)).link := by
      rw [List.nil_append, List.append_assoc, queueNotices_append s first]
      exact queueNotices_congr _ hl (hc.trans (queueNotices_clock _ s).symm)
    rw [← hlink]
    exact ⟨e1, e2⟩

/-- Settles O39: the track goes to HEAD_FAULT, the fault is recorded, and the passage is abandoned from the
state reached, in which its track's further change of state is none. -/
theorem headFaultAbandonsOpenPassage : Obligations.HeadFaultAbandonsOpenPassage := by
  intro s t h p hinv hh hocc hp hpt ho
  subst hpt
  have hopen : p.isOpen = true := (Passage.isOpen_iff p).2 ho
  generalize hs0 : s.setHealth p.track h .fault = s0
  have hs0t : s0.tracks[p.track]
      = { s.tracks[p.track] with health := s.tracks[p.track].health.set h .fault } := by
    rw [← hs0]; exact setHealth_track s p.track h .fault
  have hs0o : s0.tracks[p.track].state = .occupied := by rw [hs0t]; exact hocc
  generalize hs1 : s0.trackTo p.track .headFault = s1
  have hs1table : s1.table = s.table := by
    rw [← hs1, State.trackTo_table, ← hs0]; rfl
  have hs1tracks : s1.tracks = setAt s0.tracks p.track (s0.movedTrack p.track .headFault) := by
    rw [← hs1]; exact State.trackTo_tracks _ _ _
  obtain ⟨l1, l2, l3⟩ := trackTo_link s0 p.track .headFault
  rw [trackNotice_of_ne hs0o (by decide), hs0t] at l1
  rw [hs1] at l1 l2 l3
  obtain ⟨f1, f2, f3, f4, f5, f6, -⟩ := trackTo_frame s0 p.track .headFault
  rw [hs1] at f1 f2 f3 f4 f5 f6
  generalize hs2 : s1.recordFault p.number .headFault none none = s2
  have hkeeps : ∀ q : Passage, (q.recordFault .headFault none none).number = q.number
      ∧ (q.recordFault .headFault none none).bank = q.bank
      ∧ (q.recordFault .headFault none none).state = q.state := fun q => ⟨rfl, rfl, rfl⟩
  have hfound : s1.passage? p.number = some p := by
    unfold State.passage?; rw [hs1table]; exact passage?_of_mem hinv.2.1 hp
  have hx : s2.passage? p.number = some (p.recordFault .headFault none none) := by
    rw [← hs2]
    exact passage?_modifyPassage (f := (·.recordFault .headFault none none)) (fun _ => rfl) hfound
  have ha := abandon_abandons .headFault .headFault hx rfl
  have hexec : exec (.headFault p.track h) s = .next (s2.abandon p .headFault .headFault).endEvent := by
    have hon : s1.openPassageOn p.track = some p := by
      unfold State.openPassageOn; rw [hs1table]; exact openPassageOn_of_mem hinv hp ho
    rw [execHeadFault_healthy hh, hs0, actOnFault_occupied hs0o, hs1]
    unfold State.abandonByFault
    rw [hon, ← hs2]
  obtain ⟨q, hq, hrec⟩ : ∃ q, (s2.abandon p .headFault .headFault).passage? p.number = some q
      ∧ q = afterSettlement { stopped p (p.recordFault .headFault none none) .headFault with
          shots := p.shots.map cancelled } s2.clock.time s2.clock.epoch := ⟨_, ha.record, rfl⟩
  have hclock : s2.clock = s.clock := by
    rw [← hs2]; exact l2.trans (by rw [← hs0]; rfl)
  rw [hclock] at hrec
  obtain ⟨c1, c2, c3, c4, c5, c6, c7, c8, c9, c10⟩ := abandoned_record hrec
  have hs2tracks : s2.tracks = s1.tracks := by rw [← hs2]; rfl
  have htracks : (s2.abandon p .headFault .headFault).tracks
      = setAt s2.tracks p.track (s2.movedTrack p.track .headFault) :=
    ha.tracks.trans (stopPassage_tracks_open hopen _ _)
  have hothers : othersStay p.number s (s2.abandon p .headFault .headFault) := by
    refine (othersStay.of_table hs1table).trans (othersStay.trans ?_ ha.others)
    rw [← hs2]; exact othersStay.modifyPassage s1 p.number (fun _ => rfl)
  have hs2state : s2.tracks[p.track].state = .headFault := by
    rw [hs2tracks, hs1tracks, getElem_setAt_self]; rfl
  have hleft := abandon_leftOpen (s := s2) (p := p.recordFault .headFault none none) (q := q) .headFault
    .headFault
    (by
      rw [← hs2]
      refine (Keeps.recordFault s1 p.number .headFault none none).numbered ?_
      unfold State.numbered; rw [hs1table]; exact hinv.2.1)
    (passage?_mem hx) ho hq
  have hnone : s2.trackNotice p.track .headFault = [] := by
    unfold State.trackNotice; rw [if_pos hs2state]
  refine ⟨s2.abandon p .headFault .headFault, q, hexec, ?_, fun k hk => ?_, hq, c1, c2, (c3 hopen).1,
    (c3 hopen).2, c4, c5, c6, c7, c8, c9, c10, ?_, fun r hr hne => (hothers r hne).2 hr,
    fun r hr hne => (hothers r hne).1 hr, ?_, ha.clock.trans hclock, ?_, ?_⟩
  · rw [htracks, getElem_setAt_self, State.movedTrack, hs2tracks, hs1tracks, getElem_setAt_self,
      State.movedTrack, hs0t]
    rfl
  · rw [htracks, getElem_setAt_ne _ _ _ _ hk, hs2tracks, hs1tracks, getElem_setAt_ne _ _ _ _ hk, ← hs0]
    exact getElem_setAt_ne _ _ _ _ hk
  · refine woundDown_congr ha.woundDown ?_ ?_ ?_ ?_ hclock.symm rfl rfl rfl rfl
    all_goals rw [← hs2]
    · exact Eq.symm (f1.trans (by rw [← hs0]; rfl))
    · exact Eq.symm (f5.trans (by rw [← hs0]; rfl))
    · exact Eq.symm (f6.trans (by rw [← hs0]; rfl))
    · exact Eq.symm (f4.trans (by rw [← hs0]; rfl))
  · rw [show (p.recordFault .headFault none none).track = p.track from rfl, hnone] at hleft
    have hdrain : s1.drainsWith p ↔ s.drainsWith p := by
      unfold State.drainsWith; rw [hs1table, l3, ← hs0]; rfl
    have hcounts : s1.boundCount p.bank = s.boundCount p.bank ∧ s1.busyCount p.bank = s.busyCount p.bank := by
      unfold State.boundCount State.busyCount; rw [hs1table]; exact ⟨rfl, rfl⟩
    refine leftOpen_behind hleft ?_ rfl ?_ ?_ ?_ hclock
    · rw [← hs2]; exact l3.trans (by rw [← hs0]; rfl)
    · rw [← hs2]
      exact (drainsWith_modify (p := p) p.number hkeeps).trans hdrain
    · rw [← hs2]
      obtain ⟨e1, e2⟩ := counts_modify (s := s1) p.number p.bank hkeeps
      exact ⟨e1.trans hcounts.1, e2.trans hcounts.2⟩
    · rw [← hs2]
      exact l1.trans (queueNotices_congr _ (by rw [← hs0]; rfl) (by rw [← hs0]; rfl))
  · exact ha.fire.trans (by rw [← hs2]; exact f2.trans (by rw [← hs0]; rfl))
  · exact ha.strobes.trans (by rw [← hs2]; exact f3.trans (by rw [← hs0]; rfl))

end Sys2Proof.Proofs


/-! PROOFS. What making and firing shots leaves of a passage's record, and the bound on a matcher's run (R67). -/

namespace Sys2Proof.Proofs

open Sys2Proof.Machine

/-! ## Records under shots that are made, fired and granted -/

/-- Only shots, faults and settlement of the record differ. -/
def RecordFires (p q : Passage) : Prop :=
  q = { p with shots := q.shots, faults := q.faults, state := q.state, settle := q.settle }

theorem RecordFires.refl (p : Passage) : RecordFires p p := rfl

theorem RecordFires.trans {p q r : Passage} (h : RecordFires p q) (k : RecordFires q r) :
    RecordFires p r := by
  unfold RecordFires at *
  rw [k, h]

/-- The records of two states, in the same places, differ in shots, faults and settlement only. -/
def Fires (s t : State) : Prop := List.Forall₂ RecordFires s.table.passages t.table.passages

theorem Fires.of_table {s t : State} (h : t.table = s.table) : Fires s t := by
  unfold Fires; rw [h]; exact List.forall₂_same.2 (fun p _ => RecordFires.refl p)

theorem Fires.refl (s : State) : Fires s s := .of_table rfl

theorem RecordFires.trans_list {l m n : List Passage} (h : List.Forall₂ RecordFires l m)
    (k : List.Forall₂ RecordFires m n) : List.Forall₂ RecordFires l n := by
  induction h generalizing n with
  | nil => exact k
  | cons hp _ ih =>
    cases k with
    | cons kp kt => exact .cons (hp.trans kp) (ih kt)

theorem Fires.trans {s t u : State} (h : Fires s t) (k : Fires t u) : Fires s u :=
  RecordFires.trans_list h k

theorem Fires.foldl {α : Type} (f : State → α → State) (h : ∀ s a, Fires s (f s a)) (l : List α)
    (s : State) : Fires s (l.foldl f s) := by
  induction l generalizing s with
  | nil => exact .refl s
  | cons a l ih => exact (h s a).trans (ih _)

theorem Fires.modifyPassage (s : State) (n : Nat) {f : Passage → Passage} (h : ∀ p, RecordFires p (f p)) :
    Fires s (s.modifyPassage n f) :=
  changePassage_forall₂ RecordFires.refl n f _ (fun p _ => h p)

theorem Fires.passage? {s u : State} (h : Fires s u) {n : Nat} {p : Passage} (hp : s.passage? n = some p) :
    ∃ q, u.passage? n = some q ∧ RecordFires p q :=
  forall₂_find (fun p q (hr : RecordFires p q) => by rw [hr]) h n hp

theorem Fires.modifyShot (s : State) (r : ShotRef) (f : Shot → Shot) : Fires s (s.modifyShot r f) :=
  .modifyPassage s _ (fun _ => rfl)

theorem Fires.recordFault (s : State) (n : Nat) (c : FaultCode) (a k : Option Nat) :
    Fires s (s.recordFault n c a k) := .modifyPassage s n (fun _ => rfl)

theorem Fires.queueNotice (s : State) (x : Notice) : Fires s (s.queueNotice x) :=
  .of_table (State.queueNotice_table s x)

theorem Fires.checkSettled (s : State) (n : Nat) : Fires s (s.checkSettled n) := by
  have settles : ∀ (st : PassageState) (x : Notice),
      Fires s ((s.modifyPassage n (·.settleAs st s.now s.clock.epoch)).queueNotice x) := fun st x =>
    (Fires.modifyPassage s n (f := (·.settleAs st s.now s.clock.epoch)) (fun _ => rfl)).trans (.queueNotice _ x)
  unfold State.checkSettled
  split
  · exact .refl s
  · split
    · split
      · exact settles _ _
      · exact settles _ _
      all_goals exact .refl s
    · exact .refl s

theorem Fires.skipShot (s : State) (r : ShotRef) (w : SkipReason) : Fires s (s.skipShot r w) :=
  ((Fires.modifyShot s r _).trans (.modifyShot _ r _)).trans (.checkSettled _ _)

theorem pendRead_table (s : State) (c : Camera) (w : ChannelWork) : (s.pendRead c w).table = s.table := by
  unfold State.pendRead; split <;> rfl

theorem Fires.grant (s : State) (ch : ChannelNo) (r : ShotRef) (c : Camera) : Fires s (s.grant ch r c) :=
  (Fires.modifyShot (s.leaveReadoutQueue r) r (fun k => { k with state := .reading })).trans
    (.of_table (pendRead_table _ _ _))

theorem Fires.grantOne (s : State) : Fires s s.grantOne := by
  unfold State.grantOne
  split
  · split
    · exact .grant s _ _ _
    · exact .refl s
  · exact .refl s

theorem Fires.grantAll (s : State) : Fires s s.grantAll :=
  (((Fires.grantOne s).trans (.grantOne _)).trans (.grantOne _)).trans (.grantOne _)

theorem openFlash_table (s : State) (r : ShotRef) (k : Shot) (o : StrobeOutcome) :
    (s.openFlash r k o).table = s.table := by
  cases o <;> rfl

theorem Fires.fireShot (s : State) (r : ShotRef) (b : BankNo) (k : Shot) (o : StrobeOutcome) :
    Fires s (s.fireShot r b k o) := by
  unfold State.fireShot
  dsimp only
  refine Fires.trans ?_ (.grantAll _)
  have hflash : ∀ v : State, v.table = s.table →
      Fires s (((v.modifyShot r (fun q => q.fired v.now o)).openFlash r k o).joinReadoutQueue r) := fun v hv =>
    ((Fires.of_table hv).trans (.modifyShot v r _)).trans (.of_table (openFlash_table _ r k o))
  refine hflash _ ?_
  split <;> rfl

theorem Fires.handOver (s : State) (r : ShotRef) : Fires s (s.handOver r) := by
  refine Fires.trans (t := s.leaveShotQueue r) (.of_table rfl) ?_
  change Fires _ ((s.leaveShotQueue r).decideShot r)
  unfold State.decideShot
  split
  · split
    · exact .skipShot _ r _
    · exact .fireShot _ r _ _ _
  · exact .refl _

theorem Fires.afterPlacing (s : State) (r : ShotRef) (x : Placing) : Fires s (s.afterPlacing r x) := by
  unfold State.afterPlacing
  split
  · exact .handOver s r
  · exact .refl s

theorem Fires.makeShot (s : State) (p : Passage) (k : Shot) : Fires s (s.makeShot p k) := by
  have happend : ∀ k' : Shot, Fires s (s.appendShot p.number k') := fun k' =>
    .modifyPassage s _ (fun _ => rfl)
  unfold State.makeShot
  split
  · dsimp only
    split
    · exact (happend _).trans (.checkSettled _ _)
    · split
      · exact (happend _).trans (.afterPlacing ((s.appendShot p.number _).joinShotQueue _) _ _)
      · exact (happend _).trans (.skipShot _ _ _)
  · exact .recordFault s _ _ _ _

theorem Fires.planCamera (s : State) (n v q r : Nat) (x : Int) (c : Camera) :
    Fires s (s.planCamera n v q r x c) := by
  unfold State.planCamera
  split
  · exact .refl s
  · dsimp only
    split
    · exact .makeShot s _ _
    · exact .refl s

theorem Fires.handPantographs (s : State) (n v r : Nat) (c : Candidate) (e : ProfileEntry) :
    Fires s (s.handPantographs n v r c e) :=
  .foldl _ (fun q _ => .foldl _ (fun _ _ => .planCamera _ _ _ _ _ _ _) _ q) _ s

/-! ## Steps of the matcher's run -/

/-- What one step of a run does, by the first of R63 to R66 that applies. -/
theorem runMatcher_succ {s : State} {n : Nat} {p : Passage} (bound : Nat) (hp : s.passage? n = some p) :
    State.runMatcher (bound + 1) s n =
      if p.axles.length ≤ p.cursor then s
      else if p.hasRemainder then s.modifyPassage n (fun q => q.growLast (q.axles.length - q.cursor))
      else if matchedVehiclePlaces ≤ p.vehicles.length then s.modifyPassage n (·.startRemainder)
      else match decideAt (s.bank p.bank) p.axles (p.state = .tail) p.cursor with
        | .wait => s
        | .accept c => State.runMatcher bound (s.acceptVehicle p c) n
        | .unmatched => State.runMatcher bound (s.modifyPassage n (·.unmatchedAxle)) n := by
  rw [State.runMatcher, hp] <;> rfl

/-- The profile of an accepted candidate is present (R59). -/
theorem decideAt_accept_present {b : Bank} {axles : List Axle} {t : Bool} {n : Nat} {c : Candidate}
    (h : decideAt b axles t n = .accept c) : (b.profiles[c.profile]).present = true := by
  unfold decideAt at h
  generalize hf : List.findSome? _ _ = x at h
  cases x with
  | none => cases h
  | some d =>
    obtain ⟨c', hmem, hc'⟩ := List.exists_of_findSome?_eq_some hf
    simp only [Option.getD_some] at h
    subst h
    have hsame : c' = c := by
      split at hc'
      · cases hc'
      · cases hc'
      · cases hc'; rfl
    subst hsame
    obtain ⟨k, -, hk⟩ := List.mem_flatMap.1 hmem
    unfold profileCandidates at hk
    dsimp only at hk
    split at hk
    · rename_i hpresent
      have : c'.profile = k := by
        split at hk
        · obtain rfl := List.mem_singleton.1 hk; rfl
        · rcases List.mem_cons.1 hk with rfl | hk
          · rfl
          · obtain rfl := List.mem_singleton.1 hk; rfl
      simpa only [this] using hpresent
    · cases hk

/-- The record of the passage after a vehicle is accepted: the cursor is advanced by the vehicle's axles. -/
theorem acceptVehicle_record {s : State} {p : Passage} (hp : s.passage? p.number = some p) (c : Candidate) :
    ∃ q, (s.acceptVehicle p c).passage? p.number = some q ∧ q.axles = p.axles ∧ q.bank = p.bank
      ∧ q.cursor = p.cursor + ((s.bank p.bank).profiles[c.profile]).axles := by
  have hmod := passage?_modifyPassage (f := (·.acceptVehicle c ((s.bank p.bank).profiles[c.profile])))
    (fun _ => rfl) hp
  obtain ⟨q, hq, hr⟩ := (Fires.handPantographs _ p.number p.vehicles.length p.cursor c
    ((s.bank p.bank).profiles[c.profile])).passage? hmod
  exact ⟨q, hq, by rw [hr]; rfl, by rw [hr]; rfl, by rw [hr]; rfl⟩

theorem acceptVehicle_banks (s : State) (p : Passage) (c : Candidate) :
    (s.acceptVehicle p c).banks = s.banks :=
  (Works.handPantographs (s.modifyPassage p.number
    (·.acceptVehicle c ((s.bank p.bank).profiles[c.profile]))) p.number p.vehicles.length p.cursor c
      ((s.bank p.bank).profiles[c.profile])).banks

theorem unmatchedAxle_fields (p : Passage) : p.unmatchedAxle.number = p.number
    ∧ p.unmatchedAxle.axles = p.axles ∧ p.unmatchedAxle.bank = p.bank
    ∧ p.unmatchedAxle.cursor = p.cursor + 1 := by
  unfold Passage.unmatchedAxle
  split <;> exact ⟨rfl, rfl, rfl, rfl⟩

/-- Every present profile of the bank has an axle. -/
def profilesHaveAxles (b : Bank) : Prop :=
  ∀ k : Fin 64, (b.profiles[k]).present = true → 2 ≤ (b.profiles[k]).axleCount.toNat

/-- Each step that continues a run advances the cursor, so a bound above the axles still to be covered is never
met (R67). -/
theorem runMatcher_bound (fuel : Nat) : ∀ (s : State) (n more : Nat) (p : Passage), s.passage? n = some p →
    p.axles.length < p.cursor + fuel → profilesHaveAxles (s.bank p.bank) →
    State.runMatcher (fuel + more) s n = State.runMatcher fuel s n := by
  induction fuel with
  | zero =>
    intro s n more p hp hlt _
    cases more with
    | zero => rfl
    | succ more =>
      rw [Nat.zero_add, runMatcher_succ more hp, if_pos (by omega)]; rfl
  | succ fuel ih =>
    intro s n more p hp hlt hprofiles
    have hn : p.number = n := passage?_number hp
    rw [Nat.succ_add, runMatcher_succ _ hp, runMatcher_succ _ hp]
    split
    · rfl
    split
    · rfl
    split
    · rfl
    cases hd : decideAt (s.bank p.bank) p.axles (p.state = .tail) p.cursor with
    | wait => rfl
    | accept c =>
      rw [← hn] at hp ⊢
      obtain ⟨q, hq, haxles, hbank, hcursor⟩ := acceptVehicle_record hp c
      have hsize := hprofiles _ (decideAt_accept_present hd)
      refine ih _ _ more q hq ?_ ?_
      · rw [haxles, hcursor]
        unfold ProfileEntry.axles
        omega
      · unfold State.bank
        rw [hbank, acceptVehicle_banks]; exact hprofiles
    | unmatched =>
      have hq := passage?_modifyPassage (f := (·.unmatchedAxle)) (fun p => (unmatchedAxle_fields p).1) hp
      obtain ⟨-, haxles, hbank, hcursor⟩ := unmatchedAxle_fields p
      refine ih _ _ more _ hq ?_ ?_
      · rw [haxles, hcursor]; omega
      · rw [hbank]; exact hprofiles

theorem hasRemainder_iff (p : Passage) : p.hasRemainder = true ↔ ∃ v ∈ p.vehicles, v.kind = .remainder := by
  simp [Passage.hasRemainder]

/-- The last entry is an open STRETCH (R64). -/
theorem inStretch_iff (p : Passage) : p.inStretch = true
    ↔ p.stretchOpen = true ∧ p.vehicles.getLast?.map (·.kind) = some .stretch := by
  unfold Passage.inStretch
  cases p.vehicles.getLast? with
  | none => simp
  | some v => simp

/-- The clauses of the matcher's step (R63 to R67). -/
theorem matcher_steps (s : State) (n bound : Nat) (p : Passage) (hp : s.passage? n = some p) :
    (p.axles.length ≤ p.cursor → State.runMatcher (bound + 1) s n = s)
    ∧ (p.cursor < p.axles.length → (∃ v ∈ p.vehicles, v.kind = .remainder) →
      State.runMatcher (bound + 1) s n = s.modifyPassage n (fun q : Passage => { q with
        vehicles := q.vehicles.modify (q.vehicles.length - 1)
          (fun v => { v with axleCount := v.axleCount + (q.axles.length - q.cursor) })
        cursor := q.axles.length }))
    ∧ (p.cursor < p.axles.length → (∀ v ∈ p.vehicles, v.kind ≠ .remainder) →
      (23 ≤ p.vehicles.length →
        State.runMatcher (bound + 1) s n = s.modifyPassage n (·.startRemainder))
      ∧ (p.vehicles.length < 23 →
        State.runMatcher (bound + 1) s n =
          match decideAt (s.bank p.bank) p.axles (p.state = .tail) p.cursor with
          | .wait => s
          | .accept c => State.runMatcher bound (s.acceptVehicle p c) n
          | .unmatched => State.runMatcher bound (s.modifyPassage n (·.unmatchedAxle)) n)) := by
  have hstep := runMatcher_succ bound hp
  refine ⟨fun hdone => ?_, fun hmore hrem => ?_, fun hmore hrem => ⟨fun hfull => ?_, fun hroom => ?_⟩⟩
  · rw [hstep, if_pos hdone]
  · rw [hstep, if_neg (Nat.not_le.2 hmore), if_pos ((hasRemainder_iff p).2 hrem)]
    refine modifyPassage_congr (fun q hq => ?_)
    obtain rfl : p = q := Option.some.inj (hp.symm.trans hq)
    unfold Passage.growLast
    rw [Nat.add_sub_cancel' (Nat.le_of_lt hmore)]
  · rw [hstep, if_neg (Nat.not_le.2 hmore), if_neg (fun h => ?_), if_pos (show matchedVehiclePlaces ≤ _ from hfull)]
    obtain ⟨v, hv, hk⟩ := (hasRemainder_iff p).1 h
    exact hrem v hv hk
  · rw [hstep, if_neg (Nat.not_le.2 hmore), if_neg (fun h => ?_), 
      if_neg (show ¬ matchedVehiclePlaces ≤ _ from Nat.not_le.2 hroom)]
    obtain ⟨v, hv, hk⟩ := (hasRemainder_iff p).1 h
    exact hrem v hv hk

end Sys2Proof.Proofs


/-! PROOFS. The axle a paired crossing makes (R17 to R19, R31 to R33, R35), and O43. -/

namespace Sys2Proof.Proofs

open Sys2Proof.Machine

/-! ## The derived axle -/

theorem measuredSpeed_some {spacing : Nat} {dt : Int} (hpos : 0 < dt)
    (hmax : spacing * 1000000 / dt.toNat ≤ 150000) :
    measuredSpeed spacing dt = some (spacing * 1000000 / dt.toNat) := by
  unfold measuredSpeed
  rw [if_pos hpos]
  exact if_pos hmax

theorem measuredSpeed_none {spacing : Nat} {dt : Int}
    (h : dt ≤ 0 ∨ 150000 < spacing * 1000000 / dt.toNat) : measuredSpeed spacing dt = none := by
  unfold measuredSpeed
  split
  · rcases h with h | h
    · omega
    · exact if_neg (Nat.not_le.2 h)
  · rfl

theorem axleSpacing_known {b : Axle} {time : GantryTime} {v w : Nat} (hb : b.speed = some w) :
    axleSpacing (some b) time (some v)
      = .known ((timeDiff time b.time * ((v : Int) + w)).tdiv 2000000) := by
  unfold axleSpacing
  dsimp only
  rw [hb]

theorem axleSpacing_unknown {b : Axle} {time : GantryTime} {v : Option Nat}
    (h : v = none ∨ b.speed = none) : axleSpacing (some b) time v = .unknown := by
  unfold axleSpacing
  dsimp only
  rcases h with h | h
  · rw [h]; cases b.speed <;> rfl
  · rw [h]

/-! ## The record with an axle -/

/-- The fault record of a passage after an axle: SPEED_IMPLAUSIBLE, TAIL_REOPENED, AXLE_OVERFLOW in this
order (R18, R35, R31). -/
def axleFaults (p : Passage) (a : Axle) : FaultRecord :=
  let f := if a.speedValid then p.faults else p.faults.record .speedImplausible p.nextAxle none
  let g := if p.state = .tail then f.record .tailReopened p.nextAxle none else f
  if p.axles.length < axleListPlaces then g else g.record .axleOverflow none none

/-- The record of an open passage after an axle (R31, R35). -/
def withAxle (p : Passage) (a : Axle) : Passage :=
  { p with
    axles := if p.axles.length < axleListPlaces then p.axles ++ [a] else p.axles
    axleTotal := min 65535 (p.axleTotal + 1), speed := a.speed
    faults := axleFaults p a
    state := .approaching
    tailTime := if p.state = .tail then none else p.tailTime
    exitTimeout := if p.state = .tail then none else p.exitTimeout }

theorem takeAxle_eq (p : Passage) (a : Axle) : p.takeAxle a = { p with
    axles := if p.axles.length < axleListPlaces then p.axles ++ [a] else p.axles
    axleTotal := min 65535 (p.axleTotal + 1), speed := a.speed
    faults := if p.axles.length < axleListPlaces then p.faults
      else p.faults.record .axleOverflow none none } := by
  unfold Passage.takeAxle
  dsimp only
  split <;> rfl

/-- An open passage is back in APPROACHING after an axle (R35). -/
theorem reopened_eq (p : Passage) (ho : p.state = .approaching ∨ p.state = .tail) :
    (if p.state = .tail then p.reopen else p) = { p with
      state := .approaching
      tailTime := if p.state = .tail then none else p.tailTime
      exitTimeout := if p.state = .tail then none else p.exitTimeout
      faults := if p.state = .tail then p.faults.record .tailReopened p.nextAxle none
        else p.faults } := by
  rcases ho with ho | ho
  · have hne : ¬ p.state = .tail := by rw [ho]; decide
    simp only [if_neg hne]
    rw [← ho]
  · simp only [if_pos ho]; rfl

theorem implausible_eq (p : Passage) (a : Axle) :
    (if a.speedValid then p else p.recordFault .speedImplausible p.nextAxle none) = { p with
      faults := if a.speedValid then p.faults
        else p.faults.record .speedImplausible p.nextAxle none } := by
  split <;> rfl

theorem receiveAxle_eq (p : Passage) (a : Axle) (ho : p.state = .approaching ∨ p.state = .tail) :
    p.receiveAxle a = withAxle p a := by
  unfold Passage.receiveAxle
  dsimp only
  generalize himplausible : (if a.speedValid then p else _) = p1
  rw [implausible_eq] at himplausible
  rw [reopened_eq p1 (by rw [← himplausible]; exact ho), takeAxle_eq, ← himplausible]
  rfl

theorem receiveAxle_fields (p : Passage) (a : Axle) : (p.receiveAxle a).number = p.number
    ∧ (p.receiveAxle a).bank = p.bank ∧ (p.receiveAxle a).track = p.track
    ∧ (p.receiveAxle a).speed = a.speed := by
  unfold Passage.receiveAxle
  dsimp only
  rw [takeAxle_eq]
  cases a.speedValid <;> by_cases ht : p.state = .tail
  all_goals simp [ht, Passage.recordFault, Passage.reopen]

/-! ## The axle handed over -/

theorem changePassage_changePassage {n : Nat} {f g : Passage → Passage} (hf : ∀ p, (f p).number = p.number)
    (l : List Passage) : changePassage n g (changePassage n f l) = changePassage n (g ∘ f) l := by
  induction l with
  | nil => rfl
  | cons a l ih =>
    by_cases ha : a.number = n
    · simp only [changePassage, if_pos ha, if_pos ((hf a).trans ha), Function.comp]
    · simp only [changePassage, if_neg ha, ih]

theorem modifyPassage_modifyPassage {s : State} {n : Nat} {f g : Passage → Passage}
    (hf : ∀ p, (f p).number = p.number) :
    (s.modifyPassage n f).modifyPassage n g = s.modifyPassage n (g ∘ f) := by
  unfold State.modifyPassage
  dsimp only
  rw [changePassage_changePassage hf]

/-- The record with the axle, its tail window started afresh (R31, R33). -/
theorem receive_and_start {s : State} {p : Passage} {a : Axle} (hp : s.passage? p.number = some p)
    (ho : p.state = .approaching ∨ p.state = .tail) :
    (s.modifyPassage p.number (·.receiveAxle a)).startTailWindow p.number
      = s.modifyPassage p.number (fun _ => { withAxle p a with
          tailWindow := some (s.clock.elapsed + tailWindowLength (s.trackEntry p).tailDistance.toNat a.speed) }) := by
  have hnumber : ∀ q : Passage, (q.receiveAxle a).number = q.number := fun q => (receiveAxle_fields q a).1
  unfold State.startTailWindow
  rw [passage?_modifyPassage (f := (·.receiveAxle a)) hnumber hp]
  dsimp only
  rw [modifyPassage_modifyPassage hnumber]
  refine modifyPassage_congr (fun q hq => ?_)
  obtain rfl := Option.some.inj (hq.symm.trans hp)
  dsimp only [Function.comp]
  rw [receiveAxle_eq q a ho]
  rfl

/-! ## O43 -/

theorem headSpacing_eq {s : State} {p : Passage} {side : Side} {inner : Head} {spacing : Nat}
    (h : (p.direction = .ab ∧ side = .sideA ∧ inner = .a2 ∧ spacing = (s.trackEntry p).headSpacingA.toNat)
      ∨ (p.direction = .ba ∧ side = .sideB ∧ inner = .b2
          ∧ spacing = (s.trackEntry p).headSpacingB.toNat)) :
    s.headSpacing p = spacing ∧ side = p.direction.approach ∧ inner.side = side ∧ inner.isOuter = false := by
  unfold State.headSpacing
  rcases h with ⟨hd, rfl, rfl, rfl⟩ | ⟨hd, rfl, rfl, rfl⟩ <;> rw [hd] <;> exact ⟨rfl, rfl, rfl, rfl⟩

/-- The speed and the spacing of a derived axle, by its transit time and the axle before (R18, R19). -/
theorem deriveAxle_speed (p : Passage) (spacing : Nat) (outer inner : GantryTime) (dt : Int)
    (hdt : dt = timeDiff inner outer) :
    (0 < dt → spacing * 1000000 / dt.toNat ≤ 150000 →
      (p.deriveAxle spacing outer inner).speed = some (spacing * 1000000 / dt.toNat)
        ∧ (p.deriveAxle spacing outer inner).speedValid = true)
    ∧ (dt ≤ 0 ∨ 150000 < spacing * 1000000 / dt.toNat →
      (p.deriveAxle spacing outer inner).speed = p.speed
        ∧ (p.deriveAxle spacing outer inner).speedValid = false) := by
  subst hdt
  unfold Passage.deriveAxle
  dsimp only
  refine ⟨fun hpos hmax => ?_, fun h => ?_⟩
  · rw [measuredSpeed_some hpos hmax]; exact ⟨rfl, rfl⟩
  · rw [measuredSpeed_none h]; exact ⟨rfl, rfl⟩

theorem deriveAxle_spacing (p : Passage) (spacing : Nat) (outer inner : GantryTime) :
    (p.deriveAxle spacing outer inner).spacing
      = axleSpacing p.axles.getLast? inner (p.deriveAxle spacing outer inner).speed := rfl

/-- The axle handed over: the record with it, then for a stored axle the run and the re-timing (R31 to R33). -/
theorem handAxle_eq {s : State} {p : Passage} {a : Axle} (hp : s.passage? p.number = some p)
    (ho : p.state = .approaching ∨ p.state = .tail) {v : State}
    (hv : v = s.modifyPassage p.number (fun _ => { withAxle p a with
      tailWindow := some (s.clock.elapsed + tailWindowLength (s.trackEntry p).tailDistance.toNat a.speed) })) :
    s.handAxle p a = if p.axles.length < axleListPlaces then (v.matchPassage p.number).retimeAll p.number
      else v := by
  unfold State.handAxle
  dsimp only
  rw [receive_and_start hp ho, hv]

/-- The record of O43 is `withAxle` with the tail window. -/
theorem withAxle_record {p : Passage} {a : Axle} {elapsed d : Nat} (index : Option Nat) (f g : FaultRecord)
    (window : Nat) (hindex : index = if p.axles.length < 128 then some p.axles.length else none)
    (hf : f = if a.speedValid then p.faults else p.faults.record .speedImplausible index none)
    (hg : g = if p.state = .tail then f.record .tailReopened index none else f)
    (hsome : ∀ v, a.speed = some v → window = min 10000000 (max 50000 (d * 1000000 / v)))
    (hnone : a.speed = none → window = 10000000) :
    { withAxle p a with tailWindow := some (elapsed + tailWindowLength d a.speed) } = { p with
      axles := if p.axles.length < 128 then p.axles ++ [a] else p.axles
      axleTotal := min 65535 (p.axleTotal + 1), speed := a.speed
      faults := if p.axles.length < 128 then g else g.record .axleOverflow none none
      state := .approaching
      tailTime := if p.state = .tail then none else p.tailTime
      exitTimeout := if p.state = .tail then none else p.exitTimeout
      tailWindow := some (elapsed + window) } := by
  have hwindow : tailWindowLength d a.speed = window := by
    cases hs : a.speed with
    | none => rw [hnone hs]; rfl
    | some v => rw [hsome v hs]; rfl
  rw [hwindow, hg, hf, hindex]
  rfl

/-- The clauses of the matcher's step with its changes written out. -/
theorem matcher_run (s : State) (n bound : Nat) (p : Passage) (hp : s.passage? n = some p) :
    (p.vehicles.length < 23 → p.cursor < p.axles.length → (∀ v ∈ p.vehicles, v.kind ≠ .remainder) →
      ∀ d, decideAt (s.bank p.bank) p.axles (p.state = .tail) p.cursor = d →
        (d = .wait → State.runMatcher (bound + 1) s n = s)
        ∧ (∀ x, d = .accept x →
          State.runMatcher (bound + 1) s n = State.runMatcher bound (s.acceptVehicle p x) n)
        ∧ (d = .unmatched →
          State.runMatcher (bound + 1) s n
            = State.runMatcher bound (s.modifyPassage n (·.unmatchedAxle)) n)) := by
  intro hroom hmore hrem d hd
  rw [((matcher_steps s n bound p hp).2.2 hmore hrem).2 hroom, hd]
  exact ⟨by rintro rfl; rfl, by rintro x rfl; rfl, by rintro rfl; rfl⟩

theorem unmatchedAxle_joins {p : Passage} (ho : p.stretchOpen = true)
    (hk : p.vehicles.getLast?.map (·.kind) = some .stretch) : p.unmatchedAxle = p.growLast 1 := by
  unfold Passage.unmatchedAxle; rw [if_pos ((inStretch_iff p).2 ⟨ho, hk⟩)]

theorem unmatchedAxle_starts {p : Passage}
    (h : p.stretchOpen = false ∨ p.vehicles.getLast?.map (·.kind) ≠ some .stretch) :
    p.unmatchedAxle = { p with
      vehicles := p.vehicles ++ [⟨.stretch, p.cursor, 1⟩]
      cursor := p.cursor + 1, stretchOpen := true
      faults := p.faults.record .unmatchedAxles (some p.cursor) none } := by
  unfold Passage.unmatchedAxle
  rw [if_neg (fun hi => ?_)]
  · rfl
  · obtain ⟨ho, hk⟩ := (inStretch_iff p).1 hi
    rcases h with h | h
    · rw [ho] at h; cases h
    · exact h hk

/-- Settles O43: the pairing makes the axle and hands it over; the run by its next step; the bound by the
cursor's advance. -/
theorem pairedCrossingMakesAxle : Obligations.PairedCrossingMakesAxle := by
  refine ⟨fun s t p side inner spacing e rest hinv hp hpt ho hside hfifo => ?_,
    fun s n bound p hp => ?_⟩
  · subst hpt
    obtain ⟨hspacing, happroach, hinner, hisInner⟩ := headSpacing_eq hside
    have hfound := passage?_of_mem hinv.2.1 hp
    let a := p.deriveAxle (s.headSpacing p) e.time s.now
    let s0 := s.setTrack p.track (s.tracks[p.track].setFifo side rest)
    let q : Passage := { withAxle p a with
      tailWindow := some (s.clock.elapsed + tailWindowLength (s.trackEntry p).tailDistance.toNat a.speed) }
    let v := s0.modifyPassage p.number (fun _ => q)
    have hhand : s0.handAxle p a = if p.axles.length < axleListPlaces
        then (v.matchPassage p.number).retimeAll p.number else v :=
      handAxle_eq (s := s0) hfound ho rfl
    have hworks : Works v (s0.handAxle p a) := by
      rw [hhand]
      split
      · exact (Works.matchPassage v _).trans (.retimeAll _ _)
      · exact .refl v
    refine ⟨v, s0.handAxle p a, q, a, ?_, rfl, fun h => ?_, fun h => ?_, hworks.tracks, hworks.clock,
      hworks.banks, hworks.counter, rfl, fun dt hdt => ?_, fun h => ?_, fun b hb => ⟨fun x y hx hy => ?_,
        fun h => ?_⟩, fun index f g window hindex hf hg hsome hnone => ?_⟩
    · change Host.Outcome.next (s.crossing p.track inner).endEvent = _
      rw [crossing_occupied inner hinv hp ho, routeCrossing_inner (hinner.trans happroach) hisInner, hinner]
      unfold State.pairCrossing
      dsimp only
      rw [hfifo]
    · rw [hhand]; exact if_pos h
    · rw [hhand]; exact if_neg (Nat.not_lt.2 h)
    · rw [← hspacing]; exact deriveAxle_speed p _ _ _ dt hdt
    · rw [show a.spacing = _ from deriveAxle_spacing p _ _ _, h]; rfl
    · rw [show a.spacing = _ from deriveAxle_spacing p _ _ _, hb,
        show (p.deriveAxle _ _ _).speed = some x from hx]
      exact axleSpacing_known hy
    · rw [show a.spacing = _ from deriveAxle_spacing p _ _ _, hb]
      exact axleSpacing_unknown h
    · exact withAxle_record index f g window hindex hf hg hsome hnone
  · obtain ⟨hdone, hremainder, hrest⟩ := matcher_steps s n bound p hp
    refine ⟨hdone, hremainder, fun hmore hrem => ⟨(hrest hmore hrem).1, fun hroom b d hb hd => ?_⟩,
      fun hlen hprofiles => ?_⟩
    · subst hb
      obtain ⟨hwait, haccept, hunmatched⟩ := matcher_run s n bound p hp hroom hmore hrem d hd
      refine ⟨hwait, fun x e hx he => ?_, fun hu => ⟨fun hopen hkind => ?_, fun hclosed => ?_⟩⟩
      · subst he
        rw [haccept x hx, ← passage?_number hp]; rfl
      · rw [hunmatched hu]
        refine congrArg (State.runMatcher bound · n) (modifyPassage_congr (fun r hr => ?_))
        obtain rfl := Option.some.inj (hr.symm.trans hp)
        rw [unmatchedAxle_joins hopen hkind]; rfl
      · rw [hunmatched hu]
        refine congrArg (State.runMatcher bound · n) (modifyPassage_congr (fun r hr => ?_))
        obtain rfl := Option.some.inj (hr.symm.trans hp)
        rw [unmatchedAxle_starts hclosed]
    · exact runMatcher_bound 129 s n bound p hp (by omega) hprofiles

end Sys2Proof.Proofs


/-! PROOFS. The validation of a commit as the first of its conditions that fails (R166 to R168). -/

namespace Sys2Proof.Proofs

open Sys2Proof.Machine

/-! ## The first condition that fails -/

/-- The failure of the first condition of a list that does not hold, or none when all hold. -/
inductive FirstFailure : List (Prop × Failure) → Option Failure → Prop
  | nil : FirstFailure [] none
  | holds {c : Prop} {f : Failure} {l : List (Prop × Failure)} {o : Option Failure} (hc : c)
      (h : FirstFailure l o) : FirstFailure ((c, f) :: l) o
  | fails {c : Prop} {f : Failure} {l : List (Prop × Failure)} (hc : ¬ c) :
      FirstFailure ((c, f) :: l) (some f)

theorem FirstFailure.append {l m : List (Prop × Failure)} {o o' : Option Failure} (h : FirstFailure l o)
    (k : FirstFailure m o') : FirstFailure (l ++ m) (o.or o') := by
  induction h with
  | nil => exact k
  | holds hc _ ih => exact .holds hc ih
  | fails hc => exact .fails hc

theorem FirstFailure.flatMap {α : Type} {g : α → List (Prop × Failure)} {h : α → Option Failure}
    (hg : ∀ a, FirstFailure (g a) (h a)) (l : List α) : FirstFailure (l.flatMap g) (l.findSome? h) := by
  induction l with
  | nil => exact .nil
  | cons a l ih =>
    have := (hg a).append ih
    rw [List.flatMap_cons, List.findSome?_cons]
    cases hha : h a with
    | none => rw [hha] at this; exact this
    | some f => rw [hha] at this; exact this

/-- A list of checks decides a list of conditions, one by one and with the same failures. -/
def Decides (checks : List (Bool × Failure)) (conditions : List (Prop × Failure)) : Prop :=
  List.Forall₂ (fun x y => (x.1 = true ↔ y.1) ∧ x.2 = y.2) checks conditions

theorem Decides.cons {b : Bool} {c : Prop} {f : Failure} {l : List (Bool × Failure)}
    {m : List (Prop × Failure)} (hb : b = true ↔ c) (h : Decides l m) :
    Decides ((b, f) :: l) ((c, f) :: m) := List.Forall₂.cons ⟨hb, rfl⟩ h

theorem Decides.nil : Decides [] [] := List.Forall₂.nil

theorem Decides.append {l l' : List (Bool × Failure)} {m m' : List (Prop × Failure)} (h : Decides l m)
    (k : Decides l' m') : Decides (l ++ l') (m ++ m') := List.rel_append h k

theorem Decides.map {α : Type} {g : α → Bool × Failure} {h : α → Prop × Failure}
    (hg : ∀ a, ((g a).1 = true ↔ (h a).1) ∧ (g a).2 = (h a).2) (l : List α) :
    Decides (l.map g) (l.map h) := by
  induction l with
  | nil => exact .nil
  | cons a l ih => exact List.Forall₂.cons (hg a) ih

theorem Decides.flatMap {α : Type} {g : α → List (Bool × Failure)} {h : α → List (Prop × Failure)}
    (hg : ∀ a, Decides (g a) (h a)) (l : List α) : Decides (l.flatMap g) (l.flatMap h) := by
  induction l with
  | nil => exact .nil
  | cons a l ih => rw [List.flatMap_cons, List.flatMap_cons]; exact (hg a).append ih

theorem Decides.firstFailing {l : List (Bool × Failure)} {m : List (Prop × Failure)} (h : Decides l m) :
    FirstFailure m (firstFailing l) := by
  induction h with
  | nil => exact .nil
  | @cons x y l m hxy _ ih =>
    obtain ⟨b, f⟩ := x
    obtain ⟨c, g⟩ := y
    obtain ⟨hb, hf⟩ := hxy
    dsimp only at hb hf
    subst hf
    cases b with
    | true => exact .holds (hb.1 rfl) ih
    | false => exact .fails (fun hc => Bool.false_ne_true (hb.2 hc))

/-- The checks of a part of a bank that is checked only when it is fitted or present. -/
theorem FirstFailure.when {fitted : Bool} {l : List (Bool × Failure)} {m : List (Prop × Failure)}
    (h : Decides l m) :
    FirstFailure (if fitted then m else []) (if fitted then Machine.firstFailing l else none) := by
  cases fitted with
  | true => exact h.firstFailing
  | false => exact .nil

/-- No failure is reported when every condition holds. -/
theorem FirstFailure.none_iff {l : List (Prop × Failure)} {o : Option Failure} (h : FirstFailure l o) :
    o = none ↔ ∀ x ∈ l, x.1 := by
  induction h with
  | nil => simp
  | holds hc _ ih => rw [ih, List.forall_mem_cons]; exact ⟨fun h => ⟨hc, h⟩, fun h => h.2⟩
  | fails hc => exact ⟨nofun, fun h => absurd (h _ (List.mem_cons_self ..)) hc⟩

/-- The failure reported is that of a condition that fails behind conditions that hold. -/
theorem FirstFailure.some_iff {l : List (Prop × Failure)} {o : Option Failure} (h : FirstFailure l o)
    (f : Failure) : o = some f ↔ ∃ before condition after,
      l = before ++ (condition, f) :: after ∧ ¬ condition ∧ ∀ x ∈ before, x.1 := by
  induction h with
  | nil =>
    refine ⟨nofun, ?_⟩
    rintro ⟨before, c, after, hl, -⟩
    cases before <;> cases hl
  | @holds c g l o hc _ ih =>
    rw [ih]
    constructor
    · rintro ⟨before, c', after, rfl, hc', hbefore⟩
      exact ⟨(c, g) :: before, c', after, rfl, hc', List.forall_mem_cons.2 ⟨hc, hbefore⟩⟩
    · rintro ⟨before, c', after, hl, hc', hbefore⟩
      cases before with
      | nil => cases hl; exact absurd hc hc'
      | cons x before =>
        cases hl
        exact ⟨before, c', after, rfl, hc', (List.forall_mem_cons.1 hbefore).2⟩
  | @fails c g l hc =>
    constructor
    · rintro h
      cases h
      exact ⟨[], c, l, rfl, hc, by simp⟩
    · rintro ⟨before, c', after, hl, hc', hbefore⟩
      cases before with
      | nil => cases hl; rfl
      | cons x before => cases hl; exact absurd (hbefore _ (List.mem_cons_self ..)) hc

/-! ## The checks of the entries (R166) -/

theorem within_iff {low high n : Int} : within low high n = true ↔ low ≤ n ∧ n ≤ high := by
  unfold within; simp

/-- A range with natural bounds. -/
theorem within_nat {low high n : Nat} : within low high n = true ↔ low ≤ n ∧ n ≤ high := by
  rw [within_iff]; omega

/-- A range from 0. -/
theorem within_zero {high n : Nat} : within 0 high n = true ↔ n ≤ high := by
  rw [within_iff]; omega

theorem track_check (e : TrackEntry) (index : Nat) : FirstFailure (e.conditions index) (e.check index) :=
  FirstFailure.when (.cons within_nat <| .cons within_nat <| .cons within_nat <| .cons within_nat <|
    .cons within_nat <| .cons within_nat <| .cons within_nat <| .cons within_zero .nil)

theorem camera_check (e : CameraEntry) (index : Nat) :
    FirstFailure (e.conditions index) (e.check index) := by
  have hstrobe : (within 0 3 e.strobe.toNat || e.strobe == 0xFF) = true
      ↔ e.strobe.toNat ≤ 3 ∨ e.strobe = 0xFF := by
    rw [Bool.or_eq_true, beq_iff_eq]
    exact or_congr within_zero Iff.rfl
  exact FirstFailure.when (.cons within_nat <| .cons within_iff <| .cons within_zero <| .cons hstrobe <|
    .cons within_nat <| .cons within_nat .nil)

theorem strobe_check (e : StrobeEntry) (index : Nat) : FirstFailure (e.conditions index) (e.check index) :=
  FirstFailure.when (.cons within_nat <| .cons within_zero <| .cons within_zero .nil)

theorem global_check (e : GlobalEntry) :
    FirstFailure (conditionsOf 4 0 [(e.threshold.toNat ≤ 8192, 1)]) e.check :=
  Decides.firstFailing (.cons within_zero .nil)

theorem pantograph_checks (p : PantographEntry) (index sub length : Nat) :
    Decides (p.checks index sub length) (p.conditions index sub length) := by
  refine .cons within_iff (.cons ?_ .nil)
  rw [Bool.and_eq_true, bne_iff_ne, decide_eq_true_iff]

theorem profile_check (e : ProfileEntry) (index : Nat) :
    FirstFailure (e.conditions index) (e.check index) := by
  have hspacings : Decides
      ((List.range (e.axles - 1)).map (fun i =>
        (within 1000 30000 (e.spacing (i + 1)), (⟨5, index, 3, i + 1, none⟩ : Failure))))
      ((List.range (e.axleCount.toNat - 1)).map (fun i =>
        (1000 ≤ (e.spacings.toList.getD i 0).toNat ∧ (e.spacings.toList.getD i 0).toNat ≤ 30000,
          ⟨5, index, 3, i + 1, none⟩))) :=
    .map (fun i => ⟨within_nat, rfl⟩) _
  have hcount : Decides [(within 2 8 e.axles, ⟨5, index, 2, 0, none⟩)]
      (conditionsOf 5 index [(2 ≤ e.axleCount.toNat ∧ e.axleCount.toNat ≤ 8, 2)]) :=
    .cons within_nat .nil
  have hfields : Decides [(within 20 500 e.tolerance.toNat, ⟨5, index, 4, 0, none⟩),
        (within 1000 40000 e.gapMin.toNat, ⟨5, index, 5, 0, none⟩),
        (within 1000 40000 e.gapMax.toNat, ⟨5, index, 6, 0, none⟩),
        (e.gapMin.toNat ≤ e.gapMax.toNat, ⟨5, index, 0x87, 0, none⟩),
        (within 0 3 e.pantographCount.toNat, ⟨5, index, 8, 0, none⟩)]
      (conditionsOf 5 index [
        (20 ≤ e.tolerance.toNat ∧ e.tolerance.toNat ≤ 500, 4),
        (1000 ≤ e.gapMin.toNat ∧ e.gapMin.toNat ≤ 40000, 5),
        (1000 ≤ e.gapMax.toNat ∧ e.gapMax.toNat ≤ 40000, 6),
        (e.gapMin.toNat ≤ e.gapMax.toNat, 0x87),
        (e.pantographCount.toNat ≤ 3, 8)]) :=
    .cons within_nat <| .cons within_nat <| .cons within_nat <| .cons decide_eq_true_iff <|
      .cons within_zero .nil
  have hpantographs := Decides.flatMap (fun x => pantograph_checks x.1 index x.2 e.length)
    (e.pantographs.toList.take e.pantographCount.toNat).zipIdx
  have hall := ((hcount.append hspacings).append hfields).append hpantographs
  unfold ProfileEntry.conditions ProfileEntry.check
  exact FirstFailure.when hall

theorem exposure_check (e : ExposureEntry) (index : Nat) :
    FirstFailure (e.conditions index) (e.check index) := by
  have hallowed : ∀ {low high n : Nat}, (!e.captureAllowed || within low high n) = true
      ↔ (e.captureAllowed = true → low ≤ n ∧ n ≤ high) := fun {low high n} => by
    rw [← within_nat]
    cases e.captureAllowed <;> simp
  exact Decides.firstFailing (.cons within_iff <| .cons hallowed <| .cons hallowed .nil)

/-! ## The checks across the tables (R167) -/

theorem profileCameras_check (b : Bank) (k : Fin 64) :
    FirstFailure (b.camerasFitted k) (b.checkProfileCameras k) :=
  FirstFailure.when (.flatMap (fun _ => .map (fun _ => ⟨Iff.rfl, rfl⟩) _) _)

/-- The strobe bank a camera names is fitted. -/
theorem strobeFitted_iff (b : Bank) (e : CameraEntry) : b.strobeFitted e = true
    ↔ ∀ k : StrobeNo, e.strobe.toNat = k.val → (b.strobes[k]).fitted = true := by
  unfold Bank.strobeFitted CameraEntry.strobeBank
  by_cases h : e.strobe.toNat < 4
  · rw [dif_pos h]
    refine ⟨fun hf k hk => ?_, fun hall => hall ⟨e.strobe.toNat, h⟩ rfl⟩
    obtain rfl : k = ⟨e.strobe.toNat, h⟩ := Fin.ext hk.symm
    exact hf
  · rw [dif_neg h]
    exact ⟨fun _ k hk => absurd (hk ▸ k.isLt) h, fun _ => rfl⟩

theorem placed_check (b : Bank) (c : Camera) : FirstFailure (b.cameraPlaced c) (b.checkCamera c) :=
  FirstFailure.when (.cons Iff.rfl <| .cons (strobeFitted_iff b _) <| .cons decide_eq_true_iff <|
    .cons decide_eq_true_iff .nil)

theorem disarmed_check (s : State) (b : Bank) (t : Track) :
    FirstFailure (conditionsOf 1 (t.val + 1)
      [((b.tracks[t]).fitted = true ∨ s.tracks[t].state = .disarmed, 0x86)]) (s.checkTrackDisarmed b t) := by
  unfold State.checkTrackDisarmed
  split
  next h => exact .fails (fun hc => hc.elim (fun hf => by rw [h.1] at hf; cases hf) h.2)
  next h =>
    refine .holds ?_ .nil
    by_cases hf : (b.tracks[t]).fitted = true
    · exact .inl hf
    · exact .inr (Decidable.byContradiction (fun hd => h ⟨Bool.eq_false_iff.2 hf, hd⟩))

/-- Validation reports the first condition of a commit that fails. -/
theorem validate_firstFailure (s : State) (b : Bank) :
    FirstFailure (s.commitConditions b) (s.validate b) :=
  ((((((((FirstFailure.flatMap (fun t => track_check _ _) _).append
    (.flatMap (fun c => camera_check _ _) _)).append
    (.flatMap (fun k => strobe_check _ _) _)).append
    (global_check b.global)).append
    (.flatMap (fun k => profile_check _ _) _)).append
    (.flatMap (fun k => exposure_check _ _) _)).append
    (.flatMap (profileCameras_check b) _)).append
    (.flatMap (placed_check b) _)).append
    (.flatMap (disarmed_check s b) _)

end Sys2Proof.Proofs


/-! PROOFS. The commit of a transaction (R163, R166 to R170), and O35. -/

namespace Sys2Proof.Proofs

open Sys2Proof.Machine

/-! ## A line that begins linking -/

/-- Two states that differ in lines and link only. -/
structure LinesOnly (s u : State) : Prop where
  same : SameBlocks s u
  table : u.table = s.table
  readout : u.readout = s.readout
  memory : u.memory = s.memory

theorem LinesOnly.refl (s : State) : LinesOnly s s := ⟨.refl s, rfl, rfl, rfl⟩

theorem LinesOnly.trans {s t u : State} (h : LinesOnly s t) (k : LinesOnly t u) : LinesOnly s u :=
  ⟨h.same.trans k.same, k.table.trans h.table, k.readout.trans h.readout, k.memory.trans h.memory⟩

theorem LinesOnly.setLine (s : State) (c : Camera) (l : CameraLine) : LinesOnly s (s.setLine c l) :=
  ⟨⟨rfl, rfl, rfl, rfl, rfl, rfl⟩, rfl, rfl, rfl⟩

theorem LinesOnly.changeLine (s : State) (c : Camera) (st : LineState) (why : LineCause) (lost : Nat) :
    LinesOnly s (s.changeLine c st why lost) := by
  obtain ⟨hsame, htable, hreadout, hmemory, -⟩ := changeLine_facts s c st why lost
  exact ⟨hsame, htable, hreadout, hmemory⟩

/-- Issuing an order touches neither the line's state nor its slots (R112). -/
theorem issue_state_slots (l : CameraLine) (e : Nat) :
    (l.issue e).state = l.state ∧ (l.issue e).slots = l.slots := by
  unfold CameraLine.issue
  split
  · exact ⟨rfl, rfl⟩
  · split <;> exact ⟨rfl, rfl⟩

/-- So does entering the linking sequence without a RESTART (R127). -/
theorem enterLinking_state_slots (l : CameraLine) :
    (l.enterLinking false).state = l.state ∧ (l.enterLinking false).slots = l.slots := by
  unfold CameraLine.enterLinking
  split
  · exact ⟨rfl, rfl⟩
  · unfold CameraLine.startLinking CameraLine.pend
    rw [if_neg (by decide)]
    split <;> exact ⟨rfl, rfl⟩

/-- A line that begins linking is LINKING with its slots kept; nothing but the line and the link changes (R128,
R129). -/
theorem beginLinking_facts (s : State) (c : Camera) (why : LineCause) :
    LinesOnly s (s.beginLinking c why)
    ∧ (∀ d : Camera, d ≠ c → (s.beginLinking c why).lines[d] = s.lines[d])
    ∧ (s.beginLinking c why).lines[c].state = .linking
    ∧ (s.beginLinking c why).lines[c].slots = s.lines[c].slots := by
  unfold State.beginLinking
  dsimp only
  let s1 := s.setLine c { s.lines[c] with accumulated := 0 }
  obtain ⟨-, -, -, -, hothers, hline, -⟩ := changeLine_facts s1 c .linking why 0
  have hs1 : s1.lines[c] = { s.lines[c] with accumulated := 0 } := lines_setLine _ _ _
  let s2 := s1.changeLine c .linking why 0
  let s3 := s2.setLine c (s2.lines[c].enterLinking false)
  have hs3 : s3.lines[c] = s2.lines[c].enterLinking false := lines_setLine _ _ _
  have hissued : (s3.issueOrder c).lines[c] = s3.lines[c].issue s3.clock.elapsed := lines_setLine _ _ _
  obtain ⟨hstate, hslots⟩ := issue_state_slots s3.lines[c] s3.clock.elapsed
  obtain ⟨hstate', hslots'⟩ := enterLinking_state_slots s2.lines[c]
  refine ⟨(((LinesOnly.setLine s c _).trans (.changeLine s1 c _ _ _)).trans
    (.setLine s2 c (s2.lines[c].enterLinking false))).trans (.setLine s3 c _), fun d hd => ?_, ?_, ?_⟩
  · calc (s3.issueOrder c).lines[d] = s3.lines[d] := lines_setLine_ne _ _ hd
      _ = s2.lines[d] := lines_setLine_ne _ _ hd
      _ = s1.lines[d] := hothers d hd
      _ = s.lines[d] := lines_setLine_ne _ _ hd
  · change (s3.issueOrder c).lines[c].state = _
    rw [hissued, hstate, hs3, hstate', show s2.lines[c] = _ from hline]
  · change (s3.issueOrder c).lines[c].slots = _
    rw [hissued, hslots, hs3, hslots', show s2.lines[c] = _ from hline, hs1]

/-! ## The lines of a commit (R170) -/

/-- A commit links this line. -/
def links (s : State) (c : Camera) : Prop :=
  s.lines[c].state = .unlinked ∧ (s.activeCamera c).fitted = true

theorem commitLine_facts (s : State) (c : Camera) :
    LinesOnly s (s.commitLine c) ∧ (∀ d : Camera, d ≠ c → (s.commitLine c).lines[d] = s.lines[d])
    ∧ (¬ links s c → (s.commitLine c).lines[c] = s.lines[c])
    ∧ (links s c → (s.commitLine c).lines[c].state = .linking
        ∧ (s.commitLine c).lines[c].slots = s.lines[c].slots) := by
  unfold State.commitLine
  by_cases h : links s c
  · obtain ⟨honly, hothers, hstate, hslots⟩ := beginLinking_facts s c .commit
    rw [if_pos (show s.lines[c].state = .unlinked ∧ (s.activeCamera c).fitted = true from h)]
    exact ⟨honly, hothers, fun hn => absurd h hn, fun _ => ⟨hstate, hslots⟩⟩
  · rw [if_neg (show ¬ (s.lines[c].state = .unlinked ∧ (s.activeCamera c).fitted = true) from h)]
    exact ⟨.refl s, fun _ _ => rfl, fun _ => rfl, fun hl => absurd hl h⟩

theorem links_congr {s u : State} {c : Camera} (hb : u.banks = s.banks)
    (hl : u.lines[c].state = s.lines[c].state) : links u c ↔ links s c := by
  unfold links State.activeCamera State.activeContents State.bank
  rw [hb, hl]

/-- The lines of a list, one after another: those the commit links are LINKING with their slots kept, the
others are as they were. -/
theorem commitLines_facts (l : List Camera) : ∀ s : State,
    LinesOnly s (l.foldl State.commitLine s)
    ∧ (∀ c : Camera, ¬ links s c → (l.foldl State.commitLine s).lines[c] = s.lines[c])
    ∧ (∀ c : Camera, c ∈ l → links s c → (l.foldl State.commitLine s).lines[c].state = .linking
        ∧ (l.foldl State.commitLine s).lines[c].slots = s.lines[c].slots) := by
  induction l with
  | nil => exact fun s => ⟨.refl s, fun _ _ => rfl, nofun⟩
  | cons d l ih =>
    intro s
    obtain ⟨honly, hothers, hkept, hlinked⟩ := commitLine_facts s d
    obtain ⟨ihonly, ihkept, ihlinked⟩ := ih (s.commitLine d)
    refine ⟨honly.trans ihonly, fun c hc => ?_, fun c hmem hc => ?_⟩
    · have hline : (s.commitLine d).lines[c] = s.lines[c] := by
        by_cases hcd : c = d
        · subst hcd; exact hkept hc
        · exact hothers c hcd
      rw [List.foldl_cons, ihkept c (fun h => hc ((links_congr honly.same.banks (by rw [hline])).1 h)), hline]
    · by_cases hcd : c = d
      · subst hcd
        obtain ⟨hstate, hslots⟩ := hlinked hc
        rw [List.foldl_cons, ihkept c (fun h => by rw [links, hstate] at h; cases h.1)]
        exact ⟨hstate, hslots⟩
      · have hline := hothers c hcd
        obtain ⟨hstate, hslots⟩ := ihlinked c (List.mem_of_ne_of_mem hcd hmem)
          ((links_congr honly.same.banks (by rw [hline])).2 hc)
        rw [List.foldl_cons]
        exact ⟨hstate, by rw [hslots, hline]⟩

/-! ## The banks of a commit (R169) -/

/-- The bank that is being staged is the open one (R156). -/
theorem open?_of_staging {b : Banks} (hsound : b.sound) {k : BankNo} (hk : b.slots[k].state = .staging)
    (hd : b.depth = 1) : b.open? = some k := by
  unfold Banks.open?
  rw [if_neg (by rw [hd]; decide)]
  cases h : b.staging? with
  | none => exact absurd hk (Banks.staging?_none h k)
  | some j =>
    obtain ⟨-, -, -, hunique, -⟩ := hsound
    rw [hunique j k (Banks.staging?_some h) hk]

/-- The ACTIVE bank is the one (R156). -/
theorem active?_of_active {b : Banks} (hsound : b.sound) {k : BankNo} (hk : b.slots[k].state = .active) :
    b.active? = some k := by
  cases h : b.active? with
  | none => exact absurd hk (Banks.active?_none h k)
  | some j =>
    obtain ⟨-, -, hunique, -⟩ := hsound
    rw [hunique j k (Banks.active?_some h) hk]

theorem active?_none_of {b : Banks} (h : ∀ k : BankNo, b.slots[k].state ≠ .active) : b.active? = none := by
  cases ha : b.active? with
  | none => rfl
  | some j => exact absurd (Banks.active?_some ha) (h j)

theorem standAside_cases (s : State) (a : BankNo) :
    ((∃ p ∈ s.table.passages, p.bank = a ∧ (p.state = .approaching ∨ p.state = .tail)) →
      s.standAside a = .draining)
    ∧ ((∀ p ∈ s.table.passages, p.bank = a → p.state ≠ .approaching ∧ p.state ≠ .tail) →
      s.standAside a = .standby) := by
  unfold State.standAside State.openCount
  refine ⟨fun ⟨p, hp, hbank, hopen⟩ => if_neg (fun h => ?_), fun h => if_pos ?_⟩
  · have := List.countP_eq_zero.1 h p hp
    rcases hopen with ho | ho <;> simp [hbank, ho] at this
  · refine List.countP_eq_zero.2 (fun p hp hc => ?_)
    simp only [Bool.and_eq_true, Bool.or_eq_true, decide_eq_true_eq] at hc
    obtain ⟨hbank, ho⟩ := hc
    exact ho.elim (h p hp hbank).1 (h p hp hbank).2

/-- What stands aside is not ACTIVE. -/
theorem standAside_ne_active (s : State) (a : BankNo) : s.standAside a ≠ .active := by
  unfold State.standAside; split <;> decide

/-- The switch (R169). -/
theorem switchBanks_facts {s : State} {k : BankNo} (hk : s.banks.slots[k].state = .staging) :
    (s.switchBanks k).banks.slots[k] = ⟨.active, s.banks.slots[k].contents⟩
    ∧ (s.switchBanks k).banks.depth = 0 ∧ (s.switchBanks k).banks.restoreImage = none
    ∧ (∀ a : BankNo, s.banks.active? = some a →
        (s.switchBanks k).banks.slots[a] = ⟨s.standAside a, s.banks.slots[a].contents⟩)
    ∧ (s.banks.active? = none → ∀ a : BankNo, a ≠ k →
        (s.switchBanks k).banks.slots[a] = s.banks.slots[a]) := by
  have hcontents : ∀ (v : State) (j : BankNo) (st : BankState), j ≠ k →
      (v.setBankState j st).banks.slots[k] = v.banks.slots[k] := fun v j st hj =>
    getElem_setAt_ne _ _ _ _ (Ne.symm hj)
  have hself : ∀ v : State, (v.setBankState k .active).banks.slots[k]
      = ⟨.active, v.banks.slots[k].contents⟩ := fun v => getElem_setAt_self _ _ _
  unfold State.switchBanks
  cases ha : s.banks.active? with
  | none =>
    refine ⟨hself s, rfl, rfl, nofun, fun _ a hne => getElem_setAt_ne _ _ _ _ hne⟩
  | some a =>
    have hne : a ≠ k := by
      rintro rfl
      rw [Banks.active?_some ha] at hk; cases hk
    refine ⟨?_, rfl, rfl, fun b hb => ?_, nofun⟩
    · refine (hself _).trans ?_
      rw [hcontents s a _ hne]
    · obtain rfl := Option.some.inj hb
      exact (getElem_setAt_ne _ _ _ _ hne).trans (getElem_setAt_self _ _ _)

/-- The new ACTIVE bank holds the staged contents. -/
theorem activeCamera_switchBanks {s : State} {k : BankNo} (hk : s.banks.slots[k].state = .staging)
    (c : Camera) : (s.switchBanks k).activeCamera c = (s.banks.slots[k].contents).cameras[c] := by
  obtain ⟨hnew, -, -, haside, hothers⟩ := switchBanks_facts hk
  have hactive : (s.switchBanks k).banks.active? = some k := by
    cases h : (s.switchBanks k).banks.active? with
    | none => exact absurd (by rw [hnew]) (Banks.active?_none h k)
    | some j =>
      by_cases hj : j = k
      · rw [hj]
      · have hstate := Banks.active?_some h
        exfalso
        cases ha : s.banks.active? with
        | none =>
          rw [hothers ha j hj] at hstate
          exact Banks.active?_none ha j hstate
        | some a =>
          have haj : a = j := by
            have := Banks.active?_some ha
            have hak : a ≠ k := by rintro rfl; rw [this] at hk; cases hk
            exact (by decide : ∀ x y z : Fin 2, x ≠ z → y ≠ z → x = y) a j k hak hj
          subst haj
          rw [haside a ha] at hstate
          exact standAside_ne_active s a hstate
  unfold State.activeCamera State.activeContents State.bank
  rw [hactive]
  dsimp only
  rw [hnew]

/-- A commit touches the banks, the lines and the link only. -/
theorem switchBanks_frame (s : State) (k : BankNo) :
    s.switchBanks k = { s with banks := (s.switchBanks k).banks } := by
  unfold State.switchBanks
  cases s.banks.active? <;> rfl

/-- What a commit leaves, of a valid bank (R169, R170). -/
theorem commit_facts {s : State} {k : BankNo} (hk : s.banks.slots[k].state = .staging) :
    LinesOnly { s with banks := (s.switchBanks k).banks } (s.commit k)
    ∧ (∀ c : Camera, s.lines[c].state = .unlinked → (s.banks.slots[k].contents.cameras[c]).fitted = true →
        (s.commit k).lines[c].state = .linking ∧ (s.commit k).lines[c].slots = s.lines[c].slots)
    ∧ (∀ c : Camera, (s.lines[c].state ≠ .unlinked
        ∨ (s.banks.slots[k].contents.cameras[c]).fitted = false) → (s.commit k).lines[c] = s.lines[c]) := by
  obtain ⟨honly, hkept, hlinked⟩ := commitLines_facts (List.finRange 12) (s.switchBanks k)
  have hlines : (s.switchBanks k).lines = s.lines := by rw [switchBanks_frame]
  have hlinks : ∀ c : Camera, links (s.switchBanks k) c
      ↔ s.lines[c].state = .unlinked ∧ (s.banks.slots[k].contents.cameras[c]).fitted = true := fun c => by
    unfold links
    rw [activeCamera_switchBanks hk, hlines]
  rw [← switchBanks_frame]
  unfold State.commit
  refine ⟨honly, fun c hc hf => ?_, fun c hc => ?_⟩
  · obtain ⟨hstate, hslots⟩ := hlinked c (List.mem_finRange c) ((hlinks c).2 ⟨hc, hf⟩)
    exact ⟨hstate, hslots.trans (by rw [hlines])⟩
  · refine (hkept c (fun h => ?_)).trans (by rw [hlines])
    obtain ⟨hu, hf⟩ := (hlinks c).1 h
    rcases hc with hc | hc
    · exact hc hu
    · rw [hc] at hf; cases hf

/-! ## O35 -/

theorem tableEnd_commits {s : State} {k : BankNo} (hsound : s.banks.sound)
    (hk : s.banks.slots[k].state = .staging) (hd : s.banks.depth = 1) :
    s.tableEnd = s.commitBank k := by
  unfold State.tableEnd
  rw [open?_of_staging hsound hk hd]
  dsimp only
  rw [if_neg (by rw [hd]; decide)]

theorem commitBank_fails {s : State} {k : BankNo} {f : Failure}
    (h : s.validate s.banks.slots[k].contents = some f) :
    s.commitBank k = (s.abortTransaction, ⟨.failed, .tableInvalid, [BitVec.ofNat 8 f.kind,
      BitVec.ofNat 8 f.index, BitVec.ofNat 8 f.condition, BitVec.ofNat 8 f.sub,
      BitVec.ofNat 8 (f.camera.getD 0xFF)]⟩) := by
  unfold State.commitBank State.bank
  rw [h]
  rfl

theorem commitBank_succeeds {s : State} {k : BankNo} (h : s.validate s.banks.slots[k].contents = none) :
    s.commitBank k = (s.commit k, ⟨.done, .ok, BitVec.ofNat 8 k.val ::
      optBytes 1 (fun st : BankState => byteOf st.toCode) (s.banks.active?.map s.standAside)⟩) := by
  unfold State.commitBank State.bank
  rw [h]
  rfl

/-- Settles O35: validation is the first failing condition; a commit is the switch and then its lines. -/
theorem commitRequest : Obligations.CommitRequest := by
  refine ⟨fun s b => ⟨(validate_firstFailure s b).none_iff, (validate_firstFailure s b).some_iff⟩,
    fun s tag k hready hsound hk hd => ?_⟩
  have run : ∀ x, s.commitBank k = x →
      exec (.tableEnd tag) s = .next (x.1.placeAnswer tag 0x0804 x.2).endEvent := fun x hx =>
    request_answers (r := .tableEnd) hready rfl (by rw [← hx, ← tableEnd_commits hsound hk hd]; rfl)
  refine ⟨fun f hf => run _ (commitBank_fails hf), fun hvalid => ?_⟩
  obtain ⟨hnew, hdepth, himage, haside, hothers⟩ := switchBanks_facts hk
  obtain ⟨⟨⟨hclock, htracks, hfire, hstrobes, hqueue, hbanks⟩, htable, hreadout, hmemory⟩, hlinked, hkept⟩ :=
    commit_facts hk
  have hdone := run _ (commitBank_succeeds hvalid)
  generalize hdata : optBytes 1 (fun st : BankState => byteOf st.toCode)
    (s.banks.active?.map s.standAside) = data at hdone
  dsimp only at hdone
  refine ⟨s.commit k, data, hdone, ?_, ?_, ?_, fun a ha => ?_, fun hnone => ?_, hlinked, hkept, hclock,
    htracks, htable, hqueue, hfire, hstrobes, hreadout, hmemory⟩
  · rw [hbanks]; exact hnew
  · rw [hbanks]; exact hdepth
  · rw [hbanks]; exact himage
  · have hactive := active?_of_active hsound ha
    rw [hbanks, show ({ s with banks := (s.switchBanks k).banks } : State).banks.slots[a] = _ from
      haside a hactive, ← hdata, hactive]
    obtain ⟨hdraining, hstandby⟩ := standAside_cases s a
    exact ⟨rfl, fun h => by rw [Option.map_some, hdraining h]; exact ⟨rfl, rfl⟩,
      fun h => by rw [Option.map_some, hstandby h]; exact ⟨rfl, rfl⟩⟩
  · have hactive := active?_none_of hnone
    rw [← hdata, hactive]
    refine ⟨rfl, fun a ha => ?_⟩
    rw [hbanks]; exact hothers hactive a ha

end Sys2Proof.Proofs


/-! PROOFS. Frame memory at a restart (R152), and a change of every place of a block in turn. -/

namespace Sys2Proof.Proofs

open Sys2Proof.Machine

/-! ## Every place of a vector changed in turn -/

/-- Each place of the list is changed once, by its own number and content. -/
theorem getElem_foldl_setAt {α : Type} {n : Nat} (g : Fin n → α → α) (l : List (Fin n)) (hl : l.Nodup)
    (v : Vector α n) (j : Fin n) :
    (l.foldl (fun v i => setAt v i (g i v[i])) v)[j] = if j ∈ l then g j v[j] else v[j] := by
  induction l generalizing v with
  | nil => rfl
  | cons i l ih =>
    obtain ⟨hi, hl⟩ := List.nodup_cons.1 hl
    rw [List.foldl_cons, ih hl, getElem_setAt]
    by_cases hji : j = i
    · subst hji
      rw [if_neg hi, if_pos rfl, if_pos (List.mem_cons_self ..)]
    · rw [if_neg hji]
      simp only [List.mem_cons, hji, false_or]

/-- All places of a block changed. -/
theorem getElem_foldl_finRange {α : Type} {n : Nat} (g : Fin n → α → α) (v : Vector α n) (j : Fin n) :
    ((List.finRange n).foldl (fun v i => setAt v i (g i v[i])) v)[j] = g j v[j] :=
  (getElem_foldl_setAt g _ (List.nodup_finRange n) v j).trans (if_pos (List.mem_finRange j))

theorem setAt_same {α : Type} {n : Nat} (v : Vector α n) (i : Fin n) : setAt v i v[i] = v := by
  unfold setAt; simp

theorem setAt_setAt {α : Type} {n : Nat} (v : Vector α n) (i : Fin n) (x y : α) :
    setAt (setAt v i x) i y = setAt v i y := by
  unfold setAt; simp [Vector.set_set]

/-! ## Pages freed (R143) -/

/-- The spare a retirement moves a page to (R144). -/
def retireTarget (m : FrameMemory) (k : Nat) (preferred : Option Nat) : Option Nat :=
  (preferred.filter (m.offSpare k).usable).or (m.offSpare k).lowestUsable

/-- A retired page is taken off its spare and moved to its target. -/
theorem retire_eq (m : FrameMemory) (k : Nat) (preferred : Option Nat) (cause : RetireCause) :
    (m.retire k preferred cause).1
      = (m.offSpare k).setPage k (Page.movedTo (retireTarget m k preferred)) := by
  have moved : ∀ (q : FrameMemory) (target : Option Nat) (a : Nat → List Notice) (b : List Notice),
      (match target with
        | some sp => (q.setPage k ⟨.free, some sp, none⟩, a sp)
        | none => (q.setPage k ⟨.outOfService, none, none⟩, b)).1 = q.setPage k (Page.movedTo target) :=
    fun q target a b => by cases target <;> rfl
  have htarget : (match preferred with
      | some sp => if (m.offSpare k).usable sp then some sp else (m.offSpare k).lowestUsable
      | none => (m.offSpare k).lowestUsable) = retireTarget m k preferred := by
    unfold retireTarget
    cases preferred with
    | none => rfl
    | some sp =>
      dsimp only
      rw [Option.filter_some]
      split <;> rfl
  rw [← htarget, ← moved (m.offSpare k) _ _ _]
  rfl

/-- Freeing a page looks at the page table and the bad spares only. -/
theorem free_withBytes (m : FrameMemory) (cells : List Host.Cell) (wrong : List Nat) (k : Nat) :
    (({ m with cells := cells, wrong := wrong } : FrameMemory).free k).1
      = { (m.free k).1 with cells := cells, wrong := wrong } := by
  have hpage : ({ m with cells := cells, wrong := wrong } : FrameMemory).page k = m.page k := rfl
  unfold FrameMemory.free
  rw [hpage]
  cases (m.page k).mark with
  | none => rfl
  | some mark =>
    dsimp only
    rw [retire_eq, retire_eq]
    rfl

theorem free_fold_withBytes (cells : List Host.Cell) (wrong : List Nat) (l : List Nat) :
    ∀ m : FrameMemory, l.foldl (fun m k => (m.free k).1) { m with cells := cells, wrong := wrong }
      = { l.foldl (fun m k => (m.free k).1) m with cells := cells, wrong := wrong } := by
  induction l with
  | nil => exact fun _ => rfl
  | cons k l ih => intro m; rw [List.foldl_cons, free_withBytes, ih]; rfl

/-- Turned bits leave all but the bytes and the wrong bits. -/
theorem upsets_eq (bits : List Nat) : ∀ m : FrameMemory, m.upsets bits
    = { m with cells := (m.upsets bits).cells, wrong := (m.upsets bits).wrong } := by
  induction bits with
  | nil => exact fun _ => rfl
  | cons b bits ih =>
    intro m
    change (m.upset b).upsets bits = _
    rw [ih]
    rfl

/-- A freed page is not held. -/
theorem free_page_self {m : FrameMemory} (h : m.wf) (k : Nat) (o : PageOwner) :
    ((m.free k).1.page k).condition ≠ .held o := by
  unfold FrameMemory.free
  split
  · rw [FrameMemory.page_setPage_self h]; exact nofun
  · obtain ⟨hpage, -⟩ := FrameMemory.retire_facts h k ‹RetireMark›.preferred ‹RetireMark›.cause
    rw [hpage]
    cases m.target _ <;> exact nofun

theorem free_page_ne {m : FrameMemory} (h : m.wf) {j k : Nat} (hj : j ≠ k) :
    (m.free k).1.page j = m.page j := by
  unfold FrameMemory.free
  split
  · exact FrameMemory.page_setPage_ne h k j _ hj
  · obtain ⟨-, -, -, hothers, -⟩ := FrameMemory.retire_facts h k ‹RetireMark›.preferred ‹RetireMark›.cause
    exact hothers j hj

/-- A page that is held after pages were freed was held before and is none of them. -/
theorem held_of_free_fold (l : List Nat) : ∀ {m : FrameMemory}, m.wf → ∀ {k : Nat} {o : PageOwner},
    ((l.foldl (fun m k => (m.free k).1) m).page k).condition = .held o →
      k ∉ l ∧ (m.page k).condition = .held o := by
  induction l with
  | nil => exact fun _ _ _ hk => ⟨by simp, hk⟩
  | cons i l ih =>
    intro m h k o hk
    obtain ⟨hl, hheld⟩ := ih (FrameMemory.free_wf h i) hk
    by_cases hki : k = i
    · subst hki; exact absurd hheld (free_page_self h k o)
    · rw [free_page_ne h hki] at hheld
      exact ⟨by simp [hki, hl], hheld⟩

theorem isHeld_iff (p : Page) : p.isHeld = true ↔ ∃ o, p.condition = .held o := by
  unfold Page.isHeld
  cases p.condition <;> simp

/-- The held pages, by what their pages read as. -/
theorem mem_heldPages {m : FrameMemory} (h : m.wf) (k : Nat) :
    k ∈ m.heldPages ↔ ∃ o, (m.page k).condition = .held o := by
  unfold FrameMemory.heldPages
  rw [← isHeld_iff]
  constructor
  · intro hk
    obtain ⟨e, he, rfl⟩ := List.mem_map.1 hk
    obtain ⟨hmem, hheld⟩ := List.mem_filter.1 he
    rw [FrameMemory.page_of_mem h hmem]; exact hheld
  · intro hk
    have hne : m.page k ≠ Page.initial := fun hi => by rw [hi] at hk; cases hk
    exact List.mem_map.2 ⟨_, List.mem_filter.2 ⟨FrameMemory.mem_of_page hne, hk⟩, rfl⟩

theorem heldPages_rising {m : FrameMemory} (h : m.wf) : m.heldPages.Pairwise (· < ·) :=
  List.pairwise_map.2 ((h.2.1).filter _)

/-- The rising list of the held pages is the one the restart works through. -/
theorem heldPages_unique {m : FrameMemory} (h : m.wf) {held : List Nat} (hr : held.Pairwise (· < ·))
    (hm : ∀ k, k ∈ held ↔ ∃ o, (m.page k).condition = .held o) : m.heldPages = held :=
  (heldPages_rising h).eq_of_mem_iff hr (fun k => (mem_heldPages h k).trans (hm k).symm)

/-- Frame memory after a restart that finds some bits turned over (R152). -/
theorem restart_upsets {m n : FrameMemory} (h : m.wf) {held wrong : List Nat} (hr : held.Pairwise (· < ·))
    (hm : ∀ k, k ∈ held ↔ ∃ o, (m.page k).condition = .held o)
    (hn : n = held.foldl (fun m k => (m.free k).1) m) :
    (m.upsets wrong).restart.pages = n.pages ∧ (m.upsets wrong).restart.badSpares = n.badSpares
    ∧ (m.upsets wrong).restart.reservations = []
    ∧ (∀ k o, ((m.upsets wrong).restart.page k).condition ≠ .held o)
    ∧ (m.upsets wrong).restart.cells = (m.upsets wrong).cells
    ∧ (m.upsets wrong).restart.wrong = (m.upsets wrong).wrong := by
  have hpages : (m.upsets wrong).heldPages = held := by
    rw [upsets_eq]; exact heldPages_unique h hr hm
  have hfold : (m.upsets wrong).heldPages.foldl (fun q k => (q.free k).1) (m.upsets wrong)
      = { n with cells := (m.upsets wrong).cells, wrong := (m.upsets wrong).wrong } := by
    rw [hpages, hn, ← free_fold_withBytes, ← upsets_eq]
  have hrestart : (m.upsets wrong).restart = { n with
      cells := (m.upsets wrong).cells, wrong := (m.upsets wrong).wrong, reservations := [] } := by
    unfold FrameMemory.restart; rw [hfold]
  rw [hrestart]
  refine ⟨rfl, rfl, rfl, fun k o hk => ?_, rfl, rfl⟩
  change (n.page k).condition = .held o at hk
  rw [hn] at hk
  obtain ⟨hnot, hheld⟩ := held_of_free_fold held h hk
  exact hnot ((hm k).2 ⟨o, hheld⟩)

end Sys2Proof.Proofs


/-! PROOFS. The blocks at a restart (R25, R108, R133, R175, R190). -/

namespace Sys2Proof.Proofs

open Sys2Proof.Machine

/-! ## Tracks (R25) -/

/-- A restarted monitor. -/
def restartedTrack (quiet : Nat) (m : TrackMonitor) : TrackMonitor :=
  if m.state = .disarmed then m
  else { m with state := .ignoring, fifoA := [], fifoB := [], quiet := some quiet }

theorem restartTracks_eq (l : List Track) : ∀ s : State, l.foldl State.restartTrack s = { s with
    tracks := l.foldl (fun v t => setAt v t (restartedTrack (s.clock.elapsed + s.quietTime t) v[t]))
      s.tracks } := by
  induction l with
  | nil => exact fun _ => rfl
  | cons t l ih =>
    intro s
    have hstep : s.restartTrack t = { s with
        tracks := setAt s.tracks t (restartedTrack (s.clock.elapsed + s.quietTime t) s.tracks[t]) } := by
      unfold State.restartTrack restartedTrack
      dsimp only
      split
      · rw [setAt_same]
      · rfl
    rw [List.foldl_cons, hstep, ih]
    rfl

/-! ## Fire unit and strobes (R108) -/

theorem restartFire_eq (l : List Camera) : ∀ s : State, l.foldl State.restartFire s = { s with
    fire := l.foldl (fun v c => setAt v c { v[c] with busy := none }) s.fire } := by
  induction l with
  | nil => exact fun _ => rfl
  | cons c l ih => intro s; rw [List.foldl_cons, ih]; rfl

theorem restartStrobes_eq (l : List StrobeNo) : ∀ s : State, l.foldl State.restartStrobe s = { s with
    strobes := l.foldl (fun v b => setAt v b { v[b] with recharge := none, flash := none })
      s.strobes } := by
  induction l with
  | nil => exact fun _ => rfl
  | cons b l ih => intro s; rw [List.foldl_cons, ih]; rfl

/-! ## Camera lines (R133) -/

/-- A restarted line. -/
def restartedLine (elapsed : Nat) (l : CameraLine) : CameraLine :=
  if l.state = .unlinked then l.restart
  else (({ l.restart with state := .linking, accumulated := 0 } : CameraLine).enterLinking true).issue elapsed

theorem restartLines_eq (l : List Camera) : ∀ s : State, l.foldl State.restartLine s = { s with
    lines := l.foldl (fun v c => setAt v c (restartedLine s.clock.elapsed v[c])) s.lines } := by
  induction l with
  | nil => exact fun _ => rfl
  | cons c l ih =>
    intro s
    have hstep : s.restartLine c
        = { s with lines := setAt s.lines c (restartedLine s.clock.elapsed s.lines[c]) } := by
      unfold State.restartLine restartedLine
      dsimp only
      have hstate : s.lines[c].restart.state = s.lines[c].state := rfl
      rw [hstate]
      split
      · rfl
      · unfold State.issueOrder
        rw [lines_setLine]
        unfold State.setLine
        dsimp only
        rw [setAt_setAt]
    rw [List.foldl_cons, hstep, ih]
    rfl

theorem restartedLine_unlinked {l : CameraLine} (e : Nat) (h : l.state = .unlinked) :
    restartedLine e l = { l with
      slots := Vector.replicate 2 none, orders := .none, disableMark := false
      outstanding := l.outstanding.map (fun o => { o with ignored := true }) } := by
  unfold restartedLine; rw [if_pos h]; rfl

/-- A line without an order in flight links anew with a DISCARD of slot 0 at once. -/
theorem restartedLine_free {l : CameraLine} (e : Nat) (h : l.state ≠ .unlinked) (ho : l.outstanding = none) :
    restartedLine e l = ⟨.linking, Vector.replicate 2 none, .none,
      some ⟨.discard 0, e + 50000, false⟩, 0, false, some (.restartDiscard 0)⟩ := by
  unfold restartedLine
  rw [if_neg h]
  obtain ⟨st, slots, orders, outstanding, accumulated, mark, linking⟩ := l
  dsimp only at ho
  subst ho
  rfl

/-- A line with an order in flight waits for it and ignores its result. -/
theorem restartedLine_waits {l : CameraLine} (e : Nat) {o : Outstanding} (h : l.state ≠ .unlinked)
    (ho : l.outstanding = some o) :
    restartedLine e l = ⟨.linking, Vector.replicate 2 none, .none, some { o with ignored := true }, 0,
      false, some (.waiting true)⟩ := by
  unfold restartedLine
  rw [if_neg h]
  obtain ⟨st, slots, orders, outstanding, accumulated, mark, linking⟩ := l
  dsimp only at ho
  subst ho
  rfl

/-! ## Banks (R175) -/

/-- A DRAINING bank goes to STANDBY. -/
def restartedSlot (x : BankSlot) : BankSlot := if x.state = .draining then { x with state := .standby } else x

theorem restartBanks_eq (l : List BankNo) : ∀ s : State, l.foldl State.restartBank s = { s with
    banks := { s.banks with slots := l.foldl (fun v b => setAt v b (restartedSlot v[b])) s.banks.slots } } := by
  induction l with
  | nil => exact fun _ => rfl
  | cons b l ih =>
    intro s
    have hstep : s.restartBank b
        = { s with banks := { s.banks with slots := setAt s.banks.slots b (restartedSlot s.banks.slots[b]) } } := by
      unfold State.restartBank restartedSlot
      split
      · rfl
      · rw [setAt_same]
    rw [List.foldl_cons, hstep, ih]
    rfl

/-- The banks after a restart: an open transaction is aborted, then DRAINING banks stand by. -/
def restartedBanks (b : Banks) : Banks :=
  let c := if b.depth = 0 then b else b.abort
  { c with slots := (List.finRange 2).foldl (fun v k => setAt v k (restartedSlot v[k])) c.slots }

theorem abortTransaction_eq (s : State) :
    s.abortTransaction = { s with banks := if s.banks.depth = 0 then s.banks else s.banks.abort } := by
  unfold State.abortTransaction
  split <;> rfl

/-- An abort, at any depth, of the bank that is staged (R164). -/
theorem abort_facts {b : Banks} (hsound : b.sound) :
    (if b.depth = 0 then b else b.abort).depth = 0
    ∧ (if b.depth = 0 then b else b.abort).restoreImage = none
    ∧ ∀ k : BankNo, (if b.depth = 0 then b else b.abort).slots[k] =
        if b.slots[k].state = .staging then
          (match b.restoreImage with
            | some image => ⟨.standby, image⟩
            | none => ⟨.empty, Bank.empty⟩)
        else b.slots[k] := by
  obtain ⟨-, hstaging, -, hunique, himage⟩ := hsound
  by_cases hd : b.depth = 0
  · rw [if_pos hd]
    refine ⟨hd, himage hd, fun k => ?_⟩
    rw [if_neg (fun hk => by have := hstaging.2 ⟨k, hk⟩; omega)]
  · rw [if_neg hd]
    unfold Banks.abort
    cases hs : b.staging? with
    | none =>
      obtain ⟨k, hk⟩ := hstaging.1 (Nat.pos_of_ne_zero hd)
      exact absurd hk (Banks.staging?_none hs k)
    | some j =>
      have hj := Banks.staging?_some hs
      have hslot : ∀ (k : BankNo) (st : BankState) (c : Bank), (b.setSlot j st c).slots[k]
          = if b.slots[k].state = .staging then ⟨st, c⟩ else b.slots[k] := fun k st c => by
        unfold Banks.setSlot
        rw [getElem_setAt]
        by_cases hkj : k = j
        · subst hkj; rw [if_pos rfl, if_pos hj]
        · rw [if_neg hkj, if_neg (fun hk => hkj (hunique k j hk hj))]
      cases b.restoreImage with
      | none => exact ⟨rfl, rfl, fun k => hslot k _ _⟩
      | some image => exact ⟨rfl, rfl, fun k => hslot k _ _⟩

theorem restartedBanks_facts {b : Banks} (hsound : b.sound) :
    (restartedBanks b).depth = 0 ∧ (restartedBanks b).restoreImage = none
    ∧ ∀ k : BankNo,
        (b.slots[k].state ≠ .staging → b.slots[k].state ≠ .draining →
          (restartedBanks b).slots[k] = b.slots[k])
        ∧ (b.slots[k].state = .draining → (restartedBanks b).slots[k] = ⟨.standby, b.slots[k].contents⟩)
        ∧ (b.slots[k].state = .staging →
          (∀ image, b.restoreImage = some image → (restartedBanks b).slots[k] = ⟨.standby, image⟩)
          ∧ (b.restoreImage = none → (restartedBanks b).slots[k] = ⟨.empty, Bank.empty⟩)) := by
  obtain ⟨hdepth, himage, hslots⟩ := abort_facts hsound
  have hslot : ∀ k : BankNo, (restartedBanks b).slots[k]
      = restartedSlot (if b.depth = 0 then b else b.abort).slots[k] := fun k =>
    getElem_foldl_finRange (fun _ x => restartedSlot x) _ k
  refine ⟨hdepth, himage, fun k => ⟨fun hs hd => ?_, fun hd => ?_, fun hs => ⟨fun image hi => ?_, fun hi => ?_⟩⟩⟩
  · rw [hslot, hslots, if_neg hs]; exact if_neg hd
  · rw [hslot, hslots, if_neg (by rw [hd]; decide)]; exact if_pos hd
  · rw [hslot, hslots, if_pos hs, hi]; rfl
  · rw [hslot, hslots, if_pos hs, hi]; rfl

/-- No bank becomes ACTIVE at a restart and none stops being so. -/
theorem restartedBanks_active {b : Banks} (hsound : b.sound) (k : BankNo) :
    ((restartedBanks b).slots[k].state = .active ↔ b.slots[k].state = .active)
    ∧ (b.slots[k].state = .active → (restartedBanks b).slots[k] = b.slots[k]) := by
  obtain ⟨-, -, hslots⟩ := restartedBanks_facts hsound
  obtain ⟨hkept, hdraining, hstaging⟩ := hslots k
  have hactive : b.slots[k].state = .active → (restartedBanks b).slots[k] = b.slots[k] := fun h =>
    hkept (by rw [h]; decide) (by rw [h]; decide)
  refine ⟨⟨fun h => ?_, fun h => by rw [hactive h]; exact h⟩, hactive⟩
  by_cases hs : b.slots[k].state = .staging
  · cases hi : b.restoreImage with
    | none => rw [(hstaging hs).2 hi] at h; cases h
    | some image => rw [(hstaging hs).1 image hi] at h; cases h
  · by_cases hd : b.slots[k].state = .draining
    · rw [hdraining hd] at h; cases h
    · rw [hkept hs hd] at h; exact h

/-- The ACTIVE bank, as the bank that is ACTIVE. -/
theorem active?_eq {b : Banks} {active : Option BankNo}
    (h : ∀ k : BankNo, active = some k ↔ b.slots[k].state = .active) : b.active? = active := by
  cases ha : b.active? with
  | some k => exact ((h k).2 (Banks.active?_some ha)).symm
  | none =>
    cases active with
    | none => rfl
    | some k => exact absurd ((h k).1 rfl) (Banks.active?_none ha k)

theorem activeContents_restarted {s u : State} (hsound : s.banks.sound)
    (hu : u.banks = restartedBanks s.banks) : u.activeContents = s.activeContents := by
  have hactive : u.banks.active? = s.banks.active? := by
    rw [hu]
    refine active?_eq (fun k => ?_)
    rw [(restartedBanks_active hsound k).1]
    exact ⟨fun h => Banks.active?_some h, fun h => active?_of_active hsound h⟩
  unfold State.activeContents State.bank
  rw [hactive]
  cases ha : s.banks.active? with
  | none => rfl
  | some k =>
    dsimp only
    rw [hu, (restartedBanks_active hsound k).2 (Banks.active?_some ha)]

/-! ## All blocks (R190) -/

/-- What a restart makes of the blocks. -/
theorem restartBlocks_eq (s : State) : ∃ low : Bool, s.restartBlocks = { s with
      tracks := (List.finRange 4).foldl
        (fun v t => setAt v t (restartedTrack (s.clock.elapsed + s.quietTime t) v[t])) s.tracks
      table := ⟨[], s.table.nextNumber⟩, shotQueue := []
      fire := (List.finRange 12).foldl (fun v c => setAt v c { v[c] with busy := none }) s.fire
      strobes := (List.finRange 4).foldl
        (fun v b => setAt v b { v[b] with recharge := none, flash := none }) s.strobes
      lines := (List.finRange 12).foldl
        (fun v c => setAt v c (restartedLine s.clock.elapsed v[c])) s.lines
      readout := ⟨[], Vector.replicate 4 none⟩
      memory := { s.memory.restart with low := low }
      banks := restartedBanks s.banks }
    ∧ (low = true ↔ s.memory.restart.freeCount
        < ({ s with banks := restartedBanks s.banks } : State).threshold) := by
  refine ⟨_, ?_, decide_eq_true_iff⟩
  unfold State.restartBlocks
  dsimp only
  rw [restartTracks_eq, restartFire_eq, restartStrobes_eq, restartLines_eq, abortTransaction_eq,
    restartBanks_eq]
  rfl

end Sys2Proof.Proofs


/-! PROOFS. What follows a restart (R25, R190), and O36. -/

namespace Sys2Proof.Proofs

open Sys2Proof.Machine

/-! ## Tracks with a faulty head after a restart (R25) -/

/-- A restarted track with a faulty head goes on to HEAD_FAULT. -/
abbrev goesOn (m : TrackMonitor) : Prop := m.state = .ignoring ∧ HeadHealth.allWell m.health = false

/-- A monitor that goes on to HEAD_FAULT, or stays. -/
def refaulted (m : TrackMonitor) : TrackMonitor :=
  if goesOn m then ⟨.headFault, m.health, [], [], none⟩ else m

/-- The notice of a track that goes on to HEAD_FAULT. -/
def refaultNotice (s : State) (t : Track) : List QueuedNotice :=
  if goesOn s.tracks[t] then
    [⟨.trackState t .ignoring .headFault s.tracks[t].health, s.clock.epoch, s.clock.time, false⟩]
  else []

theorem queueNotice_room {s : State} (n : Notice) (h : s.link.notices.length < 64) :
    s.queueNotice n = { s with link := { s.link with
      notices := s.link.notices ++ [⟨n, s.clock.epoch, s.clock.time, false⟩] } } := if_pos h

theorem refault_eq {s : State} (t : Track) (hroom : s.link.notices.length < 64) :
    s.refault t = { s with
      tracks := setAt s.tracks t (refaulted s.tracks[t])
      link := { s.link with notices := s.link.notices ++ refaultNotice s t } } := by
  unfold State.refault refaulted refaultNotice
  by_cases h : goesOn s.tracks[t]
  · rw [if_pos h, if_pos h, if_pos h, trackTo_ne s t .headFault rfl (by rw [h.1]; decide),
      queueNotice_room _ (by exact hroom), h.1]
    rfl
  · rw [if_neg h, if_neg h, if_neg h, setAt_same, List.append_nil]

theorem refaults_eq (l : List Track) : ∀ s : State, l.Nodup → s.link.notices.length + l.length ≤ 64 →
    l.foldl State.refault s = { s with
      tracks := l.foldl (fun v t => setAt v t (refaulted v[t])) s.tracks
      link := { s.link with notices := s.link.notices ++ l.flatMap (refaultNotice s) } } := by
  induction l with
  | nil => intro s _ _; simp
  | cons t l ih =>
    intro s hl hroom
    obtain ⟨ht, hl⟩ := List.nodup_cons.1 hl
    rw [List.length_cons] at hroom
    have hone : (refaultNotice s t).length ≤ 1 := by unfold refaultNotice; split <;> simp
    rw [List.foldl_cons, refault_eq t (by omega), ih _ hl (by rw [List.length_append]; omega)]
    have hsame : l.flatMap (refaultNotice { s with
          tracks := setAt s.tracks t (refaulted s.tracks[t])
          link := { s.link with notices := s.link.notices ++ refaultNotice s t } })
        = l.flatMap (refaultNotice s) := by
      refine List.flatMap_congr (fun j hj => ?_)
      have hjt : j ≠ t := fun h => ht (h ▸ hj)
      unfold refaultNotice
      rw [getElem_setAt_ne _ _ _ _ hjt]
    rw [hsame, List.flatMap_cons, ← List.append_assoc]
    rfl

/-- A restarted track, as the restart leaves it (R25). -/
theorem refaulted_restartedTrack (quiet : Nat) (m : TrackMonitor) :
    (m.state = .disarmed → refaulted (restartedTrack quiet m) = m)
    ∧ (m.state ≠ .disarmed → refaulted (restartedTrack quiet m)
        = if m.health = .allHealthy then ⟨.ignoring, .allHealthy, [], [], some quiet⟩
          else ⟨.headFault, m.health, [], [], none⟩) := by
  unfold refaulted restartedTrack goesOn
  refine ⟨fun hd => ?_, fun hd => ?_⟩
  · rw [if_pos hd, if_neg (by rw [hd]; exact fun h => nomatch h.1)]
  · rw [if_neg hd]
    by_cases hh : m.health = .allHealthy
    · rw [if_neg (fun h => by rw [(allWell_iff _).2 hh] at h; cases h.2), if_pos hh, ← hh]
    · rw [if_neg hh, if_pos ⟨rfl, by rw [← Bool.not_eq_true, allWell_iff]; exact hh⟩]

theorem goesOn_restartedTrack (quiet : Nat) (m : TrackMonitor) :
    goesOn (restartedTrack quiet m) ↔ m.state ≠ .disarmed ∧ m.health ≠ .allHealthy := by
  unfold restartedTrack goesOn
  by_cases hd : m.state = .disarmed
  · rw [if_pos hd, hd]
    exact ⟨fun h => (nomatch h.1), fun h => absurd rfl h.1⟩
  · rw [if_neg hd, ← Bool.not_eq_true, allWell_iff]
    exact ⟨fun h => ⟨hd, h.2⟩, fun h => ⟨rfl, h.2⟩⟩

theorem restartedTrack_health (quiet : Nat) (m : TrackMonitor) :
    (restartedTrack quiet m).health = m.health := by
  unfold restartedTrack; split <;> rfl

/-- The notices of a list's elements that a condition picks. -/
theorem flatMap_if {α β : Type} (c : α → Prop) [DecidablePred c] (f : α → β) (l : List α) :
    l.flatMap (fun a => if c a then [f a] else []) = (l.filter (fun a => c a)).map f := by
  induction l with
  | nil => rfl
  | cons a l ih =>
    rw [List.flatMap_cons, List.filter_cons, ih]
    by_cases h : c a <;> simp [h]

/-! ## The restart taken (R190) -/

/-- The monitors after a restart. -/
def restartedTracks (s : State) : Vector TrackMonitor 4 :=
  (List.finRange 4).foldl (fun v t => setAt v t (refaulted v[t]))
    ((List.finRange 4).foldl
      (fun v t => setAt v t (restartedTrack (s.clock.elapsed + s.quietTime t) v[t])) s.tracks)

theorem restartedTracks_get (s : State) (t : Track) : (restartedTracks s)[t]
    = refaulted (restartedTrack (s.clock.elapsed + s.quietTime t) s.tracks[t]) := by
  unfold restartedTracks
  rw [getElem_foldl_finRange (fun _ => refaulted),
    getElem_foldl_finRange (fun t => restartedTrack (s.clock.elapsed + s.quietTime t))]

/-- What a restart that is taken makes of the state. -/
theorem takeRestart_eq (s : State) (transaction : Bool) : ∃ low : Bool,
    s.takeRestart transaction = { s with
      tracks := restartedTracks s
      table := ⟨[], s.table.nextNumber⟩, shotQueue := []
      fire := (List.finRange 12).foldl (fun v c => setAt v c { v[c] with busy := none }) s.fire
      strobes := (List.finRange 4).foldl
        (fun v b => setAt v b { v[b] with recharge := none, flash := none }) s.strobes
      lines := (List.finRange 12).foldl
        (fun v c => setAt v c (restartedLine s.clock.elapsed v[c])) s.lines
      readout := ⟨[], Vector.replicate 4 none⟩
      memory := { s.memory.restart with low := low }
      banks := restartedBanks s.banks
      link := { s.link with
        inProgress := none, dropped := false
        notices := ⟨.restarted s.table.passages.length transaction (restartedBanks s.banks).active?,
            s.clock.epoch, s.clock.time, false⟩
          :: ((List.finRange 4).filter (fun t : Track =>
                s.tracks[t].state ≠ .disarmed ∧ s.tracks[t].health ≠ .allHealthy)).map (fun t =>
              ⟨.trackState t .ignoring .headFault s.tracks[t].health, s.clock.epoch, s.clock.time,
                false⟩) } }
    ∧ (low = true ↔ s.memory.restart.freeCount
        < ({ s with banks := restartedBanks s.banks } : State).threshold) := by
  obtain ⟨low, hblocks, hlow⟩ := restartBlocks_eq s.clearNotices
  refine ⟨low, ?_, hlow⟩
  unfold State.takeRestart
  dsimp only
  have hnotices : ∀ u : State, u.clock = s.clock → (∀ t : Track, u.tracks[t]
        = restartedTrack (s.clock.elapsed + s.quietTime t) s.tracks[t]) →
      (List.finRange 4).flatMap (refaultNotice u) = ((List.finRange 4).filter (fun t : Track =>
          s.tracks[t].state ≠ .disarmed ∧ s.tracks[t].health ≠ .allHealthy)).map (fun t =>
        ⟨.trackState t .ignoring .headFault s.tracks[t].health, s.clock.epoch, s.clock.time, false⟩) := by
    intro u hclock htracks
    rw [← flatMap_if]
    refine List.flatMap_congr (fun t _ => ?_)
    unfold refaultNotice
    rw [hclock, htracks]
    exact if_congr (goesOn_restartedTrack _ _) (by rw [restartedTrack_health]) rfl
  rw [hblocks, queueNotice_room, refaults_eq _ _ (List.nodup_finRange 4)]
  · rw [hnotices]
    · rfl
    · rfl
    · exact getElem_foldl_finRange (fun t => restartedTrack (s.clock.elapsed + s.quietTime t)) s.tracks
  · exact show 1 + 4 ≤ 64 by decide
  · exact show 0 < 64 by decide

/-! ## O36 -/

/-- No busy interval is left, and running pulses run on (R108). -/
theorem idleFire_get (v : Vector FireLine 12) (c : Camera) :
    ((List.finRange 12).foldl (fun v c => setAt v c { v[c] with busy := none }) v)[c]
      = ⟨v[c].trigger, none⟩ :=
  getElem_foldl_finRange (fun _ (f : FireLine) => { f with busy := none }) v c

theorem readyStrobes_get (v : Vector StrobeBank 4) (b : StrobeNo) :
    ((List.finRange 4).foldl (fun v b => setAt v b { v[b] with recharge := none, flash := none }) v)[b]
      = ⟨none, none, v[b].output⟩ :=
  getElem_foldl_finRange (fun _ (k : StrobeBank) => { k with recharge := none, flash := none }) v b

/-- The memory-low state does not count as a page. -/
theorem freeCount_low (m : FrameMemory) (low : Bool) :
    ({ m with low := low } : FrameMemory).freeCount = m.freeCount := by
  unfold FrameMemory.freeCount FrameMemory.heldCount FrameMemory.outOfServiceCount
  dsimp only

/-- The restart in progress takes effect with the last byte of its response (R190). -/
theorem frameSent_restart {s : State} {r : Response} {rest : List Response} {transaction : Bool}
    {wrong : List Nat} (hwrong : ∀ b ∈ wrong, b < 545259520 * 8) (hsending : s.link.sending = some .response)
    (hreplies : s.link.replies = r :: rest) (hr : r.immediate = false)
    (hprogress : s.link.inProgress = some (.restart transaction)) :
    exec (.frameSent wrong) s = .next ((({ s with
      memory := s.memory.upsets wrong
      link := { s.link with sending := none, lastSent := some .response, replies := rest } } :
        State).takeRestart transaction).takeRequest.endEvent) := by
  have hnone : wrong.find? (fun b => frameMemoryBits ≤ b) = none :=
    List.find?_eq_none.2 (fun b hb h => absurd (hwrong b hb) (Nat.not_lt.2 (of_decide_eq_true h)))
  change execFrameSent wrong s = _
  unfold execFrameSent
  rw [hnone, hsending]
  unfold State.frameSent
  rw [show (s.setMemory (s.memory.upsets wrong)).link = s.link from rfl, hsending]
  unfold State.finishSending
  dsimp only
  rw [show (s.setMemory (s.memory.upsets wrong)).link = s.link from rfl, hreplies]
  dsimp only [List.head?_cons, List.drop_one, List.tail_cons]
  rw [if_neg (by rw [hr]; decide)]
  unfold State.responseSent
  dsimp only
  rw [hprogress]
  rfl

theorem threshold_restarted {s : State} (hsound : s.banks.sound) {threshold : Nat}
    (hbank : ∀ bank, s.activeContents = some bank → threshold = bank.global.threshold.toNat)
    (hcold : s.activeContents = none → threshold = 0) :
    ({ s with banks := restartedBanks s.banks } : State).threshold = threshold := by
  unfold State.threshold
  rw [activeContents_restarted hsound rfl]
  cases h : s.activeContents with
  | none => exact (hcold h).symm
  | some bank => exact (hbank bank h).symm

theorem active?_restarted {b : Banks} (hsound : b.sound) {active : Option BankNo}
    (h : ∀ k : BankNo, active = some k ↔ b.slots[k].state = .active) :
    (restartedBanks b).active? = active :=
  active?_eq (fun k => (h k).trans (restartedBanks_active hsound k).1.symm)

/-- Settles O36: the request by what carrying it out gives; its effect block by block. -/
theorem restartRequest : Obligations.RestartRequest := by
  refine ⟨fun s tag hready => request_answers (r := .restart) hready rfl rfl, ?_⟩
  intro s r rest transaction wrong active threshold held m hwrong hsending hreplies hr hprogress hsound
    hwf hactive hbank hcold hheld hmem hm
  obtain ⟨low, htaken, hlow⟩ := takeRestart_eq ({ s with
    memory := s.memory.upsets wrong
    link := { s.link with sending := none, lastSent := some .response, replies := rest } } : State) transaction
  obtain ⟨hpages, hbad, hreserved, hfree, hcells, hwrongs⟩ := restart_upsets (wrong := wrong) hwf hheld hmem hm
  obtain ⟨hdepth, himage, hslots⟩ := restartedBanks_facts hsound
  have hthreshold := threshold_restarted hsound hbank hcold
  rw [show ({ ({ s with
      memory := s.memory.upsets wrong
      link := { s.link with sending := none, lastSent := some .response, replies := rest } } : State) with
        banks := restartedBanks s.banks } : State).threshold = threshold from hthreshold] at hlow
  refine ⟨_, frameSent_restart hwrong hsending hreplies hr hprogress, ?_⟩
  rw [htaken]
  dsimp only at hlow ⊢
  generalize (s.memory.upsets wrong).restart = n at *
  refine ⟨rfl, rfl, rfl, fun c => ?_, fun b => ?_, fun c => ?_, rfl, hpages, hbad, hreserved, hfree,
    ?_, fun a => ?_, hwrongs, hdepth, himage, hslots, fun t => ?_, ?_⟩
  · exact idleFire_get s.fire c
  · exact readyStrobes_get s.strobes b
  · have hline := getElem_foldl_finRange (fun _ => restartedLine s.clock.elapsed) s.lines c
    refine ⟨fun hu => hline.trans (restartedLine_unlinked _ hu),
      fun hu ho => hline.trans (restartedLine_free _ hu ho),
      fun o hu ho => hline.trans (restartedLine_waits _ hu ho)⟩
  · rw [freeCount_low]; exact hlow
  · unfold FrameMemory.byteAt
    rw [← hcells]
  · obtain ⟨hdisarmed, harmed⟩ :=
      refaulted_restartedTrack (s.clock.elapsed + s.quietTime t) s.tracks[t]
    have htrack := restartedTracks_get s t
    exact ⟨fun hd => htrack.trans (hdisarmed hd), fun hd => htrack.trans (harmed hd)⟩
  · rw [active?_restarted hsound hactive]

end Sys2Proof.Proofs


/-! PROOFS. What an operation leaves of the shots that are to fire, of the shot queue, and of the shots that the
readout refers to (R87). -/

namespace Sys2Proof.Proofs

open Sys2Proof.Machine

/-! ## Shots that are to fire -/

/-- A shot in PLANNED or FROZEN. -/
def pendingShot (k : Shot) : Prop := k.state = .planned ∨ k.state = .frozen

/-- The shot is to fire. -/
def toFire (s : State) (r : ShotRef) : Prop := ∃ k, s.shot? r = some k ∧ pendingShot k

theorem toFire_iff (s : State) (r : ShotRef) :
    toFire s r ↔ s.shotState r = some .planned ∨ s.shotState r = some .frozen := by
  unfold toFire pendingShot State.shotState
  cases s.shot? r <;> simp

/-- What the timing and the order of a shot look at is the same. -/
structure SameTiming (k k' : Shot) : Prop where
  state : k'.state = k.state
  plannedFire : k'.plannedFire = k.plannedFire
  camera : k'.camera = k.camera
  position : k'.position = k.position
  referenceAxle : k'.referenceAxle = k.referenceAxle

theorem SameTiming.refl (k : Shot) : SameTiming k k := ⟨rfl, rfl, rfl, rfl, rfl⟩

theorem SameTiming.trans {k l m : Shot} (h : SameTiming k l) (h' : SameTiming l m) : SameTiming k m :=
  ⟨h'.state.trans h.state, h'.plannedFire.trans h.plannedFire, h'.camera.trans h.camera,
    h'.position.trans h.position, h'.referenceAxle.trans h.referenceAxle⟩

theorem SameTiming.pending {k k' : Shot} (h : SameTiming k k') : pendingShot k' ↔ pendingShot k := by
  unfold pendingShot; rw [h.state]

/-- A record that an operation leaves as far as firing goes: the same timing, or not to fire, where a shot that
was to fire is `free` to be ended. -/
def ShotStays (free : Prop) (k k' : Shot) : Prop :=
  SameTiming k k' ∨ (¬ pendingShot k' ∧ (pendingShot k → free))

theorem ShotStays.refl (free : Prop) (k : Shot) : ShotStays free k k := .inl (.refl k)

theorem ShotStays.trans {free : Prop} {k l m : Shot} (h : ShotStays free k l) (h' : ShotStays free l m) :
    ShotStays free k m := by
  rcases h with h | ⟨hl, hf⟩ <;> rcases h' with h' | ⟨hm, hf'⟩
  · exact .inl (h.trans h')
  · exact .inr ⟨hm, fun hk => hf' (h.pending.2 hk)⟩
  · exact .inr ⟨fun hm => hl (h'.pending.1 hm), hf⟩
  · exact .inr ⟨hm, hf⟩

theorem ShotStays.not_pending {free : Prop} {k k' : Shot} (h : ShotStays free k k') (hk : ¬ pendingShot k) :
    ¬ pendingShot k' :=
  h.elim (fun h hk' => hk (h.pending.1 hk')) (fun h => h.1)

/-! ## What the readout refers to -/

/-- A readout queue, a channel or a slot holds the shot. -/
def readRef (s : State) (r : ShotRef) : Prop :=
  r ∈ s.readout.queue
    ∨ (∃ (ch : ChannelNo) (w : ChannelWork), s.readout.channels[ch] = some w ∧ w.shot = r)
    ∨ ∃ (c : Camera) (slot : SlotNo), s.lines[c].slots[slot] = some r

/-- A passage that is FILED or ABANDONED. -/
def isOver (p : Passage) : Prop := p.state = .filed ∨ p.state = .abandoned

/-- If the shot's passage is live, the shot exists and is not to fire. -/
def atRest (s : State) (r : ShotRef) : Prop :=
  (s.passage? r.passage).isSome = true → ∃ k, s.shot? r = some k ∧ ¬ pendingShot k

/-- The readout refers to no shot that is to fire, and within a live passage to shots that exist; no passage that
is over has one that is to fire. -/
structure Aside (s : State) : Prop where
  reads : ∀ r, readRef s r → atRest s r
  ended : ∀ n p, s.passage? n = some p → isOver p → ∀ k ∈ p.shots, ¬ pendingShot k

/-- What an operation leaves of all this: the shot queue; the passages' numbers in their order; every shot's
record as far as firing goes, except that shots `free` to be ended may be; no new shot in the readout that is to
fire. -/
structure Steady (free : ShotRef → Prop) (s t : State) : Prop where
  queue : t.shotQueue = s.shotQueue
  numbers : t.table.passages.map (·.number) = s.table.passages.map (·.number)
  shots : ∀ r, Option.Rel (ShotStays (free r)) (s.shot? r) (t.shot? r)
  reads : ∀ r, readRef t r → readRef s r ∨ atRest t r
  ended : ∀ n q, t.passage? n = some q → isOver q →
    (∃ p, s.passage? n = some p ∧ isOver p) ∨ ∀ k ∈ q.shots, ¬ pendingShot k

theorem rel_refl {R : Shot → Shot → Prop} (h : ∀ k, R k k) (o : Option Shot) : Option.Rel R o o := by
  cases o with
  | none => exact .none
  | some k => exact .some (h k)

theorem rel_some {R : Shot → Shot → Prop} {o o' : Option Shot} (h : Option.Rel R o o') {k : Shot}
    (hk : o = some k) : ∃ k', o' = some k' ∧ R k k' := by
  cases h with
  | none => cases hk
  | some h => cases hk; exact ⟨_, rfl, h⟩

theorem rel_some_right {R : Shot → Shot → Prop} {o o' : Option Shot} (h : Option.Rel R o o') {k' : Shot}
    (hk : o' = some k') : ∃ k, o = some k ∧ R k k' := by
  cases h with
  | none => cases hk
  | some h => cases hk; exact ⟨_, rfl, h⟩

theorem passage?_isSome (s : State) (n : Nat) :
    (s.passage? n).isSome = true ↔ n ∈ s.table.passages.map (·.number) := by
  unfold State.passage?
  rw [List.find?_isSome, List.mem_map]
  simp

theorem passage?_isSome_congr {s t : State}
    (h : t.table.passages.map (·.number) = s.table.passages.map (·.number)) (n : Nat) :
    (t.passage? n).isSome = (s.passage? n).isSome := by
  rw [Bool.eq_iff_iff, passage?_isSome, passage?_isSome, h]

theorem Steady.stays_atRest {free : ShotRef → Prop} {s t : State} (h : Steady free s t) {r : ShotRef}
    (hr : atRest s r) : atRest t r := by
  intro hlive
  obtain ⟨k, hk, hp⟩ := hr ((passage?_isSome_congr h.numbers _).symm.trans hlive)
  obtain ⟨k', hk', hstays⟩ := rel_some (h.shots r) hk
  exact ⟨k', hk', hstays.not_pending hp⟩

theorem shot_of_mem {s : State} {n : Nat} {p : Passage} (hp : s.passage? n = some p) {k : Shot}
    (hk : k ∈ p.shots) : ∃ i, s.shot? ⟨n, i⟩ = some k := by
  obtain ⟨i, hi⟩ := List.mem_iff_getElem?.1 hk
  exact ⟨i, (shot?_of_passage? hp i).trans hi⟩

/-- What holds of the readout and of passages that are over is kept. -/
theorem Steady.aside {free : ShotRef → Prop} {s t : State} (h : Steady free s t) (ha : Aside s) :
    Aside t := by
  refine ⟨fun r hr => ?_, fun n q hq hover k hk => ?_⟩
  · rcases h.reads r hr with hr | hr
    · exact h.stays_atRest (ha.reads r hr)
    · exact hr
  · rcases h.ended n q hq hover with ⟨p, hp, hp'⟩ | hall
    · obtain ⟨i, hi⟩ := shot_of_mem hq hk
      obtain ⟨k0, hk0, hstays⟩ := rel_some_right (h.shots ⟨n, i⟩) hi
      rw [shot?_of_passage? hp] at hk0
      exact hstays.not_pending (ha.ended n p hp hp' k0 (List.mem_of_getElem? hk0))
    · exact hall k hk

theorem Steady.trans {free : ShotRef → Prop} {s t u : State} (h : Steady free s t) (k : Steady free t u) :
    Steady free s u := by
  refine ⟨k.queue.trans h.queue, k.numbers.trans h.numbers, fun r => ?_, fun r hr => ?_,
    fun n q hq hover => ?_⟩
  · have h1 := h.shots r
    have h2 := k.shots r
    revert h1 h2
    generalize s.shot? r = a
    generalize t.shot? r = b
    generalize u.shot? r = c
    intro h1 h2
    cases h1 with
    | none => exact h2
    | some h1 =>
      cases h2 with
      | some h2 => exact .some (h1.trans h2)
  · rcases k.reads r hr with hr | hr
    · rcases h.reads r hr with hr | hr
      · exact .inl hr
      · exact .inr (k.stays_atRest hr)
    · exact .inr hr
  · rcases k.ended n q hq hover with ⟨p, hp, hp'⟩ | hall
    · rcases h.ended n p hp hp' with hs | hall
      · exact .inl hs
      · refine .inr (fun l hl => ?_)
        obtain ⟨i, hi⟩ := shot_of_mem hq hl
        obtain ⟨k0, hk0, hstays⟩ := rel_some_right (k.shots ⟨n, i⟩) hi
        rw [shot?_of_passage? hp] at hk0
        exact hstays.not_pending (hall k0 (List.mem_of_getElem? hk0))
    · exact .inr hall

/-- An operation that is steady where the readout and the passages that are over hold no shot to fire. -/
def Calm (free : ShotRef → Prop) (s t : State) : Prop := Aside s → Steady free s t

theorem Calm.trans {free : ShotRef → Prop} {s t u : State} (h : Calm free s t) (k : Calm free t u) :
    Calm free s u := fun ha =>
  (h ha).trans (k ((h ha).aside ha))

/-- An operation that is steady where a shot is at rest too. -/
def CalmFor (free : ShotRef → Prop) (r : ShotRef) (s t : State) : Prop :=
  Aside s → atRest s r → Steady free s t

theorem Calm.with {free : ShotRef → Prop} {r : ShotRef} {s t : State} (h : Calm free s t) :
    CalmFor free r s t := fun ha _ => h ha

theorem CalmFor.trans {free : ShotRef → Prop} {r : ShotRef} {s t u : State} (h : CalmFor free r s t)
    (k : CalmFor free r t u) : CalmFor free r s u := fun ha hr =>
  (h ha hr).trans (k ((h ha hr).aside ha) ((h ha hr).stays_atRest hr))

/-- A shot that the readout refers to is at rest. -/
theorem CalmFor.calm {free : ShotRef → Prop} {r : ShotRef} {s t : State} (h : CalmFor free r s t)
    (hr : readRef s r) : Calm free s t := fun ha => h ha (ha.reads r hr)

theorem Steady.calm {free : ShotRef → Prop} {s t : State} (h : Steady free s t) : Calm free s t := fun _ => h

/-! ## Operations on the blocks -/

/-- An operation that leaves the passage table and the shot queue alone. -/
theorem Steady.of_reads {free : ShotRef → Prop} {s t : State} (ht : t.table = s.table)
    (hq : t.shotQueue = s.shotQueue) (hr : ∀ r, readRef t r → readRef s r ∨ atRest t r) : Steady free s t :=
  ⟨hq, by rw [ht], fun r => by rw [shot?_of_table ht]; exact rel_refl (ShotStays.refl _) _, hr,
    fun n q hq ho => .inl ⟨q, (passage?_of_table ht n).symm.trans hq, ho⟩⟩

/-- An operation that leaves the readout and the lines alone too. -/
theorem Calm.inert {free : ShotRef → Prop} {s t : State} (ht : t.table = s.table := by rfl)
    (hq : t.shotQueue = s.shotQueue := by rfl) (hr : t.readout = s.readout := by rfl)
    (hl : t.lines = s.lines := by rfl) : Calm free s t :=
  (Steady.of_reads ht hq (fun r h => .inl (by unfold readRef at h ⊢; rw [hr, hl] at h; exact h))).calm

theorem Calm.refl {free : ShotRef → Prop} (s : State) : Calm free s s := .inert

theorem Calm.foldl {free : ShotRef → Prop} {α : Type} (f : State → α → State)
    (h : ∀ s a, Calm free s (f s a)) (l : List α) (s : State) : Calm free s (l.foldl f s) := by
  induction l generalizing s with
  | nil => exact .refl s
  | cons a l ih => exact (h s a).trans (ih _)

/-- A line whose slots hold no shot that was not in them. -/
theorem Calm.setLine {free : ShotRef → Prop} (s : State) (c : Camera) (l : CameraLine)
    (h : ∀ (slot : SlotNo) r, l.slots[slot] = some r → readRef s r) : Calm free s (s.setLine c l) := by
  refine (Steady.of_reads (s := s) (t := s.setLine c l) rfl rfl (fun r hr => .inl ?_)).calm
  rcases hr with hr | hr | ⟨d, slot, hr⟩
  · exact .inl hr
  · exact .inr (.inl hr)
  · by_cases hd : d = c
    · subst hd
      rw [lines_setLine] at hr
      exact h slot r hr
    · rw [lines_setLine_ne _ _ hd] at hr
      exact .inr (.inr ⟨d, slot, hr⟩)

theorem Calm.setLine_slots {free : ShotRef → Prop} (s : State) (c : Camera) {l : CameraLine}
    (h : l.slots = s.lines[c].slots) : Calm free s (s.setLine c l) :=
  .setLine s c l (fun slot r hr => .inr (.inr ⟨c, slot, by rw [← h]; exact hr⟩))

/-- A slot that is freed. -/
theorem Calm.setSlot_none {free : ShotRef → Prop} (s : State) (c : Camera) (k : SlotNo) :
    Calm free s (s.setSlot c k none) := by
  refine .setLine s c _ (fun slot r hr => .inr (.inr ⟨c, slot, ?_⟩))
  change (setAt s.lines[c].slots k none)[slot] = some r at hr
  rw [getElem_setAt] at hr
  split at hr
  · cases hr
  · exact hr

theorem Calm.leaveReadoutQueue {free : ShotRef → Prop} (s : State) (r : ShotRef) :
    Calm free s (s.leaveReadoutQueue r) :=
  (Steady.of_reads (s := s) (t := s.leaveReadoutQueue r) rfl rfl (fun _ hq =>
    .inl (Or.imp_left (fun h => (List.mem_filter.1 h).1) hq))).calm

/-- A channel that becomes idle. -/
theorem Calm.setChannel_none {free : ShotRef → Prop} (s : State) (ch : ChannelNo) :
    Calm free s (s.setChannel ch none) := by
  refine (Steady.of_reads (s := s) (t := s.setChannel ch none) rfl rfl (fun r hr => .inl ?_)).calm
  rcases hr with hr | ⟨j, w, hw, hwr⟩ | hr
  · exact .inl hr
  · change (setAt s.readout.channels ch none)[j] = some w at hw
    rw [getElem_setAt] at hw
    split at hw
    · cases hw
    · exact .inr (.inl ⟨j, w, hw, hwr⟩)
  · exact .inr (.inr hr)

/-- A channel that takes a shot at rest. -/
theorem CalmFor.setChannel {free : ShotRef → Prop} (s : State) (ch : ChannelNo) (w : ChannelWork) :
    CalmFor free w.shot s (s.setChannel ch (some w)) := by
  intro _ h
  refine (Steady.of_reads (s := s) (t := s.setChannel ch (some w)) rfl rfl (fun r hr => ?_))
  rcases hr with hr | ⟨j, x, hx, hxr⟩ | hr
  · exact .inl (.inl hr)
  · change (setAt s.readout.channels ch (some w))[j] = some x at hx
    rw [getElem_setAt] at hx
    split at hx
    · cases hx; rw [← hxr]; exact .inr h
    · exact .inl (.inr (.inl ⟨j, x, hx, hxr⟩))
  · exact .inl (.inr (.inr hr))

theorem modifyPassage_numbers (s : State) (n : Nat) {f : Passage → Passage}
    (hf : ∀ p, (f p).number = p.number) :
    (s.modifyPassage n f).table.passages.map (·.number) = s.table.passages.map (·.number) := by
  change (changePassage n f s.table.passages).map (·.number) = _
  induction s.table.passages with
  | nil => rfl
  | cons a l ih =>
    unfold changePassage
    split
    · rw [List.map_cons, List.map_cons, hf]
    · rw [List.map_cons, List.map_cons, ih]

/-- A change of a record that leaves its number and its shots, and ends a passage only with no shot to fire. -/
theorem Calm.modifyPassage {free : ShotRef → Prop} (s : State) (n : Nat) {f : Passage → Passage}
    (hn : ∀ p, (f p).number = p.number) (hs : ∀ p, (f p).shots = p.shots)
    (ho : ∀ p, s.passage? n = some p → isOver (f p) → isOver p ∨ ∀ k ∈ p.shots, ¬ pendingShot k) :
    Calm free s (s.modifyPassage n f) := by
  refine Steady.calm ⟨rfl, modifyPassage_numbers s n hn, fun r => ?_, fun r hr => .inl hr,
    fun m q hq hover => ?_⟩
  · rw [shot?_modifyPassage s n f r hn hs]; exact rel_refl (ShotStays.refl _) _
  · rw [passage?_modify s n m f hn] at hq
    obtain ⟨p, hp, rfl⟩ := Option.map_eq_some_iff.1 hq
    by_cases hm : m = n
    · subst hm
      rw [if_pos rfl] at hover
      rcases ho p hp hover with h | h
      · exact .inl ⟨p, hp, h⟩
      · rw [if_pos rfl, hs]; exact .inr h
    · rw [if_neg hm] at hover
      exact .inl ⟨p, hp, hover⟩

/-- A change of a record that leaves its number, its shots and its state. -/
theorem Calm.modifyPassage_state {free : ShotRef → Prop} (s : State) (n : Nat) {f : Passage → Passage}
    (hn : ∀ p, (f p).number = p.number) (hs : ∀ p, (f p).shots = p.shots)
    (ho : ∀ p, (f p).state = p.state) : Calm free s (s.modifyPassage n f) :=
  .modifyPassage s n hn hs (fun p _ h => .inl (by unfold isOver at *; rw [ho] at h; exact h))

/-- A change of a shot ends no passage. -/
theorem modifyShot_over {s : State} {r : ShotRef} {f : Shot → Shot} {n : Nat} {q : Passage}
    (hq : (s.modifyShot r f).passage? n = some q) (hover : isOver q) : ∃ p, s.passage? n = some p ∧ isOver p := by
  unfold State.modifyShot at hq
  rw [passage?_modify] at hq
  · obtain ⟨p, hp, rfl⟩ := Option.map_eq_some_iff.1 hq
    refine ⟨p, hp, ?_⟩
    by_cases hn : n = r.passage
    · rw [if_pos hn] at hover; exact hover
    · rw [if_neg hn] at hover; exact hover
  · exact fun _ => rfl

/-- A change of a shot's record. -/
theorem Steady.modifyShot {free : ShotRef → Prop} (s : State) (r : ShotRef) (f : Shot → Shot)
    (h : ∀ k, s.shot? r = some k → ShotStays (free r) k (f k)) : Steady free s (s.modifyShot r f) := by
  refine ⟨rfl, modifyPassage_numbers s _ (fun _ => rfl), fun q => ?_, fun r hr => .inl hr,
    fun m q hq hover => .inl (modifyShot_over hq hover)⟩
  rw [shot?_modifyShot]
  cases hk : s.shot? q with
  | none => exact .none
  | some k =>
    refine .some ?_
    dsimp only
    by_cases hq : q = r
    · subst hq; rw [if_pos rfl]; exact h k hk
    · rw [if_neg hq]; exact .refl _ k

/-- A shot that exists is one of a live passage. -/
theorem live_of_shot {s : State} {r : ShotRef} {k : Shot} (h : s.shot? r = some k) :
    (s.passage? r.passage).isSome = true := by
  unfold State.shot? at h
  cases hp : s.passage? r.passage with
  | none => rw [hp] at h; cases h
  | some p => rfl

/-- A change that leaves the timing of a shot. -/
theorem Calm.modifyShot_timing {free : ShotRef → Prop} (s : State) (r : ShotRef) {f : Shot → Shot}
    (h : ∀ k, SameTiming k (f k)) : Calm free s (s.modifyShot r f) :=
  (Steady.modifyShot s r f (fun k _ => .inl (h k))).calm

/-- A change to a shot that is not to fire, of one that is at rest or free to be ended. -/
theorem Steady.modifyShot_rest {free : ShotRef → Prop} (s : State) (r : ShotRef) {f : Shot → Shot}
    (hr : atRest s r ∨ free r) (hf : ∀ k, ¬ pendingShot (f k)) : Steady free s (s.modifyShot r f) := by
  refine Steady.modifyShot s r f (fun k hk => .inr ⟨hf k, fun hp => ?_⟩)
  rcases hr with hr | hr
  · obtain ⟨k', hk', hnot⟩ := hr (live_of_shot hk)
    rw [hk] at hk'
    cases hk'
    exact absurd hp hnot
  · exact hr

theorem Calm.recordFault {free : ShotRef → Prop} (s : State) (n : Nat) (c : FaultCode) (a k : Option Nat) :
    Calm free s (s.recordFault n c a k) :=
  .modifyPassage_state s n (fun _ => rfl) (fun _ => rfl) (fun _ => rfl)

theorem Calm.queueNotice {free : ShotRef → Prop} (s : State) (x : Notice) : Calm free s (s.queueNotice x) :=
  .inert (State.queueNotice_table s x) (State.queueNotice_shotQueue s x) (State.queueNotice_readout s x)
    (State.queueNotice_lines s x)

theorem Calm.queueNotices {free : ShotRef → Prop} (s : State) (l : List Notice) :
    Calm free s (s.queueNotices l) := .foldl _ (fun s x => .queueNotice s x) l s

end Sys2Proof.Proofs


/-! PROOFS. What the operations of lines, frame memory and readout leave of the shots that are to fire (R87). -/

namespace Sys2Proof.Proofs

open Sys2Proof.Machine

section

variable {free : ShotRef → Prop}

/-! ## Slots of a line -/

theorem pend_slots (l : CameraLine) (o : Order) : (l.pend o).slots = l.slots := by
  unfold CameraLine.pend; split <;> rfl

theorem startLinking_slots (l : CameraLine) (b : Bool) : (l.startLinking b).slots = l.slots := by
  unfold CameraLine.startLinking
  split
  · exact pend_slots l _
  · exact pend_slots l _

theorem enterLinking_slots (l : CameraLine) (b : Bool) : (l.enterLinking b).slots = l.slots := by
  unfold CameraLine.enterLinking
  split
  · rfl
  · exact startLinking_slots l b

theorem Calm.pendOrder (s : State) (c : Camera) (o : Order) : Calm free s (s.pendOrder c o) :=
  .setLine_slots s c (pend_slots _ o)

theorem Calm.issueOrder (s : State) (c : Camera) : Calm free s (s.issueOrder c) :=
  .setLine_slots s c (issue_state_slots _ _).2

theorem Calm.placeOrder (s : State) (c : Camera) (o : Order) : Calm free s (s.placeOrder c o) :=
  (Calm.pendOrder s c o).trans (.issueOrder _ c)

theorem Calm.changeLine (s : State) (c : Camera) (st : LineState) (why : LineCause) (k : Nat) :
    Calm free s (s.changeLine c st why k) := by
  refine (Calm.setLine_slots s c ?_).trans (.queueNotice _ _)
  rfl

theorem Calm.beginLinking (s : State) (c : Camera) (why : LineCause) : Calm free s (s.beginLinking c why) := by
  refine (((Calm.setLine_slots s c ?_).trans (.changeLine _ c _ _ _)).trans
    (.setLine_slots _ c (enterLinking_slots _ _))).trans (.issueOrder _ c)
  rfl

theorem Calm.finishLinking (s : State) (c : Camera) (f : FlagSet) : Calm free s (s.finishLinking c f) := by
  refine (Calm.setLine_slots s c ?_).trans (.changeLine _ c _ _ _)
  rfl

theorem Calm.linkingSensed (s : State) (c : Camera) (f : FlagSet) (a b : Bool) :
    Calm free s (s.linkingSensed c f a b) := by
  have hslots : ∀ (l : CameraLine) (x y : Bool),
      (let l1 := if x then l.pend (.discard 0) else l
        if y then l1.pend (.discard 1) else l1).slots = l.slots := fun l x y => by
    cases x <;> cases y <;> simp [pend_slots]
  unfold State.linkingSensed
  dsimp only
  split
  · exact .setLine_slots s c (hslots _ _ _)
  · exact .finishLinking s c f

theorem Calm.linkingDiscarded (s : State) (c : Camera) (k : SlotNo) :
    Calm free s (s.linkingDiscarded c k) := by
  unfold State.linkingDiscarded
  dsimp only
  split
  · split
    · split
      · exact .setLine_slots s c (pend_slots _ _)
      · exact .setLine_slots s c (pend_slots _ _)
    · exact .refl s
  · split
    · exact .setLine_slots s c rfl
    · exact .finishLinking s c _
  · exact .refl s

theorem Calm.linkingRelinked (s : State) (c : Camera) : Calm free s (s.linkingRelinked c) := by
  unfold State.linkingRelinked
  dsimp only
  split
  · exact .setLine_slots s c (pend_slots _ _)
  · exact .refl s

theorem Calm.linkingResumed (s : State) (c : Camera) : Calm free s (s.linkingResumed c) := by
  unfold State.linkingResumed
  dsimp only
  split
  · exact .setLine_slots s c (startLinking_slots _ _)
  · exact .refl s

/-! ## The passage table (R40) -/

theorem not_pending_of_terminal {k : Shot} (h : k.state.terminal = true) : ¬ pendingShot k := by
  rintro (hp | hp) <;> rw [hp] at h <;> cases h

/-- A passage is settled with no shot to fire. -/
theorem Calm.checkSettled (s : State) (n : Nat) : Calm free s (s.checkSettled n) := by
  have settles : ∀ (p : Passage) (st : PassageState) (x : Notice), s.passage? n = some p →
      p.settled = true → Calm free s ((s.modifyPassage n (·.settleAs st s.now s.clock.epoch)).queueNotice x) := by
    intro p st x hp hs
    refine (Calm.modifyPassage s n (f := (·.settleAs st s.now s.clock.epoch)) (fun _ => rfl) (fun _ => rfl)
      (fun q hq _ => .inr ?_)).trans (.queueNotice _ _)
    obtain rfl := Option.some.inj (hp.symm.trans hq)
    exact fun k hk => not_pending_of_terminal (List.all_eq_true.1 hs k hk)
  unfold State.checkSettled
  split
  · exact .refl s
  · rename_i p hp
    split
    · rename_i hs
      split
      · exact settles p _ _ hp hs
      · exact settles p _ _ hp hs
      all_goals exact .refl s
    · exact .refl s

/-! ## Frame memory (chapter 7) -/

theorem Calm.freePage (s : State) (k : Nat) : Calm free s (s.freePage k) :=
  (Calm.inert (t := s.setMemory _)).trans (.queueNotices _ _)

theorem Calm.compareLow (s : State) : Calm free s s.compareLow := by
  unfold State.compareLow
  dsimp only
  split
  · exact (Calm.inert (t := s.setMemory _)).trans (.queueNotice _ _)
  · split
    · exact (Calm.inert (t := s.setMemory _)).trans (.queueNotice _ _)
    · exact .refl s

theorem Calm.returnPages (s : State) (r : ShotRef) (p : Option Nat) : Calm free s (s.returnPages r p) := by
  unfold State.returnPages
  cases p with
  | none => exact .inert
  | some k => exact (Calm.freePage s k).trans .inert

/-! ## Readout (chapter 6) -/

theorem Calm.pendRead (s : State) (c : Camera) (w : ChannelWork) : Calm free s (s.pendRead c w) := by
  unfold State.pendRead
  split
  · exact .pendOrder s c _
  · exact .refl s

theorem CalmFor.startSegment (s : State) (c : Camera) (ch : ChannelNo) (w : ChannelWork) :
    CalmFor free w.shot s (s.startSegment c ch w) :=
  ((Calm.with (t := (s.drawPage w.shot w.segment).1) .inert).trans
    (.setChannel _ ch { w with attempts := 0, step := .read, page := (s.drawPage w.shot w.segment).2 })).trans
    (Calm.pendRead _ c _).with

theorem CalmFor.modifyShot (s : State) (r : ShotRef) {f : Shot → Shot} (hf : ∀ k, ¬ pendingShot (f k)) :
    CalmFor free r s (s.modifyShot r f) := fun _ hr => .modifyShot_rest s r (.inl hr) hf

theorem CalmFor.grant (s : State) (ch : ChannelNo) (r : ShotRef) (c : Camera) :
    CalmFor free r s (s.grant ch r c) :=
  (((Calm.leaveReadoutQueue s r).with.trans (.modifyShot _ r (fun _ => by rintro (h | h) <;> cases h))).trans
    (CalmFor.startSegment _ c ch ⟨r, 0, 0, .read, none⟩)).trans (Calm.issueOrder _ c).with

theorem nextTaken_mem {s : State} {r : ShotRef} (h : s.nextTaken = some r) : r ∈ s.readout.queue := by
  unfold State.nextTaken at h
  dsimp only at h
  have hmem : r ∈ s.readout.queue.filter s.mayTake := by
    cases hf : (s.readout.queue.filter s.mayTake).find? s.shotPressed with
    | some q =>
      rw [hf] at h
      cases h
      exact List.mem_of_find?_eq_some hf
    | none =>
      rw [hf] at h
      exact List.mem_of_mem_head? h
  exact (List.mem_filter.1 hmem).1

theorem Calm.grantOne (s : State) : Calm free s s.grantOne := by
  unfold State.grantOne
  split
  · rename_i ch r _ hr
    split
    · exact (CalmFor.grant s ch r _).calm (.inl (nextTaken_mem hr))
    · exact .refl s
  · exact .refl s

theorem Calm.grantAll (s : State) : Calm free s s.grantAll :=
  (((Calm.grantOne s).trans (.grantOne _)).trans (.grantOne _)).trans (.grantOne _)

theorem CalmFor.finishShot (s : State) (r : ShotRef) {st : ShotState} (hst : st.terminal = true) :
    CalmFor free r s (s.finishShot r st) := by
  have h := CalmFor.modifyShot (free := free) s r (f := fun k => { k with state := st })
    (fun _ => not_pending_of_terminal hst)
  unfold State.finishShot
  dsimp only
  split
  · exact h.trans (Calm.recordFault _ _ _ _ _).with
  · exact h

theorem CalmFor.endShot (s : State) (r : ShotRef) {st : ShotState} (hst : st.terminal = true) :
    CalmFor free r s (s.endShot r st) :=
  (CalmFor.modifyShot s r (f := fun k => { k with state := st }) (fun _ => not_pending_of_terminal hst)).trans
    (Calm.checkSettled _ _).with

theorem Calm.actOnMark (s : State) (c : Camera) : Calm free s (s.actOnMark c) := by
  unfold State.actOnMark
  split
  · exact .changeLine s c _ _ _
  · exact .refl s

theorem CalmFor.endReadout (s : State) (c : Camera) (ch : ChannelNo) (r : ShotRef) {st : ShotState}
    (hst : st.terminal = true) : CalmFor free r s (s.endReadout c ch r st) :=
  (((CalmFor.finishShot s r hst).trans (Calm.checkSettled _ _).with).trans
    (Calm.setChannel_none _ ch).with).trans (Calm.actOnMark _ c).with

theorem CalmFor.discardReadout (s : State) (c : Camera) (ch : ChannelNo) (w : ChannelWork)
    (st : ChannelStep) : CalmFor free w.shot s (s.discardReadout c ch w st) := by
  have h := (Calm.returnPages (free := free) s w.shot w.page).with.trans
    (CalmFor.setChannel _ ch { w with page := none, step := st })
  unfold State.discardReadout
  dsimp only
  split
  · exact h.trans (Calm.pendOrder _ c _).with
  · exact h

/-- The channel that serves a camera refers to its shot. -/
theorem serving?_read {s : State} {c : Camera} {ch : ChannelNo} {w : ChannelWork}
    (h : s.serving? c = some (ch, w)) : readRef s w.shot := by
  unfold State.serving? at h
  obtain ⟨j, -, hj⟩ := List.exists_of_findSome?_eq_some h
  split at hj
  · rename_i x hx
    split at hj
    · cases hj; exact .inr (.inl ⟨_, _, hx, rfl⟩)
    · cases hj
  · cases hj

/-! ## DOWN (R124) -/

theorem Calm.placeAnswer (s : State) (tag : Byte) (code : BitVec 16) (a : Answer) :
    Calm free s (s.placeAnswer tag code a) := .inert

theorem Calm.failSense (s : State) (c : Camera) (d : Detail) : Calm free s (s.failSense c d) := by
  unfold State.failSense
  split
  · split
    · exact .inert
    · exact .refl s
  · exact .refl s

theorem Calm.answerSense (s : State) (c : Camera) (f : FlagSet) (a b : Bool) :
    Calm free s (s.answerSense c f a b) := by
  unfold State.answerSense
  split
  · split
    · exact .inert
    · exact .refl s
  · exact .refl s

theorem Calm.finishReading (s : State) (c : Camera) : Calm free s (s.finishReading c) := by
  have hst : ∀ b : Bool, (if b then ShotState.partialStored else .lost).terminal = true := by decide
  unfold State.finishReading
  split
  · exact .refl s
  · rename_i ch w hw
    refine CalmFor.calm (r := w.shot) ?_ (serving?_read hw)
    dsimp only
    split
    · exact (CalmFor.finishShot s _ (hst _)).trans (Calm.setChannel_none _ _).with
    · exact ((Calm.returnPages s _ _).with.trans (.finishShot _ _ (hst _))).trans (Calm.setChannel_none _ _).with

theorem Calm.loseHeld (s : State) (x : Option ShotRef) : Calm free s (s.loseHeld x) := by
  unfold State.loseHeld
  split
  · rename_i r
    split
    · rename_i hheld
      intro ha
      refine (((Calm.leaveReadoutQueue s r).trans (.returnPages _ r none)).with.trans
        (CalmFor.finishShot _ r (by decide))) ha (fun _ => ?_)
      unfold State.shotState at hheld
      obtain ⟨k, hk, hst⟩ := Option.map_eq_some_iff.1 hheld
      exact ⟨k, hk, by rintro (h | h) <;> rw [hst] at h <;> cases h⟩
    · exact .refl s
  · exact .refl s

theorem Calm.reportSlot (s : State) (x : Option ShotRef) : Calm free s (s.reportSlot x) := by
  unfold State.reportSlot
  split
  · exact .checkSettled s _
  · exact .refl s

theorem Calm.goDown (s : State) (c : Camera) (why : LineCause) : Calm free s (s.goDown c why) := by
  unfold State.goDown
  dsimp only
  refine Calm.trans ?_ (.failSense _ c _)
  refine Calm.trans ?_ (.changeLine _ c _ _ _)
  refine Calm.trans ?_ (.reportSlot _ _)
  refine Calm.trans ?_ (.reportSlot _ _)
  refine Calm.trans ?_ (.setSlot_none _ c _)
  refine Calm.trans ?_ (.setSlot_none _ c _)
  refine Calm.trans ?_ (.loseHeld _ _)
  refine Calm.trans ?_ (.loseHeld _ _)
  exact (Calm.setLine_slots s c (l := s.lines[c].dropOrders) rfl).trans (.finishReading _ c)

/-! ## Answers and timeouts (R113 to R116, R121 to R127) -/

theorem markDisable_slots (l : CameraLine) (f d : FlagSet) : (l.markDisable f d).slots = l.slots := by
  unfold CameraLine.markDisable; split <;> rfl

theorem Calm.takeReadFlags (s : State) (c : Camera) (r : ShotRef) (f : FlagSet) :
    Calm free s (s.takeReadFlags c r f) :=
  (Calm.modifyShot_timing s r (f := (·.takeFlags f (s.shotEntry r c).careSet))
    (fun _ => ⟨rfl, rfl, rfl, rfl, rfl⟩)).trans (.setLine_slots _ c (markDisable_slots _ _ _))

theorem Calm.writeSegment (s : State) (w : ChannelWork) (bs : List Byte) :
    Calm free s (s.writeSegment w bs) := by
  unfold State.writeSegment
  split
  · exact .refl s
  · split
    · exact .inert
    · exact .refl s

theorem CalmFor.attemptSucceeded (s : State) (c : Camera) (ch : ChannelNo) (w : ChannelWork) (k : SlotNo)
    (last : Bool) : CalmFor free w.shot s (s.attemptSucceeded c ch w k last) := by
  unfold State.attemptSucceeded
  dsimp only
  have h1 := (Calm.modifyShot_timing (free := free) s w.shot (f := (·.storeSegment w.page))
    (fun _ => ⟨rfl, rfl, rfl, rfl, rfl⟩)).with (r := w.shot)
  split
  · exact (h1.trans (Calm.setSlot_none _ c _).with).trans (.endReadout _ c ch _ (by decide))
  · split
    · exact h1.trans (.discardReadout _ c ch { w with attempts := 0, page := none } _)
    · exact h1.trans (.startSegment _ c ch { w with segment := w.segment + 1 })

theorem CalmFor.attemptFailed (s : State) (c : Camera) (ch : ChannelNo) (w : ChannelWork) :
    CalmFor free w.shot s (s.attemptFailed c ch w) := by
  unfold State.attemptFailed
  split
  · exact (Calm.goDown s c _).with
  · split
    · exact .discardReadout s c ch _ _
    · split
      · dsimp only
        split
        · exact (CalmFor.setChannel s ch { w with attempts := w.attempts + 1 }).trans (Calm.pendRead _ c _).with
        · exact (CalmFor.setChannel s ch { w with attempts := w.attempts + 1, step := .relink }).trans
            (Calm.pendOrder _ c _).with
      · exact .discardReadout s c ch _ _

theorem Calm.readAnswered (s : State) (c : Camera) (k : SlotNo) (last : Bool) (bs : List Byte)
    (check : BitVec 32) (o : ReadOutcome) (f : FlagSet) :
    Calm free s (s.readAnswered c k last bs check o f) := by
  unfold State.readAnswered
  split
  · exact .refl s
  · rename_i ch w hw
    dsimp only
    have h1 := ((Calm.takeReadFlags (free := free) s c w.shot f).trans (.writeSegment _ w bs)).with (r := w.shot)
    refine CalmFor.calm (r := w.shot) ?_ (serving?_read hw)
    split
    · exact h1.trans (.attemptSucceeded _ c _ _ k last)
    · exact h1.trans (.attemptFailed _ c _ _)

theorem CalmFor.finishDiscarded (s : State) (c : Camera) (r : ShotRef) :
    CalmFor free r s (s.finishDiscarded c r) := by
  have hst : ∀ (a : Bool) (b : Prop) [Decidable b],
      (if a then ShotState.partialStored else if b then .cancelled else .failed).terminal = true := by
    intro a b _
    cases a
    · by_cases hb : b <;> simp [hb, ShotState.terminal]
    · rfl
  unfold State.finishDiscarded
  split
  · split
    · exact .endReadout s c _ r (hst _ _)
    · exact .endShot s r (by decide)
  · exact .endShot s r (by decide)

theorem Calm.discardAnswered (s : State) (c : Camera) (k : SlotNo) :
    Calm free s (s.discardAnswered c k) := by
  unfold State.discardAnswered
  dsimp only
  refine Calm.trans ?_ (.linkingDiscarded _ c k)
  split
  · rename_i r hr
    exact ((Calm.setSlot_none s c k).with.trans (.finishDiscarded _ c r)).calm (.inr (.inr ⟨c, k, hr⟩))
  · exact .setSlot_none s c k

theorem Calm.relinkAnswered (s : State) (c : Camera) : Calm free s (s.relinkAnswered c) := by
  unfold State.relinkAnswered
  dsimp only
  refine Calm.trans ?_ (.linkingRelinked _ c)
  split
  · rename_i ch w hw
    split
    · refine CalmFor.calm (r := w.shot) ?_ (serving?_read hw)
      split
      · exact .discardReadout s c _ _ _
      · exact (CalmFor.setChannel s ch { w with step := .final }).trans (Calm.pendRead _ c _).with
    · exact .refl s
  · exact .refl s

theorem Calm.senseAnswered (s : State) (c : Camera) (f : FlagSet) (a b : Bool) :
    Calm free s (s.senseAnswered c f a b) := by
  unfold State.senseAnswered
  dsimp only
  have h1 := (Calm.setLine_slots (free := free) s c (l := s.lines[c].takeFlags f) rfl).trans
    (.answerSense _ c f a b)
  split
  · exact h1.trans (.linkingSensed _ c f a b)
  · exact h1

theorem Calm.orderTimedOut (s : State) (c : Camera) (o : Order) : Calm free s (s.orderTimedOut c o) := by
  unfold State.orderTimedOut
  split
  · split
    · rename_i hw
      exact (CalmFor.attemptFailed s c _ _).calm (serving?_read hw)
    · exact .refl s
  · exact .goDown s c _
  · exact .goDown s c _
  · split
    · exact .goDown s c _
    · exact .failSense s c _

theorem Calm.afterOrder (s : State) (c : Camera) : Calm free s (s.afterOrder c) :=
  ((Calm.linkingResumed s c).trans (.issueOrder _ c)).trans (.grantAll _)

theorem Calm.endOrder (s : State) (c : Camera) (out : Outstanding) (act : State → State)
    (h : ∀ q, Calm free q (act q)) : Calm free s (s.endOrder c out act) := by
  unfold State.endOrder
  dsimp only
  refine Calm.trans ?_ (.afterOrder _ c)
  split
  · exact .setLine_slots s c rfl
  · exact (Calm.setLine_slots s c (l := { s.lines[c] with outstanding := none }) rfl).trans (h _)

/-! ## Firing (chapter 5) -/

theorem Calm.openFlash (s : State) (r : ShotRef) (k : Shot) (o : StrobeOutcome) :
    Calm free s (s.openFlash r k o) := by
  cases o <;> exact .inert

end

end Sys2Proof.Proofs


/-! PROOFS. What a command that makes no shot leaves of the shot queue: shots leave it, the order stays (R87). -/

namespace Sys2Proof.Proofs

open Sys2Proof.Machine

/-! ## A shot handed over or cancelled -/

/-- A shot enters the readout as it is fired: it is at rest then, wherever it was put before. -/
theorem Steady.modifyShot_after {free : ShotRef → Prop} {s v : State} {r : ShotRef} {f : Shot → Shot}
    (ht : v.table = s.table) (hq : v.shotQueue = s.shotQueue)
    (hv : ∀ x, readRef v x → readRef s x ∨ x = r) (hr : free r ∧ (s.shot? r).isSome = true)
    (hf : ∀ k, ¬ pendingShot (f k)) : Steady free s (v.modifyShot r f) := by
  have hmodify : Steady free v (v.modifyShot r f) := .modifyShot_rest v r (.inr hr.1) hf
  refine ⟨hmodify.queue.trans hq, hmodify.numbers.trans (by rw [ht]), fun q => ?_, fun x hx => ?_,
    fun n q hqq hover => ?_⟩
  · rw [← shot?_of_table ht]; exact hmodify.shots q
  · rcases hv x hx with hx | rfl
    · exact .inl hx
    · refine .inr (fun _ => ?_)
      obtain ⟨k, hk⟩ := Option.isSome_iff_exists.1 hr.2
      refine ⟨f k, ?_, hf k⟩
      rw [shot?_modifyShot, shot?_of_table ht, hk, Option.map_some, if_pos rfl]
  · rcases hmodify.ended n q hqq hover with ⟨p, hp, ho⟩ | h
    · exact .inl ⟨p, (passage?_of_table ht n).symm.trans hp, ho⟩
    · exact .inr h

theorem Calm.joinReadoutQueue {free : ShotRef → Prop} (s : State) (r : ShotRef) :
    CalmFor free r s (s.joinReadoutQueue r) := by
  intro _ hr
  refine Steady.of_reads (s := s) (t := s.joinReadoutQueue r) rfl rfl (fun x hx => ?_)
  rcases hx with hx | hx
  · rcases List.mem_append.1 hx with hx | hx
    · exact .inl (.inl hx)
    · obtain rfl := List.mem_singleton.1 hx
      exact .inr hr
  · exact .inl (.inr hx)

theorem atRest.not_toFire {s : State} {r : ShotRef} (h : atRest s r) : ¬ toFire s r := by
  rintro ⟨k, hk, hp⟩
  obtain ⟨k', hk', hnot⟩ := h (live_of_shot hk)
  rw [hk] at hk'
  cases hk'
  exact hnot hp

/-- A passage with a shot that is to fire is not over. -/
theorem Aside.not_over {s : State} (ha : Aside s) {r : ShotRef} (hr : toFire s r) {p : Passage}
    (hp : s.passage? r.passage = some p) : ¬ isOver p := by
  obtain ⟨k, hk, hpend⟩ := hr
  exact fun hover => ha.ended _ p hp hover k (List.mem_of_getElem? ((shot?_of_passage? hp _).symm.trans hk)) hpend

/-- A change of one record, which the readout does not refer to and whose passage is not over. -/
theorem Aside.replaced {s v : State} {r : ShotRef} (ha : Aside s) (hr : ¬ atRest s r)
    (hreads : ∀ q, readRef v q → readRef s q)
    (hnumbers : v.table.passages.map (·.number) = s.table.passages.map (·.number))
    (hothers : ∀ q, q ≠ r → v.shot? q = s.shot? q)
    (hover : ∀ m q, v.passage? m = some q → isOver q → m ≠ r.passage ∧ ∃ p, s.passage? m = some p ∧ isOver p) :
    Aside v := by
  refine ⟨fun q hq hlive => ?_, fun m q hq ho k hk => ?_⟩
  · have hrest := ha.reads q (hreads q hq)
    have hne : q ≠ r := fun h => hr (h ▸ hrest)
    rw [hothers q hne]
    exact hrest ((passage?_isSome_congr hnumbers _).symm.trans hlive)
  · obtain ⟨hm, p, hp, hop⟩ := hover m q hq ho
    obtain ⟨i, hi⟩ := shot_of_mem hq hk
    rw [hothers ⟨m, i⟩ (fun h => hm (h ▸ rfl)), shot?_of_passage? hp] at hi
    exact ha.ended m p hp hop k (List.mem_of_getElem? hi)

/-- A changed record of a shot that was to fire. -/
theorem Aside.modifyShot {s v : State} {r : ShotRef} {f : Shot → Shot} (ha : Aside s) (hr : toFire s r)
    (ht : v.table = (s.modifyShot r f).table) (hreads : ∀ q, readRef v q → readRef s q) : Aside v := by
  have hpass : ∀ m, v.passage? m = (s.modifyShot r f).passage? m := passage?_of_table ht
  refine ha.replaced (fun h => h.not_toFire hr) hreads (by rw [ht]; exact modifyPassage_numbers s _ (fun _ => rfl))
    (fun q hq => ?_) (fun m q hq ho => ?_)
  · rw [shot?_of_table ht, shot?_modifyShot]
    simp [hq]
  · obtain ⟨p, hp, hop⟩ := modifyShot_over ((hpass m).symm.trans hq) ho
    exact ⟨fun hm => ha.not_over hr (hm ▸ hp) hop, p, hp, hop⟩

/-- An operation that ends a shot that was to fire. -/
def Ends (r : ShotRef) (s t : State) : Prop := Aside s → Steady (· = r) s t ∧ atRest t r

theorem Ends.then {r : ShotRef} {s t u : State} (h : Ends r s t) (k : CalmFor (· = r) r t u) : Ends r s u :=
  fun ha => by
    obtain ⟨hst, hr⟩ := h ha
    have htu := k (hst.aside ha) hr
    exact ⟨hst.trans htu, htu.stays_atRest hr⟩

theorem Ends.modifyShot (s : State) (r : ShotRef) {f : Shot → Shot} (hr : (s.shot? r).isSome = true)
    (hf : ∀ k, ¬ pendingShot (f k)) : Ends r s (s.modifyShot r f) := fun _ =>
  ⟨.modifyShot_rest s r (.inr rfl) hf, fun _ => by
    obtain ⟨k, hk⟩ := Option.isSome_iff_exists.1 hr
    refine ⟨f k, ?_, hf k⟩
    rw [shot?_modifyShot, hk, Option.map_some, if_pos rfl]⟩

theorem Ends.skipShot (s : State) (r : ShotRef) (w : SkipReason) (hr : (s.shot? r).isSome = true) :
    Ends r s (s.skipShot r w) := by
  intro ha
  have h1 := Calm.modifyShot_timing (free := (· = r)) s r
    (f := fun k => { k with skipReason := some w }) (fun _ => ⟨rfl, rfl, rfl, rfl, rfl⟩) ha
  have hr1 : ((s.modifyShot r (fun k => { k with skipReason := some w })).shot? r).isSome = true := by
    rw [shot?_modifyShot, Option.isSome_map]; exact hr
  obtain ⟨h2, hrest⟩ := ((Ends.modifyShot _ r (f := fun k => { k with state := .skipped }) hr1
    (fun _ => not_pending_of_terminal rfl)).then (Calm.checkSettled _ r.passage).with) (h1.aside ha)
  exact ⟨h1.trans h2, hrest⟩

theorem Ends.fireShot (s : State) (r : ShotRef) (b : BankNo) (k : Shot) (o : StrobeOutcome)
    (hr : (s.shot? r).isSome = true) : Ends r s (s.fireShot r b k o) := by
  have hslot : ∀ v : State, v.table = s.table → v.shotQueue = s.shotQueue → v.readout = s.readout →
      (∀ (c : Camera) (slot : SlotNo) x, v.lines[c].slots[slot] = some x →
        s.lines[c].slots[slot] = some x ∨ x = r) →
      Ends r s (((v.modifyShot r (fun q => q.fired v.now o)).openFlash r k o).joinReadoutQueue r).grantAll := by
    intro v ht hq hro hl
    have hreads : ∀ x, readRef v x → readRef s x ∨ x = r := by
      rintro x (hx | hx | ⟨c, slot, hx⟩)
      · exact .inl (.inl (by rw [← hro]; exact hx))
      · exact .inl (.inr (.inl (by rw [← hro]; exact hx)))
      · exact (hl c slot x hx).imp_left (fun h => .inr (.inr ⟨c, slot, h⟩))
    have hfired : ∀ q : Shot, ¬ pendingShot (q.fired v.now o) := fun q => by
      rintro (h | h) <;> cases h
    have hend : Ends r s (v.modifyShot r (fun q => q.fired v.now o)) := fun _ =>
      ⟨.modifyShot_after ht hq hreads ⟨rfl, hr⟩ hfired, fun _ => by
        obtain ⟨q, hk⟩ := Option.isSome_iff_exists.1 hr
        refine ⟨q.fired v.now o, ?_, hfired q⟩
        rw [shot?_modifyShot, shot?_of_table ht, hk, Option.map_some, if_pos rfl]⟩
    exact ((hend.then (Calm.openFlash _ r k o).with).then (Calm.joinReadoutQueue _ r)).then (Calm.grantAll _).with
  unfold State.fireShot
  dsimp only
  cases (s.setMemory (s.memory.reserve r k.segmentsExpected)).lines[k.camera].freeSlot with
  | none => exact hslot _ rfl rfl rfl (fun _ _ _ h => .inl h)
  | some slot =>
    refine hslot _ rfl rfl rfl (fun c j x hx => ?_)
    change (setAt s.lines k.camera (s.lines[k.camera].setSlot slot (some r)))[c].slots[j] = some x at hx
    rw [getElem_setAt] at hx
    by_cases hc : c = k.camera
    · rw [if_pos hc] at hx
      change (setAt s.lines[k.camera].slots slot (some r))[j] = some x at hx
      rw [getElem_setAt] at hx
      by_cases hj : j = slot
      · rw [if_pos hj] at hx
        exact .inr (Option.some.inj hx).symm
      · rw [if_neg hj] at hx
        subst hc
        exact .inl hx
    · rw [if_neg hc] at hx
      exact .inl hx

/-- A shot decided by the fire unit is not to fire any more. -/
theorem decideShot_ends (s : State) (r : ShotRef) (ha : Aside s) :
    Steady (· = r) s (s.decideShot r) ∧ ¬ toFire (s.decideShot r) r := by
  unfold State.decideShot
  split
  · rename_i p k hp hk
    have hr : (s.shot? r).isSome = true := by rw [hk]; rfl
    split
    · obtain ⟨h, hrest⟩ := Ends.skipShot s r _ hr ha
      exact ⟨h, hrest.not_toFire⟩
    · obtain ⟨h, hrest⟩ := Ends.fireShot s r _ _ _ hr ha
      exact ⟨h, hrest.not_toFire⟩
  · rename_i hnone
    refine ⟨Calm.refl s ha, ?_⟩
    rintro ⟨k, hk, -⟩
    obtain ⟨p, hp⟩ := Option.isSome_iff_exists.1 (live_of_shot hk)
    exact hnone p k hp hk

/-! ## Shots leave the queue -/

theorem openingIndex_eq (s : State) (n : Nat) :
    s.openingIndex n = (s.table.passages.map (·.number)).findIdx (· == n) := by
  unfold State.openingIndex
  rw [List.findIdx_map]
  rfl

theorem openingIndex_congr {s t : State}
    (h : t.table.passages.map (·.number) = s.table.passages.map (·.number)) (n : Nat) :
    t.openingIndex n = s.openingIndex n := by
  rw [openingIndex_eq, openingIndex_eq, h]

/-- The order of two shots looks at their fire times and at the opening order of their passages only. -/
theorem queueBefore_congr {s t : State} {a b : ShotRef} (ha : t.fireTimeOf a = s.fireTimeOf a)
    (hb : t.fireTimeOf b = s.fireTimeOf b)
    (hlt : t.openingIndex a.passage < t.openingIndex b.passage
      ↔ s.openingIndex a.passage < s.openingIndex b.passage)
    (heq : t.openingIndex a.passage = t.openingIndex b.passage
      ↔ s.openingIndex a.passage = s.openingIndex b.passage) :
    t.queueBefore a b = s.queueBefore a b := by
  unfold State.queueBefore
  simp only [ha, hb, hlt, heq]

/-- Shots leave the shot queue, and are then not to fire; the others keep their order. -/
structure Shrinks (s t : State) : Prop where
  kept : ∃ keep : ShotRef → Bool, t.shotQueue = s.shotQueue.filter keep
    ∧ ∀ r, toFire t r ↔ toFire s r ∧ keep r = true
  order : ∀ a b, toFire t a → toFire t b → t.queueBefore a b = s.queueBefore a b

theorem Shrinks.trans {s t u : State} (h : Shrinks s t) (k : Shrinks t u) : Shrinks s u := by
  obtain ⟨⟨f, hf, hfire⟩, horder⟩ := h
  obtain ⟨⟨g, hg, gfire⟩, gorder⟩ := k
  refine ⟨⟨fun r => f r && g r, ?_, fun r => ?_⟩, fun a b ha hb => ?_⟩
  · rw [hg, hf, List.filter_filter]
    exact List.filter_congr (fun r _ => Bool.and_comm _ _)
  · rw [gfire, hfire, Bool.and_eq_true, and_assoc]
  · rw [gorder a b ha hb, horder a b ((gfire a).1 ha).1 ((gfire b).1 hb).1]

/-- What holds of a shot queue: it is that of the shots to fire, each once, within its places (R87). -/
structure QueueHolds (s : State) : Prop where
  exact : ∀ r, r ∈ s.shotQueue ↔ toFire s r
  once : s.shotQueue.Nodup
  places : s.shotQueue.length ≤ 64

theorem Shrinks.queueHolds {s t : State} (h : Shrinks s t) (hs : QueueHolds s) : QueueHolds t := by
  obtain ⟨⟨f, hf, hfire⟩, -⟩ := h
  refine ⟨fun r => ?_, hf ▸ hs.once.filter f, ?_⟩
  · rw [hf, List.mem_filter, hfire, hs.exact]
  · rw [hf]; exact (List.length_filter_le _ _).trans hs.places

theorem Shrinks.inOrder {s t : State} (h : Shrinks s t) (hs : QueueHolds s) (ho : s.queueInOrder) :
    t.queueInOrder := by
  have ht := h.queueHolds hs
  obtain ⟨⟨f, hf, -⟩, horder⟩ := h
  have hpair : t.shotQueue.Pairwise (fun a b => s.queueBefore a b = true) := hf ▸ List.Pairwise.filter f ho
  refine hpair.imp_of_mem (fun ha hb hab => ?_)
  rw [horder _ _ ((ht.exact _).1 ha) ((ht.exact _).1 hb)]
  exact hab

theorem Steady.toFire {free : ShotRef → Prop} {s t : State} (h : Steady free s t) {r : ShotRef}
    (hr : toFire t r) : toFire s r ∧ t.fireTimeOf r = s.fireTimeOf r := by
  obtain ⟨k', hk', hp⟩ := hr
  obtain ⟨k, hk, hstays⟩ := rel_some_right (h.shots r) hk'
  rcases hstays with hsame | ⟨hnot, -⟩
  · refine ⟨⟨k, hk, hsame.pending.1 hp⟩, ?_⟩
    unfold State.fireTimeOf
    rw [hk, hk']
    dsimp only
    rw [hsame.plannedFire]
  · exact absurd hp hnot

theorem Steady.toFire_kept {free : ShotRef → Prop} {s t : State} (h : Steady free s t) {r : ShotRef}
    (hr : Proofs.toFire s r) (hfree : ¬ free r) : Proofs.toFire t r := by
  obtain ⟨k, hk, hp⟩ := hr
  obtain ⟨k', hk', hstays⟩ := rel_some (h.shots r) hk
  rcases hstays with hsame | ⟨-, hf⟩
  · exact ⟨k', hk', hsame.pending.2 hp⟩
  · exact absurd (hf hp) hfree

theorem Steady.queueBefore {free : ShotRef → Prop} {s t : State} (h : Steady free s t) {a b : ShotRef}
    (ha : Proofs.toFire t a) (hb : Proofs.toFire t b) : t.queueBefore a b = s.queueBefore a b := by
  refine queueBefore_congr (h.toFire ha).2 (h.toFire hb).2 ?_ ?_
  · rw [openingIndex_congr h.numbers, openingIndex_congr h.numbers]
  · rw [openingIndex_congr h.numbers, openingIndex_congr h.numbers]

/-- An operation that frees no shot leaves the queue. -/
theorem Steady.shrinks {s t : State} (h : Steady (fun _ => False) s t) : Shrinks s t :=
  ⟨⟨fun _ => true, by rw [h.queue]; simp, fun r =>
    ⟨fun hr => ⟨(h.toFire hr).1, rfl⟩, fun hr => h.toFire_kept hr.1 id⟩⟩, fun _ _ ha hb => h.queueBefore ha hb⟩

/-- A shot that leaves the queue and is ended. -/
theorem Steady.shrinks_leave {s t : State} {r : ShotRef} (h : Steady (· = r) (s.leaveShotQueue r) t)
    (hr : ¬ Proofs.toFire t r) : Shrinks s t := by
  refine ⟨⟨(· != r), h.queue, fun q => ⟨fun hq => ⟨(h.toFire hq).1, ?_⟩, fun hq => ?_⟩⟩,
    fun _ _ ha hb => h.queueBefore ha hb⟩
  · rw [bne_iff_ne]; rintro rfl; exact hr hq
  · exact h.toFire_kept hq.1 (by simpa using hq.2)

/-- An operation that keeps what holds of the readout, by which shots may leave the queue. -/
def Mild (s t : State) : Prop := Aside s → Aside t ∧ Shrinks s t

theorem Mild.trans {s t u : State} (h : Mild s t) (k : Mild t u) : Mild s u := fun ha =>
  ⟨(k (h ha).1).1, (h ha).2.trans (k (h ha).1).2⟩

theorem Calm.mild {s t : State} (h : Calm (fun _ => False) s t) : Mild s t := fun ha =>
  ⟨(h ha).aside ha, (h ha).shrinks⟩

theorem Mild.refl (s : State) : Mild s s := (Calm.refl s).mild

theorem Mild.foldl {α : Type} (f : State → α → State) (h : ∀ s a, Mild s (f s a)) (l : List α)
    (s : State) : Mild s (l.foldl f s) := by
  induction l generalizing s with
  | nil => exact .refl s
  | cons a l ih => exact (h s a).trans (ih _)

theorem leaveShotQueue_aside {s : State} {r : ShotRef} (h : Aside s) : Aside (s.leaveShotQueue r) :=
  ⟨h.reads, h.ended⟩

theorem Mild.handOver (s : State) (r : ShotRef) : Mild s (s.handOver r) := by
  intro ha
  obtain ⟨h, hr⟩ := decideShot_ends (s.leaveShotQueue r) r (leaveShotQueue_aside ha)
  exact ⟨h.aside (leaveShotQueue_aside ha), h.shrinks_leave hr⟩

/-! ## Winding down (R44) -/

theorem Mild.windDownShot (s : State) (r : ShotRef) : Mild s (s.windDownShot r) := by
  unfold State.windDownShot
  split
  · rename_i k hk
    have hr : ((s.leaveShotQueue r).shot? r).isSome = true := by
      change (s.shot? r).isSome = true
      rw [hk]; rfl
    have hcancel : Mild s ((s.leaveShotQueue r).modifyShot r (fun q => { q with state := .cancelled })) := by
      intro ha
      obtain ⟨h, hrest⟩ := Ends.modifyShot (s.leaveShotQueue r) r
        (f := fun q => { q with state := .cancelled }) hr (fun _ => not_pending_of_terminal rfl)
        (leaveShotQueue_aside ha)
      exact ⟨h.aside (leaveShotQueue_aside ha), h.shrinks_leave hrest.not_toFire⟩
    split
    · exact hcancel
    · exact hcancel
    · unfold State.discardHeld
      dsimp only
      refine Calm.mild (((Calm.leaveReadoutQueue s r).trans (.returnPages _ r none)).trans ?_)
      split
      · exact .placeOrder _ _ _
      · exact .refl _
    all_goals exact .refl s
  · exact .refl s

theorem Mild.windDown (s : State) (p : Passage) : Mild s (s.windDown p) :=
  .foldl _ (fun q _ => .windDownShot q _) _ s

end Sys2Proof.Proofs


/-! PROOFS. The commands that make no shot: by each, shots may leave the shot queue, and the order stays (R87). -/

namespace Sys2Proof.Proofs

open Sys2Proof.Machine

section

variable {free : ShotRef → Prop}

/-! ## The close of an event (R150, R185) -/

theorem Calm.sendChunk (s : State) (f : Fetch) : Calm free s (s.sendChunk f) :=
  ((Calm.inert (t := s.setMemory _)).trans (.modifyShot_timing _ f.shot (f := (·.countChunk _ _ _))
    (fun _ => ⟨rfl, rfl, rfl, rfl, rfl⟩))).trans (.inert (t := s.sendChunk f))

theorem Calm.sendNotice (s : State) : Calm free s s.sendNotice := by
  unfold State.sendNotice
  split
  · exact .refl s
  · exact .inert

theorem Calm.arbitrate (s : State) : Calm free s s.arbitrate := by
  unfold State.arbitrate
  split
  · split
    · exact .sendNotice s
    · split
      · exact .inert
      · split
        · exact .sendChunk s _
        · exact .sendNotice s
  · exact .refl s

theorem Calm.endEvent (s : State) : Calm free s s.endEvent := (Calm.compareLow s).trans (.arbitrate _)

/-! ## Tracks and the passage table (chapters 1 and 2) -/

theorem Calm.trackTo (s : State) (t : Track) (new : TrackState) : Calm free s (s.trackTo t new) := by
  unfold State.trackTo
  dsimp only
  split
  · exact .inert
  · exact (Calm.inert (t := s.setTrack t _)).trans (.queueNotice _ _)

theorem Calm.drainCheck (s : State) (b : BankNo) : Calm free s (s.drainCheck b) := by
  unfold State.drainCheck
  split
  · exact (Calm.inert (t := s.setBankState b .standby)).trans (.queueNotice _ _)
  · exact .refl s

theorem Calm.leaveOpen (s : State) (p : Passage) {st : PassageState} (track : TrackState)
    (hst : st ≠ .filed ∧ st ≠ .abandoned) : Calm free s (s.leaveOpen p st track) :=
  ((Calm.modifyPassage s p.number (f := (·.left st (if st = .clear then some s.now else p.clearTime)))
    (fun _ => rfl) (fun _ => rfl) (fun _ _ h => absurd h (by rintro (h | h); exacts [hst.1 h, hst.2 h]))).trans
    (.trackTo _ p.track track)).trans (.drainCheck _ p.bank)

theorem Calm.clearPassage (s : State) (p : Passage) (track : TrackState) :
    Calm free s (s.clearPassage p track) :=
  (Calm.leaveOpen s p track (by decide)).trans (.checkSettled _ _)

theorem Calm.checkCleared (s : State) (n : Nat) : Calm free s (s.checkCleared n) := by
  unfold State.checkCleared
  split
  · exact .refl s
  · split
    · exact .clearPassage s _ _
    · exact .refl s

theorem Calm.startTailWindow (s : State) (n : Nat) : Calm free s (s.startTailWindow n) := by
  unfold State.startTailWindow
  split
  · exact .refl s
  · exact .modifyPassage_state s n (fun _ => rfl) (fun _ => rfl) (fun _ => rfl)

theorem Calm.clearShort (s : State) (p : Passage) : Calm free s (s.clearShort p) :=
  (Calm.recordFault s _ _ _ _).trans (.clearPassage _ p _)

theorem Calm.pushCrossing (s : State) (t : Track) (p : Passage) (side : Side) :
    Calm free s (s.pushCrossing t p side) := by
  unfold State.pushCrossing
  dsimp only
  split
  · exact .inert
  · exact (Calm.inert (t := s.setTrack t _)).trans (.recordFault _ _ _ _ _)

theorem countExit_works (p : Passage) : (p.countExit).number = p.number ∧ p.countExit.shots = p.shots
    ∧ p.countExit.state = p.state := by
  unfold Passage.countExit
  dsimp only
  split <;> exact ⟨rfl, rfl, rfl⟩

theorem Calm.exitCrossing (s : State) (n : Nat) : Calm free s (s.exitCrossing n) :=
  (Calm.modifyPassage_state s n (fun p => (countExit_works p).1) (fun p => (countExit_works p).2.1)
    (fun p => (countExit_works p).2.2)).trans (.checkCleared _ n)

theorem Calm.expirePair (s : State) (t : Track) (side : Side) : Calm free s (s.expirePair t side) := by
  unfold State.expirePair
  dsimp only
  split
  · exact .refl s
  · split
    · split
      · exact (Calm.inert (t := s.setTrack t _)).trans (.recordFault _ _ _ _ _)
      · exact .inert
    · exact .refl s

theorem Calm.stopPassage (s : State) (p : Passage) (reason : AbandonReason) (track : TrackState) :
    Calm free s (s.stopPassage p reason track) := by
  have hreason : Calm free s (s.modifyPassage p.number (·.giveReason reason)) :=
    .modifyPassage_state s _ (fun _ => rfl) (fun _ => rfl) (fun _ => rfl)
  unfold State.stopPassage
  dsimp only
  split
  · exact hreason.trans (.leaveOpen _ p track (by decide))
  · exact hreason.trans (.modifyPassage _ p.number (fun _ => rfl) (fun _ => rfl)
      (fun _ _ h => absurd h (by rintro (h | h) <;> cases h)))

end

theorem Mild.abandon (s : State) (p : Passage) (reason : AbandonReason) (track : TrackState) :
    Mild s (s.abandon p reason track) :=
  ((Calm.stopPassage s p reason track).mild.trans (.windDown _ p)).trans (Calm.checkSettled _ _).mild

theorem Mild.abandonByFault (s : State) (t : Track) : Mild s (s.abandonByFault t) := by
  unfold State.abandonByFault
  split
  · exact (Calm.recordFault s _ _ _ _).mild.trans (.abandon _ _ _ _)
  · exact .refl s

theorem Mild.actOnFault (s : State) (t : Track) : Mild s (s.actOnFault t) := by
  unfold State.actOnFault
  split
  · exact .refl s
  · exact .refl s
  · exact (Calm.trackTo s t _).mild
  · exact (Calm.trackTo s t _).mild
  · exact (Calm.trackTo s t _).mild.trans (.abandonByFault _ t)

theorem Mild.actOnRecovery (s : State) (t : Track) : Mild s (s.actOnRecovery t) := by
  unfold State.actOnRecovery
  split
  · exact (Calm.trackTo s t _).mild
  · exact .refl s

/-! ## A passage leaves the table (R46), and one enters it (R27) -/

theorem findIdx_lt_filter {n a b : Nat} (ha : a ≠ n) (hb : b ≠ n) (l : List Nat) (hal : a ∈ l) (hbl : b ∈ l) :
    (l.filter (· != n)).findIdx (· == a) < (l.filter (· != n)).findIdx (· == b)
      ↔ l.findIdx (· == a) < l.findIdx (· == b) := by
  induction l with
  | nil => cases hal
  | cons x l ih =>
    by_cases hx : x = n
    · subst hx
      have ha' : a ∈ l := (List.mem_cons.1 hal).resolve_left ha
      have hb' : b ∈ l := (List.mem_cons.1 hbl).resolve_left hb
      rw [List.filter_cons_of_neg (by simp), ih ha' hb', List.findIdx_cons, List.findIdx_cons,
        beq_false_of_ne (Ne.symm ha), beq_false_of_ne (Ne.symm hb)]
      simp
    · rw [List.filter_cons_of_pos (by simpa using hx)]
      simp only [List.findIdx_cons]
      by_cases hxa : x = a
      · by_cases hab : a = b
        · simp [hxa, hab]
        · simp [hxa, beq_false_of_ne hab]
      · by_cases hxb : x = b
        · simp [hxb]
        · have ha' : a ∈ l := (List.mem_cons.1 hal).resolve_left (Ne.symm hxa)
          have hb' : b ∈ l := (List.mem_cons.1 hbl).resolve_left (Ne.symm hxb)
          simp [beq_false_of_ne hxa, beq_false_of_ne hxb, ih ha' hb']

theorem findIdx_inj {l : List Nat} {a b : Nat} (ha : a ∈ l) :
    l.findIdx (· == a) = l.findIdx (· == b) ↔ a = b := by
  refine ⟨fun h => ?_, fun h => by rw [h]⟩
  have hlt : l.findIdx (· == a) < l.length := List.findIdx_lt_length_of_exists ⟨a, ha, by simp⟩
  have h1 : (l[l.findIdx (· == a)] == a) = true := List.findIdx_getElem (p := (· == a)) (w := hlt)
  have h2 : (l[l.findIdx (· == b)]'(h ▸ hlt) == b) = true :=
    List.findIdx_getElem (p := (· == b)) (w := h ▸ hlt)
  simp only [beq_iff_eq] at h1 h2
  rw [← h1, ← h2]
  simp only [h]

theorem toFire_live {s : State} {r : ShotRef} (h : toFire s r) : (s.passage? r.passage).isSome = true := by
  obtain ⟨k, hk, -⟩ := h
  exact live_of_shot hk

theorem passage?_removePassage (s : State) (n m : Nat) :
    (s.removePassage n).passage? m = if m = n then none else s.passage? m := by
  unfold State.removePassage State.passage?
  dsimp only
  rw [List.find?_filter]
  split
  · rename_i h
    subst h
    rw [List.find?_eq_none]
    simp
  · rename_i h
    congr 1
    funext p
    by_cases hp : p.number = m
    · simp [hp, h]
    · simp [hp]

theorem Mild.removePassage (s : State) {n : Nat} {p : Passage} (hp : s.passage? n = some p) (hover : isOver p) :
    Mild s (s.removePassage n) := by
  intro ha
  have hshot : ∀ r : ShotRef, r.passage ≠ n → (s.removePassage n).shot? r = s.shot? r := fun r hr => by
    unfold State.shot?; rw [passage?_removePassage, if_neg hr]
  have hgone : ∀ r : ShotRef, r.passage = n → (s.removePassage n).shot? r = none := fun r hr => by
    unfold State.shot?; rw [passage?_removePassage, if_pos hr]
  have hfire : ∀ r, toFire (s.removePassage n) r ↔ toFire s r ∧ (fun _ : ShotRef => true) r = true := by
    intro r
    by_cases hr : r.passage = n
    · constructor
      · rintro ⟨k, hk, -⟩; rw [hgone r hr] at hk; cases hk
      · rintro ⟨⟨k, hk, hpend⟩, -⟩
        obtain ⟨m, i⟩ := r
        obtain rfl : m = n := hr
        rw [shot?_of_passage? hp] at hk
        exact absurd hpend (ha.ended m p hp hover k (List.mem_of_getElem? hk))
    · unfold toFire; rw [hshot r hr]; simp
  have hnumbers : (s.removePassage n).table.passages.map (·.number)
      = (s.table.passages.map (·.number)).filter (· != n) := by
    rw [List.filter_map]; rfl
  refine ⟨⟨fun r hr hlive => ?_, fun m q hq ho => ?_⟩, ⟨⟨fun _ => true, by simp [State.removePassage], hfire⟩,
    fun a b hta htb => ?_⟩⟩
  · rw [passage?_removePassage] at hlive
    split at hlive
    · cases hlive
    · rename_i hne
      rw [hshot r hne]
      exact ha.reads r hr hlive
  · rw [passage?_removePassage] at hq
    split at hq
    · cases hq
    · exact ha.ended m q hq ho
  · have hane : a.passage ≠ n := fun h => by obtain ⟨k, hk, -⟩ := hta; rw [hgone a h] at hk; cases hk
    have hbne : b.passage ≠ n := fun h => by obtain ⟨k, hk, -⟩ := htb; rw [hgone b h] at hk; cases hk
    have haIn := (passage?_isSome s _).1 (toFire_live ((hfire a).1 hta).1)
    have hbIn := (passage?_isSome s _).1 (toFire_live ((hfire b).1 htb).1)
    refine queueBefore_congr (by unfold State.fireTimeOf; rw [hshot a hane])
      (by unfold State.fireTimeOf; rw [hshot b hbne]) ?_ ?_
    · simp only [openingIndex_eq, hnumbers]
      exact findIdx_lt_filter hane hbne _ haIn hbIn
    · simp only [openingIndex_eq, hnumbers]
      rw [findIdx_inj haIn, findIdx_inj (List.mem_filter.2 ⟨haIn, by simpa using hane⟩)]

theorem freePages_table (l : List Nat) (s : State) : (s.freePages l).table = s.table := by
  induction l generalizing s with
  | nil => rfl
  | cons k l ih =>
    have hfree : (s.freePage k).table = s.table :=
      (queueNotices_facts (s.memory.free k).2 (s.setMemory (s.memory.free k).1)).2.1
    exact (ih _).trans hfree

theorem Mild.releasePassage (s : State) (n : BitVec 16) : Mild s (s.releasePassage n).1 := by
  unfold State.releasePassage
  split
  · exact .refl s
  · rename_i p hp
    split
    · rename_i hover
      have hpass : s.passage? p.number = some p := by
        unfold State.namedPassage at hp
        split at hp
        · cases hp
        · split at hp
          · rename_i q hq; cases hp; rw [passage?_number hq]; exact hq
          · cases hp
      have htable : (s.freePages p.allPages).table = s.table := freePages_table _ s
      exact (Calm.foldl _ (fun s k => Calm.freePage s k) p.allPages s).mild.trans
        (.removePassage _ ((passage?_of_table htable _).trans hpass) hover)
    · exact .refl s

/-- The table with a passage that has no shots yet behind the others. -/
theorem Mild.appendPassage (s : State) {p : Passage} (next : Nat) (hshots : p.shots = []) (ho : ¬ isOver p)
    (hlive : ∀ r, readRef s r → (s.passage? r.passage).isSome = true) :
    Mild s { s with table := ⟨s.table.passages ++ [p], next⟩ } := by
  intro ha
  generalize ht : ({ s with table := ⟨s.table.passages ++ [p], next⟩ } : State) = t
  have hpass : ∀ m, t.passage? m = (s.passage? m).or (if p.number = m then some p else none) := fun m => by
    subst ht
    unfold State.passage?
    rw [List.find?_append]
    congr 1
    by_cases h : p.number = m <;> simp [h]
  have hshot : ∀ r, t.shot? r = s.shot? r := fun r => by
    unfold State.shot?
    rw [hpass]
    cases s.passage? r.passage with
    | some q => rfl
    | none =>
      rw [Option.none_or]
      split
      · rename_i q hq
        split at hq
        · cases hq; rw [hshots]; rfl
        · cases hq
      · rfl
  have hfire : ∀ r, toFire t r ↔ toFire s r := fun r => by unfold toFire; rw [hshot]
  have hindex : ∀ r, toFire t r → t.openingIndex r.passage = s.openingIndex r.passage := fun r hr => by
    obtain hin := (passage?_isSome s _).1 (toFire_live ((hfire r).1 hr))
    subst ht
    rw [openingIndex_eq, openingIndex_eq, List.map_append, List.findIdx_append, if_pos]
    exact List.findIdx_lt_length_of_exists ⟨_, hin, by simp⟩
  refine ⟨⟨fun r hr _ => ?_, fun n q hq hover => ?_⟩, ⟨⟨fun _ => true, ?_, fun r => ?_⟩, fun a b hta htb => ?_⟩⟩
  · have hr' : readRef s r := by subst ht; exact hr
    rw [hshot]
    exact ha.reads r hr' (hlive r hr')
  · rw [hpass] at hq
    cases hs : s.passage? n with
    | some q' => rw [hs] at hq; cases hq; exact ha.ended n q hs hover
    | none =>
      rw [hs, Option.none_or] at hq
      split at hq
      · cases hq; exact absurd hover ho
      · cases hq
  · subst ht; simp
  · rw [hfire]; simp
  · refine queueBefore_congr (by unfold State.fireTimeOf; rw [hshot]) (by unfold State.fireTimeOf; rw [hshot]) ?_ ?_
    · rw [hindex a hta, hindex b htb]
    · rw [hindex a hta, hindex b htb]

theorem Mild.openPassage (s : State) (t : Track) (side : Side) (b : BankNo)
    (hlive : ∀ r, readRef s r → (s.passage? r.passage).isSome = true) : Mild s (s.openPassage t side b) := by
  unfold State.openPassage
  dsimp only
  exact (Mild.appendPassage s _ rfl (by rintro (h | h) <;> cases h) hlive).trans
    (((Calm.queueNotice _ _).trans (.trackTo _ t _)).trans (.pushCrossing _ t _ side)).mild

theorem Mild.askOpening (s : State) (t : Track) (side : Side)
    (hlive : ∀ r, readRef s r → (s.passage? r.passage).isSome = true) : Mild s (s.askOpening t side) := by
  unfold State.askOpening
  split
  · exact .openPassage s t side _ hlive
  · exact ((Calm.queueNotice s _).trans (.trackTo _ t _)).mild

end Sys2Proof.Proofs


/-! PROOFS. The requests, the link and the restart: by each, shots may leave the shot queue, and the order stays
(R87). -/

namespace Sys2Proof.Proofs

open Sys2Proof.Machine

/-! ## The table emptied (R199, R190) -/

theorem shot?_of_empty {t : State} (ht : t.table.passages = []) (r : ShotRef) : t.shot? r = none := by
  unfold State.shot? State.passage?; rw [ht]; rfl

theorem Mild.emptied {s t : State} (ht : t.table.passages = []) (hq : t.shotQueue = []) : Mild s t := by
  have hpass : ∀ n, t.passage? n = none := fun n => by unfold State.passage?; rw [ht]; rfl
  have hfire : ∀ r, ¬ toFire t r := fun r => by rintro ⟨k, hk, -⟩; rw [shot?_of_empty ht] at hk; cases hk
  refine fun _ => ⟨⟨fun r _ hlive => ?_, fun n q hn => ?_⟩, ⟨⟨fun _ => false, ?_, fun r => ?_⟩, fun a b ha => ?_⟩⟩
  · rw [hpass] at hlive; cases hlive
  · rw [hpass] at hn; cases hn
  · rw [hq]; simp
  · simp [hfire]
  · exact absurd ha (hfire a)

theorem Mild.takeRestart (s : State) (transaction : Bool) : Mild s (s.takeRestart transaction) := by
  obtain ⟨low, h, -⟩ := takeRestart_eq s transaction
  rw [h]
  exact .emptied rfl rfl

/-! ## A shot frozen (R85) -/

theorem freezeDue_planned {s : State} {r : ShotRef} (h : s.freezeDue r = true) :
    ∃ k, s.shot? r = some k ∧ k.state = .planned := by
  unfold State.freezeDue at h
  split at h
  · rename_i k hk
    exact ⟨k, hk, by simpa using (Bool.and_eq_true_iff.1 h).1⟩
  · cases h

theorem Mild.freeze (s : State) {r : ShotRef} (h : s.freezeDue r = true) :
    Mild s (s.modifyShot r (fun k => { k with state := .frozen })) := by
  intro ha
  obtain ⟨k, hk, hst⟩ := freezeDue_planned h
  have hfires : toFire s r := ⟨k, hk, .inl hst⟩
  generalize ht : s.modifyShot r (fun k => { k with state := .frozen }) = t
  have hshot : ∀ q, t.shot? q = if q = r then some { k with state := .frozen } else s.shot? q := fun q => by
    rw [← ht, shot?_modifyShot]
    split
    · rename_i hq; rw [hq, hk]; rfl
    · simp
  have hnumbers : t.table.passages.map (·.number) = s.table.passages.map (·.number) := by
    rw [← ht]; exact modifyPassage_numbers s _ (fun _ => rfl)
  have hfire : ∀ q, toFire t q ↔ toFire s q := fun q => by
    unfold toFire
    rw [hshot]
    by_cases hq : q = r
    · rw [if_pos hq]; subst hq; exact ⟨fun _ => hfires, fun _ => ⟨_, rfl, .inr rfl⟩⟩
    · rw [if_neg hq]
  have htime : ∀ q, t.fireTimeOf q = s.fireTimeOf q := fun q => by
    unfold State.fireTimeOf
    rw [hshot]
    by_cases hq : q = r
    · rw [if_pos hq, hq, hk]
    · rw [if_neg hq]
  refine ⟨ha.modifyShot hfires (f := fun k => { k with state := .frozen }) (by rw [← ht])
      (fun q hq => by rw [← ht] at hq; exact hq),
    ⟨⟨fun _ => true, by rw [← ht]; simp [State.modifyShot, State.modifyPassage], fun q => by rw [hfire]; simp⟩,
      fun a b _ _ => queueBefore_congr (htime a) (htime b) ?_ ?_⟩⟩
  · rw [openingIndex_congr hnumbers, openingIndex_congr hnumbers]
  · rw [openingIndex_congr hnumbers, openingIndex_congr hnumbers]

/-! ## Requests (9.3.2) -/

theorem Mild.reply {s : State} {x : State × Answer} (h : Mild s x.1) (tag : Byte) (code : BitVec 16) :
    Mild s (State.reply x tag code) :=
  h.trans (Calm.placeAnswer _ _ _ _).mild

theorem Mild.timeSet (s : State) (t : BitVec 64) : Mild s (s.timeSet t).1 := by
  unfold State.timeSet
  split
  · exact .refl s
  · split
    · exact .refl s
    · exact (Calm.inert).mild

theorem Mild.trackArm (s : State) (t : Byte) : Mild s (s.trackArm t).1 := by
  unfold State.trackArm
  split
  · exact .refl s
  · exact .refl s
  · split
    · exact .refl s
    · split
      · exact .refl s
      · exact (Calm.trackTo s _ _).mild

theorem Mild.trackDisarm (s : State) (t : Byte) : Mild s (s.trackDisarm t).1 := by
  unfold State.trackDisarm
  split
  · exact .refl s
  · split
    · exact .refl s
    · exact .refl s
    all_goals exact (Calm.trackTo s _ _).mild

theorem Mild.abandonPassage (s : State) (n : BitVec 16) : Mild s (s.abandonPassage n).1 := by
  unfold State.abandonPassage
  split
  · exact .refl s
  · split
    · exact .abandon s _ _ _
    · exact .abandon s _ _ _
    · exact .abandon s _ _ _
    all_goals exact .refl s

theorem Mild.serviceOn (s : State) (c : Camera) : Mild s (s.serviceOn c) := by
  unfold State.serviceOn
  split
  · exact (Calm.beginLinking s c _).mild
  · exact (Calm.beginLinking s c _).mild
  all_goals exact .refl s

theorem Mild.serviceOff (s : State) (c : Camera) : Mild s (s.serviceOff c) := by
  unfold State.serviceOff
  split
  · exact (Calm.changeLine s c _ _ _).mild
  all_goals exact .refl s

theorem Mild.cameraService (s : State) (line onOff : Byte) : Mild s (s.cameraService line onOff).1 := by
  unfold State.cameraService
  split
  · exact .refl s
  · split
    · exact .serviceOff s _
    · split
      · exact .refl s
      · split
        · exact .serviceOn s _
        · exact .refl s
    · exact .refl s

theorem Mild.pageRetire (s : State) (page spare : BitVec 16) : Mild s (s.pageRetire page spare).1 := by
  unfold State.pageRetire
  dsimp only
  split
  · exact .refl s
  · exact ((Calm.inert (t := s.setMemory _)).trans (.queueNotices _ _)).mild

theorem Mild.pageRestore (s : State) (page : BitVec 16) : Mild s (s.pageRestore page).1 := by
  unfold State.pageRestore
  dsimp only
  split
  · exact .refl s
  · split
    · exact .refl s
    · exact (Calm.inert).mild

theorem Mild.tableBegin (s : State) : Mild s s.tableBegin.1 := by
  unfold State.tableBegin
  split
  · dsimp only
    split
    · exact .refl s
    · exact (Calm.inert).mild
  · split
    · exact .refl s
    · exact (Calm.inert).mild

theorem Mild.tablePut (s : State) (kind index : Byte) (contents : List Byte) :
    Mild s (s.tablePut kind index contents).1 := by
  unfold State.tablePut
  split
  · exact .refl s
  · exact .refl s
  · exact (Calm.inert).mild

theorem Mild.abortTransaction (s : State) : Mild s s.abortTransaction := by
  unfold State.abortTransaction
  split
  · exact .refl s
  · exact (Calm.inert).mild

theorem Mild.commit (s : State) (k : BankNo) : Mild s (s.commit k) := by
  have hswitch : Mild s (s.switchBanks k) := by
    unfold State.switchBanks
    dsimp only
    split <;> exact (Calm.inert).mild
  refine hswitch.trans (.foldl _ (fun q c => ?_) _ _)
  unfold State.commitLine
  split
  · exact (Calm.beginLinking q c _).mild
  · exact .refl q

theorem Mild.commitBank (s : State) (k : BankNo) : Mild s (s.commitBank k).1 := by
  unfold State.commitBank
  split
  · exact .abortTransaction s
  · dsimp only
    exact .commit s k

theorem Mild.tableEnd (s : State) : Mild s s.tableEnd.1 := by
  unfold State.tableEnd
  split
  · exact .refl s
  · split
    · exact (Calm.inert).mild
    · exact .commitBank s _

theorem Mild.tableAbort (s : State) : Mild s s.tableAbort.1 := by
  unfold State.tableAbort
  split
  · exact .refl s
  · exact .abortTransaction s

theorem Mild.takeCameraSense (s : State) (tag line : Byte) : Mild s (s.takeCameraSense tag line) := by
  unfold State.takeCameraSense
  split
  · exact (Calm.placeAnswer s _ _ _).mild
  · exact ((Calm.inert (t := s.setInProgress _)).trans (.placeOrder _ _ _)).mild

theorem Mild.takeFetch (s : State) (tag : Byte) (n : BitVec 16) (shot first count : Byte) :
    Mild s (s.takeFetch tag n shot first count) := by
  unfold State.takeFetch
  split
  · exact (Calm.placeAnswer s _ _ _).mild
  · dsimp only
    split
    · exact (Calm.placeAnswer s _ _ _).mild
    · exact (Calm.inert).mild

/-- A request that is carried out. -/
theorem Mild.carryOut (s : State) (tag : Byte) (r : Request) : Mild s (s.carryOut tag r) := by
  cases r with
  | timeSet t => exact (Mild.timeSet s t).reply tag _
  | timeGet => exact Mild.reply (.refl s) tag _
  | trackArm t => exact (Mild.trackArm s t).reply tag _
  | trackDisarm t => exact (Mild.trackDisarm s t).reply tag _
  | trackStatus t => exact Mild.reply (.refl s) tag _
  | listPassages => exact Mild.reply (.refl s) tag _
  | readPassage p part start => exact Mild.reply (.refl s) tag _
  | releasePassage p => exact (Mild.releasePassage s p).reply tag _
  | abandonPassage p => exact (Mild.abandonPassage s p).reply tag _
  | cameraService l on => exact (Mild.cameraService s l on).reply tag _
  | cameraSense l => exact .takeCameraSense s tag l
  | memoryStatus p => exact Mild.reply (.refl s) tag _
  | pageRetire p sp => exact (Mild.pageRetire s p sp).reply tag _
  | pageRestore p => exact (Mild.pageRestore s p).reply tag _
  | tableBegin => exact (Mild.tableBegin s).reply tag _
  | tablePut kind index contents => exact (Mild.tablePut s kind index contents).reply tag _
  | tableGet bank kind index => exact Mild.reply (.refl s) tag _
  | tableEnd => exact (Mild.tableEnd s).reply tag _
  | tableAbort => exact (Mild.tableAbort s).reply tag _
  | bankStatus => exact Mild.reply (.refl s) tag _
  | identify => exact Mild.reply (.refl s) tag _
  | restart => exact (Calm.inert (t := s.takeRestartRequest tag)).mild
  | fetchImage p shot first count => exact .takeFetch s tag p shot first count

/-! ## The link (chapter 9) -/

theorem Mild.event {s t : State} (h : Mild s t) : Mild s t.endEvent := h.trans (Calm.endEvent t).mild

theorem Mild.takeRequest (s : State) : Mild s s.takeRequest := by
  unfold State.takeRequest
  split
  · split
    · exact .refl s
    · exact (Calm.inert (t := { s with link := { s.link with requests := _ } })).mild.trans (.carryOut _ _ _)
  · exact .refl s

theorem Mild.refuseAtOnce (s : State) (tag : Byte) (code : BitVec 16) (d : Detail) :
    Mild s (s.refuseAtOnce tag code d) := by
  unfold State.refuseAtOnce
  split
  · exact (Calm.inert (t := s.placeResponse _)).mild
  · exact .refl s

theorem Mild.enrol (s : State) (tag : Byte) (r : Request) : Mild s (s.enrol tag r) := by
  unfold State.enrol
  split
  · exact (Calm.inert (t := s.queueRequest tag r)).mild.trans (.takeRequest _)
  · exact .refuseAtOnce s _ _ _

theorem Mild.request (s : State) (tag : Byte) (r : Request) : Mild s (s.request tag r) := by
  unfold State.request
  split
  · split
    · exact (Mild.enrol s tag r).event
    · exact (Mild.refuseAtOnce s _ _ _).event
  · exact .refl s

theorem Mild.arrive (s : State) (tag : Byte) (body : List Byte) : Mild s (s.arrive tag body) := by
  unfold State.arrive
  split
  · exact (Mild.enrol s tag _).event
  · exact (Mild.refuseAtOnce s _ _ _).event

theorem Mild.receive (bound : Nat) : ∀ (s : State) (bytes : List Byte), Mild s (State.receive bound s bytes) := by
  induction bound with
  | zero => exact fun s bytes => (Calm.inert (t := s.setReceived bytes)).mild
  | succ bound ih =>
    intro s bytes
    unfold State.receive
    split
    · exact (Calm.inert (t := s.setReceived _)).mild
    · exact ih s _
    · exact ((Calm.inert (t := s.setReceived [])).mild.trans (.arrive _ _ _)).trans (ih _ _)

theorem Mild.responseSent (s : State) : Mild s s.responseSent := by
  unfold State.responseSent
  split
  · exact .takeRestart s _
  · exact (Calm.inert (t := s.setInProgress _)).mild
  · exact .refl s
  · exact .refl s

theorem Mild.finishSending (s : State) (x : Sending) : Mild s (s.finishSending x) := by
  cases x with
  | response =>
    unfold State.finishSending
    dsimp only
    split
    · split
      · exact (Calm.inert).mild
      · exact (Calm.inert (t := { s with link := _ })).mild.trans (.responseSent _)
    · exact (Calm.inert).mild
  | notice => exact (Calm.inert).mild
  | chunk image =>
    unfold State.finishSending
    dsimp only
    split <;> exact (Calm.inert).mild

theorem Mild.frameSent (s : State) : Mild s s.frameSent := by
  unfold State.frameSent
  split
  · exact ((Mild.finishSending s _).trans (.takeRequest _)).event
  · exact .refl s

theorem Mild.loseLock (s : State) : Mild s s.loseLock := by
  unfold State.loseLock
  dsimp only
  split
  · exact ((Calm.inert (t := { s with link := _ })).mild.trans (.abortTransaction _)).trans (.takeRestart _ _)
  · exact (Calm.inert (t := { s with link := _ })).mild.trans (.abortTransaction _)

theorem Mild.gainLock (s : State) : Mild s s.gainLock :=
  ((Calm.inert (t := { s with link := { s.link with up := true } })).trans (.queueNotice _ _)).mild

end Sys2Proof.Proofs


/-! PROOFS. The order of the shot queue among fire times within 2^45 µs of a moment, and a shot that enters the
queue (R82, R87). -/

namespace Sys2Proof.Proofs

open Sys2Proof.Machine

/-! ## Near times -/

/-- Within 2^45 µs of a moment (R2). -/
def nearTo (m a : GantryTime) : Prop := (timeDiff a m).natAbs < 2 ^ 45

/-- The signed difference of two near times is that of their differences to the moment. -/
theorem timeDiff_near {m a b : GantryTime} (ha : nearTo m a) (hb : nearTo m b) :
    timeDiff a b = timeDiff a m - timeDiff b m := by
  unfold nearTo timeDiff at *
  have hsub : a - b = (a - m) - (b - m) := by bv_omega
  rw [hsub, BitVec.toInt_sub, Int.bmod_eq_of_le (by omega) (by omega)]

/-- What the order of the queue compares: the fire time as a signed difference to a moment, the opening order,
the shot number (R87). -/
theorem queueBefore_iff {s : State} {m : GantryTime} {a b : ShotRef} (ha : nearTo m (s.fireTimeOf a))
    (hb : nearTo m (s.fireTimeOf b)) : s.queueBefore a b = true
      ↔ timeDiff (s.fireTimeOf a) m < timeDiff (s.fireTimeOf b) m
        ∨ (timeDiff (s.fireTimeOf a) m = timeDiff (s.fireTimeOf b) m
          ∧ (s.openingIndex a.passage < s.openingIndex b.passage
            ∨ (s.openingIndex a.passage = s.openingIndex b.passage ∧ a.shot < b.shot))) := by
  unfold State.queueBefore
  dsimp only
  rw [timeDiff_near ha hb]
  by_cases hlt : timeDiff (s.fireTimeOf a) m - timeDiff (s.fireTimeOf b) m < 0
  · rw [if_pos hlt]; simp; omega
  · rw [if_neg hlt]
    by_cases heq : timeDiff (s.fireTimeOf a) m - timeDiff (s.fireTimeOf b) m = 0
    · rw [if_pos heq]
      by_cases hi : s.openingIndex a.passage < s.openingIndex b.passage
      · rw [if_pos hi]; simp; omega
      · rw [if_neg hi]
        by_cases hj : s.openingIndex a.passage = s.openingIndex b.passage
        · rw [if_pos hj]; simp; omega
        · rw [if_neg hj]; simp; omega
    · rw [if_neg heq]; simp; omega

theorem queueBefore_trans {s : State} {m : GantryTime} {a b c : ShotRef} (ha : nearTo m (s.fireTimeOf a))
    (hb : nearTo m (s.fireTimeOf b)) (hc : nearTo m (s.fireTimeOf c)) (hab : s.queueBefore a b = true)
    (hbc : s.queueBefore b c = true) : s.queueBefore a c = true := by
  rw [queueBefore_iff ha hb] at hab
  rw [queueBefore_iff hb hc] at hbc
  rw [queueBefore_iff ha hc]
  omega

/-- Of two different shots of live passages one comes first. -/
theorem queueBefore_total {s : State} {m : GantryTime} {a b : ShotRef} (ha : nearTo m (s.fireTimeOf a))
    (hb : nearTo m (s.fireTimeOf b)) (hlive : (s.passage? a.passage).isSome = true) (hne : a ≠ b)
    (hnot : ¬ s.queueBefore a b = true) : s.queueBefore b a = true := by
  rw [queueBefore_iff ha hb] at hnot
  rw [queueBefore_iff hb ha]
  by_cases hindex : s.openingIndex a.passage = s.openingIndex b.passage
  · have hpassage : a.passage = b.passage := by
      rw [openingIndex_eq, openingIndex_eq] at hindex
      exact (findIdx_inj ((passage?_isSome s _).1 hlive)).1 hindex
    have hshot : a.shot ≠ b.shot := fun h => hne (by
      obtain ⟨_, _⟩ := a
      obtain ⟨_, _⟩ := b
      simp only at hpassage h
      rw [hpassage, h])
    omega
  · omega

/-! ## A shot inserted -/

theorem insertQueue_perm (s : State) (r : ShotRef) (l : List ShotRef) : (s.insertQueue r l).Perm (r :: l) := by
  induction l with
  | nil => exact .refl _
  | cons q l ih =>
    unfold State.insertQueue
    split
    · exact .refl _
    · exact (ih.cons q).trans (.swap r q l)

/-- A near shot inserted into a queue of near shots in order leaves it in order. -/
theorem insertQueue_inOrder {s : State} {m : GantryTime} {r : ShotRef} (hr : nearTo m (s.fireTimeOf r))
    (hlive : (s.passage? r.passage).isSome = true) (l : List ShotRef) (hrl : r ∉ l)
    (hl : ∀ q ∈ l, nearTo m (s.fireTimeOf q)) (ho : l.Pairwise (fun a b => s.queueBefore a b = true)) :
    (s.insertQueue r l).Pairwise (fun a b => s.queueBefore a b = true) := by
  induction l with
  | nil => exact List.pairwise_singleton _ _
  | cons q l ih =>
    obtain ⟨hq, ho'⟩ := List.pairwise_cons.1 ho
    have hqnear := hl q List.mem_cons_self
    have hlnear : ∀ x ∈ l, nearTo m (s.fireTimeOf x) := fun x hx => hl x (List.mem_cons_of_mem _ hx)
    unfold State.insertQueue
    split
    · rename_i hbefore
      refine List.pairwise_cons.2 ⟨fun x hx => ?_, ho⟩
      rcases List.mem_cons.1 hx with rfl | hx
      · exact hbefore
      · exact queueBefore_trans hr hqnear (hlnear x hx) hbefore (hq x hx)
    · rename_i hnot
      refine List.pairwise_cons.2 ⟨fun x hx => ?_, ih (fun h => hrl (List.mem_cons_of_mem _ h)) hlnear ho'⟩
      rcases List.mem_cons.1 ((insertQueue_perm s r l).mem_iff.1 hx) with rfl | hx
      · exact queueBefore_total hr hqnear hlive (fun h => hrl (h ▸ List.mem_cons_self)) hnot
      · exact hq x hx

/-! ## Timing and placing (R80, R81) -/

/-- A timing looks at a shot's camera, position and reference axle only (R80). -/
theorem timeShot_congr {p q : Passage} {k l : Shot} (b : Bank) (ht : q.track = p.track)
    (hd : q.direction = p.direction) (ha : q.axles = p.axles) (hc : l.camera = k.camera)
    (hpos : l.position = k.position) (hr : l.referenceAxle = k.referenceAxle) :
    q.timeShot b l = p.timeShot b k := by
  unfold Passage.timeShot Passage.spacingSum
  simp only [ht, hd, ha, hc, hpos, hr]

theorem placeByLead_late (lead : Int) (tolerance : Nat) :
    placeByLead lead tolerance = .late ↔ lead < -(tolerance : Int) := by
  unfold placeByLead freezeWindow
  split
  · simp; omega
  · split
    · simp; omega
    · split
      · simp; omega
      · simp; omega

/-- A fire time half the range ahead places a shot PLANNED (R81). -/
theorem placeByLead_far {lead : Int} (tolerance : Nat) (h : 2 ^ 45 ≤ lead) :
    placeByLead lead tolerance = .planned := by
  unfold placeByLead freezeWindow
  rw [if_pos (by omega)]

/-- A shot of a passage that timing and placing queue at this fire time (R80, R81). -/
structure TimedAt (s : State) (p : Passage) (k : Shot) (f : GantryTime) : Prop where
  fire : (p.timeShot (s.bank p.bank) k).fireTime = some f
  lead : -((s.trackEntry p).lateTolerance.toNat : Int) ≤ timeDiff f s.now
  placing : (s.timeShot p k).2 = placeByLead (timeDiff f s.now) (s.trackEntry p).lateTolerance.toNat
  notLate : (s.timeShot p k).2 ≠ .late
  planned : (s.timeShot p k).1.plannedFire = some f
  state : (s.timeShot p k).1.state = (s.timeShot p k).2.state

/-- A shot timed and placed (R80, R81): LATE, or queued. -/
theorem timeShot_cases (s : State) (p : Passage) (k : Shot) :
    ((s.timeShot p k).2 = .late ∧ (s.timeShot p k).1.state = .late
      ∧ ∀ f, (p.timeShot (s.bank p.bank) k).fireTime = some f → timeDiff f s.now < 0)
    ∨ ∃ f, TimedAt s p k f := by
  cases hf : (p.timeShot (s.bank p.bank) k).fireTime with
  | none =>
    have hnone : s.timeShot p k
        = ({ k with timing := some (p.timeShot (s.bank p.bank) k).record, state := .late }, .late) := by
      unfold State.timeShot Shot.timed; rw [hf]
    exact .inl ⟨by rw [hnone], by rw [hnone], fun _ h => nomatch h⟩
  | some f =>
    have hsome : s.timeShot p k = ({ k with
        timing := some (p.timeShot (s.bank p.bank) k).record
        plannedFire := some f
        state := (placeByLead (timeDiff f s.now) (s.trackEntry p).lateTolerance.toNat).state
        lateness := if placeByLead (timeDiff f s.now) (s.trackEntry p).lateTolerance.toNat = .late
          then (s.trackEntry p).lateTolerance.toNat else k.lateness },
        placeByLead (timeDiff f s.now) (s.trackEntry p).lateTolerance.toNat) := by
      unfold State.timeShot Shot.timed; rw [hf]
    by_cases hlate : placeByLead (timeDiff f s.now) (s.trackEntry p).lateTolerance.toNat = .late
    · refine .inl ⟨by rw [hsome]; exact hlate, by rw [hsome]; dsimp only; rw [hlate]; rfl, fun g hg => ?_⟩
      cases hg
      have := (placeByLead_late _ _).1 hlate
      omega
    · refine .inr ⟨f, ⟨hf, Int.not_lt.1 (fun h => hlate ((placeByLead_late _ _).2 h)), ?_, ?_, ?_, ?_⟩⟩
      · rw [hsome]
      · rw [hsome]; exact hlate
      · rw [hsome]
      · rw [hsome]

/-- A timing leaves what it looks at. -/
theorem timeShot_fields (s : State) (p : Passage) (k : Shot) : (s.timeShot p k).1.camera = k.camera
    ∧ (s.timeShot p k).1.position = k.position ∧ (s.timeShot p k).1.referenceAxle = k.referenceAxle := by
  unfold State.timeShot Shot.timed
  cases (p.timeShot (s.bank p.bank) k).fireTime with
  | none => exact ⟨rfl, rfl, rfl⟩
  | some f => exact ⟨rfl, rfl, rfl⟩

end Sys2Proof.Proofs


/-! PROOFS. What making and re-timing shots leave of the shot queue: it is in order, or a shot with a fire time half
the range ahead is in it, which stays (R82, R83, R87). -/

namespace Sys2Proof.Proofs

open Sys2Proof.Machine

/-! ## What a timing rests on -/

/-- A passage's record as far as timing goes. -/
structure SameFigures (p q : Passage) : Prop where
  track : q.track = p.track
  direction : q.direction = p.direction
  bank : q.bank = p.bank
  axles : q.axles = p.axles
  isOpen : q.isOpen = p.isOpen

theorem SameFigures.refl (p : Passage) : SameFigures p p := ⟨rfl, rfl, rfl, rfl, rfl⟩

theorem SameFigures.trans {p q r : Passage} (h : SameFigures p q) (k : SameFigures q r) : SameFigures p r :=
  ⟨k.track.trans h.track, k.direction.trans h.direction, k.bank.trans h.bank, k.axles.trans h.axles,
    k.isOpen.trans h.isOpen⟩

/-- What the timings of shots rest on is the same. -/
structure Figures (s t : State) : Prop where
  clock : t.clock = s.clock
  banks : t.banks = s.banks
  passages : ∀ n p, s.passage? n = some p → ∃ q, t.passage? n = some q ∧ SameFigures p q

theorem Figures.trans {s t u : State} (h : Figures s t) (k : Figures t u) : Figures s u :=
  ⟨k.clock.trans h.clock, k.banks.trans h.banks, fun n p hp => by
    obtain ⟨q, hq, hpq⟩ := h.passages n p hp
    obtain ⟨r, hr, hqr⟩ := k.passages n q hq
    exact ⟨r, hr, hpq.trans hqr⟩⟩

theorem Figures.of_works {s t : State} (h : Works s t) : Figures s t :=
  ⟨h.clock, h.banks, fun _ p hp => by
    obtain ⟨q, hq, hw⟩ := h.passage? hp
    exact ⟨q, hq, hw.track, hw.direction, hw.bank, hw.axles, hw.isOpen⟩⟩

theorem Figures.modifyPassage (s : State) (n : Nat) {f : Passage → Passage}
    (hn : ∀ p, (f p).number = p.number) (hf : ∀ p, SameFigures p (f p)) : Figures s (s.modifyPassage n f) :=
  ⟨rfl, rfl, fun m p hp => by
    refine ⟨_, (passage?_modify s n m f hn).trans (by rw [hp]; rfl), ?_⟩
    dsimp only
    split
    · exact hf p
    · exact .refl p⟩

theorem Figures.of_table {s t : State} (hc : t.clock = s.clock) (hb : t.banks = s.banks)
    (ht : t.table = s.table) : Figures s t :=
  ⟨hc, hb, fun n p hp => ⟨p, (passage?_of_table ht n).trans hp, .refl p⟩⟩

/-! ## A shot far ahead -/

/-- A queued PLANNED shot of the latest timing whose fire time lies 2^45 µs ahead or more. -/
structure FarShot (s : State) (r : ShotRef) (p : Passage) (k : Shot) (f : GantryTime) : Prop where
  passage : s.passage? r.passage = some p
  shot : s.shot? r = some k
  queued : r ∈ s.shotQueue
  planned : k.state = .planned
  fire : k.plannedFire = some f
  far : 2 ^ 45 ≤ timeDiff f s.now
  latest : (p.timeShot (s.bank p.bank) k).fireTime = some f

/-- The shot is in the queue and far ahead. -/
def FarAt (s : State) (r : ShotRef) : Prop := ∃ p k f, FarShot s r p k f

/-- A shot that is far stays so while its record and what its timing rests on do. -/
theorem FarAt.congr {s t : State} {r : ShotRef} (h : FarAt s r) (hf : Figures s t) (hq : r ∈ t.shotQueue)
    (hk : ∀ k, s.shot? r = some k → ∃ k', t.shot? r = some k' ∧ SameTiming k k') : FarAt t r := by
  obtain ⟨p, k, f, h⟩ := h
  obtain ⟨q, hq', hpq⟩ := hf.passages _ _ h.passage
  obtain ⟨k', hk', hkk⟩ := hk k h.shot
  refine ⟨q, k', f, hq', hk', hq, hkk.state.trans h.planned, hkk.plannedFire.trans h.fire, ?_, ?_⟩
  · unfold State.now; rw [hf.clock]; exact h.far
  · unfold State.bank
    rw [hf.banks, hpq.bank,
      timeShot_congr _ hpq.track hpq.direction hpq.axles hkk.camera hkk.position hkk.referenceAxle]
    exact h.latest

/-- The queue is in order about the present, or a shot in it is far ahead. -/
def Ordered (s : State) : Prop := (∃ r, FarAt s r) ∨ (s.queueNear s.now ∧ s.queueInOrder)

/-! ## What holds while an event makes shots -/

/-- The passage is open, the readout and the passages that are over hold no shot to fire, and the queue is that of
the shots to fire. -/
structure Making (n : Nat) (s : State) : Prop where
  isOpen : ∃ p, s.passage? n = some p ∧ p.isOpen = true
  aside : Aside s
  holds : QueueHolds s

/-- An operation of an event that makes shots. -/
def Makes (n : Nat) (s t : State) : Prop := Making n s → Making n t ∧ (Ordered s → Ordered t)

theorem Makes.refl (n : Nat) (s : State) : Makes n s s := fun h => ⟨h, id⟩

theorem Makes.trans {n : Nat} {s t u : State} (h : Makes n s t) (k : Makes n t u) : Makes n s u := fun hs =>
  ⟨(k (h hs).1).1, fun ho => (k (h hs).1).2 ((h hs).2 ho)⟩

theorem Makes.foldl {n : Nat} {α : Type} (f : State → α → State) (h : ∀ s a, Makes n s (f s a)) (l : List α)
    (s : State) : Makes n s (l.foldl f s) := by
  induction l generalizing s with
  | nil => exact .refl n s
  | cons a l ih => exact (h s a).trans (ih _)

theorem Figures.isOpen {s t : State} (h : Figures s t) {n : Nat}
    (hs : ∃ p, s.passage? n = some p ∧ p.isOpen = true) : ∃ p, t.passage? n = some p ∧ p.isOpen = true := by
  obtain ⟨p, hp, ho⟩ := hs
  obtain ⟨q, hq, hpq⟩ := h.passages n p hp
  exact ⟨q, hq, hpq.isOpen.trans ho⟩

/-- A shot far ahead that an operation does not end. -/
theorem Steady.far {free : ShotRef → Prop} {s t : State} (h : Steady free s t) (hf : Figures s t) {r : ShotRef}
    (hr : ¬ free r) (hs : FarAt s r) : FarAt t r := by
  have hqueue : r ∈ t.shotQueue := by
    obtain ⟨_, _, _, hfar⟩ := hs
    rw [h.queue]; exact hfar.queued
  obtain ⟨p, k, f, hfar⟩ := hs
  refine FarAt.congr ⟨p, k, f, hfar⟩ hf hqueue (fun l hl => ?_)
  obtain rfl : k = l := Option.some.inj (hfar.shot.symm.trans hl)
  obtain ⟨k', hk', hsame | ⟨-, hfree⟩⟩ := rel_some (h.shots r) hfar.shot
  · exact ⟨k', hk', hsame⟩
  · exact absurd (hfree (.inl hfar.planned)) hr

theorem Steady.near {free : ShotRef → Prop} {s t : State} (h : Steady free s t)
    (ht : ∀ r ∈ t.shotQueue, Proofs.toFire t r) {m : GantryTime} (hs : s.queueNear m) : t.queueNear m := fun r hr => by
  rw [(h.toFire (ht r hr)).2]
  exact hs r (h.queue ▸ hr)

theorem Steady.inOrder {free : ShotRef → Prop} {s t : State} (h : Steady free s t)
    (ht : ∀ r ∈ t.shotQueue, Proofs.toFire t r) (hs : s.queueInOrder) : t.queueInOrder := by
  have hpair : t.shotQueue.Pairwise (fun a b => s.queueBefore a b = true) := h.queue ▸ hs
  exact hpair.imp_of_mem (fun ha hb hab => (h.queueBefore (ht _ ha) (ht _ hb)).trans hab)

/-- An operation that leaves the shots that are to fire. -/
theorem Makes.of_calm {n : Nat} {s t : State} (h : Calm (fun _ => False) s t) (hf : Figures s t) :
    Makes n s t := by
  intro hs
  have hst := h hs.aside
  have hholds := hst.shrinks.queueHolds hs.holds
  have hfires : ∀ r ∈ t.shotQueue, toFire t r := fun r hr => (hholds.exact r).1 hr
  refine ⟨⟨hf.isOpen hs.isOpen, hst.aside hs.aside, hholds⟩, ?_⟩
  rintro (⟨r, hr⟩ | ⟨hnear, hord⟩)
  · exact .inl ⟨r, hst.far hf id hr⟩
  · refine .inr ⟨?_, hst.inOrder hfires hord⟩
    unfold State.now
    rw [hf.clock]
    exact hst.near hfires hnear

/-! ## One shot taken out of the queue -/

/-- A state that differs in the record of one shot, which is not in the queue. -/
structure Replaced (r : ShotRef) (s v : State) : Prop where
  queue : v.shotQueue = s.shotQueue.filter (· != r)
  numbers : v.table.passages.map (·.number) = s.table.passages.map (·.number)
  others : ∀ q, q ≠ r → v.shot? q = s.shot? q
  figures : Figures s v
  aside : Aside v

theorem Replaced.mem {r : ShotRef} {s v : State} (h : Replaced r s v) (q : ShotRef) :
    q ∈ v.shotQueue ↔ q ∈ s.shotQueue ∧ q ≠ r := by
  rw [h.queue, List.mem_filter, bne_iff_ne]

theorem Replaced.toFire_iff {r : ShotRef} {s v : State} (h : Replaced r s v) {q : ShotRef} (hq : q ≠ r) :
    toFire v q ↔ toFire s q := by
  unfold toFire; rw [h.others q hq]

theorem Replaced.fireTimeOf {r : ShotRef} {s v : State} (h : Replaced r s v) {q : ShotRef} (hq : q ≠ r) :
    v.fireTimeOf q = s.fireTimeOf q := by
  unfold State.fireTimeOf; rw [h.others q hq]

theorem Replaced.far {r : ShotRef} {s v : State} (h : Replaced r s v) {q : ShotRef} (hq : q ≠ r)
    (hs : FarAt s q) : FarAt v q := by
  refine hs.congr h.figures ((h.mem q).2 ⟨?_, hq⟩) (fun k hk => ⟨k, (h.others q hq).trans hk, .refl k⟩)
  obtain ⟨_, _, _, hfar⟩ := hs
  exact hfar.queued

theorem Replaced.near {r : ShotRef} {s v : State} (h : Replaced r s v) (hs : s.queueNear s.now) :
    v.queueNear v.now := fun q hq => by
  obtain ⟨hq, hne⟩ := (h.mem q).1 hq
  rw [h.fireTimeOf hne]
  unfold State.now
  rw [h.figures.clock]
  exact hs q hq

theorem Replaced.inOrder {r : ShotRef} {s v : State} (h : Replaced r s v) (hs : s.queueInOrder) :
    v.queueInOrder := by
  have hpair : v.shotQueue.Pairwise (fun a b => s.queueBefore a b = true) := by
    rw [h.queue]; exact List.Pairwise.filter _ hs
  refine hpair.imp_of_mem (fun {a b} ha hb hab => ?_)
  rw [queueBefore_congr (h.fireTimeOf ((h.mem a).1 ha).2) (h.fireTimeOf ((h.mem b).1 hb).2)
    (by rw [openingIndex_congr h.numbers, openingIndex_congr h.numbers])
    (by rw [openingIndex_congr h.numbers, openingIndex_congr h.numbers])]
  exact hab

theorem Replaced.leave (s : State) (r : ShotRef) (ha : Aside s) : Replaced r s (s.leaveShotQueue r) :=
  ⟨rfl, rfl, fun _ _ => rfl, .of_table rfl rfl rfl, leaveShotQueue_aside ha⟩

/-- A shot out of the queue is ended. -/
theorem Replaced.ends {n : Nat} {r : ShotRef} {s v t : State} (hv : Replaced r s v) (h : Steady (· = r) v t)
    (hf : Figures v t) (hr : ¬ toFire t r) (hfar : ¬ FarAt s r) : Makes n s t := by
  intro hs
  have hexact : ∀ q, q ∈ t.shotQueue ↔ toFire t q := fun q => by
    rw [h.queue, hv.mem, hs.holds.exact]
    by_cases hq : q = r
    · subst hq
      exact ⟨fun x => absurd rfl x.2, fun x => absurd x hr⟩
    · rw [← hv.toFire_iff hq]
      exact ⟨fun x => h.toFire_kept x.1 hq, fun x => ⟨(h.toFire x).1, hq⟩⟩
  have hfires : ∀ q ∈ t.shotQueue, toFire t q := fun q hq => (hexact q).1 hq
  refine ⟨⟨(hv.figures.trans hf).isOpen hs.isOpen, h.aside hv.aside, hexact, ?_, ?_⟩, ?_⟩
  · rw [h.queue, hv.queue]; exact hs.holds.once.filter _
  · rw [h.queue, hv.queue]; exact (List.length_filter_le _ _).trans hs.holds.places
  · rintro (⟨q, hq⟩ | ⟨hnear, hord⟩)
    · have hne : q ≠ r := fun x => hfar (x ▸ hq)
      exact .inl ⟨q, h.far hf hne (hv.far hne hq)⟩
    · refine .inr ⟨?_, h.inOrder hfires (hv.inOrder hord)⟩
      have hn := h.near hfires (hv.near hnear)
      unfold State.now at hn ⊢
      rw [hf.clock]
      exact hn

theorem Makes.handOver (n : Nat) (s : State) {r : ShotRef} (hfar : ¬ FarAt s r) : Makes n s (s.handOver r) := by
  intro hs
  obtain ⟨h, hr⟩ := decideShot_ends (s.leaveShotQueue r) r (leaveShotQueue_aside hs.aside)
  exact (Replaced.leave s r hs.aside).ends h (.of_works (Works.decideShot _ r)) hr hfar hs

/-! ## A shot entering the queue (R82) -/

/-- A record of the latest timing that is to be queued: its lead is not below the late tolerance, and PLANNED
where it is far. -/
structure Placed (s : State) (p : Passage) (k : Shot) (f : GantryTime) : Prop where
  pending : pendingShot k
  fire : k.plannedFire = some f
  latest : (p.timeShot (s.bank p.bank) k).fireTime = some f
  soon : -(2 ^ 16 : Int) ≤ timeDiff f s.now
  planned : 2 ^ 45 ≤ timeDiff f s.now → k.state = .planned

theorem fireTimeOf_shot {s : State} {r : ShotRef} {k : Shot} {f : GantryTime} (h : s.shot? r = some k)
    (hf : k.plannedFire = some f) : s.fireTimeOf r = f := by
  unfold State.fireTimeOf
  rw [h]
  dsimp only
  rw [hf]; rfl

/-- A shot that enters the queue. -/
theorem Replaced.joins {n : Nat} {r : ShotRef} {s v : State} {p : Passage} {k : Shot} {f : GantryTime}
    (hv : Replaced r s v) (hp : v.passage? r.passage = some p) (hk : v.shot? r = some k) (h : Placed v p k f)
    (hroom : v.shotQueue.length < 64) (hsame : FarAt s r → 2 ^ 45 ≤ timeDiff f v.now) :
    Makes n s (v.joinShotQueue r) := by
  intro hs
  have hperm : (v.joinShotQueue r).shotQueue.Perm (r :: v.shotQueue) := insertQueue_perm v r v.shotQueue
  have hmem : ∀ q, q ∈ (v.joinShotQueue r).shotQueue ↔ q = r ∨ q ∈ v.shotQueue := fun q => by
    rw [hperm.mem_iff, List.mem_cons]
  have hnot : r ∉ v.shotQueue := fun hr => ((hv.mem r).1 hr).2 rfl
  have hfigures : Figures v (v.joinShotQueue r) := .of_table rfl rfl rfl
  refine ⟨⟨(hv.figures.trans hfigures).isOpen hs.isOpen, ⟨hv.aside.reads, hv.aside.ended⟩, fun q => ?_, ?_, ?_⟩,
    fun ho => ?_⟩
  · rw [hmem]
    change _ ↔ toFire v q
    by_cases hq : q = r
    · subst hq
      exact ⟨fun _ => ⟨k, hk, h.pending⟩, fun _ => .inl rfl⟩
    · rw [hv.mem, hs.holds.exact, hv.toFire_iff hq]
      exact ⟨fun x => x.elim (fun x => absurd x hq) (fun x => x.1), fun x => .inr ⟨x, hq⟩⟩
  · refine hperm.nodup_iff.2 (List.nodup_cons.2 ⟨hnot, ?_⟩)
    rw [hv.queue]; exact hs.holds.once.filter _
  · rw [hperm.length_eq, List.length_cons]; omega
  by_cases hfar : 2 ^ 45 ≤ timeDiff f v.now
  · exact .inl ⟨r, p, k, f, hp, hk, (hmem r).2 (.inl rfl), h.planned hfar, h.fire, hfar, h.latest⟩
  rcases ho with ⟨q, hq⟩ | ⟨hnear, hord⟩
  · have hne : q ≠ r := fun x => hfar (hsame (x ▸ hq))
    have hqv := hv.far hne hq
    refine .inl ⟨q, hqv.congr hfigures ((hmem q).2 (.inr ?_)) (fun l hl => ⟨l, hl, .refl l⟩)⟩
    obtain ⟨_, _, _, hx⟩ := hqv
    exact hx.queued
  · have hrnear : nearTo v.now (v.fireTimeOf r) := by
      rw [fireTimeOf_shot hk h.fire]
      have := h.soon
      unfold nearTo
      omega
    have hvnear := hv.near hnear
    refine .inr ⟨fun q hq => ?_, ?_⟩
    · rcases (hmem q).1 hq with rfl | hq
      · exact hrnear
      · exact hvnear q hq
    · exact insertQueue_inOrder hrnear (by rw [hp]; rfl) _ hnot hvnear (hv.inOrder hord)

/-- A shot in the queue after its placing. -/
theorem Makes.afterPlacing (n : Nat) (s : State) {r : ShotRef} {k : Shot} {x : Placing} (hk : s.shot? r = some k)
    (hx : k.state = x.state) : Makes n s (s.afterPlacing r x) := by
  unfold State.afterPlacing
  split
  · rename_i hdue
    refine .handOver n s ?_
    rintro ⟨_, l, _, hfar⟩
    obtain rfl : k = l := Option.some.inj (hk.symm.trans hfar.shot)
    have hplanned := hfar.planned
    rw [hx, hdue] at hplanned
    cases hplanned
  · exact .refl n s

end Sys2Proof.Proofs


/-! PROOFS. The planner and the matcher leave the shot queue in order, or with a shot far ahead (R63 to R67, R77 to
R83, R87). -/

namespace Sys2Proof.Proofs

open Sys2Proof.Machine

/-! ## A shot made (R78, R82) -/

theorem not_over_of_isOpen {p : Passage} (h : p.isOpen = true) : ¬ isOver p := by
  rcases (Passage.isOpen_iff p).1 h with h | h <;> rintro (h' | h') <;> rw [h] at h' <;> cases h'

/-- A shot appended to the list of an open passage, its number the next one. -/
theorem Replaced.appendShot {s : State} {n : Nat} {p : Passage} (hs : Making n s) (hp : s.passage? n = some p)
    (k : Shot) : Replaced ⟨n, p.shots.length⟩ s (s.appendShot n k)
      ∧ (s.appendShot n k).shot? ⟨n, p.shots.length⟩ = some k
      ∧ (s.appendShot n k).passage? n = some { p with shots := p.shots ++ [k] } := by
  have hpass : ∀ m, (s.appendShot n k).passage? m
      = (s.passage? m).map (fun q => if m = n then { q with shots := q.shots ++ [k] } else q) := fun m =>
    passage?_modify s n m (fun q => { q with shots := q.shots ++ [k] }) (fun _ => rfl)
  have hopen : p.isOpen = true := by
    obtain ⟨q, hq, ho⟩ := hs.isOpen
    obtain rfl := Option.some.inj (hp.symm.trans hq)
    exact ho
  have hnone : s.shot? ⟨n, p.shots.length⟩ = none :=
    (shot?_of_passage? hp _).trans (List.getElem?_eq_none (Nat.le_refl _))
  have hp' : (s.appendShot n k).passage? n = some { p with shots := p.shots ++ [k] } := by
    rw [hpass, hp, Option.map_some, if_pos rfl]
  have hnumbers : (s.appendShot n k).table.passages.map (·.number) = s.table.passages.map (·.number) :=
    modifyPassage_numbers s n (fun _ => rfl)
  have hothers : ∀ q, q ≠ ⟨n, p.shots.length⟩ → (s.appendShot n k).shot? q = s.shot? q := by
    rintro ⟨m, i⟩ hq
    by_cases hm : m = n
    · subst hm
      have hi : i ≠ p.shots.length := fun h => hq (h ▸ rfl)
      rw [shot?_of_passage? hp', shot?_of_passage? hp, List.getElem?_append]
      split
      · rfl
      · rename_i hlt
        rw [List.getElem?_eq_none (by simp; omega), List.getElem?_eq_none (by omega)]
    · unfold State.shot?
      rw [hpass]
      simp [hm]
  refine ⟨⟨?_, hnumbers, hothers, .modifyPassage s n (fun _ => rfl) (fun _ => ⟨rfl, rfl, rfl, rfl, rfl⟩), ?_⟩,
    (shot?_of_passage? hp' _).trans (by simp), hp'⟩
  · refine (List.filter_eq_self.2 (fun q hq => bne_iff_ne.2 (fun h => ?_))).symm
    obtain ⟨l, hl, -⟩ := (hs.holds.exact q).1 hq
    rw [h, hnone] at hl
    cases hl
  · refine hs.aside.replaced (fun h => ?_) (fun _ h => h) hnumbers hothers (fun m q hq ho => ?_)
    · obtain ⟨l, hl, -⟩ := h (by rw [hp]; rfl)
      rw [hnone] at hl
      cases hl
    · by_cases hm : m = n
      · subst hm
        obtain rfl := Option.some.inj (hp'.symm.trans hq)
        exact absurd ho (not_over_of_isOpen hopen)
      · rw [hpass] at hq
        simp only [hm, if_false, Option.map_id'] at hq
        exact ⟨hm, q, hq, ho⟩

/-- A shot that does not exist yet is not in the queue. -/
theorem not_farAt_of_none {s : State} {r : ShotRef} (h : s.shot? r = none) : ¬ FarAt s r := by
  rintro ⟨_, _, _, hfar⟩
  have := hfar.shot
  rw [h] at this
  cases this

/-- A timed and placed record is one that is to be queued. -/
theorem TimedAt.placed {s v : State} {p q : Passage} {k : Shot} {f : GantryTime} (h : TimedAt s p k f)
    (hf : Figures s v) (hpq : SameFigures p q) : Placed v q (s.timeShot p k).1 f := by
  obtain ⟨hcamera, hposition, hreference⟩ := timeShot_fields s p k
  have hnow : v.now = s.now := by unfold State.now; rw [hf.clock]
  have hlead := h.lead
  refine ⟨?_, h.planned, ?_, ?_, fun hfar => ?_⟩
  · have hlate := h.notLate
    unfold pendingShot
    rw [h.state]
    revert hlate
    cases (s.timeShot p k).2 with
    | planned => exact fun _ => .inl rfl
    | frozen => exact fun _ => .inr rfl
    | dueAtOnce => exact fun _ => .inr rfl
    | late => exact fun h => absurd rfl h
  · unfold State.bank
    rw [hf.banks, hpq.bank, timeShot_congr _ hpq.track hpq.direction hpq.axles hcamera hposition hreference]
    exact h.fire
  · rw [hnow]
    have := (s.trackEntry p).lateTolerance.isLt
    omega
  · rw [hnow] at hfar
    rw [h.state, h.placing, placeByLead_far _ hfar]
    rfl

/-- A record that is LATE is not to fire. -/
theorem not_toFire_of_late {s : State} {r : ShotRef} {k : Shot} (hk : s.shot? r = some k)
    (hlate : k.state = .late) : ¬ toFire s r := by
  rintro ⟨l, hl, hpend⟩
  obtain rfl : k = l := Option.some.inj (hk.symm.trans hl)
  exact not_pending_of_terminal (by rw [hlate]; rfl) hpend

/-- A shot placed LATE leaves the queue and is reported to the passage table (R40, R81). -/
theorem Replaced.late {n : Nat} {r : ShotRef} {s v : State} {k : Shot} (hv : Replaced r s v)
    (hk : v.shot? r = some k) (hlate : k.state = .late) (hfar : ¬ FarAt s r) (m : Nat) :
    Makes n s (v.checkSettled m) := by
  have h : Steady (· = r) v (v.checkSettled m) := Calm.checkSettled v m hv.aside
  exact hv.ends h (.of_works (Works.checkSettled v m)) (fun ht => not_toFire_of_late hk hlate (h.toFire ht).1) hfar

theorem Makes.makeShot {s : State} {p : Passage} (hp : s.passage? p.number = some p) (k : Shot) :
    Makes p.number s (s.makeShot p k) := by
  unfold State.makeShot
  split
  swap
  · exact .of_calm (Calm.recordFault s _ _ _ _) (.of_works (Works.recordFault s _ _ _ _))
  dsimp only
  intro hs
  have hnone : s.shot? ⟨p.number, p.shots.length⟩ = none :=
    (shot?_of_passage? hp _).trans (List.getElem?_eq_none (Nat.le_refl _))
  obtain ⟨hv, hk, hp'⟩ := Replaced.appendShot hs hp (s.timeShot p k).1
  have hfar := not_farAt_of_none hnone
  rcases timeShot_cases s p k with ⟨hlate, hstate, -⟩ | ⟨f, htimed⟩
  · rw [if_pos hlate]
    exact hv.late hk hstate hfar _ hs
  rw [if_neg htimed.notLate]
  split
  · rename_i hroom
    refine ((hv.joins hp' hk (htimed.placed hv.figures ⟨rfl, rfl, rfl, rfl, rfl⟩) hroom
      (fun h => absurd h hfar)).trans ?_) hs
    exact .afterPlacing _ _ (k := (s.timeShot p k).1) hk htimed.state
  · obtain ⟨h, hrest⟩ := Ends.skipShot _ _ .queueFull (by rw [hk]; rfl) hv.aside
    exact hv.ends h (.of_works (Works.skipShot _ _ _)) hrest.not_toFire hfar hs

theorem Makes.planCamera (n : Nat) (s : State) (vehicle q reference : Nat) (x : Int) (c : Camera) :
    Makes n s (s.planCamera n vehicle q reference x c) := by
  unfold State.planCamera
  split
  · exact .refl n s
  · rename_i p hp
    dsimp only
    split
    · obtain rfl := passage?_number hp
      exact .makeShot hp _
    · exact .refl n s

theorem Makes.handPantographs (n : Nat) (s : State) (vehicle reference : Nat) (c : Candidate) (e : ProfileEntry) :
    Makes n s (s.handPantographs n vehicle reference c e) :=
  .foldl _ (fun s _ => .foldl _ (fun _ _ => .planCamera n _ _ _ _ _ _) _ s) _ s

/-! ## The matcher's run (R63 to R68) -/

/-- A change of vehicles, cursor and faults. -/
theorem Makes.modifyPassage (n : Nat) (s : State) {f : Passage → Passage} (hn : ∀ p, (f p).number = p.number)
    (hs : ∀ p, (f p).shots = p.shots) (ho : ∀ p, (f p).state = p.state) (hf : ∀ p, SameFigures p (f p)) :
    Makes n s (s.modifyPassage n f) :=
  .of_calm (.modifyPassage_state s n hn hs ho) (.modifyPassage s n hn hf)

theorem Makes.acceptVehicle (s : State) (p : Passage) (c : Candidate) :
    Makes p.number s (s.acceptVehicle p c) :=
  (Makes.modifyPassage p.number s (f := (·.acceptVehicle c ((s.bank p.bank).profiles[c.profile])))
    (fun _ => rfl) (fun _ => rfl) (fun _ => rfl) (fun _ => ⟨rfl, rfl, rfl, rfl, rfl⟩)).trans
    (.handPantographs _ _ _ _ _ _)

theorem unmatchedAxle_same (p : Passage) : p.unmatchedAxle.number = p.number
    ∧ p.unmatchedAxle.shots = p.shots ∧ p.unmatchedAxle.state = p.state ∧ SameFigures p p.unmatchedAxle := by
  unfold Passage.unmatchedAxle
  split <;> exact ⟨rfl, rfl, rfl, rfl, rfl, rfl, rfl, rfl⟩

theorem Makes.runMatcher (bound : Nat) (n : Nat) : ∀ s : State, Makes n s (State.runMatcher bound s n) := by
  induction bound with
  | zero => exact fun s => .refl n s
  | succ bound ih =>
    intro s
    cases hp : s.passage? n with
    | none =>
      unfold State.runMatcher
      rw [hp]
      exact .refl n s
    | some p =>
      obtain rfl := passage?_number hp
      rw [runMatcher_succ bound hp]
      split
      · exact .refl _ s
      split
      · exact .modifyPassage _ s (fun _ => rfl) (fun _ => rfl) (fun _ => rfl) (fun _ => ⟨rfl, rfl, rfl, rfl, rfl⟩)
      split
      · exact .modifyPassage _ s (fun _ => rfl) (fun _ => rfl) (fun _ => rfl) (fun _ => ⟨rfl, rfl, rfl, rfl, rfl⟩)
      cases decideAt (s.bank p.bank) p.axles (p.state = .tail) p.cursor with
      | wait => exact .refl _ s
      | accept c => exact (Makes.acceptVehicle s p c).trans (ih _)
      | unmatched =>
        exact (Makes.modifyPassage p.number s (fun q => (unmatchedAxle_same q).1) (fun q => (unmatchedAxle_same q).2.1)
          (fun q => (unmatchedAxle_same q).2.2.1) (fun q => (unmatchedAxle_same q).2.2.2)).trans (ih _)

theorem Makes.matchPassage (n : Nat) (s : State) : Makes n s (s.matchPassage n) := .runMatcher _ n s

theorem Makes.matchTail (n : Nat) (s : State) : Makes n s (s.matchTail n) :=
  (Makes.matchPassage n s).trans (.modifyPassage n _ (fun _ => rfl) (fun _ => rfl) (fun _ => rfl)
    (fun _ => ⟨rfl, rfl, rfl, rfl, rfl⟩))

/-! ## Re-timing (R83) -/

/-- A queued shot taken out of the queue, its record changed. -/
theorem Replaced.retimed {s : State} {r : ShotRef} {k l : Shot} (ha : Aside s) (hk : s.shot? r = some k)
    (hplanned : k.state = .planned) : Replaced r s ((s.leaveShotQueue r).modifyShot r (fun _ => l))
      ∧ ((s.leaveShotQueue r).modifyShot r (fun _ => l)).shot? r = some l := by
  have hshot : ∀ q, ((s.leaveShotQueue r).modifyShot r (fun _ => l)).shot? q
      = (s.shot? q).map (fun k => if q = r then l else k) := fun q => shot?_modifyShot _ r q _
  refine ⟨⟨rfl, modifyPassage_numbers _ _ (fun _ => rfl), fun q hq => ?_, ?_, ?_⟩, ?_⟩
  · rw [hshot]; simp [hq]
  · exact (Figures.of_table (s := s) (t := s.leaveShotQueue r) rfl rfl rfl).trans
      (.modifyPassage _ r.passage (f := fun p => p.modifyShot r.shot (fun _ => l)) (fun _ => rfl)
        (fun _ => ⟨rfl, rfl, rfl, rfl, rfl⟩))
  · exact ha.modifyShot (f := fun _ => l) ⟨k, hk, .inl hplanned⟩ rfl (fun _ h => h)
  · rw [hshot, hk, Option.map_some, if_pos rfl]

theorem Makes.retimeShot (n : Nat) (s : State) (r : ShotRef) : Makes n s (s.retimeShot r) := by
  unfold State.retimeShot
  split
  swap
  · exact .refl n s
  rename_i p k hp hk
  split
  swap
  · exact .refl n s
  rename_i hst
  dsimp only
  intro hs
  obtain ⟨hv, hl⟩ := Replaced.retimed (l := (s.timeShot p k).1) hs.aside hk hst
  have hfarFire : FarAt s r → ∃ f, (p.timeShot (s.bank p.bank) k).fireTime = some f ∧ 2 ^ 45 ≤ timeDiff f s.now := by
    rintro ⟨q, m, f, hfar⟩
    obtain rfl : p = q := Option.some.inj (hp.symm.trans hfar.passage)
    obtain rfl : k = m := Option.some.inj (hk.symm.trans hfar.shot)
    exact ⟨f, hfar.latest, hfar.far⟩
  rcases timeShot_cases s p k with ⟨hlate, hstate, hlead⟩ | ⟨f, htimed⟩
  · rw [if_pos hlate]
    refine hv.late hl hstate (fun h => ?_) _ hs
    obtain ⟨f, hf, hfar⟩ := hfarFire h
    have := hlead f hf
    omega
  rw [if_neg htimed.notLate]
  obtain ⟨q, hq, hpq⟩ := hv.figures.passages _ p hp
  have hmem : r ∈ s.shotQueue := (hs.holds.exact r).2 ⟨k, hk, .inl hst⟩
  have hroom : ((s.leaveShotQueue r).modifyShot r (fun _ => (s.timeShot p k).1)).shotQueue.length < 64 := by
    rw [hv.queue]
    exact Nat.lt_of_lt_of_le (List.length_filter_lt_length_iff_exists.2 ⟨r, hmem, by simp⟩) hs.holds.places
  refine ((hv.joins hq hl (htimed.placed hv.figures hpq) hroom (fun h => ?_)).trans
    (.afterPlacing _ _ (k := (s.timeShot p k).1) hl htimed.state)) hs
  obtain ⟨g, hg, hfar⟩ := hfarFire h
  obtain rfl : f = g := Option.some.inj (htimed.fire.symm.trans hg)
  exact hfar

theorem Makes.retimeAll (n : Nat) (s : State) : Makes n s (s.retimeAll n) := by
  unfold State.retimeAll
  split
  · exact .refl n s
  · exact .foldl _ (fun q _ => .retimeShot n q _) _ s

end Sys2Proof.Proofs


/-! PROOFS. Every step leaves the shot queue holding the shots to fire, and in its order (R87). -/

namespace Sys2Proof.Proofs

open Sys2Proof.Machine

/-! ## One command -/

/-- What a command makes of the shot queue. -/
def Orderly (s t : State) : Prop := Aside s → QueueHolds s → Aside t ∧ QueueHolds t
  ∧ (s.queueInOrder → s.queueNear s.now → t.queueNear s.now → t.queueInOrder)

theorem Mild.orderly {s t : State} (h : Mild s t) : Orderly s t := fun ha hq =>
  ⟨(h ha).1, (h ha).2.queueHolds hq, fun ho _ _ => (h ha).2.inOrder hq ho⟩

/-- What follows the shots made leaves the queue. -/
theorem Orderly.then {s t u : State} (h : Orderly s t) (k : Calm (fun _ => False) t u) : Orderly s u := by
  intro ha hq
  obtain ⟨hat, hqt, hot⟩ := h ha hq
  have hst := k hat
  have hqu := hst.shrinks.queueHolds hqt
  refine ⟨hst.aside hat, hqu, fun ho hn hnu => hst.inOrder (fun r hr => (hqu.exact r).1 hr)
    (hot ho hn (fun r hr => ?_))⟩
  have hr' : r ∈ u.shotQueue := by rw [hst.queue]; exact hr
  rw [← (hst.toFire ((hqu.exact r).1 hr')).2]
  exact hnu r hr'

/-- An event that makes shots for an open passage: a shot far ahead in the queue would not be near after it. -/
theorem Orderly.of_makes {n : Nat} {s t u : State} (h : Calm (fun _ => False) s t) (hct : t.clock = s.clock)
    (hopen : ∃ p, t.passage? n = some p ∧ p.isOpen = true) (k : Makes n t u) (hcu : u.clock = t.clock) :
    Orderly s u := by
  intro ha hq
  have hst := h ha
  have hqt := hst.shrinks.queueHolds hq
  have hfires : ∀ r ∈ t.shotQueue, toFire t r := fun r hr => (hqt.exact r).1 hr
  obtain ⟨hu, hord⟩ := k ⟨hopen, hst.aside ha, hqt⟩
  refine ⟨hu.aside, hu.holds, fun ho hn hnu => ?_⟩
  have hnow : u.now = s.now := by unfold State.now; rw [hcu, hct]
  have hnear : t.queueNear t.now := by
    unfold State.now
    rw [hct]
    exact hst.near hfires hn
  rcases hord (.inr ⟨hnear, hst.inOrder hfires ho⟩) with ⟨r, p, l, f, hfar⟩ | ⟨-, hin⟩
  · have hlt := hnu r hfar.queued
    have hge := hfar.far
    rw [fireTimeOf_shot hfar.shot hfar.fire] at hlt
    rw [hnow] at hge
    omega
  · exact hin

/-! ## Crossings and tails (R8, R34) -/

theorem receiveAxle_same (p : Passage) (a : Axle) : (p.receiveAxle a).number = p.number
    ∧ (p.receiveAxle a).shots = p.shots ∧ (p.isOpen = true → (p.receiveAxle a).isOpen = true)
    ∧ (isOver (p.receiveAxle a) → isOver p) := by
  unfold Passage.receiveAxle
  dsimp only
  rw [takeAxle_eq]
  unfold isOver
  cases a.speedValid <;> by_cases ht : p.state = .tail
  all_goals simp [ht, Passage.recordFault, Passage.reopen, Passage.isOpen]

theorem Calm.receiveAxle (s : State) (n : Nat) (a : Axle) :
    Calm (fun _ => False) s ((s.modifyPassage n (·.receiveAxle a)).startTailWindow n) :=
  (Calm.modifyPassage s n (fun p => (receiveAxle_same p a).1) (fun p => (receiveAxle_same p a).2.1)
    (fun p _ h => .inl ((receiveAxle_same p a).2.2.2 h))).trans (.startTailWindow _ n)

theorem startTailWindow_isOpen {s : State} {n : Nat} (h : ∃ p, s.passage? n = some p ∧ p.isOpen = true) :
    ∃ p, (s.startTailWindow n).passage? n = some p ∧ p.isOpen = true := by
  obtain ⟨p, hp, ho⟩ := h
  obtain ⟨q, hq, hpq⟩ := forall₂_find (fun _ _ h => h.number) (Keeps.startTailWindow s n).passages n hp
  exact ⟨q, hq, hpq.isOpen.trans ho⟩

/-- An axle handed over (R31, R32). -/
theorem Orderly.handAxle {s : State} {p : Passage} (hp : s.passage? p.number = some p) (ho : p.isOpen = true)
    (a : Axle) : Orderly s (s.handAxle p a) := by
  have hcalm := Calm.receiveAxle s p.number a
  have hclock : ((s.modifyPassage p.number (·.receiveAxle a)).startTailWindow p.number).clock = s.clock :=
    (Keeps.startTailWindow _ p.number).clock
  have hopen := startTailWindow_isOpen ⟨_, passage?_modifyPassage (f := (·.receiveAxle a))
    (fun p => (receiveAxle_same p a).1) hp, (receiveAxle_same p a).2.2.1 ho⟩
  unfold State.handAxle
  dsimp only
  split
  · exact .of_makes hcalm hclock hopen ((Makes.matchPassage _ _).trans (.retimeAll _ _))
      ((Works.retimeAll _ _).clock.trans (Works.matchPassage _ _).clock)
  · exact hcalm.mild.orderly

/-- A change of a track's monitor before an operation. -/
theorem Orderly.after_setTrack {s : State} {t : Track} {m : TrackMonitor} {u : State}
    (h : Orderly (s.setTrack t m) u) : Orderly s u := fun ha hq => h ⟨ha.reads, ha.ended⟩ ⟨hq.exact, hq.once, hq.places⟩

/-- A command taken off the queue before its effect. -/
theorem Orderly.of_pending {s : State} {rest : List Instr} {u : State}
    (h : Orderly { s with pending := rest } u) : Orderly s u := fun ha hq =>
  h ⟨ha.reads, ha.ended⟩ ⟨hq.exact, hq.once, hq.places⟩

theorem Orderly.pairCrossing {s : State} (t : Track) {p : Passage} (side : Side)
    (hp : s.passage? p.number = some p) (ho : p.isOpen = true) : Orderly s (s.pairCrossing t p side) := by
  unfold State.pairCrossing
  dsimp only
  split
  · exact (Calm.recordFault s _ _ _ _).mild.orderly
  · exact .after_setTrack (.handAxle (s := s.setTrack t _) hp ho _)

theorem Orderly.crossing {s : State} (t : Track) (h : Head) (hn : s.numbered)
    (hlive : ∀ r, readRef s r → (s.passage? r.passage).isSome = true) : Orderly s (s.crossing t h) := by
  unfold State.crossing
  split
  · exact (Mild.refl s).orderly
  · exact (Mild.refl s).orderly
  · exact (Calm.trackTo s t _).mild.orderly
  · split
    · exact (Mild.askOpening s t _ hlive).orderly
    · exact (Calm.queueNotice s _).mild.orderly
  · split
    · rename_i p hp
      obtain ⟨hmem, -, hopen⟩ := openPassageOn_spec hp
      unfold State.routeCrossing
      split
      · split
        · exact (Calm.pushCrossing s t p _).mild.orderly
        · exact .pairCrossing t _ (passage?_of_mem hn hmem) hopen
      · split
        · exact (Calm.exitCrossing s _).mild.orderly
        · exact (Mild.refl s).orderly
    · exact (Mild.refl s).orderly

/-- The tail declaration (R34). -/
theorem Orderly.declareTail {s : State} {p : Passage} (hp : s.passage? p.number = some p) :
    Orderly s (s.declareTail p) := by
  have hcalm : Calm (fun _ => False) s
      (s.modifyPassage p.number (·.enterTail s.now (s.after (s.trackEntry p).exitTimeout.toNat))) :=
    .modifyPassage s _ (fun _ => rfl) (fun _ => rfl) (fun _ _ h => absurd h (by rintro (h | h) <;> cases h))
  have hopen := passage?_modifyPassage (f := (·.enterTail s.now (s.after (s.trackEntry p).exitTimeout.toNat)))
    (fun _ => rfl) hp
  exact (Orderly.of_makes hcalm rfl ⟨_, hopen, rfl⟩ (.matchTail _ _) (Works.matchTail _ _).clock).then
    (.checkCleared _ _)

/-! ## All commands -/

/-- A command in the form it takes when it reaches its effect or leaves the state alone. -/
theorem Orderly.ite {s t v : State} {c : Prop} [Decidable c] (h : c → Orderly s t)
    (hv : (if c then (.next t : Host.Outcome State Fault Refusal) else .next s) = .next v) : Orderly s v := by
  split at hv
  · cases hv; exact h (by assumption)
  · cases hv; exact (Mild.refl s).orderly

theorem Orderly.unless {s t v : State} {c : Prop} [Decidable c] (h : ¬ c → Orderly s t)
    (hv : (if c then (.next s : Host.Outcome State Fault Refusal) else .next t) = .next v) : Orderly s v := by
  split at hv
  · cases hv; exact (Mild.refl s).orderly
  · cases hv; exact h (by assumption)

theorem Mild.inert {s t : State} (ht : t.table = s.table := by rfl) (hq : t.shotQueue = s.shotQueue := by rfl)
    (hr : t.readout = s.readout := by rfl) (hl : t.lines = s.lines := by rfl) : Mild s t :=
  (Calm.inert ht hq hr hl).mild

/-- The answer to an order, or its timeout. -/
theorem Orderly.endOrder (s : State) (c : Camera) (out : Outstanding) (act : State → State)
    (h : ∀ q, Calm (fun _ => False) q (act q)) : Orderly s (s.endOrder c out act).endEvent :=
  ((Calm.endOrder s c out act h).mild.event).orderly

/-- Every command leaves the shot queue holding the shots to fire, and in its order. -/
theorem exec_orderly {c : Instr} {s t : State} (hn : s.numbered)
    (hlive : ∀ r, readRef s r → (s.passage? r.passage).isSome = true) (h : exec c s = .next t) : Orderly s t := by
  cases c with
  | powerUp levels => cases h; exact (Mild.emptied rfl rfl).orderly
  | crossing k head => cases h; exact (Orderly.crossing k head hn hlive).then (.endEvent _)
  | headFault k head =>
    exact .unless (fun _ => (((Mild.inert (t := s.setHealth k head .fault)).trans
      (.actOnFault _ k)).event).orderly) h
  | headHealthy k head =>
    exact .unless (fun _ => (((Mild.inert (t := s.setHealth k head .healthy)).trans
      (.actOnRecovery _ k)).event).orderly) h
  | quietTimerExpiry k => exact .ite (fun _ => ((Calm.trackTo s k _).mild.event).orderly) h
  | pairTimeout k side => exact .ite (fun _ => ((Calm.expirePair s k side).mild.event).orderly) h
  | tailWindowExpiry n =>
    change execTailWindowExpiry n s = .next t at h
    unfold execTailWindowExpiry at h
    split at h
    · rename_i p hp
      refine .ite (fun _ => (Orderly.declareTail ?_).then (.endEvent _)) h
      rw [passage?_number hp]; exact hp
    · cases h; exact (Mild.refl s).orderly
  | exitTimeout n =>
    change execExitTimeout n s = .next t at h
    unfold execExitTimeout at h
    split at h
    · exact .ite (fun _ => ((Calm.clearShort s _).mild.event).orderly) h
    · cases h; exact (Mild.refl s).orderly
  | shotFreeze n k => exact .ite (fun hd => ((Mild.freeze s hd).event).orderly) h
  | shotDue =>
    change execShotDue s = .next t at h
    unfold execShotDue at h
    split at h
    · cases h; exact ((Mild.handOver s _).event).orderly
    · cases h; exact (Mild.refl s).orderly
  | busyIntervalEnd k => exact .ite (fun _ => ((Mild.inert (t := s.setFire k _)).event).orderly) h
  | triggerPulseEnd k => exact .ite (fun _ => ((Mild.inert (t := s.setFire k _)).event).orderly) h
  | flashPulseEnd k => exact .ite (fun _ => ((Mild.inert (t := s.setStrobe k _)).event).orderly) h
  | rechargeExpiry k => exact .ite (fun _ => ((Mild.inert (t := s.setStrobe k _)).event).orderly) h
  | readComplete o segment check outcome flags =>
    change execReadComplete o segment check outcome flags s = .next t at h
    unfold execReadComplete at h
    split at h
    · cases h; exact .endOrder s o.camera _ _ (fun q => .readAnswered q o.camera _ _ _ _ _ _)
    · cases h; exact (Mild.refl s).orderly
  | discardComplete o =>
    change execDiscardComplete o s = .next t at h
    unfold execDiscardComplete at h
    split at h
    · cases h; exact .endOrder s o.camera _ _ (fun q => .discardAnswered q o.camera _)
    · cases h; exact (Mild.refl s).orderly
  | senseComplete o flags a b =>
    change execSenseComplete o flags a b s = .next t at h
    unfold execSenseComplete at h
    split at h
    · cases h; exact .endOrder s o.camera _ _ (fun q => .senseAnswered q o.camera _ _ _)
    · cases h; exact (Mild.refl s).orderly
  | relinkComplete o =>
    change execRelinkComplete o s = .next t at h
    unfold execRelinkComplete at h
    split at h
    · cases h; exact .endOrder s o.camera _ _ (fun q => .relinkAnswered q o.camera)
    · cases h; exact (Mild.refl s).orderly
  | orderTimeout k =>
    change execOrderTimeout k s = .next t at h
    unfold execOrderTimeout at h
    split at h
    · exact .ite (fun _ => .endOrder s k _ _ (fun q => .orderTimedOut q k _)) h
    · cases h; exact (Mild.refl s).orderly
  | lineLockGained => exact .unless (fun _ => ((Mild.gainLock s).event).orderly) h
  | lineLockLost => exact .ite (fun _ => ((Mild.loseLock s).event).orderly) h
  | frameReceived bytes => exact .ite (fun _ => (Mild.receive _ s _).orderly) h
  | frameSent wrong =>
    change execFrameSent wrong s = .next t at h
    unfold execFrameSent at h
    split at h
    · cases h
    · split at h
      · cases h; exact ((Mild.inert (t := s.setMemory _)).trans (.frameSent _)).orderly
      · cases h; exact (Mild.refl s).orderly
  | timeSet tag a => cases h; exact (Mild.request s tag _).orderly
  | timeGet tag => cases h; exact (Mild.request s tag _).orderly
  | trackArm tag a => cases h; exact (Mild.request s tag _).orderly
  | trackDisarm tag a => cases h; exact (Mild.request s tag _).orderly
  | trackStatus tag a => cases h; exact (Mild.request s tag _).orderly
  | listPassages tag => cases h; exact (Mild.request s tag _).orderly
  | readPassage tag a b d => cases h; exact (Mild.request s tag _).orderly
  | releasePassage tag a => cases h; exact (Mild.request s tag _).orderly
  | abandonPassage tag a => cases h; exact (Mild.request s tag _).orderly
  | cameraService tag a b => cases h; exact (Mild.request s tag _).orderly
  | cameraSense tag a => cases h; exact (Mild.request s tag _).orderly
  | memoryStatus tag a => cases h; exact (Mild.request s tag _).orderly
  | pageRetire tag a b => cases h; exact (Mild.request s tag _).orderly
  | pageRestore tag a => cases h; exact (Mild.request s tag _).orderly
  | tableBegin tag => cases h; exact (Mild.request s tag _).orderly
  | tablePut tag a b d => cases h; exact (Mild.request s tag _).orderly
  | tableGet tag a b d => cases h; exact (Mild.request s tag _).orderly
  | tableEnd tag => cases h; exact (Mild.request s tag _).orderly
  | tableAbort tag => cases h; exact (Mild.request s tag _).orderly
  | bankStatus tag => cases h; exact (Mild.request s tag _).orderly
  | identify tag => cases h; exact (Mild.request s tag _).orderly
  | restart tag => cases h; exact (Mild.request s tag _).orderly
  | fetchImage tag a b d e => cases h; exact (Mild.request s tag _).orderly

/-! ## The statement -/

/-- A shot that the readout refers to is HELD or READING, where everything agrees (R111, R119, R120). -/
theorem readRef_shot {s : State} (h : s.agree) {r : ShotRef} (hr : readRef s r) :
    ∃ k, s.shot? r = some k ∧ ¬ pendingShot k := by
  have hstate : ∀ st, s.shotState r = some st → st = .held ∨ st = .reading →
      ∃ k, s.shot? r = some k ∧ ¬ pendingShot k := fun st hst hor => by
    unfold State.shotState at hst
    obtain ⟨k, hk, rfl⟩ := Option.map_eq_some_iff.1 hst
    exact ⟨k, hk, by rintro (h | h) <;> rw [h] at hor <;> rcases hor with hor | hor <;> cases hor⟩
  rcases hr with hr | ⟨ch, w, hw, rfl⟩ | ⟨c, slot, hr⟩
  · exact hstate _ ((h.waiting r).1 hr).1 (.inl rfl)
  · exact hstate _ (h.serves ch w hw) (.inr rfl)
  · obtain ⟨k, hk, -, hor⟩ := h.occupied c slot r hr
    exact ⟨k, hk, by rintro (h | h) <;> rw [h] at hor <;> rcases hor with hor | hor <;> cases hor⟩

theorem aside_of_agree {s : State} (h : s.agree) : Aside s :=
  ⟨fun _ hr _ => readRef_shot h hr, fun n p hp hover k hk => not_pending_of_terminal ((h.settled n p hp).1 hover k hk)⟩

theorem queueHolds_of_agree {s : State} (h : s.agree) : QueueHolds s :=
  ⟨fun r => (h.queued r).trans (toFire_iff s r).symm, h.queuedOnce, h.queuePlaces⟩

/-- Settles O11: no command but a crossing that makes an axle and a tail declaration puts a shot in the queue. Those
insert each shot at its place, or leave one in the queue that is not near. -/
theorem shotQueueStaysInOrder : Obligations.ShotQueueStaysInOrder := by
  unfold Obligations.ShotQueueStaysInOrder
  intro s t hinv _ hagree hstep
  obtain ⟨-, ⟨-, hnumbered, -⟩, -⟩ := hinv
  have hlive : ∀ r, readRef s r → (s.passage? r.passage).isSome = true := fun r hr => by
    obtain ⟨k, hk, -⟩ := readRef_shot hagree hr
    exact live_of_shot hk
  have horderly : Orderly s t := by
    obtain ⟨c, rest, -, h⟩ | ⟨c, -, -, h⟩ | ⟨-, -, rfl⟩ := step_cases hstep
    · exact (exec_orderly (s := { s with pending := rest }) hnumbered hlive h).of_pending
    · exact exec_orderly hnumbered hlive h
    · exact (Mild.inert (t := s.tick)).orderly
  obtain ⟨-, hqueue, horder⟩ := horderly (aside_of_agree hagree) (queueHolds_of_agree hagree)
  exact ⟨fun r => (hqueue.exact r).trans (toFire_iff t r), hqueue.once, hqueue.places, horder⟩

end Sys2Proof.Proofs

/-! PROOFS. Requests of the passage table: LIST PASSAGES, READ PASSAGE (R47 to R52) and RELEASE PASSAGE (R46). -/

namespace Sys2Proof.Proofs

open Sys2Proof.Machine

/-! ## Fields of the records -/

theorem byteOf_eq (n : Nat) : byteOf n = [BitVec.ofNat 8 n] := rfl

theorem optBytes_map {α β : Type} (width : Nat) (f : β → List Byte) (g : α → β) (x : Option α) :
    optBytes width f (x.map g) = optBytes width (fun a => f (g a)) x := by
  cases x <;> rfl

theorem byteOf_toNat (b : Byte) : byteOf b.toNat = [b] := by
  rw [byteOf_eq, BitVec.ofNat_toNat, BitVec.setWidth_eq]

/-- A list of items made from records: its count in one byte, then the items. -/
theorem listBytes_map {α : Type} (f : α → List Byte) (l : List α) :
    listBytes (l.map f) = BitVec.ofNat 8 l.length :: l.flatMap f := by
  unfold listBytes
  rw [List.length_map, byteOf_eq, List.singleton_append, List.flatMap_def]

/-- The first fault and its references as fields that may be absent, then the further faults (R30, R49). -/
theorem faultRecord_encode (f : FaultRecord) :
    f.encode = optBytes 1 (fun x : FirstFault => [BitVec.ofNat 8 x.code.toCode]) f.first
      ++ optBytes 1 (fun i : Nat => [BitVec.ofNat 8 i]) (f.first.bind (·.axle))
      ++ optBytes 1 (fun i : Nat => [BitVec.ofNat 8 i]) (f.first.bind (·.shot))
      ++ [BitVec.ofNat 8 f.further] := by
  unfold FaultRecord.encode faultBytes
  rw [optBytes_map]
  rfl

theorem axle_encode (a : Axle) : a.encode = leBytes 8 a.time.toNat ++ optBytes 4 (leBytes 4) a.speed
    ++ [if a.speedValid then 1 else 0]
    ++ (match a.spacing with
      | .absent => [0, 0, 0, 0, 0, 0]
      | .unknown => [1, 0, 0, 0, 0, 1]
      | .known mm => 1 :: leBytes 4 (BitVec.ofInt 32 mm).toNat ++ [0]) := by
  unfold Axle.encode
  cases a.spacing <;> rfl

theorem vehicle_encode (v : Vehicle) : v.encode = (match v.kind with
      | .matched profile o pantographs => [0, BitVec.ofNat 8 v.firstAxle, BitVec.ofNat 8 v.axleCount,
          BitVec.ofNat 8 profile.val, if o = .forward then 0 else 1, BitVec.ofNat 8 pantographs]
      | .stretch => [1, BitVec.ofNat 8 v.firstAxle, BitVec.ofNat 8 v.axleCount]
      | .remainder => [2, BitVec.ofNat 8 v.firstAxle, BitVec.ofNat 8 v.axleCount]) := by
  unfold Vehicle.encode
  cases v.kind with
  | matched profile o pantographs => cases o <;> rfl
  | stretch => rfl
  | remainder => rfl

/-! ## READ PASSAGE (R47 to R52) -/

theorem readPassage_error {s : State} {n : BitVec 16} {d : Detail} (h : s.namedPassage n = .error d)
    (part start : Byte) : s.readPassage n part start = .refused d := by
  unfold State.readPassage; rw [h]

/-- The parts of READ PASSAGE of a live passage. -/
theorem readPassage_named {s : State} {n : BitVec 16} {p : Passage} (hn : n ≠ 0)
    (hp : s.passage? n.toNat = some p) (part start : Byte) :
    s.readPassage n part start = match part.toNat with
      | 0 => .done p.summary
      | 1 => p.axlesPart start.toNat
      | 2 => p.vehiclesPart
      | 3 => p.shotsPart start.toNat
      | _ => .refused .badArgument := by
  unfold State.readPassage; rw [namedPassage_some hn hp] <;> rfl

/-- The AXLES part (R50). -/
theorem axlesPart_within {p : Passage} {start : Byte} (h : start.toNat ≤ 127) :
    p.axlesPart start.toNat = .done (start :: BitVec.ofNat 8 (min 64 (p.axles.length - start.toNat))
      :: ((p.axles.drop start.toNat).take 64).flatMap (·.encode)) := by
  unfold Passage.axlesPart
  rw [if_neg (Nat.not_lt.2 h), byteOf_toNat, listBytes_map, List.length_take, List.length_drop]
  rfl

/-- The SHOTS part (R52). -/
theorem shotsPart_within {p : Passage} {start : Byte} (h : start.toNat ≤ 47) :
    p.shotsPart start.toNat = .done (start :: BitVec.ofNat 8 (min 8 (p.shots.length - start.toNat))
      :: ((p.shots.zipIdx.drop start.toNat).take 8).flatMap (fun x => x.1.encode x.2)) := by
  unfold Passage.shotsPart
  rw [if_neg (Nat.not_lt.2 h), byteOf_toNat, listBytes_map, List.length_take, List.length_drop,
    List.length_zipIdx]
  rfl

/-- An unknown part, and a start behind the last axle or shot a passage can have, are refused. -/
theorem readPassage_badPart {s : State} {n : BitVec 16} {p : Passage} (hn : n ≠ 0)
    (hp : s.passage? n.toNat = some p) {part start : Byte}
    (h : 3 < part.toNat ∨ (part = 1 ∧ 127 < start.toNat) ∨ (part = 3 ∧ 47 < start.toNat)) :
    s.readPassage n part start = .refused .badArgument := by
  rw [readPassage_named hn hp]
  rcases h with h | ⟨rfl, h⟩ | ⟨rfl, h⟩
  · match part.toNat, h with
    | k + 4, _ => rfl
  · exact if_pos h
  · exact if_pos h

theorem listPassages_answer (s : State) : s.listPassages = ⟨.done, .ok,
    BitVec.ofNat 8 s.table.passages.length :: s.table.passages.flatMap Passage.listEntry⟩ := by
  unfold State.listPassages
  rw [listBytes_map]
  rfl

/-- Settles O23: the fields of each record, then the answers by the number, the part and the start. -/
theorem listAndReadPassages : Obligations.ListAndReadPassages := by
  refine ⟨fun p => ?_, axle_encode, vehicle_encode, fun n k t ht => ?_, fun s tag hr =>
    ⟨?_, fun n part start => ?_⟩⟩
  · unfold Passage.summary
    rw [faultRecord_encode]
    simp only [List.append_assoc]
    rfl
  · unfold Shot.encode Shot.copies
    rw [listBytes_map, listBytes_map, ht, List.map_eq_flatMap (l := k.damaged)]
    simp only [List.append_assoc, List.cons_append]
    rfl
  · refine request_answers (r := .listPassages) hr rfl ?_
    change s.placeAnswer tag 0x0201 s.listPassages = _
    rw [listPassages_answer]
    rfl
  · have run : ∀ a, s.readPassage n part start = a →
        exec (.readPassage tag n part start) s = .next (s.placeAnswer tag 0x0202 a).endEvent := fun a ha =>
      request_answers (r := .readPassage n part start) hr rfl (by rw [← ha]; rfl)
    refine ⟨fun hn => run _ (readPassage_error (by rw [hn]; rfl) _ _),
      fun hn hp => run _ (readPassage_error (namedPassage_none hn hp) _ _), fun p hn hp =>
      have named := readPassage_named hn hp part start
      ⟨fun h => run _ ?_, fun h hs => run _ ?_, fun h => run _ ?_, fun h hs => run _ ?_,
        fun h => run _ (readPassage_badPart hn hp h)⟩⟩
    · rw [named, h]; rfl
    · rw [named, h]; exact axlesPart_within hs
    · rw [named, h]
      change p.vehiclesPart = _
      unfold Passage.vehiclesPart
      rw [listBytes_map]
      rfl
    · rw [named, h]; exact shotsPart_within hs

/-! ## RELEASE PASSAGE (R46, R47) -/

theorem releasePassage_error {s : State} {n : BitVec 16} {d : Detail} (h : s.namedPassage n = .error d) :
    s.releasePassage n = (s, .refused d) := by
  unfold State.releasePassage; rw [h]

/-- RELEASE PASSAGE of a live passage (R46). -/
theorem releasePassage_named {s : State} {n : BitVec 16} {p : Passage} (hn : n ≠ 0)
    (hp : s.passage? n.toNat = some p) :
    s.releasePassage n = if p.state = .filed ∨ p.state = .abandoned then
      ((s.freePages p.allPages).removePassage p.number, .done (leBytes 2 p.allPages.length))
    else (s, .refused .notSettled) := by
  unfold State.releasePassage; rw [namedPassage_some hn hp]

/-- Freeing pages touches frame memory and the notices only. -/
theorem freePages_facts (ks : List Nat) : ∀ s : State,
    SameLines s (s.freePages ks) ∧ (s.freePages ks).readout = s.readout := by
  induction ks with
  | nil => exact fun s => ⟨SameLines.refl s, rfl⟩
  | cons k ks ih =>
    intro s
    obtain ⟨hsame, -, hreadout, -⟩ :=
      queueNotices_facts (s.memory.free k).2 (s.setMemory (s.memory.free k).1)
    obtain ⟨ihsame, ihreadout⟩ := ih (s.freePage k)
    have hset : SameLines s (s.setMemory (s.memory.free k).1) := ⟨⟨rfl, rfl, rfl, rfl, rfl, rfl⟩, rfl, rfl, rfl⟩
    exact ⟨(hset.trans hsame).trans ihsame, ihreadout.trans hreadout⟩

/-- Settles O24: the refusals in their order, then the release of a settled passage. -/
theorem releasePassageRequest : Obligations.ReleasePassageRequest := by
  intro s tag n hr
  have run : ∀ x, s.releasePassage n = x →
      exec (.releasePassage tag n) s = .next (x.1.placeAnswer tag 0x0203 x.2).endEvent := fun x hx =>
    request_answers (r := .releasePassage n) hr rfl (by rw [← hx]; rfl)
  refine ⟨fun hn => run _ (releasePassage_error (by rw [hn]; rfl)),
    fun hn hp => run _ (releasePassage_error (namedPassage_none hn hp)), fun p hn hp hf ha => ?_,
    fun p hn hp hst => ?_⟩
  · exact run _ ((releasePassage_named hn hp).trans (if_neg (not_or.2 ⟨hf, ha⟩)))
  · obtain ⟨⟨⟨hclock, htracks, hfire, hstrobes, hqueue, hbanks⟩, hlines, -, -⟩, hreadout⟩ :=
      freePages_facts p.allPages s
    have htable := freePages_table p.allPages s
    refine ⟨(s.freePages p.allPages).removePassage p.number, 
      run _ ((releasePassage_named hn hp).trans (if_pos hst)), rfl, ?_, ?_, hclock, htracks, hqueue, hfire,
      hstrobes, hlines, hreadout, hbanks⟩
    · change List.filter _ (s.freePages p.allPages).table.passages = _
      rw [htable]
    · change (s.freePages p.allPages).table.nextNumber = _
      rw [htable]

end Sys2Proof.Proofs

/-! PROOFS. FETCH IMAGE (R47, R192, R193) and the settlement check (R40, R41, R45). -/

namespace Sys2Proof.Proofs

open Sys2Proof.Machine

/-! ## FETCH IMAGE (R47, R192, R193) -/

theorem takeFetch_refused {s : State} {n : BitVec 16} {shot first count : Byte} {d : Detail}
    (h : s.fetchChecks n shot first count = .error d) (tag : Byte) :
    s.takeFetch tag n shot first count = s.placeAnswer tag 0x0903 ⟨.refused, d, []⟩ := by
  unfold State.takeFetch; rw [h]; rfl

theorem fetchChecks_unnamed {s : State} {n : BitVec 16} {d : Detail} (h : s.namedPassage n = .error d)
    (shot first count : Byte) : s.fetchChecks n shot first count = .error d := by
  unfold State.fetchChecks; rw [h]

section Named

variable {s : State} {n : BitVec 16} {p : Passage} {shot first count : Byte}

/-- The shot number is out of range (R192). -/
theorem fetchChecks_shotRange (hp : s.namedPassage n = .ok p) (h : 47 < shot.toNat) :
    s.fetchChecks n shot first count = .error .badArgument := by
  unfold State.fetchChecks; rw [hp]; exact if_pos h

/-- The passage has no shot with the number (R192). -/
theorem fetchChecks_noShot (hp : s.namedPassage n = .ok p) (h : shot.toNat ≤ 47)
    (hk : p.shots[shot.toNat]? = none) : s.fetchChecks n shot first count = .error .noSuchShot := by
  unfold State.fetchChecks; rw [hp]
  dsimp only
  rw [if_neg (Nat.not_lt.2 h), hk]

/-- The checks on the segments and the state of a shot that the passage has (R192). -/
theorem fetchChecks_shot {k : Shot} (hp : s.namedPassage n = .ok p) (h : shot.toNat ≤ 47)
    (hk : p.shots[shot.toNat]? = some k) :
    s.fetchChecks n shot first count =
      if 63 < first.toNat ∨ count.toNat < 1 ∨ 64 < count.toNat ∨ 64 < first.toNat + count.toNat then
        .error .badArgument
      else if k.state = .stored ∨ k.state = .partialStored then .ok (⟨p.number, shot.toNat⟩, k)
      else .error .notReady := by
  unfold State.fetchChecks; rw [hp]
  dsimp only
  rw [if_neg (Nat.not_lt.2 h), hk]

end Named

/-- The fetch of a stored shot: DONE OK with what is sent, and in progress unless nothing is (R193). -/
theorem takeFetch_starts {s : State} {n : BitVec 16} {shot first count : Byte} {r : ShotRef} {k : Shot}
    (h : s.fetchChecks n shot first count = .ok (r, k)) (tag : Byte) {segments : Nat}
    (hn : segments = k.segmentsToSend first.toNat count.toNat) {u : State}
    (hu : u = s.placeAnswer tag 0x0903 (.done (k.fetchData r first.toNat segments))) :
    s.takeFetch tag n shot first count
      = if segments = 0 then u else u.setInProgress (.fetch ⟨tag, r, first.toNat, segments, 0, false⟩) := by
  unfold State.takeFetch
  rw [h, hu, hn]

/-- Settles O37: the refusals in the order of the checks, then the stream. -/
theorem fetchImageRequest : Obligations.FetchImageRequest := by
  intro s tag n shot first count hr
  have run : ∀ t, s.takeFetch tag n shot first count = t →
      exec (.fetchImage tag n shot first count) s = .next t.endEvent := fun t ht =>
    request_answers (r := .fetchImage n shot first count) hr rfl ht
  have refuse : ∀ d, s.fetchChecks n shot first count = .error d →
      exec (.fetchImage tag n shot first count) s
        = .next (s.placeAnswer tag 0x0903 ⟨.refused, d, []⟩).endEvent :=
    fun d hd => run _ (takeFetch_refused hd tag)
  refine ⟨fun hn => refuse _ (fetchChecks_unnamed (by rw [hn]; rfl) _ _ _),
    fun hn hp => refuse _ (fetchChecks_unnamed (namedPassage_none hn hp) _ _ _), fun p hn hp => ?_⟩
  have hnamed := namedPassage_some hn hp
  refine ⟨fun h => refuse _ (fetchChecks_shotRange hnamed h),
    fun h hk => refuse _ (fetchChecks_noShot hnamed h hk), fun k h hk => ?_⟩
  have hchecks := fetchChecks_shot (first := first) (count := count) hnamed h hk
  refine ⟨fun hbad => refuse _ (hchecks.trans (if_pos (by omega))), fun hf h0 hsum => ?_⟩
  rw [if_neg (by omega)] at hchecks
  refine ⟨fun hs hp => refuse _ (hchecks.trans (if_neg (not_or.2 ⟨hs, hp⟩))), fun hst segments hseg => ?_⟩
  rw [if_pos hst] at hchecks
  have hdata : s.placeAnswer tag 0x0903 (.done (k.fetchData ⟨p.number, shot.toNat⟩ first.toNat segments))
      = s.placeAnswer tag 0x0903 ⟨.done, .ok,
          leBytes 2 p.number ++ [shot, BitVec.ofNat 8 k.state.toCode, BitVec.ofNat 8 k.segmentsExpected,
            BitVec.ofNat 8 k.segmentsStored, first, BitVec.ofNat 8 segments] ++ leBytes 2 (16 * segments)⟩ := by
    unfold Shot.fetchData shotRefBytes
    rw [byteOf_toNat, byteOf_toNat]
    rfl
  have htake := takeFetch_starts hchecks tag hseg hdata.symm
  exact ⟨_, rfl, fun h0 => run _ (htake.trans (if_pos h0)), fun h0 => run _ (htake.trans (if_neg h0))⟩

/-! ## The settlement check (R40, R41, R45) -/

section Checked

variable {s : State} {n : Nat} {p : Passage}

/-- A settled passage in CLEAR is filed (R40, R41). -/
theorem checkSettled_files (hp : s.passage? n = some p) (hall : p.settled = true) (hst : p.state = .clear) :
    s.checkSettled n
      = (s.modifyPassage n (·.settleAs .filed s.now s.clock.epoch)).queueNotice p.filedNotice := by
  unfold State.checkSettled; rw [hp]; dsimp only; rw [if_pos hall, hst]

/-- A settled passage in STOPPING is ABANDONED (R41, R45). -/
theorem checkSettled_abandons (hp : s.passage? n = some p) (hall : p.settled = true)
    (hst : p.state = .stopping) : s.checkSettled n
      = (s.modifyPassage n (·.settleAs .abandoned s.now s.clock.epoch)).queueNotice p.abandonedNotice := by
  unfold State.checkSettled; rw [hp]; dsimp only; rw [if_pos hall, hst]

/-- A passage that is not settled is left as it is (R40). -/
theorem checkSettled_unsettled (hp : s.passage? n = some p) (hall : p.settled = false) :
    s.checkSettled n = s := by
  unfold State.checkSettled; rw [hp]; dsimp only; rw [if_neg (by rw [hall]; decide)]

/-- In other states than CLEAR and STOPPING nothing is checked (R40, R45). -/
theorem checkSettled_elsewhere (hp : s.passage? n = some p) (hclear : p.state ≠ .clear)
    (hstopping : p.state ≠ .stopping) : s.checkSettled n = s := by
  unfold State.checkSettled; rw [hp]; dsimp only
  split
  · cases hst : p.state with
    | clear => exact absurd hst hclear
    | stopping => exact absurd hst hstopping
    | approaching | tail | filed | abandoned => rfl
  · rfl

end Checked

/-- Settles O46: by the state of a passage whose shots are terminal; any other keeps as it is. -/
theorem settlementCheck : Obligations.SettlementCheck := fun _ _ _ hp =>
  ⟨fun hall => ⟨fun hst => checkSettled_files hp hall hst, fun hst => checkSettled_abandons hp hall hst⟩,
    fun hnot => hnot.elim (fun hopen => checkSettled_unsettled hp hopen)
      (fun hother => checkSettled_elsewhere hp hother.1 hother.2)⟩

end Sys2Proof.Proofs

/-! PROOFS. The figures of chapters 1 to 4: speed band, tail window, timing and placing, candidates and the
decision at the cursor (R33, R55, R59 to R63, R75, R79 to R81). -/

namespace Sys2Proof.Proofs

open Sys2Proof.Machine

/-! ## Speed band, tail window and placing (R33, R75, R81) -/

theorem tailWindowLength_known (distance v : Nat) :
    tailWindowLength distance (some v) = min 10000000 (max 50000 (distance * 1000000 / v)) := rfl

theorem placeByLead_cases (lead : Int) (tolerance : Nat) :
    (2000 ≤ lead → placeByLead lead tolerance = .planned)
      ∧ (0 ≤ lead → lead < 2000 → placeByLead lead tolerance = .frozen)
      ∧ (lead < 0 → -(tolerance : Int) ≤ lead → placeByLead lead tolerance = .dueAtOnce)
      ∧ (lead < -(tolerance : Int) → placeByLead lead tolerance = .late) := by
  unfold placeByLead freezeWindow
  refine ⟨fun h => if_pos h, fun h0 h => ?_, fun h0 h => ?_, fun h => ?_⟩
  · rw [if_neg (by omega), if_pos h0]
  · rw [if_neg (by omega), if_neg (by omega), if_pos h]
  · rw [if_neg (by omega), if_neg (by omega), if_neg (by omega)]

/-! ## The timing of a shot (R79, R80) -/

/-- The exposure entry of a speed's band (R75). -/
theorem exposureOf_band (b : Bank) {v : Nat} {band : Fin 256} (h : band.val = speedBand v) :
    b.exposureOf (speedBand v) = b.exposures[band] := by
  have hband : (⟨min (speedBand v) 255, by omega⟩ : Fin 256) = band :=
    Fin.ext (by dsimp only; omega)
  exact congrArg (fun i : Fin 256 => b.exposures[i]) hband

/-- The plane distance of a passage's direction (R79). -/
theorem planeDistance_eq (t : TrackEntry) (c : CameraEntry) (d : Direction) :
    planeDistance t c d = if d = .ab then t.dA.toNat + c.planeOffset.toInt
      else t.dB.toNat - c.planeOffset.toInt := by
  cases d <;> rfl

/-- A shot timed from an axle with a speed (R75, R79, R80). -/
theorem timeShot_speed {p : Passage} (b : Bank) (k : Shot) {a : Axle} {v : Nat} {band : Fin 256}
    (ha : p.axles.getLast? = some a) (hv : a.speed = some v) (hband : band.val = speedBand v) :
    p.timeShot b k = ⟨⟨p.axles.length - 1, v, speedBand v, (b.exposures[band]).captureAllowed,
        (b.exposures[band]).exposureWidth.toNat, (b.exposures[band]).flashWidth.toNat⟩,
      if 0 < planeDistance b.tracks[p.track] b.cameras[k.camera] p.direction + k.position
          - p.spacingSum k.referenceAxle then
        some (timePlus a.time
          (((planeDistance b.tracks[p.track] b.cameras[k.camera] p.direction + k.position
            - p.spacingSum k.referenceAxle) * 1000000).tdiv v + (b.exposures[band]).trim.toInt))
      else none⟩ := by
  unfold Passage.timeShot
  simp only [ha, Option.bind_some, hv, Option.getD_some, Option.map_some, exposureOf_band b hband]

/-! ## Candidates (R55, R59) -/

/-- The candidates of one profile: forward, and reversed unless the profile is symmetric (R59). -/
theorem mem_profileCandidates {b : Bank} {k : Fin 64} {x : Candidate} :
    x ∈ profileCandidates b k ↔ x.profile = k ∧ (b.profiles[k]).present = true
      ∧ (x.orientation = .forward ∨ (b.profiles[k]).symmetric = false) := by
  obtain ⟨profile, orientation⟩ := x
  unfold profileCandidates
  generalize b.profiles[k] = e
  dsimp only
  cases he : e.present with
  | false => simp
  | true =>
    cases e.symmetric with
    | true => simp
    | false => cases orientation <;> simp

theorem mem_candidates {b : Bank} {x : Candidate} :
    x ∈ b.candidates ↔ (b.profiles[x.profile]).present = true
      ∧ (x.orientation = .forward ∨ (b.profiles[x.profile]).symmetric = false) := by
  unfold Bank.candidates
  simp only [List.mem_flatMap, List.mem_finRange, true_and, mem_profileCandidates]
  constructor
  · rintro ⟨k, rfl, h⟩; exact h
  · exact fun h => ⟨x.profile, rfl, h⟩

/-- One candidate comes before another (R59). -/
def Candidate.before (x y : Candidate) : Prop :=
  x.profile < y.profile
    ∨ (x.profile = y.profile ∧ x.orientation = .forward ∧ y.orientation = .reversed)

theorem profileCandidates_ordered (b : Bank) (k : Fin 64) :
    (profileCandidates b k).Pairwise Candidate.before := by
  unfold profileCandidates
  generalize b.profiles[k] = e
  dsimp only
  cases e.present with
  | false => exact List.Pairwise.nil
  | true =>
    cases e.symmetric with
    | true => exact List.pairwise_singleton _ _
    | false => exact List.pairwise_pair.2 (.inr ⟨rfl, rfl, rfl⟩)

theorem candidates_ordered (b : Bank) : b.candidates.Pairwise Candidate.before := by
  unfold Bank.candidates
  refine List.pairwise_flatMap.2 ⟨fun k _ => profileCandidates_ordered b k, ?_⟩
  refine (List.pairwise_lt_finRange 64).imp (fun {j k} hlt x hx y hy => .inl ?_)
  rw [(mem_profileCandidates.1 hx).1, (mem_profileCandidates.1 hy).1]
  exact hlt

/-! ## Fits (R60 to R62) -/

theorem matches_iff (a : Axle) (expected tolerance : Nat) : a.matches expected tolerance = true ↔
    ∃ mm, a.spacing = .known mm ∧ (mm - (expected : Int)).natAbs ≤ tolerance := by
  unfold Axle.matches
  cases a.spacing with
  | absent | unknown => simp
  | known mm => simp

theorem inGap_iff (a : Axle) (low high : Nat) : a.inGap low high = true ↔
    ∃ mm, a.spacing = .known mm ∧ (low : Int) ≤ mm ∧ mm ≤ high := by
  unfold Axle.inGap
  cases a.spacing with
  | absent | unknown => simp
  | known mm => simp

/-- The internal spacings match: each axle of the vehicle but the first is stored with a spacing within the
tolerance (R62). -/
theorem internalMatch_iff (axles : List Axle) (cursor : Nat) (e : ProfileEntry) (o : Orientation) :
    internalMatch axles cursor e o = true ↔ ∀ j, 1 ≤ j → j < e.axleCount.toNat →
      ∃ a mm, axles[cursor + j]? = some a ∧ a.spacing = .known mm
        ∧ (mm - (e.expected o j : Int)).natAbs ≤ e.tolerance.toNat := by
  have one : ∀ j, (match axles[cursor + j]? with
      | some a => a.matches (e.expected o j) e.tolerance.toNat
      | none => false) = true ↔ ∃ a mm, axles[cursor + j]? = some a ∧ a.spacing = .known mm
        ∧ (mm - (e.expected o j : Int)).natAbs ≤ e.tolerance.toNat := fun j => by
    cases axles[cursor + j]? with
    | none => simp
    | some a => simpa using matches_iff a _ _
  unfold internalMatch
  rw [List.all_eq_true]
  constructor
  · intro h j h1 hj
    have := h (j - 1) (List.mem_range.2 (by unfold ProfileEntry.axles; omega))
    rw [Nat.sub_add_cancel h1] at this
    exact (one j).1 this
  · intro h i hi
    exact (one (i + 1)).2 (h _ (by omega) (by have := List.mem_range.1 hi; unfold ProfileEntry.axles at this; omega))

/-- With the trailing axle stored a candidate is decided by its spacings and the gap behind it (R60, R62). -/
theorem verdict_trailing {axles : List Axle} {cursor : Nat} {e : ProfileEntry} {a : Axle}
    (ha : axles[cursor + e.axleCount.toNat]? = some a) (inTail : Bool) (o : Orientation) :
    verdict axles inTail cursor e o
      = if internalMatch axles cursor e o && a.inGap e.gapMin.toNat e.gapMax.toNat then .fits else .unfit := by
  unfold verdict ProfileEntry.axles
  rw [ha]

/-- Without the trailing axle a candidate is decided in TAIL only, by its spacings and the axle count (R61,
R62). -/
theorem verdict_last {axles : List Axle} {cursor : Nat} {e : ProfileEntry}
    (ha : axles.length ≤ cursor + e.axleCount.toNat) (inTail : Bool) (o : Orientation) :
    verdict axles inTail cursor e o = if inTail then
      if axles.length = cursor + e.axleCount.toNat && internalMatch axles cursor e o then .fits else .unfit
    else .undecidable := by
  unfold verdict ProfileEntry.axles
  rw [List.getElem?_eq_none ha]

theorem fitsIf_iff (c : Bool) :
    (if c then Verdict.fits else .unfit) ≠ .undecidable ∧ ((if c then Verdict.fits else .unfit) = .fits ↔ c = true) := by
  cases c <;> decide

/-! ## The decision at the cursor (R63) -/

/-- What one candidate decides, if it does. -/
def decisionOf (c : Candidate) : Verdict → Option Decision
  | .unfit => none
  | .undecidable => some .wait
  | .fits => some (.accept c)

theorem decideAt_eq (b : Bank) (axles : List Axle) (inTail : Bool) (cursor : Nat) :
    decideAt b axles inTail cursor = (b.candidates.findSome? (fun c =>
      decisionOf c (verdict axles inTail cursor b.profiles[c.profile] c.orientation))).getD .unmatched := rfl

/-- The first candidate that is undecidable or fits decides. -/
theorem decides_first {f : Candidate → Verdict} {before after : List Candidate} {x : Candidate} {d : Decision}
    (hbefore : ∀ y ∈ before, f y = .unfit) (hx : decisionOf x (f x) = some d) :
    ((before ++ x :: after).findSome? (fun c => decisionOf c (f c))).getD .unmatched = d := by
  have hnone : before.findSome? (fun c => decisionOf c (f c)) = none :=
    List.findSome?_eq_none_iff.2 (fun y hy => by rw [hbefore y hy]; rfl)
  rw [List.findSome?_append, hnone, Option.none_or, List.findSome?_cons, hx]
  rfl

/-- Settles O51: figure by figure, then the candidates, when one fits, and the decision. -/
theorem figures : Obligations.Figures := by
  refine ⟨fun v => ⟨Nat.min_le_left _ _, rfl⟩, fun _ => rfl, fun distance v => ?_, placeByLead_cases,
    fun p b k a v plane remaining e band ha hv hband he hplane hremaining => ?_,
    fun b => ⟨candidates_ordered b, fun _ => mem_candidates⟩, fun e n p hn => ?_,
    fun axles inTail cursor n e o inner hn hinner => ?_, fun b axles inTail cursor shows hshows => ?_⟩
  · rw [tailWindowLength_known]
    exact ⟨fun h1 h2 => by omega, fun h => by omega, fun h => by omega⟩
  · have hrem : planeDistance b.tracks[p.track] b.cameras[k.camera] p.direction + k.position
        - p.spacingSum k.referenceAxle = remaining := by
      rw [hremaining, hplane, planeDistance_eq]; rfl
    rw [timeShot_speed b k ha hv hband, hrem, he]
    exact ⟨rfl, fun h => if_neg (by omega), fun h => if_pos h⟩
  · subst hn
    exact ⟨fun j _ _ => ⟨rfl, rfl⟩, rfl, rfl⟩
  · subst hn
    rw [← internalMatch_iff] at hinner
    refine ⟨fun a ha => ?_, fun hlen ht => ?_, fun hlen ht => ?_⟩
    · rw [verdict_trailing ha, hinner, ← inGap_iff, ← Bool.and_eq_true]
      exact fitsIf_iff _
    · rw [verdict_last hlen, ht]; rfl
    · rw [verdict_last hlen, ht, if_pos rfl]
      refine ⟨(fitsIf_iff _).1, (fitsIf_iff _).2.trans ?_⟩
      rw [Bool.and_eq_true, decide_eq_true_iff, hinner, and_comm]
  · simp only [decideAt_eq, ← hshows]
    refine ⟨fun hall => ?_, fun before x after hsplit hbefore => ⟨fun hx => ?_, fun hx => ?_⟩⟩
    · rw [List.findSome?_eq_none_iff.2 (fun y hy => by rw [hall y hy]; rfl)]; rfl
    · rw [hsplit]; exact decides_first hbefore (by rw [hx]; rfl)
    · rw [hsplit]; exact decides_first hbefore (by rw [hx]; rfl)

end Sys2Proof.Proofs


/-! PROOFS. The planner and the matcher file no passage that has not cleared or been abandoned (R40, R67). -/

namespace Sys2Proof.Proofs

open Sys2Proof.Machine

/-! ## Records that an event files only once they are over -/

/-- A record that is neither CLEAR nor STOPPING keeps its state and its settlement. -/
def FiledWhenOver (p q : Passage) : Prop :=
  p.state ≠ .clear → p.state ≠ .stopping → q.state = p.state ∧ q.settle = p.settle

theorem FiledWhenOver.trans {p q r : Passage} (h : FiledWhenOver p q) (k : FiledWhenOver q r) :
    FiledWhenOver p r := fun hc hs => by
  obtain ⟨hstate, hsettle⟩ := h hc hs
  obtain ⟨kstate, ksettle⟩ := k (hstate ▸ hc) (hstate ▸ hs)
  exact ⟨kstate.trans hstate, ksettle.trans hsettle⟩

theorem FiledWhenOver.of_eq {p q : Passage} (h : q.state = p.state) (hs : q.settle = p.settle) :
    FiledWhenOver p q := fun _ _ => ⟨h, hs⟩

/-- The record of every number, where it is in the table, goes on to one that is filed only once it is over. -/
def Filing (s t : State) : Prop := ∀ n p, s.passage? n = some p → ∃ q, t.passage? n = some q ∧ FiledWhenOver p q

theorem Filing.of_table {s t : State} (h : t.table = s.table) : Filing s t := fun n p hp =>
  ⟨p, by unfold State.passage? at *; rw [h]; exact hp, .of_eq rfl rfl⟩

theorem Filing.refl (s : State) : Filing s s := .of_table rfl

theorem Filing.trans {s t u : State} (h : Filing s t) (k : Filing t u) : Filing s u := fun n p hp => by
  obtain ⟨q, hq, hpq⟩ := h n p hp
  obtain ⟨r, hr, hqr⟩ := k n q hq
  exact ⟨r, hr, hpq.trans hqr⟩

theorem Filing.foldl {α : Type} (f : State → α → State) (h : ∀ s a, Filing s (f s a)) (l : List α)
    (s : State) : Filing s (l.foldl f s) := by
  induction l generalizing s with
  | nil => exact .refl s
  | cons a l ih => exact (h s a).trans (ih _)

theorem Filing.modifyPassage {s : State} {n : Nat} {f : Passage → Passage} (hn : ∀ p, (f p).number = p.number)
    (h : ∀ p, s.passage? n = some p → FiledWhenOver p (f p)) : Filing s (s.modifyPassage n f) := fun m p hp => by
  rw [passage?_modify s n m f hn, hp]
  refine ⟨_, rfl, ?_⟩
  split
  · next hm => exact h p (hm ▸ hp)
  · exact .of_eq rfl rfl

/-- An edit that leaves state and settlement. -/
theorem Filing.edit (s : State) (n : Nat) {f : Passage → Passage} (hn : ∀ p, (f p).number = p.number)
    (hs : ∀ p, (f p).state = p.state) (hf : ∀ p, (f p).settle = p.settle) : Filing s (s.modifyPassage n f) :=
  .modifyPassage hn (fun p _ => .of_eq (hs p) (hf p))

theorem Filing.modifyShot (s : State) (r : ShotRef) (f : Shot → Shot) : Filing s (s.modifyShot r f) :=
  .edit s r.passage (fun _ => rfl) (fun _ => rfl) (fun _ => rfl)

theorem Filing.recordFault (s : State) (n : Nat) (c : FaultCode) (a k : Option Nat) :
    Filing s (s.recordFault n c a k) := .edit s n (fun _ => rfl) (fun _ => rfl) (fun _ => rfl)

/-! ## Settling, firing and planning -/

theorem Filing.checkSettled (s : State) (n : Nat) : Filing s (s.checkSettled n) := by
  have settles : ∀ (p : Passage) (st : PassageState) (x : Notice), s.passage? n = some p →
      (p.state = .clear ∨ p.state = .stopping) →
      Filing s ((s.modifyPassage n (·.settleAs st s.now s.clock.epoch)).queueNotice x) := fun p st x hp ho =>
    (Filing.modifyPassage (f := (·.settleAs st s.now s.clock.epoch)) (fun _ => rfl) (fun q hq hc hs => by
      obtain rfl : p = q := Option.some.inj (hp.symm.trans hq)
      exact (ho.elim hc hs).elim)).trans (.of_table (State.queueNotice_table _ x))
  unfold State.checkSettled
  split
  · exact .refl s
  · next p hp =>
    split
    · split
      · next h => exact settles p _ _ hp (.inl h)
      · next h => exact settles p _ _ hp (.inr h)
      all_goals exact .refl s
    · exact .refl s

theorem Filing.skipShot (s : State) (r : ShotRef) (w : SkipReason) : Filing s (s.skipShot r w) :=
  ((Filing.modifyShot s r _).trans (.modifyShot _ r _)).trans (.checkSettled _ _)

theorem Filing.grantOne (s : State) : Filing s s.grantOne := by
  unfold State.grantOne
  split
  · split
    · exact (Filing.modifyShot (s.leaveReadoutQueue _) _ (fun k => { k with state := .reading })).trans
        (.of_table (pendRead_table _ _ _))
    · exact .refl s
  · exact .refl s

theorem Filing.grantAll (s : State) : Filing s s.grantAll :=
  (((Filing.grantOne s).trans (.grantOne _)).trans (.grantOne _)).trans (.grantOne _)

theorem Filing.fireShot (s : State) (r : ShotRef) (b : BankNo) (k : Shot) (o : StrobeOutcome) :
    Filing s (s.fireShot r b k o) := by
  unfold State.fireShot
  dsimp only
  refine Filing.trans ?_ (.grantAll _)
  have hflash : ∀ v : State, v.table = s.table →
      Filing s (((v.modifyShot r (fun q => q.fired v.now o)).openFlash r k o).joinReadoutQueue r) := fun v hv =>
    ((Filing.of_table hv).trans (.modifyShot v r _)).trans (.of_table (openFlash_table _ r k o))
  refine hflash _ ?_
  split <;> rfl

theorem Filing.handOver (s : State) (r : ShotRef) : Filing s (s.handOver r) := by
  refine Filing.trans (t := s.leaveShotQueue r) (.of_table rfl) ?_
  change Filing _ ((s.leaveShotQueue r).decideShot r)
  unfold State.decideShot
  split
  · split
    · exact .skipShot _ r _
    · exact .fireShot _ r _ _ _
  · exact .refl _

theorem Filing.makeShot (s : State) (p : Passage) (k : Shot) : Filing s (s.makeShot p k) := by
  have happend : ∀ k' : Shot, Filing s (s.appendShot p.number k') := fun k' =>
    .edit s _ (fun _ => rfl) (fun _ => rfl) (fun _ => rfl)
  have hplaced : ∀ (v : State) (r : ShotRef) (x : Placing), Filing v (v.afterPlacing r x) := fun v r x => by
    unfold State.afterPlacing
    split
    · exact .handOver v r
    · exact .refl v
  unfold State.makeShot
  split
  · dsimp only
    split
    · exact (happend _).trans (.checkSettled _ _)
    · split
      · exact (happend _).trans (hplaced ((s.appendShot p.number _).joinShotQueue _) _ _)
      · exact (happend _).trans (.skipShot _ _ _)
  · exact .recordFault s _ _ _ _

theorem Filing.planCamera (s : State) (n v q r : Nat) (x : Int) (c : Camera) :
    Filing s (s.planCamera n v q r x c) := by
  unfold State.planCamera
  split
  · exact .refl s
  · dsimp only
    split
    · exact .makeShot s _ _
    · exact .refl s

/-! ## The matcher's run -/

theorem Filing.acceptVehicle (s : State) (p : Passage) (c : Candidate) : Filing s (s.acceptVehicle p c) :=
  (Filing.edit s p.number (f := (·.acceptVehicle c ((s.bank p.bank).profiles[c.profile])))
    (fun _ => rfl) (fun _ => rfl) (fun _ => rfl)).trans
    (.foldl _ (fun q _ => .foldl _ (fun _ _ => .planCamera _ _ _ _ _ _ _) _ q) _ _)

theorem unmatchedAxle_settle (p : Passage) : p.unmatchedAxle.settle = p.settle := by
  unfold Passage.unmatchedAxle
  split <;> rfl

theorem Filing.runMatcher (bound : Nat) (n : Nat) : ∀ s : State, Filing s (State.runMatcher bound s n) := by
  induction bound with
  | zero => exact fun s => .refl s
  | succ bound ih =>
    intro s
    cases hp : s.passage? n with
    | none =>
      unfold State.runMatcher
      rw [hp]
      exact .refl s
    | some p =>
      rw [runMatcher_succ bound hp]
      split
      · exact .refl s
      split
      · exact .edit s n (fun _ => rfl) (fun _ => rfl) (fun _ => rfl)
      split
      · exact .edit s n (fun _ => rfl) (fun _ => rfl) (fun _ => rfl)
      cases decideAt (s.bank p.bank) p.axles (p.state = .tail) p.cursor with
      | wait => exact .refl s
      | accept c => exact (Filing.acceptVehicle s p c).trans (ih _)
      | unmatched =>
        exact (Filing.edit s n (fun q => (unmatchedAxle_same q).1) (fun q => (unmatchedAxle_same q).2.2.1)
          unmatchedAxle_settle).trans (ih _)

theorem Filing.matchPassage (s : State) (n : Nat) : Filing s (s.matchPassage n) := .runMatcher _ n s

end Sys2Proof.Proofs

/-! PROOFS. The tail declaration (R34, R37, R68): the matcher's run in TAIL ends at the last stored axle, and the
passage clears at once by its count. -/

namespace Sys2Proof.Proofs

open Sys2Proof.Machine

/-! ## The matcher's run in TAIL (R61, R63, R68) -/

/-- An accepted candidate fits at the cursor. -/
theorem decideAt_accept_fits {b : Bank} {axles : List Axle} {inTail : Bool} {cursor : Nat} {x : Candidate}
    (h : decideAt b axles inTail cursor = .accept x) :
    verdict axles inTail cursor b.profiles[x.profile] x.orientation = .fits := by
  rw [decideAt_eq] at h
  cases hfound : b.candidates.findSome? (fun c =>
      decisionOf c (verdict axles inTail cursor b.profiles[c.profile] c.orientation)) with
  | none => rw [hfound] at h; cases h
  | some d =>
    rw [hfound] at h
    obtain ⟨c, -, hc⟩ := List.exists_of_findSome?_eq_some hfound
    cases hv : verdict axles inTail cursor b.profiles[c.profile] c.orientation with
    | unfit => rw [hv] at hc; cases hc
    | undecidable => rw [hv] at hc; cases hc; cases h
    | fits => rw [hv] at hc; cases hc; cases h; exact hv

/-- A candidate that fits covers stored axles only. -/
theorem fits_within {axles : List Axle} {inTail : Bool} {cursor : Nat} {e : ProfileEntry} {o : Orientation}
    (h : verdict axles inTail cursor e o = .fits) : cursor + e.axleCount.toNat ≤ axles.length := by
  by_cases hlen : axles.length ≤ cursor + e.axleCount.toNat
  · rw [verdict_last hlen] at h
    split at h
    · have := (fitsIf_iff _).2.1 h
      rw [Bool.and_eq_true, decide_eq_true_iff] at this
      omega
    · cases h
  · omega

/-- In TAIL every candidate is decidable (R61). -/
theorem verdict_tail (axles : List Axle) (cursor : Nat) (e : ProfileEntry) (o : Orientation) :
    verdict axles true cursor e o ≠ .undecidable := by
  cases ha : axles[cursor + e.axleCount.toNat]? with
  | some a => rw [verdict_trailing ha]; exact (fitsIf_iff _).1
  | none => rw [verdict_last (List.getElem?_eq_none_iff.1 ha), if_pos rfl]; exact (fitsIf_iff _).1

/-- In TAIL a run does not wait (R63). -/
theorem decideAt_tail (b : Bank) (axles : List Axle) (cursor : Nat) :
    decideAt b axles true cursor ≠ .wait := by
  intro h
  rw [decideAt_eq] at h
  cases hfound : b.candidates.findSome? (fun c =>
      decisionOf c (verdict axles true cursor b.profiles[c.profile] c.orientation)) with
  | none => rw [hfound] at h; cases h
  | some d =>
    rw [hfound] at h
    obtain ⟨c, -, hc⟩ := List.exists_of_findSome?_eq_some hfound
    cases hv : verdict axles true cursor b.profiles[c.profile] c.orientation with
    | unfit => rw [hv] at hc; cases hc
    | undecidable => exact verdict_tail _ _ _ _ hv
    | fits => rw [hv] at hc; cases hc; cases h

/-- Matching leaves a passage in TAIL there. -/
theorem works_tail {p q : Passage} (h : PassageWorks p q) (hst : p.state = .tail) : q.state = .tail := by
  rcases h.state with h | ⟨h, -⟩ | ⟨h, -⟩
  · exact h.trans hst
  · rw [hst] at h; cases h
  · rw [hst] at h; cases h

theorem unmatchedAxle_state (p : Passage) : p.unmatchedAxle.state = p.state := by
  unfold Passage.unmatchedAxle
  split <;> rfl

theorem acceptVehicle_state {s : State} {p q : Passage} (hp : s.passage? p.number = some p) (c : Candidate)
    (hq : (s.acceptVehicle p c).passage? p.number = some q) (hst : p.state = .tail) : q.state = .tail := by
  have hmod := passage?_modifyPassage (f := (·.acceptVehicle c ((s.bank p.bank).profiles[c.profile])))
    (fun _ => rfl) hp
  obtain ⟨q', hq', hworks⟩ := (Works.handPantographs _ p.number p.vehicles.length p.cursor c
    ((s.bank p.bank).profiles[c.profile])).passage? hmod
  obtain rfl : q' = q := Option.some.inj (hq'.symm.trans hq)
  exact works_tail hworks hst

/-- A run in TAIL takes the cursor to the last stored axle: no step waits, and each but the last advances it
(R63, R68). -/
theorem runMatcher_tail (fuel : Nat) : ∀ (s : State) (n : Nat) (p : Passage), s.passage? n = some p →
    p.state = .tail → p.cursor ≤ p.axles.length → p.axles.length < p.cursor + fuel →
    profilesHaveAxles (s.bank p.bank) →
    ∃ q, (State.runMatcher fuel s n).passage? n = some q ∧ q.cursor = p.axles.length := by
  induction fuel with
  | zero => intro s n p _ _ hle hlt _; omega
  | succ fuel ih =>
    intro s n p hp hst hle hlt hprofiles
    have hn : p.number = n := passage?_number hp
    rw [runMatcher_succ _ hp]
    by_cases hdone : p.axles.length ≤ p.cursor
    · rw [if_pos hdone]; exact ⟨p, hp, by omega⟩
    rw [if_neg hdone]
    by_cases hrem : p.hasRemainder
    · rw [if_pos hrem]
      refine ⟨_, passage?_modifyPassage (f := fun q => q.growLast (q.axles.length - q.cursor)) (fun _ => rfl) hp, ?_⟩
      exact Nat.add_sub_cancel' hle
    rw [if_neg hrem]
    by_cases hfull : matchedVehiclePlaces ≤ p.vehicles.length
    · rw [if_pos hfull]
      exact ⟨_, passage?_modifyPassage (f := (·.startRemainder)) (fun _ => rfl) hp, rfl⟩
    rw [if_neg hfull]
    cases hd : decideAt (s.bank p.bank) p.axles (p.state = .tail) p.cursor with
    | wait => rw [hst] at hd; exact absurd hd (decideAt_tail _ _ _)
    | accept c =>
      have hfits := fits_within (decideAt_accept_fits hd)
      have hsize := hprofiles _ (decideAt_accept_present hd)
      rw [← hn] at hp ⊢
      obtain ⟨q, hq, haxles, hbank, hcursor⟩ := acceptVehicle_record hp c
      unfold ProfileEntry.axles at hcursor
      obtain ⟨r, hr, hend⟩ := ih _ _ q hq (acceptVehicle_state hp c hq hst) (by rw [haxles, hcursor]; exact hfits)
        (by rw [haxles, hcursor]; omega) (by unfold State.bank; rw [hbank, acceptVehicle_banks]; exact hprofiles)
      exact ⟨r, hr, hend.trans (by rw [haxles])⟩
    | unmatched =>
      have hq := passage?_modifyPassage (f := (·.unmatchedAxle)) (fun p => (unmatchedAxle_fields p).1) hp
      obtain ⟨-, haxles, hbank, hcursor⟩ := unmatchedAxle_fields p
      obtain ⟨r, hr, hend⟩ := ih _ _ _ hq ((unmatchedAxle_state p).trans hst)
        (by rw [haxles, hcursor]; omega) (by rw [haxles, hcursor]; omega) (by rw [hbank]; exact hprofiles)
      exact ⟨r, hr, hend.trans (by rw [haxles])⟩

/-! ## The declaration (R34, R37) -/

theorem execTailWindowExpiry_eq {s : State} {p : Passage} (hp : s.passage? p.number = some p) :
    exec (.tailWindowExpiry p.number) s = if p.state = .approaching ∧ s.ended p.tailWindow = true
      then .next (s.declareTail p).endEvent else .next s := by
  change execTailWindowExpiry p.number s = _
  unfold execTailWindowExpiry
  rw [hp]

/-- `LeftOpen` looks at the number and the bank of the record before only. -/
theorem leftOpen_of_record {s u : State} {p x q : Passage} {first : List Notice} (h : LeftOpen s u x q first)
    (hn : x.number = p.number) (hb : x.bank = p.bank) : LeftOpen s u p q first := by
  have hdrains : s.drainsWith x ↔ s.drainsWith p := by
    unfold State.drainsWith
    simp only [hn, hb]
  refine ⟨fun hd => ?_, fun hd => h.kept (fun hx => hd (hdrains.1 hx)), fun drain h1 h2 =>
    h.notices drain (fun hx => ?_) (fun hx => h2 (fun hp => hx (hdrains.2 hp)))⟩
  · simp only [h.drained (hdrains.2 hd), hb]
  · rw [h1 (hdrains.1 hx), hb]

/-- Clearance by count at the tail declaration, in the state the matcher's run has led to (R37). -/
theorem checkCleared_short {s : State} {n : Nat} {p : Passage} (hp : s.passage? n = some p)
    (h : p.exitCount < p.axleTotal) : s.checkCleared n = s := by
  unfold State.checkCleared
  rw [hp]
  exact if_neg (fun hc => by omega)

theorem checkCleared_clears {s : State} {n : Nat} {p : Passage} (hp : s.passage? n = some p)
    (hst : p.state = .tail) (h : p.axleTotal ≤ p.exitCount) : s.checkCleared n = s.clearPassage p .vacant := by
  unfold State.checkCleared
  rw [hp]
  exact if_pos ⟨hst, h⟩

/-- The record of a passage whose stretch is closed (R68). -/
def closeStretch (p : Passage) : Passage := { p with stretchOpen := false }

/-- The tail declaration as its three parts. -/
theorem declareTail_eq (s : State) (p : Passage) :
    s.declareTail p = ((((s.modifyPassage p.number
      (·.enterTail s.clock.time (s.clock.elapsed + (s.trackEntry p).exitTimeout.toNat))).matchPassage
        p.number).modifyPassage p.number closeStretch)).checkCleared p.number := rfl

/-- The state in which a passage has entered TAIL and the matcher has run (R34), and the passage's record r. -/
structure RunInTail (s w : State) (p r : Passage) : Prop where
  keeps : Keeps s w
  record : w.passage? p.number = some r
  works : PassageWorks (p.enterTail s.clock.time (s.clock.elapsed + (s.trackEntry p).exitTimeout.toNat)) r
  state : r.state = .tail
  settle : r.settle = p.settle

theorem runInTail {s : State} {p : Passage} (hp : s.passage? p.number = some p)
    (hst : p.state = .approaching) : ∃ r, RunInTail s ((s.modifyPassage p.number
      (·.enterTail s.clock.time (s.clock.elapsed + (s.trackEntry p).exitTimeout.toNat))).matchPassage
        p.number) p r := by
  have hentered := passage?_modifyPassage
    (f := (·.enterTail s.clock.time (s.clock.elapsed + (s.trackEntry p).exitTimeout.toNat))) (fun _ => rfl) hp
  have hkeeps : Keeps s (s.modifyPassage p.number
      (·.enterTail s.clock.time (s.clock.elapsed + (s.trackEntry p).exitTimeout.toNat))) :=
    Keeps.modifyPassage s _ _ (fun q hq => by
      obtain rfl : p = q := Option.some.inj (hp.symm.trans hq)
      exact Passage.enterTail_keeps (by simp [Passage.isOpen, hst]) _ _)
  obtain ⟨r, hr, hworks⟩ := (Works.matchPassage _ p.number).passage? hentered
  refine ⟨r, hkeeps.trans (Works.matchPassage _ _).toKeeps, hr, hworks, works_tail hworks rfl, ?_⟩
  obtain ⟨q, hq, hfiled⟩ := Filing.matchPassage _ p.number p.number _ hentered
  obtain rfl : r = q := Option.some.inj (hr.symm.trans hq)
  exact (hfiled (by intro h; cases h) (by intro h; cases h)).2

/-- Clearance by count behind a closed stretch: the record, the track, and the bank with its notices. -/
theorem clears_in_tail {w : State} {r : Passage} (hnum : w.numbered) (hr : w.passage? r.number = some r)
    (hst : r.state = .tail) (hocc : w.tracks[r.track].state = .occupied) {u : State}
    (hu : u = (w.modifyPassage r.number closeStretch).clearPassage (closeStretch r) .vacant) :
    u.passage? r.number = some (afterSettlement
        ((closeStretch r).left .clear (some w.clock.time)) w.clock.time w.clock.epoch)
    ∧ (∀ q, u.passage? r.number = some q →
      LeftOpen w u r q [.trackState r.track .occupied .vacant w.tracks[r.track].health]) := by
  have hkeep : ∀ q, (closeStretch q).number = q.number ∧ (closeStretch q).bank = q.bank
      ∧ (closeStretch q).state = q.state ∧ (closeStretch q).track = q.track := fun _ => ⟨rfl, rfl, rfl, rfl⟩
  have hclosed : (w.modifyPassage r.number closeStretch).numbered :=
    (Keeps.modifyPassage w r.number closeStretch (fun q _ =>
      ⟨rfl, rfl, rfl, rfl, rfl, fun h => Passage.sound_of_eq (p := q) rfl rfl rfl rfl h⟩)).numbered hnum
  subst hu
  refine ⟨clearPassage_record (p := closeStretch r) .vacant
    (passage?_modifyPassage (f := closeStretch) (fun _ => rfl) hr), fun q hq => ?_⟩
  have hleft := clearPassage_leftOpen .vacant hkeep hnum hclosed (passage?_mem hr) (.inr hst) hq
  rwa [trackNotice_of_ne hocc (by decide)] at hleft

theorem leave_closed {r : Passage} (h : r.tailWindow = none) (time : Option GantryTime) :
    (closeStretch r).left .clear time
      = { r with stretchOpen := false, state := .clear, clearTime := time, exitTimeout := none } := by
  simp only [Passage.left, closeStretch, h]

/-- Settles O44: the run in TAIL, then clearance by count from the state it has led to. -/
theorem tailDeclaration : Obligations.TailDeclaration := by
  intro s p hinv hp
  have hfound := passage?_of_mem hinv.2.1 hp
  refine ⟨fun hidle => ?_, fun e ends hst hwin hle hends => ?_⟩
  · rw [execTailWindowExpiry_eq hfound, if_neg]
    rintro ⟨happr, hended⟩
    rcases hidle with h | h | ⟨e, he, hlt⟩
    · exact h happr
    · rw [h] at hended; exact not_ended_none s hended
    · rw [he] at hended; exact not_ended_some hlt hended
  subst hends
  obtain ⟨r, hrun⟩ := runInTail hfound hst
  have hexec : exec (.tailWindowExpiry p.number) s = .next (s.declareTail p).endEvent := by
    rw [execTailWindowExpiry_eq hfound, if_pos ⟨hst, by rw [hwin]; exact ended_some hle⟩]
  rw [declareTail_eq] at hexec
  have hcursor : p.axles.length ≤ 128 → p.cursor ≤ p.axles.length →
      profilesHaveAxles (s.bank p.bank) → r.cursor = p.axles.length := fun hlen hcur hprofiles => by
    obtain ⟨r', hr', hend⟩ := runMatcher_tail 129 _ _ _ (passage?_modifyPassage
      (f := (·.enterTail s.clock.time (s.clock.elapsed + (s.trackEntry p).exitTimeout.toNat)))
        (fun _ => rfl) hfound) rfl hcur (show p.axles.length < p.cursor + 129 by omega) hprofiles
    obtain rfl : r' = r := Option.some.inj (hr'.symm.trans hrun.record)
    exact hend
  set w := (s.modifyPassage p.number
    (·.enterTail s.clock.time (s.clock.elapsed + (s.trackEntry p).exitTimeout.toNat))).matchPassage
      p.number with hw
  obtain ⟨hkeeps, hr, hworks, hrst, hsettle⟩ := hrun
  have hnumber : r.number = p.number := hworks.number
  have htrack : r.track = p.track := hworks.track
  have hclosed : (w.modifyPassage p.number closeStretch).passage? p.number = some (closeStretch r) :=
    passage?_modifyPassage (f := closeStretch) (fun _ => rfl) hr
  by_cases hshort : p.exitCount < p.axleTotal
  · rw [checkCleared_short hclosed
      (show r.exitCount < r.axleTotal by rw [hworks.exitCount, hworks.axleTotal]; exact hshort)] at hexec
    exact ⟨w, w.modifyPassage p.number closeStretch, r, closeStretch r, hexec, hw, hr, hclosed, hcursor,
      hkeeps.banks, fun _ => ⟨hkeeps.tracks, rfl, hkeeps.banks, rfl⟩, fun h => absurd hshort (Nat.not_lt.2 h),
      hrst, hworks.tailTime, hworks.tailWindow, hworks.exitTimeout, hworks.axles, hworks.axleTotal,
      hworks.exitCount, hworks.speed, hworks.clearTime, hsettle, hkeeps.clock, rfl, rfl, rfl, rfl, rfl, rfl⟩
  · rw [checkCleared_clears hclosed hrst
      (show r.axleTotal ≤ r.exitCount by rw [hworks.exitCount, hworks.axleTotal]; exact Nat.not_lt.1 hshort)] at hexec
    have hocc : w.tracks[r.track].state = .occupied := by
      simp only [hkeeps.tracks, htrack]
      exact occupied_of_mem hinv hp (.inl hst)
    obtain ⟨f1, f2, f3, f4, f5, f6, f7, f8⟩ :=
      clearPassage_frame (w.modifyPassage p.number closeStretch) (closeStretch r) .vacant
    obtain ⟨hrecord, hleft⟩ := clears_in_tail (hkeeps.numbered hinv.2.1) (hnumber ▸ hr) hrst hocc rfl
    rw [hnumber] at hrecord hleft
    set u := (w.modifyPassage p.number closeStretch).clearPassage (closeStretch r) .vacant with hu
    have hclock : w.clock.time = s.clock.time := by rw [hkeeps.clock]
    have hepoch : w.clock.epoch = s.clock.epoch := by rw [hkeeps.clock]
    have hnotice : w.tracks[r.track].health = s.tracks[p.track].health := by
      simp only [hkeeps.tracks, htrack]
    refine ⟨w, u, r, _, hexec, hw, hr, hrecord, fun hlen hcur hprofiles => ?_, hkeeps.banks,
      fun h => absurd h hshort, fun _ => ⟨?_, ?_, fun hopen => ?_, fun hdone => ?_⟩,
      hrst, hworks.tailTime, hworks.tailWindow, hworks.exitTimeout, hworks.axles, hworks.axleTotal,
      hworks.exitCount, hworks.speed, hworks.clearTime, hsettle, ?_, ?_, ?_, ?_, ?_, ?_, ?_⟩
    · rw [afterSettlement_frame]
      exact hcursor hlen hcur hprofiles
    · have := leftOpen_of_record (hleft _ hrecord) hnumber hworks.bank
      have hfirst : [Notice.trackState r.track .occupied .vacant w.tracks[r.track].health]
          = [.trackState p.track .occupied .vacant s.tracks[p.track].health] := by rw [hnotice, htrack]
      rwa [hfirst] at this
    · rw [f8]
      change setAt w.tracks r.track (w.movedTrack r.track .vacant) = _
      rw [movedTrack_vacant, hkeeps.tracks, htrack]
    · rw [afterSettlement_unsettled (p := (closeStretch r).left .clear _) hopen, leave_closed (hworks.tailWindow), hclock]
    · rw [afterSettlement_filed (p := (closeStretch r).left .clear _) hdone rfl, leave_closed (hworks.tailWindow), hclock, hepoch]
      rfl
    · exact f7.trans hkeeps.clock
    · exact f1
    · exact f2
    · exact f3
    · exact f4
    · exact f5
    · exact f6

end Sys2Proof.Proofs


/-! PROOFS. What the completion of a DISCARD does (R114, R123, R125 to R127). -/

namespace Sys2Proof.Proofs

open Sys2Proof.Machine

/-! ## The answer -/

/-- The line as a completed order leaves it, its slot freed. -/
def CameraLine.discardedFrom (l : CameraLine) (slot : SlotNo) : CameraLine :=
  { l with outstanding := none, slots := setAt l.slots slot none }

theorem exec_discardComplete {s : State} {c : Camera} {issued : Nat} {slot : SlotNo}
    (h : s.lines[c].outstanding = some ⟨.discard slot, issued + 50000, false⟩) :
    exec (.discardComplete ⟨c, issued⟩) s = .next
      (((s.setLine c { s.lines[c] with outstanding := none }).discardAnswered c slot).afterOrder c).endEvent := by
  change execDiscardComplete ⟨c, issued⟩ s = _
  have hanswered : s.lines[c].answered issued = some ⟨.discard slot, issued + 50000, false⟩ := by
    unfold CameraLine.answered
    rw [h]
    simp [orderTimeoutLength]
  unfold execDiscardComplete
  simp only [hanswered]
  rfl

theorem exec_discardComplete_ignored {s : State} {c : Camera} {issued : Nat}
    (h : ∀ slot ignored, s.lines[c].outstanding ≠ some ⟨.discard slot, issued + 50000, ignored⟩) :
    exec (.discardComplete ⟨c, issued⟩) s = .next s := by
  change execDiscardComplete ⟨c, issued⟩ s = _
  unfold execDiscardComplete
  split
  · next slot ends ignored heq =>
    unfold CameraLine.answered at heq
    obtain ⟨hout, hends⟩ := Option.filter_eq_some_iff.1 heq
    obtain rfl : ends = issued + 50000 := of_decide_eq_true hends
    exact absurd hout (h slot ignored)
  · rfl

/-- The answer, by the shot in the slot: it is finished on a line whose slot is free. -/
theorem discardAnswered_eq (s : State) (c : Camera) (slot : SlotNo) :
    (s.setLine c { s.lines[c] with outstanding := none }).discardAnswered c slot
      = (match s.lines[c].slots[slot] with
        | some r => (s.setLine c (CameraLine.discardedFrom s.lines[c] slot)).finishDiscarded c r
        | none => s.setLine c (CameraLine.discardedFrom s.lines[c] slot)).linkingDiscarded c slot := by
  unfold State.discardAnswered State.setSlot
  simp only [lines_setLine, setLine_setLine]
  rfl

/-! ## The shot in the slot -/

theorem settledFrom_afterSettlement {s : State} {p x : Passage} (hstate : x.state = p.state)
    (hsettle : x.settle = p.settle) : s.settledFrom p (afterSettlement x s.clock.time s.clock.epoch) := by
  have hshots : (afterSettlement x s.clock.time s.clock.epoch).shots = x.shots := by rw [afterSettlement_frame]
  unfold State.settledFrom
  rw [hshots]
  refine ⟨fun hdone => ⟨fun hp => ?_, fun hp => ?_⟩, fun hopen => ?_⟩
  · rw [afterSettlement_filed hdone (hstate.trans hp)]
    exact ⟨rfl, rfl⟩
  · rw [afterSettlement_abandoned hdone (hstate.trans hp)]
    exact ⟨rfl, rfl⟩
  · have hstays : afterSettlement x s.clock.time s.clock.epoch = x := by
      rcases hopen with hopen | ⟨hclear, hstopping⟩
      · exact afterSettlement_unsettled hopen _ _
      · unfold afterSettlement
        rw [if_neg (fun h => hclear (hstate.symm.trans h.2)), if_neg (fun h => hstopping (hstate.symm.trans h.2))]
    rw [hstays]
    exact ⟨hstate, hsettle⟩

theorem endAt_faults (p : Passage) (r : ShotRef) (st : ShotState) :
    (p.endAt r.passage (r, st)).faults = match st.fault with
      | some code => p.faults.record code none (some r.shot)
      | none => p.faults := by
  unfold Passage.endAt
  rw [if_pos rfl]
  cases st <;> rfl

/-- A shot that takes its last state and is reported. -/
theorem reported_passage? {s : State} {r : ShotRef} {p : Passage} (hp : s.passage? r.passage = some p)
    (st : ShotState) : ∃ q, ((s.finishShot r st).checkSettled r.passage).passage? r.passage = some q
      ∧ s.settledFrom p q ∧ q.faults = (p.endAt r.passage (r, st)).faults := by
  have hended : (s.finishShot r st).passage? r.passage = some (p.endAt r.passage (r, st)) := by
    rw [finishShot_passage?, hp]
    rfl
  obtain ⟨-, -, -, -, hclock, -⟩ := finishShot_facts s r st
  refine ⟨_, checkSettled_passage? hended, ?_, by rw [afterSettlement_frame]⟩
  rw [hclock]
  exact settledFrom_afterSettlement (p.endAt_state _ _) (p.endAt_settle _ _)

/-- A DISCARD frees the slot of a shot that no channel serves: it becomes CANCELLED (R125). -/
theorem finishDiscarded_held {s : State} {c : Camera} {r : ShotRef}
    (h : ∀ ch w, s.serving? c = some (ch, w) → w.shot ≠ r) :
    s.finishDiscarded c r = s.endShot r .cancelled := by
  unfold State.finishDiscarded
  cases hserving : s.serving? c with
  | none => rfl
  | some x =>
    obtain ⟨ch, w⟩ := x
    exact if_neg (h ch w hserving)

/-- The last state of a shot that is read no more, by what it has stored (R123, R126). -/
def discardedState (k : Shot) (w : ChannelWork) : ShotState :=
  if k.segmentsStored != 0 then .partialStored else if w.step = .stopping then .cancelled else .failed

theorem finishDiscarded_read {s : State} {c : Camera} {r : ShotRef} {ch : ChannelNo} {w : ChannelWork}
    {k : Shot} (h : s.serving? c = some (ch, w)) (hr : w.shot = r) (hk : s.shot? r = some k) :
    s.finishDiscarded c r = s.endReadout c ch r (discardedState k w) := by
  unfold State.finishDiscarded State.hasStored
  simp only [h, hr, hk]
  rfl

/-! ## The linking sequence -/

theorem setLine_same (s : State) (c : Camera) : s.setLine c s.lines[c] = s := by
  unfold State.setLine
  rw [setAt_same]

/-- The slot's completion is not what the linking sequence waits for, or not all of it: the sequence stays
(R127). -/
theorem linkingDiscarded_stays {s : State} {c : Camera} {slot : SlotNo}
    (hrestart : s.lines[c].linking ≠ some (.restartDiscard slot))
    (hclearing : ∀ flags clear0 clear1, s.lines[c].linking = some (.clearing flags clear0 clear1) →
      (slot = 0 ∧ clear0 = false ∧ clear1 = true) ∨ (slot = 1 ∧ clear0 = true ∧ clear1 = false)) :
    s.linkingDiscarded c slot = s := by
  unfold State.linkingDiscarded
  dsimp only
  split
  · next k hk =>
    exact if_neg (fun h : k = slot => hrestart (h ▸ hk))
  · next flags clear0 clear1 hk =>
    have hline : s.setLine c { s.lines[c] with linking := some (.clearing flags clear0 clear1) } = s := by
      rw [← hk]
      exact setLine_same s c
    rcases hclearing flags clear0 clear1 hk with ⟨rfl, rfl, rfl⟩ | ⟨rfl, rfl, rfl⟩ <;> exact hline
  · rfl

/-- The line that the completion of a DISCARD of a free slot finds. -/
theorem discardAnswered_free {s : State} {c : Camera} {slot : SlotNo} {m : CameraLine}
    (hm : m = { s.lines[c] with outstanding := none }) (h : s.lines[c].slots[slot] = none) :
    (s.setLine c { s.lines[c] with outstanding := none }).discardAnswered c slot
      = (s.setLine c m).linkingDiscarded c slot := by
  have hslots : setAt s.lines[c].slots slot none = s.lines[c].slots := by
    rw [← h]
    exact setAt_same _ slot
  rw [discardAnswered_eq]
  simp only [h, CameraLine.discardedFrom, hslots, hm]

/-- An order placed on a line that has none of its kind (R112). -/
theorem pend_fresh {l : CameraLine} {o : Order} (hout : l.outstanding = none) (ho : l.orders.has o = false) :
    l.pend o = { l with orders := l.orders.add o } := by
  unfold CameraLine.pend CameraLine.sharesOutstanding
  rw [hout, ho]
  rfl

/-- After a RESTART the DISCARD of slot 0 leads to that of slot 1, and that to a RELINK (R127). -/
theorem linkingDiscarded_restart {s : State} {c : Camera} {m : CameraLine} {slot : SlotNo}
    (hout : m.outstanding = none) (hlink : m.linking = some (.restartDiscard slot)) :
    (slot = 0 → m.orders.discard1 = false → (s.setLine c m).linkingDiscarded c slot = s.setLine c { m with
        orders := { m.orders with discard1 := true }, linking := some (.restartDiscard 1) })
    ∧ (slot = 1 → m.orders.relink = false → (s.setLine c m).linkingDiscarded c slot = s.setLine c { m with
        orders := { m.orders with relink := true }, linking := some .relink }) := by
  unfold State.linkingDiscarded
  simp only [lines_setLine, setLine_setLine, hlink, if_true]
  refine ⟨?_, ?_⟩
  · rintro rfl hfree
    rw [if_pos rfl, pend_fresh (o := .discard 1) hout hfree]
    rfl
  · rintro rfl hfree
    rw [if_neg (by decide), pend_fresh (o := .relink) hout hfree]
    rfl

/-- The DISCARDs of the slots that the SENSE found full (R127). -/
theorem linkingDiscarded_clearing {s : State} {c : Camera} {m : CameraLine} {slot : SlotNo} {flags : FlagSet}
    {clear0 clear1 left0 left1 : Bool} (hlink : m.linking = some (.clearing flags clear0 clear1))
    (h0 : left0 = (clear0 && slot != 0)) (h1 : left1 = (clear1 && slot != 1)) :
    (left0 = true ∨ left1 = true → (s.setLine c m).linkingDiscarded c slot
        = s.setLine c { m with linking := some (.clearing flags left0 left1) })
    ∧ (left0 = false → left1 = false →
        (s.setLine c m).linkingDiscarded c slot = (s.setLine c m).finishLinking c flags) := by
  unfold State.linkingDiscarded
  simp only [lines_setLine, setLine_setLine, hlink, ← h0, ← h1]
  refine ⟨fun h => if_pos (by simpa using h), fun ha hb => if_neg (by simp [ha, hb])⟩

/-- The end of the linking sequence, the entry of the camera in the ACTIVE bank deciding (R127). -/
theorem finishLinking_setLine (s : State) (c : Camera) {m : CameraLine} (flags : FlagSet) {new : LineState}
    (hnew : new = (if (s.activeCamera c).fitted = true ∧ flags &&& (s.activeCamera c).disableSet = 0
      then LineState.inService else .outOfService)) :
    (s.setLine c m).finishLinking c flags
      = (s.setLine c { m with linking := none, state := new, disableMark := false }).queueNotice
          (.cameraState c m.state new .linked m.accumulated 0) := by
  have hcamera : (s.setLine c m).activeCamera c = s.activeCamera c := rfl
  have hstate : (if (!(s.activeCamera c).fitted || flagsMeet flags (s.activeCamera c).disableSet) = true
      then LineState.outOfService else .inService) = new := by
    subst hnew
    unfold flagsMeet
    by_cases hf : (s.activeCamera c).fitted = true <;>
      by_cases hz : flags &&& (s.activeCamera c).disableSet = 0 <;> simp [hf, hz]
  unfold State.finishLinking State.changeLine
  simp only [lines_setLine, setLine_setLine, hcamera, hstate]

/-! ## A shot that ends with its slot -/

theorem endsWithNotice_queueNotice {s v : State} (x : Notice) (hn : s.link.notices <+: v.link.notices)
    (hc : v.clock = s.clock) : s.endsWithNotice (v.queueNotice x) x := by
  refine ⟨v.link.notices, hn, fun hlt => ?_, fun hge => ?_⟩
  · unfold State.queueNotice
    rw [if_pos (show v.link.notices.length < noticePlaces from hlt), hc]
  · unfold State.queueNotice
    rw [if_neg (show ¬ v.link.notices.length < noticePlaces from Nat.not_lt.2 hge)]
    exact ⟨rfl, rfl⟩

/-- A readout that ends on a line carrying the disable mark: CAMERA_STATE is the last notice (R118). -/
theorem endReadout_notice {s : State} {c : Camera} (ch : ChannelNo) (r : ShotRef) (st : ShotState)
    (hmark : s.lines[c].disableMark = true) (hstate : s.lines[c].state = .inService) :
    s.endsWithNotice (s.endReadout c ch r st)
      (.cameraState c .inService .outOfService .disableFlag s.lines[c].accumulated 0) := by
  obtain ⟨-, hflines, -, -, hfclock, -, -, -, -, -, hflink⟩ := finishShot_facts s r st
  obtain ⟨-, hclines, -, -, hcclock, -⟩ := checkSettled_facts (s.finishShot r st) r.passage
  unfold State.endReadout
  generalize hv : ((s.finishShot r st).checkSettled r.passage).setChannel ch none = v
  have hline : v.lines[c] = s.lines[c] := by
    rw [← hv]
    change ((s.finishShot r st).checkSettled r.passage).lines[c] = _
    rw [hclines, hflines]
  have hnotices : s.link.notices <+: v.link.notices := by
    rw [← hv, ← hflink]
    exact checkSettled_prefix _ _
  have hclock : v.clock = s.clock := by
    rw [← hv]
    exact hcclock.trans hfclock
  unfold State.actOnMark
  rw [if_pos (by rw [hline]; exact ⟨hmark, hstate⟩)]
  unfold State.changeLine
  dsimp only
  rw [hline, hstate]
  exact endsWithNotice_queueNotice _ hnotices hclock

theorem endReadout_passage? (s : State) (c : Camera) (ch : ChannelNo) (r : ShotRef) (st : ShotState) (n : Nat) :
    (s.endReadout c ch r st).passage? n = ((s.finishShot r st).checkSettled r.passage).passage? n := by
  obtain ⟨-, htable, -⟩ := actOnMark_facts (((s.finishShot r st).checkSettled r.passage).setChannel ch none) c
  exact passage?_of_table htable n

theorem marked_orders (l : CameraLine) : l.marked.slots = l.slots ∧ l.marked.outstanding = l.outstanding
    ∧ l.marked.accumulated = l.accumulated ∧ l.marked.orders = l.orders ∧ l.marked.linking = l.linking := by
  unfold CameraLine.marked
  split <;> exact ⟨rfl, rfl, rfl, rfl, rfl⟩

/-- Settles O54: the slot's shot ends, then the linking sequence goes on. -/
theorem discardCompletes : Obligations.DiscardCompletes := by
  intro s c issued m hm
  refine ⟨fun slot r k p hout hrestart hclearing hslot hk hp => ?_, fun slot hout hslot => ⟨fun hlink => ?_,
    fun flags clear0 clear1 left0 left1 hlink h0 h1 => ⟨fun hleft => ?_, fun ha hb new hnew => ?_⟩⟩,
    exec_discardComplete_ignored⟩
  · rw [exec_discardComplete hout, discardAnswered_eq]
    simp only [hslot]
    set v := s.setLine c (CameraLine.discardedFrom s.lines[c] slot) with hv
    have hline : v.lines[c] = CameraLine.discardedFrom s.lines[c] slot := lines_setLine _ _ _
    have hothers : ∀ j : Camera, j ≠ c → v.lines[j] = s.lines[j] := fun j hj => lines_setLine_ne s _ hj
    have hserving : v.serving? c = s.serving? c := rfl
    have hstays : ∀ u : State, u.lines[c].linking = s.lines[c].linking → u.linkingDiscarded c slot = u :=
      fun u hu => linkingDiscarded_stays (hu ▸ hrestart) (hu ▸ hclearing)
    by_cases hread : ∀ ch w, s.serving? c = some (ch, w) → w.shot ≠ r
    · rw [finishDiscarded_held (s := v) hread]
      obtain ⟨⟨hblocks, hlines, -⟩, hshots, hreadout, hmemory⟩ := endShot_facts v r .cancelled
      obtain ⟨q, hq, hsettled, hfaults⟩ := reported_passage? (s := v) hp .cancelled
      rw [endAt_faults] at hfaults
      have hend : (v.endShot r .cancelled).lines[c] = CameraLine.discardedFrom s.lines[c] slot := by
        rw [hlines, hline]
      rw [hstays _ (by rw [hend]; rfl)]
      refine ⟨_, q, rfl, ?_⟩
      rw [hend]
      refine ⟨rfl, rfl, rfl, rfl, rfl, hq, hsettled, fun j hj => by rw [hlines]; exact hothers j hj, hmemory,
        hblocks.clock, hblocks.tracks, hblocks.fire, hblocks.strobes, hblocks.shotQueue, hblocks.banks,
        fun ch w hw hr => absurd hr (hread ch w hw), fun _ => ⟨hreadout, ?_, hfaults, rfl, rfl⟩⟩
      rw [hshots, show v.shot? r = some k from hk, Option.map_some, if_pos rfl]
    · push Not at hread
      obtain ⟨ch, w, hw, hr⟩ := hread
      rw [finishDiscarded_read (s := v) hw hr hk]
      obtain ⟨hblocks, hshots, hreadout, hmemory, helse, hown⟩ := endReadout_facts v c ch r (discardedState k w)
      obtain ⟨q, hq, hsettled, hfaults⟩ := reported_passage? (s := v) hp (discardedState k w)
      rw [endAt_faults] at hfaults
      rw [hline] at hown
      obtain ⟨hslots, houts, hacc, horders, hlinking⟩ := marked_orders (CameraLine.discardedFrom s.lines[c] slot)
      have hshot : (v.endReadout c ch r (discardedState k w)).shot? r
          = some { k with state := discardedState k w } := by
        rw [hshots, show v.shot? r = some k from hk, Option.map_some, if_pos rfl]
      rw [hstays _ (by rw [hown, hlinking]; rfl)]
      refine ⟨_, q, rfl, ?_⟩
      rw [hown]
      refine ⟨hslots, houts, hacc, horders, hlinking, (endReadout_passage? ..).trans hq, hsettled,
        fun j hj => (helse j hj).trans (hothers j hj), hmemory, hblocks.clock, hblocks.tracks, hblocks.fire,
        hblocks.strobes, hblocks.shotQueue, hblocks.banks, fun ch' w' hw' _ => ?_,
        fun hnot => absurd hr (hnot ch w hw)⟩
      obtain ⟨rfl, rfl⟩ : ch = ch' ∧ w = w' := by
        have := hw.symm.trans hw'
        simpa using this
      refine ⟨hreadout, fun hstored => ?_, fun hnone hstop => ?_, fun hnone hstop => ?_, fun hmark hstate => ?_,
        fun hunmarked => ?_⟩
      · have hst : discardedState k w = .partialStored := if_pos (by simpa using hstored)
        rw [hst] at hshot hfaults ⊢
        exact ⟨hshot, hfaults⟩
      · have hst : discardedState k w = .cancelled := by
          simp [discardedState, hnone, hstop]
        rw [hst] at hshot hfaults ⊢
        exact ⟨hshot, hfaults⟩
      · have hst : discardedState k w = .failed := by
          simp [discardedState, hnone, hstop]
        rw [hst] at hshot hfaults ⊢
        exact ⟨hshot, hfaults⟩
      · have hnotice := endReadout_notice (s := v) ch r (discardedState k w)
          (show v.lines[c].disableMark = true by rw [hline]; exact hmark)
          (show v.lines[c].state = .inService by rw [hline]; exact hstate)
        rw [hline] at hnotice
        unfold CameraLine.marked
        rw [if_pos (show (CameraLine.discardedFrom s.lines[c] slot).disableMark = true
          ∧ (CameraLine.discardedFrom s.lines[c] slot).state = .inService from ⟨hmark, hstate⟩)]
        exact ⟨rfl, rfl, hnotice⟩
      · unfold CameraLine.marked
        rw [if_neg (show ¬ ((CameraLine.discardedFrom s.lines[c] slot).disableMark = true
          ∧ (CameraLine.discardedFrom s.lines[c] slot).state = .inService) from
            fun ⟨hmark, hstate⟩ => hunmarked.elim (fun h => by rw [show s.lines[c].disableMark = true from hmark] at h; cases h)
              (fun h => h hstate))]
        exact ⟨rfl, rfl⟩
  · have hmout : m.outstanding = none := by rw [hm]
    have hmlink : m.linking = some (.restartDiscard slot) := by rw [hm]; exact hlink
    obtain ⟨h0, h1⟩ := linkingDiscarded_restart (s := s) (c := c) hmout hmlink
    rw [exec_discardComplete hout, discardAnswered_free hm hslot]
    exact ⟨fun hs hfree => by rw [h0 hs hfree], fun hs hfree => by rw [h1 hs hfree]⟩
  · have hmlink : m.linking = some (.clearing flags clear0 clear1) := by rw [hm]; exact hlink
    rw [exec_discardComplete hout, discardAnswered_free hm hslot, (linkingDiscarded_clearing hmlink h0 h1).1 hleft]
  · have hmlink : m.linking = some (.clearing flags clear0 clear1) := by rw [hm]; exact hlink
    rw [exec_discardComplete hout, discardAnswered_free hm hslot, (linkingDiscarded_clearing hmlink h0 h1).2 ha hb,
      finishLinking_setLine s c flags hnew, show m.state = s.lines[c].state by rw [hm]]

end Sys2Proof.Proofs

/-! PROOFS. What a shot is to the readout, by its state, and how the orders of a camera line fit its slots: the
form of `State.agree` that operations are followed in (R111, R112, R119 to R121, R125 to R127, R136 to R139). -/

namespace Sys2Proof.Proofs

open Sys2Proof.Machine

/-! ## The orders of one line -/

/-- The linking sequence has the DISCARD of this free slot still to do (R127). -/
def linkingClears (l : CameraLine) (slot : SlotNo) : Prop :=
  l.linking = some (.restartDiscard slot)
    ∨ ∃ flags clear0 clear1, l.linking = some (.clearing flags clear0 clear1)
        ∧ (slot = 0 → clear0 = true) ∧ (slot = 1 → clear1 = true)

/-- The linking sequence is the one after a RESTART, before its RELINK (R127, R133). -/
def linkingRestarted (l : CameraLine) : Prop :=
  l.linking = some (.waiting true) ∨ l.linking = some (.restartDiscard 0)
    ∨ l.linking = some (.restartDiscard 1)

/-- The orders and the linking sequence of a line fit its slots: a READ is one that the shot in its slot `reads`,
a DISCARD of an occupied slot is for a shot that is `done`, one of a free slot is the linking sequence's. -/
structure LineFits (reads : ReadOrder → ShotRef → Prop) (done : ShotRef → Prop) (l : CameraLine) : Prop where
  read : ∀ o, l.readWanted = some o → ∃ r, l.slots[o.slot] = some r ∧ reads o r
  readOnce : l.orders.read = none ∨ l.sharesOutstanding (.read 0 0 false) = false
  discardOnce : ∀ slot : SlotNo,
    l.orders.has (.discard slot) = false ∨ l.sharesOutstanding (.discard slot) = false
  occupied : ∀ (slot : SlotNo) (r : ShotRef), l.discardWanted slot = true → l.slots[slot] = some r → done r
  free : ∀ slot : SlotNo, l.discardWanted slot = true → l.slots[slot] = none → linkingClears l slot
  linking : l.linking.isSome = true ↔ l.state = .linking
  restarted : linkingRestarted l → ∀ slot : SlotNo, l.slots[slot] = none

/-! ## The part of a shot in the readout -/

/-- The readout and the reservations know nothing of the shot. -/
structure Loose (s : State) (r : ShotRef) : Prop where
  slots : ∀ (c : Camera) (x : SlotNo), s.lines[c].slots[x] ≠ some r
  queue : r ∉ s.readout.queue
  channels : ∀ (ch : ChannelNo) (w : ChannelWork), s.readout.channels[ch] = some w → w.shot ≠ r
  reserved : s.memory.remainder r = 0

/-- The shot's passage is not FILED or ABANDONED. -/
def Unsettled (s : State) (r : ShotRef) : Prop := ∀ p, s.passage? r.passage = some p → ¬ isOver p

/-- The shot is in this slot and no other (R111). -/
def InSlot (s : State) (r : ShotRef) (c : Camera) (slot : SlotNo) : Prop :=
  ∀ (d : Camera) (x : SlotNo), s.lines[d].slots[x] = some r ↔ d = c ∧ x = slot

/-- What a channel that reads a shot holds: on a segment its drawn page, behind the pages of the segments stored,
with the rest reserved; else no page and no reservation (R121, R123, R126, R138, R139). -/
structure Progress (s : State) (k : Shot) (w : ChannelWork) : Prop where
  drawn : w.step.onSegment = true → ∃ pg, w.page = some pg
    ∧ (s.memory.page pg).condition = .held ⟨w.shot, w.segment⟩
  count : w.step.onSegment = true → k.pages.length = w.segment
    ∧ s.memory.remainder w.shot + w.segment + 1 = k.segmentsExpected
  ended : w.step.onSegment = false → w.page = none ∧ s.memory.remainder w.shot = 0

/-- What the part holds of a HELD shot (R111, R119, R125, R137). -/
structure Holding (s : State) (stop : ShotRef → Prop) (r : ShotRef) (k : Shot) : Prop where
  state : k.state = .held
  pages : k.pages = []
  unsettled : Unsettled s r
  slot : ∃ slot, InSlot s r k.camera slot
  channels : ∀ (ch : ChannelNo) (w : ChannelWork), s.readout.channels[ch] = some w → w.shot ≠ r
  waits : ¬ stop r → r ∈ s.readout.queue ∧ s.memory.remainder r = k.segmentsExpected
  stops : stop r → r ∉ s.readout.queue ∧ s.memory.remainder r = 0

/-- What the part holds of a READING shot (R111, R120, R121). -/
structure Reading (s : State) (r : ShotRef) (k : Shot) (ch : ChannelNo) (w : ChannelWork) : Prop where
  state : k.state = .reading
  unsettled : Unsettled s r
  slot : ∃ slot, InSlot s r k.camera slot
  queue : r ∉ s.readout.queue
  channel : s.readout.channels[ch] = some w
  shot : w.shot = r
  only : ∀ (i : ChannelNo) (v : ChannelWork), s.readout.channels[i] = some v → v.shot = r → i = ch
  progress : Progress s k w

/-- What a shot is to the readout, by its state. `stop` tells the shots of passages in STOPPING. -/
inductive Role (s : State) (stop : ShotRef → Prop) (r : ShotRef) : Prop
  | absent (gone : s.shot? r = none) (loose : Loose s r)
  | pending (k : Shot) (found : s.shot? r = some k) (state : pendingShot k) (going : ¬ stop r)
      (pages : k.pages = []) (unsettled : Unsettled s r) (loose : Loose s r)
  | held (k : Shot) (found : s.shot? r = some k) (holding : Holding s stop r k)
  | reading (k : Shot) (ch : ChannelNo) (w : ChannelWork) (found : s.shot? r = some k)
      (reading : Reading s r k ch w)
  | ended (k : Shot) (found : s.shot? r = some k) (state : k.state.terminal = true) (loose : Loose s r)

/-- A shot's record: its segments are 1 to 64 (R109), and a stored segment's page is held by it (R121). -/
def Recorded (m : FrameMemory) (r : ShotRef) (k : Shot) : Prop :=
  1 ≤ k.segmentsExpected ∧ k.segmentsExpected ≤ 64
    ∧ ∀ i pg, k.pages[i]? = some pg → (m.page pg).condition = .held ⟨r, i⟩

/-- A READ that a channel working on the shot has placed (R121). -/
def readsFor (s : State) (o : ReadOrder) (r : ShotRef) : Prop :=
  ∃ (ch : ChannelNo) (w : ChannelWork) (k : Shot), s.readout.channels[ch] = some w ∧ w.shot = r
    ∧ s.shot? r = some k ∧ (w.step = .read ∨ w.step = .final) ∧ o.segment = w.segment
    ∧ (o.release = true ↔ w.segment + 1 = k.segmentsExpected)

/-- A shot that stores no more: HELD in a passage in STOPPING, or its channel is past its segments (R123, R125,
R126). -/
def storesNoMore (s : State) (stop : ShotRef → Prop) (r : ShotRef) : Prop :=
  (s.shotState r = some .held ∧ stop r)
    ∨ ∃ (ch : ChannelNo) (w : ChannelWork), s.readout.channels[ch] = some w ∧ w.shot = r
        ∧ w.step.onSegment = false

/-- Frame memory in canonical form, with a remainder for each shot that is to draw pages yet, and no more pages
reserved than free (R136, R137). -/
structure MemorySound (m : FrameMemory) : Prop where
  wf : m.wf
  numbers : ∀ e ∈ m.pages, e.1 < logicalPages
  once : (m.reservations.map (·.shot)).Nodup
  positive : ∀ e ∈ m.reservations, 0 < e.pages
  reserved : m.reservedCount ≤ m.freeCount

/-- Shots, slots, channels, queue, orders, pages and reservations agree, the shots `out` aside, which an operation
is at work on. -/
structure Agrees (out stop : ShotRef → Prop) (s : State) : Prop where
  roles : ∀ r, ¬ out r → Role s stop r
  records : ∀ r k, s.shot? r = some k → Recorded s.memory r k
  lines : ∀ c : Camera, LineFits (fun o r => out r ∨ readsFor s o r)
    (fun r => out r ∨ storesNoMore s stop r) s.lines[c]
  alone : ∀ (i j : ChannelNo) (v w : ChannelWork), s.readout.channels[i] = some v →
    s.readout.channels[j] = some w → s.cameraOf v.shot = s.cameraOf w.shot → i = j
  once : s.readout.queue.Nodup
  memory : MemorySound s.memory

/-- No shot is at work. -/
def nothing : ShotRef → Prop := fun _ => False

/-- The shots of passages in STOPPING. -/
def stopping (s : State) : ShotRef → Prop := fun r => s.shotStopping r = true

end Sys2Proof.Proofs

/-! PROOFS. `State.agree` by the part of each shot in the readout, and back. -/

namespace Sys2Proof.Proofs

open Sys2Proof.Machine

/-! ## Remainders and entries (R137) -/

/-- A remainder that is not 0 is that of an entry. -/
theorem entry_of_remainder {m : FrameMemory} {r : ShotRef} (h : m.remainder r ≠ 0) :
    ∃ e ∈ m.reservations, e.shot = r ∧ e.pages = m.remainder r := by
  unfold FrameMemory.remainder at h ⊢
  cases hf : m.reservations.find? (fun e => e.shot == r) with
  | none => rw [hf] at h; exact absurd rfl h
  | some e => exact ⟨e, List.mem_of_find?_eq_some hf, by simpa using List.find?_some hf, rfl⟩

/-- Where each shot has one entry at most, an entry's pages are its shot's remainder. -/
theorem remainder_of_entry {m : FrameMemory} (h : (m.reservations.map (·.shot)).Nodup) {e : Reservation}
    (he : e ∈ m.reservations) : m.remainder e.shot = e.pages := by
  have one : ∀ l : List Reservation, (l.map (·.shot)).Nodup → e ∈ l → remainderIn e.shot l = e.pages := by
    intro l
    induction l with
    | nil => exact fun _ h => nomatch h
    | cons a l ih =>
      intro hn hmem
      rw [List.map_cons, List.nodup_cons] at hn
      rw [remainderIn_cons]
      rcases List.mem_cons.1 hmem with rfl | hmem
      · exact if_pos rfl
      · rw [if_neg (fun ha : a.shot = e.shot => hn.1 (by rw [ha]; exact List.mem_map_of_mem hmem)), ih hn.2 hmem]
  rw [FrameMemory.remainder_eq]
  exact one _ h he

/-! ## From `State.agree` -/

theorem shotState_of {s : State} {r : ShotRef} {k : Shot} (h : s.shot? r = some k) :
    s.shotState r = some k.state := by
  unfold State.shotState; rw [h]; rfl

theorem shot_of_state {s : State} {r : ShotRef} {st : ShotState} (h : s.shotState r = some st) :
    ∃ k, s.shot? r = some k ∧ k.state = st := by
  unfold State.shotState at h
  exact Option.map_eq_some_iff.1 h

/-- A reservation is that of a HELD or READING shot. -/
theorem reserved_shot {s : State} (h : s.agree) {r : ShotRef} (hr : s.memory.remainder r ≠ 0) :
    ∃ k, s.shot? r = some k ∧ (k.state = .held ∨ k.state = .reading) := by
  obtain ⟨e, he, rfl, -⟩ := entry_of_remainder hr
  obtain ⟨k, hk, ⟨⟨hw, -⟩, -⟩ | ⟨ch, w, hch, hsh, -⟩⟩ := h.reservedFor e he
  · exact ⟨k, hk, .inl (Option.some.inj ((shotState_of hk).symm.trans hw))⟩
  · have hst := h.serves ch w hch
    rw [hsh, shotState_of hk] at hst
    exact ⟨k, hk, .inr (Option.some.inj hst)⟩

theorem loose_of_agree {s : State} (h : s.agree) {r : ShotRef}
    (hr : ∀ k, s.shot? r = some k → k.state ≠ .held ∧ k.state ≠ .reading) : Loose s r := by
  refine ⟨fun c x hx => ?_, fun hq => ?_, fun ch w hw hsh => ?_, ?_⟩
  · obtain ⟨k, hk, -, hst⟩ := h.occupied c x r hx
    exact hst.elim (hr k hk).1 (hr k hk).2
  · obtain ⟨k, hk, hst⟩ := shot_of_state ((h.waiting r).1 hq).1
    exact (hr k hk).1 hst
  · obtain ⟨k, hk, hst⟩ := shot_of_state (h.serves ch w hw)
    exact (hr k (hsh ▸ hk)).2 hst
  · refine Decidable.byContradiction (fun hne => ?_)
    obtain ⟨k, hk, hst⟩ := reserved_shot h hne
    exact hst.elim (hr k hk).1 (hr k hk).2

/-- A shot that is not terminal is of a passage that is not over. -/
theorem unsettled_of_agree {s : State} (h : s.agree) {r : ShotRef} {k : Shot} (hk : s.shot? r = some k)
    (hst : k.state.terminal = false) : Unsettled s r := by
  intro p hp hover
  have hmem : k ∈ p.shots := List.mem_of_getElem? ((shot?_of_passage? hp r.shot).symm.trans hk)
  have := (h.settled _ p hp).1 hover k hmem
  rw [hst] at this
  cases this

theorem inSlot_of_agree {s : State} (h : s.agree) {r : ShotRef} {k : Shot} (hk : s.shot? r = some k)
    (hst : k.state = .held ∨ k.state = .reading) : ∃ slot, InSlot s r k.camera slot := by
  obtain ⟨slot, hslot⟩ := h.slotted r k hk hst
  refine ⟨slot, fun d x => ⟨fun hx => ?_, fun ⟨hd, hx⟩ => by rw [hd, hx]; exact hslot⟩⟩
  obtain ⟨k', hk', hcam, -⟩ := h.occupied d x r hx
  obtain rfl := Option.some.inj (hk.symm.trans hk')
  subst hcam
  refine ⟨rfl, ?_⟩
  have htwo := h.twoSlots k.camera r
  match slot, x, hslot, hx with
  | 0, 0, _, _ => rfl
  | 1, 1, _, _ => rfl
  | 0, 1, h0, h1 => exact absurd h1 (htwo h0)
  | 1, 0, h1, h0 => exact absurd h1 (htwo h0)

theorem stopping_iff {s : State} {r : ShotRef} :
    stopping s r ↔ ∃ p, s.passage? r.passage = some p ∧ p.state = .stopping := by
  unfold stopping State.shotStopping
  cases s.passage? r.passage <;> simp

theorem holding_of_agree {s : State} (h : s.agree) {r : ShotRef} {k : Shot} (hk : s.shot? r = some k)
    (hst : k.state = .held) : Holding s (stopping s) r k := by
  have hheld : s.shotState r = some .held := (shotState_of hk).trans (congrArg some hst)
  refine ⟨hst, h.unread r k hk (.inr (.inr hst)), unsettled_of_agree h hk (by rw [hst]; rfl),
    inSlot_of_agree h hk (.inl hst), fun ch w hw hsh => ?_, fun hgo => ?_, fun hstop => ⟨fun hq => ?_, ?_⟩⟩
  · have := h.serves ch w hw
    rw [hsh, hheld] at this
    cases this
  · have hwaits : s.waits r := ⟨hheld, Bool.eq_false_iff.2 hgo⟩
    exact ⟨(h.waiting r).2 hwaits, (h.reservedAll r k hk).1 hwaits⟩
  · exact absurd ((h.waiting r).1 hq).2 (by rw [show s.shotStopping r = true from hstop]; decide)
  · refine Decidable.byContradiction (fun hne => ?_)
    obtain ⟨e, he, rfl, -⟩ := entry_of_remainder hne
    obtain ⟨-, -, ⟨⟨-, hw⟩, -⟩ | ⟨ch, w, hch, hsh, -⟩⟩ := h.reservedFor e he
    · rw [show s.shotStopping e.shot = true from hstop] at hw; cases hw
    · have := h.serves ch w hch
      rw [hsh, hheld] at this
      cases this

theorem channel_of_agree {s : State} (h : s.agree) {i j : ChannelNo} {v w : ChannelWork}
    (hv : s.readout.channels[i] = some v) (hw : s.readout.channels[j] = some w) (hsh : v.shot = w.shot) :
    i = j := h.onePerCamera i j v w hv hw (by rw [hsh])

theorem reading_of_agree {s : State} (h : s.agree) {r : ShotRef} {k : Shot} (hk : s.shot? r = some k)
    (hst : k.state = .reading) : ∃ ch w, Reading s r k ch w := by
  have hreading : s.shotState r = some .reading := (shotState_of hk).trans (congrArg some hst)
  obtain ⟨ch, w, hw, rfl⟩ := h.served r hreading
  refine ⟨ch, w, hst, unsettled_of_agree h hk (by rw [hst]; rfl), inSlot_of_agree h hk (.inr hst),
    fun hq => ?_, hw, rfl, fun i v hv hsh => channel_of_agree h hv hw hsh, ?_⟩
  · have := ((h.waiting _).1 hq).1
    rw [hreading] at this
    cases this
  obtain ⟨hon, hoff⟩ := h.drawn ch w k hw hk
  refine ⟨fun hs => ?_, fun hs => ?_, fun hs => ⟨hoff hs, ?_⟩⟩
  · obtain ⟨pg, hpg, hcond, -⟩ := hon hs; exact ⟨pg, hpg, hcond⟩
  · obtain ⟨-, -, -, hlen, -⟩ := hon hs; exact ⟨hlen, (h.reservedAll _ k hk).2 ch w hw rfl hs⟩
  · refine Decidable.byContradiction (fun hne => ?_)
    obtain ⟨e, he, hesh, -⟩ := entry_of_remainder hne
    obtain ⟨-, -, ⟨⟨hheld, -⟩, -⟩ | ⟨ch', w', hch', hsh', hon', -⟩⟩ := h.reservedFor e he
    · rw [hesh, hreading] at hheld; cases hheld
    · obtain rfl := channel_of_agree h hch' hw (hsh'.trans hesh)
      obtain rfl := Option.some.inj (hch'.symm.trans hw)
      rw [hs] at hon'; cases hon'

theorem role_of_agree {s : State} (h : s.agree) (r : ShotRef) : Role s (stopping s) r := by
  cases hk : s.shot? r with
  | none => exact .absent hk (loose_of_agree h (fun k hk' => by rw [hk] at hk'; cases hk'))
  | some k =>
    have hfound : ∀ st, k.state = st → st ≠ .held → st ≠ .reading → Loose s r := fun st hst h1 h2 =>
      loose_of_agree h (fun k' hk' => by
        obtain rfl := Option.some.inj (hk.symm.trans hk'); rw [hst]; exact ⟨h1, h2⟩)
    have hpending : pendingShot k → Role s (stopping s) r := fun hp => by
      refine .pending k hk hp (fun hstop => ?_) (h.unread r k hk (hp.imp_right .inl))
        (unsettled_of_agree h hk (by rcases hp with hp | hp <;> rw [hp] <;> rfl)) ?_
      · obtain ⟨p, hp', hst⟩ := stopping_iff.1 hstop
        have hmem : k ∈ p.shots := List.mem_of_getElem? ((shot?_of_passage? hp' r.shot).symm.trans hk)
        obtain ⟨hne1, hne2⟩ := (h.settled _ p hp').2 hst k hmem
        exact hp.elim hne1 hne2
      · rcases hp with hp | hp <;> exact hfound _ hp (by decide) (by decide)
    cases hst : k.state with
    | planned => exact hpending (.inl hst)
    | frozen => exact hpending (.inr hst)
    | held => exact .held k hk (holding_of_agree h hk hst)
    | reading => obtain ⟨ch, w, hr⟩ := reading_of_agree h hk hst; exact .reading k ch w hk hr
    | stored | partialStored | failed | lost | late | skipped | cancelled =>
      exact .ended k hk (by rw [hst]; rfl) (hfound _ hst (by decide) (by decide))

theorem lineFits_of_agree {s : State} (h : s.agree) (c : Camera) :
    LineFits (fun o r => nothing r ∨ readsFor s o r) (fun r => nothing r ∨ storesNoMore s (stopping s) r)
      s.lines[c] := by
  refine ⟨fun o ho => ?_, h.readOnce c, h.discardOnce c, fun slot r hd hr => ?_,
    fun slot hd hr => (h.discards c slot hd).2 hr, h.linking c, fun hl slot => h.restarted c slot hl⟩
  · obtain ⟨ch, w, k, hw, hk, -, hstep, hslot, hseg, hrel⟩ := h.reads c o ho
    exact ⟨w.shot, hslot, .inr ⟨ch, w, k, hw, rfl, hk, hstep, hseg, hrel⟩⟩
  · exact .inr ((h.discards c slot hd).1 r hr)

/-- The form in which operations are followed, of states that agree. -/
theorem agrees_of_agree {s : State} (hwf : s.memory.wf) (h : s.agree) : Agrees nothing (stopping s) s := by
  refine ⟨fun r _ => role_of_agree h r, fun r k hk => ?_, lineFits_of_agree h, h.onePerCamera, h.waitingOnce,
    hwf, h.pageNumbers, h.reservedOnce, fun e he => ?_, h.reserved⟩
  · obtain ⟨h1, h2⟩ := h.expected r k hk
    exact ⟨h1, h2, h.stored r k hk⟩
  · obtain ⟨k, hk, ⟨-, hpages⟩ | ⟨-, -, -, -, -, hpos, -⟩⟩ := h.reservedFor e he
    · rw [hpages]; exact (h.expected _ k hk).1
    · exact hpos

/-! ## To `State.agree` -/

section Back

variable {s : State} {stop : ShotRef → Prop}

theorem role_of_slot (h : Agrees nothing stop s) {c : Camera} {slot : SlotNo} {r : ShotRef}
    (hr : s.lines[c].slots[slot] = some r) :
    ∃ k, s.shot? r = some k ∧ (Holding s stop r k ∨ ∃ ch w, Reading s r k ch w) := by
  cases h.roles r id with
  | absent _ loose => exact absurd hr (loose.slots c slot)
  | pending _ _ _ _ _ _ loose => exact absurd hr (loose.slots c slot)
  | held k found holding => exact ⟨k, found, .inl holding⟩
  | reading k ch w found reading => exact ⟨k, found, .inr ⟨ch, w, reading⟩⟩
  | ended _ _ _ loose => exact absurd hr (loose.slots c slot)

theorem role_of_channel (h : Agrees nothing stop s) {ch : ChannelNo} {w : ChannelWork}
    (hw : s.readout.channels[ch] = some w) :
    ∃ k, s.shot? w.shot = some k ∧ Reading s w.shot k ch w := by
  cases h.roles w.shot id with
  | absent _ loose => exact absurd rfl (loose.channels ch w hw)
  | pending _ _ _ _ _ _ loose => exact absurd rfl (loose.channels ch w hw)
  | held k found holding => exact absurd rfl (holding.channels ch w hw)
  | ended _ _ _ loose => exact absurd rfl (loose.channels ch w hw)
  | reading k ch' w' found reading =>
    obtain rfl := reading.only ch w hw rfl
    obtain rfl := Option.some.inj (hw.symm.trans reading.channel)
    exact ⟨k, found, reading⟩

theorem role_of_waiting (h : Agrees nothing stop s) {r : ShotRef} (hr : r ∈ s.readout.queue) :
    ∃ k, s.shot? r = some k ∧ Holding s stop r k ∧ ¬ stop r := by
  cases h.roles r id with
  | absent _ loose => exact absurd hr loose.queue
  | pending _ _ _ _ _ _ loose => exact absurd hr loose.queue
  | held k found holding => exact ⟨k, found, holding, fun hs => (holding.stops hs).1 hr⟩
  | reading _ _ _ _ reading => exact absurd hr reading.queue
  | ended _ _ _ loose => exact absurd hr loose.queue

theorem role_of_held (h : Agrees nothing stop s) {r : ShotRef} {k : Shot} (hk : s.shot? r = some k)
    (hst : k.state = .held) : Holding s stop r k := by
  cases h.roles r id with
  | absent gone _ => rw [gone] at hk; cases hk
  | pending k' found state =>
    obtain rfl := Option.some.inj (found.symm.trans hk)
    unfold pendingShot at state; rw [hst] at state; rcases state with h | h <;> cases h
  | held k' found holding => obtain rfl := Option.some.inj (found.symm.trans hk); exact holding
  | reading k' _ _ found reading =>
    obtain rfl := Option.some.inj (found.symm.trans hk)
    exact absurd (hst.symm.trans reading.state) (by decide)
  | ended k' found state =>
    obtain rfl := Option.some.inj (found.symm.trans hk); rw [hst] at state; cases state

theorem role_of_reading (h : Agrees nothing stop s) {r : ShotRef} {k : Shot} (hk : s.shot? r = some k)
    (hst : k.state = .reading) : ∃ ch w, Reading s r k ch w := by
  cases h.roles r id with
  | absent gone _ => rw [gone] at hk; cases hk
  | pending k' found state =>
    obtain rfl := Option.some.inj (found.symm.trans hk)
    unfold pendingShot at state; rw [hst] at state; rcases state with h | h <;> cases h
  | held k' found holding =>
    obtain rfl := Option.some.inj (found.symm.trans hk)
    exact absurd (hst.symm.trans holding.state) (by decide)
  | reading k' ch w found reading => obtain rfl := Option.some.inj (found.symm.trans hk); exact ⟨ch, w, reading⟩
  | ended k' found state =>
    obtain rfl := Option.some.inj (found.symm.trans hk); rw [hst] at state; cases state

theorem role_of_pending (h : Agrees nothing stop s) {r : ShotRef} {k : Shot} (hk : s.shot? r = some k)
    (hst : pendingShot k) : ¬ stop r ∧ k.pages = [] ∧ Unsettled s r ∧ Loose s r := by
  have hne : k.state ≠ .held ∧ k.state ≠ .reading ∧ k.state.terminal = false := by
    rcases hst with hst | hst <;> rw [hst] <;> decide
  obtain ⟨hheld, hreading, hterminal⟩ := hne
  cases h.roles r id with
  | absent gone _ => rw [gone] at hk; cases hk
  | pending k' found _ going pages unsettled loose =>
    obtain rfl := Option.some.inj (found.symm.trans hk); exact ⟨going, pages, unsettled, loose⟩
  | held k' found holding =>
    obtain rfl := Option.some.inj (found.symm.trans hk); exact absurd holding.state hheld
  | reading k' _ _ found reading =>
    obtain rfl := Option.some.inj (found.symm.trans hk); exact absurd reading.state hreading
  | ended k' found state =>
    obtain rfl := Option.some.inj (found.symm.trans hk); rw [hterminal] at state; cases state

/-- The remainder of a shot that has one is that of a HELD shot that waits, or of a channel on a segment. -/
theorem role_of_remainder (h : Agrees nothing stop s) {r : ShotRef} (hr : s.memory.remainder r ≠ 0) :
    ∃ k, s.shot? r = some k ∧ ((Holding s stop r k ∧ ¬ stop r)
      ∨ ∃ ch w, Reading s r k ch w ∧ w.step.onSegment = true) := by
  cases h.roles r id with
  | absent _ loose => exact absurd loose.reserved hr
  | pending _ _ _ _ _ _ loose => exact absurd loose.reserved hr
  | held k found holding => exact ⟨k, found, .inl ⟨holding, fun hs => hr (holding.stops hs).2⟩⟩
  | reading k ch w found reading =>
    refine ⟨k, found, .inr ⟨ch, w, reading, ?_⟩⟩
    cases hon : w.step.onSegment with
    | true => rfl
    | false => exact absurd (reading.shot ▸ (reading.progress.ended hon).2) hr
  | ended _ _ _ loose => exact absurd loose.reserved hr

theorem waits_of_role (h : Agrees nothing (stopping s) s) (r : ShotRef) :
    r ∈ s.readout.queue ↔ s.waits r := by
  constructor
  · intro hr
    obtain ⟨k, hk, hold, hgo⟩ := role_of_waiting h hr
    exact ⟨(shotState_of hk).trans (congrArg some hold.state), Bool.eq_false_iff.2 hgo⟩
  · rintro ⟨hst, hgo⟩
    obtain ⟨k, hk, hheld⟩ := shot_of_state hst
    exact ((role_of_held h hk hheld).waits (Bool.eq_false_iff.1 hgo)).1

theorem settled_of_role (h : Agrees nothing (stopping s) s) {n : Nat} {p : Passage}
    (hp : s.passage? n = some p) :
    (p.state = .filed ∨ p.state = .abandoned → ∀ k ∈ p.shots, k.state.terminal = true)
    ∧ (p.state = .stopping → ∀ k ∈ p.shots, k.state ≠ .planned ∧ k.state ≠ .frozen) := by
  refine ⟨fun hover k hk => ?_, fun hst k hk => ?_⟩
  · obtain ⟨i, hi⟩ := shot_of_mem hp hk
    cases h.roles ⟨n, i⟩ id with
    | absent gone _ => rw [gone] at hi; cases hi
    | pending _ _ _ _ _ unsettled => exact absurd hover (unsettled p hp)
    | held _ _ holding => exact absurd hover (holding.unsettled p hp)
    | reading _ _ _ _ reading => exact absurd hover (reading.unsettled p hp)
    | ended k' found state => obtain rfl := Option.some.inj (found.symm.trans hi); exact state
  · obtain ⟨i, hi⟩ := shot_of_mem hp hk
    cases h.roles ⟨n, i⟩ id with
    | absent gone _ => rw [gone] at hi; cases hi
    | pending _ _ _ going => exact absurd (stopping_iff.2 ⟨p, hp, hst⟩) going
    | held k' found holding =>
      obtain rfl := Option.some.inj (found.symm.trans hi); rw [holding.state]; decide
    | reading k' _ _ found reading =>
      obtain rfl := Option.some.inj (found.symm.trans hi); rw [reading.state]; decide
    | ended k' found state =>
      obtain rfl := Option.some.inj (found.symm.trans hi)
      constructor <;> rintro hk' <;> rw [hk'] at state <;> cases state

/-- An entry is that of a shot still to be read (R137). -/
theorem reservedFor_of_role (h : Agrees nothing (stopping s) s) {e : Reservation}
    (he : e ∈ s.memory.reservations) : ∃ k, s.shot? e.shot = some k
      ∧ ((s.waits e.shot ∧ e.pages = k.segmentsExpected)
        ∨ ∃ (ch : ChannelNo) (w : ChannelWork), s.readout.channels[ch] = some w ∧ w.shot = e.shot
            ∧ w.step.onSegment = true ∧ 0 < e.pages ∧ w.segment + 1 + e.pages = k.segmentsExpected) := by
  have hpos := h.memory.positive e he
  have hrem := remainder_of_entry h.memory.once he
  obtain ⟨k, hk, ⟨hold, hgo⟩ | ⟨ch, w, hread, hon⟩⟩ := role_of_remainder h (r := e.shot) (by omega)
  · refine ⟨k, hk, .inl ⟨(waits_of_role h _).1 (hold.waits hgo).1, ?_⟩⟩
    rw [← hrem]; exact (hold.waits hgo).2
  · refine ⟨k, hk, .inr ⟨ch, w, hread.channel, hread.shot, hon, hpos, ?_⟩⟩
    have := (hread.progress.count hon).2
    rw [hread.shot, hrem] at this
    omega

/-- The shots' slots, channels, orders, pages and reservations agree when each has its part; the shot queue and
the segments of the tables are `State.agree`'s other clauses. -/
theorem agree_of_agrees (h : Agrees nothing (stopping s) s) (hqueue : QueueHolds s)
    (hsegments : ∀ (b : BankNo) (c : Camera),
      s.banks.slots[b].state = .active ∨ s.banks.slots[b].state = .draining →
      ((s.bank b).cameras[c]).fitted = true →
        1 ≤ ((s.bank b).cameras[c]).segments.toNat ∧ ((s.bank b).cameras[c]).segments.toNat ≤ 64) :
    s.agree where
  settled _ _ hp := settled_of_role h hp
  segments := hsegments
  expected r k hk := ⟨(h.records r k hk).1, (h.records r k hk).2.1⟩
  queued r := (hqueue.exact r).trans (toFire_iff s r)
  queuedOnce := hqueue.once
  queuePlaces := hqueue.places
  occupied c slot r hr := by
    obtain ⟨k, hk, hold | ⟨ch, w, hread⟩⟩ := role_of_slot h hr
    · obtain ⟨x, hx⟩ := hold.slot
      exact ⟨k, hk, ((hx c slot).1 hr).1.symm, .inl hold.state⟩
    · obtain ⟨x, hx⟩ := hread.slot
      exact ⟨k, hk, ((hx c slot).1 hr).1.symm, .inr hread.state⟩
  twoSlots c r h0 h1 := by
    have hslot : ∃ d x, InSlot s r d x := by
      obtain ⟨k, -, hold | ⟨ch, w, hread⟩⟩ := role_of_slot h h0
      · exact ⟨_, hold.slot⟩
      · exact ⟨_, hread.slot⟩
    obtain ⟨d, x, hx⟩ := hslot
    exact absurd (((hx c 0).1 h0).2.trans ((hx c 1).1 h1).2.symm) (by decide)
  slotted r k hk hst := by
    have hslot : ∃ slot, InSlot s r k.camera slot := hst.elim (fun hst => (role_of_held h hk hst).slot)
      (fun hst => by obtain ⟨ch, w, hread⟩ := role_of_reading h hk hst; exact hread.slot)
    obtain ⟨slot, hx⟩ := hslot
    exact ⟨slot, (hx _ _).2 ⟨rfl, rfl⟩⟩
  serves ch w hw := by
    obtain ⟨k, hk, hread⟩ := role_of_channel h hw
    exact (shotState_of hk).trans (congrArg some hread.state)
  served r hst := by
    obtain ⟨k, hk, hreading⟩ := shot_of_state hst
    obtain ⟨ch, w, hread⟩ := role_of_reading h hk hreading
    exact ⟨ch, w, hread.channel, hread.shot⟩
  onePerCamera := h.alone
  waiting := waits_of_role h
  waitingOnce := h.once
  reads c o ho := by
    obtain ⟨r, hr, hn | ⟨ch, w, k, hw, rfl, hk, hstep, hseg, hrel⟩⟩ := (h.lines c).read o ho
    · exact hn.elim
    · obtain ⟨k', hk', hread⟩ := role_of_channel h hw
      obtain rfl := Option.some.inj (hk'.symm.trans hk)
      obtain ⟨slot, hslot⟩ := hread.slot
      exact ⟨ch, w, k', hw, hk, ((hslot c o.slot).1 hr).1.symm, hstep, hr, hseg, hrel⟩
  readOnce c := (h.lines c).readOnce
  discardOnce c := (h.lines c).discardOnce
  discards c slot hd :=
    ⟨fun r hr => ((h.lines c).occupied slot r hd hr).elim (fun hn => hn.elim) id, (h.lines c).free slot hd⟩
  linking c := (h.lines c).linking
  restarted c slot hl := (h.lines c).restarted hl slot
  pageNumbers := h.memory.numbers
  stored r k hk := (h.records r k hk).2.2
  unread r k hk hst := by
    rcases hst with hst | hst | hst
    · exact (role_of_pending h hk (.inl hst)).2.1
    · exact (role_of_pending h hk (.inr hst)).2.1
    · exact (role_of_held h hk hst).pages
  drawn ch w k hw hk := by
    obtain ⟨k', hk', hread⟩ := role_of_channel h hw
    obtain rfl := Option.some.inj (hk'.symm.trans hk)
    refine ⟨fun hon => ?_, fun hoff => (hread.progress.ended hoff).1⟩
    obtain ⟨pg, hpg, hcond⟩ := hread.progress.drawn hon
    obtain ⟨hlen, hcount⟩ := hread.progress.count hon
    exact ⟨pg, hpg, hcond, hlen, by omega⟩
  reservedOnce := h.memory.once
  reservedFor e he := reservedFor_of_role h he
  reservedAll r k hk := by
    refine ⟨fun hw => ?_, fun ch w hw hsh hon => ?_⟩
    · obtain ⟨k', hk', hold, hgo⟩ := role_of_waiting h ((waits_of_role h r).2 hw)
      obtain rfl := Option.some.inj (hk'.symm.trans hk)
      exact (hold.waits hgo).2
    · subst hsh
      obtain ⟨k', hk', hread⟩ := role_of_channel h hw
      obtain rfl := Option.some.inj (hk'.symm.trans hk)
      exact (hread.progress.count hon).2
  reserved := h.memory.reserved

end Back

end Sys2Proof.Proofs

/-! PROOFS. Orders placed, issued and ended, slots and the linking sequence: what each leaves of a line whose orders
fit its slots (R111, R112, R127). -/

namespace Sys2Proof.Proofs

open Sys2Proof.Machine

section Line

variable {reads reads' : ReadOrder → ShotRef → Prop} {done done' : ShotRef → Prop} {l l' : CameraLine}

theorem LineFits.mono (h : LineFits reads done l) (hr : ∀ o r, reads o r → reads' o r)
    (hd : ∀ r, done r → done' r) : LineFits reads' done' l where
  read o ho := by obtain ⟨r, hslot, ho⟩ := h.read o ho; exact ⟨r, hslot, hr o r ho⟩
  readOnce := h.readOnce
  discardOnce := h.discardOnce
  occupied slot r hw hs := hd r (h.occupied slot r hw hs)
  free := h.free
  linking := h.linking
  restarted := h.restarted

/-- What the two parties look at: the shots in a line's slots only. -/
theorem LineFits.mono_slots (h : LineFits reads done l)
    (hr : ∀ o (x : SlotNo) r, l.slots[x] = some r → reads o r → reads' o r)
    (hd : ∀ (x : SlotNo) r, l.slots[x] = some r → done r → done' r) : LineFits reads' done' l where
  read o ho := by obtain ⟨r, hslot, ho⟩ := h.read o ho; exact ⟨r, hslot, hr o _ r hslot ho⟩
  readOnce := h.readOnce
  discardOnce := h.discardOnce
  occupied slot r hw hs := hd slot r hs (h.occupied slot r hw hs)
  free := h.free
  linking := h.linking
  restarted := h.restarted

/-- A line with the same slots and linking sequence, and no order that the first did not have. -/
theorem LineFits.fewer (h : LineFits reads done l) (hslots : l'.slots = l.slots)
    (hread : ∀ o, l'.readWanted = some o → l.readWanted = some o)
    (hreadOnce : l'.orders.read = none ∨ l'.sharesOutstanding (.read 0 0 false) = false)
    (hdiscard : ∀ slot, l'.discardWanted slot = true → l.discardWanted slot = true)
    (hdiscardOnce : ∀ slot : SlotNo,
      l'.orders.has (.discard slot) = false ∨ l'.sharesOutstanding (.discard slot) = false)
    (hlinking : l'.linking = l.linking) (hstate : l'.linking.isSome = true ↔ l'.state = .linking) :
    LineFits reads done l' where
  read o ho := by rw [hslots]; exact h.read o (hread o ho)
  readOnce := hreadOnce
  discardOnce := hdiscardOnce
  occupied slot r hw hs := h.occupied slot r (hdiscard slot hw) (by rw [← hslots]; exact hs)
  free slot hw hs := by
    have := h.free slot (hdiscard slot hw) (by rw [← hslots]; exact hs)
    unfold linkingClears at *
    rwa [hlinking]
  linking := hstate
  restarted hl slot := by
    rw [hslots]
    unfold linkingRestarted at hl
    rw [hlinking] at hl
    exact h.restarted hl slot

/-- The state, the flags and the mark of a line are not looked at, but LINKING is (R127). -/
theorem LineFits.restate (h : LineFits reads done l) (hslots : l'.slots = l.slots)
    (horders : l'.orders = l.orders) (hout : l'.outstanding = l.outstanding) (hlinking : l'.linking = l.linking)
    (hstate : l'.linking.isSome = true ↔ l'.state = .linking) : LineFits reads done l' := by
  have hshares : ∀ o, l'.sharesOutstanding o = l.sharesOutstanding o := fun o => by
    unfold CameraLine.sharesOutstanding; rw [hout]
  have hread : l'.readWanted = l.readWanted := by unfold CameraLine.readWanted; rw [horders, hout]
  have hdiscard : ∀ slot, l'.discardWanted slot = l.discardWanted slot := fun slot => by
    unfold CameraLine.discardWanted; rw [horders, hshares]
  refine h.fewer hslots (fun o ho => hread ▸ ho) ?_ (fun slot hs => hdiscard slot ▸ hs) (fun slot => ?_)
    hlinking hstate
  · rw [horders, hshares]; exact h.readOnce
  · rw [horders, hshares]; exact h.discardOnce slot

/-! ## Orders end (R112) -/

/-- The outstanding order of a line ends. -/
def CameraLine.released (l : CameraLine) : CameraLine := { l with outstanding := none }

theorem released_readWanted (l : CameraLine) : (CameraLine.released l).readWanted = l.orders.read := by
  unfold CameraLine.readWanted CameraLine.released
  cases l.orders.read <;> rfl

theorem released_discardWanted (l : CameraLine) (slot : SlotNo) :
    (CameraLine.released l).discardWanted slot = l.orders.has (.discard slot) := by
  unfold CameraLine.discardWanted CameraLine.released CameraLine.sharesOutstanding
  exact Bool.or_false _

theorem LineFits.released (h : LineFits reads done l) : LineFits reads done (CameraLine.released l) := by
  refine h.fewer rfl (fun o ho => ?_) (.inr rfl) (fun slot hs => ?_) (fun _ => .inr rfl) rfl h.linking
  · rw [released_readWanted] at ho
    unfold CameraLine.readWanted; rw [ho]; rfl
  · rw [released_discardWanted] at hs
    unfold CameraLine.discardWanted; rw [hs]; rfl

/-- Where a READ in flight has ended no READ is wanted (R112). -/
theorem read_ended (h : LineFits reads done l) {slot : SlotNo} {segment ends : Nat} {release : Bool}
    (ho : l.outstanding = some ⟨.read slot segment release, ends, false⟩) :
    l.orders.read = none := by
  refine h.readOnce.resolve_right (fun hs => ?_)
  unfold CameraLine.sharesOutstanding at hs
  rw [ho] at hs
  cases hs

/-- Where a DISCARD in flight has ended none of its slot is wanted (R112). -/
theorem discard_ended (h : LineFits reads done l) {slot : SlotNo} {ends : Nat}
    (ho : l.outstanding = some ⟨.discard slot, ends, false⟩) : l.orders.has (.discard slot) = false := by
  refine (h.discardOnce slot).resolve_right (fun hs => ?_)
  unfold CameraLine.sharesOutstanding Order.sameKind at hs
  rw [ho] at hs
  simp at hs

theorem wanted_of_read {slot : SlotNo} {segment ends : Nat} {release : Bool} (h : LineFits reads done l)
    (ho : l.outstanding = some ⟨.read slot segment release, ends, false⟩) :
    l.readWanted = some ⟨slot, segment, release⟩ := by
  unfold CameraLine.readWanted
  rw [read_ended h ho, ho]; rfl

theorem wanted_of_discard {slot : SlotNo} {ends : Nat} (ho : l.outstanding = some ⟨.discard slot, ends, false⟩) :
    l.discardWanted slot = true := by
  unfold CameraLine.discardWanted CameraLine.sharesOutstanding Order.sameKind
  rw [ho]; simp

/-! ## Orders placed and issued (R112) -/

theorem pend_cases (l : CameraLine) (o : Order) : l.pend o = l
    ∨ (l.orders.has o = false ∧ l.sharesOutstanding o = false
      ∧ l.pend o = { l with orders := l.orders.add o }) := by
  unfold CameraLine.pend
  by_cases h : (l.orders.has o || l.sharesOutstanding o) = true
  · exact .inl (if_pos h)
  · rw [if_neg h]
    rw [Bool.or_eq_true, not_or, Bool.not_eq_true, Bool.not_eq_true] at h
    exact .inr ⟨h.1, h.2, rfl⟩

theorem pend_linking (l : CameraLine) (o : Order) : (l.pend o).linking = l.linking := by
  unfold CameraLine.pend; split <;> rfl

theorem pend_state (l : CameraLine) (o : Order) : (l.pend o).state = l.state := by
  unfold CameraLine.pend; split <;> rfl

/-- A RELINK or a SENSE placed (R112). -/
theorem LineFits.pend_plain (h : LineFits reads done l) {o : Order} (ho : o = .relink ∨ o = .sense) :
    LineFits reads done (l.pend o) := by
  obtain he | ⟨-, -, he⟩ := pend_cases l o
  · rw [he]; exact h
  · rw [he]
    rcases ho with rfl | rfl
    · exact h.fewer rfl (fun _ ho => ho) h.readOnce (fun _ hs => hs) h.discardOnce rfl h.linking
    · exact h.fewer rfl (fun _ ho => ho) h.readOnce (fun _ hs => hs) h.discardOnce rfl h.linking

/-- A READ placed for the shot in its slot (R121). -/
theorem LineFits.pend_read (h : LineFits reads done l) {slot : SlotNo} {segment : Nat} {release : Bool}
    {r : ShotRef} (hslot : l.slots[slot] = some r) (hr : reads ⟨slot, segment, release⟩ r) :
    LineFits reads done (l.pend (.read slot segment release)) := by
  obtain he | ⟨-, hshares, he⟩ := pend_cases l (.read slot segment release)
  · rw [he]; exact h
  · rw [he]
    have hkind : l.sharesOutstanding (.read 0 0 false) = l.sharesOutstanding (.read slot segment release) := by
      unfold CameraLine.sharesOutstanding
      cases l.outstanding with
      | none => rfl
      | some x => dsimp only; cases x.order <;> rfl
    refine ⟨fun o ho => ?_, .inr (hkind.trans hshares), h.discardOnce, h.occupied, h.free, h.linking, h.restarted⟩
    obtain rfl : _ = o := Option.some.inj ho
    exact ⟨r, hslot, hr⟩

/-- A DISCARD placed for the shot in its slot, or by the linking sequence for a free one (R123, R125 to R127). -/
theorem LineFits.pend_discard (h : LineFits reads done l) {slot : SlotNo}
    (hr : ∀ r, l.slots[slot] = some r → done r) (hfree : l.slots[slot] = none → linkingClears l slot) :
    LineFits reads done (l.pend (.discard slot)) := by
  obtain he | ⟨-, hshares, he⟩ := pend_cases l (.discard slot)
  · rw [he]; exact h
  · rw [he]
    have hother : ∀ x, (l.orders.add (.discard slot)).has (.discard x) = true →
        x = slot ∨ l.orders.has (.discard x) = true := fun x hx => by
      rw [has_add_discard, Bool.or_eq_true, beq_iff_eq] at hx
      exact hx.elim .inr (fun hx => .inl hx.symm)
    have hread : (l.orders.add (.discard slot)).read = l.orders.read := by
      unfold PendingOrders.add; dsimp only; split <;> rfl
    have hwanted : ∀ x, ({ l with orders := l.orders.add (.discard slot) } : CameraLine).discardWanted x = true →
        x = slot ∨ l.discardWanted x = true := fun x hx => by
      unfold CameraLine.discardWanted at hx ⊢
      rw [Bool.or_eq_true] at hx ⊢
      rcases hx with hx | hx
      · exact (hother x hx).imp_right .inl
      · exact .inr (.inr hx)
    refine ⟨fun o ho => ?_, ?_, fun x => ?_, fun x r hx hs => ?_, fun x hx hs => ?_, h.linking, h.restarted⟩
    · unfold CameraLine.readWanted at ho
      dsimp only at ho
      rw [hread] at ho
      exact h.read o ho
    · dsimp only; rw [hread]; exact h.readOnce
    · cases hx : (l.orders.add (.discard slot)).has (.discard x) with
      | false => exact .inl rfl
      | true =>
        rcases hother x hx with rfl | hx
        · exact .inr hshares
        · exact .inr ((h.discardOnce x).resolve_left (by rw [hx]; decide))
    · rcases hwanted x hx with rfl | hx
      · exact hr r hs
      · exact h.occupied x r hx hs
    · rcases hwanted x hx with rfl | hx
      · exact hfree hs
      · exact h.free x hx hs

/-- An order issued is wanted as it was while it was pending. -/
theorem LineFits.issue (h : LineFits reads done l) (elapsed : Nat) : LineFits reads done (l.issue elapsed) := by
  obtain ⟨state, slots, ⟨relink, d0, d1, read, sense⟩, out, acc, mark, linking⟩ := l
  cases out with
  | some o => exact h
  | none =>
    cases relink with
    | true => exact h.fewer rfl (fun _ ho => ho) (.inr rfl) (fun _ hs => hs) (fun _ => .inr rfl) rfl h.linking
    | false =>
    cases d0 with
    | true =>
      exact h.fewer rfl (fun _ ho => ho) (.inr rfl) (fun | 0, _ => rfl | 1, hx => hx)
        (fun | 0 => .inl rfl | 1 => .inr rfl) rfl h.linking
    | false =>
    cases d1 with
    | true =>
      exact h.fewer rfl (fun _ ho => ho) (.inr rfl) (fun | 0, hx => hx | 1, _ => rfl)
        (fun | 0 => .inr rfl | 1 => .inl rfl) rfl h.linking
    | false =>
    cases read with
    | some o => exact h.fewer rfl (fun _ ho => ho) (.inl rfl) (fun _ hs => hs) (fun _ => .inr rfl) rfl h.linking
    | none =>
    cases sense with
    | true => exact h.fewer rfl (fun _ ho => ho) (.inl rfl) (fun _ hs => hs) (fun _ => .inr rfl) rfl h.linking
    | false => exact h

/-! ## Slots (R111) -/

theorem setSlot_self (l : CameraLine) (slot : SlotNo) (r : Option ShotRef) :
    (l.setSlot slot r).slots[slot] = r := getElem_setAt_self _ _ _

theorem setSlot_ne (l : CameraLine) {slot x : SlotNo} (r : Option ShotRef) (h : x ≠ slot) :
    (l.setSlot slot r).slots[x] = l.slots[x] := getElem_setAt_ne _ _ _ _ h

/-- A slot freed, with no order for it (R111). -/
theorem LineFits.vacate (h : LineFits reads done l) {slot : SlotNo} (hd : l.discardWanted slot = false)
    (hr : ∀ o, l.readWanted = some o → o.slot ≠ slot) : LineFits reads done (l.setSlot slot none) := by
  refine ⟨fun o ho => ?_, h.readOnce, h.discardOnce, fun x r hw hs => ?_, fun x hw hs => ?_, h.linking,
    fun hl x => ?_⟩
  · rw [setSlot_ne _ _ (hr o ho)]; exact h.read o ho
  · by_cases hx : x = slot
    · subst hx; rw [setSlot_self] at hs; cases hs
    · rw [setSlot_ne _ _ hx] at hs; exact h.occupied x r hw hs
  · by_cases hx : x = slot
    · subst hx; rw [show (l.setSlot x none).discardWanted x = l.discardWanted x from rfl, hd] at hw; cases hw
    · rw [setSlot_ne _ _ hx] at hs; exact h.free x hw hs
  · by_cases hx : x = slot
    · subst hx; exact setSlot_self _ _ _
    · rw [setSlot_ne _ _ hx]; exact h.restarted hl x

/-- A free slot of a line that is not in LINKING takes a shot (R102, R111). -/
theorem LineFits.occupy (h : LineFits reads done l) {slot : SlotNo} (hfree : l.slots[slot] = none)
    (hstate : l.state ≠ .linking) (r : ShotRef) : LineFits reads done (l.setSlot slot (some r)) := by
  have hnone : l.linking = none := by
    cases hl : l.linking with
    | none => rfl
    | some x => exact absurd (h.linking.1 (by rw [hl]; rfl)) hstate
  have hclears : ∀ x, ¬ linkingClears l x := by
    rintro x (hx | ⟨_, _, _, hx, -⟩) <;> rw [hnone] at hx <;> cases hx
  refine ⟨fun o ho => ?_, h.readOnce, h.discardOnce, fun x q hw hs => ?_, fun x hw hs => ?_, h.linking,
    fun hl => ?_⟩
  · obtain ⟨q, hq, ho⟩ := h.read o ho
    refine ⟨q, ?_, ho⟩
    rw [setSlot_ne _ _ (fun hx => by simp only [hx, hfree] at hq; cases hq)]
    exact hq
  · by_cases hx : x = slot
    · subst hx; exact absurd (h.free x hw hfree) (hclears x)
    · rw [setSlot_ne _ _ hx] at hs; exact h.occupied x q hw hs
  · by_cases hx : x = slot
    · subst hx; rw [setSlot_self] at hs; cases hs
    · rw [setSlot_ne _ _ hx] at hs; exact h.free x hw hs
  · unfold linkingRestarted at hl
    change l.linking = _ ∨ l.linking = _ ∨ l.linking = _ at hl
    rw [hnone] at hl
    rcases hl with hl | hl | hl <;> cases hl

/-! ## The linking sequence (R127) -/

/-- The linking sequence takes a step on a line in LINKING: what it still has to discard is what is wanted. -/
theorem LineFits.relink (h : LineFits reads done l) {x : LinkStep} (hstate : l.state = .linking)
    (hclears : ∀ slot, l.discardWanted slot = true → l.slots[slot] = none →
      linkingClears { l with linking := some x } slot)
    (hrestarted : linkingRestarted { l with linking := some x } → ∀ slot : SlotNo, l.slots[slot] = none) :
    LineFits reads done { l with linking := some x } :=
  ⟨h.read, h.readOnce, h.discardOnce, h.occupied, hclears, ⟨fun _ => hstate, fun _ => rfl⟩, hrestarted⟩

/-- The linking sequence ends with the line's change of state (R127). -/
theorem LineFits.linked (h : LineFits reads done l) {st : LineState} (hstate : st ≠ .linking) (mark : Bool)
    (hclears : ∀ slot, l.discardWanted slot = true → l.slots[slot] ≠ none) :
    LineFits reads done { l with linking := none, state := st, disableMark := mark } :=
  ⟨h.read, h.readOnce, h.discardOnce, h.occupied, fun slot hw hs => absurd hs (hclears slot hw),
    ⟨fun hn => (by cases hn), fun hs => absurd hs hstate⟩, fun hl => by rcases hl with hl | hl | hl <;> cases hl⟩

/-- A line without orders or a linking sequence. -/
theorem LineFits.bare (ho : l.orders = .none) (hout : l.outstanding = none ∨ ∃ o e, l.outstanding = some ⟨o, e, true⟩)
    (hlinking : l.linking = none) (hstate : l.state ≠ .linking) : LineFits reads done l := by
  have hshares : ∀ o, l.sharesOutstanding o = false := fun o => by
    unfold CameraLine.sharesOutstanding
    rcases hout with h | ⟨_, _, h⟩ <;> rw [h] <;> rfl
  have hwanted : ∀ slot, l.discardWanted slot = false := fun slot => by
    unfold CameraLine.discardWanted
    rw [hshares, ho]
    unfold PendingOrders.has
    dsimp only
    split <;> rfl
  refine ⟨fun o hr => ?_, .inr (hshares _), fun slot => .inr (hshares _), fun slot r hw => ?_, fun slot hw => ?_,
    ⟨fun hn => ?_, fun hs => absurd hs hstate⟩, fun hl => ?_⟩
  · unfold CameraLine.readWanted at hr
    rcases hout with h | ⟨_, _, h⟩ <;> rw [ho, h] at hr <;> revert hr
    · exact fun hr => nomatch hr
    · split
      · rename_i heq; cases heq
      · exact fun hr => nomatch hr
  · rw [hwanted] at hw; cases hw
  · rw [hwanted] at hw; cases hw
  · rw [hlinking] at hn; cases hn
  · unfold linkingRestarted at hl
    rw [hlinking] at hl
    rcases hl with hl | hl | hl <;> cases hl

end Line

end Sys2Proof.Proofs

/-! PROOFS. One component changed: the passage table, a line, the readout queue, a channel, frame memory. Shots that
an operation is at work on may lose their part in the readout on the way and take another at its end. -/

namespace Sys2Proof.Proofs

open Sys2Proof.Machine

/-! ## What the part of one shot depends on -/

/-- What the readout looks at in a shot's record is the same. -/
structure SameShot (k k' : Shot) : Prop where
  camera : k'.camera = k.camera
  state : k'.state = k.state
  segmentsExpected : k'.segmentsExpected = k.segmentsExpected
  pages : k'.pages = k.pages

theorem SameShot.refl (k : Shot) : SameShot k k := ⟨rfl, rfl, rfl, rfl⟩

/-- From s to t all that the part of a shot depends on has stayed. -/
structure SameAt (s t : State) (r : ShotRef) : Prop where
  shot : Option.Rel SameShot (s.shot? r) (t.shot? r)
  unsettled : ∀ k, s.shot? r = some k → k.state.terminal = false → Unsettled s r → Unsettled t r
  slots : ∀ (c : Camera) (x : SlotNo), t.lines[c].slots[x] = some r ↔ s.lines[c].slots[x] = some r
  queue : r ∈ t.readout.queue ↔ r ∈ s.readout.queue
  channels : ∀ (ch : ChannelNo) (w : ChannelWork), w.shot = r →
    (t.readout.channels[ch] = some w ↔ s.readout.channels[ch] = some w)
  reserved : t.memory.remainder r = s.memory.remainder r
  pages : ∀ pg i, (s.memory.page pg).condition = .held ⟨r, i⟩ → (t.memory.page pg).condition = .held ⟨r, i⟩

section Frame

variable {s t : State} {stop out : ShotRef → Prop} {r : ShotRef}

theorem SameAt.loose (h : SameAt s t r) (hl : Loose s r) : Loose t r where
  slots c x hx := hl.slots c x ((h.slots c x).1 hx)
  queue hq := hl.queue (h.queue.1 hq)
  channels ch w hw hsh := hl.channels ch w ((h.channels ch w hsh).1 hw) hsh
  reserved := h.reserved.trans hl.reserved

theorem SameAt.inSlot (h : SameAt s t r) {c : Camera} {slot : SlotNo} (hs : InSlot s r c slot) :
    InSlot t r c slot := fun d x => (h.slots d x).trans (hs d x)

theorem SameAt.progress (h : SameAt s t r) {k k' : Shot} {w : ChannelWork} (hw : w.shot = r)
    (hk : SameShot k k') (hp : Progress s k w) : Progress t k' w where
  drawn hon := by
    obtain ⟨pg, hpg, hc⟩ := hp.drawn hon
    subst hw
    exact ⟨pg, hpg, h.pages pg _ hc⟩
  count hon := by
    obtain ⟨hlen, hc⟩ := hp.count hon
    subst hw
    rw [hk.pages, h.reserved, hk.segmentsExpected]
    exact ⟨hlen, hc⟩
  ended hoff := by
    obtain ⟨hpg, hz⟩ := hp.ended hoff
    subst hw
    exact ⟨hpg, h.reserved.trans hz⟩

theorem SameAt.role (h : SameAt s t r) (hr : Role s stop r) : Role t stop r := by
  have hshot := h.shot
  cases hr with
  | absent gone loose =>
    rw [gone] at hshot
    cases hshot' : t.shot? r with
    | none => exact .absent hshot' (h.loose loose)
    | some k => rw [hshot'] at hshot; cases hshot
  | pending k found state going pages unsettled loose =>
    obtain ⟨k', hk', hsame⟩ := rel_some hshot found
    refine .pending k' hk' ?_ going (hsame.pages.trans pages) (h.unsettled k found ?_ unsettled) (h.loose loose)
    · unfold pendingShot; rw [hsame.state]; exact state
    · rcases state with state | state <;> rw [state] <;> rfl
  | held k found holding =>
    obtain ⟨k', hk', hsame⟩ := rel_some hshot found
    refine .held k' hk' ⟨hsame.state.trans holding.state, hsame.pages.trans holding.pages,
      h.unsettled k found (by rw [holding.state]; rfl) holding.unsettled, ?_,
      fun ch w hw hsh => holding.channels ch w ((h.channels ch w hsh).1 hw) hsh, fun hgo => ?_, fun hst => ?_⟩
    · obtain ⟨slot, hslot⟩ := holding.slot
      exact ⟨slot, hsame.camera ▸ h.inSlot hslot⟩
    · rw [h.queue, h.reserved, hsame.segmentsExpected]; exact holding.waits hgo
    · rw [h.queue, h.reserved]; exact holding.stops hst
  | reading k ch w found reading =>
    obtain ⟨k', hk', hsame⟩ := rel_some hshot found
    refine .reading k' ch w hk' ⟨hsame.state.trans reading.state,
      h.unsettled k found (by rw [reading.state]; rfl) reading.unsettled, ?_,
      fun hq => reading.queue (h.queue.1 hq), (h.channels ch w reading.shot).2 reading.channel, reading.shot,
      fun i v hv hsh => reading.only i v ((h.channels i v hsh).1 hv) hsh,
      h.progress reading.shot hsame reading.progress⟩
    obtain ⟨slot, hslot⟩ := reading.slot
    exact ⟨slot, hsame.camera ▸ h.inSlot hslot⟩
  | ended k found state loose =>
    obtain ⟨k', hk', hsame⟩ := rel_some hshot found
    exact .ended k' hk' (by rw [hsame.state]; exact state) (h.loose loose)

theorem SameAt.readsFor (h : SameAt s t r) {o : ReadOrder} (hr : readsFor s o r) : readsFor t o r := by
  obtain ⟨ch, w, k, hw, hsh, hk, hstep, hseg, hrel⟩ := hr
  obtain ⟨k', hk', hsame⟩ := rel_some h.shot hk
  exact ⟨ch, w, k', (h.channels ch w hsh).2 hw, hsh, hk', hstep, hseg, by rw [hsame.segmentsExpected]; exact hrel⟩

theorem SameAt.storesNoMore (h : SameAt s t r) (hr : storesNoMore s stop r) : storesNoMore t stop r := by
  refine hr.imp (fun ⟨hst, hs⟩ => ⟨?_, hs⟩)
    (fun ⟨ch, w, hw, hsh, hoff⟩ => ⟨ch, w, (h.channels ch w hsh).2 hw, hsh, hoff⟩)
  obtain ⟨k, hk, hheld⟩ := shot_of_state hst
  obtain ⟨k', hk', hsame⟩ := rel_some h.shot hk
  exact (shotState_of hk').trans (congrArg some (hsame.state.trans hheld))

theorem SameAt.recorded (h : SameAt s t r) (hr : ∀ k, s.shot? r = some k → Recorded s.memory r k) {k' : Shot}
    (hk' : t.shot? r = some k') : Recorded t.memory r k' := by
  obtain ⟨k, hk, hsame⟩ := rel_some_right h.shot hk'
  obtain ⟨h1, h2, h3⟩ := hr k hk
  refine ⟨hsame.segmentsExpected ▸ h1, hsame.segmentsExpected ▸ h2, fun i pg hp => h.pages pg i (h3 i pg ?_)⟩
  rw [← hsame.pages]; exact hp

/-- A line that has stayed fits its orders where its slots' shots have stayed. -/
theorem Agrees.line_same (h : Agrees out stop s) (hsame : ∀ r, ¬ out r → SameAt s t r) {c : Camera}
    (hl : t.lines[c] = s.lines[c]) : LineFits (fun o r => out r ∨ readsFor t o r)
      (fun r => out r ∨ storesNoMore t stop r) t.lines[c] := by
  rw [hl]
  refine (h.lines c).mono (fun o r hr => ?_) (fun r hr => ?_)
  · by_cases ho : out r
    · exact .inl ho
    · exact .inr ((hsame r ho).readsFor (hr.resolve_left ho))
  · by_cases ho : out r
    · exact .inl ho
    · exact .inr ((hsame r ho).storesNoMore (hr.resolve_left ho))

/-- An operation that leaves alone all that the parts of the other shots depend on. -/
theorem Agrees.frame (h : Agrees out stop s) (hsame : ∀ r, ¬ out r → SameAt s t r)
    (hrecords : ∀ r k, out r → t.shot? r = some k → Recorded t.memory r k)
    (hlines : ∀ c : Camera, t.lines[c] = s.lines[c] ∨ LineFits (fun o r => out r ∨ readsFor t o r)
      (fun r => out r ∨ storesNoMore t stop r) t.lines[c])
    (halone : ∀ (i j : ChannelNo) (v w : ChannelWork), t.readout.channels[i] = some v →
      t.readout.channels[j] = some w → t.cameraOf v.shot = t.cameraOf w.shot → i = j)
    (honce : t.readout.queue.Nodup) (hmemory : MemorySound t.memory) : Agrees out stop t where
  roles r hr := (hsame r hr).role (h.roles r hr)
  records r k hk := by
    by_cases hr : out r
    · exact hrecords r k hr hk
    · exact (hsame r hr).recorded (h.records r) hk
  lines c := (hlines c).elim (h.line_same hsame) id
  alone := halone
  once := honce
  memory := hmemory

/-! ## Shots taken up and put down -/

/-- An operation takes up further shots. -/
theorem Agrees.takeUp (h : Agrees out stop s) {out' : ShotRef → Prop} (ho : ∀ r, out r → out' r) :
    Agrees out' stop s :=
  ⟨fun r hr => h.roles r (fun h => hr (ho r h)), h.records,
    fun c => (h.lines c).mono (fun _ r hr => hr.imp_left (ho r)) (fun r hr => hr.imp_left (ho r)),
    h.alone, h.once, h.memory⟩

theorem Agrees.atWork (h : Agrees nothing stop s) (r : ShotRef) : Agrees (· = r) stop s :=
  h.takeUp (fun _ hn => hn.elim)

/-- An operation is done with a shot: it has its part, and orders for its slot are such as they may be. -/
theorem Agrees.putDown (h : Agrees (· = r) stop s) (hr : Role s stop r)
    (hread : ∀ (c : Camera) o, s.lines[c].readWanted = some o → s.lines[c].slots[o.slot] = some r →
      readsFor s o r)
    (hdiscard : ∀ (c : Camera) (slot : SlotNo), s.lines[c].discardWanted slot = true →
      s.lines[c].slots[slot] = some r → storesNoMore s stop r) : Agrees nothing stop s where
  roles q _ := by
    by_cases hq : q = r
    · rw [hq]; exact hr
    · exact h.roles q hq
  records := h.records
  lines c := by
    have hl := h.lines c
    refine ⟨fun o ho => ?_, hl.readOnce, hl.discardOnce, fun slot q hw hs => ?_, hl.free, hl.linking,
      hl.restarted⟩
    · obtain ⟨q, hq, hreads⟩ := hl.read o ho
      refine ⟨q, hq, .inr (hreads.elim (fun hqr => ?_) id)⟩
      subst hqr
      exact hread c o ho hq
    · refine .inr ((hl.occupied slot q hw hs).elim (fun hqr => ?_) id)
      subst hqr
      exact hdiscard c slot hw hs
  alone := h.alone
  once := h.once
  memory := h.memory

/-- An operation is done with a shot that no slot holds. -/
theorem Agrees.putAside (h : Agrees (· = r) stop s) (hr : Role s stop r)
    (hs : ∀ (c : Camera) (x : SlotNo), s.lines[c].slots[x] ≠ some r) : Agrees nothing stop s :=
  h.putDown hr (fun c o _ hslot => absurd hslot (hs c _)) (fun c slot _ hslot => absurd hslot (hs c slot))

/-! ## One component changed -/

theorem rel_same (o : Option Shot) : Option.Rel SameShot o o := rel_refl SameShot.refl o

theorem cameraOf_rel {s t : State} {r : ShotRef} (h : Option.Rel SameShot (s.shot? r) (t.shot? r)) :
    t.cameraOf r = s.cameraOf r := by
  unfold State.cameraOf
  cases hk : s.shot? r with
  | none =>
    rw [hk] at h
    cases hk' : t.shot? r with
    | none => rfl
    | some k' => rw [hk'] at h; cases h
  | some k =>
    obtain ⟨k', hk', hsame⟩ := rel_some h hk
    rw [hk']
    exact congrArg some hsame.camera

/-- The passage table changed: other shots keep what the readout looks at. -/
theorem Agrees.table (h : Agrees out stop s) (hl : t.lines = s.lines) (hr : t.readout = s.readout)
    (hm : t.memory = s.memory)
    (hshots : ∀ r, ¬ out r → Option.Rel SameShot (s.shot? r) (t.shot? r))
    (hunsettled : ∀ r k, ¬ out r → s.shot? r = some k → k.state.terminal = false → Unsettled s r →
      Unsettled t r)
    (hrecords : ∀ r k, out r → t.shot? r = some k → Recorded s.memory r k)
    (hcamera : ∀ (ch : ChannelNo) (w : ChannelWork), s.readout.channels[ch] = some w → out w.shot →
      t.cameraOf w.shot = s.cameraOf w.shot) : Agrees out stop t := by
  have hcameras : ∀ (ch : ChannelNo) (w : ChannelWork), s.readout.channels[ch] = some w →
      t.cameraOf w.shot = s.cameraOf w.shot := fun ch w hw => by
    by_cases ho : out w.shot
    · exact hcamera ch w hw ho
    · exact cameraOf_rel (hshots w.shot ho)
  have hsame : ∀ r, ¬ out r → SameAt s t r := fun r ho =>
    { shot := hshots r ho
      unsettled := fun k hk hst hu => hunsettled r k ho hk hst hu
      slots := fun c x => by rw [hl]
      queue := by rw [hr]
      channels := fun ch w _ => by rw [hr]
      reserved := by rw [hm]
      pages := fun pg i hp => by rw [hm]; exact hp }
  refine h.frame hsame (fun r k ho hk => ?_) (fun c => .inl ?_) ?_ ?_ ?_
  · rw [hm]; exact hrecords r k ho hk
  · rw [hl]
  · rw [hr]
    intro i j v w hv hw he
    rw [hcameras i v hv, hcameras j w hw] at he
    exact h.alone i j v w hv hw he
  · rw [hr]; exact h.once
  · rw [hm]; exact h.memory

/-- The blocks that the parts of the shots depend on are as they were. -/
theorem Agrees.of_blocks (h : Agrees out stop s) (ht : t.table = s.table) (hl : t.lines = s.lines)
    (hr : t.readout = s.readout) (hm : t.memory = s.memory) : Agrees out stop t := by
  have hshot := shot?_of_table ht
  refine h.table hl hr hm (fun r _ => by rw [hshot]; exact rel_same _) (fun r k _ _ _ hu p hp => hu p ?_)
    (fun r k _ hk => h.records r k (by rw [← hshot]; exact hk)) (fun _ _ _ _ => ?_)
  · rw [← hp]; exact (passage?_of_table ht _).symm
  · unfold State.cameraOf; rw [hshot]

/-- A line changed: other shots keep their slots, and its orders fit. -/
theorem Agrees.setLine (h : Agrees out stop s) {c : Camera} {l : CameraLine}
    (hslots : ∀ r, ¬ out r → ∀ x : SlotNo, l.slots[x] = some r ↔ s.lines[c].slots[x] = some r)
    (hl : LineFits (fun o r => out r ∨ readsFor s o r) (fun r => out r ∨ storesNoMore s stop r) l) :
    Agrees out stop (s.setLine c l) := by
  have hlines : ∀ d : Camera, d ≠ c → (s.setLine c l).lines[d] = s.lines[d] := fun d hd =>
    lines_setLine_ne s l hd
  have hsame : ∀ r, ¬ out r → SameAt s (s.setLine c l) r := fun r ho => by
    refine ⟨rel_same _, fun _ _ _ hu => hu, fun d x => ?_, Iff.rfl, fun _ _ _ => Iff.rfl, rfl, fun _ _ hp => hp⟩
    by_cases hd : d = c
    · subst hd; rw [lines_setLine]; exact hslots r ho x
    · rw [hlines d hd]
  refine h.frame hsame (fun r k _ hk => h.records r k hk) (fun d => ?_) h.alone h.once h.memory
  by_cases hd : d = c
  · subst hd
    refine .inr ?_
    rw [lines_setLine]
    exact hl
  · exact .inl (hlines d hd)

/-- A line changed in its orders only. -/
theorem Agrees.setOrders (h : Agrees out stop s) {c : Camera} {l : CameraLine}
    (hslots : l.slots = s.lines[c].slots)
    (hl : LineFits (fun o r => out r ∨ readsFor s o r) (fun r => out r ∨ storesNoMore s stop r) l) :
    Agrees out stop (s.setLine c l) := h.setLine (fun r _ x => by rw [hslots]) hl

/-- The readout queue changed, other shots as they were in it. -/
theorem Agrees.setQueue (h : Agrees out stop s) {queue : List ShotRef}
    (hqueue : ∀ r, ¬ out r → (r ∈ queue ↔ r ∈ s.readout.queue)) (honce : queue.Nodup) :
    Agrees out stop { s with readout := { s.readout with queue := queue } } :=
  h.frame (fun r ho => ⟨rel_same _, fun _ _ _ hu => hu, fun _ _ => Iff.rfl, hqueue r ho, fun _ _ _ => Iff.rfl,
    rfl, fun _ _ hp => hp⟩) (fun r k _ hk => h.records r k hk) (fun _ => .inl rfl) h.alone honce h.memory

/-- A channel changed between works on shots taken up, its camera served by no other channel. -/
theorem Agrees.setChannel (h : Agrees out stop s) {ch : ChannelNo} {work : Option ChannelWork}
    (hold : ∀ v, s.readout.channels[ch] = some v → out v.shot) (hnew : ∀ v, work = some v → out v.shot)
    (halone : ∀ v, work = some v → ∀ (j : ChannelNo) (u : ChannelWork), j ≠ ch →
      s.readout.channels[j] = some u → s.cameraOf u.shot ≠ s.cameraOf v.shot) :
    Agrees out stop (s.setChannel ch work) := by
  have hself : (s.setChannel ch work).readout.channels[ch] = work := getElem_setAt_self _ _ _
  have hne : ∀ j : ChannelNo, j ≠ ch → (s.setChannel ch work).readout.channels[j] = s.readout.channels[j] :=
    fun j hj => getElem_setAt_ne _ _ _ _ hj
  refine h.frame (fun r ho => ⟨rel_same _, fun _ _ _ hu => hu, fun _ _ => Iff.rfl, Iff.rfl, fun j w hw => ?_,
    rfl, fun _ _ hp => hp⟩) (fun r k _ hk => h.records r k hk) (fun _ => .inl rfl) ?_ h.once h.memory
  · by_cases hj : j = ch
    · subst hj hw
      rw [hself]
      exact ⟨fun he => absurd (hnew w he) ho, fun he => absurd (hold w he) ho⟩
    · rw [hne j hj]
  · intro i j v w hv hw he
    by_cases hi : i = ch
    · by_cases hj : j = ch
      · rw [hi, hj]
      · subst hi
        rw [hself] at hv
        rw [hne j hj] at hw
        exact absurd he.symm (halone v hv j w hj hw)
    · rw [hne i hi] at hv
      by_cases hj : j = ch
      · subst hj
        rw [hself] at hw
        exact absurd he (halone w hw i v hi hv)
      · rw [hne j hj] at hw
        exact h.alone i j v w hv hw he

/-- Frame memory changed: other shots keep their pages and remainders. -/
theorem Agrees.setMemory (h : Agrees out stop s) {m : FrameMemory}
    (hreserved : ∀ r, ¬ out r → m.remainder r = s.memory.remainder r)
    (hpages : ∀ r, ¬ out r → ∀ pg i, (s.memory.page pg).condition = .held ⟨r, i⟩ →
      (m.page pg).condition = .held ⟨r, i⟩)
    (hrecords : ∀ r k, out r → s.shot? r = some k → Recorded m r k) (hm : MemorySound m) :
    Agrees out stop (s.setMemory m) :=
  h.frame (fun r ho => ⟨rel_same _, fun _ _ _ hu => hu, fun _ _ => Iff.rfl, Iff.rfl, fun _ _ _ => Iff.rfl,
    hreserved r ho, hpages r ho⟩) hrecords (fun _ => .inl rfl) h.alone h.once hm

end Frame

end Sys2Proof.Proofs

/-! PROOFS. What each operation of frame memory leaves of `MemorySound`: pages in use are counted as one count. -/

namespace Sys2Proof.Proofs

open Sys2Proof.Machine

/-! ## The count of pages that are not free (R136) -/

/-- The page is held or OUT_OF_SERVICE. -/
def pageInUse (p : Page) : Bool := p.condition != .free

/-- Pages held or OUT_OF_SERVICE. -/
def usedPages (m : FrameMemory) : Nat := m.pages.countP (fun e => pageInUse e.2)

theorem usedPages_eq (m : FrameMemory) : m.heldCount + m.outOfServiceCount = usedPages m := by
  unfold FrameMemory.heldCount FrameMemory.outOfServiceCount usedPages
  induction m.pages with
  | nil => rfl
  | cons e l ih =>
    rw [List.countP_cons, List.countP_cons, List.countP_cons, ← ih]
    unfold Page.isHeld pageInUse
    cases e.2.condition <;> simp <;> omega

theorem freeCount_eq (m : FrameMemory) : m.freeCount = logicalPages - usedPages m := by
  unfold FrameMemory.freeCount
  rw [usedPages_eq]

/-- A value put in a canonical list replaces the one read there in a count that leaves the default out. -/
theorem countP_sparsePut {α : Type} [DecidableEq α] {d : α} {f : α → Bool} (hd : f d = false) (k : Nat) (v : α) :
    ∀ l : List (Nat × α), sparseWf d l →
      (sparsePut d l k v).countP (fun e => f e.2) + (f (sparseGet d l k)).toNat
        = l.countP (fun e => f e.2) + (f v).toNat := by
  have one : ∀ (e : Nat × α) (l : List (Nat × α)),
      (e :: l).countP (fun e => f e.2) = l.countP (fun e => f e.2) + (f e.2).toNat := fun e l => by
    rw [List.countP_cons]; cases f e.2 <;> rfl
  have put : ∀ l : List (Nat × α), (if v = d then l else (k, v) :: l).countP (fun e => f e.2)
      = l.countP (fun e => f e.2) + (f v).toNat := fun l => by
    split
    · next h => rw [h, hd]; rfl
    · exact one _ l
  intro l
  induction l with
  | nil =>
    intro _
    have : (f (sparseGet d ([] : List (Nat × α)) k)).toNat = 0 := by
      rw [sparseGet_of_forall_ne (by simp), hd]; rfl
    unfold sparsePut
    rw [put, this]; rfl
  | cons x rest ih =>
    obtain ⟨j, w⟩ := x
    intro h
    have hrising := (List.pairwise_cons.1 h.1).1
    unfold sparsePut
    split
    · next hk =>
      have hmiss : sparseGet d ((j, w) :: rest) k = d := sparseGet_of_forall_ne (fun e he => by
        rcases List.mem_cons.1 he with rfl | he
        · simp only; omega
        · have := hrising e he; simp only at this; omega)
      rw [put, hmiss, hd]; rfl
    · split
      · next hk =>
        subst hk
        have hfound : sparseGet d ((k, w) :: rest) k = w := by simp [sparseGet]
        rw [put, hfound, one]
        dsimp only
        omega
      · next hk =>
        have hskip : sparseGet d ((j, w) :: rest) k = sparseGet d rest k := by
          have : (k == j) = false := by simpa using hk
          simp [sparseGet, List.lookup_cons, this]
        have := ih (sparseWf_tail h)
        rw [one, one, hskip]
        omega

theorem usedPages_setPage {m : FrameMemory} (h : m.wf) (k : Nat) (p : Page) :
    usedPages (m.setPage k p) + (pageInUse (m.page k)).toNat = usedPages m + (pageInUse p).toNat :=
  countP_sparsePut (f := pageInUse) rfl k p m.pages h.2

/-! ## Page numbers -/

/-- A page that does not read as at power-up has a number below 8,192. -/
theorem MemorySound.number {m : FrameMemory} (h : MemorySound m) {k : Nat} {o : PageOwner}
    (hk : (m.page k).condition = .held o) : k < logicalPages :=
  h.numbers _ (FrameMemory.mem_of_page (fun hi => by rw [hi] at hk; cases hk))

theorem numbers_setPage {m : FrameMemory} (h : ∀ e ∈ m.pages, e.1 < logicalPages) {k : Nat} (hk : k < logicalPages)
    (p : Page) : ∀ e ∈ (m.setPage k p).pages, e.1 < logicalPages := fun e he => by
  rcases mem_sparsePut he with he | ⟨he, -⟩
  · exact h e he
  · rw [he]; exact hk

/-- With fewer pages in use than there are, the lowest free number is a page's (R138). -/
theorem lowestFree_some {m : FrameMemory} (h : m.wf) (hfree : 0 < m.freeCount) :
    ∃ k, m.lowestFree = some k ∧ k < logicalPages ∧ (m.page k).condition = .free := by
  obtain ⟨-, hcond, hbelow⟩ := lowestFreeFrom_facts m.pages 0 h.2.1 (fun _ _ => Nat.zero_le _)
  have hlt : lowestFreeFrom m.pages 0 < logicalPages := by
    refine Decidable.byContradiction (fun hge => ?_)
    have hused : List.range logicalPages ⊆ (m.pages.filter (fun e => pageInUse e.2)).map (·.1) := fun j hj => by
      have hj : j < logicalPages := List.mem_range.1 hj
      have hne := hbelow j (Nat.zero_le _) (by omega)
      refine List.mem_map.2 ⟨(j, m.page j), List.mem_filter.2 ⟨FrameMemory.mem_of_page (fun hi => hne ?_), ?_⟩, rfl⟩
      · change (m.page j).condition = .free
        rw [hi]; rfl
      · exact bne_iff_ne.2 hne
    have hlen := (List.nodup_range.subperm hused).length_le
    rw [List.length_range, List.length_map, ← List.countP_eq_length_filter] at hlen
    rw [freeCount_eq] at hfree
    unfold usedPages at hfree
    omega
  refine ⟨_, ?_, hlt, hcond⟩
  unfold FrameMemory.lowestFree
  exact if_pos hlt

/-! ## Pages changed -/

section Pages

variable {m : FrameMemory}

/-- The bytes, spares and threshold state of a memory do not matter. -/
theorem MemorySound.congr (h : MemorySound m) {m' : FrameMemory} (hwf : m'.wf) (hp : m'.pages = m.pages)
    (hr : m'.reservations = m.reservations) : MemorySound m' := by
  refine ⟨hwf, by rw [hp]; exact h.numbers, by rw [hr]; exact h.once, by rw [hr]; exact h.positive, ?_⟩
  have := h.reserved
  rw [freeCount_eq] at this ⊢
  unfold usedPages FrameMemory.reservedCount at *
  rw [hp, hr]
  exact this

/-- A page changed: to a free one, from one in use, or where a page is free that is not reserved. -/
theorem MemorySound.setPage (h : MemorySound m) {k : Nat} (hk : k < logicalPages) {p : Page}
    (hp : p.condition = .free ∨ (m.page k).condition ≠ .free ∨ m.reservedCount < m.freeCount) :
    MemorySound (m.setPage k p) := by
  refine ⟨FrameMemory.setPage_wf h.wf k p, numbers_setPage h.numbers hk p, h.once, h.positive, ?_⟩
  have hused := usedPages_setPage h.wf k p
  have hres := h.reserved
  change m.reservedCount ≤ _
  rw [freeCount_eq] at hres hp ⊢
  have hone := Bool.toNat_le (pageInUse p)
  rcases hp with hp | hp | hp
  · have : (pageInUse p).toNat = 0 := by unfold pageInUse; rw [hp]; rfl
    omega
  · have : (pageInUse (m.page k)).toNat = 1 := by
      unfold pageInUse; rw [bne_iff_ne.2 hp]; rfl
    omega
  · omega

/-- A page changed from one condition to the same. -/
theorem MemorySound.setPage_same (h : MemorySound m) {k : Nat} (hk : k < logicalPages) {p : Page}
    (hp : p.condition = (m.page k).condition) : MemorySound (m.setPage k p) := by
  by_cases hf : (m.page k).condition = .free
  · exact h.setPage hk (.inl (hp.trans hf))
  · exact h.setPage hk (.inr (.inl hf))

theorem reservedCount_setPage (k : Nat) (p : Page) : (m.setPage k p).reservedCount = m.reservedCount := rfl

/-- A page taken off its spare (R144). -/
theorem MemorySound.offSpare (h : MemorySound m) {k : Nat} (hk : k < logicalPages) : MemorySound (m.offSpare k) :=
  (h.setPage_same hk (p := { m.page k with spare := none }) rfl).congr (FrameMemory.offSpare_wf h.wf k) rfl rfl

/-- A page retired: one in use, one with a spare to go to, or one of those that are not reserved (R144). -/
theorem MemorySound.retire (h : MemorySound m) {k : Nat} (hk : k < logicalPages) (preferred : Option Nat)
    (cause : RetireCause)
    (hroom : (m.page k).condition ≠ .free ∨ m.target preferred ≠ none ∨ m.reservedCount < m.freeCount) :
    MemorySound (m.retire k preferred cause).1 := by
  have hoff := h.offSpare hk
  have hpage : (m.offSpare k).page k = { m.page k with spare := none } := FrameMemory.page_setPage_self h.wf k _
  have htarget : retireTarget m k preferred = m.target preferred := by
    have hp := (FrameMemory.retire_facts h.wf k preferred cause).1
    rw [retire_eq, FrameMemory.page_setPage_self hoff.wf] at hp
    revert hp
    cases retireTarget m k preferred <;> cases m.target preferred <;> simp [Page.movedTo]
  rw [retire_eq]
  refine hoff.setPage hk ?_
  rw [hpage, htarget]
  rcases hroom with hroom | hroom | hroom
  · exact .inr (.inl hroom)
  · refine .inl ?_
    cases ht : m.target preferred with
    | none => exact absurd ht hroom
    | some sp => rfl
  · refine .inr (.inr ?_)
    have hused := usedPages_setPage h.wf k { m.page k with spare := none }
    rw [freeCount_eq] at hroom ⊢
    change m.reservedCount < logicalPages - usedPages (m.setPage k { m.page k with spare := none })
    have : (pageInUse (m.page k)).toNat = (pageInUse { m.page k with spare := none }).toNat := rfl
    omega

/-- A page in use freed (R143). -/
theorem MemorySound.free (h : MemorySound m) {k : Nat} (hk : (m.page k).condition ≠ .free)
    (hlt : k < logicalPages) : MemorySound (m.free k).1 := by
  unfold FrameMemory.free
  split
  · exact h.setPage hlt (.inl rfl)
  · exact h.retire hlt _ _ (.inl hk)

theorem free_reservations (h : m.wf) (k : Nat) : (m.free k).1.reservations = m.reservations := by
  unfold FrameMemory.free
  split
  · rfl
  · obtain ⟨-, -, -, -, -, -, hres, -⟩ := FrameMemory.retire_facts h k ‹RetireMark›.preferred ‹RetireMark›.cause
    exact hres

theorem free_remainder (h : m.wf) (k : Nat) (r : ShotRef) : (m.free k).1.remainder r = m.remainder r := by
  unfold FrameMemory.remainder
  rw [free_reservations h]

end Pages

/-! ## Reservations (R137 to R139) -/

section Reservations

variable {m : FrameMemory}

theorem remainder_returned_self (m : FrameMemory) (r : ShotRef) : (m.returnReservation r).remainder r = 0 := by
  rw [FrameMemory.remainder_eq]
  exact remainderIn_none (by
    rintro hr
    obtain ⟨e, he, rfl⟩ := List.mem_map.1 hr
    have := (List.mem_filter.1 he).2
    simp at this)

theorem remainder_returned_ne (m : FrameMemory) {q r : ShotRef} (h : q ≠ r) :
    (m.returnReservation r).remainder q = m.remainder q := by
  rw [FrameMemory.remainder_eq, FrameMemory.remainder_eq]
  unfold FrameMemory.returnReservation
  dsimp only
  induction m.reservations with
  | nil => rfl
  | cons e l ih =>
    rw [List.filter_cons, remainderIn_cons]
    by_cases he : e.shot = r
    · rw [if_neg (by simpa using he), if_neg (fun hq : e.shot = q => h (hq.symm.trans he)), ih]
    · rw [if_pos (by simpa using he), remainderIn_cons, ih]

theorem MemorySound.returnReservation (h : MemorySound m) (r : ShotRef) : MemorySound (m.returnReservation r) := by
  refine ⟨h.wf, h.numbers, ?_, fun e he => h.positive e (List.mem_of_mem_filter he), ?_⟩
  · exact h.once.sublist ((List.filter_sublist).map _)
  · refine Nat.le_trans ?_ h.reserved
    exact ((List.filter_sublist (p := fun e : Reservation => e.shot != r)).map Reservation.pages).sum_le_sum
      (fun _ _ => Nat.zero_le _)

theorem remainder_reserve_self {r : ShotRef} (n : Nat) (h : m.remainder r = 0)
    (hpos : ∀ e ∈ m.reservations, 0 < e.pages) : (m.reserve r n).remainder r = n := by
  rw [FrameMemory.remainder_eq] at *
  change remainderIn r (m.reservations ++ [⟨r, n⟩]) = n
  generalize m.reservations = l at h hpos
  induction l with
  | nil => exact if_pos rfl
  | cons e l ih =>
    rw [remainderIn_cons] at h
    rw [List.cons_append, remainderIn_cons]
    by_cases he : e.shot = r
    · rw [if_pos he] at h
      have := hpos e (List.mem_cons_self ..)
      omega
    · rw [if_neg he] at h ⊢
      exact ih h (fun e he => hpos e (List.mem_cons_of_mem _ he))

theorem remainder_reserve_ne {q r : ShotRef} (n : Nat) (h : q ≠ r) : (m.reserve r n).remainder q = m.remainder q := by
  rw [FrameMemory.remainder_eq, FrameMemory.remainder_eq]
  change remainderIn q (m.reservations ++ [⟨r, n⟩]) = _
  induction m.reservations with
  | nil => exact if_neg (fun hq : r = q => h hq.symm)
  | cons e l ih => rw [List.cons_append, remainderIn_cons, remainderIn_cons, ih]

theorem MemorySound.reserve (h : MemorySound m) {r : ShotRef} {n : Nat} (hr : m.remainder r = 0) (hn : 0 < n)
    (hroom : m.canReserve n = true) : MemorySound (m.reserve r n) := by
  have hroom : m.reservedCount + n ≤ m.freeCount := of_decide_eq_true hroom
  refine ⟨h.wf, h.numbers, ?_, ?_, ?_⟩
  · change ((m.reservations ++ [(⟨r, n⟩ : Reservation)]).map (·.shot)).Nodup
    rw [List.map_append, List.nodup_append]
    refine ⟨h.once, by simp, fun a ha b hb hab => ?_⟩
    obtain ⟨e, he, rfl⟩ := List.mem_map.1 ha
    obtain rfl : b = r := by simpa using hb
    have := remainder_of_entry h.once he
    rw [hab, hr] at this
    have := h.positive e he
    omega
  · intro e he
    rcases List.mem_append.1 he with he | he
    · exact h.positive e he
    · obtain rfl : e = (⟨r, n⟩ : Reservation) := by simpa using he
      exact hn
  · unfold FrameMemory.reservedCount FrameMemory.reserve at *
    simp only [List.map_append, List.sum_append, List.map_cons, List.map_nil, List.sum_cons, List.sum_nil]
    exact hroom

/-- What a draw for a segment does (R138). -/
structure Drawn (m m' : FrameMemory) (r : ShotRef) (segment k : Nat) : Prop where
  sound : MemorySound m'
  page : (m'.page k).condition = .held ⟨r, segment⟩
  was : (m.page k).condition = .free
  others : ∀ j, j ≠ k → m'.page j = m.page j
  remainder : m'.remainder r + 1 = m.remainder r
  others_remainder : ∀ q, q ≠ r → m'.remainder q = m.remainder q

theorem draw_drawn (h : MemorySound m) {r : ShotRef} (hr : 0 < m.remainder r) (segment : Nat) :
    ∃ k, (m.draw r segment).2 = some k ∧ Drawn m (m.draw r segment).1 r segment k := by
  obtain ⟨e, he, rfl, hpages⟩ := entry_of_remainder (m := m) (r := r) (by omega)
  have hle : m.remainder e.shot ≤ m.reservedCount := by
    rw [← hpages]
    exact List.single_le_sum (fun _ _ => Nat.zero_le _) _ (List.mem_map_of_mem he)
  obtain ⟨k, hk, hlt, hfree⟩ := lowestFree_some h.wf (Nat.lt_of_lt_of_le (by omega) h.reserved)
  have hdraw : m.draw e.shot segment
      = ((m.setPage k { m.page k with condition := .held ⟨e.shot, segment⟩ }).lowerRemainder e.shot, some k) := by
    unfold FrameMemory.draw
    rw [hk]
  set v := m.setPage k { m.page k with condition := .held ⟨e.shot, segment⟩ } with hv
  obtain ⟨hself, hcount, hothers⟩ := FrameMemory.lowerRemainder_facts v e.shot h.once
  have hpage : ∀ j, (v.lowerRemainder e.shot).page j = v.page j := fun _ => rfl
  rw [hdraw]
  refine ⟨k, rfl, ⟨?_, ?_, ?_, fun e' he' => ?_, ?_⟩, ?_, hfree, fun j hj => ?_, ?_, hothers⟩
  · exact FrameMemory.lowerRemainder_wf (FrameMemory.setPage_wf h.wf _ _) _
  · exact numbers_setPage h.numbers hlt _
  · rw [FrameMemory.lowerRemainder_eq]
    exact h.once.sublist (shots_lowered _ _)
  · have := (List.mem_filter.1 he').2
    simp only [bne_iff_ne] at this
    omega
  · have hused := usedPages_setPage h.wf k { m.page k with condition := .held ⟨e.shot, segment⟩ }
    have hwas : (pageInUse (m.page k)).toNat = 0 := by unfold pageInUse; rw [hfree]; rfl
    have hnow := Bool.toNat_le (pageInUse { m.page k with condition := .held ⟨e.shot, segment⟩ })
    have hres := h.reserved
    have hrem : v.remainder e.shot = m.remainder e.shot := rfl
    have hvres : v.reservedCount = m.reservedCount := rfl
    rw [freeCount_eq] at hres ⊢
    change (v.lowerRemainder e.shot).reservedCount ≤ logicalPages - usedPages v
    rw [← hv] at hused
    have : min 1 (v.remainder e.shot) = 1 := by omega
    omega
  · rw [hpage, hv, FrameMemory.page_setPage_self h.wf]
  · rw [hpage, hv, FrameMemory.page_setPage_ne h.wf k j _ hj]
  · have hrem : v.remainder e.shot = m.remainder e.shot := rfl
    change (v.lowerRemainder e.shot).remainder e.shot + 1 = _
    omega

end Reservations

end Sys2Proof.Proofs

/-! PROOFS. Agreement under changes of the passage table: records edited, shots planned, ended and reported, and
passages settled (R40, R76, R78, R83, R85). -/

namespace Sys2Proof.Proofs

open Sys2Proof.Machine

/-- Shots, slots, channels, queue, orders, pages and reservations agree. -/
def Accords (s : State) : Prop := Agrees nothing (stopping s) s

section Table

variable {s t : State} {stop stop' out : ShotRef → Prop} {r : ShotRef}

/-! ## Passages in STOPPING -/

theorem live_of_unread {k : Shot} (h : pendingShot k ∨ k.state = .held) : k.state.terminal = false := by
  rcases h with (h | h) | h <;> rw [h] <;> rfl

theorem Role.restop (h : Role s stop r)
    (hs : ∀ k, s.shot? r = some k → pendingShot k ∨ k.state = .held → (stop' r ↔ stop r)) : Role s stop' r := by
  cases h with
  | absent gone loose => exact .absent gone loose
  | pending k found state going pages unsettled loose =>
    exact .pending k found state (fun h => going ((hs k found (.inl state)).1 h)) pages unsettled loose
  | held k found holding =>
    have hsame := hs k found (.inr holding.state)
    exact .held k found { holding with
      waits := fun h => holding.waits (fun h' => h (hsame.2 h'))
      stops := fun h => holding.stops (hsame.1 h) }
  | reading k ch w found reading => exact .reading k ch w found { reading with }
  | ended k found state loose => exact .ended k found state loose

theorem storesNoMore.restop (h : storesNoMore s stop r)
    (hs : ∀ k, s.shot? r = some k → pendingShot k ∨ k.state = .held → (stop' r ↔ stop r)) : storesNoMore s stop' r := by
  refine h.imp_left (fun ⟨hst, hstop⟩ => ⟨hst, ?_⟩)
  obtain ⟨k, hk, hheld⟩ := shot_of_state hst
  exact (hs k hk (.inr hheld)).2 hstop

/-- Which passages are in STOPPING matters for shots that are to fire or HELD. -/
theorem Agrees.restop (h : Agrees out stop s)
    (hs : ∀ r k, ¬ out r → s.shot? r = some k → pendingShot k ∨ k.state = .held → (stop' r ↔ stop r)) :
    Agrees out stop' s where
  roles r ho := (h.roles r ho).restop (fun k => hs r k ho)
  records := h.records
  lines c := (h.lines c).mono (fun _ _ hr => hr) (fun r hr => by
    by_cases ho : out r
    · exact .inl ho
    · exact .inr ((hr.resolve_left ho).restop (fun k => hs r k ho)))
  alone := h.alone
  once := h.once
  memory := h.memory

theorem stopping_of_table (h : t.table = s.table) : stopping t = stopping s := by
  funext r
  unfold stopping State.shotStopping
  rw [passage?_of_table h]

theorem Agrees.blocks (h : Agrees out (stopping s) s) (ht : t.table = s.table := by rfl)
    (hl : t.lines = s.lines := by rfl) (hr : t.readout = s.readout := by rfl)
    (hm : t.memory = s.memory := by rfl) : Agrees out (stopping t) t := by
  rw [stopping_of_table ht]
  exact h.of_blocks ht hl hr hm

/-! ## Records edited -/

theorem stopping_modifyPassage (s : State) (n : Nat) {f : Passage → Passage} (hn : ∀ p, (f p).number = p.number)
    (hs : ∀ p, (f p).state = p.state) : stopping (s.modifyPassage n f) = stopping s := by
  funext r
  refine propext ?_
  rw [stopping_iff, stopping_iff, passage?_modify s n r.passage f hn]
  cases s.passage? r.passage with
  | none => simp
  | some p =>
    simp only [Option.map_some, Option.some.injEq, exists_eq_left']
    split
    · rw [hs]
    · rfl

theorem Unsettled.modifyPassage (h : Unsettled s r) (n : Nat) {f : Passage → Passage}
    (hn : ∀ p, (f p).number = p.number) (hs : ∀ p, isOver (f p) → isOver p) : Unsettled (s.modifyPassage n f) r := by
  intro p hp
  rw [passage?_modify s n r.passage f hn] at hp
  obtain ⟨q, hq, rfl⟩ := Option.map_eq_some_iff.1 hp
  intro hover
  refine h q hq ?_
  split at hover
  · exact hs q hover
  · exact hover

/-- A record edited in other fields than state and shots. -/
theorem Agrees.edit (h : Agrees out (stopping s) s) (n : Nat) {f : Passage → Passage}
    (hn : ∀ p, (f p).number = p.number) (hs : ∀ p, (f p).state = p.state) (hk : ∀ p, (f p).shots = p.shots) :
    Agrees out (stopping (s.modifyPassage n f)) (s.modifyPassage n f) := by
  have hshot := fun r => shot?_modifyPassage s n f r hn hk
  rw [stopping_modifyPassage s n hn hs]
  refine h.table rfl rfl rfl (fun r _ => ?_) (fun r _ _ _ _ hu => hu.modifyPassage n hn (fun p hp => ?_))
    (fun r k _ hk' => h.records r k ?_) (fun _ _ _ _ => ?_)
  · rw [hshot]; exact rel_same _
  · unfold isOver at *; rw [← hs]; exact hp
  · rw [← hshot]; exact hk'
  · unfold State.cameraOf; rw [hshot]

theorem Agrees.recordFault (h : Agrees out (stopping s) s) (n : Nat) (c : FaultCode) (a k : Option Nat) :
    Agrees out (stopping (s.recordFault n c a k)) (s.recordFault n c a k) :=
  h.edit n (fun _ => rfl) (fun _ => rfl) (fun _ => rfl)

theorem Agrees.queueNotice (h : Agrees out (stopping s) s) (x : Notice) :
    Agrees out (stopping (s.queueNotice x)) (s.queueNotice x) := by
  obtain ⟨-, -, htable, -, -, -, hlines, hreadout, hmemory, -⟩ := queueNotice_facts s x
  exact h.blocks htable hlines hreadout hmemory

theorem Agrees.queueNotices (l : List Notice) : ∀ {s : State}, Agrees out (stopping s) s →
    Agrees out (stopping (s.queueNotices l)) (s.queueNotices l) := by
  induction l with
  | nil => exact fun h => h
  | cons x l ih => exact fun h => ih (h.queueNotice x)

/-! ## Shots changed -/

theorem stopping_modifyShot (s : State) (r : ShotRef) (f : Shot → Shot) :
    stopping (s.modifyShot r f) = stopping s :=
  stopping_modifyPassage s r.passage (f := fun p => p.modifyShot r.shot f) (fun _ => rfl) (fun _ => rfl)

theorem unsettled_modifyShot {q : ShotRef} (h : Unsettled s q) (r : ShotRef) (f : Shot → Shot) :
    Unsettled (s.modifyShot r f) q :=
  h.modifyPassage r.passage (f := fun p => p.modifyShot r.shot f) (fun _ => rfl) (fun _ hp => hp)

theorem shot?_modifyShot_self {k : Shot} (hk : s.shot? r = some k) (f : Shot → Shot) :
    (s.modifyShot r f).shot? r = some (f k) := by
  rw [shot?_modifyShot, hk, Option.map_some, if_pos rfl]

/-- A shot's record changed in what the readout does not look at. -/
theorem Agrees.modifyShot_same (h : Agrees out (stopping s) s) (r : ShotRef) {f : Shot → Shot}
    (hf : ∀ k, SameShot k (f k)) : Agrees out (stopping (s.modifyShot r f)) (s.modifyShot r f) := by
  have hrel : ∀ q, Option.Rel SameShot (s.shot? q) ((s.modifyShot r f).shot? q) := fun q => by
    rw [shot?_modifyShot]
    cases s.shot? q with
    | none => exact .none
    | some k =>
      refine .some ?_
      split
      · exact hf k
      · exact .refl k
  rw [stopping_modifyShot]
  refine h.table rfl rfl rfl (fun q _ => hrel q) (fun q _ _ _ _ hu => unsettled_modifyShot hu r f)
    (fun q k _ hk => ?_) (fun _ _ _ _ => cameraOf_rel (hrel _))
  obtain ⟨k', hk', hsame⟩ := rel_some_right (hrel q) hk
  obtain ⟨h1, h2, h3⟩ := h.records q k' hk'
  exact ⟨hsame.segmentsExpected ▸ h1, hsame.segmentsExpected ▸ h2, fun i pg hp => h3 i pg (hsame.pages ▸ hp)⟩

/-- The record of a shot at work changed. -/
theorem Agrees.rewriteShot (h : Agrees (· = r) stop s) {k : Shot} (hk : s.shot? r = some k) {f : Shot → Shot}
    (hcamera : (f k).camera = k.camera) (hrecord : Recorded s.memory r (f k)) :
    Agrees (· = r) stop (s.modifyShot r f) := by
  have hself := shot?_modifyShot_self hk f
  refine h.table rfl rfl rfl (fun q hq => ?_) (fun q _ _ _ _ hu => unsettled_modifyShot hu r f) ?_ ?_
  · have : (s.modifyShot r f).shot? q = s.shot? q := by
      rw [shot?_modifyShot]; simp [hq]
    rw [this]; exact rel_same _
  · rintro q l rfl hl
    obtain rfl := Option.some.inj (hself.symm.trans hl)
    exact hrecord
  · intro _ _ _ hw
    unfold State.cameraOf
    rw [hw, hself, hk]
    exact congrArg some hcamera

theorem Agrees.modifyShot (h : Agrees (· = r) (stopping s) s) {k : Shot} (hk : s.shot? r = some k) {f : Shot → Shot}
    (hcamera : (f k).camera = k.camera) (hrecord : Recorded s.memory r (f k)) :
    Agrees (· = r) (stopping (s.modifyShot r f)) (s.modifyShot r f) := by
  rw [stopping_modifyShot]
  exact h.rewriteShot hk hcamera hrecord

theorem Loose.of_blocks (h : Loose s r) (hl : t.lines = s.lines := by rfl) (hr : t.readout = s.readout := by rfl)
    (hm : t.memory = s.memory := by rfl) : Loose t r :=
  ⟨by rw [hl]; exact h.slots, by rw [hr]; exact h.queue, by rw [hr]; exact h.channels, by rw [hm]; exact h.reserved⟩

/-- A shot that is to fire takes another such record or its end (R80 to R85, R90). -/
theorem Accords.modifyPending (h : Accords s) {k : Shot} (hk : s.shot? r = some k) (hpending : pendingShot k)
    {f : Shot → Shot} (hcamera : (f k).camera = k.camera) (hsegments : (f k).segmentsExpected = k.segmentsExpected)
    (hpages : (f k).pages = k.pages) (hnew : pendingShot (f k) ∨ (f k).state.terminal = true) :
    Accords (s.modifyShot r f) := by
  obtain ⟨hgo, hnone, hunsettled, hloose⟩ := role_of_pending h hk hpending
  have hself := shot?_modifyShot_self hk f
  obtain ⟨h1, h2, h3⟩ := h.records r k hk
  have hwork := (h.atWork r).modifyShot hk hcamera
    ⟨hsegments ▸ h1, hsegments ▸ h2, fun i pg hp => h3 i pg (hpages ▸ hp)⟩
  have hloose' : Loose (s.modifyShot r f) r := hloose.of_blocks
  refine hwork.putAside ?_ hloose'.slots
  rcases hnew with hnew | hnew
  · exact .pending (f k) hself hnew (by rw [stopping_modifyShot]; exact hgo) (hpages.trans hnone)
      (unsettled_modifyShot hunsettled r f) hloose'
  · exact .ended (f k) hself hnew hloose'

/-! ## Settlement (R40, R45) -/

/-- The shots of a passage that settles are terminal. -/
theorem terminal_of_settled {n : Nat} {p : Passage} (hp : s.passage? n = some p) (hset : p.settled = true)
    {q : ShotRef} (hq : q.passage = n) {k : Shot} (hk : s.shot? q = some k) : k.state.terminal = true := by
  rw [shot?_of_passage? (hq ▸ hp)] at hk
  exact List.all_eq_true.1 hset k (List.mem_of_getElem? hk)

theorem Agrees.settleAs (h : Agrees out (stopping s) s) {n : Nat} {p : Passage} (hp : s.passage? n = some p)
    (hset : p.settled = true) (st : PassageState) (time : GantryTime) (epoch : Byte) :
    Agrees out (stopping (s.modifyPassage n (·.settleAs st time epoch))) (s.modifyPassage n (·.settleAs st time epoch)) := by
  have hshot := fun r => shot?_modifyPassage s n (·.settleAs st time epoch) r (fun _ => rfl) (fun _ => rfl)
  have hother : ∀ (q : ShotRef) (k : Shot), s.shot? q = some k → k.state.terminal = false →
      (s.modifyPassage n (·.settleAs st time epoch)).passage? q.passage = s.passage? q.passage := fun q k hk hst => by
    rw [passage?_modify s n q.passage (·.settleAs st time epoch) (fun _ => rfl)]
    have hne : q.passage ≠ n := fun hq => by rw [terminal_of_settled hp hset hq hk] at hst; cases hst
    simp [hne]
  have hsame : Agrees out (stopping s) (s.modifyPassage n (·.settleAs st time epoch)) := by
    refine h.table rfl rfl rfl (fun r _ => ?_) (fun r k _ hk hst hu p hp => ?_) (fun r k _ hk => h.records r k ?_)
      (fun _ _ _ _ => ?_)
    · rw [hshot]; exact rel_same _
    · rw [hother r k hk hst] at hp; exact hu p hp
    · rw [← hshot]; exact hk
    · unfold State.cameraOf; rw [hshot]
  refine hsame.restop (fun r k _ hk hst => ?_)
  rw [hshot] at hk
  rw [stopping_iff, stopping_iff, hother r k hk (live_of_unread hst)]

theorem Agrees.checkSettled (h : Agrees out (stopping s) s) (n : Nat) :
    Agrees out (stopping (s.checkSettled n)) (s.checkSettled n) := by
  unfold State.checkSettled
  split
  · exact h
  · next p hp =>
    split
    · next hset =>
      split
      · exact (h.settleAs hp hset _ _ _).queueNotice _
      · exact (h.settleAs hp hset _ _ _).queueNotice _
      all_goals exact h
    · exact h

theorem Accords.skipShot (h : Accords s) {k : Shot} (hk : s.shot? r = some k) (hpending : pendingShot k)
    (why : SkipReason) : Accords (s.skipShot r why) := by
  have h1 : Accords (s.modifyShot r (fun k => { k with skipReason := some why })) :=
    h.modifyShot_same r (fun _ => ⟨rfl, rfl, rfl, rfl⟩)
  exact (h1.modifyPending (shot?_modifyShot_self hk _) hpending (f := fun k => { k with state := .skipped })
    rfl rfl rfl (.inr rfl)).checkSettled _

/-! ## A shot made (R78) -/

theorem Accords.appendShot (h : Accords s) {n : Nat} {p : Passage} (hp : s.passage? n = some p)
    (hopen : p.isOpen = true) {k : Shot} (hlow : 1 ≤ k.segmentsExpected) (hhigh : k.segmentsExpected ≤ 64)
    (hpages : k.pages = []) (hnew : pendingShot k ∨ k.state.terminal = true) : Accords (s.appendShot n k) := by
  have hpass : ∀ m, (s.appendShot n k).passage? m
      = (s.passage? m).map (fun q => if m = n then { q with shots := q.shots ++ [k] } else q) := fun m =>
    passage?_modify s n m (fun q => { q with shots := q.shots ++ [k] }) (fun _ => rfl)
  have hp' : (s.appendShot n k).passage? n = some { p with shots := p.shots ++ [k] } := by
    rw [hpass, hp, Option.map_some, if_pos rfl]
  have hnone : s.shot? ⟨n, p.shots.length⟩ = none :=
    (shot?_of_passage? hp _).trans (List.getElem?_eq_none (Nat.le_refl _))
  have hself : (s.appendShot n k).shot? ⟨n, p.shots.length⟩ = some k :=
    (shot?_of_passage? hp' _).trans (by simp)
  have hothers : ∀ q, q ≠ ⟨n, p.shots.length⟩ → (s.appendShot n k).shot? q = s.shot? q := by
    rintro ⟨m, i⟩ hq
    by_cases hm : m = n
    · subst hm
      have hi : i ≠ p.shots.length := fun h => hq (h ▸ rfl)
      rw [shot?_of_passage? hp', shot?_of_passage? hp, List.getElem?_append]
      split
      · rfl
      · rw [List.getElem?_eq_none (by simp; omega), List.getElem?_eq_none (by omega)]
    · unfold State.shot?
      rw [hpass]
      simp [hm]
  have hloose : Loose s ⟨n, p.shots.length⟩ := by
    cases h.roles ⟨n, p.shots.length⟩ id with
    | absent _ loose => exact loose
    | pending _ _ _ _ _ _ loose => exact loose
    | held _ found => rw [hnone] at found; cases found
    | reading _ _ _ found => rw [hnone] at found; cases found
    | ended _ _ _ loose => exact loose
  have hstop : stopping (s.appendShot n k) = stopping s :=
    stopping_modifyPassage s n (fun _ => rfl) (fun _ => rfl)
  have hstate := (Passage.isOpen_iff p).1 hopen
  have hwork : Agrees (· = ⟨n, p.shots.length⟩) (stopping (s.appendShot n k)) (s.appendShot n k) := by
    rw [hstop]
    refine (h.atWork _).table rfl rfl rfl (fun q hq => ?_)
      (fun q _ _ _ _ hu => hu.modifyPassage n (fun _ => rfl) (fun _ hp => hp)) ?_ ?_
    · rw [hothers q hq]; exact rel_same _
    · rintro q l rfl hl
      obtain rfl := Option.some.inj (hself.symm.trans hl)
      exact ⟨hlow, hhigh, fun i pg hpg => by rw [hpages] at hpg; cases hpg⟩
    · exact fun ch w hw ho => absurd ho (hloose.channels ch w hw)
  have hloose' : Loose (s.appendShot n k) ⟨n, p.shots.length⟩ := hloose.of_blocks
  refine hwork.putAside ?_ hloose'.slots
  rcases hnew with hnew | hnew
  · refine .pending k hself hnew (fun hst => ?_) hpages (fun q hq hover => ?_) hloose'
    · obtain ⟨q, hq, hq'⟩ := stopping_iff.1 (hstop ▸ hst)
      obtain rfl := Option.some.inj (hp.symm.trans hq)
      rw [hq'] at hstate
      rcases hstate with h | h <;> cases h
    · obtain rfl := Option.some.inj (hp'.symm.trans hq)
      exact not_over_of_isOpen hopen hover
  · exact .ended k hself hnew hloose'

end Table

end Sys2Proof.Proofs

/-! PROOFS. Agreement under orders placed and issued, under the grant, and under the start of a segment (R112, R120,
R121). -/

namespace Sys2Proof.Proofs

open Sys2Proof.Machine

section Orders

variable {s t : State} {stop out : ShotRef → Prop} {r : ShotRef} {l : CameraLine}

/-! ## What is wanted of a line after an order is placed -/

theorem pend_discard_readWanted (l : CameraLine) (slot : SlotNo) :
    (l.pend (.discard slot)).readWanted = l.readWanted := by
  obtain he | ⟨-, -, he⟩ := pend_cases l (.discard slot)
  · rw [he]
  · rw [he]
    unfold CameraLine.readWanted PendingOrders.add
    dsimp only
    split <;> rfl

theorem pend_read_discardWanted (l : CameraLine) (slot : SlotNo) (segment : Nat) (release : Bool) (x : SlotNo) :
    (l.pend (.read slot segment release)).discardWanted x = l.discardWanted x := by
  obtain he | ⟨-, -, he⟩ := pend_cases l (.read slot segment release)
  · rw [he]
  · rw [he]; rfl

theorem pend_plain_readWanted (l : CameraLine) {o : Order} (ho : o = .relink ∨ o = .sense) :
    (l.pend o).readWanted = l.readWanted := by
  obtain he | ⟨-, -, he⟩ := pend_cases l o
  · rw [he]
  · rw [he]; rcases ho with rfl | rfl <;> rfl

theorem pend_plain_discardWanted (l : CameraLine) {o : Order} (ho : o = .relink ∨ o = .sense) (x : SlotNo) :
    (l.pend o).discardWanted x = l.discardWanted x := by
  obtain he | ⟨-, -, he⟩ := pend_cases l o
  · rw [he]
  · rw [he]; rcases ho with rfl | rfl <;> rfl

/-- A line on which no READ is wanted takes the one placed. -/
theorem pend_read_readWanted (h : l.readWanted = none) (slot : SlotNo) (segment : Nat) (release : Bool) :
    (l.pend (.read slot segment release)).readWanted = some ⟨slot, segment, release⟩ := by
  unfold CameraLine.readWanted at h
  obtain ⟨hpending, hout⟩ := Option.or_eq_none_iff.1 h
  have hshares : l.sharesOutstanding (.read slot segment release) = false := by
    unfold CameraLine.sharesOutstanding
    cases ho : l.outstanding with
    | none => rfl
    | some x =>
      obtain ⟨o, ends, ignored⟩ := x
      rw [ho] at hout
      cases ignored with
      | true => rfl
      | false => cases o with
        | read => cases hout
        | _ => rfl
  have hhas : l.orders.has (.read slot segment release) = false := by
    change l.orders.read.isSome = false
    rw [hpending]; rfl
  unfold CameraLine.pend
  rw [hhas, hshares, if_neg (by decide)]
  rfl

theorem pendRead_eq {c : Camera} {w : ChannelWork} {slot : SlotNo} {k : Shot}
    (hslot : s.lines[c].slotOf w.shot = some slot) (hk : s.shot? w.shot = some k) :
    s.pendRead c w = s.pendOrder c (.read slot w.segment (w.segment + 1 = k.segmentsExpected)) := by
  unfold State.pendRead
  rw [hslot, hk]

/-! ## Orders of a line -/

theorem Agrees.issueOrder (h : Agrees out stop s) (c : Camera) : Agrees out stop (s.issueOrder c) :=
  h.setOrders ((issue_state_slots _ _).2) ((h.lines c).issue _)

theorem Agrees.pendPlain (h : Agrees out stop s) (c : Camera) {o : Order} (ho : o = .relink ∨ o = .sense) :
    Agrees out stop (s.pendOrder c o) :=
  h.setOrders (pend_slots _ _) ((h.lines c).pend_plain ho)

theorem Agrees.pendDiscard (h : Agrees out stop s) (c : Camera) {slot : SlotNo}
    (hr : ∀ q, s.lines[c].slots[slot] = some q → out q ∨ storesNoMore s stop q)
    (hfree : s.lines[c].slots[slot] = none → linkingClears s.lines[c] slot) :
    Agrees out stop (s.pendOrder c (.discard slot)) :=
  h.setOrders (pend_slots _ _) ((h.lines c).pend_discard hr hfree)

/-! ## The orders of a shot at work -/

/-- No READ of the shot's slot is wanted. -/
def NoRead (s : State) (r : ShotRef) : Prop :=
  ∀ (c : Camera) o, s.lines[c].readWanted = some o → s.lines[c].slots[o.slot] ≠ some r

/-- No DISCARD of the shot's slot is wanted. -/
def NoDiscard (s : State) (r : ShotRef) : Prop :=
  ∀ (c : Camera) (slot : SlotNo), s.lines[c].discardWanted slot = true → s.lines[c].slots[slot] ≠ some r

theorem Accords.noRead (h : Accords s) (hr : ∀ (ch : ChannelNo) (w : ChannelWork), s.readout.channels[ch] = some w →
    w.shot = r → w.step ≠ .read ∧ w.step ≠ .final) : NoRead s r := by
  intro c o ho hslot
  obtain ⟨q, hq, hreads⟩ := (h.lines c).read o ho
  obtain rfl := Option.some.inj (hslot.symm.trans hq)
  obtain ⟨ch, w, k, hw, hsh, -, hstep, -⟩ := hreads.resolve_left id
  exact hstep.elim (hr ch w hw hsh).1 (hr ch w hw hsh).2

theorem Accords.noDiscard (h : Accords s) (hr : ¬ storesNoMore s (stopping s) r) : NoDiscard s r := by
  intro c slot hw hslot
  exact hr (((h.lines c).occupied slot r hw hslot).resolve_left id)

theorem Reading.not_storesNoMore {k : Shot} {ch : ChannelNo} {w : ChannelWork} (h : Reading s r k ch w)
    (hk : s.shot? r = some k) (hon : w.step.onSegment = true) : ¬ storesNoMore s stop r := by
  rintro (⟨hst, -⟩ | ⟨i, v, hv, hsh, hoff⟩)
  · rw [shotState_of hk, h.state] at hst; cases hst
  · obtain rfl := h.only i v hv hsh
    obtain rfl := Option.some.inj (hv.symm.trans h.channel)
    rw [hon] at hoff; cases hoff

theorem slotOf_inSlot {c : Camera} {slot : SlotNo} (h : InSlot s r c slot) : s.lines[c].slotOf r = some slot := by
  unfold CameraLine.slotOf
  match slot, h with
  | 0, h => exact if_pos ((h c 0).2 ⟨rfl, rfl⟩)
  | 1, h =>
    rw [if_neg (fun h0 => by have := ((h c 0).1 h0).2; cases this)]
    exact if_pos ((h c 1).2 ⟨rfl, rfl⟩)

/-- A READING shot put down: a READ of its slot is for its channel's segment, a DISCARD for one that stores no
more. -/
theorem Agrees.putDown_reading (h : Agrees (· = r) stop s) {k : Shot} {ch : ChannelNo} {w : ChannelWork}
    (hk : s.shot? r = some k) (hreading : Reading s r k ch w) {c : Camera} {slot : SlotNo} (hslot : InSlot s r c slot)
    (hread : ∀ o, s.lines[c].readWanted = some o → o.slot = slot → (w.step = .read ∨ w.step = .final)
      ∧ o.segment = w.segment ∧ (o.release = true ↔ w.segment + 1 = k.segmentsExpected))
    (hdiscard : s.lines[c].discardWanted slot = true → w.step.onSegment = false) : Agrees nothing stop s := by
  refine h.putDown (.reading k ch w hk hreading) (fun d o ho hs => ?_) (fun d x hw hs => ?_)
  · obtain ⟨rfl, hx⟩ := (hslot d o.slot).1 hs
    obtain ⟨hstep, hseg, hrel⟩ := hread o ho hx
    exact ⟨ch, w, k, hreading.channel, hreading.shot, hk, hstep, hseg, hrel⟩
  · obtain ⟨rfl, rfl⟩ := (hslot d x).1 hs
    exact .inr ⟨ch, w, hreading.channel, hreading.shot, hdiscard hw⟩

/-! ## The start of a segment (R121) -/

/-- What the start of a segment of a READING shot at work finds: its channel serves it or nothing, no other channel
its camera, its stored pages are those before the segment, and the rest is reserved. -/
structure ToRead (s : State) (r : ShotRef) (k : Shot) (ch : ChannelNo) (segment : Nat) : Prop where
  found : s.shot? r = some k
  state : k.state = .reading
  unsettled : Unsettled s r
  slot : ∃ slot, InSlot s r k.camera slot
  queue : r ∉ s.readout.queue
  channel : ∀ v, s.readout.channels[ch] = some v → v.shot = r
  only : ∀ (j : ChannelNo) (v : ChannelWork), j ≠ ch → s.readout.channels[j] = some v →
    s.cameraOf v.shot ≠ some k.camera
  stored : k.pages.length = segment
  reserved : s.memory.remainder r + segment = k.segmentsExpected
  left : segment < k.segmentsExpected
  noRead : s.lines[k.camera].readWanted = none
  noDiscard : NoDiscard s r

/-- The memory after the draw of a shot at work. -/
theorem Agrees.draw (h : Agrees (· = r) stop s) {segment pg : Nat} {m : FrameMemory}
    (hd : Drawn s.memory m r segment pg) : Agrees (· = r) stop (s.setMemory m) := by
  have hpages : ∀ q j i, (s.memory.page j).condition = .held ⟨q, i⟩ → (m.page j).condition = .held ⟨q, i⟩ :=
    fun q j i hj => by
      rw [hd.others j (fun he => by rw [he, hd.was] at hj; cases hj)]
      exact hj
  refine h.setMemory (fun q hq => hd.others_remainder q hq) (fun q _ pg i hp => hpages q pg i hp) (fun q k _ hk => ?_)
    hd.sound
  obtain ⟨h1, h2, h3⟩ := h.records q k hk
  exact ⟨h1, h2, fun i pg hp => hpages q pg i (h3 i pg hp)⟩

theorem Agrees.startSegment {w : ChannelWork} (h : Agrees (· = w.shot) (stopping s) s) {k : Shot} {ch : ChannelNo}
    (hr : ToRead s w.shot k ch w.segment) : Accords (s.startSegment k.camera ch w) := by
  obtain ⟨slot, hslot⟩ := hr.slot
  have hleft := hr.left
  have hreserved := hr.reserved
  have hcamera : s.cameraOf w.shot = some k.camera := by
    unfold State.cameraOf; rw [hr.found]; rfl
  obtain ⟨pg, hpg, hdrawn⟩ := draw_drawn h.memory (r := w.shot) (by omega) w.segment
  set w1 : ChannelWork := { w with attempts := 0, step := .read, page := some pg } with hw1
  set m := (s.memory.draw w.shot w.segment).1 with hm
  set v := (s.setMemory m).setChannel ch (some w1) with hv
  set u := v.pendOrder k.camera (.read slot w.segment (w.segment + 1 = k.segmentsExpected)) with hu
  have heq : s.startSegment k.camera ch w = u := by
    unfold State.startSegment State.drawPage
    dsimp only
    rw [hpg]
    exact pendRead_eq (w := w1) (slotOf_inSlot (s := v) hslot) hr.found
  have hchannel : Agrees (· = w.shot) (stopping s) v :=
    (h.draw hdrawn).setChannel (fun v hv => hr.channel v hv) (fun v hv => by cases hv; rfl)
      (fun v hv j u hj hu he => by
        cases hv
        exact hr.only j u hj hu (he.trans hcamera))
  have hline : u.lines[k.camera] = s.lines[k.camera].pend
      (.read slot w.segment (w.segment + 1 = k.segmentsExpected)) := lines_setLine _ _ _
  have hinslot : InSlot u w.shot k.camera slot := fun d x => by
    rw [← hslot d x]
    by_cases hd : d = k.camera
    · rw [hd, hline, pend_slots]
    · have : u.lines[d] = s.lines[d] := lines_setLine_ne v _ hd
      rw [this]
  have hpend : Agrees (· = w.shot) (stopping s) u :=
    hchannel.setOrders (pend_slots _ _) ((hchannel.lines k.camera).pend_read
      (r := w.shot) ((hslot k.camera slot).2 ⟨rfl, rfl⟩) (.inl rfl))
  have hself : u.readout.channels[ch] = some w1 := getElem_setAt_self _ _ _
  rw [heq]
  refine hpend.putDown_reading (k := k) (ch := ch) (w := w1) hr.found ?_ hinslot (fun o ho hx => ?_) (fun hd => ?_)
  · refine ⟨hr.state, hr.unsettled, ⟨slot, hinslot⟩, hr.queue, hself, rfl, fun i x hx hsh => ?_, ⟨fun _ => ?_,
      fun _ => ⟨hr.stored, ?_⟩, fun hoff => by cases hoff⟩⟩
    · refine Decidable.byContradiction (fun hi => hr.only i x hi ?_ ?_)
      · rw [← hx]; exact (getElem_setAt_ne _ _ _ _ hi).symm
      · rw [hsh]; exact hcamera
    · exact ⟨pg, rfl, hdrawn.page⟩
    · have := hdrawn.remainder
      change m.remainder w.shot + w.segment + 1 = _
      omega
  · rw [hline, pend_read_readWanted hr.noRead] at ho
    cases ho
    exact ⟨.inl rfl, rfl, decide_eq_true_iff⟩
  · rw [hline, pend_read_discardWanted] at hd
    exact absurd ((hslot k.camera slot).2 ⟨rfl, rfl⟩) (hr.noDiscard k.camera slot hd)

end Orders

end Sys2Proof.Proofs

/-! PROOFS. Agreement under grants and under shots that fire (R86, R90, R102, R106, R119, R120). -/

namespace Sys2Proof.Proofs

open Sys2Proof.Machine

section Grants

variable {s : State} {r : ShotRef}

/-! ## Channels and cameras -/

theorem serving?_none {c : Camera} (h : s.serving? c = none) {ch : ChannelNo} {w : ChannelWork}
    (hw : s.readout.channels[ch] = some w) : s.cameraOf w.shot ≠ some c := by
  intro hc
  unfold State.serving? at h
  have := List.findSome?_eq_none_iff.1 h ch (List.mem_finRange ch)
  rw [hw] at this
  simp [hc] at this

/-- The channel that serves a camera, where one does. -/
theorem Accords.serving (h : Accords s) {ch : ChannelNo} {w : ChannelWork} {c : Camera}
    (hw : s.readout.channels[ch] = some w) (hc : s.cameraOf w.shot = some c) : s.serving? c = some (ch, w) := by
  cases hs : s.serving? c with
  | none => exact absurd hc (serving?_none hs hw)
  | some x =>
    obtain ⟨i, v⟩ := x
    obtain ⟨hv, hvc⟩ := serving?_some hs
    obtain rfl := h.alone i ch v w hv hw (hvc.trans hc.symm)
    rw [Option.some.inj (hv.symm.trans hw)]

theorem cameraOf_found {k : Shot} (hk : s.shot? r = some k) : s.cameraOf r = some k.camera := by
  unfold State.cameraOf; rw [hk]; rfl

/-- A shot in a slot is one of the line's camera. -/
theorem Accords.camera_of_slot (h : Accords s) {c : Camera} {slot : SlotNo} (hs : s.lines[c].slots[slot] = some r) :
    s.cameraOf r = some c := by
  have hin : ∀ k, s.shot? r = some k → (∃ slot, InSlot s r k.camera slot) → s.cameraOf r = some c :=
    fun k hk ⟨x, hx⟩ => by
      obtain ⟨hc, -⟩ := (hx c slot).1 hs
      rw [cameraOf_found hk, hc]
  obtain ⟨k, hk, hheld | ⟨ch, w, hreading⟩⟩ := role_of_slot h hs
  · exact hin k hk hheld.slot
  · exact hin k hk hreading.slot

/-- On a line whose camera no channel serves no READ is wanted. -/
theorem Accords.no_read_idle (h : Accords s) {c : Camera} (hc : s.serving? c = none) :
    s.lines[c].readWanted = none := by
  refine Option.eq_none_iff_forall_ne_some.2 (fun o ho => ?_)
  obtain ⟨q, hq, hreads⟩ := (h.lines c).read o ho
  obtain ⟨ch, w, k, hw, hsh, -⟩ := hreads.resolve_left id
  exact serving?_none hc hw (hsh ▸ h.camera_of_slot hq)

/-! ## The grant (R120) -/

theorem idleChannel_idle {ch : ChannelNo} (h : s.idleChannel = some ch) : s.readout.channels[ch] = none := by
  simpa using List.find?_some h

theorem nextTaken_may (h : s.nextTaken = some r) : r ∈ s.readout.queue ∧ s.mayTake r = true := by
  have hmem : r ∈ s.readout.queue.filter s.mayTake := by
    unfold State.nextTaken at h
    rcases Option.or_eq_some_iff.1 h with h | ⟨-, h⟩
    · exact List.mem_of_find?_eq_some h
    · exact List.mem_of_mem_head? h
  exact List.mem_filter.1 hmem

theorem Accords.grant (h : Accords s) {ch : ChannelNo} {c : Camera} (hidle : s.readout.channels[ch] = none)
    (hqueue : r ∈ s.readout.queue) (hc : s.cameraOf r = some c) (hserving : s.serving? c = none) :
    Accords (s.grant ch r c) := by
  obtain ⟨k, hk, hheld, hgo⟩ := role_of_waiting h hqueue
  obtain rfl : k.camera = c := Option.some.inj ((cameraOf_found hk).symm.trans hc)
  obtain ⟨-, hremainder⟩ := hheld.waits hgo
  obtain ⟨hlow, -, -⟩ := h.records r k hk
  have hnot : ¬ storesNoMore s (stopping s) r := by
    rintro (⟨-, hstop⟩ | ⟨i, v, hv, hsh, -⟩)
    · exact hgo hstop
    · exact hheld.channels i v hv hsh
  have hleft : Agrees (· = r) (stopping s) (s.leaveReadoutQueue r) :=
    (h.atWork r).setQueue (fun q hq => by rw [List.mem_filter, bne_iff_ne]; exact and_iff_left hq)
      (h.once.filter _)
  have hread := Agrees.modifyShot (s := s.leaveReadoutQueue r) hleft hk (f := fun k => { k with state := .reading })
    rfl (h.records r k hk)
  have hself := shot?_modifyShot_self (s := s.leaveReadoutQueue r) hk (fun k => { k with state := .reading })
  unfold State.grant
  refine Agrees.issueOrder ?_ _
  refine Agrees.startSegment (w := ⟨r, 0, 0, .read, none⟩) (k := { k with state := .reading }) hread ⟨hself, rfl, ?_, hheld.slot, ?_, fun v hv => ?_,
    fun j v _ hv => ?_, ?_, ?_, hlow, h.no_read_idle hserving, h.noDiscard hnot⟩
  · exact unsettled_modifyShot (s := s.leaveReadoutQueue r) hheld.unsettled r _
  · exact fun hm => by simpa using (List.mem_filter.1 hm).2
  · rw [show s.readout.channels[ch] = some v from hv] at hidle; cases hidle
  · have hne : v.shot ≠ r := hheld.channels j v hv
    have hsame : ((s.leaveReadoutQueue r).modifyShot r (fun k => { k with state := .reading })).cameraOf v.shot
        = s.cameraOf v.shot := by
      unfold State.cameraOf
      rw [shot?_modifyShot]
      simp only [hne, if_false, Option.map_id']
      rfl
    rw [hsame]
    exact serving?_none hserving hv
  · exact congrArg List.length hheld.pages
  · exact hremainder

theorem Accords.grantOne (h : Accords s) : Accords s.grantOne := by
  unfold State.grantOne
  split
  · next ch r hch hr =>
    split
    · next c hc =>
      obtain ⟨hqueue, hmay⟩ := nextTaken_may hr
      refine h.grant (idleChannel_idle hch) hqueue hc ?_
      unfold State.mayTake at hmay
      rw [hc] at hmay
      exact Option.isNone_iff_eq_none.1 hmay
    · exact h
  · exact h

theorem Accords.grantAll (h : Accords s) : Accords s.grantAll := h.grantOne.grantOne.grantOne.grantOne

end Grants

end Sys2Proof.Proofs

/-! PROOFS. Agreement under shots that fire or are skipped (R86, R90, R102, R106), and under planning, matching and
re-timing (R63 to R68, R77 to R83). -/

namespace Sys2Proof.Proofs

open Sys2Proof.Machine

section Firing

variable {s : State} {r : ShotRef}

/-! ## A shot fired (R102) -/

theorem freeSlot_free {l : CameraLine} {slot : SlotNo} (h : l.freeSlot = some slot) : l.slots[slot] = none := by
  unfold CameraLine.freeSlot at h
  split at h
  · cases h; assumption
  · split at h
    · cases h; assumption
    · cases h

/-- What fires passes the checks of R90. -/
structure MayFire (s : State) (k : Shot) (slot : SlotNo) : Prop where
  line : s.lines[k.camera].state = .inService
  slot : s.lines[k.camera].freeSlot = some slot
  room : s.memory.canReserve k.segmentsExpected = true

theorem fireChecks_ok {b : BankNo} {k : Shot} {o : StrobeOutcome} (h : s.fireChecks b k = .ok o) :
    ∃ slot, MayFire s k slot := by
  unfold State.fireChecks at h
  split at h
  · cases h
  split at h
  · cases h
  split at h
  · cases h
  split at h
  · cases h
  split at h
  · cases h
  · next hline _ hslot hroom =>
    obtain ⟨slot, hslot⟩ := Option.ne_none_iff_exists'.1 (by simpa using hslot)
    exact ⟨slot, by simpa using hline, hslot, by simpa using hroom⟩

/-- The state in which a fired shot waits for its grant (R102). -/
def firedInto (s : State) (r : ShotRef) (b : BankNo) (k : Shot) (o : StrobeOutcome) (slot : SlotNo) : State :=
  let s2 := (s.setMemory (s.memory.reserve r k.segmentsExpected)).setSlot k.camera slot (some r)
  let s3 := s2.setFire k.camera ⟨some (s2.after ((k.timing.map (·.exposureWidth)).getD 0)),
    some (s2.after (max ((s.bank b).cameras[k.camera]).deadTime.toNat ((k.timing.map (·.exposureWidth)).getD 0)))⟩
  ((s3.modifyShot r (fun q => q.fired s3.now o)).openFlash r k o).joinReadoutQueue r

theorem fireShot_eq {k : Shot} {slot : SlotNo} (h : MayFire s k slot) (b : BankNo) (o : StrobeOutcome) :
    s.fireShot r b k o = (firedInto s r b k o slot).grantAll := by
  unfold State.fireShot
  have : (s.setMemory (s.memory.reserve r k.segmentsExpected)).lines[k.camera].freeSlot = some slot := h.slot
  dsimp only
  rw [this]
  rfl

theorem openFlash_same (s : State) (r : ShotRef) (k : Shot) (o : StrobeOutcome) :
    (s.openFlash r k o).table = s.table ∧ (s.openFlash r k o).lines = s.lines
      ∧ (s.openFlash r k o).readout = s.readout ∧ (s.openFlash r k o).memory = s.memory := by
  cases o <;> exact ⟨rfl, rfl, rfl, rfl⟩

theorem Accords.fired (h : Accords s) {k : Shot} (hk : s.shot? r = some k) (hpending : pendingShot k)
    {slot : SlotNo} (hfire : MayFire s k slot) (b : BankNo) (o : StrobeOutcome) :
    Accords (firedInto s r b k o slot) := by
  obtain ⟨hgo, hnone, hunsettled, hloose⟩ := role_of_pending h hk hpending
  have hfree := freeSlot_free hfire.slot
  have hlinking : s.lines[k.camera].state ≠ .linking := by rw [hfire.line]; decide
  set m := s.memory.reserve r k.segmentsExpected
  obtain ⟨hlow, hhigh, hstored⟩ := h.records r k hk
  have hsound : MemorySound m := h.memory.reserve hloose.reserved hlow hfire.room
  have hmemory : Agrees (· = r) (stopping s) (s.setMemory m) :=
    (h.atWork r).setMemory (fun q hq => remainder_reserve_ne _ hq) (fun _ _ _ _ hp => hp)
      (fun q l _ hl => h.records q l hl) hsound
  have hslot : Agrees (· = r) (stopping s) ((s.setMemory m).setSlot k.camera slot (some r)) :=
    hmemory.setLine (fun q hq x => by
      by_cases hx : x = slot
      · rw [hx, setSlot_self, show (s.setMemory m).lines[k.camera].slots[slot] = none from hfree]
        exact ⟨fun he => absurd (Option.some.inj he).symm hq, fun he => nomatch he⟩
      · rw [setSlot_ne _ _ hx]) ((hmemory.lines k.camera).occupy hfree hlinking r)
  unfold firedInto
  dsimp only
  set v := (s.setMemory m).setSlot k.camera slot (some r) with hv
  set v3 := v.setFire k.camera _
  have hmodified : Agrees (· = r) (stopping s) (v3.modifyShot r (fun q => q.fired v3.now o)) := by
    have := Agrees.modifyShot (s := v3) (hslot.of_blocks rfl rfl rfl rfl) hk (f := fun q => q.fired v3.now o) rfl
      ⟨hlow, hhigh, hstored⟩
    rwa [show stopping (v3.modifyShot r (fun q => q.fired v3.now o)) = stopping s from stopping_modifyShot v3 r _]
      at this
  obtain ⟨htable, hlines, hreadout, hmem⟩ := openFlash_same (v3.modifyShot r (fun q => q.fired v3.now o)) r k o
  set v5 := (v3.modifyShot r (fun q => q.fired v3.now o)).openFlash r k o
  have hshot : v5.shot? r = some (k.fired v3.now o) := by
    rw [shot?_of_table htable]
    exact shot?_modifyShot_self (s := v3) hk _
  have hstop : stopping v5 = stopping s := (stopping_of_table htable).trans (stopping_modifyShot v3 r _)
  have hjoined : Agrees (· = r) (stopping s) (v5.joinReadoutQueue r) := by
    refine (hmodified.of_blocks htable hlines hreadout hmem).setQueue (fun q hq => ?_) ?_
    · rw [List.mem_append, List.mem_singleton]
      exact or_iff_left hq
    · rw [hreadout]
      exact List.nodup_append.2 ⟨h.once, by simp, fun a ha b hb hab => by
        obtain rfl : b = r := by simpa using hb
        exact hloose.queue (hab ▸ ha)⟩
  have hline : (v5.joinReadoutQueue r).lines[k.camera] = s.lines[k.camera].setSlot slot (some r) := by
    change v5.lines[k.camera] = _
    rw [hlines]
    exact lines_setLine _ _ _
  have hother : ∀ d : Camera, d ≠ k.camera → (v5.joinReadoutQueue r).lines[d] = s.lines[d] := fun d hd => by
    change v5.lines[d] = _
    rw [hlines]
    exact lines_setLine_ne _ _ hd
  have hinslot : InSlot (v5.joinReadoutQueue r) r k.camera slot := fun d x => by
    by_cases hd : d = k.camera
    · subst hd
      rw [hline]
      by_cases hx : x = slot
      · rw [hx, setSlot_self]; simp
      · rw [setSlot_ne _ _ hx]
        exact ⟨fun he => absurd he (hloose.slots _ x), fun he => absurd he.2 hx⟩
    · rw [hother d hd]
      exact ⟨fun he => absurd he (hloose.slots d x), fun he => absurd he.1 hd⟩
  have haccords : Agrees nothing (stopping s) (v5.joinReadoutQueue r) := by
    refine hjoined.putDown (.held (k.fired v3.now o) hshot ⟨rfl, hnone, ?_, ⟨slot, hinslot⟩, fun ch w hw => ?_,
      fun _ => ⟨?_, ?_⟩, fun hst => absurd hst hgo⟩) (fun c o ho hs => ?_) (fun c x hw hs => ?_)
    · intro p hp
      refine unsettled_modifyShot (s := v3) hunsettled r (fun q => q.fired v3.now o) p ?_
      rw [← hp]
      exact (passage?_of_table htable _).symm
    · refine hloose.channels ch w ?_
      rw [← hw]
      change _ = v5.readout.channels[ch]
      rw [hreadout]
      rfl
    · exact List.mem_append_right _ (List.mem_singleton_self r)
    · change v5.memory.remainder r = _
      rw [hmem]
      exact remainder_reserve_self _ hloose.reserved h.memory.positive
    · obtain ⟨rfl, hx⟩ := (hinslot c o.slot).1 hs
      rw [hline] at ho
      obtain ⟨q, hq, -⟩ := (h.lines k.camera).read o ho
      simp only [hx, hfree] at hq
      cases hq
    · obtain ⟨rfl, rfl⟩ := (hinslot c x).1 hs
      rw [hline] at hw
      have hclears := (h.lines k.camera).free x hw hfree
      refine absurd ((h.lines k.camera).linking.1 ?_) hlinking
      rcases hclears with hl | ⟨_, _, _, hl, -⟩ <;> rw [hl] <;> rfl
  unfold Accords
  rw [show stopping (v5.joinReadoutQueue r) = stopping s from hstop]
  exact haccords

/-! ## A due shot decided (R86, R90) -/

theorem Accords.fireShot (h : Accords s) {k : Shot} (hk : s.shot? r = some k) (hpending : pendingShot k)
    {slot : SlotNo} (hfire : MayFire s k slot) (b : BankNo) (o : StrobeOutcome) : Accords (s.fireShot r b k o) := by
  rw [fireShot_eq hfire]
  exact (h.fired hk hpending hfire b o).grantAll

theorem Accords.handOver (h : Accords s) (hr : ∀ k, s.shot? r = some k → pendingShot k) : Accords (s.handOver r) := by
  have hleft : Accords (s.leaveShotQueue r) := h.of_blocks rfl rfl rfl rfl
  change Accords ((s.leaveShotQueue r).decideShot r)
  unfold State.decideShot
  split
  · next p k _ hk =>
    have hpending := hr k hk
    split
    · exact hleft.skipShot hk hpending _
    · next hok =>
      obtain ⟨slot, hfire⟩ := fireChecks_ok hok
      exact hleft.fireShot hk hpending hfire _ _
  · exact hleft

theorem Accords.afterPlacing (h : Accords s) {k : Shot} (hk : s.shot? r = some k) (hpending : pendingShot k)
    (x : Placing) : Accords (s.afterPlacing r x) := by
  unfold State.afterPlacing
  split
  · refine h.handOver (fun l hl => ?_)
    obtain rfl := Option.some.inj (hk.symm.trans hl)
    exact hpending
  · exact h

theorem Accords.joinShotQueue (h : Accords s) (r : ShotRef) : Accords (s.joinShotQueue r) := h.of_blocks rfl rfl rfl rfl

end Firing

end Sys2Proof.Proofs

/-! PROOFS. Agreement while an event makes and times the shots of an open passage (R63 to R68, R77 to R83, R109). -/

namespace Sys2Proof.Proofs

open Sys2Proof.Machine

/-- Every fitted camera of the bank has 1 to 64 segments (R109). -/
def BankFits (b : Bank) : Prop := ∀ c : Camera, (b.cameras[c]).fitted = true →
  1 ≤ (b.cameras[c]).segments.toNat ∧ (b.cameras[c]).segments.toNat ≤ 64

/-- Everything agrees, and the passage is open and bound to a bank whose shots fit. -/
structure Planned (n : Nat) (s : State) : Prop where
  accords : Accords s
  plannable : ∃ p, s.passage? n = some p ∧ p.isOpen = true ∧ BankFits (s.bank p.bank)

/-- An operation of an event that makes shots for the passage. -/
def Plans (n : Nat) (s t : State) : Prop := Planned n s → Planned n t

section Planning

variable {s t u : State} {n : Nat} {r : ShotRef}

theorem Plans.refl (n : Nat) (s : State) : Plans n s s := id

theorem Plans.trans (h : Plans n s t) (k : Plans n t u) : Plans n s u := k ∘ h

theorem Plans.foldl {α : Type} (f : State → α → State) (h : ∀ s a, Plans n s (f s a)) (l : List α) (s : State) :
    Plans n s (l.foldl f s) := by
  induction l generalizing s with
  | nil => exact .refl n s
  | cons a l ih => exact (h s a).trans (ih _)

/-- An operation that keeps the passages' banks and leaves everything in agreement. -/
theorem Plans.of_keeps (hw : Keeps s t) (h : Planned n s → Accords t) : Plans n s t := fun hs => by
  obtain ⟨p, hp, hopen, hfits⟩ := hs.plannable
  obtain ⟨q, hq, hpq⟩ := forall₂_find (fun _ _ h => h.number) hw.passages n hp
  refine ⟨h hs, q, hq, hpq.isOpen.trans hopen, ?_⟩
  unfold State.bank
  rw [hw.banks, hpq.bank]
  exact hfits

/-! ## Shots made and timed again (R77 to R83) -/

theorem timeShot_kept (s : State) (p : Passage) (k : Shot) : (s.timeShot p k).1.camera = k.camera
    ∧ (s.timeShot p k).1.segmentsExpected = k.segmentsExpected ∧ (s.timeShot p k).1.pages = k.pages := by
  unfold State.timeShot Shot.timed
  cases (p.timeShot (s.bank p.bank) k).fireTime <;> exact ⟨rfl, rfl, rfl⟩

theorem TimedAt.pending {p : Passage} {k : Shot} {f : GantryTime} (h : TimedAt s p k f) :
    pendingShot (s.timeShot p k).1 := by
  have hlate := h.notLate
  unfold pendingShot
  rw [h.state]
  revert hlate
  cases (s.timeShot p k).2 with
  | planned => exact fun _ => .inl rfl
  | frozen => exact fun _ => .inr rfl
  | dueAtOnce => exact fun _ => .inr rfl
  | late => exact fun h => absurd rfl h

theorem Plans.makeShot {p : Passage} (hp : s.passage? p.number = some p) {k : Shot}
    (hlow : 1 ≤ k.segmentsExpected) (hhigh : k.segmentsExpected ≤ 64) (hpages : k.pages = []) :
    Plans p.number s (s.makeShot p k) := by
  refine .of_keeps (Works.makeShot s hp k).toKeeps (fun hs => ?_)
  obtain ⟨q, hq, hopen, -⟩ := hs.plannable
  obtain rfl := Option.some.inj (hp.symm.trans hq)
  obtain ⟨-, hsegments, hpages'⟩ := timeShot_kept s p k
  have happend := fun hnew => hs.accords.appendShot hp hopen (k := (s.timeShot p k).1) (by rw [hsegments]; exact hlow)
    (by rw [hsegments]; exact hhigh) (hpages'.trans hpages) hnew
  have hfound : (s.appendShot p.number (s.timeShot p k).1).shot? ⟨p.number, p.shots.length⟩
      = some (s.timeShot p k).1 := by
    have hp' : (s.appendShot p.number (s.timeShot p k).1).passage? p.number
        = some { p with shots := p.shots ++ [(s.timeShot p k).1] } :=
      passage?_modifyPassage (f := fun q => { q with shots := q.shots ++ [(s.timeShot p k).1] }) (fun _ => rfl) hp
    exact (shot?_of_passage? hp' _).trans (by simp)
  unfold State.makeShot
  split
  swap
  · exact hs.accords.recordFault _ _ _ _
  dsimp only
  rcases timeShot_cases s p k with ⟨hlate, hstate, -⟩ | ⟨f, htimed⟩
  · rw [if_pos hlate]
    exact (happend (.inr (by rw [hstate]; rfl))).checkSettled _
  · rw [if_neg htimed.notLate]
    have hqueued := happend (.inl htimed.pending)
    split
    · exact (hqueued.joinShotQueue _).afterPlacing hfound htimed.pending _
    · exact hqueued.skipShot hfound htimed.pending _

theorem Plans.planCamera (n : Nat) (s : State) (vehicle q reference : Nat) (x : Int) (c : Camera) :
    Plans n s (s.planCamera n vehicle q reference x c) := by
  unfold State.planCamera
  split
  · exact .refl n s
  · next p hp =>
    dsimp only
    split
    · next hphoto =>
      intro hs
      obtain ⟨p', hp', -, hfits⟩ := hs.plannable
      obtain rfl := Option.some.inj (hp.symm.trans hp')
      have hfitted : ((s.bank p.bank).cameras[c]).fitted = true := by
        unfold CameraEntry.photographs at hphoto
        simp only [Bool.and_eq_true] at hphoto
        exact hphoto.1.1
      obtain ⟨hlow, hhigh⟩ := hfits c hfitted
      obtain rfl := passage?_number hp
      exact Plans.makeShot hp hlow hhigh rfl hs
    · exact .refl n s

theorem Plans.retimeShot (n : Nat) (s : State) (r : ShotRef) : Plans n s (s.retimeShot r) := by
  refine .of_keeps (Works.retimeShot s r).toKeeps (fun hs => ?_)
  unfold State.retimeShot
  split
  swap
  · exact hs.accords
  next p k hp hk =>
  split
  swap
  · exact hs.accords
  next hst =>
  dsimp only
  obtain ⟨hcamera, hsegments, hpages⟩ := timeShot_kept s p k
  have hleft : Accords (s.leaveShotQueue r) := hs.accords.of_blocks rfl rfl rfl rfl
  have hmodified := fun hnew => hleft.modifyPending (s := s.leaveShotQueue r) (f := fun _ => (s.timeShot p k).1) hk
    (.inl hst) hcamera hsegments hpages hnew
  have hfound := shot?_modifyShot_self (s := s.leaveShotQueue r) hk (fun _ => (s.timeShot p k).1)
  rcases timeShot_cases s p k with ⟨hlate, hstate, -⟩ | ⟨f, htimed⟩
  · rw [if_pos hlate]
    exact (hmodified (.inr (by rw [hstate]; rfl))).checkSettled _
  · rw [if_neg htimed.notLate]
    exact ((hmodified (.inl htimed.pending)).joinShotQueue _).afterPlacing hfound htimed.pending _

theorem Plans.retimeAll (n : Nat) (s : State) : Plans n s (s.retimeAll n) := by
  unfold State.retimeAll
  split
  · exact .refl n s
  · exact .foldl _ (fun q _ => .retimeShot n q _) _ s

/-! ## The matcher's run (R63 to R68) -/

/-- A record edited in other fields than number, bank, state and shots. -/
theorem Plans.edit (n : Nat) (s : State) {f : Passage → Passage} (hn : ∀ p, (f p).number = p.number)
    (hb : ∀ p, (f p).bank = p.bank) (hs : ∀ p, (f p).state = p.state) (hk : ∀ p, (f p).shots = p.shots) :
    Plans n s (s.modifyPassage n f) := fun h => by
  obtain ⟨p, hp, hopen, hfits⟩ := h.plannable
  refine ⟨h.accords.edit n hn hs hk, f p, passage?_modifyPassage hn hp, ?_, ?_⟩
  · unfold Passage.isOpen at *
    rw [hs]; exact hopen
  · rw [hb]; exact hfits

theorem Plans.handPantographs (n : Nat) (s : State) (vehicle reference : Nat) (c : Candidate) (e : ProfileEntry) :
    Plans n s (s.handPantographs n vehicle reference c e) :=
  .foldl _ (fun s _ => .foldl _ (fun _ _ => .planCamera n _ _ _ _ _ _) _ s) _ s

theorem Plans.acceptVehicle (s : State) (p : Passage) (c : Candidate) : Plans p.number s (s.acceptVehicle p c) :=
  (Plans.edit p.number s (f := (·.acceptVehicle c ((s.bank p.bank).profiles[c.profile])))
    (fun _ => rfl) (fun _ => rfl) (fun _ => rfl) (fun _ => rfl)).trans (.handPantographs _ _ _ _ _ _)

theorem unmatchedAxle_bank (p : Passage) : p.unmatchedAxle.bank = p.bank := by
  unfold Passage.unmatchedAxle
  split <;> rfl

theorem Plans.runMatcher (bound : Nat) (n : Nat) : ∀ s : State, Plans n s (State.runMatcher bound s n) := by
  induction bound with
  | zero => exact fun s => .refl n s
  | succ bound ih =>
    intro s
    cases hp : s.passage? n with
    | none =>
      unfold State.runMatcher
      rw [hp]
      exact .refl n s
    | some p =>
      obtain rfl := passage?_number hp
      rw [runMatcher_succ bound hp]
      split
      · exact .refl _ s
      split
      · exact .edit _ s (fun _ => rfl) (fun _ => rfl) (fun _ => rfl) (fun _ => rfl)
      split
      · exact .edit _ s (fun _ => rfl) (fun _ => rfl) (fun _ => rfl) (fun _ => rfl)
      cases decideAt (s.bank p.bank) p.axles (p.state = .tail) p.cursor with
      | wait => exact .refl _ s
      | accept c => exact (Plans.acceptVehicle s p c).trans (ih _)
      | unmatched =>
        exact (Plans.edit p.number s (fun q => (unmatchedAxle_same q).1) unmatchedAxle_bank
          (fun q => (unmatchedAxle_same q).2.2.1) (fun q => (unmatchedAxle_same q).2.1)).trans (ih _)

theorem Plans.matchPassage (n : Nat) (s : State) : Plans n s (s.matchPassage n) := .runMatcher _ n s

theorem Plans.matchTail (n : Nat) (s : State) : Plans n s (s.matchTail n) :=
  (Plans.matchPassage n s).trans (.edit n _ (fun _ => rfl) (fun _ => rfl) (fun _ => rfl) (fun _ => rfl))

end Planning

end Sys2Proof.Proofs

/-! PROOFS. Agreement under the operations of a readout: pages returned, readouts that end or store no more, and what
follows an attempt (R118, R121 to R123, R126, R139). -/

namespace Sys2Proof.Proofs

open Sys2Proof.Machine

section Readouts

variable {s t : State} {stop out : ShotRef → Prop} {r : ShotRef}

/-! ## Lines that change state (R118, R131) -/

theorem Agrees.changeLine (h : Agrees out (stopping s) s) (c : Camera) {st : LineState}
    (hst : s.lines[c].linking.isSome = true ↔ st = .linking) (why : LineCause) (lost : Nat) :
    Agrees out (stopping (s.changeLine c st why lost)) (s.changeLine c st why lost) := by
  have hline : Agrees out (stopping s) (s.setLine c { s.lines[c] with state := st, disableMark := false }) :=
    h.setOrders rfl ((h.lines c).restate rfl rfl rfl rfl hst)
  exact Agrees.queueNotice (s := s.setLine c { s.lines[c] with state := st, disableMark := false }) hline _

theorem Agrees.actOnMark (h : Agrees out (stopping s) s) (c : Camera) :
    Agrees out (stopping (s.actOnMark c)) (s.actOnMark c) := by
  unfold State.actOnMark
  split
  · next hmark =>
    refine h.changeLine c ((h.lines c).linking.trans ?_) _ _
    rw [hmark.2]
    exact ⟨(nomatch ·), (nomatch ·)⟩
  · exact h

/-! ## Shots that end -/

theorem Agrees.finishShot (h : Agrees (· = r) (stopping s) s) {k : Shot} (hk : s.shot? r = some k) (st : ShotState) :
    Agrees (· = r) (stopping (s.finishShot r st)) (s.finishShot r st) := by
  have hmodified := h.modifyShot hk (f := fun k => { k with state := st }) rfl (h.records r k hk)
  unfold State.finishShot
  split
  · exact hmodified.recordFault _ _ _ _
  · exact hmodified

/-- A readout that ends: nothing but its channel knows of the shot any more. -/
theorem Agrees.endReadout (h : Agrees (· = r) (stopping s) s) {k : Shot} (hk : s.shot? r = some k)
    {ch : ChannelNo} (hslots : ∀ (c : Camera) (x : SlotNo), s.lines[c].slots[x] ≠ some r)
    (hqueue : r ∉ s.readout.queue) (hold : ∀ v, s.readout.channels[ch] = some v → v.shot = r)
    (honly : ∀ (i : ChannelNo) (v : ChannelWork), s.readout.channels[i] = some v → v.shot = r → i = ch)
    (hreserved : s.memory.remainder r = 0) (c : Camera) {st : ShotState} (hst : st.terminal = true) :
    Accords (s.endReadout c ch r st) := by
  obtain ⟨hfshot, hflines, hfread, hfmem, -⟩ := finishShot_facts s r st
  obtain ⟨hcshot, hclines, hcread, hcmem, -⟩ := checkSettled_facts (s.finishShot r st) r.passage
  have hsettled := (h.finishShot hk st).checkSettled r.passage
  set v := (s.finishShot r st).checkSettled r.passage
  have hvread : v.readout = s.readout := hcread.trans hfread
  have hset : Agrees (· = r) (stopping (v.setChannel ch none)) (v.setChannel ch none) :=
    hsettled.setChannel (work := none) (fun w hw => hold w (by rw [← hw, hvread])) (fun _ hw => nomatch hw)
      (fun _ hw => nomatch hw)
  have hshot : (v.setChannel ch none).shot? r = some { k with state := st } := by
    change v.shot? r = _
    rw [hcshot, hfshot, hk, Option.map_some, if_pos rfl]
  have hloose : Loose (v.setChannel ch none) r := by
    refine ⟨fun d x => ?_, ?_, fun i w hw hsh => ?_, ?_⟩
    · change v.lines[d].slots[x] ≠ some r
      rw [hclines, hflines]
      exact hslots d x
    · change r ∉ v.readout.queue
      rw [hvread]
      exact hqueue
    · by_cases hi : i = ch
      · subst hi
        rw [show (v.setChannel i none).readout.channels[i] = none from getElem_setAt_self _ _ _] at hw
        cases hw
      · rw [show (v.setChannel ch none).readout.channels[i] = v.readout.channels[i] from
          getElem_setAt_ne _ _ _ _ hi, hvread] at hw
        exact hi (honly i w hw hsh)
    · change v.memory.remainder r = 0
      rw [hcmem, hfmem]
      exact hreserved
  have hput : Accords (v.setChannel ch none) := hset.putAside (.ended _ hshot hst hloose) hloose.slots
  exact hput.actOnMark c

/-! ## Pages returned (R139) -/

/-- A page that holds the segment of a shot that comes after its stored ones. -/
def UnstoredPage (s : State) (r : ShotRef) (pg : Nat) : Prop :=
  ∃ i, (s.memory.page pg).condition = .held ⟨r, i⟩ ∧ ∀ k, s.shot? r = some k → k.pages.length ≤ i

theorem Agrees.freePage (h : Agrees (· = r) stop s) {pg : Nat} (hpg : UnstoredPage s r pg) :
    Agrees (· = r) stop (s.setMemory (s.memory.free pg).1) := by
  obtain ⟨i, hheld, hafter⟩ := hpg
  have hkeeps : ∀ q j n, (s.memory.page n).condition = .held ⟨q, j⟩ → (q ≠ r ∨ j ≠ i) →
      ((s.memory.free pg).1.page n).condition = .held ⟨q, j⟩ := fun q j n hn hne => by
    rw [free_page_ne h.memory.wf (fun he => ?_)]
    · exact hn
    · rw [he, hheld] at hn
      cases hn
      exact hne.elim (fun h => h rfl) (fun h => h rfl)
  refine h.setMemory (fun q _ => free_remainder h.memory.wf pg q) (fun q hq n j hn => hkeeps q j n hn (.inl hq))
    ?_ (h.memory.free (by rw [hheld]; exact nofun) (h.memory.number hheld))
  rintro q k rfl hk
  obtain ⟨h1, h2, h3⟩ := h.records q k hk
  refine ⟨h1, h2, fun j n hn => hkeeps q j n (h3 j n hn) (.inr ?_)⟩
  have := hafter k hk
  have := (List.getElem?_eq_some_iff.1 hn).1
  omega

theorem Agrees.returnReservation (h : Agrees (· = r) stop s) :
    Agrees (· = r) stop (s.setMemory (s.memory.returnReservation r)) :=
  h.setMemory (fun _ hq => remainder_returned_ne _ hq) (fun _ _ _ _ hp => hp) (fun q k _ hk => h.records q k hk)
    (h.memory.returnReservation r)

theorem Agrees.returnPages (h : Agrees (· = r) (stopping s) s) {page : Option Nat}
    (hpage : ∀ pg, page = some pg → UnstoredPage s r pg) :
    Agrees (· = r) (stopping (s.returnPages r page)) (s.returnPages r page) := by
  cases page with
  | none => exact h.returnReservation
  | some pg =>
    have hfreed := h.freePage (hpage pg rfl)
    have hnotices := Agrees.queueNotices (s.memory.free pg).2 (s := s.setMemory (s.memory.free pg).1) hfreed
    exact hnotices.returnReservation

theorem returnPages_remainder (s : State) (r : ShotRef) (page : Option Nat) :
    (s.returnPages r page).memory.remainder r = 0 := remainder_returned_self _ r

/-! ## A shot that is read, at work -/

/-- All that the part holds of a READING shot but its channel's progress. -/
structure AtRead (s : State) (r : ShotRef) (k : Shot) (ch : ChannelNo) (w : ChannelWork) : Prop where
  found : s.shot? r = some k
  state : k.state = .reading
  unsettled : Unsettled s r
  slot : ∃ slot, InSlot s r k.camera slot
  queue : r ∉ s.readout.queue
  channel : s.readout.channels[ch] = some w
  shot : w.shot = r
  only : ∀ (i : ChannelNo) (v : ChannelWork), s.readout.channels[i] = some v → v.shot = r → i = ch

theorem Reading.atRead {k : Shot} {ch : ChannelNo} {w : ChannelWork} (h : Reading s r k ch w)
    (hk : s.shot? r = some k) : AtRead s r k ch w :=
  ⟨hk, h.state, h.unsettled, h.slot, h.queue, h.channel, h.shot, h.only⟩

theorem AtRead.reading {k : Shot} {ch : ChannelNo} {w : ChannelWork} (h : AtRead s r k ch w)
    (hp : Progress s k w) : Reading s r k ch w :=
  ⟨h.state, h.unsettled, h.slot, h.queue, h.channel, h.shot, h.only, hp⟩

/-- The channel's work on the shot changed. -/
theorem AtRead.setChannel {k : Shot} {ch : ChannelNo} {w : ChannelWork} (h : AtRead s r k ch w) {w' : ChannelWork}
    (hw' : w'.shot = r) : AtRead (s.setChannel ch (some w')) r k ch w' := by
  have hself : (s.setChannel ch (some w')).readout.channels[ch] = some w' := getElem_setAt_self _ _ _
  refine ⟨h.found, h.state, h.unsettled, h.slot, h.queue, hself, hw', fun i v hv hsh => ?_⟩
  refine Decidable.byContradiction (fun hi => hi (h.only i v ?_ hsh))
  rw [← hv]
  exact (getElem_setAt_ne _ _ _ _ hi).symm

theorem Agrees.rework (h : Agrees (· = r) stop s) {k : Shot} {ch : ChannelNo} {w : ChannelWork}
    (hr : AtRead s r k ch w) {w' : ChannelWork} (hw' : w'.shot = r) :
    Agrees (· = r) stop (s.setChannel ch (some w')) := by
  refine h.setChannel (fun v hv => ?_) (fun v hv => by cases hv; exact hw') (fun v hv j u hj hu he => ?_)
  · obtain rfl := Option.some.inj (hr.channel.symm.trans hv)
    exact hr.shot
  · cases hv
    exact hj (h.alone j ch u w hu hr.channel (he.trans (by rw [hw', hr.shot])))

/-- The other channels serve other cameras. -/
theorem Agrees.served_alone (h : Agrees out stop s) {k : Shot} {ch : ChannelNo} {w : ChannelWork}
    (hr : AtRead s r k ch w) (j : ChannelNo) (v : ChannelWork) (hj : j ≠ ch) (hv : s.readout.channels[j] = some v) :
    s.cameraOf v.shot ≠ some k.camera := fun hc =>
  hj (h.alone j ch v w hv hr.channel (hc.trans (by rw [hr.shot, cameraOf_found hr.found])))

/-- A change of orders on the camera's line leaves the shot as it was. -/
theorem AtRead.pendOrder {k : Shot} {ch : ChannelNo} {w : ChannelWork} (h : AtRead s r k ch w) (c : Camera)
    (o : Order) : AtRead (s.pendOrder c o) r k ch w := by
  refine ⟨h.found, h.state, h.unsettled, ?_, h.queue, h.channel, h.shot, h.only⟩
  obtain ⟨slot, hslot⟩ := h.slot
  refine ⟨slot, fun d x => ?_⟩
  rw [← hslot d x]
  by_cases hd : d = c
  · subst hd
    rw [show (s.pendOrder d o).lines[d] = s.lines[d].pend o from lines_setLine _ _ _, pend_slots]
  · rw [show (s.pendOrder c o).lines[d] = s.lines[d] from lines_setLine_ne _ _ hd]

end Readouts

end Sys2Proof.Proofs

/-! PROOFS. Agreement under what follows an attempt to read a segment (R121 to R123, R126). -/

namespace Sys2Proof.Proofs

open Sys2Proof.Machine

section Attempts

variable {s t : State} {stop out : ShotRef → Prop} {r : ShotRef} {k : Shot} {ch : ChannelNo} {w : ChannelWork}

/-! ## A readout that stores no more (R123, R126) -/

theorem AtRead.of_blocks (h : AtRead s r k ch w) (ht : t.table = s.table) (hl : t.lines = s.lines)
    (hr : t.readout = s.readout) : AtRead t r k ch w := by
  refine ⟨by rw [shot?_of_table ht]; exact h.found, h.state, fun p hp => h.unsettled p ?_, ?_, by rw [hr]; exact h.queue,
    by rw [hr]; exact h.channel, h.shot, by rw [hr]; exact h.only⟩
  · rw [← hp]; exact (passage?_of_table ht _).symm
  · obtain ⟨slot, hslot⟩ := h.slot
    exact ⟨slot, fun d x => by rw [hl]; exact hslot d x⟩

theorem Agrees.discardReadout {x : ChannelWork} (h : Agrees (· = w.shot) (stopping s) s)
    (hr : AtRead s w.shot k ch x)
    (hnone : s.lines[k.camera].readWanted = none)
    (hpage : ∀ pg, w.page = some pg → UnstoredPage s w.shot pg) {step : ChannelStep}
    (hstep : step.onSegment = false) : Accords (s.discardReadout k.camera ch w step) := by
  obtain ⟨⟨-, hlines, -⟩, htable, hreadout⟩ := returnPages_facts s w.shot w.page
  have hreturned := h.returnPages hpage
  have hr1 : AtRead (s.returnPages w.shot w.page) w.shot k ch x := hr.of_blocks htable hlines hreadout
  have hremainder := returnPages_remainder s w.shot w.page
  unfold State.discardReadout
  dsimp only
  set v := s.returnPages w.shot w.page
  set w1 : ChannelWork := { w with page := none, step := step } with hw1
  have hworked := hreturned.rework hr1 (w' := w1) rfl
  have hr2 := hr1.setChannel (w' := w1) rfl
  set u := v.setChannel ch (some w1)
  obtain ⟨slot, hslot⟩ := hr2.slot
  rw [slotOf_inSlot hslot]
  dsimp only
  have hpend : Agrees (· = w.shot) (stopping u) (u.pendOrder k.camera (.discard slot)) :=
    hworked.pendDiscard k.camera (fun q hq => .inl (Option.some.inj
      (hq.symm.trans ((hslot k.camera slot).2 ⟨rfl, rfl⟩)))) (fun hf => by
        rw [(hslot k.camera slot).2 ⟨rfl, rfl⟩] at hf; cases hf)
  have hr3 := hr2.pendOrder k.camera (.discard slot)
  obtain ⟨x, hx⟩ := hr3.slot
  refine hpend.putDown_reading hr3.found (hr3.reading ⟨fun hon => ?_, fun hon => ?_, fun _ => ⟨rfl, hremainder⟩⟩) hx
    (fun o ho _ => ?_) (fun _ => hstep)
  · rw [show w1.step = step from rfl, hstep] at hon; cases hon
  · rw [show w1.step = step from rfl, hstep] at hon; cases hon
  · rw [show (u.pendOrder k.camera (.discard slot)).lines[k.camera] = u.lines[k.camera].pend (.discard slot) from
      lines_setLine _ _ _, pend_discard_readWanted,
      show u.lines[k.camera] = s.lines[k.camera] by rw [show u.lines = s.lines from hlines], hnone] at ho
    cases ho

/-- The page of a channel on a segment comes after the stored ones. -/
theorem Progress.unstored (h : Progress s k w) (hk : s.shot? w.shot = some k) (hon : w.step.onSegment = true) {pg : Nat}
    (hpg : w.page = some pg) : UnstoredPage s w.shot pg := by
  obtain ⟨pg', hpg', hheld⟩ := h.drawn hon
  obtain rfl := Option.some.inj (hpg.symm.trans hpg')
  refine ⟨w.segment, hheld, fun l hl => ?_⟩
  obtain rfl := Option.some.inj (hk.symm.trans hl)
  exact Nat.le_of_eq (h.count hon).1

/-- A readout that is served stores no more (R123, R126). -/
theorem Accords.discardReadout (h : Accords s) (hw : s.readout.channels[ch] = some w) {c : Camera}
    (hc : s.cameraOf w.shot = some c) (hon : w.step.onSegment = true) (hnone : s.lines[c].readWanted = none)
    {step : ChannelStep} (hstep : step.onSegment = false) : Accords (s.discardReadout c ch w step) := by
  obtain ⟨k, hk, hreading⟩ := role_of_channel h hw
  obtain rfl : k.camera = c := Option.some.inj ((cameraOf_found hk).symm.trans hc)
  exact (h.atWork w.shot).discardReadout (hreading.atRead hk) hnone
    (fun pg hpg => hreading.progress.unstored hk hon hpg) hstep

/-! ## Attempts that failed (R122, R123) -/

/-- One work of a channel is another step, or another attempt, on the segment of another. -/
structure SameSegment (w w' : ChannelWork) : Prop where
  shot : w'.shot = w.shot
  segment : w'.segment = w.segment
  page : w'.page = w.page
  on : w.step.onSegment = true
  on' : w'.step.onSegment = true

theorem Progress.restep (h : Progress s k w) {w' : ChannelWork} (hsame : SameSegment w w') :
    Progress (s.setChannel ch (some w')) k w' := by
  obtain ⟨pg, hpg, hheld⟩ := h.drawn hsame.on
  obtain ⟨hlen, hcount⟩ := h.count hsame.on
  refine ⟨fun _ => ⟨pg, hsame.page.trans hpg, ?_⟩, fun _ => ⟨hlen.trans hsame.segment.symm, ?_⟩, fun hoff => ?_⟩
  · rw [hsame.shot, hsame.segment]; exact hheld
  · rw [hsame.shot, hsame.segment]; exact hcount
  · rw [hsame.on'] at hoff; cases hoff

/-- The channel goes on to the other step, no READ wanted. -/
theorem Accords.restep (h : Accords s) (hw : s.readout.channels[ch] = some w) {c : Camera}
    (hc : s.cameraOf w.shot = some c) (hnone : s.lines[c].readWanted = none) {w' : ChannelWork}
    (hsame : SameSegment w w') : Accords (s.setChannel ch (some w')) := by
  obtain ⟨k, hk, hreading⟩ := role_of_channel h hw
  obtain rfl : k.camera = c := Option.some.inj ((cameraOf_found hk).symm.trans hc)
  have hr := (hreading.atRead hk).setChannel hsame.shot
  obtain ⟨slot, hslot⟩ := hr.slot
  refine ((h.atWork w.shot).rework (hreading.atRead hk) hsame.shot).putDown_reading hk
    (hr.reading (hreading.progress.restep hsame)) hslot (fun o ho _ => ?_) (fun hd => ?_)
  · rw [show (s.setChannel ch (some w')).lines[k.camera] = s.lines[k.camera] from rfl, hnone] at ho
    cases ho
  · exact absurd ((hslot k.camera slot).2 ⟨rfl, rfl⟩)
      (h.noDiscard (hreading.not_storesNoMore hk hsame.on) k.camera slot hd)

/-- The READ of the channel's segment placed where none is wanted (R121, R122). -/
theorem Accords.pendRead (h : Accords s) (hw : s.readout.channels[ch] = some w) {c : Camera}
    (hc : s.cameraOf w.shot = some c) (hnone : s.lines[c].readWanted = none)
    (hstep : w.step = .read ∨ w.step = .final) : Accords (s.pendRead c w) := by
  obtain ⟨k, hk, hreading⟩ := role_of_channel h hw
  obtain rfl : k.camera = c := Option.some.inj ((cameraOf_found hk).symm.trans hc)
  have hr := hreading.atRead hk
  obtain ⟨slot, hslot⟩ := hr.slot
  rw [pendRead_eq (slotOf_inSlot hslot) hk]
  have hreads : readsFor s ⟨slot, w.segment, w.segment + 1 = k.segmentsExpected⟩ w.shot :=
    ⟨ch, w, k, hw, rfl, hk, hstep, rfl, decide_eq_true_iff⟩
  exact h.setOrders (pend_slots _ _) ((h.lines k.camera).pend_read ((hslot k.camera slot).2 ⟨rfl, rfl⟩) (.inr hreads))

theorem Accords.relinking (h : Accords s) (hw : s.readout.channels[ch] = some w) {c : Camera}
    (hc : s.cameraOf w.shot = some c) (hstep : w.step ≠ .read ∧ w.step ≠ .final) : s.lines[c].readWanted = none := by
  refine Option.eq_none_iff_forall_ne_some.2 (fun o ho => ?_)
  obtain ⟨q, hq, hreads⟩ := (h.lines c).read o ho
  obtain ⟨i, v, l, hv, hsh, -, hread, -⟩ := hreads.resolve_left id
  obtain rfl := h.alone i ch v w hv hw (by rw [hsh, h.camera_of_slot hq, hc])
  obtain rfl := Option.some.inj (hv.symm.trans hw)
  exact hread.elim hstep.1 hstep.2

/-! ## The answer to a RELINK (R122, R126) -/

/-- What the channel of a camera does at the completion of a RELINK. -/
def channelRelinked (s : State) (c : Camera) : State :=
  match s.serving? c with
  | some (ch, w) =>
    if w.step = ChannelStep.relink then
      if s.shotStopping w.shot then s.discardReadout c ch w .stopping
      else (s.setChannel ch (some { w with step := .final })).pendRead c { w with step := .final }
    else s
  | none => s

theorem relinkAnswered_eq (s : State) (c : Camera) :
    s.relinkAnswered c = (channelRelinked s c).linkingRelinked c := rfl

theorem Accords.channelRelinked (h : Accords s) (c : Camera) : Accords (channelRelinked s c) := by
  unfold Proofs.channelRelinked
  split
  · next ch w hserving =>
    obtain ⟨hw, hc⟩ := serving?_some hserving
    split
    · next hstep =>
      have hnone := h.relinking hw hc (by rw [hstep]; exact ⟨(nomatch ·), (nomatch ·)⟩)
      have hon : w.step.onSegment = true := by rw [hstep]; rfl
      split
      · exact h.discardReadout hw hc hon hnone rfl
      · have hfinal := h.restep hw hc hnone (w' := { w with step := .final }) ⟨rfl, rfl, rfl, hon, rfl⟩
        exact hfinal.pendRead (ch := ch) (getElem_setAt_self _ _ _) hc hnone (.inr rfl)
    · exact h
  · exact h

/-! ## Attempts (R121 to R123, R126) -/

/-- An attempt failed before the final try. -/
theorem Accords.attemptFailed_early (h : Accords s) (hw : s.readout.channels[ch] = some w) {c : Camera}
    (hc : s.cameraOf w.shot = some c) (hnone : s.lines[c].readWanted = none) (hstep : w.step = .read) :
    Accords (s.attemptFailed c ch w) := by
  have hon : w.step.onSegment = true := by rw [hstep]; rfl
  unfold State.attemptFailed
  rw [if_neg (by rw [hstep]; decide)]
  split
  · exact h.discardReadout hw hc hon hnone rfl
  split
  · dsimp only
    split
    · have hagain := h.restep hw hc hnone (w' := { w with attempts := w.attempts + 1 }) ⟨rfl, rfl, rfl, hon, hon⟩
      exact hagain.pendRead (ch := ch) (getElem_setAt_self _ _ _) hc hnone (.inl hstep)
    · have hrelink := h.restep hw hc hnone (w' := { w with attempts := w.attempts + 1, step := .relink })
        ⟨rfl, rfl, rfl, hon, rfl⟩
      exact Agrees.pendPlain hrelink c (.inl rfl)
  · exact h.discardReadout hw hc hon hnone rfl

end Attempts

end Sys2Proof.Proofs

/-! PROOFS. Agreement under a segment stored (R121, R126) and under the answer to a READ (R113, R117, R118). -/

namespace Sys2Proof.Proofs

open Sys2Proof.Machine

section Stored

variable {s t : State} {stop out : ShotRef → Prop} {r : ShotRef} {k : Shot} {ch : ChannelNo} {w : ChannelWork}

theorem AtRead.modifyShot (h : AtRead s r k ch w) {f : Shot → Shot} (hcamera : (f k).camera = k.camera)
    (hstate : (f k).state = k.state) : AtRead (s.modifyShot r f) r (f k) ch w :=
  ⟨shot?_modifyShot_self h.found f, hstate.trans h.state, unsettled_modifyShot h.unsettled r f,
    by rw [hcamera]; exact h.slot, h.queue, h.channel, h.shot, h.only⟩

/-- The record of a shot after its channel's segment is stored (R121). -/
theorem Progress.recorded (h : Progress s k w) (hk : Recorded s.memory w.shot k) (hon : w.step.onSegment = true) :
    Recorded s.memory w.shot (k.storeSegment w.page) := by
  obtain ⟨hlow, hhigh, hstored⟩ := hk
  obtain ⟨pg, hpg, hheld⟩ := h.drawn hon
  obtain ⟨hlen, -⟩ := h.count hon
  refine ⟨hlow, hhigh, fun i n hn => ?_⟩
  change (k.pages ++ w.page.toList)[i]? = some n at hn
  rw [hpg, Option.toList_some, List.getElem?_append] at hn
  split at hn
  · exact hstored i n hn
  · next hge =>
    rw [List.getElem?_singleton] at hn
    split at hn
    · cases hn
      obtain rfl : i = w.segment := by omega
      exact hheld
    · cases hn

theorem Progress.stored_length (h : Progress s k w) (hon : w.step.onSegment = true) :
    (k.storeSegment w.page).pages.length = w.segment + 1 := by
  obtain ⟨pg, hpg, -⟩ := h.drawn hon
  obtain ⟨hlen, -⟩ := h.count hon
  change (k.pages ++ w.page.toList).length = _
  rw [hpg, List.length_append, hlen]
  rfl

theorem InSlot.noRead {c : Camera} {slot : SlotNo} (h : InSlot s r c slot) (hnone : s.lines[c].readWanted = none) :
    NoRead s r := fun d o ho hs => by
  obtain ⟨rfl, -⟩ := (h d o.slot).1 hs
  rw [hnone] at ho
  cases ho

/-- The slot of a shot at work freed, with no order for it (R111). -/
theorem Agrees.vacate (h : Agrees (· = r) stop s) {c : Camera} {slot : SlotNo} (hslot : InSlot s r c slot)
    (hnoread : NoRead s r) (hnodiscard : NoDiscard s r) :
    Agrees (· = r) stop (s.setSlot c slot none)
      ∧ ∀ (d : Camera) (y : SlotNo), (s.setSlot c slot none).lines[d].slots[y] ≠ some r := by
  have hin := (hslot c slot).2 ⟨rfl, rfl⟩
  have hline : (s.setSlot c slot none).lines[c] = s.lines[c].setSlot slot none := lines_setLine _ _ _
  have hwanted : s.lines[c].discardWanted slot = false := Bool.eq_false_iff.2 (fun hd => hnodiscard c slot hd hin)
  refine ⟨h.setLine (fun q hq y => ?_)
    ((h.lines c).vacate hwanted (fun o ho hs => hnoread c o ho (by simpa only [hs] using hin))), fun d y hy => ?_⟩
  · by_cases hy : y = slot
    · rw [hy, setSlot_self, hin]
      exact ⟨(nomatch ·), fun he => absurd (Option.some.inj he).symm hq⟩
    · rw [setSlot_ne _ _ hy]
  · by_cases hd : d = c
    · subst hd
      rw [hline] at hy
      by_cases hyx : y = slot
      · rw [hyx, setSlot_self] at hy; cases hy
      · rw [setSlot_ne _ _ hyx] at hy
        exact hyx ((hslot d y).1 hy).2
    · rw [show (s.setSlot c slot none).lines[d] = s.lines[d] from lines_setLine_ne _ _ hd] at hy
      exact hd ((hslot d y).1 hy).1

/-- The last segment is stored: the slot is freed and the readout ends (R121). -/
theorem Agrees.released (h : Agrees (· = r) (stopping s) s) (hr : AtRead s r k ch w)
    {slot : SlotNo} (hslot : s.lines[k.camera].slots[slot] = some r) (hnone : s.lines[k.camera].readWanted = none)
    (hnodiscard : NoDiscard s r) (hreserved : s.memory.remainder r = 0) :
    Accords ((s.setSlot k.camera slot none).endReadout k.camera ch r .stored) := by
  obtain ⟨x, hx⟩ := hr.slot
  obtain ⟨-, rfl⟩ := (hx k.camera slot).1 hslot
  obtain ⟨hvacated, hslots⟩ := h.vacate hx (hx.noRead hnone) hnodiscard
  set v := s.setSlot k.camera slot none with hv
  have hv' : Agrees (· = r) (stopping v) v := hvacated
  have hfound : v.shot? r = some k := hr.found
  refine hv'.endReadout hfound hslots hr.queue (fun y hy => ?_) hr.only hreserved k.camera rfl
  obtain rfl := Option.some.inj (hr.channel.symm.trans hy)
  exact hr.shot

/-- An attempt succeeded (R121, R126). -/
theorem Accords.attemptSucceeded (h : Accords s) (hw : s.readout.channels[ch] = some w) {c : Camera}
    (hnone : s.lines[c].readWanted = none) (hon : w.step.onSegment = true) {slot : SlotNo}
    (hslot : s.lines[c].slots[slot] = some w.shot) {release : Bool}
    (hrelease : ∀ k, s.shot? w.shot = some k → (release = true ↔ w.segment + 1 = k.segmentsExpected)) :
    Accords (s.attemptSucceeded c ch w slot release) := by
  obtain ⟨k, hk, hreading⟩ := role_of_channel h hw
  obtain rfl : k.camera = c := Option.some.inj ((cameraOf_found hk).symm.trans (h.camera_of_slot hslot))
  have hprogress := hreading.progress
  obtain ⟨hlen, hcount⟩ := hprogress.count hon
  have hnodiscard := h.noDiscard (hreading.not_storesNoMore hk hon)
  have hstored := (h.atWork w.shot).modifyShot hk (f := (·.storeSegment w.page)) rfl
    (hprogress.recorded (h.records _ k hk) hon)
  have hr := (hreading.atRead hk).modifyShot (f := (·.storeSegment w.page)) rfl rfl
  have hlast := hrelease k hk
  unfold State.attemptSucceeded
  dsimp only
  set v := s.modifyShot w.shot (·.storeSegment w.page)
  split
  · next hrel =>
    refine Agrees.released hstored hr hslot hnone hnodiscard ?_
    change s.memory.remainder w.shot = 0
    have := hlast.1 hrel
    omega
  split
  · exact Agrees.discardReadout (w := { w with attempts := 0, page := none }) hstored hr hnone
      (fun pg hpg => nomatch hpg) rfl
  · next hrel _ =>
    have hne : w.segment + 1 ≠ k.segmentsExpected := fun he => hrel (hlast.2 he)
    refine Agrees.startSegment (w := { w with segment := w.segment + 1 }) (k := k.storeSegment w.page) hstored
      ⟨hr.found, hr.state, hr.unsettled, hr.slot, hr.queue, fun x hx => ?_, Agrees.served_alone hstored hr,
        hprogress.stored_length hon, ?_, ?_, hnone, hnodiscard⟩
    · obtain rfl := Option.some.inj (hr.channel.symm.trans hx)
      rfl
    · change s.memory.remainder w.shot + (w.segment + 1) = k.segmentsExpected
      omega
    · change w.segment + 1 < k.segmentsExpected
      omega

/-! ## The answer to a READ (R113, R117, R118) -/

theorem Agrees.takeReadFlags (h : Agrees out (stopping s) s) (c : Camera) (r : ShotRef) (flags : FlagSet) :
    Agrees out (stopping (s.takeReadFlags c r flags)) (s.takeReadFlags c r flags) := by
  have hshot := h.modifyShot_same r (f := (·.takeFlags flags (s.shotEntry r c).careSet)) (fun _ => ⟨rfl, rfl, rfl, rfl⟩)
  unfold State.takeReadFlags
  dsimp only
  set v := s.modifyShot r (·.takeFlags flags (s.shotEntry r c).careSet)
  have hline : LineFits (fun o r => out r ∨ readsFor v o r) (fun r => out r ∨ storesNoMore v (stopping v) r)
      ((s.lines[c].takeFlags flags).markDisable flags (s.shotEntry r c).disableSet) := by
    have hl := hshot.lines c
    unfold CameraLine.markDisable
    split
    · exact hl.restate rfl rfl rfl rfl hl.linking
    · exact hl.restate rfl rfl rfl rfl hl.linking
  exact hshot.setOrders (markDisable_slots _ _ _) hline

/-- Frame memory changed in its bytes, its spares or its threshold state. -/
theorem Agrees.samePages (h : Agrees out stop s) {m : FrameMemory} (hwf : m.wf) (hp : m.pages = s.memory.pages)
    (hr : m.reservations = s.memory.reservations) : Agrees out stop (s.setMemory m) := by
  have hpage : ∀ j, m.page j = s.memory.page j := fun j => by unfold FrameMemory.page; rw [hp]
  have hremainder : ∀ q, m.remainder q = s.memory.remainder q := fun q => by
    unfold FrameMemory.remainder; rw [hr]
  refine h.setMemory (fun q _ => hremainder q) (fun q _ j i hj => by rw [hpage]; exact hj) (fun q k _ hk => ?_)
    (h.memory.congr hwf hp hr)
  obtain ⟨h1, h2, h3⟩ := h.records q k hk
  exact ⟨h1, h2, fun i n hn => by rw [hpage]; exact h3 i n hn⟩

theorem Agrees.writeSegment (h : Agrees out stop s) (w : ChannelWork) (bytes : List Byte) :
    Agrees out stop (s.writeSegment w bytes) := by
  unfold State.writeSegment
  split
  · exact h
  · split
    · exact h.samePages (FrameMemory.write_wf h.memory.wf _ _) rfl rfl
    · exact h

theorem writeSegment_same (s : State) (w : ChannelWork) (bytes : List Byte) :
    (s.writeSegment w bytes).table = s.table ∧ (s.writeSegment w bytes).lines = s.lines
      ∧ (s.writeSegment w bytes).readout = s.readout := by
  unfold State.writeSegment
  split
  · exact ⟨rfl, rfl, rfl⟩
  · split <;> exact ⟨rfl, rfl, rfl⟩

end Stored

end Sys2Proof.Proofs

/-! PROOFS. Agreement when a line goes DOWN (R124): the shots in its slots end, and nothing knows of them any more. -/

namespace Sys2Proof.Proofs

open Sys2Proof.Machine

section Down

variable {s u : State} {stop : ShotRef → Prop} {r : ShotRef} {c : Camera}

/-! ## The shots of a line -/

/-- The shot is in a slot of the line. -/
def onLine (s : State) (c : Camera) (r : ShotRef) : Prop := ∃ slot : SlotNo, s.lines[c].slots[slot] = some r

theorem mem_heldIn : r ∈ s.heldIn c ↔ onLine s c r ∧ s.shotState r = some .held := by
  unfold State.heldIn onLine
  rw [List.mem_filterMap]
  constructor
  · rintro ⟨x, hx, hr⟩
    obtain ⟨q, rfl, hq⟩ := Option.bind_eq_some_iff.1 hr
    split at hq
    · next hst =>
      cases hq
      obtain ⟨i, hi, hget⟩ := List.getElem_of_mem hx
      exact ⟨⟨⟨i, by simpa using hi⟩, by simpa using hget⟩, hst⟩
    · cases hq
  · rintro ⟨⟨slot, hslot⟩, hst⟩
    refine ⟨some r, ?_, by simp [hst]⟩
    rw [← hslot]
    exact Vector.mem_toList_iff.2 (Vector.getElem_mem slot.isLt)

/-- Every line's shots: READING, by the channel that serves the line, or HELD. -/
theorem Accords.onLine_cases (h : Accords s) (hr : onLine s c r) :
    (∃ k ch w, s.shot? r = some k ∧ k.camera = c ∧ Reading s r k ch w ∧ s.serving? c = some (ch, w))
      ∨ (∃ k, s.shot? r = some k ∧ Holding s (stopping s) r k ∧ r ∈ s.heldIn c) := by
  obtain ⟨slot, hslot⟩ := hr
  have hcamera := h.camera_of_slot hslot
  obtain ⟨k, hk, hheld | ⟨ch, w, hreading⟩⟩ := role_of_slot h hslot
  · exact .inr ⟨k, hk, hheld, mem_heldIn.2 ⟨⟨slot, hslot⟩, by rw [shotState_of hk, hheld.state]⟩⟩
  · refine .inl ⟨k, ch, w, hk, Option.some.inj ((cameraOf_found hk).symm.trans hcamera), hreading, ?_⟩
    exact h.serving hreading.channel (by rw [hreading.shot]; exact hcamera)

theorem Accords.onLine_of_serving (h : Accords s) {ch : ChannelNo} {w : ChannelWork} (hs : s.serving? c = some (ch, w)) :
    onLine s c w.shot ∧ s.shotState w.shot = some .reading := by
  obtain ⟨hw, hc⟩ := serving?_some hs
  obtain ⟨k, hk, hreading⟩ := role_of_channel h hw
  obtain ⟨slot, hslot⟩ := hreading.slot
  obtain rfl : k.camera = c := Option.some.inj ((cameraOf_found hk).symm.trans hc)
  exact ⟨⟨slot, (hslot _ slot).2 ⟨rfl, rfl⟩⟩, by rw [shotState_of hk, hreading.state]⟩

theorem mem_endedByDown (h : Accords s) {x : ShotRef × ShotState} (hx : x ∈ s.endedByDown c) :
    onLine s c x.1 ∧ x.2.terminal = true := by
  unfold State.endedByDown at hx
  rcases List.mem_append.1 hx with hx | hx
  · cases hs : s.serving? c with
    | none => rw [hs] at hx; cases hx
    | some y =>
      obtain ⟨ch, w⟩ := y
      rw [hs] at hx
      obtain rfl := List.mem_singleton.1 hx
      refine ⟨(h.onLine_of_serving hs).1, ?_⟩
      dsimp only
      split <;> rfl
  · obtain ⟨q, hq, rfl⟩ := List.mem_map.1 hx
    exact ⟨(mem_heldIn.1 hq).1, rfl⟩

theorem endedByDown_of_onLine (h : Accords s) (hr : onLine s c r) : ∃ st, (r, st) ∈ s.endedByDown c := by
  unfold State.endedByDown
  rcases h.onLine_cases hr with ⟨k, ch, w, -, -, hreading, hs⟩ | ⟨k, -, -, hheld⟩
  · rw [hs]
    exact ⟨_, List.mem_append_left _ (List.mem_singleton.2 (by rw [hreading.shot]))⟩
  · exact ⟨.lost, List.mem_append_right _ (List.mem_map.2 ⟨r, hheld, rfl⟩)⟩

/-- A line's shot gets a last state. -/
theorem lookup_endedByDown (h : Accords s) (hr : onLine s c r) :
    ∃ st, (s.endedByDown c).lookup r = some st ∧ st.terminal = true := by
  obtain ⟨st, hmem⟩ := endedByDown_of_onLine h hr
  cases hl : (s.endedByDown c).lookup r with
  | none => exact absurd (List.lookup_eq_none_iff.1 hl _ hmem) (by simp)
  | some st' =>
    obtain ⟨l1, l2, hl', -⟩ := List.lookup_eq_some_iff.1 hl
    exact ⟨st', rfl, (mem_endedByDown h (x := (r, st')) (by rw [hl']; simp)).2⟩

theorem lookup_endedByDown_none (h : Accords s) (hr : ¬ onLine s c r) : (s.endedByDown c).lookup r = none :=
  List.lookup_eq_none_iff.2 (fun x hx => by
    have := (mem_endedByDown h hx).1
    simp only [bne_iff_ne, ne_eq]
    rintro rfl
    exact hr this)

theorem Accords.wentDown (h : Accords s) (c : Camera) (cause : LineCause) : WentDown s (s.goDown c cause) c cause := by
  refine goDown_wentDown s c cause (fun ch w hs => ?_) (fun r h0 h1 => ?_) (fun slot r hs => ?_)
  · obtain ⟨hline, hst⟩ := h.onLine_of_serving hs
    exact ⟨hst, hline⟩
  · have hin : ∀ k, (∃ x, InSlot s r k x) → False := fun k ⟨x, hx⟩ => by
      have := ((hx c 0).1 h0).2.trans ((hx c 1).1 h1).2.symm
      cases this
    obtain ⟨k, -, hheld | ⟨ch, w, hreading⟩⟩ := role_of_slot h h0
    · exact hin _ hheld.slot
    · exact hin _ hreading.slot
  · obtain ⟨k, hk, hheld | ⟨ch, w, hreading⟩⟩ := role_of_slot h hs
    · exact .inl (by rw [shotState_of hk, hheld.state])
    · exact .inr (by rw [shotState_of hk, hreading.state])

/-! ## Frame memory (R139) -/

/-- What the pages of a shot that are returned leave of frame memory. -/
structure Returned (s : State) (r : ShotRef) (m : FrameMemory) : Prop where
  reserved : ∀ q, q ≠ r → m.remainder q = s.memory.remainder q
  pages : ∀ q, q ≠ r → ∀ pg i, (s.memory.page pg).condition = .held ⟨q, i⟩ → (m.page pg).condition = .held ⟨q, i⟩
  records : ∀ q k, s.shot? q = some k → Recorded m q k
  sound : MemorySound m
  gone : m.remainder r = 0

theorem Agrees.returned (h : Agrees (· = r) (stopping s) s) {page : Option Nat}
    (hpage : ∀ pg, page = some pg → UnstoredPage s r pg) : Returned s r (s.returnPages r page).memory := by
  have hafter := h.returnPages hpage
  have htable := (returnPages_facts s r page).2.1
  refine ⟨fun q hq => ?_, fun q hq pg i hpg => ?_, fun q k hk => hafter.records q k ?_, hafter.memory,
    returnPages_remainder s r page⟩
  · rw [returnPages_memory]
    cases page with
    | none => exact remainder_returned_ne _ hq
    | some n => exact (remainder_returned_ne _ hq).trans (free_remainder h.memory.wf n q)
  · rw [returnPages_memory]
    cases page with
    | none => exact hpg
    | some n =>
      obtain ⟨j, hheld, -⟩ := hpage n rfl
      change ((s.memory.free n).1.page pg).condition = _
      rw [free_page_ne h.memory.wf (fun he => ?_)]
      · exact hpg
      · rw [he, hheld] at hpg
        cases hpg
        exact hq rfl
  · rw [shot?_of_table htable]
    exact hk

/-- What frame memory is after the READING shot's pages are returned. -/
structure AfterDown (s : State) (c : Camera) (m : FrameMemory) : Prop where
  reserved : ∀ q, ¬ onLine s c q → m.remainder q = s.memory.remainder q
  pages : ∀ q, ¬ onLine s c q → ∀ pg i, (s.memory.page pg).condition = .held ⟨q, i⟩ →
    (m.page pg).condition = .held ⟨q, i⟩
  records : ∀ q k, s.shot? q = some k → Recorded m q k
  sound : MemorySound m
  gone : ∀ ch w, s.serving? c = some (ch, w) → m.remainder w.shot = 0

theorem Accords.afterDown (h : Accords s) (c : Camera) : AfterDown s c (s.memoryAfterDown c) := by
  have hsame : (∀ ch w, s.serving? c = some (ch, w) → s.memory.remainder w.shot = 0) → AfterDown s c s.memory :=
    fun hgone => ⟨fun _ _ => rfl, fun _ _ _ _ hp => hp, h.records, h.memory, hgone⟩
  unfold State.memoryAfterDown
  cases hs : s.serving? c with
  | none => exact hsame (fun ch w hw => by rw [hs] at hw; cases hw)
  | some x =>
    obtain ⟨ch, w⟩ := x
    obtain ⟨hw, -⟩ := serving?_some hs
    obtain ⟨k, hk, hreading⟩ := role_of_channel h hw
    have hon := (h.onLine_of_serving hs).1
    have hgone : ∀ (m : FrameMemory), m.remainder w.shot = 0 → ∀ ch' w', s.serving? c = some (ch', w') →
        m.remainder w'.shot = 0 := fun m hm ch' w' hs' => by
      cases hs.symm.trans hs'
      exact hm
    dsimp only
    split
    · next hstep =>
      have hoff : w.step.onSegment = false := by rcases hstep with he | he <;> rw [he] <;> rfl
      exact hsame (hgone _ (hreading.progress.ended hoff).2)
    · next hstep =>
      have hseg : w.step.onSegment = true := by
        revert hstep
        cases w.step <;> simp [ChannelStep.onSegment]
      have hreturned := (h.atWork w.shot).returned (fun pg hpg => hreading.progress.unstored hk hseg hpg)
      rw [returnPages_memory] at hreturned
      have hne : ∀ q, ¬ onLine s c q → q ≠ w.shot := fun q hq he => hq (he ▸ hon)
      have hafter : ∀ m, Returned s w.shot m → AfterDown s c m := fun m hm =>
        ⟨fun q hq => hm.reserved q (hne q hq), fun q hq => hm.pages q (hne q hq), hm.records, hm.sound,
          hgone m hm.gone⟩
      cases hpage : w.page with
      | none =>
        rw [hpage] at hreturned
        exact hafter _ hreturned
      | some pg =>
        rw [hpage] at hreturned
        exact hafter _ hreturned

/-- Reservations of some shots dropped. -/
theorem remainder_dropped (m : FrameMemory) (f : ShotRef → Bool) (q : ShotRef) :
    ({ m with reservations := m.reservations.filter (fun e => f e.shot) } : FrameMemory).remainder q
      = if f q then m.remainder q else 0 := by
  rw [FrameMemory.remainder_eq, FrameMemory.remainder_eq]
  dsimp only
  induction m.reservations with
  | nil => split <;> rfl
  | cons e l ih =>
    rw [List.filter_cons, remainderIn_cons]
    by_cases he : e.shot = q
    · rw [if_pos he, he]
      split
      · rw [remainderIn_cons, if_pos he]
      · next hf => rw [ih, if_neg hf]
    · rw [if_neg he]
      split
      · rw [remainderIn_cons, if_neg he, ih]
      · exact ih

theorem MemorySound.dropped {m : FrameMemory} (h : MemorySound m) (f : Reservation → Bool) :
    MemorySound { m with reservations := m.reservations.filter f } := by
  refine ⟨h.wf, h.numbers, h.once.sublist ((List.filter_sublist).map _),
    fun e he => h.positive e (List.mem_of_mem_filter he), Nat.le_trans ?_ h.reserved⟩
  exact ((List.filter_sublist (p := f)).map Reservation.pages).sum_le_sum (fun _ _ => Nat.zero_le _)

end Down

end Sys2Proof.Proofs

/-! PROOFS. Agreement after a line has gone DOWN (R124). -/

namespace Sys2Proof.Proofs

open Sys2Proof.Machine

section WentDown

variable {s u : State} {c : Camera} {cause : LineCause} {r : ShotRef}

theorem down_remainder (hd : WentDown s u c cause) (r : ShotRef) : u.memory.remainder r
    = if (s.heldIn c).contains r then 0 else (s.memoryAfterDown c).remainder r := by
  rw [hd.memory, remainder_dropped _ (fun q => !(s.heldIn c).contains q)]
  cases (s.heldIn c).contains r <;> rfl

theorem down_page (hd : WentDown s u c cause) (pg : Nat) : u.memory.page pg = (s.memoryAfterDown c).page pg := by
  rw [hd.memory]; rfl

theorem down_slots (hd : WentDown s u c cause) (slot : SlotNo) : u.lines[c].slots[slot] = none := by
  rw [hd.line]
  exact Vector.getElem_replicate slot.isLt

/-- A channel still busy was busy, and served another camera. -/
theorem down_channel (hd : WentDown s u c cause) {ch : ChannelNo} {w : ChannelWork}
    (hw : u.readout.channels[ch] = some w) :
    s.readout.channels[ch] = some w ∧ ∀ v, s.serving? c ≠ some (ch, v) := by
  rw [hd.channels] at hw
  cases hs : s.serving? c with
  | none => rw [hs] at hw; exact ⟨hw, fun v hv => nomatch hv⟩
  | some x =>
    obtain ⟨i, v⟩ := x
    rw [hs] at hw
    dsimp only at hw
    by_cases hi : ch = i
    · subst hi
      rw [getElem_setAt_self] at hw
      cases hw
    · rw [getElem_setAt_ne _ _ _ _ hi] at hw
      exact ⟨hw, fun y hy => hi (by cases hy; rfl)⟩

/-- A shot of the line has ended, and nothing knows of it. -/
theorem down_ended (hd : WentDown s u c cause) (h : Accords s) (hr : onLine s c r) :
    ∃ k, u.shot? r = some k ∧ k.state.terminal = true ∧ Loose u r := by
  obtain ⟨st, hlookup, hterminal⟩ := lookup_endedByDown h hr
  have hkeeps : ∀ k slot, s.shot? r = some k → InSlot s r k.camera slot → ∀ (d : Camera) (x : SlotNo),
      u.lines[d].slots[x] ≠ some r := fun k slot hk hslot d x hx => by
    obtain ⟨y, hy⟩ := hr
    by_cases hdc : d = c
    · subst hdc; rw [down_slots hd] at hx; cases hx
    · rw [hd.lines d hdc] at hx
      exact hdc (((hslot d x).1 hx).1.trans ((hslot c y).1 hy).1.symm)
  have hended : ∀ k, s.shot? r = some k → Loose u r → ∃ k, u.shot? r = some k ∧ k.state.terminal = true ∧ Loose u r :=
    fun k hk hloose =>
      ⟨{ k with state := st }, by rw [hd.shots, hk]; simp only [Option.map_some, hlookup], hterminal, hloose⟩
  rcases h.onLine_cases hr with ⟨k, ch, w, hk, -, hreading, hs⟩ | ⟨k, hk, hheld, hin⟩
  · obtain ⟨slot, hslot⟩ := hreading.slot
    refine hended k hk ⟨hkeeps k slot hk hslot, fun hq => ?_, fun i v hv hsh => ?_, ?_⟩
    · rw [hd.queue] at hq
      exact hreading.queue (List.mem_of_mem_filter hq)
    · obtain ⟨hv, hne⟩ := down_channel hd hv
      obtain rfl := hreading.only i v hv hsh
      exact hne w hs
    · rw [down_remainder hd]
      split
      · rfl
      · have := (h.afterDown c).gone ch w hs
        rwa [hreading.shot] at this
  · obtain ⟨slot, hslot⟩ := hheld.slot
    refine hended k hk ⟨hkeeps k slot hk hslot, fun hq => ?_, fun i v hv hsh => ?_, ?_⟩
    · rw [hd.queue] at hq
      have := (List.mem_filter.1 hq).2
      simp [hin] at this
    · exact hheld.channels i v (down_channel hd hv).1 hsh
    · rw [down_remainder hd, if_pos (by simpa using hin)]

/-- The state of the passage of a shot that is not terminal stays. -/
theorem down_passageState (hd : WentDown s u c cause) {k : Shot} (hk : u.shot? r = some k)
    (hst : k.state.terminal = false) : ∀ p, s.passage? r.passage = some p →
      ∃ q, u.passage? r.passage = some q ∧ q.state = p.state := fun p hp => by
  obtain ⟨q, hq, -, -, hstate⟩ := hd.passages _ p hp
  refine ⟨q, hq, hstate (.inl ?_)⟩
  refine Bool.eq_false_iff.2 (fun hall => ?_)
  have := terminal_of_settled hq hall rfl hk
  rw [hst] at this
  cases this

theorem down_shot_other (hd : WentDown s u c cause) (h : Accords s) (hr : ¬ onLine s c r) :
    u.shot? r = s.shot? r := by
  rw [hd.shots, lookup_endedByDown_none h hr]
  exact Option.map_id'

/-- Other shots keep their part. -/
theorem down_sameAt (hd : WentDown s u c cause) (h : Accords s) (hr : ¬ onLine s c r) : SameAt s u r := by
  have hshot := down_shot_other hd h hr
  have hnotheld : ¬ (s.heldIn c).contains r = true := fun hc => hr (mem_heldIn.1 (by simpa using hc)).1
  refine ⟨by rw [hshot]; exact rel_same _, fun k hk hst hu q hq hover => ?_, fun d x => ?_, ?_, fun ch w hsh => ?_, ?_,
    fun pg i hp => ?_⟩
  · obtain ⟨p, hp⟩ := Option.isSome_iff_exists.1 (live_of_shot hk)
    obtain ⟨q', hq', hstate⟩ := down_passageState hd (hshot.trans hk) hst p hp
    obtain rfl := Option.some.inj (hq.symm.trans hq')
    refine hu p hp ?_
    unfold isOver at *
    rw [← hstate]; exact hover
  · by_cases hdc : d = c
    · subst hdc
      rw [down_slots hd]
      exact ⟨(nomatch ·), fun hx => absurd ⟨x, hx⟩ hr⟩
    · rw [hd.lines d hdc]
  · rw [hd.queue, List.mem_filter]
    exact and_iff_left (by simpa using hnotheld)
  · constructor
    · exact fun hw => (down_channel hd hw).1
    · intro hw
      rw [hd.channels]
      cases hs : s.serving? c with
      | none => exact hw
      | some x =>
        obtain ⟨i, v⟩ := x
        have hi : ch ≠ i := by
          rintro rfl
          obtain ⟨hv, -⟩ := serving?_some hs
          obtain rfl := Option.some.inj (hw.symm.trans hv)
          exact hr (hsh ▸ (h.onLine_of_serving hs).1)
        dsimp only
        rw [getElem_setAt_ne _ _ _ _ hi]
        exact hw
  · rw [down_remainder hd, if_neg hnotheld]
    exact (h.afterDown c).reserved r hr
  · rw [down_page hd]
    exact (h.afterDown c).pages r hr pg i hp

theorem Accords.goDown (h : Accords s) (c : Camera) (cause : LineCause) : Accords (s.goDown c cause) := by
  have hd := h.wentDown c cause
  set u := s.goDown c cause
  have hafter := h.afterDown c
  have hshots : ∀ q k, u.shot? q = some k → ∃ l, s.shot? q = some l ∧ k.camera = l.camera
      ∧ k.segmentsExpected = l.segmentsExpected ∧ k.pages = l.pages := fun q k hk => by
    rw [hd.shots] at hk
    obtain ⟨l, hl, rfl⟩ := Option.map_eq_some_iff.1 hk
    refine ⟨l, hl, ?_⟩
    split <;> exact ⟨rfl, rfl, rfl⟩
  have hcamera : ∀ q, u.cameraOf q = s.cameraOf q := fun q => by
    unfold State.cameraOf
    rw [hd.shots, Option.map_map]
    refine congrArg (fun f => Option.map f (s.shot? q)) (funext fun k => ?_)
    dsimp only [Function.comp]
    split <;> rfl
  have hmemory : MemorySound u.memory := by
    rw [hd.memory]
    exact hafter.sound.dropped _
  have hbusy : Agrees (onLine s c) (stopping s) u := by
    refine (h.takeUp (fun _ hn => hn.elim)).frame (fun q hq => down_sameAt hd h hq) (fun q k _ hk => ?_) (fun d => ?_)
      (fun i j v w hv hw he => ?_) ?_ hmemory
    · obtain ⟨l, hl, -, hsegments, hpages⟩ := hshots q k hk
      obtain ⟨h1, h2, h3⟩ := hafter.records q l hl
      exact ⟨hsegments ▸ h1, hsegments ▸ h2, fun i pg hp => by
        rw [down_page hd]; exact h3 i pg (hpages ▸ hp)⟩
    · by_cases hdc : d = c
      · subst hdc
        rw [hd.line]
        exact .inr (.bare rfl (.inl rfl) rfl (fun he => nomatch he))
      · exact .inl (hd.lines d hdc)
    · rw [hcamera, hcamera] at he
      exact h.alone i j v w (down_channel hd hv).1 (down_channel hd hw).1 he
    · rw [hd.queue]
      exact h.once.filter _
  have hoff : ∀ (d : Camera) (x : SlotNo) q, u.lines[d].slots[x] = some q → ¬ onLine s c q := fun d x q hx hq => by
    obtain ⟨-, -, -, hloose⟩ := down_ended hd h hq
    exact hloose.slots d x hx
  have hall : Agrees nothing (stopping s) u :=
    { hbusy with
      roles := fun q _ => by
        by_cases hq : onLine s c q
        · obtain ⟨k, hk, hst, hloose⟩ := down_ended hd h hq
          exact .ended k hk hst hloose
        · exact hbusy.roles q hq
      lines := fun d => (hbusy.lines d).mono_slots
        (fun o x q hx hr => .inr (hr.resolve_left (hoff d x q hx)))
        (fun x q hx hr => .inr (hr.resolve_left (hoff d x q hx))) }
  refine hall.restop (fun q k _ hk hst => ?_)
  rw [stopping_iff, stopping_iff]
  obtain ⟨l, hl, -⟩ := hshots q k hk
  obtain ⟨p, hp⟩ := Option.isSome_iff_exists.1 (live_of_shot hl)
  obtain ⟨p', hp', hstate⟩ := down_passageState hd hk (live_of_unread hst) p hp
  rw [hp, hp']
  simp [hstate]

end WentDown

end Sys2Proof.Proofs

/-! PROOFS. Agreement under the linking sequence and the answers to camera orders (R112 to R116, R125 to R127, R130). -/

namespace Sys2Proof.Proofs

open Sys2Proof.Machine

section Linking

variable {s t : State} {stop out : ShotRef → Prop} {r : ShotRef} {l : CameraLine} {c : Camera}
  {reads : ReadOrder → ShotRef → Prop} {done : ShotRef → Prop}

/-! ## Steps of the linking sequence on a line (R127) -/

theorem pend_withLinking (l : CameraLine) (o : Order) (x : LinkStep) :
    { l.pend o with linking := some x } = ({ l with linking := some x } : CameraLine).pend o := by
  unfold CameraLine.pend
  have : ({ l with linking := some x } : CameraLine).sharesOutstanding o = l.sharesOutstanding o := rfl
  rw [this]
  dsimp only
  split <;> rfl

theorem LineFits.in_linking (h : LineFits reads done l) {x : LinkStep} (hx : l.linking = some x) : l.state = .linking :=
  h.linking.1 (by rw [hx]; rfl)

/-- The linking sequence has no DISCARD to do before and after its SENSE has been answered. -/
theorem LineFits.nothing_to_clear (h : LineFits reads done l) {x : LinkStep} (hx : l.linking = some x)
    (hr : ∀ slot, x ≠ .restartDiscard slot) (hc : ∀ f a b, x ≠ .clearing f a b) (slot : SlotNo)
    (hw : l.discardWanted slot = true) : l.slots[slot] ≠ none := by
  intro hfree
  rcases h.free slot hw hfree with he | ⟨f, a, b, he, -⟩
  · exact hr slot (Option.some.inj (hx.symm.trans he))
  · exact hc f a b (Option.some.inj (hx.symm.trans he))

/-- The step after one that has no DISCARD to do. -/
theorem LineFits.next_plain (h : LineFits reads done l) {x y : LinkStep} (hx : l.linking = some x)
    (hr : ∀ slot, x ≠ .restartDiscard slot) (hc : ∀ f a b, x ≠ .clearing f a b)
    (hy : linkingRestarted { l with linking := some y } → ∀ slot : SlotNo, l.slots[slot] = none) :
    LineFits reads done { l with linking := some y } :=
  h.relink (h.in_linking hx) (fun slot hw hf => absurd hf (h.nothing_to_clear hx hr hc slot hw)) hy

theorem not_restarted_relink (l : CameraLine) : ¬ linkingRestarted { l with linking := some .relink } := by
  rintro (h | h | h) <;> cases h

/-- The first order of the linking sequence (R127). -/
theorem LineFits.startLinking (h : LineFits reads done l) {byRestart : Bool} (hx : l.linking = some (.waiting byRestart)) :
    LineFits reads done (l.startLinking byRestart) := by
  have hnext := fun y => h.next_plain (y := y) hx (fun _ => (nomatch ·)) (fun _ _ _ => (nomatch ·))
  unfold CameraLine.startLinking
  cases byRestart with
  | true =>
    have hfree := h.restarted (.inl hx)
    rw [if_pos rfl, pend_withLinking]
    exact (hnext _ (fun _ => hfree)).pend_discard (fun r hs => by
      rw [show ({ l with linking := some (.restartDiscard 0) } : CameraLine).slots[(0 : SlotNo)] = none from hfree 0] at hs
      cases hs) (fun _ => .inl rfl)
  | false =>
    rw [if_neg (by decide), pend_withLinking]
    exact (hnext _ (fun hr => absurd hr (not_restarted_relink l))).pend_plain (.inl rfl)

theorem Accords.linkingResumed (h : Accords s) (c : Camera) : Accords (s.linkingResumed c) := by
  unfold State.linkingResumed
  dsimp only
  split
  · next hx => exact h.setOrders (startLinking_slots _ _) ((h.lines c).startLinking hx)
  · exact h

theorem Accords.linkingRelinked (h : Accords s) (c : Camera) : Accords (s.linkingRelinked c) := by
  unfold State.linkingRelinked
  dsimp only
  split
  · next hx =>
    refine h.setOrders (pend_slots _ _) ?_
    rw [pend_withLinking]
    exact ((h.lines c).next_plain hx (fun _ => (nomatch ·)) (fun _ _ _ => (nomatch ·))
      (fun hr => by rcases hr with hr | hr | hr <;> cases hr)).pend_plain (.inr rfl)
  · exact h

/-- The end of the linking sequence, with no DISCARD left to do (R127). -/
theorem Accords.finishLinking (h : Accords s) (c : Camera) (flags : FlagSet)
    (hclears : ∀ slot, s.lines[c].discardWanted slot = true → s.lines[c].slots[slot] ≠ none) :
    Accords (s.finishLinking c flags) := by
  have hends : ∀ st : LineState, st ≠ .linking →
      Accords ((s.setLine c { s.lines[c] with linking := none }).changeLine c st .linked 0) := fun st hst => by
    unfold State.changeLine
    simp only [lines_setLine, setLine_setLine]
    exact Agrees.queueNotice (s := s.setLine c { s.lines[c] with linking := none, state := st, disableMark := false })
      (h.setOrders rfl ((h.lines c).linked hst false hclears)) _
  unfold State.finishLinking
  dsimp only
  exact hends _ (by split <;> exact (nomatch ·))

/-- The DISCARD of a slot that the SENSE found full, if it did (R127). -/
def pendIf (l : CameraLine) (go : Bool) (slot : SlotNo) : CameraLine := if go then l.pend (.discard slot) else l

theorem pendIf_slots (l : CameraLine) (go : Bool) (slot : SlotNo) : (pendIf l go slot).slots = l.slots := by
  unfold pendIf
  split
  · exact pend_slots _ _
  · rfl

theorem pendIf_linking (l : CameraLine) (go : Bool) (slot : SlotNo) : (pendIf l go slot).linking = l.linking := by
  unfold pendIf
  split
  · exact pend_linking _ _
  · rfl

theorem pendIf_withLinking (l : CameraLine) (go : Bool) (slot : SlotNo) (x : LinkStep) :
    { pendIf l go slot with linking := some x } = pendIf { l with linking := some x } go slot := by
  unfold pendIf
  cases go with
  | true => exact pend_withLinking _ _ _
  | false => rfl

theorem LineFits.pendIf (h : LineFits reads done l) {flags : FlagSet} {clear0 clear1 go : Bool} {slot : SlotNo}
    (hlink : l.linking = some (.clearing flags clear0 clear1)) (hfree : go = true → l.slots[slot] = none)
    (h0 : go = true → slot = 0 → clear0 = true) (h1 : go = true → slot = 1 → clear1 = true) :
    LineFits reads done (pendIf l go slot) := by
  unfold Proofs.pendIf
  split
  · next hgo =>
    exact h.pend_discard (fun r hs => by rw [hfree hgo] at hs; cases hs)
      (fun _ => .inr ⟨flags, clear0, clear1, hlink, h0 hgo, h1 hgo⟩)
  · exact h

/-- The line after its linking SENSE has found slots full that it counts free (R127). -/
theorem LineFits.sensed (h : LineFits reads done l) (hx : l.linking = some .sense) (flags : FlagSet)
    {clear0 clear1 : Bool} (hfree0 : clear0 = true → l.slots[(0 : SlotNo)] = none)
    (hfree1 : clear1 = true → l.slots[(1 : SlotNo)] = none) : LineFits reads done
      { Proofs.pendIf (Proofs.pendIf l clear0 0) clear1 1 with linking := some (.clearing flags clear0 clear1) } := by
  have hfits := h.next_plain (y := .clearing flags clear0 clear1) hx (fun _ => (nomatch ·)) (fun _ _ _ => (nomatch ·))
    (fun hr => by rcases hr with hr | hr | hr <;> cases hr)
  rw [pendIf_withLinking, pendIf_withLinking]
  refine (hfits.pendIf rfl hfree0 (fun hgo _ => hgo) (fun _ he => by cases he)).pendIf (pendIf_linking _ _ _)
    (fun hgo => ?_) (fun _ he => by cases he) (fun hgo _ => hgo)
  rw [pendIf_slots]
  exact hfree1 hgo

theorem Accords.linkingSensed (h : Accords s) {c : Camera} (hx : s.lines[c].linking = some .sense) (flags : FlagSet)
    (slot0 slot1 : Bool) : Accords (s.linkingSensed c flags slot0 slot1) := by
  have hl := h.lines c
  have hfree : ∀ (full : Bool) (slot : SlotNo), (full && s.lines[c].slots[slot].isNone) = true →
      s.lines[c].slots[slot] = none := fun full slot hs => by
    rw [Bool.and_eq_true, Option.isNone_iff_eq_none] at hs; exact hs.2
  unfold State.linkingSensed
  dsimp only
  split
  · refine h.setOrders ?_ (hl.sensed hx flags (hfree slot0 0) (hfree slot1 1))
    exact (pendIf_slots (pendIf s.lines[c] _ 0) _ 1).trans (pendIf_slots _ _ _)
  · exact h.finishLinking c flags (hl.nothing_to_clear hx (fun _ => (nomatch ·)) (fun _ _ _ => (nomatch ·)))

/-- The linking sequence at the completion of a DISCARD, of whose slot none is wanted any more (R127). -/
theorem Accords.linkingDiscarded (h : Accords s) {c : Camera} {slot : SlotNo}
    (hdone : s.lines[c].discardWanted slot = false) : Accords (s.linkingDiscarded c slot) := by
  have hl := h.lines c
  have hother : ∀ x, s.lines[c].discardWanted x = true → x ≠ slot := fun x hx he => by
    rw [he, hdone] at hx; cases hx
  unfold State.linkingDiscarded
  dsimp only
  split
  · next k hk =>
    have hnone : ∀ x, k = slot → s.lines[c].discardWanted x = true → s.lines[c].slots[x] ≠ none := fun x hks hw hf => by
      rcases hl.free x hw hf with he | ⟨_, _, _, he, -⟩
      · rw [hk] at he; cases he; exact hother _ hw hks
      · rw [hk] at he; cases he
    have hfree : ∀ x : SlotNo, s.lines[c].slots[x] = none := hl.restarted (.inr (by
      match k, hk with
      | 0, hk => exact .inl hk
      | 1, hk => exact .inr hk))
    split
    · next hks =>
      split
      · refine h.setOrders (pend_slots _ _) ?_
        rw [pend_withLinking]
        exact (hl.relink (hl.in_linking hk) (fun x hw hf => absurd hf (hnone x hks hw)) (fun _ => hfree)).pend_discard
          (fun r hs => by
            rw [show ({ s.lines[c] with linking := some (.restartDiscard 1) } : CameraLine).slots[(1 : SlotNo)] = none
              from hfree 1] at hs
            cases hs) (fun _ => .inl rfl)
      · refine h.setOrders (pend_slots _ _) ?_
        rw [pend_withLinking]
        exact (hl.relink (hl.in_linking hk) (fun x hw hf => absurd hf (hnone x hks hw))
          (fun hr => absurd hr (not_restarted_relink _))).pend_plain (.inl rfl)
    · exact h
  · next flags clear0 clear1 hk =>
    have hclears : ∀ x, s.lines[c].discardWanted x = true → s.lines[c].slots[x] = none →
        (x = 0 → clear0 = true) ∧ (x = 1 → clear1 = true) := fun x hw hf => by
      rcases hl.free x hw hf with he | ⟨_, _, _, he, h0, h1⟩
      · rw [hk] at he; cases he
      · rw [hk] at he; cases he; exact ⟨h0, h1⟩
    have hleft : ∀ x, s.lines[c].discardWanted x = true → s.lines[c].slots[x] = none →
        (x = 0 → (clear0 && slot != 0) = true) ∧ (x = 1 → (clear1 && slot != 1) = true) := fun x hw hf => by
      obtain ⟨h0, h1⟩ := hclears x hw hf
      have hne := hother x hw
      refine ⟨fun hx => ?_, fun hx => ?_⟩
      · rw [h0 hx, Bool.true_and, bne_iff_ne]; exact fun he => hne (hx.trans he.symm)
      · rw [h1 hx, Bool.true_and, bne_iff_ne]; exact fun he => hne (hx.trans he.symm)
    split
    · refine h.setOrders rfl (hl.relink (hl.in_linking hk) (fun x hw hf => ?_)
        (fun hr => by rcases hr with hr | hr | hr <;> cases hr))
      obtain ⟨h0, h1⟩ := hleft x hw hf
      exact .inr ⟨flags, _, _, rfl, h0, h1⟩
    · next hend =>
      refine h.finishLinking c flags (fun x hw hf => hend ?_)
      obtain ⟨h0, h1⟩ := hleft x hw hf
      match x, h0, h1 with
      | 0, h0, _ => rw [h0 rfl]; rfl
      | 1, _, h1 => rw [h1 rfl, Bool.or_true]
  · exact h

end Linking

end Sys2Proof.Proofs

/-! PROOFS. Agreement under the ends of camera orders: answers, timeouts, and what follows (R112 to R116, R125, R126). -/

namespace Sys2Proof.Proofs

open Sys2Proof.Machine

section Answers

variable {s t : State} {stop out : ShotRef → Prop} {r : ShotRef} {c : Camera} {ch : ChannelNo} {w : ChannelWork}

theorem Accords.blocks (h : Accords s) (ht : t.table = s.table := by rfl) (hl : t.lines = s.lines := by rfl)
    (hr : t.readout = s.readout := by rfl) (hm : t.memory = s.memory := by rfl) : Accords t :=
  Agrees.blocks h ht hl hr hm

/-! ## The line is free (R112) -/

/-- A state whose line has just become free. -/
def lineFreed (s : State) (c : Camera) : State := s.setLine c { s.lines[c] with outstanding := none }

theorem Accords.freed (h : Accords s) (c : Camera) : Accords (lineFreed s c) := h.setOrders rfl (h.lines c).released

theorem lineFreed_line (s : State) (c : Camera) : (lineFreed s c).lines[c] = CameraLine.released s.lines[c] :=
  lines_setLine _ _ _

theorem Accords.afterOrder (h : Accords s) (c : Camera) : Accords (s.afterOrder c) :=
  Accords.grantAll (Agrees.issueOrder (h.linkingResumed c) c)

theorem Accords.endOrder (h : Accords s) {out : Outstanding} {act : State → State}
    (hact : out.ignored = false → Accords (act (lineFreed s c))) : Accords (s.endOrder c out act) := by
  unfold State.endOrder
  dsimp only
  refine Accords.afterOrder ?_ c
  split
  · exact h.freed c
  · next hi => exact hact (by simpa using hi)

/-! ## A READ ended (R113, R116) -/

/-- What the end of a READ finds once its line is free: the channel it is for, its slot and its segment. -/
structure ReadEnds (s : State) (c : Camera) (ch : ChannelNo) (w : ChannelWork) (slot : SlotNo) (release : Bool) :
    Prop where
  channel : s.readout.channels[ch] = some w
  camera : s.cameraOf w.shot = some c
  slot : s.lines[c].slots[slot] = some w.shot
  wanted : s.lines[c].readWanted = none
  step : w.step = .read ∨ w.step = .final
  release : ∀ k, s.shot? w.shot = some k → (release = true ↔ w.segment + 1 = k.segmentsExpected)

theorem Accords.readEnds (h : Accords s) {slot : SlotNo} {segment ends : Nat} {release : Bool}
    (hout : s.lines[c].outstanding = some ⟨.read slot segment release, ends, false⟩) :
    ∃ ch w, (lineFreed s c).serving? c = some (ch, w) ∧ ReadEnds (lineFreed s c) c ch w slot release := by
  have hl := h.lines c
  obtain ⟨q, hslot, hreads⟩ := hl.read _ (wanted_of_read hl hout)
  obtain ⟨ch, w, k, hw, rfl, hk, hstep, hseg, hrelease⟩ := hreads.resolve_left id
  have hcamera := h.camera_of_slot hslot
  refine ⟨ch, w, h.serving hw hcamera, hw, hcamera, ?_, ?_, hstep, fun l hl => ?_⟩
  · rw [lineFreed_line]; exact hslot
  · rw [lineFreed_line, released_readWanted, read_ended hl hout]
  · obtain rfl := Option.some.inj (hk.symm.trans hl)
    exact hrelease

theorem ReadEnds.on {slot : SlotNo} {release : Bool} (h : ReadEnds s c ch w slot release) :
    w.step.onSegment = true := by rcases h.step with he | he <;> rw [he] <;> rfl

theorem Accords.attemptFailed (h : Accords s) {slot : SlotNo} {release : Bool} (hr : ReadEnds s c ch w slot release) :
    Accords (s.attemptFailed c ch w) := by
  rcases hr.step with hstep | hstep
  · exact h.attemptFailed_early hr.channel hr.camera hr.wanted hstep
  · unfold State.attemptFailed
    rw [if_pos hstep]
    exact h.goDown c _

/-- The flags and the bytes of the answer taken, before its outcome (R113, R117). -/
theorem ReadEnds.taken {slot : SlotNo} {release : Bool} (h : ReadEnds s c ch w slot release) (flags : FlagSet)
    (bytes : List Byte) :
    ReadEnds ((s.takeReadFlags c w.shot flags).writeSegment w bytes) c ch w slot release := by
  obtain ⟨htable, hlines, hreadout⟩ := writeSegment_same (s.takeReadFlags c w.shot flags) w bytes
  have hrel : Option.Rel SameShot (s.shot? w.shot) (((s.takeReadFlags c w.shot flags).writeSegment w bytes).shot? w.shot) := by
    rw [shot?_of_table htable]
    change Option.Rel SameShot _ ((s.modifyShot w.shot (·.takeFlags flags (s.shotEntry w.shot c).careSet)).shot? w.shot)
    rw [shot?_modifyShot]
    cases s.shot? w.shot with
    | none => exact .none
    | some k =>
      refine .some ?_
      dsimp only
      rw [if_pos rfl]
      exact ⟨rfl, rfl, rfl, rfl⟩
  have hline : ((s.takeReadFlags c w.shot flags).writeSegment w bytes).lines[c]
      = (s.lines[c].takeFlags flags).markDisable flags (s.shotEntry w.shot c).disableSet := by
    rw [hlines]
    exact lines_setLine _ _ _
  refine ⟨?_, (cameraOf_rel hrel).trans h.camera, ?_, ?_, h.step, fun k hk => ?_⟩
  · rw [hreadout]; exact h.channel
  · rw [hline, markDisable_slots]; exact h.slot
  · rw [hline]
    unfold CameraLine.markDisable
    split <;> exact h.wanted
  · obtain ⟨l, hl, hsame⟩ := rel_some_right hrel hk
    rw [hsame.segmentsExpected]
    exact h.release l hl

theorem Accords.readAnswered (h : Accords s) {slot : SlotNo} {release : Bool} (hr : ReadEnds s c ch w slot release)
    (hserving : s.serving? c = some (ch, w)) (bytes : List Byte) (check : BitVec 32) (outcome : ReadOutcome)
    (flags : FlagSet) : Accords (s.readAnswered c slot release bytes check outcome flags) := by
  unfold State.readAnswered
  rw [hserving]
  dsimp only
  have htaken : Accords ((s.takeReadFlags c w.shot flags).writeSegment w bytes) := by
    obtain ⟨htable, -⟩ := writeSegment_same (s.takeReadFlags c w.shot flags) w bytes
    unfold Accords
    rw [stopping_of_table htable]
    exact Agrees.writeSegment (Agrees.takeReadFlags h c w.shot flags) w bytes
  have hr' := hr.taken flags bytes
  split
  · exact htaken.attemptSucceeded hr'.channel hr'.wanted hr'.on hr'.slot hr'.release
  · exact htaken.attemptFailed hr'

/-! ## A DISCARD acknowledged (R114, R125) -/

theorem setSlot_free {slot : SlotNo} (h : s.lines[c].slots[slot] = none) : s.setSlot c slot none = s := by
  unfold State.setSlot CameraLine.setSlot
  rw [show setAt s.lines[c].slots slot none = s.lines[c].slots from h ▸ setAt_same _ slot]
  exact setLine_same s c

/-- The shot of a slot whose DISCARD is done is finished (R114, R123, R125, R126). -/
theorem Accords.finishDiscarded (h : Accords s) {slot : SlotNo} (hslot : s.lines[c].slots[slot] = some r)
    (hdone : s.lines[c].discardWanted slot = false) (hr : storesNoMore s (stopping s) r) :
    Accords ((s.setSlot c slot none).finishDiscarded c r) := by
  have hcamera := h.camera_of_slot hslot
  have hat : ∀ {d : Camera}, (∃ x, InSlot s r d x) → InSlot s r c slot := fun ⟨x, hx⟩ => by
    obtain ⟨rfl, rfl⟩ := (hx c slot).1 hslot
    exact hx
  have hnodiscard : InSlot s r c slot → NoDiscard s r := fun hin d x hd hs => by
    obtain ⟨rfl, rfl⟩ := (hin d x).1 hs
    rw [hdone] at hd
    cases hd
  rcases hr with ⟨hheld, hstop⟩ | ⟨ch, w, hw, rfl, hoff⟩
  · obtain ⟨k, hk, hstate⟩ := shot_of_state hheld
    have hholding := role_of_held h hk hstate
    have hin := hat hholding.slot
    have hidle := hholding.channels
    obtain ⟨hvacated, hslots⟩ := (h.atWork r).vacate hin (h.noRead (fun ch w hw he => absurd he (hidle ch w hw))) (hnodiscard hin)
    obtain ⟨hqueue, hreserved⟩ := hholding.stops hstop
    have hserving : ∀ ch w, (s.setSlot c slot none).serving? c = some (ch, w) → w.shot ≠ r := fun ch w hserving =>
      hidle ch w (serving?_some hserving).1
    rw [finishDiscarded_held hserving]
    set v := s.setSlot c slot none
    have hended : Agrees (· = r) (stopping (v.modifyShot r (fun k => { k with state := .cancelled })))
        (v.modifyShot r (fun k => { k with state := .cancelled })) :=
      Agrees.modifyShot (s := v) hvacated hk rfl (h.records r k hk)
    have hloose : Loose (v.modifyShot r (fun k => { k with state := .cancelled })) r :=
      ⟨hslots, hqueue, hidle, hreserved⟩
    have hfound : (v.modifyShot r (fun k => { k with state := .cancelled })).shot? r = some { k with state := .cancelled } :=
      shot?_modifyShot_self hk _
    exact Agrees.checkSettled (hended.putAside (.ended _ hfound rfl hloose) hslots) _
  · obtain ⟨k, hk, hreading⟩ := role_of_channel h hw
    have hin := hat hreading.slot
    have hnone := h.relinking hw hcamera ⟨fun he => (by simp [he, ChannelStep.onSegment] at hoff),
      fun he => (by simp [he, ChannelStep.onSegment] at hoff)⟩
    obtain ⟨hvacated, hslots⟩ := (h.atWork w.shot).vacate hin (hin.noRead hnone) (hnodiscard hin)
    obtain ⟨-, hreserved⟩ := hreading.progress.ended hoff
    rw [finishDiscarded_read (s := s.setSlot c slot none) (h.serving hw hcamera) rfl hk]
    have hv : Agrees (· = w.shot) (stopping (s.setSlot c slot none)) (s.setSlot c slot none) := hvacated
    refine hv.endReadout (k := k) hk hslots hreading.queue (fun v hv => ?_) hreading.only hreserved c ?_
    · obtain rfl := Option.some.inj (hw.symm.trans hv)
      rfl
    · unfold discardedState
      split
      · rfl
      · split <;> rfl

end Answers

end Sys2Proof.Proofs

/-! PROOFS. Agreement under the commands of the camera orders (R112 to R116, R125 to R127, R130). -/

namespace Sys2Proof.Proofs

open Sys2Proof.Machine

section Orders

variable {s t : State} {stop out : ShotRef → Prop} {r : ShotRef} {c : Camera}

/-! ## Between events (R137, R187) -/

theorem Accords.compareLow (h : Accords s) : Accords s.compareLow := by
  unfold State.compareLow
  dsimp only
  split
  · exact Agrees.queueNotice (s := s.setMemory { s.memory with low := true })
      (Agrees.samePages h h.memory.wf rfl rfl) _
  split
  · exact Agrees.queueNotice (s := s.setMemory { s.memory with low := false })
      (Agrees.samePages h h.memory.wf rfl rfl) _
  · exact h

/-- One page changed, its owner staying if it has one. -/
theorem Agrees.onePage (h : Agrees out stop s) {k : Nat} {m : FrameMemory}
    (hne : ∀ j, j ≠ k → m.page j = s.memory.page j)
    (hheld : ∀ o, (s.memory.page k).condition = .held o → (m.page k).condition = .held o)
    (hr : m.reservations = s.memory.reservations) (hm : MemorySound m) : Agrees out stop (s.setMemory m) := by
  have hkeeps : ∀ j o, (s.memory.page j).condition = .held o → (m.page j).condition = .held o := fun j o hj => by
    by_cases hjk : j = k
    · subst hjk
      exact hheld o hj
    · rw [hne j hjk]
      exact hj
  refine h.setMemory (fun q _ => ?_) (fun _ _ j i hj => hkeeps j _ hj) (fun q l _ hl => ?_) hm
  · unfold FrameMemory.remainder
    rw [hr]
  · obtain ⟨h1, h2, h3⟩ := h.records q l hl
    exact ⟨h1, h2, fun i n hn => hkeeps n _ (h3 i n hn)⟩

/-- A page's entry changed, its condition as it was. -/
theorem Agrees.setPage_same (h : Agrees out stop s) {k : Nat} (hk : k < logicalPages) {p : Page}
    (hp : p.condition = (s.memory.page k).condition) : Agrees out stop (s.setMemory (s.memory.setPage k p)) :=
  h.onePage (fun j hj => FrameMemory.page_setPage_ne h.memory.wf k j p hj)
    (fun o ho => by rw [FrameMemory.page_setPage_self h.memory.wf, hp, ho]) rfl (h.memory.setPage_same hk hp)

theorem Agrees.markByFetch (h : Agrees out stop s) {k : Nat} (hk : k < logicalPages) :
    Agrees out stop (s.setMemory (s.memory.markByFetch k)) := by
  cases hm : (s.memory.page k).mark with
  | none =>
    rw [FrameMemory.markByFetch_unmarked hm]
    exact h.setPage_same hk rfl
  | some m =>
    rw [FrameMemory.markByFetch_marked hm]
    exact h

/-- A chunk sent counts its damage and may mark the page it was read from (R141, R142, R194). -/
theorem Accords.sendChunk (h : Accords s) (f : Fetch) : Accords (s.sendChunk f) := by
  have hpage : ∀ segment pg, s.pageOf f.shot segment = some pg → pg < logicalPages := fun segment pg hpg => by
    unfold State.pageOf at hpg
    split at hpg
    · next k hk => exact h.memory.number ((h.records _ k hk).2.2 segment pg hpg)
    · cases hpg
  have hmarked : ∀ segment damaged,
      Accords (s.setMemory (s.memory.markDamaged (s.pageOf f.shot segment) damaged)) := fun segment damaged => by
    unfold FrameMemory.markDamaged
    split
    · next pg hpg =>
      split
      · exact Agrees.markByFetch h (hpage _ pg hpg)
      · exact h
    · exact h
  unfold State.sendChunk
  dsimp only
  refine Accords.blocks (s := State.modifyShot (s.setMemory _) f.shot _) (Agrees.modifyShot_same (hmarked _ _) f.shot
    (fun k => ?_))
  unfold Shot.countChunk
  exact ⟨rfl, rfl, rfl, rfl⟩

theorem Accords.sendNotice (h : Accords s) : Accords s.sendNotice := by
  unfold State.sendNotice
  split
  · exact h
  · exact h.blocks

theorem Accords.arbitrate (h : Accords s) : Accords s.arbitrate := by
  unfold State.arbitrate
  split
  · split
    · exact h.sendNotice
    · split
      · exact h.blocks
      · split
        · exact h.sendChunk _
        · exact h.sendNotice
  · exact h

theorem Accords.endEvent (h : Accords s) : Accords s.endEvent := h.compareLow.arbitrate

/-! ## A DISCARD acknowledged (R114) -/

theorem finishDiscarded_orders (s : State) (c : Camera) (r : ShotRef) :
    (s.finishDiscarded c r).lines[c].orders = s.lines[c].orders
      ∧ (s.finishDiscarded c r).lines[c].outstanding = s.lines[c].outstanding := by
  have hend : (s.endShot r .cancelled).lines[c].orders = s.lines[c].orders
      ∧ (s.endShot r .cancelled).lines[c].outstanding = s.lines[c].outstanding := by
    obtain ⟨⟨-, hlines, -⟩, -⟩ := endShot_facts s r .cancelled
    rw [hlines]
    exact ⟨rfl, rfl⟩
  unfold State.finishDiscarded
  split
  · next ch w hserving =>
    split
    · obtain ⟨-, -, -, -, -, hown⟩ := endReadout_facts s c ch r
        (if s.hasStored r then .partialStored else if w.step = .stopping then .cancelled else .failed)
      obtain ⟨-, hout, -, horders, -⟩ := marked_orders s.lines[c]
      rw [hown]
      exact ⟨horders, hout⟩
    · exact hend
  · exact hend

theorem discardWanted_congr {l l' : CameraLine} (ho : l'.orders = l.orders) (hs : l'.outstanding = l.outstanding)
    (slot : SlotNo) : l'.discardWanted slot = l.discardWanted slot := by
  unfold CameraLine.discardWanted CameraLine.sharesOutstanding
  rw [ho, hs]

theorem Accords.discardAnswered (h : Accords s) {slot : SlotNo} (hdone : s.lines[c].discardWanted slot = false)
    (hr : ∀ r, s.lines[c].slots[slot] = some r → storesNoMore s (stopping s) r) :
    Accords (s.discardAnswered c slot) := by
  unfold State.discardAnswered
  dsimp only
  split
  · next r hslot =>
    refine (h.finishDiscarded hslot hdone (hr r hslot)).linkingDiscarded ?_
    obtain ⟨horders, hout⟩ := finishDiscarded_orders (s.setSlot c slot none) c r
    have hline : (s.setSlot c slot none).lines[c] = s.lines[c].setSlot slot none := lines_setLine _ _ _
    rw [discardWanted_congr (l := s.lines[c]) (horders.trans (by rw [hline]; rfl)) (hout.trans (by rw [hline]; rfl))]
    exact hdone
  · next hslot =>
    rw [setSlot_free hslot]
    exact h.linkingDiscarded hdone

theorem Accords.discardEnds (h : Accords s) {slot : SlotNo} {ends : Nat}
    (hout : s.lines[c].outstanding = some ⟨.discard slot, ends, false⟩) :
    Accords ((lineFreed s c).discardAnswered c slot) := by
  have hl := h.lines c
  refine (h.freed c).discardAnswered ?_ (fun r hslot => ?_)
  · rw [lineFreed_line, released_discardWanted]
    exact discard_ended hl hout
  · rw [lineFreed_line] at hslot
    exact (hl.occupied slot r (wanted_of_discard hout) hslot).resolve_left id

/-! ## A RELINK acknowledged, a SENSE answered (R115) -/

theorem Accords.relinkAnswered (h : Accords s) (c : Camera) : Accords (s.relinkAnswered c) := by
  rw [relinkAnswered_eq]
  exact (h.channelRelinked c).linkingRelinked c

theorem answerSense_blocks (s : State) (c : Camera) (flags : FlagSet) (slot0 slot1 : Bool) :
    (s.answerSense c flags slot0 slot1).table = s.table ∧ (s.answerSense c flags slot0 slot1).lines = s.lines
      ∧ (s.answerSense c flags slot0 slot1).readout = s.readout
      ∧ (s.answerSense c flags slot0 slot1).memory = s.memory := by
  unfold State.answerSense
  split
  · split
    · exact ⟨rfl, rfl, rfl, rfl⟩
    · exact ⟨rfl, rfl, rfl, rfl⟩
  · exact ⟨rfl, rfl, rfl, rfl⟩

theorem Accords.senseAnswered (h : Accords s) (c : Camera) (flags : FlagSet) (slot0 slot1 : Bool) :
    Accords (s.senseAnswered c flags slot0 slot1) := by
  have hl := h.lines c
  have htaken : Accords (s.setLine c (s.lines[c].takeFlags flags)) :=
    h.setOrders rfl (hl.restate rfl rfl rfl rfl hl.linking)
  obtain ⟨htable, hlines, hreadout, hmemory⟩ :=
    answerSense_blocks (s.setLine c (s.lines[c].takeFlags flags)) c flags slot0 slot1
  have hanswered := htaken.blocks htable hlines hreadout hmemory
  unfold State.senseAnswered
  dsimp only
  split
  · next hx => exact hanswered.linkingSensed hx flags slot0 slot1
  · exact hanswered

/-! ## Timeouts (R116) -/

theorem Accords.failSense (h : Accords s) (c : Camera) (d : Detail) : Accords (s.failSense c d) := by
  unfold State.failSense
  split
  · split
    · exact h.blocks
    · exact h
  · exact h

theorem Accords.orderTimedOut (h : Accords s) {o : Order} {ends : Nat}
    (hout : s.lines[c].outstanding = some ⟨o, ends, false⟩) : Accords ((lineFreed s c).orderTimedOut c o) := by
  have hfreed := h.freed c
  cases o with
  | read slot segment release =>
    obtain ⟨ch, w, hserving, hends⟩ := h.readEnds hout
    unfold State.orderTimedOut
    simp only [hserving]
    exact hfreed.attemptFailed hends
  | relink => exact hfreed.goDown c _
  | discard slot => exact hfreed.goDown c _
  | sense =>
    unfold State.orderTimedOut
    dsimp only
    split
    · exact hfreed.goDown c _
    · exact hfreed.failSense c _

theorem outstanding_of_answered {issued : Nat} {o : Outstanding} (h : s.lines[c].answered issued = some o) :
    s.lines[c].outstanding = some o := (Option.filter_eq_some_iff.1 h).1

end Orders

end Sys2Proof.Proofs

/-! PROOFS. Agreement under the requests of the camera lines and of frame memory (R128 to R130, R145 to R147). -/

namespace Sys2Proof.Proofs

open Sys2Proof.Machine

section Requests

variable {s t : State} {stop out : ShotRef → Prop} {r : ShotRef} {c : Camera} {l : CameraLine}
  {reads : ReadOrder → ShotRef → Prop} {done : ShotRef → Prop}

/-! ## A line that goes to LINKING (R127 to R129) -/

/-- A line in LINKING whose linking sequence waits for the line to become free. -/
def lineWaiting (l : CameraLine) : CameraLine :=
  { l with accumulated := 0, state := .linking, disableMark := false, linking := some (.waiting false) }

theorem LineFits.waiting (h : LineFits reads done l) (hstate : l.state ≠ .linking) :
    LineFits reads done (lineWaiting l) := by
  have hnone : ¬ l.linking.isSome = true := fun hn => hstate (h.linking.1 hn)
  refine ⟨h.read, h.readOnce, h.discardOnce, h.occupied, fun slot hw hs => ?_, ⟨fun _ => rfl, fun _ => rfl⟩, fun hl => ?_⟩
  · rcases h.free slot hw hs with he | ⟨_, _, _, he, -⟩
    · exact absurd (by rw [he]; rfl) hnone
    · exact absurd (by rw [he]; rfl) hnone
  · rcases hl with hl | hl | hl <;> cases hl

theorem LineFits.enterLinking (h : LineFits reads done l) (hstate : l.state ≠ .linking) :
    LineFits reads done ({ l with accumulated := 0, state := .linking, disableMark := false }.enterLinking false) := by
  have hwaiting := h.waiting hstate
  unfold CameraLine.enterLinking
  split
  · exact hwaiting
  · have hstarts := hwaiting.startLinking (byRestart := false) rfl
    unfold CameraLine.startLinking at hstarts ⊢
    rw [if_neg (by decide), pend_withLinking] at hstarts ⊢
    exact hstarts

theorem queueNotice_setLine (s : State) (x : Notice) (c : Camera) (l : CameraLine) :
    (s.queueNotice x).setLine c l = (s.setLine c l).queueNotice x := by
  unfold State.queueNotice
  have hlink : (s.setLine c l).link = s.link := rfl
  rw [hlink]
  split <;> rfl

theorem Accords.beginLinking (h : Accords s) (hstate : s.lines[c].state ≠ .linking) (cause : LineCause) :
    Accords (s.beginLinking c cause) := by
  unfold State.beginLinking State.changeLine
  simp only [lines_setLine, setLine_setLine, queueNotice_setLine, State.queueNotice_lines]
  refine Agrees.issueOrder (Agrees.queueNotice (s := s.setLine c _) (h.setOrders ?_ ((h.lines c).enterLinking hstate)) _) c
  exact enterLinking_slots _ _

theorem Accords.serviceOn (h : Accords s) (c : Camera) : Accords (s.serviceOn c) := by
  unfold State.serviceOn
  split
  · next hs => exact h.beginLinking (by rw [hs]; exact (nomatch ·)) _
  · next hs => exact h.beginLinking (by rw [hs]; exact (nomatch ·)) _
  all_goals exact h

theorem Accords.serviceOff (h : Accords s) (c : Camera) : Accords (s.serviceOff c) := by
  unfold State.serviceOff
  split
  · next hs =>
    refine Agrees.changeLine h c ((h.lines c).linking.trans ?_) _ _
    rw [hs]
    exact ⟨(nomatch ·), (nomatch ·)⟩
  all_goals exact h

theorem Accords.cameraService (h : Accords s) (line onOff : Byte) : Accords (s.cameraService line onOff).1 := by
  unfold State.cameraService
  split
  · exact h
  · next c _ =>
    split
    · exact h.serviceOff c
    · split
      · exact h
      · split
        · exact h.serviceOn c
        · exact h
    · exact h

/-- A RELINK or a SENSE placed and issued where the line is free (R112). -/
theorem Accords.placePlain (h : Accords s) (c : Camera) {o : Order} (ho : o = .relink ∨ o = .sense) :
    Accords (s.placeOrder c o) := Agrees.issueOrder (Agrees.pendPlain h c ho) c

/-! ## Pages retired and restored (R145 to R147) -/

theorem retireRefusal_none {m : FrameMemory} {k : Nat} {spare : Option Nat} (h : m.retireRefusal k spare = none) :
    k < logicalPages ∧ (m.target spare ≠ none ∨ ((m.page k).condition = .free → m.freeCount ≠ m.reservedCount)) := by
  unfold FrameMemory.retireRefusal at h
  dsimp only at h
  split at h
  · cases h
  · next hk =>
    refine ⟨Nat.not_le.1 hk, ?_⟩
    unfold FrameMemory.target
    cases spare with
    | none =>
      dsimp only at h ⊢
      split at h
      · cases h
      · split at h
        · cases h
        · next hroom =>
          by_cases hnone : m.lowestUsable = none
          · exact .inr (fun hfree he => hroom ⟨hfree, hnone, he⟩)
          · exact .inl hnone
    | some sp =>
      have husable : m.usable sp = true := by
        unfold FrameMemory.usable
        dsimp only at h
        split at h
        · cases h
        next hspare =>
        split at h
        · cases h
        next hbad =>
        split at h
        · cases h
        split at h
        · cases h
        next hassigned => simp [hspare, hbad, hassigned]
      exact .inl (by simp [husable])

theorem Agrees.retirePage (h : Agrees out stop s) {k : Nat} {spare : Option Nat}
    (hok : s.memory.retireRefusal k spare = none) :
    Agrees out stop (s.setMemory (s.memory.pageRetire k spare).1) := by
  obtain ⟨hk, hroom⟩ := retireRefusal_none hok
  have hwf := h.memory.wf
  unfold FrameMemory.pageRetire
  split
  · next hfree =>
    obtain ⟨-, -, -, hothers, -, -, hreservations, -⟩ := FrameMemory.retire_facts hwf k spare .request
    refine h.onePage hothers (fun o ho => by rw [hfree] at ho; cases ho) hreservations
      (h.memory.retire hk spare .request (.inr (hroom.imp_right (fun hne => ?_))))
    have := h.memory.reserved
    have := hne hfree
    omega
  · exact h.setPage_same hk rfl
  · next hout =>
    refine h.onePage (fun j hj => FrameMemory.page_setPage_ne hwf k j _ hj)
      (fun o ho => by rw [hout] at ho; cases ho) rfl (h.memory.setPage hk (.inl rfl))

theorem Accords.pageRetire (h : Accords s) (page spare : BitVec 16) : Accords (s.pageRetire page spare).1 := by
  unfold State.pageRetire
  dsimp only
  split
  · exact h
  · next hok =>
    exact Agrees.queueNotices _ (s := s.setMemory (s.memory.pageRetire page.toNat (noneIfAllOnes spare)).1)
      (Agrees.retirePage h hok)

theorem Accords.pageRestore (h : Accords s) (page : BitVec 16) : Accords (s.pageRestore page).1 := by
  unfold State.pageRestore
  dsimp only
  split
  · exact h
  · next hk =>
    split
    · exact h
    · next hheld =>
      refine Agrees.onePage h (fun j hj => FrameMemory.page_setPage_ne h.memory.wf _ j _ hj) (fun o ho => ?_) rfl
        (h.memory.setPage (Nat.not_le.1 hk) (.inl rfl))
      exact absurd (by unfold Page.isHeld; rw [ho]) hheld

end Requests

end Sys2Proof.Proofs

/-! PROOFS. Agreement while a passage enters STOPPING and its shots wind down (R42 to R44, R88, R125). -/

namespace Sys2Proof.Proofs

open Sys2Proof.Machine

section WindDown

variable {s t : State} {stop : ShotRef → Prop} {r : ShotRef} {k : Shot}

/-- One shot more counts as of a passage in STOPPING. -/
def andShot (stop : ShotRef → Prop) (r : ShotRef) : ShotRef → Prop := fun q => stop q ∨ q = r

theorem andShot_ne {q : ShotRef} (h : q ≠ r) : andShot stop r q ↔ stop q := or_iff_left h

/-- A shot that is neither to fire nor HELD counts as of a passage in STOPPING. -/
theorem Agrees.stopRead (h : Agrees nothing stop s)
    (hr : ∀ k, s.shot? r = some k → ¬ (pendingShot k ∨ k.state = .held)) : Agrees nothing (andShot stop r) s :=
  h.restop (fun _ k _ hk hst => andShot_ne (fun he => hr k (he ▸ hk) hst))

/-- A shot that is to fire is cancelled (R88). -/
theorem Agrees.stopPending (h : Agrees nothing stop s) (hk : s.shot? r = some k) (hpending : pendingShot k) :
    Agrees nothing (andShot stop r)
      ((s.leaveShotQueue r).modifyShot r (fun q => { q with state := .cancelled })) := by
  obtain ⟨-, -, -, hloose⟩ := role_of_pending h hk hpending
  set v := s.leaveShotQueue r
  have hv : Agrees nothing stop v := h.of_blocks rfl rfl rfl rfl
  have hk' : v.shot? r = some k := hk
  have hloose' : Loose (v.modifyShot r (fun q => { q with state := .cancelled })) r := hloose.of_blocks
  have hended := ((hv.atWork r).rewriteShot hk' (f := fun q => { q with state := .cancelled }) rfl
    (h.records r k hk)).putAside (.ended _ (shot?_modifyShot_self hk' _) rfl hloose') hloose'.slots
  refine hended.stopRead (fun l hl hst => ?_)
  obtain rfl := Option.some.inj ((shot?_modifyShot_self hk' _).symm.trans hl)
  rcases hst with (hst | hst) | hst <;> cases hst

/-- A HELD shot leaves the readout queue, returns its reservation and has a DISCARD of its slot placed (R125). -/
theorem Agrees.stopHeld (h : Agrees nothing stop s) (hk : s.shot? r = some k) (hheld : k.state = .held) :
    Agrees nothing (andShot stop r) (s.discardHeld r k.camera) := by
  have hholding := role_of_held h hk hheld
  obtain ⟨slot, hin⟩ := hholding.slot
  have hslot := (hin k.camera slot).2 ⟨rfl, rfl⟩
  have hworked := (h.atWork r).restop (stop' := andShot stop r) (fun q _ ho _ _ => andShot_ne ho)
  have hleft : Agrees (· = r) (andShot stop r) (s.leaveReadoutQueue r) :=
    hworked.setQueue (fun q hq => by simp [hq]) (h.once.filter _)
  have hreturned := hleft.returnReservation
  set v := (s.leaveReadoutQueue r).returnPages r none with hv
  have hvagrees : Agrees (· = r) (andShot stop r) v := hreturned
  have hnoread : NoRead s r := fun c o ho hs => by
    obtain ⟨q, hq, hreads⟩ := (h.lines c).read o ho
    obtain rfl := Option.some.inj (hs.symm.trans hq)
    obtain ⟨ch, w, -, hw, hsh, -⟩ := hreads.resolve_left id
    exact hholding.channels ch w hw hsh
  have hpended : Agrees (· = r) (andShot stop r) (v.pendOrder k.camera (.discard slot)) :=
    hvagrees.pendDiscard k.camera (fun q hq => .inl (Option.some.inj (hq.symm.trans hslot)))
      (fun hf => by rw [show v.lines[k.camera].slots[slot] = some r from hslot] at hf; cases hf)
  have hlines : ∀ (d : Camera), (v.pendOrder k.camera (.discard slot)).lines[d].slots = s.lines[d].slots
      ∧ (v.pendOrder k.camera (.discard slot)).lines[d].readWanted = s.lines[d].readWanted := fun d => by
    by_cases hd : d = k.camera
    · subst hd
      rw [show (v.pendOrder k.camera (.discard slot)).lines[k.camera] = s.lines[k.camera].pend (.discard slot) from
        lines_setLine _ _ _]
      exact ⟨pend_slots _ _, pend_discard_readWanted _ _⟩
    · rw [show (v.pendOrder k.camera (.discard slot)).lines[d] = s.lines[d] from lines_setLine_ne _ _ hd]
      exact ⟨rfl, rfl⟩
  have hstops : andShot stop r r := .inr rfl
  have hrole : Role (v.pendOrder k.camera (.discard slot)) (andShot stop r) r := by
    refine .held k hk ⟨hheld, hholding.pages, hholding.unsettled, ⟨slot, fun d x => ?_⟩, hholding.channels,
      fun hns => absurd hstops hns, fun _ => ⟨?_, remainder_returned_self _ r⟩⟩
    · rw [← hin d x, (hlines d).1]
    · change r ∉ s.readout.queue.filter (· != r)
      simp
  have hdone : storesNoMore (v.pendOrder k.camera (.discard slot)) (andShot stop r) r :=
    .inl ⟨(shotState_of (s := v.pendOrder k.camera (.discard slot)) hk).trans (congrArg some hheld), hstops⟩
  have hput : Agrees nothing (andShot stop r) (v.pendOrder k.camera (.discard slot)) :=
    hpended.putDown hrole (fun c o ho hs => by
      rw [(hlines c).2] at ho
      rw [(hlines c).1] at hs
      exact absurd hs (hnoread c o ho)) (fun _ _ _ _ => hdone)
  unfold State.discardHeld
  dsimp only
  rw [show ((s.leaveReadoutQueue r).returnPages r none).lines[k.camera].slotOf r = some slot from slotOf_inSlot hin]
  exact hput.issueOrder k.camera

/-- One shot winds down (R44). -/
theorem Agrees.windDownShot (h : Agrees nothing stop s) (r : ShotRef) :
    Agrees nothing (andShot stop r) (s.windDownShot r) := by
  cases hk : s.shot? r with
  | none =>
    unfold State.windDownShot
    rw [hk]
    exact h.stopRead (fun k hk' => by rw [hk] at hk'; cases hk')
  | some k =>
    obtain ⟨hfire, hheld, hrest⟩ := windDownShot_eq hk
    by_cases hpending : pendingShot k
    · rw [hfire hpending]
      exact h.stopPending hk hpending
    by_cases hst : k.state = .held
    · rw [hheld hst]
      exact h.stopHeld hk hst
    · rw [hrest (fun he => hpending (.inl he)) (fun he => hpending (.inr he)) hst]
      refine h.stopRead (fun l hl => ?_)
      obtain rfl := Option.some.inj (hk.symm.trans hl)
      exact not_or.2 ⟨hpending, hst⟩

/-- The shots of the first numbers of a passage count as of a passage in STOPPING. -/
def andShots (stop : ShotRef → Prop) (n i : Nat) : ShotRef → Prop := fun q => stop q ∨ (q.passage = n ∧ q.shot < i)

theorem andShots_succ (stop : ShotRef → Prop) (n i : Nat) :
    andShots stop n (i + 1) = andShot (andShots stop n i) ⟨n, i⟩ := by
  funext q
  refine propext ⟨?_, ?_⟩
  · rintro (h | ⟨hn, hi⟩)
    · exact .inl (.inl h)
    · rcases Nat.lt_succ_iff_lt_or_eq.1 hi with hi | hi
      · exact .inl (.inr ⟨hn, hi⟩)
      · exact .inr (by rw [← hn, ← hi])
  · rintro ((h | ⟨hn, hi⟩) | rfl)
    · exact .inl h
    · exact .inr ⟨hn, Nat.lt_succ_of_lt hi⟩
    · exact .inr ⟨rfl, Nat.lt_succ_self i⟩

theorem Agrees.windDown (h : Agrees nothing stop s) (p : Passage) :
    Agrees nothing (andShots stop p.number p.shots.length) (s.windDown p) := by
  have key : ∀ i, Agrees nothing (andShots stop p.number i)
      ((List.range i).foldl (fun q j => q.windDownShot ⟨p.number, j⟩) s) := by
    intro i
    induction i with
    | zero =>
      exact h.restop (fun q _ _ _ _ => or_iff_left (fun hq => Nat.not_lt_zero _ hq.2))
    | succ i ih =>
      rw [List.range_succ, List.foldl_append, andShots_succ]
      exact ih.windDownShot ⟨p.number, i⟩
  exact key _

/-! ## A passage enters STOPPING (R42 to R44) -/

/-- A record edited in other fields than its shots, its passage not FILED or ABANDONED by it. -/
theorem Agrees.restate (h : Agrees nothing stop s) {n : Nat} {f : Passage → Passage}
    (hn : ∀ p, (f p).number = p.number) (hk : ∀ p, (f p).shots = p.shots)
    (ho : ∀ p, s.passage? n = some p → ¬ isOver (f p)) : Agrees nothing stop (s.modifyPassage n f) := by
  have hshot := fun r => shot?_modifyPassage s n f r hn hk
  refine h.table rfl rfl rfl (fun r _ => ?_) (fun r _ _ _ _ hu p hp => ?_) (fun _ _ hout _ => hout.elim)
    (fun _ _ _ hout => hout.elim)
  · rw [hshot]; exact rel_same _
  · rw [passage?_modify s n r.passage f hn] at hp
    obtain ⟨q, hq, rfl⟩ := Option.map_eq_some_iff.1 hp
    split
    · next hr => exact ho q (hr ▸ hq)
    · exact hu q hq

theorem trackTo_blocks (s : State) (k : Track) (new : TrackState) :
    (s.trackTo k new).table = s.table ∧ (s.trackTo k new).lines = s.lines
      ∧ (s.trackTo k new).readout = s.readout ∧ (s.trackTo k new).memory = s.memory := by
  unfold State.trackTo
  dsimp only
  split
  · exact ⟨rfl, rfl, rfl, rfl⟩
  · obtain ⟨-, -, htable, -, -, -, hlines, hreadout, hmemory, -⟩ :=
      queueNotice_facts (s.setTrack k (s.movedTrack k new)) (.trackState k s.tracks[k].state new s.tracks[k].health)
    exact ⟨htable, hlines, hreadout, hmemory⟩

theorem drainCheck_blocks (s : State) (b : BankNo) :
    (s.drainCheck b).table = s.table ∧ (s.drainCheck b).lines = s.lines
      ∧ (s.drainCheck b).readout = s.readout ∧ (s.drainCheck b).memory = s.memory := by
  unfold State.drainCheck
  split
  · obtain ⟨-, -, htable, -, -, -, hlines, hreadout, hmemory, -⟩ := queueNotice_facts (s.setBankState b .standby)
      (.bankDrained b (s.boundCount b) (s.busyCount b))
    exact ⟨htable, hlines, hreadout, hmemory⟩
  · exact ⟨rfl, rfl, rfl, rfl⟩

theorem Agrees.trackTo (h : Agrees nothing stop s) (k : Track) (new : TrackState) :
    Agrees nothing stop (s.trackTo k new) := by
  obtain ⟨htable, hlines, hreadout, hmemory⟩ := trackTo_blocks s k new
  exact h.of_blocks htable hlines hreadout hmemory

theorem Agrees.drainCheck (h : Agrees nothing stop s) (b : BankNo) : Agrees nothing stop (s.drainCheck b) := by
  obtain ⟨htable, hlines, hreadout, hmemory⟩ := drainCheck_blocks s b
  exact h.of_blocks htable hlines hreadout hmemory

theorem Agrees.leaveOpen (h : Agrees nothing stop s) (p : Passage) {st : PassageState}
    (hst : st ≠ .filed ∧ st ≠ .abandoned) (track : TrackState) : Agrees nothing stop (s.leaveOpen p st track) := by
  have hleft : Agrees nothing stop (s.modifyPassage p.number (·.left st (s.clearOf p st))) :=
    h.restate (fun _ => rfl) (fun _ => rfl) (fun _ _ hover => hover.elim hst.1 hst.2)
  rw [State.leaveOpen_eq]
  exact (hleft.trackTo _ _).drainCheck _

/-- The record of a passage that enters STOPPING. -/
def Passage.stopped (p x : Passage) (s : State) (reason : AbandonReason) : Passage :=
  if p.isOpen then (x.giveReason reason).left .stopping (s.clearOf p .stopping) else (x.giveReason reason).stop

theorem stopPassage_passage? (s : State) (p : Passage) (reason : AbandonReason) (track : TrackState) (m : Nat) :
    (s.stopPassage p reason track).passage? m
      = (s.passage? m).map (fun x => if m = p.number then Passage.stopped p x s reason else x) := by
  have hgive := passage?_modify s p.number m (·.giveReason reason) (fun _ => rfl)
  unfold State.stopPassage Passage.stopped
  dsimp only
  by_cases ho : p.isOpen = true
  · simp only [ho, if_true]
    rw [State.leaveOpen_eq, passage?_of_table ((State.drainCheck_table _ _).trans (State.trackTo_table _ _ _)),
      passage?_modify _ _ _ (·.left .stopping _) (fun _ => rfl), hgive, Option.map_map]
    congr 1
    funext x
    by_cases hm : m = p.number
    · simp only [Function.comp_apply, hm, if_true]
      rfl
    · simp [hm]
  · simp only [ho]
    rw [if_neg (by decide), passage?_modify _ _ _ (·.stop) (fun _ => rfl), hgive, Option.map_map]
    congr 1
    funext x
    by_cases hm : m = p.number <;> simp [hm]

theorem stopped_state (p x : Passage) (s : State) (reason : AbandonReason) :
    (Passage.stopped p x s reason).state = .stopping ∧ (Passage.stopped p x s reason).shots = x.shots := by
  unfold Passage.stopped
  split <;> exact ⟨rfl, rfl⟩

theorem Agrees.stopPassage (h : Agrees nothing stop s) {p x : Passage} (hx : s.passage? p.number = some x)
    (hover : ¬ isOver x) (reason : AbandonReason) (track : TrackState) :
    Agrees nothing stop (s.stopPassage p reason track) := by
  have hgiven : Agrees nothing stop (s.modifyPassage p.number (·.giveReason reason)) :=
    h.restate (fun _ => rfl) (fun _ => rfl) (fun q hq hqo => by
      obtain rfl := Option.some.inj (hx.symm.trans hq)
      exact hover hqo)
  unfold State.stopPassage
  dsimp only
  split
  · exact hgiven.leaveOpen p (st := .stopping) ⟨(nomatch ·), (nomatch ·)⟩ track
  · exact hgiven.restate (f := (·.stop)) (fun _ => rfl) (fun _ => rfl) (fun _ _ hqo => by
      rcases hqo with hqo | hqo <;> cases hqo)

theorem stopping_windDownShot (s : State) (r : ShotRef) : stopping (s.windDownShot r) = stopping s := by
  cases hk : s.shot? r with
  | none =>
    unfold State.windDownShot
    rw [hk]
  | some k =>
    obtain ⟨hfire, hheld, hrest⟩ := windDownShot_eq hk
    by_cases hpending : pendingShot k
    · rw [hfire hpending]
      exact stopping_modifyShot (s.leaveShotQueue r) r _
    by_cases hst : k.state = .held
    · rw [hheld hst]
      obtain ⟨hdis, -⟩ := discardHeld_eq s r k.camera
      exact stopping_of_table (by rw [hdis])
    · rw [hrest (fun he => hpending (.inl he)) (fun he => hpending (.inr he)) hst]

theorem stopping_windDown (s : State) (p : Passage) : stopping (s.windDown p) = stopping s := by
  unfold State.windDown
  generalize List.range p.shots.length = l
  induction l generalizing s with
  | nil => rfl
  | cons i l ih => exact (ih _).trans (stopping_windDownShot s _)

/-- A passage is abandoned, and wound down: its shots count as of a passage in STOPPING then (R44). -/
theorem Accords.abandon (h : Accords s) {p x : Passage} (hx : s.passage? p.number = some x) (hshots : x.shots = p.shots)
    (hover : ¬ isOver x) (reason : AbandonReason) (track : TrackState) : Accords (s.abandon p reason track) := by
  have hpassage := stopPassage_passage? s p reason track
  have hstopped := (Agrees.stopPassage h hx hover reason track).windDown p
  obtain ⟨hstate, hkept⟩ := stopped_state p x s reason
  have hrecord : (s.stopPassage p reason track).passage? p.number = some (Passage.stopped p x s reason) := by
    rw [hpassage, hx, Option.map_some, if_pos rfl]
  have hwound := (windDown_woundTo hrecord (hkept.trans hshots)).record
  rw [State.abandon_eq]
  refine Agrees.checkSettled (hstopped.restop (fun q k _ hk _ => ?_)) _
  rw [stopping_windDown, stopping_iff, hpassage]
  by_cases hq : q.passage = p.number
  · have hlt : q.shot < p.shots.length := by
      rw [shot?_of_passage? (hq ▸ hwound)] at hk
      have := (List.getElem?_eq_some_iff.1 hk).1
      rw [shotsWoundTo_all, List.length_map] at this
      exact this
    rw [hq, hx, Option.map_some, if_pos rfl]
    exact ⟨fun _ => .inr ⟨hq, hlt⟩, fun _ => ⟨_, rfl, hstate⟩⟩
  · simp only [hq, if_false, Option.map_id']
    unfold andShots
    rw [stopping_iff]
    simp [hq]

end WindDown

end Sys2Proof.Proofs

/-! PROOFS. Passages, banks and tracks: the bindings, and the segments of the cameras of bound banks (R109, R156, R157,
R166, R172). -/

namespace Sys2Proof.Proofs

open Sys2Proof.Machine

/-- `State.bindings` and the segments of the banks that passages are bound to, the draining of the banks `out` aside,
whose drain check is to come. -/
structure Bound (out : BankNo → Prop) (s : State) : Prop where
  opens : ∀ p ∈ s.table.passages, p.isOpen = true →
    s.banks.slots[p.bank].state = .active ∨ s.banks.slots[p.bank].state = .draining
  drains : ∀ b : BankNo, ¬ out b → s.banks.slots[b].state = .draining →
    ∃ p ∈ s.table.passages, p.isOpen = true ∧ p.bank = b
  cold : (∀ b : BankNo, s.banks.slots[b].state ≠ .active) → ∀ t : Track, s.tracks[t].state = .disarmed
  fits : ∀ b : BankNo, s.banks.slots[b].state = .active ∨ s.banks.slots[b].state = .draining → BankFits (s.bank b)

/-- No bank's drain check is to come. -/
def noBank : BankNo → Prop := fun _ => False

theorem bound_of_bindings {s : State} (h : s.bindings) (hs : s.agree) : Bound noBank s := by
  obtain ⟨hopens, hdrains, hcold⟩ := h
  exact ⟨hopens, fun b _ => hdrains b, hcold, fun b hb c => hs.segments b c hb⟩

theorem Bound.bindings {s : State} (h : Bound noBank s) : s.bindings :=
  ⟨h.opens, fun b => h.drains b id, h.cold⟩

section Banks

variable {s t : State} {out : BankNo → Prop}

/-- The banks as they were, and as many open passages on each, no track armed. -/
theorem Bound.frame (h : Bound out s) (hb : t.banks = s.banks)
    (hopen : ∀ p ∈ t.table.passages, p.isOpen = true → ∃ q ∈ s.table.passages, q.isOpen = true ∧ q.bank = p.bank)
    (hback : ∀ q ∈ s.table.passages, q.isOpen = true → ∃ p ∈ t.table.passages, p.isOpen = true ∧ p.bank = q.bank)
    (htr : ∀ k : Track, s.tracks[k].state = .disarmed → t.tracks[k].state = .disarmed) : Bound out t where
  opens p hp ho := by
    obtain ⟨q, hq, hqo, hbank⟩ := hopen p hp ho
    simp only [hb, ← hbank]
    exact h.opens q hq hqo
  drains b hout hst := by
    simp only [hb] at hst
    obtain ⟨q, hq, hqo, rfl⟩ := h.drains b hout hst
    exact hback q hq hqo
  cold hno k := htr k (h.cold (fun b => by
    have := hno b
    simp only [hb] at this
    exact this) k)
  fits b hst := by
    simp only [hb] at hst
    unfold State.bank
    rw [hb]
    exact h.fits b hst

theorem Bound.keeps (h : Bound out s) (hk : Keeps s t) : Bound out t := by
  refine h.frame hk.banks (fun p hp ho => ?_) (fun q hq ho => ?_) (fun k hd => by simp only [hk.tracks]; exact hd)
  · obtain ⟨q, hq, hqp⟩ := forall₂_mem_right hk.passages hp
    exact ⟨q, hq, hqp.isOpen ▸ ho, hqp.bank.symm⟩
  · obtain ⟨p, hp, hqp⟩ := forall₂_mem_left hk.passages hq
    exact ⟨p, hp, hqp.isOpen.trans ho, hqp.bank⟩

/-- An operation over tracks alone. -/
theorem Bound.tracked (h : Bound out s) (hb : t.banks = s.banks) (ht : t.table = s.table)
    (htr : ∀ k : Track, s.tracks[k].state = .disarmed →
      t.tracks[k].state = .disarmed ∨ ∃ b : BankNo, s.banks.slots[b].state = .active) : Bound out t := by
  have hopens := fun p (hp : p ∈ t.table.passages) ho => h.opens p (ht ▸ hp) ho
  refine ⟨fun p hp ho => by simp only [hb]; exact hopens p hp ho, fun b hout hst => ?_, fun hno k => ?_, fun b hst => ?_⟩
  · simp only [hb] at hst
    rw [ht]
    exact h.drains b hout hst
  · have hno' : ∀ b : BankNo, s.banks.slots[b].state ≠ .active := fun b => by
      have := hno b
      simp only [hb] at this
      exact this
    exact (htr k (h.cold hno' k)).resolve_right (fun ⟨b, hb⟩ => hno' b hb)
  · simp only [hb] at hst
    unfold State.bank
    rw [hb]
    exact h.fits b hst

theorem trackTo_state (s : State) (k : Track) (new : TrackState) (j : Track) :
    (s.trackTo k new).tracks[j].state = if j = k then new else s.tracks[j].state := by
  simp only [State.trackTo_tracks, getElem_setAt]
  split <;> rfl

theorem trackTo_banks (s : State) (k : Track) (new : TrackState) : (s.trackTo k new).banks = s.banks := by
  unfold State.trackTo
  dsimp only
  split
  · rfl
  · exact State.queueNotice_banks _ _

/-- A track that is not DISARMED, or that a bank may arm, goes to another state. -/
theorem Bound.trackTo (h : Bound out s) (k : Track) (new : TrackState)
    (hk : s.tracks[k].state = .disarmed → new = .disarmed ∨ ∃ b : BankNo, s.banks.slots[b].state = .active) :
    Bound out (s.trackTo k new) := by
  refine h.tracked (trackTo_banks s k new) (State.trackTo_table s k new) (fun j hj => ?_)
  rw [trackTo_state]
  split
  · next hjk => exact hk (hjk ▸ hj)
  · exact .inl hj

/-! ## A passage leaves APPROACHING and TAIL (R39, R172) -/

theorem openCount_ne_zero (s : State) (b : BankNo) :
    s.openCount b ≠ 0 ↔ ∃ p ∈ s.table.passages, p.isOpen = true ∧ p.bank = b := by
  unfold State.openCount
  rw [← Nat.pos_iff_ne_zero, List.countP_pos_iff]
  simp only [Bool.and_eq_true, decide_eq_true_eq, Passage.isOpen]
  exact ⟨fun ⟨p, hp, hb, ho⟩ => ⟨p, hp, ho, hb⟩, fun ⟨p, hp, ho, hb⟩ => ⟨p, hp, hb, ho⟩⟩

theorem setBankState_state (s : State) (b : BankNo) (st : BankState) (j : BankNo) :
    (s.setBankState b st).banks.slots[j].state = if j = b then st else s.banks.slots[j].state := by
  unfold State.setBankState
  dsimp only
  rw [getElem_setAt]
  split <;> rfl

theorem setBankState_contents (s : State) (b : BankNo) (st : BankState) (j : BankNo) :
    (s.setBankState b st).bank j = s.bank j := by
  unfold State.setBankState State.bank
  dsimp only
  rw [getElem_setAt]
  split
  · next h => rw [h]
  · rfl

/-- The drain check of the one bank that has it to come (R172). -/
theorem Bound.drainCheck {b : BankNo} (h : Bound (· = b) s) : Bound noBank (s.drainCheck b) := by
  unfold State.drainCheck
  split
  · next hdrain =>
    obtain ⟨hst, hcount⟩ := hdrain
    have hno : ∀ p ∈ s.table.passages, p.isOpen = true → p.bank ≠ b := fun p hp ho hb =>
      (openCount_ne_zero s b).2 ⟨p, hp, ho, hb⟩ hcount
    have hne : ∀ j : BankNo, j ≠ b → (s.setBankState b .standby).banks.slots[j].state = s.banks.slots[j].state :=
      fun j hj => by rw [setBankState_state, if_neg hj]
    have hbound : ∀ j : BankNo, (s.setBankState b .standby).banks.slots[j].state = .active
        ∨ (s.setBankState b .standby).banks.slots[j].state = .draining → j ≠ b := fun j hj he => by
      rw [setBankState_state, if_pos he] at hj
      rcases hj with hj | hj <;> cases hj
    have hstands : Bound noBank (s.setBankState b .standby) := by
      refine ⟨fun p hp ho => ?_, fun j _ hj => ?_, fun hcold => h.cold (fun j hj => ?_), fun j hj => ?_⟩
      · rw [hne _ (hno p hp ho)]
        exact h.opens p hp ho
      · have hjb := hbound j (.inr hj)
        rw [hne _ hjb] at hj
        exact h.drains j hjb hj
      · by_cases hjb : j = b
        · subst hjb
          rw [hst] at hj
          cases hj
        · exact hcold j (by rw [hne j hjb]; exact hj)
      · have hjb := hbound j hj
        rw [setBankState_contents]
        rw [hne _ hjb] at hj
        exact h.fits j hj
    exact hstands.keeps (Keeps.queueNotice _ _)
  · next hdrain =>
    refine ⟨h.opens, fun j _ hj => ?_, h.cold, h.fits⟩
    by_cases hjb : j = b
    · subst hjb
      exact (openCount_ne_zero s j).1 (fun hcount => hdrain ⟨hj, hcount⟩)
    · exact h.drains j hjb hj

theorem mem_changePassage {l : List Passage} {n : Nat} {f : Passage → Passage} {p : Passage}
    (hp : p ∈ changePassage n f l) : p ∈ l ∨ ∃ q ∈ l, f q = p := by
  induction l with
  | nil => exact .inl hp
  | cons a l ih =>
    unfold changePassage at hp
    split at hp
    · rcases List.mem_cons.1 hp with rfl | hp
      · exact .inr ⟨a, List.mem_cons_self, rfl⟩
      · exact .inl (List.mem_cons_of_mem _ hp)
    · rcases List.mem_cons.1 hp with rfl | hp
      · exact .inl List.mem_cons_self
      · exact (ih hp).imp (List.mem_cons_of_mem _) (fun ⟨q, hq, he⟩ => ⟨q, List.mem_cons_of_mem _ hq, he⟩)

/-- A record takes a state that is not APPROACHING or TAIL: its bank is to be checked. -/
theorem Bound.closes (h : Bound noBank s) {n : Nat} {b : BankNo} {f : Passage → Passage}
    (hb : ∀ q ∈ s.table.passages, q.number = n → q.bank = b) (hf : ∀ q, (f q).isOpen = false) :
    Bound (· = b) (s.modifyPassage n f) := by
  refine ⟨fun p hp ho => ?_, fun j hj hst => ?_, h.cold, h.fits⟩
  · rcases mem_changePassage hp with hp | ⟨q, -, rfl⟩
    · exact h.opens p hp ho
    · rw [hf q] at ho
      cases ho
  · obtain ⟨q, hq, hqo, rfl⟩ := h.drains j id hst
    exact ⟨q, mem_changePassage_ne hq (fun hn => hj (hb q hq hn)), hqo, rfl⟩

theorem Bound.leaveOpen (h : Bound noBank s) {p : Passage}
    (hb : ∀ q ∈ s.table.passages, q.number = p.number → q.bank = p.bank) {st : PassageState}
    (hst : st ≠ .approaching ∧ st ≠ .tail) (track : TrackState)
    (hk : s.tracks[p.track].state = .disarmed → track = .disarmed) : Bound noBank (s.leaveOpen p st track) := by
  have hleft : Bound (· = p.bank) (s.modifyPassage p.number (·.left st (s.clearOf p st))) :=
    h.closes hb (fun q => q.left_isOpen _ hst)
  rw [State.leaveOpen_eq]
  exact (hleft.trackTo p.track track (fun hd => .inl (hk hd))).drainCheck

/-! ## Table banks (R156, R157, R159 to R170) -/

/-- Operations that leave the banks which passages may be bound to as they are. -/
theorem Bound.ofBanks (h : Bound noBank s) {b : Banks}
    (hkept : ∀ j : BankNo, s.banks.slots[j].state = .active ∨ s.banks.slots[j].state = .draining → b.slots[j] = s.banks.slots[j])
    (hnew : ∀ j : BankNo, b.slots[j].state = .active ∨ b.slots[j].state = .draining →
      s.banks.slots[j].state = .active ∨ s.banks.slots[j].state = .draining) :
    Bound noBank { s with banks := b } := by
  refine ⟨fun p hp ho => ?_, fun j _ hj => ?_, fun hcold => h.cold (fun j hj => ?_), fun j hj => ?_⟩
  · have hbank := h.opens p hp ho
    change b.slots[p.bank].state = _ ∨ b.slots[p.bank].state = _
    rw [hkept _ hbank]
    exact hbank
  · have hj' := hnew j (.inr hj)
    refine h.drains j id ?_
    rw [← hkept j hj']
    exact hj
  · refine hcold j ?_
    change b.slots[j].state = _
    rw [hkept j (.inl hj)]
    exact hj
  · have hj' := hnew j hj
    change BankFits b.slots[j].contents
    rw [hkept j hj']
    exact h.fits j hj'

theorem Bound.atDepth (h : Bound noBank s) (depth : Nat) :
    Bound noBank { s with banks := { s.banks with depth := depth } } :=
  h.ofBanks (b := { s.banks with depth := depth }) (fun _ _ => rfl) (fun _ hj => hj)

theorem setSlot_slot (b : Banks) (k : BankNo) (st : BankState) (contents : Bank) (j : BankNo) :
    (b.setSlot k st contents).slots[j] = if j = k then ⟨st, contents⟩ else b.slots[j] := by
  unfold Banks.setSlot
  dsimp only
  rw [getElem_setAt]

/-- A bank that no passage may be bound to is set to such a state. -/
theorem Bound.setIdleSlot (h : Bound noBank s) {k : BankNo} {st : BankState} {contents : Bank} {b : Banks}
    (hk : s.banks.slots[k].state ≠ .active ∧ s.banks.slots[k].state ≠ .draining)
    (hst : st ≠ .active ∧ st ≠ .draining) (hb : b.slots = (s.banks.setSlot k st contents).slots) :
    Bound noBank { s with banks := b } := by
  have hslot : ∀ j : BankNo, b.slots[j] = if j = k then ⟨st, contents⟩ else s.banks.slots[j] := fun j => by
    rw [← setSlot_slot]
    simp only [hb]
  refine h.ofBanks (fun j hj => ?_) (fun j hj => ?_)
  · rw [hslot, if_neg]
    rintro rfl
    exact hj.elim hk.1 hk.2
  · rw [hslot] at hj
    split at hj
    · exact absurd hj (not_or.2 hst)
    · exact hj

theorem Bound.abort (h : Bound noBank s) : Bound noBank s.abortTransaction := by
  unfold State.abortTransaction
  split
  · exact h
  · unfold Banks.abort
    split
    · next k hk =>
      have hst := Banks.staging?_some hk
      have hidle : s.banks.slots[k].state ≠ .active ∧ s.banks.slots[k].state ≠ .draining := by
        rw [hst]; exact ⟨(nomatch ·), (nomatch ·)⟩
      split
      · exact h.setIdleSlot (st := .standby) hidle ⟨(nomatch ·), (nomatch ·)⟩ rfl
      · exact h.setIdleSlot (st := .empty) hidle ⟨(nomatch ·), (nomatch ·)⟩ rfl
    · exact h.ofBanks (fun _ _ => rfl) (fun _ hj => hj)

theorem toStage_not_active {b : Banks} (hs : b.sound) {k : BankNo} (hk : b.toStage = k) : b.slots[k].state ≠ .active := by
  rw [Banks.sound_iff] at hs
  unfold Banks.toStage at hk
  split at hk
  · next a ha =>
    have hst := Banks.active?_some ha
    subst hk
    match a, hst with
    | 0, hst => exact fun he => by simp_all [otherBank]
    | 1, hst => exact fun he => by simp_all [otherBank]
  · next hnone => exact Banks.active?_none hnone k

theorem Bound.tableBegin (h : Bound noBank s) (hs : s.banks.sound) : Bound noBank s.tableBegin.1 := by
  unfold State.tableBegin
  split
  · dsimp only
    split
    · exact h
    · next hbusy =>
      have hactive := toStage_not_active hs rfl
      have hidle := And.intro hactive (fun hd => hbusy (.inl hd))
      unfold Banks.stage
      split
      · exact h.setIdleSlot (st := .staging) hidle ⟨(nomatch ·), (nomatch ·)⟩ rfl
      · exact h.setIdleSlot (st := .staging) hidle ⟨(nomatch ·), (nomatch ·)⟩ rfl
  · split
    · exact h
    · exact h.atDepth _

theorem Bound.tablePut (h : Bound noBank s) (kind index : Byte) (contents : List Byte) :
    Bound noBank (s.tablePut kind index contents).1 := by
  unfold State.tablePut
  split
  · exact h
  · exact h
  · next k a hk _ =>
    obtain ⟨-, hst⟩ := Banks.open?_some hk
    exact h.setIdleSlot (st := .staging) (by rw [hst]; exact ⟨(nomatch ·), (nomatch ·)⟩) ⟨(nomatch ·), (nomatch ·)⟩ rfl

/-! ## A commit (R166, R169) -/

theorem FirstFailure.passes {l : List (Prop × Failure)} (h : FirstFailure l none) : ∀ x ∈ l, x.1 := by
  generalize ho : (none : Option Failure) = o at h
  induction h with
  | nil => exact fun x hx => nomatch hx
  | holds hc _ ih =>
    intro x hx
    rcases List.mem_cons.1 hx with rfl | hx
    · exact hc
    · exact ih ho x hx
  | fails => cases ho

/-- A bank that passes the checks of a commit has 1 to 64 segments for every fitted camera (R109, R166). -/
theorem bankFits_of_validate {b : Bank} (h : s.validate b = none) : BankFits b := by
  intro c hc
  have hall := (h ▸ validate_firstFailure s b).passes
  have hmem : ((1 ≤ (b.cameras[c]).segments.toNat ∧ (b.cameras[c]).segments.toNat ≤ 64 : Prop),
      (⟨2, c.val, 6, 0, none⟩ : Failure)) ∈ (b.cameras[c]).conditions c.val := by
    unfold CameraEntry.conditions conditionsOf
    rw [if_pos hc]
    simp
  have hin : ((1 ≤ (b.cameras[c]).segments.toNat ∧ (b.cameras[c]).segments.toNat ≤ 64 : Prop),
      (⟨2, c.val, 6, 0, none⟩ : Failure)) ∈ s.commitConditions b := by
    unfold State.commitConditions
    simp only [List.mem_append]
    exact .inl (.inl (.inl (.inl (.inl (.inl (.inl (.inr (List.mem_flatMap.2 ⟨c, List.mem_finRange c, hmem⟩))))))))
  exact hall _ hin

theorem standAside_active (s : State) (a : BankNo) : s.standAside a ≠ .active := by
  unfold State.standAside
  split <;> exact (nomatch ·)

theorem switchBanks_slot (s : State) (k j : BankNo) :
    (s.switchBanks k).banks.slots[j].contents = s.banks.slots[j].contents
      ∧ (s.switchBanks k).banks.slots[j].state
        = if j = k then .active else if s.banks.active? = some j then s.standAside j else s.banks.slots[j].state := by
  unfold State.switchBanks
  cases ha : s.banks.active? with
  | none =>
    refine ⟨setBankState_contents s k .active j, (setBankState_state s k .active j).trans ?_⟩
    simp
  | some a =>
    refine ⟨(setBankState_contents _ k .active j).trans (setBankState_contents s a _ j),
      (setBankState_state _ k .active j).trans ?_⟩
    rw [setBankState_state]
    by_cases hj : j = k
    · rw [if_pos hj, if_pos hj]
    · by_cases hja : j = a
      · subst hja
        simp [hj]
      · have : a ≠ j := fun he => hja he.symm
        simp [hj, hja, this]

theorem Bound.switchBanks (h : Bound noBank s) (hs : s.banks.sound) {k : BankNo}
    (hfits : BankFits (s.bank k)) : Bound noBank (s.switchBanks k) := by
  have htable : (s.switchBanks k).table = s.table := by
    unfold State.switchBanks
    cases s.banks.active? <;> rfl
  have hactive : ∀ j : BankNo, s.banks.slots[j].state = .active → s.banks.active? = some j := fun j hj => by
    cases ha : s.banks.active? with
    | none => exact absurd hj (Banks.active?_none ha j)
    | some a =>
      have hst := Banks.active?_some ha
      rw [Banks.sound_iff] at hs
      match a, j, hst, hj with
      | 0, 0, _, _ => rfl
      | 0, 1, hst, hj => simp_all
      | 1, 0, hst, hj => simp_all
      | 1, 1, _, _ => rfl
  have hslot := switchBanks_slot s k
  refine ⟨fun p hp ho => ?_, fun j _ hj => ?_, fun hcold => ?_, fun j hj => ?_⟩
  · rw [htable] at hp
    have hbank := h.opens p hp ho
    rw [(hslot p.bank).2]
    split
    · exact .inl rfl
    split
    · unfold State.standAside
      rw [if_neg ((openCount_ne_zero s p.bank).2 ⟨p, hp, ho, rfl⟩)]
      exact .inr rfl
    · exact hbank
  · rw [(hslot j).2] at hj
    rw [htable]
    split at hj
    · cases hj
    split at hj
    · refine (openCount_ne_zero s j).1 (fun hcount => ?_)
      unfold State.standAside at hj
      rw [if_pos hcount] at hj
      cases hj
    · exact h.drains j id hj
  · exact absurd ((hslot k).2.trans (if_pos rfl)) (hcold k)
  · rw [(hslot j).2] at hj
    unfold State.bank
    rw [(hslot j).1]
    split at hj
    · next hjk => exact hjk ▸ hfits
    split at hj
    · next hja => exact h.fits j (.inl (Banks.active?_some hja))
    · exact h.fits j hj

end Banks

end Sys2Proof.Proofs

/-! PROOFS. Agreement and bindings under crossings, heads, timers, clearance and abandon (chapters 1 and 2). -/

namespace Sys2Proof.Proofs

open Sys2Proof.Machine

/-- What every command keeps: tracks and passages, banks and bindings, and the agreement of shots, slots and pages. -/
structure Firm (s : State) : Prop where
  tracks : s.tracksInv
  banks : s.banks.sound
  bound : Bound noBank s
  accords : Accords s

/-- An operation that keeps all of it. -/
def Firms (s t : State) : Prop := Firm s → Firm t

section Tracks

variable {s t u : State} {n : Nat} {p : Passage}

theorem Firms.refl (s : State) : Firms s s := id

theorem Firms.trans (h : Firms s t) (k : Firms t u) : Firms s u := k ∘ h

theorem Firms.of (hp : Preserves s t) (hb : Firm s → Bound noBank t) (ha : Firm s → Accords t) : Firms s t := fun h =>
  ⟨hp.tracks h.tracks, hp.banks h.banks, hb h, ha h⟩

theorem Firms.keeps (hk : Keeps s t) (ha : Firm s → Accords t) : Firms s t :=
  .of hk.preserves (fun h => h.bound.keeps hk) ha

theorem Firms.endEvent (s : State) : Firms s s.endEvent := .keeps (Keeps.endEvent s) (fun h => h.accords.endEvent)

theorem Firms.event (h : Firms s t) : Firms s t.endEvent := h.trans (.endEvent t)

theorem Firm.passage? (h : Firm s) (hp : p ∈ s.table.passages) : s.passage? p.number = some p :=
  passage?_of_mem h.tracks.2.1 hp

theorem Firm.sameBank (h : Firm s) (hp : p ∈ s.table.passages) :
    ∀ q ∈ s.table.passages, q.number = p.number → q.bank = p.bank := fun q hq hn => by
  rw [passage_eq_of_number h.tracks.2.1 hp hq hn]

/-- The track of an open passage is OCCUPIED. -/
theorem Firm.occupied (h : Firm s) (hp : p ∈ s.table.passages) (ho : p.isOpen = true) :
    s.tracks[p.track].state = .occupied := by
  obtain ⟨-, -, htracks, -⟩ := h.tracks
  exact htracks p hp ho

/-! ## Tracks -/

theorem Accords.trackTo (h : Accords s) (k : Track) (new : TrackState) : Accords (s.trackTo k new) := by
  obtain ⟨htable, hlines, hreadout, hmemory⟩ := trackTo_blocks s k new
  exact h.blocks htable hlines hreadout hmemory

theorem Firms.trackTo (s : State) (k : Track) (new : TrackState) (h1 : s.tracks[k].state ≠ .occupied)
    (h2 : new ≠ .occupied)
    (hk : s.tracks[k].state = .disarmed → new = .disarmed ∨ ∃ b : BankNo, s.banks.slots[b].state = .active) :
    Firms s (s.trackTo k new) :=
  .of (Preserves.trackTo s k new h1 h2) (fun h => h.bound.trackTo k new hk) (fun h => h.accords.trackTo k new)

/-- A track that is neither DISARMED nor OCCUPIED. -/
theorem Firms.trackTo_armed (s : State) (k : Track) (new : TrackState) (h1 : s.tracks[k].state ≠ .occupied)
    (h0 : s.tracks[k].state ≠ .disarmed) (h2 : new ≠ .occupied) : Firms s (s.trackTo k new) :=
  .trackTo s k new h1 h2 (fun h => absurd h h0)

theorem Bound.setTrack {out : BankNo → Prop} (h : Bound out s) (k : Track) {m : TrackMonitor}
    (hm : m.state = s.tracks[k].state) : Bound out (s.setTrack k m) := by
  refine h.tracked rfl rfl (fun j hj => .inl ?_)
  rw [show (s.setTrack k m).tracks[j] = if j = k then m else s.tracks[j] from getElem_setAt _ _ _ _]
  split
  · next hjk => rw [hm, ← hjk]; exact hj
  · exact hj

theorem Firms.setTrack (s : State) (k : Track) (m : TrackMonitor) (hst : m.state = s.tracks[k].state)
    (hs : s.tracks[k].sound → m.sound) : Firms s (s.setTrack k m) :=
  .of (Preserves.setTrack s k m hst hs) (fun h => h.bound.setTrack k hst) (fun h => h.accords.blocks)

theorem Firms.setHealth (s : State) (k : Track) (h : Head) (v : Health) : Firms s (s.setHealth k h v) :=
  .setTrack s k _ rfl id

theorem Firms.queueNotice (s : State) (x : Notice) : Firms s (s.queueNotice x) :=
  .keeps (Keeps.queueNotice s x) (fun h => Agrees.queueNotice h.accords x)

theorem Firms.recordFault (s : State) (n : Nat) (c : FaultCode) (a k : Option Nat) :
    Firms s (s.recordFault n c a k) :=
  .keeps (Keeps.recordFault s n c a k) (fun h => Agrees.recordFault h.accords n c a k)

theorem Firms.checkSettled (s : State) (n : Nat) : Firms s (s.checkSettled n) :=
  .keeps (Keeps.checkSettled s n) (fun h => Agrees.checkSettled h.accords n)

/-! ## Pair FIFOs (R15 to R17) -/

theorem Firms.pushCrossing (s : State) (k : Track) (p : Passage) (side : Side)
    (ho : s.tracks[k].state = .occupied) : Firms s (s.pushCrossing k p side) := by
  have hset : ∀ f, Accords s → Accords (s.setTrack k (s.tracks[k].setFifo side f)) := fun f h => h.blocks
  refine .of (Preserves.pushCrossing s k p side ho) (fun h => ?_) (fun h => ?_)
  · unfold State.pushCrossing
    dsimp only
    split
    · exact h.bound.setTrack k (TrackMonitor.setFifo_state _ _ _)
    · exact (h.bound.setTrack k (TrackMonitor.setFifo_state _ _ _)).keeps (Keeps.recordFault _ _ _ _ _)
  · unfold State.pushCrossing
    dsimp only
    split
    · exact hset _ h.accords
    · exact Agrees.recordFault (hset _ h.accords) _ _ _ _

theorem Firms.popFifo (s : State) (k : Track) (side : Side) {entry : PairEntry} {rest : List PairEntry}
    (hf : s.tracks[k].fifo side = entry :: rest) : Firms s (s.setTrack k (s.tracks[k].setFifo side rest)) :=
  .of (Preserves.popFifo s k side hf) (fun h => h.bound.setTrack k (TrackMonitor.setFifo_state _ _ _))
    (fun h => h.accords.blocks)

theorem Firms.expirePair (s : State) (k : Track) (side : Side) : Firms s (s.expirePair k side) := by
  unfold State.expirePair
  dsimp only
  split
  · exact .refl s
  · next entry rest hf =>
    split
    · split
      · exact (Firms.popFifo s k side hf).trans (.recordFault _ _ _ _ _)
      · exact .popFifo s k side hf
    · exact .refl s

/-! ## A record takes another state -/

theorem stopping_restate {f : Passage → Passage} (hn : ∀ p, (f p).number = p.number)
    (hs : ∀ p, s.passage? n = some p → ((f p).state = .stopping ↔ p.state = .stopping)) :
    stopping (s.modifyPassage n f) = stopping s := by
  funext r
  refine propext ?_
  rw [stopping_iff, stopping_iff, passage?_modify s n r.passage f hn]
  cases hp : s.passage? r.passage with
  | none => simp
  | some p =>
    simp only [Option.map_some, Option.some.injEq, exists_eq_left']
    split
    · next hr => exact hs p (hr ▸ hp)
    · rfl

/-- A passage that is not in STOPPING takes a state that is none of STOPPING, FILED and ABANDONED. -/
theorem Accords.restate (h : Accords s) {f : Passage → Passage} (hn : ∀ p, (f p).number = p.number)
    (hk : ∀ p, (f p).shots = p.shots) (hgoes : ∀ p, s.passage? n = some p → p.state ≠ .stopping)
    (hst : ∀ p, s.passage? n = some p → (f p).state ≠ .stopping ∧ ¬ isOver (f p)) : Accords (s.modifyPassage n f) := by
  have hsame := Agrees.restate h (n := n) hn hk (fun p hp => (hst p hp).2)
  rw [← stopping_restate (s := s) (n := n) hn (fun p hp => iff_of_false (hst p hp).1 (hgoes p hp))] at hsame
  exact hsame

theorem not_stopping_of_isOpen (h : p.isOpen = true) : p.state ≠ .stopping := fun hs => by
  unfold Passage.isOpen at h
  rw [hs] at h
  cases h

/-! ## Clearance (R37 to R40) -/

theorem Accords.clears (h : Accords s) {q : Passage} (hp : s.passage? p.number = some q) (ho : q.isOpen = true)
    (track : TrackState) : Accords (s.clearPassage p track) := by
  have hleft : Accords (s.modifyPassage p.number (·.left .clear (s.clearOf p .clear))) :=
    h.restate (fun _ => rfl) (fun _ => rfl) (fun x hx => by
      obtain rfl := Option.some.inj (hp.symm.trans hx)
      exact not_stopping_of_isOpen ho) (fun _ _ => ⟨(nomatch ·), fun hover => by rcases hover with hover | hover <;> cases hover⟩)
  have hdrained : Accords (s.leaveOpen p .clear track) := by
    rw [State.leaveOpen_eq]
    obtain ⟨htable, hlines, hreadout, hmemory⟩ :=
      drainCheck_blocks ((s.modifyPassage p.number (·.left .clear (s.clearOf p .clear))).trackTo p.track track) p.bank
    exact (hleft.trackTo p.track track).blocks htable hlines hreadout hmemory
  exact Agrees.checkSettled hdrained _

theorem Bound.clears (h : Bound noBank s) (hb : ∀ q ∈ s.table.passages, q.number = p.number → q.bank = p.bank)
    (track : TrackState) (hk : s.tracks[p.track].state = .occupied) : Bound noBank (s.clearPassage p track) := by
  have hleft : Bound noBank (s.leaveOpen p .clear track) :=
    h.leaveOpen hb (st := .clear) ⟨(nomatch ·), (nomatch ·)⟩ track (fun hd => by rw [hk] at hd; cases hd)
  exact hleft.keeps (Keeps.checkSettled _ _)

theorem Firms.clearPassage (hp : s.passage? p.number = some p) (ho : p.isOpen = true) (track : TrackState)
    (ht : track ≠ .occupied) : Firms s (s.clearPassage p track) := by
  have hmem := passage?_mem hp
  exact .of (Preserves.clearPassage s hmem ho track ht)
    (fun h => h.bound.clears (h.sameBank hmem) track (h.occupied hmem ho)) (fun h => h.accords.clears hp ho track)

theorem Firms.checkCleared (s : State) (n : Nat) : Firms s (s.checkCleared n) := by
  unfold State.checkCleared
  split
  · exact .refl s
  · next p hp =>
    split
    · next hst =>
      obtain rfl := passage?_number hp
      exact .clearPassage hp (by simp [Passage.isOpen, hst.1]) _ (by decide)
    · exact .refl s

theorem Firms.exitCrossing (s : State) (n : Nat) : Firms s (s.exitCrossing n) := by
  have hcount : ∀ p : Passage, p.countExit.number = p.number ∧ p.countExit.state = p.state ∧ p.countExit.shots = p.shots :=
    fun p => by
      unfold Passage.countExit
      dsimp only
      split <;> exact ⟨rfl, rfl, rfl⟩
  refine Firms.trans (t := s.modifyPassage n (·.countExit))
    (.keeps (Keeps.modifyPassage s _ _ (fun p _ => p.countExit_keeps)) (fun h => ?_)) (.checkCleared _ n)
  exact Agrees.edit h.accords n (fun p => (hcount p).1) (fun p => (hcount p).2.1) (fun p => (hcount p).2.2)

/-- The exit timeout in TAIL (R38). -/
theorem Firms.clearShort (hp : s.passage? p.number = some p) (ho : p.isOpen = true) : Firms s (s.clearShort p) := by
  have hmem := passage?_mem hp
  refine .of (Preserves.clearShort s hmem ho) (fun h => ?_) (fun h => ?_)
  · have hrecorded := (Firms.recordFault s p.number .exitShort none none) h
    refine hrecorded.bound.clears (fun q hq hn => ?_) .ignoring (h.occupied hmem ho)
    obtain ⟨x, hx, hk⟩ := forall₂_mem_right (Keeps.recordFault s p.number .exitShort none none).passages hq
    rw [hk.bank, h.sameBank hmem x hx (hk.number.symm.trans hn)]
  · exact Accords.clears (q := p.recordFault .exitShort none none) (Agrees.recordFault h.accords _ _ _ _)
      (passage?_modifyPassage (f := (·.recordFault .exitShort none none)) (fun _ => rfl) hp) ho .ignoring

end Tracks

end Sys2Proof.Proofs

/-! PROOFS. Agreement and bindings under abandon, head faults, openings and axles (R9, R10, R27, R31 to R36, R42 to R44). -/

namespace Sys2Proof.Proofs

open Sys2Proof.Machine

section Passages

variable {s t u : State} {n : Nat} {p : Passage}

/-! ## Abandon (R42 to R44) -/

/-- The record of a passage that is not open takes another state that is not open. -/
theorem Bound.staysClosed (h : Bound noBank s) {f : Passage → Passage}
    (hclosed : ∀ q ∈ s.table.passages, q.number = n → q.isOpen = false) (hf : ∀ q, (f q).isOpen = false) :
    Bound noBank (s.modifyPassage n f) := by
  refine h.frame rfl (fun x hx ho => ?_) (fun q hq ho => ?_) (fun _ hd => hd)
  · rcases mem_changePassage hx with hx | ⟨q, -, rfl⟩
    · exact ⟨x, hx, ho, rfl⟩
    · rw [hf] at ho
      cases ho
  · refine ⟨q, mem_changePassage_ne hq (fun hn => ?_), ho, rfl⟩
    rw [hclosed q hq hn] at ho
    cases ho

theorem Bound.stopPassage (h : Bound noBank s)
    (hp : ∀ q ∈ s.table.passages, q.number = p.number → q.bank = p.bank ∧ q.isOpen = p.isOpen) (reason : AbandonReason)
    (track : TrackState) (hk : p.isOpen = true → s.tracks[p.track].state = .disarmed → track = .disarmed) :
    Bound noBank (s.stopPassage p reason track) := by
  have hkeeps := Keeps.giveReason s p.number reason
  have hgiven := h.keeps hkeeps
  have hp' : ∀ q ∈ (s.modifyPassage p.number (·.giveReason reason)).table.passages, q.number = p.number →
      q.bank = p.bank ∧ q.isOpen = p.isOpen := fun q hq hn => by
    obtain ⟨x, hx, hxq⟩ := forall₂_mem_right hkeeps.passages hq
    obtain ⟨hbank, hopen⟩ := hp x hx (hxq.number.symm.trans hn)
    exact ⟨hxq.bank.trans hbank, hxq.isOpen.trans hopen⟩
  unfold State.stopPassage
  dsimp only
  split
  · next ho =>
    exact hgiven.leaveOpen (fun q hq hn => (hp' q hq hn).1) (st := .stopping) ⟨(nomatch ·), (nomatch ·)⟩ track (hk ho)
  · next ho =>
    refine hgiven.staysClosed (fun q hq hn => ?_) (fun q => rfl)
    rw [(hp' q hq hn).2]
    exact Bool.eq_false_iff.2 ho

theorem Bound.abandon (h : Bound noBank s)
    (hp : ∀ q ∈ s.table.passages, q.number = p.number → q.bank = p.bank ∧ q.isOpen = p.isOpen) (reason : AbandonReason)
    (track : TrackState) (hk : p.isOpen = true → s.tracks[p.track].state = .disarmed → track = .disarmed) :
    Bound noBank (s.abandon p reason track) := by
  rw [State.abandon_eq]
  exact (h.stopPassage hp reason track hk).keeps ((Keeps.windDown _ p).trans (Keeps.checkSettled _ _))

theorem Firms.abandon (hp : s.passage? p.number = some p) (hover : ¬ isOver p) (reason : AbandonReason)
    (track : TrackState) (ht : track ≠ .occupied) : Firms s (s.abandon p reason track) := by
  have hmem := passage?_mem hp
  refine .of (Preserves.abandon s hp reason track ht) (fun h => ?_) (fun h => h.accords.abandon hp rfl hover reason track)
  refine h.bound.abandon (fun q hq hn => ?_) reason track (fun ho hd => ?_)
  · rw [passage_eq_of_number h.tracks.2.1 hmem hq hn]
    exact ⟨rfl, rfl⟩
  · rw [h.occupied hmem ho] at hd
    cases hd

/-! ## Heads (R9, R10) -/

theorem Firms.occupiedFault (k : Track) (hk : s.tracks[k].state = .occupied) :
    Firms s ((s.trackTo k .headFault).abandonByFault k) := by
  intro h
  obtain ⟨hpart, htracks⟩ := Preserves.occupiedFault s k
  have htracked : Bound noBank (s.trackTo k .headFault) :=
    h.bound.trackTo k .headFault (fun hd => by rw [hk] at hd; cases hd)
  have haccords := h.accords.trackTo k .headFault
  have htable := State.trackTo_table s k .headFault
  have hstate := trackTo_state s k .headFault k
  refine ⟨htracks hk h.tracks, hpart.banks h.banks, ?_, ?_⟩
  all_goals
    unfold State.abandonByFault
    set v := s.trackTo k .headFault
    split
    swap
  · exact htracked
  · next p hp =>
    obtain ⟨hmem, hpt, ho⟩ := openPassageOn_spec hp
    subst hpt
    have hkeeps := Keeps.recordFault v p.number .headFault none none
    refine (htracked.keeps hkeeps).abandon (fun q hq hn => ?_) _ _ (fun _ hd => ?_)
    · obtain ⟨x, hx, hxq⟩ := forall₂_mem_right hkeeps.passages hq
      rw [htable] at hx hmem
      rw [hxq.bank, hxq.isOpen, passage_eq_of_number h.tracks.2.1 hmem hx (hxq.number.symm.trans hn)]
      exact ⟨rfl, rfl⟩
    · rw [show (v.recordFault p.number .headFault none none).tracks[p.track] = v.tracks[p.track] from rfl, hstate,
        if_pos rfl] at hd
      cases hd
  · exact haccords
  · next p hp =>
    obtain ⟨hmem, -, ho⟩ := openPassageOn_spec hp
    have hfound : v.passage? p.number = some p := by
      rw [passage?_of_table htable]
      exact h.passage? (htable ▸ hmem)
    have hrecorded : (v.recordFault p.number .headFault none none).passage? p.number
        = some (p.recordFault .headFault none none) :=
      passage?_modifyPassage (f := (·.recordFault .headFault none none)) (fun _ => rfl) hfound
    exact Accords.abandon (Agrees.recordFault haccords _ _ _ _) (x := p.recordFault .headFault none none) hrecorded rfl
      (not_over_of_isOpen (p := p) ho) _ _

theorem Firms.actOnFault (s : State) (k : Track) : Firms s (s.actOnFault k) := by
  unfold State.actOnFault
  split
  · exact .refl s
  · exact .refl s
  · next hk => exact .trackTo_armed s k _ (by rw [hk]; decide) (by rw [hk]; decide) (by decide)
  · next hk => exact .trackTo_armed s k _ (by rw [hk]; decide) (by rw [hk]; decide) (by decide)
  · next hk => exact .occupiedFault k hk

theorem Firms.actOnRecovery (s : State) (k : Track) : Firms s (s.actOnRecovery k) := by
  unfold State.actOnRecovery
  split
  · next hk => exact .trackTo_armed s k _ (by rw [hk.1]; decide) (by rw [hk.1]; decide) (by decide)
  · exact .refl s

/-! ## Openings (R13, R27) -/

/-- A new passage in the table, without shots. -/
theorem Accords.withPassage (h : Accords s) (hnew : s.passage? p.number = none) (hshots : p.shots = [])
    (hst : p.state ≠ .stopping) (next : Nat) : Accords (s.withPassage p next) := by
  have hpassage : ∀ m, (s.withPassage p next).passage? m
      = if m = p.number then some p else s.passage? m := fun m => by
    unfold State.passage? State.withPassage
    dsimp only
    rw [List.find?_append]
    by_cases hm : m = p.number
    · subst hm
      rw [show s.table.passages.find? (fun q => q.number == p.number) = none from hnew]
      simp
    · have : (p.number == m) = false := by simpa using fun he => hm he.symm
      simp [this, hm]
  have hshot : ∀ r, (s.withPassage p next).shot? r = s.shot? r := fun r => by
    unfold State.shot?
    rw [hpassage]
    by_cases hr : r.passage = p.number
    · rw [if_pos hr, hr, hnew]
      simp [hshots]
    · rw [if_neg hr]
  have hstop : stopping (s.withPassage p next) = stopping s := by
    funext r
    refine propext ?_
    rw [stopping_iff, stopping_iff, hpassage]
    by_cases hr : r.passage = p.number
    · rw [if_pos hr, hr, hnew]
      simp [hst]
    · rw [if_neg hr]
  unfold Accords
  rw [hstop]
  refine Agrees.table h rfl rfl rfl (fun r _ => by rw [hshot]; exact rel_same _) (fun r k _ hk _ hu q hq => hu q ?_)
    (fun _ _ hout _ => hout.elim) (fun _ _ _ hout => hout.elim)
  rw [hpassage] at hq
  split at hq
  · next hr =>
    have := live_of_shot hk
    rw [hr, hnew] at this
    cases this
  · exact hq

theorem Bound.withPassage (h : Bound noBank s) (hb : s.banks.slots[p.bank].state = .active) (next : Nat) :
    Bound noBank (s.withPassage p next) := by
  refine ⟨fun q hq ho => ?_, fun b _ hst => ?_, h.cold, h.fits⟩
  · rcases List.mem_append.1 hq with hq | hq
    · exact h.opens q hq ho
    · obtain rfl := List.mem_singleton.1 hq
      exact .inl hb
  · obtain ⟨q, hq, ho, hqb⟩ := h.drains b id hst
    exact ⟨q, List.mem_append.2 (.inl hq), ho, hqb⟩

end Passages

end Sys2Proof.Proofs

/-! PROOFS. Agreement and bindings under openings, axles and tails (R13, R27, R31 to R36), and under the commands of the
tracks, timers and the fire unit. -/

namespace Sys2Proof.Proofs

open Sys2Proof.Machine

section Crossings

variable {s t u : State} {n : Nat} {p : Passage}

theorem Firm.active_of_armed (h : Firm s) {k : Track} (hk : s.tracks[k].state ≠ .disarmed) {b : BankNo}
    (hb : s.banks.active?.getD 0 = b) : s.banks.slots[b].state = .active := by
  cases ha : s.banks.active? with
  | none => exact absurd (h.bound.cold (Banks.active?_none ha) k) hk
  | some a =>
    rw [ha] at hb
    exact Banks.active?_some (ha.trans (congrArg some hb))

theorem openPassage_parts (s : State) (k : Track) (side : Side) (b : BankNo) : ∃ (p : Passage) (x : Notice),
    p.number = s.newNumber ∧ p.bank = b ∧ p.shots = [] ∧ p.state = .approaching
    ∧ s.openPassage k side b
      = (((s.withPassage p (numberAfter s.newNumber)).queueNotice x).trackTo k .occupied).pushCrossing k p side :=
  ⟨_, _, rfl, rfl, rfl, rfl, rfl⟩

theorem Accords.pushCrossing (h : Accords s) (k : Track) (p : Passage) (side : Side) :
    Accords (s.pushCrossing k p side) := by
  have hset : ∀ f, Accords (s.setTrack k (s.tracks[k].setFifo side f)) := fun f => h.blocks
  unfold State.pushCrossing
  dsimp only
  split
  · exact hset _
  · exact Agrees.recordFault (hset _) _ _ _ _

theorem Bound.pushCrossing (h : Bound noBank s) (k : Track) (p : Passage) (side : Side) :
    Bound noBank (s.pushCrossing k p side) := by
  unfold State.pushCrossing
  dsimp only
  split
  · exact h.setTrack k (TrackMonitor.setFifo_state _ _ _)
  · exact (h.setTrack k (TrackMonitor.setFifo_state _ _ _)).keeps (Keeps.recordFault _ _ _ _ _)

theorem Firms.askOpening (s : State) (k : Track) (side : Side) (hv : s.tracks[k].state = .vacant) :
    Firms s (s.askOpening k side) := by
  have hne : s.tracks[k].state ≠ .occupied := by rw [hv]; decide
  refine .of (Preserves.askOpening s k side hne) (fun h => ?_) (fun h => ?_)
  all_goals
    have hactive : ∀ {b : BankNo}, b = s.banks.active?.getD 0 → s.banks.slots[b].state = .active := fun hb =>
      h.active_of_armed (k := k) (by rw [hv]; decide) hb.symm
    unfold State.askOpening
    split
  · obtain ⟨p, x, -, hbank, -, -, heq⟩ := openPassage_parts s k side (s.banks.active?.getD 0)
    rw [heq]
    exact (((h.bound.withPassage (hactive hbank) _).keeps (Keeps.queueNotice _ x)).trackTo k .occupied
      (fun hd => by
        rw [State.queueNotice_tracks] at hd
        rw [show (s.withPassage p (numberAfter s.newNumber)).tracks[k] = s.tracks[k] from rfl, hv] at hd
        cases hd)).pushCrossing k p side
  · exact (h.bound.keeps (Keeps.queueNotice s _)).trackTo k .ignoring (fun hd => by
      rw [State.queueNotice_tracks, hv] at hd
      cases hd)
  · next hroom =>
    obtain ⟨p, x, hnumber, -, hshots, hst, heq⟩ := openPassage_parts s k side (s.banks.active?.getD 0)
    obtain ⟨-, hfresh⟩ := s.newNumber_fresh h.tracks.2.1 hroom
    have hnew : s.passage? p.number = none := by
      cases hp : s.passage? p.number with
      | none => rfl
      | some q => exact absurd (passage?_number hp) (hnumber ▸ hfresh q (passage?_mem hp))
    rw [heq]
    refine Accords.pushCrossing (Accords.trackTo (Agrees.queueNotice (h.accords.withPassage hnew hshots ?_ _) x) k _) k p side
    rw [hst]
    exact (nomatch ·)
  · exact Accords.trackTo (Agrees.queueNotice h.accords _) k _

/-! ## Axles (R31 to R35) -/

/-- An open passage, after operations that leave everything in agreement, may have its shots planned. -/
theorem Firm.planned (h : Firm s) (hp : s.passage? n = some p) (ho : p.isOpen = true) (hk : Keeps s t)
    (ht : Accords t) : Planned n t :=
  Plans.of_keeps hk (fun _ => ht)
    ⟨h.accords, p, hp, ho, h.bound.fits p.bank (h.bound.opens p (passage?_mem hp) ho)⟩

theorem Accords.startTailWindow (h : Accords s) (n : Nat) : Accords (s.startTailWindow n) := by
  unfold State.startTailWindow
  split
  · exact h
  · exact Agrees.edit h n (fun _ => rfl) (fun _ => rfl) (fun _ => rfl)

theorem receiveAxle_goes (p : Passage) (a : Axle) (ho : p.isOpen = true) :
    (p.receiveAxle a).state ≠ .stopping ∧ ¬ isOver (p.receiveAxle a) := by
  obtain ⟨-, -, hopen, -⟩ := receiveAxle_same p a
  exact ⟨not_stopping_of_isOpen (hopen ho), not_over_of_isOpen (hopen ho)⟩

theorem Firms.handAxle (hp : s.passage? p.number = some p) (ho : p.isOpen = true) (a : Axle) :
    Firms s (s.handAxle p a) := by
  refine .keeps (Keeps.handAxle s p a) (fun h => ?_)
  have hreceived : Accords (s.modifyPassage p.number (·.receiveAxle a)) :=
    h.accords.restate (fun q => (receiveAxle_same q a).1) (fun q => (receiveAxle_same q a).2.1)
      (fun q hq => by
        obtain rfl := Option.some.inj (hp.symm.trans hq)
        exact not_stopping_of_isOpen ho)
      (fun q hq => by
        obtain rfl := Option.some.inj (hp.symm.trans hq)
        exact receiveAxle_goes p a ho)
  have hstarted := hreceived.startTailWindow p.number
  unfold State.handAxle
  dsimp only
  split
  · have hkeeps : Keeps s ((s.modifyPassage p.number (·.receiveAxle a)).startTailWindow p.number) :=
      (Keeps.modifyPassage s _ _ (fun q _ => q.receiveAxle_keeps a)).trans (Keeps.startTailWindow _ _)
    exact (((Plans.matchPassage p.number _).trans (.retimeAll _ _)) (h.planned hp ho hkeeps hstarted)).accords
  · exact hstarted

theorem Firms.pairCrossing (k : Track) (side : Side) (hp : s.passage? p.number = some p) (ho : p.isOpen = true) :
    Firms s (s.pairCrossing k p side) := by
  unfold State.pairCrossing
  dsimp only
  split
  · exact .recordFault _ _ _ _ _
  · next entry rest hf => exact (Firms.popFifo s k side hf).trans (.handAxle (s := s.setTrack k _) hp ho _)

/-- The tail declaration (R34). -/
theorem Firms.declareTail (hp : s.passage? p.number = some p) (ha : p.state = .approaching) :
    Firms s (s.declareTail p) := by
  have ho : p.isOpen = true := by simp [Passage.isOpen, ha]
  unfold State.declareTail
  dsimp only
  set f : Passage → Passage := (·.enterTail s.now (s.after (s.trackEntry p).exitTimeout.toNat))
  have hentered : Keeps s (s.modifyPassage p.number f) := Keeps.modifyPassage s _ _ (fun q hq => by
    obtain rfl : p = q := Option.some.inj (hp.symm.trans hq)
    exact Passage.enterTail_keeps ho _ _)
  refine Firms.trans (.keeps (hentered.trans (Keeps.matchTail _ _)) (fun h => ?_)) (.checkCleared _ _)
  refine (Plans.matchTail p.number _ (h.planned hp ho hentered ?_)).accords
  refine h.accords.restate (fun _ => rfl) (fun _ => rfl) (fun q hq => ?_) (fun _ _ => ⟨(nomatch ·), ?_⟩)
  · obtain rfl := Option.some.inj (hp.symm.trans hq)
    exact not_stopping_of_isOpen ho
  · rintro (hover | hover) <;> cases hover

/-! ## Crossings (R8, R11 to R14) -/

theorem Firms.crossing (s : State) (k : Track) (head : Head) : Firms s (s.crossing k head) := by
  intro h
  refine (?_ : Firms s (s.crossing k head)) h
  unfold State.crossing
  split
  · exact .refl s
  · exact .refl s
  · next hk => exact .trackTo_armed s k _ (by rw [hk]; decide) (by rw [hk]; decide) (by decide)
  · next hk =>
    split
    · exact .askOpening s k _ hk
    · exact .queueNotice s _
  · next hk =>
    split
    · next p hp =>
      obtain ⟨hmem, -, ho⟩ := openPassageOn_spec hp
      have hfound := h.passage? hmem
      unfold State.routeCrossing
      split
      · split
        · exact .pushCrossing s k p _ hk
        · exact .pairCrossing k _ hfound ho
      · split
        · exact .exitCrossing s _
        · exact .refl s
    · exact .refl s

end Crossings

end Sys2Proof.Proofs

/-! PROOFS. What every step keeps, under the requests of the gantry link (chapter 9) but RESTART. -/

namespace Sys2Proof.Proofs

open Sys2Proof.Machine

section Requests

variable {s t u : State} {n : Nat} {p : Passage}

/-- An operation over the link alone. -/
theorem Firms.ofLink (s : State) (l : Link) : Firms s { s with link := l } := fun h =>
  ⟨h.tracks, h.banks, h.bound.tracked rfl rfl (fun _ hk => .inl hk), h.accords.blocks⟩

/-! ## Answers (R184) -/

theorem Firms.placeAnswer (s : State) (tag : Byte) (code : BitVec 16) (a : Answer) :
    Firms s (s.placeAnswer tag code a) := .ofLink s _

/-- What carrying out a request does before its answer is placed. -/
theorem Firms.reply {x : State × Answer} (h : Firms s x.1) (tag : Byte) (code : BitVec 16) :
    Firms s (State.reply x tag code) := h.trans (.placeAnswer x.1 tag code x.2)

/-! ## Clock and tracks (R4, R21 to R24) -/

theorem Firms.timeSet (s : State) (x : BitVec 64) : Firms s (s.timeSet x).1 := by
  unfold State.timeSet
  split
  · exact .refl s
  · split
    · exact .refl s
    · exact fun h => ⟨h.tracks, h.banks, h.bound.tracked rfl rfl (fun _ hk => .inl hk), h.accords.blocks⟩

theorem Firms.trackArm (s : State) (x : Byte) : Firms s (s.trackArm x).1 := by
  unfold State.trackArm
  split
  · exact .refl s
  · exact .refl s
  · next k b _ hb =>
    split
    · exact .refl s
    · split
      · exact .refl s
      · next hk =>
        have hdisarmed := not_not.1 hk
        have hactive : ∃ b : BankNo, s.banks.slots[b].state = .active := by
          unfold State.activeContents at hb
          split at hb
          · next a ha => exact ⟨a, Banks.active?_some ha⟩
          · cases hb
        refine .trackTo s _ _ (by rw [hdisarmed]; decide) ?_ (fun _ => .inr hactive)
        split <;> decide

theorem Firms.trackDisarm (s : State) (x : Byte) : Firms s (s.trackDisarm x).1 := by
  unfold State.trackDisarm
  split
  · exact .refl s
  · split
    · exact .refl s
    · exact .refl s
    all_goals
      next hk => exact .trackTo s _ _ (by rw [hk]; decide) (by decide) (fun _ => .inl rfl)

/-! ## Passages (R46 to R48) -/

theorem Firms.abandonPassage (s : State) (n : BitVec 16) : Firms s (s.abandonPassage n).1 := by
  unfold State.abandonPassage
  split
  · exact .refl s
  · next p hp =>
    have hfound := namedPassage_ok hp
    obtain hn := passage?_number hfound
    have hfound' : s.passage? p.number = some p := by rw [hn]; exact hfound
    have hgoes : (p.state = .approaching ∨ p.state = .tail ∨ p.state = .clear) →
        Firms s (s.abandon p .ordered .ignoring) := fun hst =>
      .abandon hfound' (fun hover => by
        rcases hst with hst | hst | hst <;> rcases hover with hover | hover <;> rw [hst] at hover <;> cases hover)
        _ _ (by decide)
    split
    · next hst => exact hgoes (.inl hst)
    · next hst => exact hgoes (.inr (.inl hst))
    · next hst => exact hgoes (.inr (.inr hst))
    all_goals exact .refl s

/-! ## Camera lines and frame memory -/

theorem Keeps.cameraService (s : State) (l o : Byte) : Keeps s (s.cameraService l o).1 := by
  unfold State.cameraService
  split
  · exact Keeps.refl s
  · split
    · exact Keeps.serviceOff s _
    · split
      · exact Keeps.refl s
      · split
        · exact Keeps.serviceOn s _
        · exact Keeps.refl s
    · exact Keeps.refl s

theorem Keeps.pageRetire (s : State) (page spare : BitVec 16) : Keeps s (s.pageRetire page spare).1 := by
  unfold State.pageRetire
  dsimp only
  split
  · exact Keeps.refl s
  · exact (Keeps.setMemory s (fun h => FrameMemory.pageRetire_wf h _ _)).trans (Keeps.queueNotices _ _)

theorem Keeps.pageRestore (s : State) (page : BitVec 16) : Keeps s (s.pageRestore page).1 := by
  unfold State.pageRestore
  dsimp only
  split
  · exact Keeps.refl s
  · split
    · exact Keeps.refl s
    · exact Keeps.setMemory s (fun h => FrameMemory.setPage_wf h _ _)

end Requests

end Sys2Proof.Proofs

/-! PROOFS. RELEASE PASSAGE (R46, R139, R143): the passage leaves the table, and its pages are freed. -/

namespace Sys2Proof.Proofs

open Sys2Proof.Machine

section Release

variable {s t u : State} {stop out : ShotRef → Prop} {n : Nat} {p : Passage} {r : ShotRef}

/-! ## Shots that leave with their passage -/

/-- An operation is done with shots that the readout does not know of. -/
theorem Agrees.putAllAside (h : Agrees out stop s) (hr : ∀ r, out r → Role s stop r)
    (hs : ∀ r, out r → ∀ (c : Camera) (x : SlotNo), s.lines[c].slots[x] ≠ some r) : Agrees nothing stop s where
  roles r _ := by
    by_cases ho : out r
    · exact hr r ho
    · exact h.roles r ho
  records := h.records
  lines c := (h.lines c).mono_slots
    (fun _ x r hx hread => .inr (hread.resolve_left (fun ho => hs r ho c x hx)))
    (fun x r hx hdone => .inr (hdone.resolve_left (fun ho => hs r ho c x hx)))
  alone := h.alone
  once := h.once
  memory := h.memory

/-- The readout does not know of the shots of a passage that is FILED or ABANDONED. -/
theorem Accords.loose_of_over (h : Accords s) (hp : s.passage? r.passage = some p) (hover : isOver p) : Loose s r := by
  cases h.roles r id with
  | absent _ loose => exact loose
  | pending _ _ _ _ _ unsettled _ => exact absurd hover (unsettled p hp)
  | held _ _ holding => exact absurd hover (holding.unsettled p hp)
  | reading _ _ _ _ reading => exact absurd hover (reading.unsettled p hp)
  | ended _ _ _ loose => exact loose

theorem shot?_removePassage (s : State) (n : Nat) (r : ShotRef) :
    (s.removePassage n).shot? r = if r.passage = n then none else s.shot? r := by
  unfold State.shot?
  rw [passage?_removePassage]
  by_cases hr : r.passage = n
  · rw [if_pos hr, if_pos hr]
  · rw [if_neg hr, if_neg hr]

theorem Accords.removePassage (h : Accords s) (hp : s.passage? n = some p) (hover : isOver p) :
    Accords (s.removePassage n) := by
  have hloose : ∀ r : ShotRef, r.passage = n → Loose s r := fun r hr => h.loose_of_over (hr ▸ hp) hover
  have htaken : Agrees (fun r : ShotRef => r.passage = n) (stopping s) (s.removePassage n) := by
    refine (h.takeUp (out' := fun r : ShotRef => r.passage = n) (fun _ hn => hn.elim)).table rfl rfl rfl
      (fun r hr => ?_) (fun r k hr _ _ hu q hq => hu q ?_) (fun r k hr hk => ?_)
      (fun ch w hw ho => absurd rfl ((hloose _ ho).channels ch w hw))
    · rw [shot?_removePassage, if_neg hr]; exact rel_same _
    · rw [passage?_removePassage, if_neg hr] at hq; exact hq
    · rw [shot?_removePassage, if_pos hr] at hk; cases hk
  have hput : Agrees nothing (stopping s) (s.removePassage n) :=
    htaken.putAllAside (fun r hr => .absent (by rw [shot?_removePassage, if_pos hr]) (hloose r hr).of_blocks)
      (fun r hr => (hloose r hr).slots)
  refine hput.restop (fun r k _ hk _ => ?_)
  rw [stopping_iff, stopping_iff, passage?_removePassage]
  rw [shot?_removePassage] at hk
  split at hk
  · cases hk
  · next hr => rw [if_neg hr]

/-! ## Pages freed -/

theorem Accords.freePage (h : Accords s) {k i : Nat} (hheld : (s.memory.page k).condition = .held ⟨r, i⟩)
    (hgone : s.shot? r = none) : Accords (s.freePage k) := by
  have hfreed := (h.atWork r).freePage (pg := k) ⟨i, hheld, fun k hk => by rw [hgone] at hk; cases hk⟩
  have hloose : Loose (s.setMemory (s.memory.free k).1) r := by
    cases h.roles r id with
    | absent _ loose =>
      exact ⟨loose.slots, loose.queue, loose.channels, (free_remainder h.memory.wf k r).trans loose.reserved⟩
    | pending _ found => rw [hgone] at found; cases found
    | held _ found => rw [hgone] at found; cases found
    | reading _ _ _ found => rw [hgone] at found; cases found
    | ended _ found => rw [hgone] at found; cases found
  exact Agrees.queueNotices (s.memory.free k).2 (s := s.setMemory (s.memory.free k).1)
    (hfreed.putAside (.absent hgone hloose) hloose.slots)

theorem freePages_memory (l : List Nat) : ∀ s : State,
    (s.freePages l).memory = l.foldl (fun m k => (m.free k).1) s.memory := by
  induction l with
  | nil => exact fun _ => rfl
  | cons k l ih =>
    intro s
    obtain ⟨-, -, -, hmemory⟩ := queueNotices_facts (s.memory.free k).2 (s.setMemory (s.memory.free k).1)
    exact (ih (s.freePage k)).trans (congrArg (l.foldl (fun m k => (m.free k).1)) hmemory)

theorem Accords.freePages (l : List Nat) : ∀ {s : State}, Accords s → l.Nodup →
    (∀ k ∈ l, ∃ r i, (s.memory.page k).condition = .held ⟨r, i⟩ ∧ s.shot? r = none) → Accords (s.freePages l) := by
  induction l with
  | nil => exact fun h _ _ => h
  | cons k l ih =>
    intro s h hnodup hl
    obtain ⟨hk, hrest⟩ := List.nodup_cons.1 hnodup
    obtain ⟨r, i, hheld, hgone⟩ := hl k List.mem_cons_self
    have htable := freePages_table [k] s
    have hmemory := freePages_memory [k] s
    refine ih (h.freePage hheld hgone) hrest (fun j hj => ?_)
    obtain ⟨q, m, hq, hqgone⟩ := hl j (List.mem_cons_of_mem _ hj)
    have hjk : j ≠ k := fun he => hk (by rw [← he]; exact hj)
    refine ⟨q, m, ?_, ?_⟩
    · rw [show (s.freePage k).memory = (s.memory.free k).1 from hmemory, free_page_ne h.memory.wf hjk]
      exact hq
    · rw [shot?_of_table (u := s.freePage k) htable]
      exact hqgone

/-! ## The request -/

theorem Accords.stored_held (h : Accords s) (hp : s.passage? n = some p) {a : Nat} {k : Shot} (hk : p.shots[a]? = some k)
    {i pg : Nat} (hpg : k.pages[i]? = some pg) : (s.memory.page pg).condition = .held ⟨⟨n, a⟩, i⟩ :=
  (h.records ⟨n, a⟩ k ((shot?_of_passage? hp a).trans hk)).2.2 i pg hpg

/-- No page holds two segments (R121). -/
theorem Accords.allPages_nodup (h : Accords s) (hp : s.passage? n = some p) : p.allPages.Nodup := by
  have hheld := fun {a k i pg} => h.stored_held hp (a := a) (k := k) (i := i) (pg := pg)
  unfold Passage.allPages
  refine List.nodup_flatMap.2 ⟨fun k hk => ?_, ?_⟩
  · obtain ⟨a, ha⟩ := List.getElem?_of_mem hk
    refine List.pairwise_iff_getElem.2 (fun i j hi hj hij he => ?_)
    have h1 := hheld ha (List.getElem?_eq_getElem hi)
    have h2 := hheld ha (List.getElem?_eq_getElem hj)
    rw [he, h2] at h1
    cases h1
    omega
  · refine List.pairwise_iff_getElem.2 (fun a b ha hb hab pg hpa hpb => ?_)
    obtain ⟨i, hi⟩ := List.getElem?_of_mem hpa
    obtain ⟨j, hj⟩ := List.getElem?_of_mem hpb
    have h1 := hheld (List.getElem?_eq_getElem ha) hi
    have h2 := hheld (List.getElem?_eq_getElem hb) hj
    rw [h2] at h1
    cases h1
    omega

theorem Accords.release (h : Accords s) (hp : s.passage? n = some p) (hover : isOver p) :
    Accords ((s.freePages p.allPages).removePassage n) := by
  have hremoved := h.removePassage hp hover
  obtain ⟨⟨-, hlines, -⟩, hreadout⟩ := freePages_facts p.allPages s
  obtain ⟨⟨-, hlines', -⟩, hreadout'⟩ := freePages_facts p.allPages (s.removePassage n)
  have hfreed : Accords ((s.removePassage n).freePages p.allPages) := by
    refine hremoved.freePages p.allPages (h.allPages_nodup hp) (fun pg hpg => ?_)
    obtain ⟨k, hk, hpk⟩ := List.mem_flatMap.1 hpg
    obtain ⟨a, ha⟩ := List.getElem?_of_mem hk
    obtain ⟨i, hi⟩ := List.getElem?_of_mem hpk
    exact ⟨⟨n, a⟩, i, h.stored_held hp ha hi, by rw [shot?_removePassage, if_pos rfl]⟩
  refine hfreed.blocks ?_ (hlines.trans hlines'.symm) (hreadout.trans hreadout'.symm)
    ((freePages_memory _ s).trans (freePages_memory _ (s.removePassage n)).symm)
  rw [freePages_table]
  unfold State.removePassage
  rw [freePages_table]

theorem Firms.releasePassage (s : State) (n : BitVec 16) : Firms s (s.releasePassage n).1 := by
  have hpreserves := (Serves.releasePassage s n).1
  revert hpreserves
  unfold State.releasePassage
  split
  · exact fun _ => .refl s
  · next p hp =>
    split
    · next hover =>
      have hfound := namedPassage_ok hp
      obtain hn := passage?_number hfound
      refine fun hpreserves => .of hpreserves (fun h => ?_) (fun h => ?_)
      · have hkeeps := Keeps.freePages s p.allPages
        have hnotOpen : ∀ q ∈ (s.freePages p.allPages).table.passages, q.number = p.number → q.isOpen = false := by
          rw [freePages_table]
          intro q hq hqn
          rw [passage_eq_of_number h.tracks.2.1 (passage?_mem hfound) hq hqn]
          unfold Passage.isOpen
          rcases hover with ho | ho <;> rw [ho] <;> rfl
        refine (h.bound.keeps hkeeps).frame rfl (fun q hq ho => ?_) (fun q hq ho => ?_) (fun _ hd => hd)
        · exact ⟨q, (List.mem_filter.1 hq).1, ho, rfl⟩
        · refine ⟨q, List.mem_filter.2 ⟨hq, ?_⟩, ho, rfl⟩
          refine bne_iff_ne.2 (fun hqn => ?_)
          rw [hnotOpen q hq hqn] at ho
          cases ho
      · rw [hn]
        exact h.accords.release hfound hover
    · exact fun _ => .refl s

end Release

end Sys2Proof.Proofs

/-! PROOFS. Agreement and bindings under a restart and at power-up (R25, R133, R152, R175, R190, R199). -/

namespace Sys2Proof.Proofs

open Sys2Proof.Machine

section Restart

variable {s t u : State} {l : CameraLine} {reads : ReadOrder → ShotRef → Prop} {done : ShotRef → Prop}

/-! ## Camera lines (R133) -/

/-- A line after a RESTART whose linking sequence waits for the line to become free. -/
def restartWaiting (l : CameraLine) : CameraLine :=
  { l.restart with state := .linking, accumulated := 0, linking := some (.waiting true) }

theorem restart_outstanding (l : CameraLine) :
    l.restart.outstanding = none ∨ ∃ o e, l.restart.outstanding = some ⟨o, e, true⟩ := by
  unfold CameraLine.restart
  cases l.outstanding with
  | none => exact .inl rfl
  | some o => exact .inr ⟨o.order, o.ends, rfl⟩

theorem restart_slots (l : CameraLine) (slot : SlotNo) : l.restart.slots[slot] = none := by
  unfold CameraLine.restart
  simp

theorem restartWaiting_fits (l : CameraLine) : LineFits reads done (restartWaiting l) := by
  have hbare : LineFits reads done { restartWaiting l with state := .unlinked, linking := none } :=
    .bare rfl (restart_outstanding l) rfl (nomatch ·)
  refine ⟨hbare.read, hbare.readOnce, hbare.discardOnce, hbare.occupied, fun slot hw hs => ?_,
    ⟨fun _ => rfl, fun _ => rfl⟩, fun _ slot => restart_slots l slot⟩
  rcases hbare.free slot hw hs with he | ⟨_, _, _, he, -⟩ <;> cases he

theorem restartedLine_fits (h : l.linking.isSome = true ↔ l.state = .linking) (elapsed : Nat) :
    LineFits reads done (restartedLine elapsed l) := by
  unfold restartedLine
  split
  · next hst =>
    refine .bare rfl (restart_outstanding l) ?_ (by
      rw [show l.restart.state = l.state from rfl, hst]
      exact (nomatch ·))
    change l.linking = none
    cases hl : l.linking with
    | none => rfl
    | some x =>
      rw [h.1 (by rw [hl]; rfl)] at hst
      cases hst
  · refine LineFits.issue ?_ elapsed
    have hwaiting := restartWaiting_fits (reads := reads) (done := done) l
    unfold CameraLine.enterLinking
    split
    · exact hwaiting
    · have hstarts := hwaiting.startLinking (byRestart := true) rfl
      unfold CameraLine.startLinking at hstarts ⊢
      rw [if_pos rfl, pend_withLinking] at hstarts ⊢
      exact hstarts

theorem restartedLine_slots (l : CameraLine) (elapsed : Nat) (slot : SlotNo) :
    (restartedLine elapsed l).slots[slot] = none := by
  unfold restartedLine
  split
  · exact restart_slots l slot
  · simp only [(issue_state_slots _ _).2, enterLinking_slots]
    exact restart_slots l slot

/-! ## Frame memory (R152) -/

theorem MemorySound.free_fold (l : List Nat) : ∀ {m : FrameMemory}, MemorySound m → l.Nodup →
    (∀ k ∈ l, ∃ o, (m.page k).condition = .held o) → MemorySound (l.foldl (fun m k => (m.free k).1) m) := by
  induction l with
  | nil => exact fun h _ _ => h
  | cons k l ih =>
    intro m h hnodup hl
    obtain ⟨hk, hrest⟩ := List.nodup_cons.1 hnodup
    obtain ⟨o, ho⟩ := hl k List.mem_cons_self
    refine ih (h.free (by rw [ho]; exact (nomatch ·)) (h.number ho)) hrest (fun j hj => ?_)
    rw [free_page_ne h.wf (fun he => hk (by rw [← he]; exact hj))]
    exact hl j (List.mem_cons_of_mem _ hj)

theorem MemorySound.restart {m : FrameMemory} (h : MemorySound m) (low : Bool) :
    MemorySound { m.restart with low := low } := by
  have hnodup : m.heldPages.Nodup := (heldPages_rising h.wf).imp (fun hlt => Nat.ne_of_lt hlt)
  have hfreed := h.free_fold m.heldPages hnodup (fun k hk => (mem_heldPages h.wf k).1 hk)
  exact ⟨hfreed.wf, hfreed.numbers, List.nodup_nil, fun e he => (nomatch he), Nat.zero_le _⟩

/-! ## A state without passages -/

/-- Where no shot is known and the readout is at rest, everything agrees. -/
theorem Accords.of_empty (ht : s.table.passages = []) (hr : s.readout = ⟨[], Vector.replicate 4 none⟩)
    (hs : ∀ (c : Camera) (slot : SlotNo), s.lines[c].slots[slot] = none) (hv : s.memory.reservations = [])
    (hl : ∀ (c : Camera), LineFits (fun o r => nothing r ∨ readsFor s o r)
      (fun r => nothing r ∨ storesNoMore s (stopping s) r) s.lines[c]) (hm : MemorySound s.memory) : Accords s := by
  have hgone : ∀ r, s.shot? r = none := fun r => by
    unfold State.shot? State.passage?
    rw [ht]
    rfl
  have hidle : ∀ ch : ChannelNo, s.readout.channels[ch] = none := fun ch => by
    simp only [hr]
    simp
  have hloose : ∀ r, Loose s r := fun r => by
    refine ⟨fun c slot hx => ?_, ?_, fun ch w hw => ?_, ?_⟩
    · rw [hs] at hx; cases hx
    · rw [hr]; exact (nomatch ·)
    · rw [hidle] at hw; cases hw
    · unfold FrameMemory.remainder
      rw [hv]
      rfl
  refine ⟨fun r _ => .absent (hgone r) (hloose r), fun r k hk => ?_, hl, fun i j v w hv _ _ => ?_, ?_, hm⟩
  · rw [hgone] at hk; cases hk
  · rw [hidle] at hv; cases hv
  · rw [hr]; exact List.nodup_nil

/-! ## RESTART taken (R25, R133, R152, R175, R190) -/

theorem Accords.restartBlocks (h : Accords s) : Accords s.restartBlocks := by
  obtain ⟨low, heq, -⟩ := restartBlocks_eq s
  have hline : ∀ c : Camera, s.restartBlocks.lines[c] = restartedLine s.clock.elapsed s.lines[c] := fun c => by
    simp only [heq]
    exact getElem_foldl_finRange (fun _ l => restartedLine s.clock.elapsed l) _ c
  refine .of_empty (by rw [heq]) (by rw [heq]) (fun c slot => ?_) (by rw [heq]; rfl) (fun c => ?_)
    (by rw [heq]; exact h.memory.restart low)
  · rw [hline]
    exact restartedLine_slots _ _ slot
  · rw [hline]
    exact restartedLine_fits (h.lines c).linking _

theorem Bound.restartBlocks (h : Firm s) : Bound noBank s.restartBlocks := by
  obtain ⟨low, heq, -⟩ := restartBlocks_eq s
  obtain ⟨htracks, hpassages⟩ := restartBlocks_tracks s
  have hslot := (restartedBanks_facts h.banks).2.2
  have hactive := restartedBanks_active h.banks
  have hstate : ∀ b : BankNo, s.restartBlocks.banks.slots[b] = (restartedBanks s.banks).slots[b] := fun b => by
    simp only [heq]
  have hdraining : ∀ b : BankNo, (restartedBanks s.banks).slots[b].state ≠ .draining := fun b hd => by
    obtain ⟨hkept, hdrain, hstaging⟩ := hslot b
    by_cases hs : s.banks.slots[b].state = .staging
    · cases hi : s.banks.restoreImage with
      | none => rw [(hstaging hs).2 hi] at hd; cases hd
      | some image => rw [(hstaging hs).1 image hi] at hd; cases hd
    · by_cases hdr : s.banks.slots[b].state = .draining
      · rw [hdrain hdr] at hd; cases hd
      · rw [hkept hs hdr] at hd; exact hdr hd
  refine ⟨fun p hp => ?_, fun b _ hd => ?_, fun hcold k => ?_, fun b hb => ?_⟩
  · rw [hpassages] at hp; cases hp
  · rw [hstate] at hd
    exact absurd hd (hdraining b)
  · have hdisarmed := h.bound.cold (fun b hb => hcold b (by rw [hstate]; exact (hactive b).1.2 hb)) k
    have htrack : s.restartBlocks.tracks[k] = restartedTrack (s.clock.elapsed + s.quietTime k) s.tracks[k] := by
      simp only [heq]
      exact getElem_foldl_finRange (fun t m => restartedTrack (s.clock.elapsed + s.quietTime t) m) _ k
    rw [htrack]
    unfold restartedTrack
    rw [if_pos hdisarmed]
    exact hdisarmed
  · rw [hstate] at hb
    have hwas := (hactive b).1.1 (hb.resolve_right (hdraining b))
    unfold State.bank
    rw [hstate, (hactive b).2 hwas]
    exact h.bound.fits b (.inl hwas)

theorem Firms.clearNotices (s : State) : Firms s s.clearNotices := .ofLink s _

theorem Firms.restartBlocks (s : State) : Firms s s.restartBlocks :=
  .of (Preserves.restartBlocks s) Bound.restartBlocks (fun h => h.accords.restartBlocks)

theorem Firms.refault (s : State) (k : Track) : Firms s (s.refault k) := by
  unfold State.refault
  split
  · next hk => exact .trackTo_armed s k _ (by rw [hk.1]; decide) (by rw [hk.1]; decide) (by decide)
  · exact .refl s

theorem Firms.foldl {α : Type} (f : State → α → State) (h : ∀ s a, Firms s (f s a)) (l : List α) :
    ∀ s : State, Firms s (l.foldl f s) := by
  induction l with
  | nil => exact .refl
  | cons a l ih => exact fun s => (h s a).trans (ih _)

theorem Firms.endRequest (s : State) : Firms s s.endRequest := .ofLink s _

theorem Firms.takeRestart (s : State) (b : Bool) : Firms s (s.takeRestart b) := by
  unfold State.takeRestart
  dsimp only
  refine Firms.trans ?_ (.endRequest _)
  refine Firms.trans ?_ (.foldl _ .refault _ _)
  refine Firms.trans ?_ (.queueNotice _ _)
  exact (Firms.clearNotices s).trans (.restartBlocks _)

/-! ## Power-up (R199) -/

theorem Firm.powerUp (levels : Vector HeadHealth 4) (pending : List Instr) : Firm (State.powerUp levels pending) := by
  obtain ⟨-, htracks, -, hbanks, -⟩ := State.powerUp_inv levels pending
  have hbank : ∀ b : BankNo, (State.powerUp levels pending).banks.slots[b].state = .empty := fun b => by
    match b with
    | 0 => rfl
    | 1 => rfl
  have hline : ∀ c : Camera, (State.powerUp levels pending).lines[c] = CameraLine.powerUp := fun c => by
    simp [State.powerUp]
  refine ⟨htracks, hbanks, ⟨fun p hp => (nomatch hp), fun b _ hd => ?_, fun _ k => ?_, fun b hb => ?_⟩, ?_⟩
  · rw [hbank] at hd; cases hd
  · match k with
    | 0 => rfl
    | 1 => rfl
    | 2 => rfl
    | 3 => rfl
  · rw [hbank] at hb
    rcases hb with hb | hb <;> cases hb
  · refine .of_empty rfl rfl (fun c slot => ?_) rfl (fun c => ?_)
      ⟨FrameMemory.powerUp_wf, fun e he => (nomatch he), List.nodup_nil, fun e he => (nomatch he), Nat.zero_le _⟩
    · rw [hline]
      simp [CameraLine.powerUp]
    · rw [hline]
      exact .bare rfl (.inl rfl) rfl (nomatch ·)

end Restart

end Sys2Proof.Proofs

/-! PROOFS. What every command keeps: requests taken, the gantry link, and all commands. -/

namespace Sys2Proof.Proofs

open Sys2Proof.Machine

section Commands

variable {s t u : State}

/-! ## Table banks (R159 to R170) -/

/-- An operation over the banks alone. -/
theorem Firms.ofBanks (hp : Preserves s t) (hb : Firm s → Bound noBank t) (ht : t.table = s.table := by rfl)
    (hl : t.lines = s.lines := by rfl) (hr : t.readout = s.readout := by rfl) (hm : t.memory = s.memory := by rfl) :
    Firms s t := .of hp hb (fun h => h.accords.blocks ht hl hr hm)

theorem Firms.tableBegin (s : State) : Firms s s.tableBegin.1 := by
  have hp := (Serves.tableBegin s).1
  have hb := fun h : Firm s => h.bound.tableBegin h.banks
  revert hp hb
  unfold State.tableBegin
  split
  · dsimp only
    split
    · exact fun _ _ => .refl s
    · exact fun hp hb => .ofBanks hp hb
  · split
    · exact fun _ _ => .refl s
    · exact fun hp hb => .ofBanks hp hb

theorem Firms.tablePut (s : State) (kind index : Byte) (contents : List Byte) :
    Firms s (s.tablePut kind index contents).1 := by
  have hp := (Serves.tablePut s kind index contents).1
  have hb := fun h : Firm s => h.bound.tablePut kind index contents
  revert hp hb
  unfold State.tablePut
  split
  · exact fun _ _ => .refl s
  · exact fun _ _ => .refl s
  · exact fun hp hb => .ofBanks hp hb

theorem Firms.abortTransaction (s : State) : Firms s s.abortTransaction := by
  have heq := abortTransaction_eq s
  exact .ofBanks (Preserves.abortTransaction s) (fun h => h.bound.abort) (by rw [heq]) (by rw [heq]) (by rw [heq])
    (by rw [heq])

theorem switchBanks_blocks (s : State) (k : BankNo) : (s.switchBanks k).table = s.table
    ∧ (s.switchBanks k).lines = s.lines ∧ (s.switchBanks k).readout = s.readout
    ∧ (s.switchBanks k).memory = s.memory := by
  unfold State.switchBanks
  cases s.banks.active? <;> exact ⟨rfl, rfl, rfl, rfl⟩

theorem Firms.commitLine (s : State) (c : Camera) : Firms s (s.commitLine c) := by
  refine .keeps (Keeps.commitLine s c) (fun h => ?_)
  unfold State.commitLine
  split
  · next hst => exact h.accords.beginLinking (by rw [hst.1]; exact (nomatch ·)) _
  · exact h.accords

theorem Firms.commit (s : State) {k : BankNo} (hk : s.banks.open? = some k) (hfits : BankFits (s.bank k)) :
    Firms s (s.commit k) := by
  obtain ⟨htable, hlines, hreadout, hmemory⟩ := switchBanks_blocks s k
  exact Firms.trans (.ofBanks (Preserves.switchBanks s hk).1 (fun h => h.bound.switchBanks h.banks hfits) htable hlines
    hreadout hmemory) (.foldl _ .commitLine _ _)

theorem Firms.atDepth (s : State) (depth : Nat) (hd : s.banks.sound → ({ s.banks with depth := depth } : Banks).sound) :
    Firms s { s with banks := { s.banks with depth := depth } } :=
  .ofBanks (Preserves.ofBanks s hd) (fun h => h.bound.atDepth depth)

theorem Firms.tableEnd (s : State) : Firms s s.tableEnd.1 := by
  unfold State.tableEnd
  split
  · exact .refl s
  · next k hk =>
    split
    · rename_i hdepth
      exact Firms.atDepth s (s.banks.depth - 1) (fun hb => Banks.shallower_sound hb hdepth)
    · unfold State.commitBank
      split
      · exact .abortTransaction s
      · next hvalid =>
        have hcommit := Firms.commit s hk (bankFits_of_validate hvalid)
        generalize s.commit k = v at hcommit ⊢
        exact hcommit

theorem Firms.tableAbort (s : State) : Firms s s.tableAbort.1 := by
  unfold State.tableAbort
  split
  · exact .refl s
  · exact .abortTransaction s

/-! ## Requests taken (R182, R183) -/

theorem Firms.takeCameraSense (s : State) (tag line : Byte) : Firms s (s.takeCameraSense tag line) := by
  unfold State.takeCameraSense
  split
  · exact .placeAnswer s _ _ _
  · next c _ =>
    exact (Firms.ofLink s _).trans (.keeps (Keeps.placeOrder _ _ _) (fun h => h.accords.placePlain c (.inr rfl)))

theorem Firms.takeFetch (s : State) (tag : Byte) (n : BitVec 16) (k f c : Byte) : Firms s (s.takeFetch tag n k f c) := by
  unfold State.takeFetch
  split
  · exact .placeAnswer s _ _ _
  · dsimp only
    split
    · exact .placeAnswer s _ _ _
    · exact (Firms.placeAnswer s _ _ _).trans (.ofLink _ _)

theorem Firms.carryOut (s : State) (tag : Byte) (r : Request) : Firms s (s.carryOut tag r) := by
  have look : ∀ a code, Firms s (State.reply (s, a) tag code) := fun a code => .placeAnswer s tag code a
  have serve : ∀ {x : State × Answer} {code : BitVec 16}, Firms s x.1 → Firms s (State.reply x tag code) :=
    fun h => .reply h tag _
  cases r with
  | timeSet t => exact serve (.timeSet s t)
  | timeGet => exact look _ _
  | trackArm t => exact serve (.trackArm s t)
  | trackDisarm t => exact serve (.trackDisarm s t)
  | trackStatus t => exact look _ _
  | listPassages => exact look _ _
  | readPassage p part start => exact look _ _
  | releasePassage p => exact serve (.releasePassage s p)
  | abandonPassage p => exact serve (.abandonPassage s p)
  | cameraService l on => exact serve (.keeps (Keeps.cameraService s l on) (fun h => h.accords.cameraService l on))
  | cameraSense l => exact .takeCameraSense s tag l
  | memoryStatus p => exact look _ _
  | pageRetire p sp => exact serve (.keeps (Keeps.pageRetire s p sp) (fun h => h.accords.pageRetire p sp))
  | pageRestore p => exact serve (.keeps (Keeps.pageRestore s p) (fun h => h.accords.pageRestore p))
  | tableBegin => exact serve (.tableBegin s)
  | tablePut kind index c => exact serve (.tablePut s kind index c)
  | tableGet b kind index => exact look _ _
  | tableEnd => exact serve (.tableEnd s)
  | tableAbort => exact serve (.tableAbort s)
  | bankStatus => exact look _ _
  | identify => exact look _ _
  | restart => exact (Firms.placeAnswer s tag 0x0902 (.done [])).trans (.ofLink _ _)
  | fetchImage p k f c => exact .takeFetch s tag p k f c

theorem Firms.takeRequest (s : State) : Firms s s.takeRequest := by
  unfold State.takeRequest
  split
  · next w rest _ _ =>
    split
    · exact .refl s
    · exact (Firms.ofLink s _).trans (.carryOut _ w.tag w.request)
  · exact .refl s

/-! ## The gantry link (R179 to R185, R196 to R198) -/

theorem Firms.refuseAtOnce (s : State) (tag : Byte) (code : BitVec 16) (d : Detail) :
    Firms s (s.refuseAtOnce tag code d) := by
  unfold State.refuseAtOnce
  split
  · exact .ofLink s _
  · exact .refl s

theorem Firms.enrol (s : State) (tag : Byte) (r : Request) : Firms s (s.enrol tag r) := by
  unfold State.enrol
  split
  · exact (Firms.ofLink s _).trans (.takeRequest (s.queueRequest tag r))
  · exact .refuseAtOnce s _ _ _

theorem Firms.arrive (s : State) (tag : Byte) (body : List Byte) : Firms s (s.arrive tag body) := by
  unfold State.arrive
  split
  · exact (Firms.enrol s tag _).event
  · exact (Firms.refuseAtOnce s tag _ _).event

theorem Firms.request (s : State) (tag : Byte) (r : Request) : Firms s (s.request tag r) := by
  unfold State.request
  split
  · split
    · exact (Firms.enrol s tag _).event
    · exact (Firms.refuseAtOnce s tag _ _).event
  · exact .refl s

theorem Firms.setReceived (s : State) (bytes : List Byte) : Firms s (s.setReceived bytes) :=
  .ofLink s _

theorem Firms.receive (bound : Nat) : ∀ (s : State) (bytes : List Byte), Firms s (State.receive bound s bytes) := by
  induction bound with
  | zero => exact fun s bytes => .setReceived s bytes
  | succ bound ih =>
    intro s bytes
    unfold State.receive
    split
    · exact .setReceived s _
    · exact ih s _
    · exact ((Firms.setReceived s []).trans (.arrive _ _ _)).trans (ih _ _)

theorem Firms.responseSent (s : State) : Firms s s.responseSent := by
  unfold State.responseSent
  split
  · exact .takeRestart s _
  · exact .ofLink s _
  · exact .refl s
  · exact .refl s

theorem Firms.finishSending (s : State) (x : Sending) : Firms s (s.finishSending x) := by
  unfold State.finishSending
  split
  · dsimp only
    split
    · split
      · exact .ofLink s _
      · exact (Firms.ofLink s _).trans (.responseSent _)
    · exact .ofLink s _
  · exact .ofLink s _
  · dsimp only
    split
    · exact (Firms.ofLink s _).trans (.endRequest _)
    · exact .ofLink s _

theorem Firms.frameSent (s : State) : Firms s s.frameSent := by
  unfold State.frameSent
  split
  · exact ((Firms.finishSending s _).trans (.takeRequest _)).event
  · exact .refl s

theorem Firms.loseLock (s : State) : Firms s s.loseLock := by
  unfold State.loseLock
  dsimp only
  have hdown := fun l : Link => (Firms.ofLink s l).trans (.abortTransaction _)
  split
  · exact (hdown _).trans (.takeRestart _ _)
  · exact hdown _

theorem Firms.gainLock (s : State) : Firms s s.gainLock :=
  (Firms.ofLink s _).trans (.queueNotice _ _)

theorem Firms.upsets (s : State) (bits : List Nat) : Firms s (s.setMemory (s.memory.upsets bits)) := by
  have heq := upsets_eq bits s.memory
  refine .of (Preserves.upsets s bits) (fun h => h.bound.tracked rfl rfl (fun _ hk => .inl hk)) (fun h => ?_)
  exact Agrees.samePages h.accords (FrameMemory.upsets_wf h.accords.memory.wf bits) (by rw [heq]) (by rw [heq])

end Commands

end Sys2Proof.Proofs

/-! PROOFS. Shots, slots, channels, orders, pages and reservations stay in agreement over every step. -/

namespace Sys2Proof.Proofs

open Sys2Proof.Machine

section Steps

variable {s t u v : State}

/-- A command in the form it takes when it reaches its effect or leaves the state alone. -/
theorem Firms.ite {c : Prop} [Decidable c] (h : c → Firms s t)
    (hv : (if c then (.next t : Host.Outcome State Fault Refusal) else .next s) = .next v) : Firms s v := by
  split at hv
  · cases hv; exact h (by assumption)
  · cases hv; exact .refl s

theorem Firms.unless {c : Prop} [Decidable c] (h : ¬ c → Firms s t)
    (hv : (if c then (.next s : Host.Outcome State Fault Refusal) else .next t) = .next v) : Firms s v := by
  split at hv
  · cases hv; exact .refl s
  · cases hv; exact h (by assumption)

theorem Firms.freeze {r : ShotRef} (hd : s.freezeDue r = true) :
    Firms s (s.modifyShot r (fun k => { k with state := .frozen })) := by
  obtain ⟨k, hk, hst⟩ := freezeDue_planned hd
  exact .keeps (Keeps.modifyShot s _ _) (fun h => h.accords.modifyPending hk (.inl hst) (f := fun k =>
    { k with state := .frozen }) rfl rfl rfl (.inl (.inr rfl)))

theorem Firms.shotDue {r : ShotRef} (hr : s.firstDue = some r) : Firms s (s.handOver r) := by
  refine .keeps (Keeps.handOver s _) (fun h => h.accords.handOver (fun k hk => .inr ?_))
  have hdue := List.find?_some hr
  unfold State.isDue at hdue
  rw [hk] at hdue
  simp only [Bool.and_eq_true, beq_iff_eq] at hdue
  exact hdue.1

theorem Firms.setFire (s : State) (c : Camera) (f : FireLine) : Firms s (s.setFire c f) :=
  .keeps (Keeps.setFire s c f) (fun h => h.accords.blocks)

theorem Firms.setStrobe (s : State) (b : StrobeNo) (k : StrobeBank) : Firms s (s.setStrobe b k) :=
  .keeps (Keeps.setStrobe s b k) (fun h => h.accords.blocks)

/-- The quiet timer ends only in IGNORING (R12). -/
theorem Firms.quietEnds {k : Track} (hq : s.ended s.tracks[k].quiet = true) : Firms s (s.trackTo k .vacant) := fun h => by
  have hrunning : s.tracks[k].quiet.isSome = true := by
    unfold State.ended at hq
    split at hq
    · next e he => rw [he]; rfl
    · cases hq
  obtain ⟨hquiet, -⟩ := h.tracks.1 k
  have hk := hquiet.1 hrunning
  exact Firms.trackTo_armed s k .vacant (by rw [hk]; decide) (by rw [hk]; decide) (by decide) h

/-! ## The answers and timeouts of camera orders (R113 to R116) -/

theorem Firms.endOrder {c : Camera} {out : Outstanding} {act : State → State} (hw : ∀ q, Works q (act q))
    (ha : Accords s → out.ignored = false → Accords (act (lineFreed s c))) :
    Firms s (s.endOrder c out act).endEvent :=
  (Firms.keeps (Keeps.endOrder s c out act hw) (fun h => h.accords.endOrder (ha h.accords))).event

theorem Firms.readComplete {o : OrderRef} {segment : List Byte} {check : BitVec 32} {outcome : ReadOutcome}
    {flags : FlagSet} (h : execReadComplete o segment check outcome flags s = .next t) : Firms s t := by
  unfold execReadComplete at h
  split at h
  · next slot seg release ends ignored ha =>
    cases h
    refine .endOrder (fun q => Works.readAnswered q o.camera _ _ _ _ _ _) (fun hs hi => ?_)
    obtain rfl : ignored = false := hi
    obtain ⟨ch, w, hserving, hends⟩ := hs.readEnds (outstanding_of_answered ha)
    exact (hs.freed o.camera).readAnswered hends hserving segment check outcome flags
  · cases h; exact .refl s

theorem Firms.discardComplete {o : OrderRef} (h : execDiscardComplete o s = .next t) : Firms s t := by
  unfold execDiscardComplete at h
  split at h
  · next slot ends ignored ha =>
    cases h
    refine .endOrder (fun q => Works.discardAnswered q o.camera _) (fun hs hi => ?_)
    obtain rfl : ignored = false := hi
    exact hs.discardEnds (outstanding_of_answered ha)
  · cases h; exact .refl s

theorem Firms.senseComplete {o : OrderRef} {flags : FlagSet} {slot0 slot1 : Bool}
    (h : execSenseComplete o flags slot0 slot1 s = .next t) : Firms s t := by
  unfold execSenseComplete at h
  split at h
  · cases h
    exact .endOrder (fun q => Works.senseAnswered q o.camera _ _ _)
      (fun hs _ => (hs.freed o.camera).senseAnswered o.camera flags slot0 slot1)
  · cases h; exact .refl s

theorem Firms.relinkComplete {o : OrderRef} (h : execRelinkComplete o s = .next t) : Firms s t := by
  unfold execRelinkComplete at h
  split at h
  · cases h
    exact .endOrder (fun q => Works.relinkAnswered q o.camera) (fun hs _ => (hs.freed o.camera).relinkAnswered o.camera)
  · cases h; exact .refl s

theorem Firms.orderTimeout {c : Camera} (h : execOrderTimeout c s = .next t) : Firms s t := by
  unfold execOrderTimeout at h
  split at h
  · next o hout =>
    refine .ite (fun _ => .endOrder (fun q => Works.orderTimedOut q c _) (fun hs hi => ?_)) h
    obtain ⟨order, ends, ignored⟩ := o
    obtain rfl : ignored = false := hi
    exact hs.orderTimedOut hout
  · cases h; exact .refl s

/-! ## All commands -/

/-- Every command keeps what `Firm` says. -/
theorem exec_firm {c : Instr} (h : exec c s = .next t) : Firms s t := by
  cases c with
  | powerUp levels => cases h; exact fun _ => Firm.powerUp levels s.pending
  | crossing k head => cases h; exact (Firms.crossing s k head).event
  | headFault k head =>
    exact .unless (fun _ => ((Firms.setHealth s k head .fault).trans (.actOnFault _ k)).event) h
  | headHealthy k head =>
    exact .unless (fun _ => ((Firms.setHealth s k head .healthy).trans (.actOnRecovery _ k)).event) h
  | quietTimerExpiry k => exact .ite (fun hq => (Firms.quietEnds hq).event) h
  | pairTimeout k side => exact .ite (fun _ => (Firms.expirePair s k side).event) h
  | tailWindowExpiry n =>
    change execTailWindowExpiry n s = .next t at h
    unfold execTailWindowExpiry at h
    split at h
    · next p hp =>
      exact .ite (fun ha => (Firms.declareTail (by rw [passage?_number hp]; exact hp) ha.1).event) h
    · cases h; exact .refl s
  | exitTimeout n =>
    change execExitTimeout n s = .next t at h
    unfold execExitTimeout at h
    split at h
    · next p hp =>
      exact .ite (fun ha => (Firms.clearShort (by rw [passage?_number hp]; exact hp) (by simp [Passage.isOpen, ha.1])).event) h
    · cases h; exact .refl s
  | shotFreeze n k => exact .ite (fun hd => (Firms.freeze hd).event) h
  | shotDue =>
    change execShotDue s = .next t at h
    unfold execShotDue at h
    split at h
    · next r hr => cases h; exact (Firms.shotDue hr).event
    · cases h; exact .refl s
  | busyIntervalEnd k => exact .ite (fun _ => (Firms.setFire s k _).event) h
  | triggerPulseEnd k => exact .ite (fun _ => (Firms.setFire s k _).event) h
  | flashPulseEnd k => exact .ite (fun _ => (Firms.setStrobe s k _).event) h
  | rechargeExpiry k => exact .ite (fun _ => (Firms.setStrobe s k _).event) h
  | readComplete o segment check outcome flags => exact .readComplete h
  | discardComplete o => exact .discardComplete h
  | senseComplete o flags a b => exact .senseComplete h
  | relinkComplete o => exact .relinkComplete h
  | orderTimeout k => exact .orderTimeout h
  | lineLockGained => exact .unless (fun _ => (Firms.gainLock s).event) h
  | lineLockLost => exact .ite (fun _ => (Firms.loseLock s).event) h
  | frameReceived bytes => exact .ite (fun _ => Firms.receive _ s _) h
  | frameSent wrong =>
    change execFrameSent wrong s = .next t at h
    unfold execFrameSent at h
    split at h
    · cases h
    · split at h
      · cases h; exact (Firms.upsets s wrong).trans (.frameSent _)
      · cases h; exact .refl s
  | timeSet tag a => cases h; exact Firms.request s tag _
  | timeGet tag => cases h; exact Firms.request s tag _
  | trackArm tag a => cases h; exact Firms.request s tag _
  | trackDisarm tag a => cases h; exact Firms.request s tag _
  | trackStatus tag a => cases h; exact Firms.request s tag _
  | listPassages tag => cases h; exact Firms.request s tag _
  | readPassage tag a b d => cases h; exact Firms.request s tag _
  | releasePassage tag a => cases h; exact Firms.request s tag _
  | abandonPassage tag a => cases h; exact Firms.request s tag _
  | cameraService tag a b => cases h; exact Firms.request s tag _
  | cameraSense tag a => cases h; exact Firms.request s tag _
  | memoryStatus tag a => cases h; exact Firms.request s tag _
  | pageRetire tag a b => cases h; exact Firms.request s tag _
  | pageRestore tag a => cases h; exact Firms.request s tag _
  | tableBegin tag => cases h; exact Firms.request s tag _
  | tablePut tag a b d => cases h; exact Firms.request s tag _
  | tableGet tag a b d => cases h; exact Firms.request s tag _
  | tableEnd tag => cases h; exact Firms.request s tag _
  | tableAbort tag => cases h; exact Firms.request s tag _
  | bankStatus tag => cases h; exact Firms.request s tag _
  | identify tag => cases h; exact Firms.request s tag _
  | restart tag => cases h; exact Firms.request s tag _
  | fetchImage tag a b d e => cases h; exact Firms.request s tag _

/-! ## Every step -/

theorem firm_of_agree (hinv : s.inv) (hbindings : s.bindings) (hagree : s.agree) : Firm s := by
  obtain ⟨hmemory, htracks, -, hbanks, -⟩ := hinv
  exact ⟨htracks, hbanks, bound_of_bindings hbindings hagree, agrees_of_agree hmemory hagree⟩

theorem step_firm (hs : Firm s) (hstep : step s = .next t) : Firm t := by
  obtain ⟨c, rest, -, h⟩ | ⟨c, -, -, h⟩ | ⟨-, -, rfl⟩ := step_cases hstep
  · exact exec_firm h ⟨hs.tracks, hs.banks, hs.bound.tracked rfl rfl (fun _ hk => .inl hk), hs.accords.blocks⟩
  · exact exec_firm h hs
  · exact ⟨hs.tracks, hs.banks, hs.bound.tracked rfl rfl (fun _ hk => .inl hk), hs.accords.blocks⟩

theorem exec_inv {c : Instr} (hs : s.inv) (h : exec c s = .next t) : t.inv := by
  by_cases hc : ∃ levels, c = .powerUp levels
  · obtain ⟨levels, rfl⟩ := hc
    cases h
    exact State.powerUp_inv levels s.pending
  · have hp := exec_preserves (fun levels he => hc ⟨levels, he⟩) h
    obtain ⟨hmemory, htracks, hpassages, hbanks, hlink⟩ := hs
    exact ⟨hp.memory hmemory, hp.tracks htracks, hp.passages htracks.2.1 hpassages, hp.banks hbanks, hp.link hlink⟩

theorem step_inv (hs : s.inv) (hstep : step s = .next t) : t.inv :=
  keptByStep_of_exec (P := State.inv) (fun _ _ h => h) (fun _ h => h) (fun _ _ _ hs h => exec_inv hs h) s t hs hstep

/-- Settles O10: each shot's part in the readout, by its state, is followed through every operation; the shot queue
is that of O11, and the bindings give each planned shot its segments. -/
theorem shotsSlotsAndPagesStayInAgreement : Obligations.ShotsSlotsAndPagesStayInAgreement := by
  rintro s t ⟨hinv, hbindings, hagree⟩ hstep
  have hfirm := step_firm (firm_of_agree hinv hbindings hagree) hstep
  obtain ⟨hqueued, honce, hplaces, -⟩ := shotQueueStaysInOrder s t hinv hbindings hagree hstep
  refine ⟨step_inv hinv hstep, hfirm.bound.bindings, agree_of_agrees hfirm.accords
    ⟨fun r => (hqueued r).trans (toFire_iff t r).symm, honce, hplaces⟩ (fun b c hb => hfirm.bound.fits b hb c)⟩

end Steps

end Sys2Proof.Proofs

/-! SUPPORT and PROOFS of the family of vehicle profiles and consist matching. `coverage` splits at any entry,
and from that every clause of R57 follows. -/

namespace Sys2Proof.Proofs

open Sys2Proof.Machine

/-! ## What a covered vehicle list says of its entries (R57) -/

section Coverage

variable {n c i j k : Nat} {l : List Vehicle} {v w : Vehicle}

@[simp] theorem coverage_nil_iff : coverage n [] = some c ↔ n = c := Option.some_inj

@[simp] theorem coverage_cons_iff :
    coverage n (v :: l) = some c ↔ v.firstAxle = n ∧ coverage (n + v.axleCount) l = some c :=
  Option.ite_none_right_eq_some

/-- Entries lie on both sides of an entry: those before it end at its first axle, those after it start
behind its last. -/
theorem coverage_split (h : coverage n l = some c) (hv : l[k]? = some v) :
    coverage n (l.take k) = some v.firstAxle
      ∧ coverage (v.firstAxle + v.axleCount) (l.drop (k + 1)) = some c := by
  obtain ⟨hk, rfl⟩ := List.getElem?_eq_some_iff.1 hv
  rw [← List.take_append_drop k l, List.drop_eq_getElem_cons hk, coverage_append,
    Option.bind_eq_some_iff] at h
  obtain ⟨m, hbefore, hbehind⟩ := h
  obtain ⟨rfl, hbehind⟩ := coverage_cons_iff.1 hbehind
  exact ⟨hbefore, hbehind⟩

theorem coverage_le (h : coverage n l = some c) : n ≤ c := by
  induction l generalizing n with
  | nil => exact (coverage_nil_iff.1 h).le
  | cons v vs ih =>
    obtain ⟨-, hvs⟩ := coverage_cons_iff.1 h
    exact Nat.le_of_add_right_le (ih hvs)

theorem coverage_le_firstAxle (h : coverage n l = some c) (hv : l[k]? = some v) : n ≤ v.firstAxle :=
  coverage_le (coverage_split h hv).1

theorem coverage_end_le (h : coverage n l = some c) (hv : l[k]? = some v) : v.firstAxle + v.axleCount ≤ c :=
  coverage_le (coverage_split h hv).2

theorem coverage_firstAxle_zero (h : coverage n l = some c) (hv : l[0]? = some v) : v.firstAxle = n :=
  (coverage_nil_iff.1 (coverage_split h hv).1).symm

/-- A later entry starts no earlier than where an entry ends. -/
theorem coverage_end_le_firstAxle (h : coverage n l = some c) (hv : l[k]? = some v) (hw : l[j]? = some w)
    (hkj : k < j) : v.firstAxle + v.axleCount ≤ w.firstAxle := by
  refine coverage_le_firstAxle (coverage_split h hv).2 (k := j - (k + 1)) ?_
  rw [List.getElem?_drop, Nat.add_sub_cancel' hkj, hw]

theorem coverage_firstAxle_succ (h : coverage n l = some c) (hv : l[k]? = some v)
    (hw : l[k + 1]? = some w) : w.firstAxle = v.firstAxle + v.axleCount :=
  coverage_firstAxle_zero (coverage_split h hv).2 (by rw [List.getElem?_drop, hw])

theorem coverage_end_getLast (h : coverage n l = some c) (hv : l.getLast? = some v) :
    c = v.firstAxle + v.axleCount := by
  rw [List.getLast?_eq_getElem?] at hv
  obtain ⟨-, hbehind⟩ := coverage_split h hv
  rw [List.drop_eq_nil_of_le (by omega)] at hbehind
  exact (coverage_nil_iff.1 hbehind).symm

theorem exists_covering (h : coverage n l = some c) (hn : n ≤ i) (hc : i < c) :
    ∃ (k : Nat) (v : Vehicle), l[k]? = some v ∧ v.firstAxle ≤ i ∧ i < v.firstAxle + v.axleCount := by
  induction l generalizing n with
  | nil => exact absurd (coverage_nil_iff.1 h) (by omega)
  | cons v vs ih =>
    obtain ⟨rfl, hvs⟩ := coverage_cons_iff.1 h
    by_cases hi : i < v.firstAxle + v.axleCount
    · exact ⟨0, v, rfl, hn, hi⟩
    · obtain ⟨k, w, hw, hin⟩ := ih hvs (Nat.not_lt.1 hi)
      exact ⟨k + 1, w, hw, hin⟩

/-- Two entries that cover one axle are one entry, since of two the earlier ends before the later starts. -/
theorem covering_unique (h : coverage n l = some c) (hv : l[k]? = some v) (hw : l[j]? = some w)
    (hfv : v.firstAxle ≤ i) (hiv : i < v.firstAxle + v.axleCount)
    (hfw : w.firstAxle ≤ i) (hiw : i < w.firstAxle + w.axleCount) : j = k := by
  rcases Nat.lt_trichotomy j k with hjk | rfl | hkj
  · have := coverage_end_le_firstAxle h hw hv hjk
    omega
  · rfl
  · have := coverage_end_le_firstAxle h hv hw hkj
    omega

end Coverage

/-! ## Sound passages over every step -/

/-- POWER_UP empties the passage table; every other command keeps its passages numbered and sound. -/
theorem exec_passagesSound {c : Instr} {s t : State} (hs : s.numbered ∧ s.passagesSound)
    (h : exec c s = .next t) : t.numbered ∧ t.passagesSound := by
  by_cases hc : ∃ levels, c = .powerUp levels
  · obtain ⟨levels, rfl⟩ := hc
    cases h
    obtain ⟨-, ⟨-, hnumbered, -⟩, hsound, -⟩ := State.powerUp_inv levels s.pending
    exact ⟨hnumbered, hsound⟩
  · obtain ⟨hnumbered, hsound⟩ := hs
    have hp := exec_preserves (fun levels he => hc ⟨levels, he⟩) h
    exact ⟨hp.numbered hnumbered, hp.passages hnumbered hsound⟩

/-- Settles O13: every command keeps the passages sound, and the clauses of R57 are read off the coverage of
a sound passage's vehicle list up to its cursor. -/
theorem vehicleListsCoverAxles : Obligations.VehicleListsCoverAxles := by
  refine ⟨keptByStep_of_exec (P := fun s => s.numbered ∧ s.passagesSound) (fun _ _ h => h) (fun _ h => h)
    (fun _ _ _ hs h => exec_passagesSound hs h), fun s hs p hp => ?_⟩
  obtain ⟨hcover, -⟩ := hs p hp
  refine ⟨fun i _ hi => ?_, fun v hv => ?_, fun v hv => coverage_firstAxle_zero hcover hv,
    fun k v w hv hw => coverage_firstAxle_succ hcover hv hw, fun v hv => coverage_end_getLast hcover hv,
    fun hnil => ?_⟩
  · obtain ⟨k, v, hv, hfirst, hend⟩ := exists_covering hcover i.zero_le hi
    exact ⟨k, v, hv, hfirst, hend, fun j w hw => covering_unique hcover hv hw hfirst hend⟩
  · obtain ⟨k, hk⟩ := List.mem_iff_getElem?.1 hv
    exact coverage_end_le hcover hk
  · rw [hnil] at hcover
    exact (coverage_nil_iff.1 hcover).symm

end Sys2Proof.Proofs


/-! PROOFS. The six checks of a due shot that is SKIPPED (R90 to R97, R100), and the ends of the timed intervals of
shots, outputs and strobe banks (R85, R93, R101, R104, R105). -/

namespace Sys2Proof.Proofs

open Sys2Proof.Machine

/-! ## The six checks (R90) -/

section Checks

variable {s : State} {b : BankNo} {k : Shot} {tm : Timing}

/-- Check 1: the band of the shot's speed allows no capture (R91). -/
theorem fireChecks_speed (htm : k.timing = some tm) (hcapture : tm.captureAllowed = false) :
    s.fireChecks b k = .error .speed := by
  unfold State.fireChecks
  rw [htm]
  exact if_pos hcapture

/-- A shot whose band allows capture passes check 1 (R91). -/
theorem fireChecks_captured (htm : k.timing = some tm) (hcapture : tm.captureAllowed = true) :
    s.fireChecks b k =
      if s.lines[k.camera].state ≠ .inService then .error .camera
      else if (s.fire[k.camera].busy).isSome then .error .cameraBusy
      else if (s.lines[k.camera].freeSlot).isNone then .error .cameraFull
      else if s.memory.canReserve k.segmentsExpected = false then .error .noSpace
      else match s.strobeOutcome b k.camera with
        | .skip => .error .noFlash
        | o => .ok o := by
  unfold State.fireChecks
  rw [htm]
  refine (if_neg ?_).trans rfl
  change ¬ tm.captureAllowed = false
  rw [hcapture]
  exact Bool.noConfusion

end Checks

theorem freeSlot_isNone {l : CameraLine} : l.freeSlot.isNone = true ↔ ∀ slot : SlotNo, l.slots[slot] ≠ none := by
  rw [Option.isNone_iff_eq_none]
  refine ⟨fun h slot => ?_, fun h => ?_⟩
  · unfold CameraLine.freeSlot at h
    split at h
    · cases h
    · next h0 =>
      split at h
      · cases h
      · next h1 =>
        match slot with
        | 0 => exact h0
        | 1 => exact h1
  · unfold CameraLine.freeSlot
    rw [if_neg (h 0), if_neg (h 1)]

theorem strobeBank_some {e : CameraEntry} {b : StrobeNo} (h : e.strobe.toNat = b.val) : e.strobeBank = some b := by
  unfold CameraEntry.strobeBank
  rw [dif_pos (h ▸ b.isLt)]
  exact congrArg some (Fin.ext h)

theorem strobeOutcome_skip {s : State} {n : BankNo} {c : Camera} {b : StrobeNo} {f : Flash}
    (hbank : ((s.bank n).cameras[c]).strobe.toNat = b.val) (hrecharge : s.strobes[b].recharge ≠ none)
    (hpolicy : ((s.bank n).strobes[b]).policy = 1) (hflash : s.strobes[b].flash = some f)
    (hclosed : f.window < s.clock.elapsed - f.since) : s.strobeOutcome n c = .skip := by
  obtain ⟨ends, hends⟩ := Option.ne_none_iff_exists'.1 hrecharge
  have hwindow : ¬ f.windowOpen s.clock.elapsed = true := by
    unfold Flash.windowOpen
    rw [decide_eq_true_eq]
    omega
  unfold State.strobeOutcome
  rw [strobeBank_some hbank]
  dsimp only
  rw [hends, hflash]
  dsimp only
  rw [if_neg hwindow, if_pos hpolicy]

/-! ## A shot SKIPPED (R90) -/

theorem modifyShot_modifyShot (s : State) (r : ShotRef) (f g : Shot → Shot) :
    (s.modifyShot r f).modifyShot r g = s.modifyShot r (g ∘ f) := by
  unfold State.modifyShot
  rw [modifyPassage_modifyPassage (f := fun p => p.modifyShot r.shot f) (fun _ => rfl)]
  refine modifyPassage_congr (fun p _ => ?_)
  exact congrArg (fun shots => { p with shots := shots }) (List.modify_modify_eq f g r.shot p.shots)

theorem skipShot_eq (s : State) (r : ShotRef) (reason : SkipReason) : s.skipShot r reason
    = (s.modifyShot r (fun k => { k with skipReason := some reason, state := .skipped })).checkSettled r.passage := by
  unfold State.skipShot State.endShot
  rw [modifyShot_modifyShot]
  rfl

theorem handOver_skips {s : State} {r : ShotRef} {p : Passage} {k : Shot} {reason : SkipReason}
    (hp : s.passage? r.passage = some p) (hk : s.shot? r = some k)
    (hchecks : (s.leaveShotQueue r).fireChecks p.bank k = .error reason) :
    s.handOver r = (s.leaveShotQueue r).skipShot r reason := by
  have hp' : (s.leaveShotQueue r).passage? r.passage = some p := hp
  have hk' : (s.leaveShotQueue r).shot? r = some k := hk
  unfold State.handOver State.decideShot
  rw [hp', hk']
  dsimp only
  rw [hchecks]

theorem exec_shotDue {s : State} {r : ShotRef} (h : s.firstDue = some r) :
    exec .shotDue s = .next (s.handOver r).endEvent := by
  change execShotDue s = _
  unfold execShotDue
  rw [h]

/-- Settles O48: the checks look at blocks that the shot's leaving the queue does not touch; the first of them that
fails gives the reason. -/
theorem dueShotIsSkipped : Obligations.DueShotIsSkipped := by
  intro s r p k tm reason e hdue hp hk htm he hreason
  suffices hchecks : (s.leaveShotQueue r).fireChecks p.bank k = .error reason by
    rw [exec_shotDue hdue, handOver_skips hp hk hchecks, skipShot_eq]
    rfl
  rcases hreason with ⟨hcapture, rfl⟩ | ⟨hcapture, hreason⟩
  · exact fireChecks_speed htm hcapture
  rw [fireChecks_captured htm hcapture]
  rcases hreason with ⟨hline, rfl⟩ | ⟨hline, hreason⟩
  · exact if_pos hline
  refine (if_neg (fun h => h hline)).trans ?_
  rcases hreason with ⟨hbusy, rfl⟩ | ⟨hidle, hreason⟩
  · exact if_pos (Option.isSome_iff_ne_none.2 hbusy)
  refine (if_neg (fun h => Option.isSome_iff_ne_none.1 h hidle)).trans ?_
  rcases hreason with ⟨hfull, rfl⟩ | ⟨⟨slot, hfree⟩, hreason⟩
  · exact if_pos (freeSlot_isNone.2 hfull)
  refine (if_neg (fun h => freeSlot_isNone.1 h slot hfree)).trans ?_
  rcases hreason with ⟨hspace, rfl⟩ | ⟨hspace, rfl, b, hb, hrecharge, hpolicy, f, hflash, hclosed⟩
  · exact if_pos (decide_eq_false (Nat.not_le.2 hspace))
  refine (if_neg (fun h => of_decide_eq_false h hspace)).trans ?_
  have hskip : (s.leaveShotQueue r).strobeOutcome p.bank k.camera = .skip :=
    strobeOutcome_skip (by rw [← hb, he]; rfl) hrecharge hpolicy hflash hclosed
  rw [hskip]

/-! ## Ends of intervals (R85, R93, R101, R104, R105) -/

/-- The command at the end of an interval acts from its end on; before it, and while the interval does not run, it
does nothing (R3, log 3). -/
theorem ends_interval {s u : State} {ends : Option Nat} {o : Host.Outcome State Fault Refusal}
    (ho : o = if s.ended ends then .next u else .next s) :
    (∀ e, ends = some e →
      (e ≤ s.clock.elapsed → o = .next u) ∧ (s.clock.elapsed < e → o = .next s))
    ∧ (ends = none → o = .next s) := by
  refine ⟨fun e he => ⟨fun hle => ?_, fun hlt => ?_⟩, fun hn => ?_⟩
  · rw [ho, he, if_pos (ended_some hle)]
  · rw [ho, he, if_neg (not_ended_some hlt)]
  · rw [ho, hn, if_neg (not_ended_none s)]

theorem freezeDue_iff {s : State} {r : ShotRef} {k : Shot} (hk : s.shot? r = some k) : s.freezeDue r = true
    ↔ k.state = .planned ∧ ∃ f, k.plannedFire = some f ∧ timeDiff f s.clock.time ≤ 2000 := by
  unfold State.freezeDue
  rw [hk]
  dsimp only
  rw [Bool.and_eq_true, beq_iff_eq]
  refine and_congr_right (fun _ => ?_)
  cases k.plannedFire with
  | none => simp
  | some f =>
    dsimp only
    rw [decide_eq_true_eq]
    exact ⟨fun h => ⟨f, rfl, h⟩, fun ⟨_, hg, h⟩ => Option.some.inj hg ▸ h⟩

/-- Settles O49: the freeze by the shot's state and its lead, the four other ends by `ends_interval`. -/
theorem shotFreezesAndIntervalsEnd : Obligations.ShotFreezesAndIntervalsEnd := by
  intro s
  refine ⟨fun n i k hk => ⟨fun f hst hf hlead => if_pos ((freezeDue_iff hk).2 ⟨hst, f, hf, hlead⟩), fun hnot => ?_⟩,
    fun c b => ?_⟩
  · refine if_neg (fun hdue => ?_)
    obtain ⟨hst, f, hf, hlead⟩ := (freezeDue_iff hk).1 hdue
    rcases hnot with hother | hnone | ⟨g, hg, hfar⟩
    · exact hother hst
    · rw [hnone] at hf
      cases hf
    · obtain rfl : f = g := Option.some.inj (hf.symm.trans hg)
      omega
  · obtain ⟨hbusy, hidle⟩ := ends_interval (o := exec (.busyIntervalEnd c) s) rfl
    obtain ⟨htrigger, hlow⟩ := ends_interval (o := exec (.triggerPulseEnd c) s) rfl
    obtain ⟨houtput, hdark⟩ := ends_interval (o := exec (.flashPulseEnd b) s) rfl
    obtain ⟨hrecharge, hready⟩ := ends_interval (o := exec (.rechargeExpiry b) s) rfl
    exact ⟨hbusy, hidle, htrigger, hlow, houtput, hdark, hrecharge, hready⟩

end Sys2Proof.Proofs


/-! PROOFS. The shots of a pantograph made, timed and placed, the order of the shot queue, and the re-timing of
PLANNED shots (R77, R78, R80 to R83, R86, R87). -/

namespace Sys2Proof.Proofs

open Sys2Proof.Machine

/-! ## A shot timed and placed (R80, R81) -/

section Timed

variable {s : State} {p : Passage} {k : Shot} {tm : Timing}

/-- A timing that leaves no distance makes the shot LATE (R80). -/
theorem timeShot_noDistance (h : p.timeShot (s.bank p.bank) k = ⟨tm, none⟩) :
    s.timeShot p k = ({ k with timing := some tm, state := .late }, .late) := by
  unfold State.timeShot
  rw [h]
  rfl

/-- A timing with a fire time places the shot by its lead (R81). -/
theorem timeShot_fireTime {t : GantryTime} (h : p.timeShot (s.bank p.bank) k = ⟨tm, some t⟩) {x : Placing}
    {tolerance : Nat} (htol : tolerance = (s.trackEntry p).lateTolerance.toNat)
    (hx : x = placeByLead (timeDiff t s.clock.time) tolerance) : s.timeShot p k = ({ k with
      timing := some tm, plannedFire := some t, state := x.state
      lateness := if x = .late then tolerance else k.lateness }, x) := by
  unfold State.timeShot
  rw [h, hx, htol]
  rfl

end Timed

theorem placing_state (x : Placing) :
    x.state = if x = .planned then .planned else if x = .late then .late else .frozen := by
  cases x <;> rfl

/-! ## The order of the shot queue (R87) -/

/-- Behind an element are the ones that follow it in a list without repeats. -/
theorem idxOf_lt_idxOf_iff {pre mid : List Nat} {a b : Nat} (hn : (pre ++ a :: mid).Nodup)
    (hb : b ∈ pre ++ a :: mid) : (pre ++ a :: mid).idxOf a < (pre ++ a :: mid).idxOf b ↔ b ∈ mid := by
  obtain ⟨-, htail, hdisjoint⟩ := List.nodup_append'.1 hn
  obtain ⟨ha, -⟩ := List.nodup_cons.1 htail
  have hapre : a ∉ pre := fun h => hdisjoint h List.mem_cons_self
  rw [List.idxOf_append_of_notMem hapre, List.idxOf_cons_self]
  rcases List.mem_append.1 hb with hpre | hmem
  · rw [List.idxOf_append_of_mem hpre]
    have := List.idxOf_lt_length_iff.2 hpre
    exact ⟨fun h => by omega, fun h => absurd (List.mem_cons_of_mem a h) (hdisjoint hpre)⟩
  · rw [List.idxOf_append_of_notMem (fun h => hdisjoint h hmem)]
    rcases List.mem_cons.1 hmem with rfl | hmid
    · rw [List.idxOf_cons_self]
      exact ⟨fun h => absurd h (Nat.lt_irrefl _), fun h => absurd h ha⟩
    · have hne : a ≠ b := fun h => ha (h ▸ hmid)
      rw [List.idxOf_cons_ne _ hne]
      exact ⟨fun _ => hmid, fun _ => by omega⟩

/-- Of a passage and a live one the second opened later exactly when it stands behind the first (section 2.1). -/
theorem openingIndex_lt_iff {s : State} (hs : s.numbered) {pre mid : List Passage} {pa : Passage}
    (hsplit : s.table.passages = pre ++ pa :: mid) {n : Nat} (hn : (s.passage? n).isSome = true) :
    s.openingIndex pa.number < s.openingIndex n ↔ ∃ pb ∈ mid, pb.number = n := by
  obtain ⟨-, hnodup, -⟩ := hs
  rw [passage?_isSome] at hn
  rw [openingIndex_eq, openingIndex_eq]
  rw [hsplit, List.map_append, List.map_cons] at hnodup hn ⊢
  exact (idxOf_lt_idxOf_iff hnodup hn).trans List.mem_map

/-- Passages of one place in the opening order are one passage. -/
theorem openingIndex_inj {s : State} {n m : Nat} (hn : (s.passage? n).isSome = true) :
    s.openingIndex n = s.openingIndex m ↔ n = m := by
  rw [openingIndex_eq, openingIndex_eq]
  exact findIdx_inj ((passage?_isSome s n).1 hn)

theorem shot?_live {s : State} {r : ShotRef} {k : Shot} (h : s.shot? r = some k) :
    (s.passage? r.passage).isSome = true := by
  unfold State.shot? at h
  split at h
  · next hp => rw [hp]; rfl
  · cases h

/-- The order of the queue: fire time, opening order, shot number (R87). -/
theorem queueBefore_iff_lex (s : State) (a b : ShotRef) : s.queueBefore a b = true
    ↔ timeDiff (s.fireTimeOf a) (s.fireTimeOf b) < 0
      ∨ (timeDiff (s.fireTimeOf a) (s.fireTimeOf b) = 0
        ∧ (s.openingIndex a.passage < s.openingIndex b.passage
          ∨ (s.openingIndex a.passage = s.openingIndex b.passage ∧ a.shot < b.shot))) := by
  unfold State.queueBefore
  dsimp only
  split
  · next hlt => simp [hlt]
  · next hlt =>
    split
    · next heq =>
      split
      · next hi => simp [heq, hi]
      · next hi =>
        split
        · next hj => simp [heq, hj]
        · next hj => simp [heq, hi, hj]
    · next hne => simp [hlt, hne]

/-- Signed differences add up while they are less than a quarter of the range (R2). -/
theorem timeDiff_add {a b c : GantryTime} (hab : (timeDiff a b).natAbs < 2 ^ 46)
    (hbc : (timeDiff b c).natAbs < 2 ^ 46) : timeDiff a c = timeDiff a b + timeDiff b c := by
  unfold timeDiff at *
  have hsum : a - c = (a - b) + (b - c) := by bv_omega
  rw [hsum, BitVec.toInt_add, Int.bmod_eq_of_le (by omega) (by omega)]

theorem timeDiff_comm {a b : GantryTime} (h : (timeDiff a b).natAbs < 2 ^ 46) : timeDiff b a = -timeDiff a b := by
  unfold timeDiff at *
  have hneg : b - a = -(a - b) := by bv_omega
  rw [hneg, BitVec.toInt_neg, Int.bmod_eq_of_le (by omega) (by omega)]

/-- Fire times within a quarter of the range of one another (R2). -/
def withinQuarter (s : State) (a b : ShotRef) : Prop :=
  (timeDiff (s.fireTimeOf a) (s.fireTimeOf b)).natAbs < 2 ^ 46

theorem queueBefore_trans_within {s : State} {a b c : ShotRef} (hab : withinQuarter s a b)
    (hbc : withinQuarter s b c) (h1 : s.queueBefore a b = true) (h2 : s.queueBefore b c = true) :
    s.queueBefore a c = true := by
  rw [queueBefore_iff_lex] at h1 h2 ⊢
  rw [timeDiff_add hab hbc]
  omega

/-- Of two different shots one comes first. -/
theorem queueBefore_total_within {s : State} {a b : ShotRef} (hab : withinQuarter s a b)
    (hlive : (s.passage? a.passage).isSome = true) (hne : a ≠ b) (hnot : ¬ s.queueBefore a b = true) :
    s.queueBefore b a = true := by
  rw [queueBefore_iff_lex] at hnot ⊢
  rw [timeDiff_comm hab]
  have hdiffer : s.openingIndex a.passage = s.openingIndex b.passage → a.shot ≠ b.shot := fun hi hshot =>
    hne (by cases a; cases b; cases (openingIndex_inj hlive).1 hi; cases hshot; rfl)
  omega

/-- An inserted shot stands behind shots that it does not precede and in front of one that it precedes. -/
theorem insertQueue_place (s : State) (r : ShotRef) (l : List ShotRef) :
    ∃ before after, l = before ++ after ∧ s.insertQueue r l = before ++ r :: after
      ∧ (∀ q ∈ before, s.queueBefore r q = false)
      ∧ (∀ q, after.head? = some q → s.queueBefore r q = true) := by
  induction l with
  | nil => exact ⟨[], [], rfl, rfl, by simp, by simp⟩
  | cons q l ih =>
    unfold State.insertQueue
    split
    · next hbefore => exact ⟨[], q :: l, rfl, rfl, by simp, by simpa using hbefore⟩
    · next hnot =>
      obtain ⟨before, after, hl, hinsert, hbehind, hfront⟩ := ih
      refine ⟨q :: before, after, by rw [hl]; rfl, by rw [hinsert]; rfl, fun x hx => ?_, hfront⟩
      rcases List.mem_cons.1 hx with rfl | hx
      · exact Bool.eq_false_iff.2 hnot
      · exact hbehind x hx

/-- A shot inserted into a queue in order leaves it in order, while the fire times lie near one another (R87). -/
theorem insertQueue_keeps_order {s : State} {r : ShotRef} (hlive : (s.passage? r.passage).isSome = true)
    (l : List ShotRef) (hr : r ∉ l) (hnear : ∀ a ∈ r :: l, ∀ b ∈ r :: l, withinQuarter s a b)
    (ho : l.Pairwise (fun a b => s.queueBefore a b = true)) :
    (s.insertQueue r l).Pairwise (fun a b => s.queueBefore a b = true) := by
  induction l with
  | nil => exact List.pairwise_singleton _ _
  | cons q l ih =>
    obtain ⟨hq, ho'⟩ := List.pairwise_cons.1 ho
    have hrq : withinQuarter s r q := hnear r List.mem_cons_self q (by simp)
    unfold State.insertQueue
    split
    · next hbefore =>
      refine List.pairwise_cons.2 ⟨fun x hx => ?_, ho⟩
      rcases List.mem_cons.1 hx with rfl | hx
      · exact hbefore
      · exact queueBefore_trans_within hrq (hnear q (by simp) x (by simp [hx])) hbefore (hq x hx)
    · next hnot =>
      have hsub : ∀ x ∈ r :: l, x ∈ r :: q :: l := fun x hx => by
        rcases List.mem_cons.1 hx with rfl | hx
        · exact List.mem_cons_self
        · exact List.mem_cons_of_mem _ (List.mem_cons_of_mem _ hx)
      have ih' := ih (fun h => hr (List.mem_cons_of_mem _ h))
        (fun a ha b hb => hnear a (hsub a ha) b (hsub b hb)) ho'
      refine List.pairwise_cons.2 ⟨fun x hx => ?_, ih'⟩
      rcases List.mem_cons.1 ((insertQueue_perm s r l).mem_iff.1 hx) with rfl | hx
      · exact queueBefore_total_within hrq hlive (fun h => hr (h ▸ List.mem_cons_self)) hnot
      · exact hq x hx

/-! ## A shot made (R78, R82) -/

/-- A placed shot in the queue: handed over when due at once (R81, R86, log 26). -/
theorem afterPlacing_waits (s : State) (r : ShotRef) {x : Placing} (h : x = .planned ∨ x = .frozen) :
    s.afterPlacing r x = s :=
  if_neg (by rcases h with rfl | rfl <;> decide)

theorem afterPlacing_due (s : State) (r : ShotRef) {x : Placing} (h : x = .dueAtOnce) :
    s.afterPlacing r x = s.handOver r :=
  if_pos h

section Made

variable {s : State} {p : Passage} {k : Shot}

/-- At 48 shots none is made (R78). -/
theorem makeShot_limit (h : 48 ≤ p.shots.length) : s.makeShot p k = s.recordFault p.number .shotLimit none none :=
  if_neg (Nat.not_lt.2 h)

theorem makeShot_room (h : p.shots.length < 48) : s.makeShot p k =
    if (s.timeShot p k).2 = .late then (s.appendShot p.number (s.timeShot p k).1).checkSettled p.number
    else if s.shotQueue.length < 64 then
      ((s.appendShot p.number (s.timeShot p k).1).joinShotQueue ⟨p.number, p.shots.length⟩).afterPlacing
        ⟨p.number, p.shots.length⟩ (s.timeShot p k).2
    else (s.appendShot p.number (s.timeShot p k).1).skipShot ⟨p.number, p.shots.length⟩ .queueFull :=
  if_pos h

/-- A shot that its timing makes LATE does not enter the queue (R80, R81). -/
theorem makeShot_late (h : p.shots.length < 48) (hlate : (s.timeShot p k).2 = .late) :
    s.makeShot p k = (s.appendShot p.number (s.timeShot p k).1).checkSettled p.number := by
  rw [makeShot_room h, if_pos hlate]

/-- A shot enters a queue with room (R82). -/
theorem makeShot_queued (h : p.shots.length < 48) (hlate : (s.timeShot p k).2 ≠ .late)
    (hqueue : s.shotQueue.length < 64) : s.makeShot p k =
      ((s.appendShot p.number (s.timeShot p k).1).joinShotQueue ⟨p.number, p.shots.length⟩).afterPlacing
        ⟨p.number, p.shots.length⟩ (s.timeShot p k).2 := by
  rw [makeShot_room h, if_neg hlate, if_pos hqueue]

/-- The record of the shot appended last, changed. -/
theorem appendShot_modifyShot (hp : s.passage? p.number = some p) (f : Shot → Shot) :
    (s.appendShot p.number k).modifyShot ⟨p.number, p.shots.length⟩ f = s.appendShot p.number (f k) := by
  unfold State.appendShot State.modifyShot
  rw [modifyPassage_modifyPassage (f := fun q => { q with shots := q.shots ++ [k] }) (fun _ => rfl)]
  refine modifyPassage_congr (fun q hq => ?_)
  obtain rfl : p = q := Option.some.inj (hp.symm.trans hq)
  refine congrArg (fun shots => { p with shots := shots }) ?_
  change (p.shots ++ [k]).modify p.shots.length f = p.shots ++ [f k]
  rw [List.modify_eq_set_getElem?]
  simp

/-- A shot made while 64 are queued is SKIPPED (R82). -/
theorem makeShot_full (hp : s.passage? p.number = some p) (h : p.shots.length < 48)
    (hlate : (s.timeShot p k).2 ≠ .late) (hqueue : 64 ≤ s.shotQueue.length) : s.makeShot p k =
      (s.appendShot p.number { (s.timeShot p k).1 with
        state := .skipped, skipReason := some .queueFull }).checkSettled p.number := by
  rw [makeShot_room h, if_neg hlate, if_neg (Nat.not_lt.2 hqueue), skipShot_eq, appendShot_modifyShot hp]

end Made

/-! ## A shot re-timed (R83) -/

theorem retimeShot_planned {s : State} {r : ShotRef} {p : Passage} {k : Shot} (hp : s.passage? r.passage = some p)
    (hk : s.shot? r = some k) (hst : k.state = .planned) : s.retimeShot r =
      if (s.timeShot p k).2 = .late then
        ((s.leaveShotQueue r).modifyShot r (fun _ => (s.timeShot p k).1)).checkSettled r.passage
      else (((s.leaveShotQueue r).modifyShot r (fun _ => (s.timeShot p k).1)).joinShotQueue r).afterPlacing r
        (s.timeShot p k).2 := by
  unfold State.retimeShot
  rw [hp, hk]
  exact if_pos hst

/-- A shot that is not PLANNED keeps its timing (R83). -/
theorem retimeShot_settled {s : State} {r : ShotRef} {p : Passage} {k : Shot} (hp : s.passage? r.passage = some p)
    (hk : s.shot? r = some k) (hst : k.state ≠ .planned) : s.retimeShot r = s := by
  unfold State.retimeShot
  rw [hp, hk]
  exact if_neg hst

theorem retimeAll_some {s : State} {n : Nat} {p : Passage} (hp : s.passage? n = some p) :
    s.retimeAll n = (List.range p.shots.length).foldl (fun u i => u.retimeShot ⟨n, i⟩) s := by
  unfold State.retimeAll
  rw [hp]

/-! ## The cameras of a pantograph (R77) -/

theorem photographs_iff (e : CameraEntry) (p : Passage) : e.photographs p = true
    ↔ e.fitted = true ∧ e.track.toNat = p.track.val + 1
      ∧ (e.directionFilter = 2 ∨ (e.directionFilter = 0 ∧ p.direction = .ab)
        ∨ (e.directionFilter = 1 ∧ p.direction = .ba)) := by
  unfold CameraEntry.photographs
  rw [Bool.and_eq_true, Bool.and_eq_true, Bool.or_eq_true, beq_iff_eq, beq_iff_eq, beq_iff_eq, and_assoc]
  refine and_congr_right (fun _ => and_congr_right (fun _ => or_congr_right ?_))
  cases p.direction with
  | ab => simp [Direction.toCode, BitVec.toNat_eq]
  | ba => simp [Direction.toCode, BitVec.toNat_eq]

theorem not_photographs {e : CameraEntry} {p : Passage} (h : e.fitted = false ∨ e.track.toNat ≠ p.track.val + 1
    ∨ (e.directionFilter ≠ 2 ∧ (e.directionFilter = 0 → p.direction = .ba)
      ∧ (e.directionFilter = 1 → p.direction = .ab))) : ¬ e.photographs p = true := by
  rw [photographs_iff]
  rintro ⟨hfitted, htrack, hfilter⟩
  rcases h with hunfitted | helsewhere | ⟨hboth, hab, hba⟩
  · rw [hunfitted] at hfitted
    cases hfitted
  · exact helsewhere htrack
  · rcases hfilter with hf | ⟨hf, hd⟩ | ⟨hf, hd⟩
    · exact hboth hf
    · exact nomatch (hab hf).symm.trans hd
    · exact nomatch (hba hf).symm.trans hd

theorem planCamera_some {s : State} {n : Nat} {p : Passage} (hp : s.passage? n = some p)
    (vehicle pantograph reference : Nat) (position : Int) (c : Camera) :
    s.planCamera n vehicle pantograph reference position c =
      if ((s.bank p.bank).cameras[c]).photographs p then
        s.makeShot p (Shot.new vehicle pantograph c reference position
          ((s.bank p.bank).cameras[c]).segments.toNat)
      else s := by
  unfold State.planCamera
  rw [hp]

/-- Settles O50, part by part: timing, order, making, inserting, re-timing, and the cameras of a pantograph. -/
theorem newShotIsPlaced : Obligations.NewShotIsPlaced := by
  refine ⟨fun s p k f tm tolerance htm htol => ⟨fun hf => ?_, fun t x hf hx => ?_⟩,
    fun s a b ka kb fa fb pre mid pa hs hka hkb hfa hfb hsplit hpa => ?_,
    fun s p k hs hp => ⟨fun h48 => makeShot_limit h48, fun hroom x v hx hv => ?_⟩,
    fun s r queue => ⟨insertQueue_place s r queue, fun hs hr hshots hnear ho => ?_⟩,
    fun s n p hp => ⟨retimeAll_some hp, fun i k r hr hi => ?_⟩,
    fun s n vehicle pantograph reference position cameras => ⟨rfl, fun c p e hp he => ⟨fun h => ?_, fun h => ?_⟩⟩⟩
  · subst hf
    exact timeShot_noDistance htm
  · subst hf
    rw [timeShot_fireTime htm htol hx, placing_state]
  · rw [queueBefore_iff_lex, fireTimeOf_shot hka hfa, fireTimeOf_shot hkb hfb, openingIndex_inj (shot?_live hka),
      ← hpa, openingIndex_lt_iff hs hsplit (shot?_live hkb)]
  · have hfound := passage?_of_mem hs hp
    subst hx hv
    refine ⟨fun hlate => ?_, fun hlate h64 => ?_, fun hlate h64 r u hr hu => ?_⟩
    · exact makeShot_late hroom hlate
    · exact makeShot_full hfound hroom hlate h64
    · subst hr hu
      rw [makeShot_queued hroom hlate h64]
      exact ⟨fun hx => afterPlacing_waits _ _ hx, fun hx => afterPlacing_due _ _ hx⟩
  · obtain ⟨k, _, hk, -⟩ := hshots r List.mem_cons_self
    exact insertQueue_keeps_order (shot?_live hk) queue hr hnear ho
  · subst hr
    have hk : s.shot? ⟨n, i⟩ = some k := (shot?_of_passage? hp i).trans hi
    refine ⟨fun hst => retimeShot_settled hp hk hst, fun hst x v u hx hv hu => ?_⟩
    have hretime := retimeShot_planned hp hk hst
    subst hx hv hu
    refine ⟨fun hlate => hretime.trans (if_pos hlate), fun hx => ?_, fun hx => ?_⟩
    · rw [hretime, if_neg (by rcases hx with hx | hx <;> rw [hx] <;> decide)]
      exact afterPlacing_waits _ _ hx
    · rw [hretime, if_neg (by rw [hx]; decide)]
      exact afterPlacing_due _ _ hx
  · rw [planCamera_some hp]
    exact (if_pos ((photographs_iff _ p).2 (he ▸ h))).trans (by rw [he]; rfl)
  · rw [planCamera_some hp]
    exact if_neg (not_photographs (he ▸ h))

end Sys2Proof.Proofs


/-! PROOFS. The outputs after power-up, the first due shot, and a shot that passes the six checks and fires (R86, R90,
R93, R97 to R100, R102 to R107). -/

namespace Sys2Proof.Proofs

open Sys2Proof.Machine

/-! ## Power-up (R107) -/

/-- Settles O6: POWER_UP fills the trigger lines and the strobe banks with their power-up state. -/
theorem powerUpOutputs : Obligations.PowerUpOutputs := by
  intro levels s
  refine ⟨State.powerUp levels s.pending, rfl, fun c => ?_, fun b => ?_, rfl⟩
  · have hfire : (State.powerUp levels s.pending).fire[c] = .powerUp := Vector.getElem_replicate c.isLt
    rw [hfire]
    exact ⟨rfl, rfl⟩
  · have hstrobe : (State.powerUp levels s.pending).strobes[b] = .powerUp := Vector.getElem_replicate b.isLt
    rw [hstrobe]
    exact ⟨rfl, rfl, rfl⟩

/-! ## The first due shot (R86) -/

theorem isDue_iff {s : State} {r : ShotRef} : s.isDue r = true ↔ ∃ k f, s.shot? r = some k ∧ k.state = .frozen
    ∧ k.plannedFire = some f ∧ timeDiff f s.clock.time ≤ 0 := by
  unfold State.isDue
  cases s.shot? r with
  | none => simp
  | some k =>
    dsimp only
    rw [Bool.and_eq_true, beq_iff_eq]
    cases hf : k.plannedFire with
    | none => simp [hf]
    | some f =>
      dsimp only
      rw [decide_eq_true_eq]
      exact ⟨fun ⟨hst, hlead⟩ => ⟨k, f, rfl, hst, hf, hlead⟩, fun ⟨_, g, hk, hst, hg, hlead⟩ => by
        obtain rfl := Option.some.inj hk
        obtain rfl := Option.some.inj (hf.symm.trans hg)
        exact ⟨hst, hlead⟩⟩

theorem firstDue_none {s : State} (h : ∀ q ∈ s.shotQueue, ¬ s.isDue q = true) : s.firstDue = none :=
  List.find?_eq_none.2 h

theorem firstDue_some {s : State} {before after : List ShotRef} {r : ShotRef}
    (hqueue : s.shotQueue = before ++ r :: after) (hr : s.isDue r = true) (h : ∀ q ∈ before, ¬ s.isDue q = true) :
    s.firstDue = some r :=
  List.find?_eq_some_iff_append.2 ⟨hr, before, after, hqueue, fun q hq => by simpa using h q hq⟩

theorem exec_shotDue_none {s : State} (h : s.firstDue = none) : exec .shotDue s = .next s := by
  change execShotDue s = _
  unfold execShotDue
  rw [h]

/-! ## The strobe outcome (R97 to R100) -/

section Outcome

variable {s : State} {n : BankNo} {c : Camera} {b : StrobeNo}

theorem strobeOutcome_noStrobe (h : 3 < ((s.bank n).cameras[c]).strobe.toNat) : s.strobeOutcome n c = .noStrobe := by
  have hbank : ((s.bank n).cameras[c]).strobeBank = none := by
    unfold CameraEntry.strobeBank
    exact dif_neg (by omega)
  unfold State.strobeOutcome
  rw [hbank]

theorem strobeOutcome_opens (hbank : ((s.bank n).cameras[c]).strobe.toNat = b.val)
    (hready : s.strobes[b].recharge = none) : s.strobeOutcome n c = .opens b (s.bank n).strobes[b] := by
  unfold State.strobeOutcome
  rw [strobeBank_some hbank]
  dsimp only
  rw [hready]

/-- A RECHARGING bank answers by the window of its latest flash (R99, R100). -/
theorem strobeOutcome_recharging {f : Flash} (hbank : ((s.bank n).cameras[c]).strobe.toNat = b.val)
    (hrecharge : s.strobes[b].recharge ≠ none) (hflash : s.strobes[b].flash = some f) :
    s.strobeOutcome n c = if f.windowOpen s.clock.elapsed then .joins f
      else if ((s.bank n).strobes[b]).policy = 1 then .skip else .unlit := by
  obtain ⟨ends, hends⟩ := Option.ne_none_iff_exists'.1 hrecharge
  unfold State.strobeOutcome
  rw [strobeBank_some hbank]
  dsimp only
  rw [hends, hflash]

theorem strobeOutcome_joins {f : Flash} (hbank : ((s.bank n).cameras[c]).strobe.toNat = b.val)
    (hrecharge : s.strobes[b].recharge ≠ none) (hflash : s.strobes[b].flash = some f)
    (hopen : s.clock.elapsed - f.since ≤ f.window) : s.strobeOutcome n c = .joins f :=
  (strobeOutcome_recharging hbank hrecharge hflash).trans (if_pos (decide_eq_true hopen))

theorem strobeOutcome_unlit {f : Flash} (hbank : ((s.bank n).cameras[c]).strobe.toNat = b.val)
    (hrecharge : s.strobes[b].recharge ≠ none) (hflash : s.strobes[b].flash = some f)
    (hclosed : f.window < s.clock.elapsed - f.since) (hpolicy : ((s.bank n).strobes[b]).policy = 0) :
    s.strobeOutcome n c = .unlit := by
  have hwindow : ¬ f.windowOpen s.clock.elapsed = true := fun h => Nat.not_le.2 hclosed (of_decide_eq_true h)
  rw [strobeOutcome_recharging hbank hrecharge hflash, if_neg hwindow, hpolicy]
  exact if_neg (by decide)

theorem strobeOutcome_leaveShotQueue (s : State) (r : ShotRef) (n : BankNo) (c : Camera) :
    (s.leaveShotQueue r).strobeOutcome n c = s.strobeOutcome n c := rfl

end Outcome

/-! ## A shot fired (R102) -/

section Fired

variable {s : State} {r : ShotRef} {b : BankNo} {k : Shot} {slot : SlotNo} {o : StrobeOutcome}

/-- The lower-numbered free slot (R102). -/
theorem freeSlot_some {l : CameraLine} (hfree : l.slots[slot] = none)
    (hlow : slot = 1 → l.slots[(0 : SlotNo)] ≠ none) : l.freeSlot = some slot := by
  unfold CameraLine.freeSlot
  match slot with
  | 0 => exact if_pos hfree
  | 1 => exact (if_neg (hlow rfl)).trans (if_pos hfree)

/-- A shot that passes the first five checks is left to the sixth (R90, R97). -/
theorem fireChecks_fires {tm : Timing} (htm : k.timing = some tm) (hcapture : tm.captureAllowed = true)
    (hidle : s.fire[k.camera].busy = none) (hfire : MayFire s k slot) (ho : s.strobeOutcome b k.camera = o)
    (hskip : o ≠ .skip) : s.fireChecks b k = .ok o := by
  rw [fireChecks_captured htm hcapture, if_neg (not_not.2 hfire.line), hidle,
    if_neg (by exact Bool.false_ne_true), hfire.slot, if_neg (by exact Bool.false_ne_true), hfire.room,
    if_neg (by exact Bool.false_ne_true.symm), ho]
  cases o with
  | skip => exact absurd rfl hskip
  | noStrobe | opens | joins | unlit => rfl

theorem handOver_fires {p : Passage} (hp : s.passage? r.passage = some p) (hk : s.shot? r = some k)
    (hfire : MayFire s k slot) (hchecks : (s.leaveShotQueue r).fireChecks p.bank k = .ok o) :
    s.handOver r = (firedInto (s.leaveShotQueue r) r p.bank k o slot).grantAll := by
  have hp' : (s.leaveShotQueue r).passage? r.passage = some p := hp
  have hk' : (s.leaveShotQueue r).shot? r = some k := hk
  have hfire' : MayFire (s.leaveShotQueue r) k slot := ⟨hfire.line, hfire.slot, hfire.room⟩
  unfold State.handOver State.decideShot
  rw [hp', hk']
  dsimp only
  rw [hchecks]
  exact fireShot_eq hfire' p.bank o

/-- What firing writes, block by block (R102 to R106). -/
theorem firedInto_eq (s : State) (r : ShotRef) (b : BankNo) (k : Shot) (o : StrobeOutcome) (slot : SlotNo) :
    firedInto s r b k o slot = { s with
      memory := s.memory.reserve r k.segmentsExpected
      lines := setAt s.lines k.camera (s.lines[k.camera].setSlot slot (some r))
      fire := setAt s.fire k.camera ⟨some (s.after ((k.timing.map (·.exposureWidth)).getD 0)),
        some (s.after (max ((s.bank b).cameras[k.camera]).deadTime.toNat
          ((k.timing.map (·.exposureWidth)).getD 0)))⟩
      strobes := (s.openFlash r k o).strobes
      readout := { s.readout with queue := s.readout.queue ++ [r] }
      table := (s.modifyShot r (fun q => q.fired s.now o)).table } := by
  cases o <;> rfl

/-- The strobe outcome of a fired shot, with what it records and what it leaves of the strobe banks (R97 to R100,
R105). -/
structure Lights (s : State) (r : ShotRef) (b : BankNo) (k : Shot) (o : StrobeOutcome) (lighting : Lighting)
    (sharing : Option FlashSharing) (strobes : Vector StrobeBank 4) : Prop where
  outcome : s.strobeOutcome b k.camera = o
  fires : o ≠ .skip
  lighting : o.lighting = lighting
  sharing : o.sharing = sharing
  strobes : (s.openFlash r k o).strobes = strobes

end Fired

/-- A due shot that passes the checks fires: the outcome of the strobe control decides its lighting, the rest is what
firing writes (R86, R90, R102). -/
theorem handOver_passed {s : State} {r : ShotRef} {p : Passage} {k : Shot} {tm : Timing} {slot : SlotNo}
    {o : StrobeOutcome} {lighting : Lighting} {sharing : Option FlashSharing} {strobes : Vector StrobeBank 4}
    (hp : s.passage? r.passage = some p) (hk : s.shot? r = some k) (htm : k.timing = some tm)
    (hcapture : tm.captureAllowed = true) (hidle : s.fire[k.camera].busy = none) (hfire : MayFire s k slot)
    (ho : Lights s r p.bank k o lighting sharing strobes) :
    s.handOver r = State.grantAll { s with
      shotQueue := s.shotQueue.filter (· != r)
      memory := { s.memory with reservations := s.memory.reservations ++ [⟨r, k.segmentsExpected⟩] }
      lines := setAt s.lines k.camera { s.lines[k.camera] with
        slots := setAt s.lines[k.camera].slots slot (some r) }
      fire := setAt s.fire k.camera ⟨some (s.clock.elapsed + tm.exposureWidth),
        some (s.clock.elapsed + max ((s.bank p.bank).cameras[k.camera]).deadTime.toNat tm.exposureWidth)⟩
      strobes := strobes
      readout := { s.readout with queue := s.readout.queue ++ [r] }
      table := (s.modifyShot r (fun q : Shot => { q with
        state := .held, actualFire := some s.clock.time
        lateness := (timeDiff s.clock.time (q.plannedFire.getD s.clock.time)).toNat
        lighting := some lighting, sharing := sharing })).table } := by
  have hchecks : (s.leaveShotQueue r).fireChecks p.bank k = .ok o :=
    fireChecks_fires (slot := slot) htm hcapture hidle ⟨hfire.line, hfire.slot, hfire.room⟩
      ((strobeOutcome_leaveShotQueue s r p.bank k.camera).trans ho.outcome) ho.fires
  have hstrobes : ((s.leaveShotQueue r).openFlash r k o).strobes = strobes := by
    rw [← ho.strobes]
    cases o <;> rfl
  rw [handOver_fires hp hk hfire hchecks, firedInto_eq, hstrobes, htm, ← ho.lighting, ← ho.sharing]
  rfl

end Sys2Proof.Proofs


/-! PROOFS. The grant of readout channels (R112, R119 to R121), and O47. -/

namespace Sys2Proof.Proofs

open Sys2Proof.Machine

/-! ## Grants are repeated until none is left (R120) -/

/-- The number of idle channels. -/
def idleChannels (s : State) : Nat := s.readout.channels.countP (·.isNone)

theorem idleChannel_none_iff {s : State} :
    s.idleChannel = none ↔ ∀ ch : ChannelNo, s.readout.channels[ch] ≠ none := by
  unfold State.idleChannel
  simp

theorem grantOne_of_none {s : State} (h : s.idleChannel = none ∨ s.nextTaken = none) : s.grantOne = s := by
  unfold State.grantOne
  split
  · next hch hr =>
    rw [hch, hr] at h
    rcases h with h | h <;> cases h
  · rfl

theorem grantOne_some {s : State} {ch : ChannelNo} {r : ShotRef} {c : Camera} (hch : s.idleChannel = some ch)
    (hr : s.nextTaken = some r) (hc : s.cameraOf r = some c) : s.grantOne = s.grant ch r c := by
  unfold State.grantOne
  rw [hch, hr]
  dsimp only
  rw [hc]

theorem pendRead_readout (s : State) (c : Camera) (w : ChannelWork) : (s.pendRead c w).readout = s.readout := by
  unfold State.pendRead
  split <;> rfl

/-- A grant makes its channel busy and leaves the others as they are (R120). -/
theorem grant_channels (s : State) (ch : ChannelNo) (r : ShotRef) (c : Camera) :
    ∃ w, (s.grant ch r c).readout.channels = setAt s.readout.channels ch (some w) :=
  ⟨_, congrArg Readout.channels (pendRead_readout _ _ _)⟩

theorem idleChannels_grant {s : State} {ch : ChannelNo} (h : s.readout.channels[ch] = none) (r : ShotRef)
    (c : Camera) : idleChannels (s.grant ch r c) < idleChannels s := by
  obtain ⟨w, hw⟩ := grant_channels s ch r c
  have hidle : s.readout.channels[ch.val].isNone = true := Option.isNone_iff_eq_none.2 h
  have hpos : 0 < s.readout.channels.countP (·.isNone) :=
    Vector.countP_pos_iff.2 ⟨_, Vector.getElem_mem ch.isLt, hidle⟩
  unfold idleChannels
  rw [hw]
  unfold setAt
  rw [Vector.countP_set, if_pos hidle]
  simp only [Option.isNone_some, Bool.false_eq_true, if_false]
  omega

/-- A grant takes an idle channel, or nothing happens (R120). -/
theorem grantOne_cases (s : State) : s.grantOne = s ∨ idleChannels s.grantOne < idleChannels s := by
  unfold State.grantOne
  split
  · next ch r hch _ =>
    split
    · exact .inr (idleChannels_grant (idleChannel_idle hch) r _)
    · exact .inl rfl
  · exact .inl rfl

/-- As many grants as channels are idle leave no grant. -/
theorem grantOne_iterate {n : Nat} {s : State} (h : idleChannels s ≤ n) :
    State.grantOne^[n + 1] s = State.grantOne^[n] s := by
  induction n generalizing s with
  | zero =>
    rcases grantOne_cases s with hfix | hless
    · exact hfix
    · omega
  | succ n ih =>
    rcases grantOne_cases s with hfix | hless
    · rw [Function.iterate_fixed hfix, Function.iterate_fixed hfix]
    · exact ih (by omega)

/-- There are four channels, so the grants behind the first are those of the state it leaves (R120). -/
theorem grantAll_grantOne (s : State) : s.grantAll = s.grantOne.grantAll :=
  (grantOne_iterate (n := 4) Vector.countP_le_size).symm

theorem grantAll_of_none {s : State} (h : s.idleChannel = none ∨ s.nextTaken = none) : s.grantAll = s :=
  Function.iterate_fixed (grantOne_of_none h) 4

/-! ## The channel and the shot of a grant (R120) -/

section Taken

variable {s : State} {r : ShotRef}

theorem idleChannel_some {ch : ChannelNo} (hidle : s.readout.channels[ch] = none)
    (hlow : ∀ j : ChannelNo, j < ch → s.readout.channels[j] ≠ none) : s.idleChannel = some ch := by
  refine List.find?_eq_some_iff_getElem.2 ⟨Option.isNone_iff_eq_none.2 hidle, ch.val, ?_, ?_, fun j hj => ?_⟩
  · rw [List.length_finRange]
    exact ch.isLt
  · rw [List.getElem_finRange]
    rfl
  · rw [List.getElem_finRange]
    simpa [Option.isSome_iff_ne_none] using hlow ⟨j, by omega⟩ hj

theorem mayTake_iff : s.mayTake r = true ↔ ∃ k, s.shot? r = some k ∧ s.serving? k.camera = none := by
  unfold State.mayTake State.cameraOf
  cases s.shot? r <;> simp

theorem slotWaiting_iff {c : Camera} {slot : SlotNo} : s.slotWaiting c slot = true ↔ ∃ x,
    s.lines[c].slots[slot] = some x ∧ ∀ y, s.shot? x = some y → y.state ≠ .reading := by
  unfold State.slotWaiting State.shotState
  cases s.lines[c].slots[slot] <;> simp

theorem shotPressed_iff : s.shotPressed r = true ↔ ∃ k, s.shot? r = some k ∧ ∀ slot : SlotNo, ∃ x,
    s.lines[k.camera].slots[slot] = some x ∧ ∀ y, s.shot? x = some y → y.state ≠ .reading := by
  unfold State.shotPressed State.cameraOf
  cases s.shot? r with
  | none => simp
  | some k =>
    simp only [Option.map_some, Bool.and_eq_true, slotWaiting_iff, Option.some.injEq, exists_eq_left',
      Fin.forall_fin_two]

theorem nextTaken_none (h : ∀ q ∈ s.readout.queue, ¬ s.mayTake q = true) : s.nextTaken = none := by
  unfold State.nextTaken
  rw [List.filter_eq_nil_iff.2 h]
  rfl

/-- The oldest shot of a pressed camera comes first (R120). -/
theorem nextTaken_pressed {before after : List ShotRef} (hqueue : s.readout.queue = before ++ r :: after)
    (hmay : s.mayTake r = true) (hpressed : s.shotPressed r = true)
    (hfirst : ∀ q ∈ before, ¬ (s.mayTake q = true ∧ s.shotPressed q = true)) : s.nextTaken = some r := by
  have hfound : (s.readout.queue.filter s.mayTake).find? s.shotPressed = some r := by
    rw [List.find?_filter]
    refine List.find?_eq_some_iff_append.2 ⟨by simp [hmay, hpressed], before, after, hqueue, fun q hq => ?_⟩
    rw [Bool.not_eq_true', decide_eq_false_iff_not]
    exact hfirst q hq
  unfold State.nextTaken
  dsimp only
  rw [hfound]
  rfl

/-- Without a pressed camera the oldest shot that may be taken is (R120). -/
theorem nextTaken_oldest {before after : List ShotRef} (hqueue : s.readout.queue = before ++ r :: after)
    (hmay : s.mayTake r = true) (hnone : ∀ q ∈ s.readout.queue, s.mayTake q = true → ¬ s.shotPressed q = true)
    (hfirst : ∀ q ∈ before, ¬ s.mayTake q = true) : s.nextTaken = some r := by
  have hpressed : (s.readout.queue.filter s.mayTake).find? s.shotPressed = none :=
    List.find?_eq_none.2 (fun q hq => hnone q (List.mem_filter.1 hq).1 (List.mem_filter.1 hq).2)
  have holdest : (s.readout.queue.filter s.mayTake).head? = some r := by
    rw [List.head?_filter]
    exact List.find?_eq_some_iff_append.2 ⟨hmay, before, after, hqueue, fun q hq => by simpa using hfirst q hq⟩
  unfold State.nextTaken
  dsimp only
  rw [hpressed, holdest]
  rfl

end Taken

/-! ## The state a grant leaves (R120, R121) -/

theorem draw_page (m : FrameMemory) (r : ShotRef) (segment : Nat) : (m.draw r segment).2 = m.lowestFree := by
  unfold FrameMemory.draw
  split
  · next h => exact h.symm
  · next h => exact h.symm

/-- A granted shot leaves the queue and is READING, its first page is drawn, and its first READ is placed (R120,
R121). -/
theorem grant_eq {s : State} {r : ShotRef} {k : Shot} {slot : SlotNo} (ch : ChannelNo) (hk : s.shot? r = some k)
    (hslot : s.lines[k.camera].slotOf r = some slot) : s.grant ch r k.camera = { s with
      readout := ⟨s.readout.queue.filter (· != r),
        setAt s.readout.channels ch (some ⟨r, 0, 0, .read, s.memory.lowestFree⟩)⟩
      memory := (s.memory.draw r 0).1
      table := (s.modifyShot r (fun q : Shot => { q with state := .reading })).table
      lines := setAt s.lines k.camera
        (placedLine s.lines[k.camera] (.read slot 0 (1 = k.segmentsExpected)) s.clock.elapsed) } := by
  set w : ChannelWork := ⟨r, 0, 0, .read, s.memory.lowestFree⟩ with hw
  set v : State := (((s.leaveReadoutQueue r).modifyShot r (fun q => { q with state := .reading })).setMemory
    (s.memory.draw r 0).1).setChannel ch (some w) with hv
  have hshot : v.shot? r = some { k with state := .reading } :=
    shot?_modifyShot_self (s := s.leaveReadoutQueue r) hk _
  have hgrant : s.grant ch r k.camera = v.placeOrder k.camera (.read slot 0 (1 = k.segmentsExpected)) := by
    have hpend : v.pendRead k.camera w = v.pendOrder k.camera (.read slot 0 (1 = k.segmentsExpected)) :=
      pendRead_eq (w := w) (k := { k with state := .reading }) hslot hshot
    unfold State.placeOrder
    rw [← hpend, hv, hw, ← draw_page s.memory r 0]
    rfl
  rw [hgrant, placeOrder_eq]
  rfl

/-! ## A READ placed on a line (R112, R116) -/

section PlacedRead

variable {l : CameraLine} {slot : SlotNo} {segment : Nat} {release : Bool}

/-- A READ joins the pending orders of a line on which none is wanted (R112). -/
theorem pend_read_eq (h : l.readWanted = none) (slot : SlotNo) (segment : Nat) (release : Bool) :
    l.pend (.read slot segment release)
      = { l with orders := { l.orders with read := some ⟨slot, segment, release⟩ } } := by
  obtain hsame | ⟨-, -, hadded⟩ := pend_cases l (.read slot segment release)
  · have hread := pend_read_readWanted h slot segment release
    rw [hsame, h] at hread
    cases hread
  · exact hadded

theorem readWanted_none (hpending : l.orders.read = none)
    (hout : ∀ o, l.outstanding = some o → o.ignored = true ∨ ∀ a b c, o.order ≠ .read a b c) :
    l.readWanted = none := by
  unfold CameraLine.readWanted
  rw [hpending]
  split
  · next ho =>
    rcases hout _ ho with hignored | hother
    · cases hignored
    · exact absurd rfl (hother _ _ _)
  · rfl

/-- Behind an order in flight the READ waits (R112). -/
theorem placedLine_read_waits {o : Outstanding} (h : l.readWanted = none) (ho : l.outstanding = some o)
    (elapsed : Nat) : placedLine l (.read slot segment release) elapsed
      = { l with orders := { l.orders with read := some ⟨slot, segment, release⟩ } } := by
  unfold placedLine CameraLine.issue
  rw [pend_read_eq h]
  dsimp only
  rw [ho]

/-- A free line issues the first of its pending orders (R112, R116). -/
theorem placedLine_read_issues {order : Order} {rest : PendingOrders} (h : l.readWanted = none)
    (hfree : l.outstanding = none)
    (hnext : ({ l.orders with read := some ⟨slot, segment, release⟩ } : PendingOrders).next = some (order, rest))
    (elapsed : Nat) : placedLine l (.read slot segment release) elapsed = { l with
      orders := rest, outstanding := some ⟨order, elapsed + orderTimeoutLength order, false⟩ } := by
  unfold placedLine CameraLine.issue
  rw [pend_read_eq h]
  dsimp only
  rw [hfree, hnext]

end PlacedRead

/-! ## The priority of pending orders (R112) -/

section Priority

variable {p : PendingOrders}

theorem next_relink (h : p.relink = true) : p.next = some (.relink, { p with relink := false }) := if_pos h

theorem next_discard0 (h : p.relink = false) (h0 : p.discard0 = true) :
    p.next = some (.discard 0, { p with discard0 := false }) := by
  unfold PendingOrders.next
  simp [h, h0]

theorem next_discard1 (h : p.relink = false) (h0 : p.discard0 = false) (h1 : p.discard1 = true) :
    p.next = some (.discard 1, { p with discard1 := false }) := by
  unfold PendingOrders.next
  simp [h, h0, h1]

theorem next_read {o : ReadOrder} (h : p.relink = false) (h0 : p.discard0 = false) (h1 : p.discard1 = false)
    (hr : p.read = some o) : p.next = some (.read o.slot o.segment o.release, { p with read := none }) := by
  unfold PendingOrders.next
  simp [h, h0, h1, hr]

end Priority

/-- Settles O47: the queue's first due shot is handed over; a shot that passes the checks fires with the outcome of
the strobe control; of the grants the first is spelled out, and no grant is left behind the last. -/
theorem dueShotFires : Obligations.DueShotFires := by
  refine ⟨fun s due hdue => ?_, ?_, fun s may pressed hmay hpressed => ?_⟩
  · have hiff : ∀ q, due q ↔ s.isDue q = true := fun q => (hdue q).trans isDue_iff.symm
    refine ⟨fun hnone => exec_shotDue_none (firstDue_none fun q hq => (hiff q).not.1 (hnone q hq)),
      fun before r after hqueue hr hfirst => exec_shotDue ?_⟩
    exact firstDue_some hqueue ((hiff r).1 hr) fun q hq => (hiff q).not.1 (hfirst q hq)
  · intro s r p k tm slot lighting sharing strobes e hp hk htm hcapture hline hidle ⟨hfree, hlow⟩ hroom he hcases
    have hfire : MayFire s k slot := ⟨hline, freeSlot_some hfree hlow, decide_eq_true hroom⟩
    obtain ⟨o, ho⟩ : ∃ o, Lights s r p.bank k o lighting sharing strobes := by
      subst he
      rcases hcases with ⟨hnone, rfl, rfl, rfl⟩ | ⟨b, se, hb, rfl, ⟨hready, rfl, rfl, rfl⟩
        | ⟨hrecharge, rfl, f, hflash, ⟨hopen, rfl, rfl⟩ | ⟨hclosed, hpolicy, rfl, rfl⟩⟩⟩
      · exact ⟨.noStrobe, strobeOutcome_noStrobe hnone, nofun, rfl, rfl, rfl⟩
      · refine ⟨.opens b (s.bank p.bank).strobes[b], strobeOutcome_opens hb hready, nofun, rfl, rfl, ?_⟩
        unfold State.openFlash
        rw [htm]
        rfl
      · exact ⟨.joins f, strobeOutcome_joins hb hrecharge hflash hopen, nofun, rfl, rfl, rfl⟩
      · exact ⟨.unlit, strobeOutcome_unlit hb hrecharge hflash hclosed hpolicy, nofun, rfl, rfl, rfl⟩
    subst he
    exact ⟨_, handOver_passed hp hk htm hcapture hidle hfire ho,
      rfl, rfl, rfl, rfl, rfl, rfl, rfl, rfl, rfl, rfl, rfl⟩
  · have hmay' : ∀ q, may q ↔ s.mayTake q = true := fun q => (hmay q).trans mayTake_iff.symm
    have hpressed' : ∀ q, pressed q ↔ s.shotPressed q = true := fun q => (hpressed q).trans shotPressed_iff.symm
    simp only [hmay', hpressed']
    refine ⟨fun hnone => grantAll_of_none (hnone.imp idleChannel_none_iff.2 nextTaken_none), ?_⟩
    intro ch before after r k l slot hidle hlowest hqueue hr hchoice hk hl hslot hread
    subst hl
    have hnext : s.nextTaken = some r := by
      rcases hchoice with ⟨hpr, hfirst⟩ | ⟨hnone, hfirst⟩
      · exact nextTaken_pressed hqueue hr hpr hfirst
      · exact nextTaken_oldest hqueue hr hnone hfirst
    have hgrant := grantOne_some (idleChannel_some hidle hlowest) hnext (cameraOf_found hk)
    rw [grant_eq ch hk hslot] at hgrant
    refine ⟨s.grantOne, grantAll_grantOne s, ?_⟩
    rw [hgrant]
    refine ⟨rfl, rfl, rfl, fun j hj => getElem_setAt_ne _ _ _ _ hj, ?_, rfl, rfl, rfl, rfl, rfl, rfl, rfl⟩
    rintro placed rfl
    refine ⟨fun o ho hother => (getElem_setAt_self _ _ _).trans ?_,
      fun hfree order length rest horder => (getElem_setAt_self _ _ _).trans ?_⟩
    · exact placedLine_read_waits
        (readWanted_none hread fun x hx => Option.some.inj (ho.symm.trans hx) ▸ hother) ho _
    · have hwanted := readWanted_none hread fun x hx => by rw [hfree] at hx; cases hx
      rcases horder with ⟨h, rfl, rfl, rfl⟩ | ⟨h, h0, rfl, rfl, rfl⟩ | ⟨h, h0, h1, rfl, rfl, rfl⟩
        | ⟨h, h0, h1, rfl, rfl, rfl⟩
      · exact placedLine_read_issues hwanted hfree (next_relink h) _
      · exact placedLine_read_issues hwanted hfree (next_discard0 h h0) _
      · exact placedLine_read_issues hwanted hfree (next_discard1 h h0 h1) _
      · refine (placedLine_read_issues hwanted hfree (next_read h h0 h1 rfl) _).trans ?_
        rw [← hread]
        rfl

end Sys2Proof.Proofs


/-! PROOFS. Orders on a line that is free (R112, R127), and the requests of the camera lines: CAMERA SERVICE (R117,
R118, R127, R128, R131) and CAMERA SENSE (R112, R116, R130, R183). -/

namespace Sys2Proof.Proofs

open Sys2Proof.Machine

/-! ## Orders on a free line (R112, R127) -/

section FreeLine

variable {l : CameraLine}

theorem add_of_has {p : PendingOrders} {o : Order} (ho : ∀ slot segment release, o ≠ .read slot segment release)
    (h : p.has o = true) : p.add o = p := by
  obtain ⟨relink, discard0, discard1, read, sense⟩ := p
  cases o with
  | relink => obtain rfl : relink = true := h; rfl
  | sense => obtain rfl : sense = true := h; rfl
  | read slot segment release => exact absurd rfl (ho slot segment release)
  | discard slot =>
    match slot, h with
    | 0, h => obtain rfl : discard0 = true := h; rfl
    | 1, h => obtain rfl : discard1 = true := h; rfl

/-- A placed RELINK, DISCARD or SENSE that no order in flight shares is pending, whether it was so before or not
(R112). -/
theorem pend_unshared {o : Order} (h : l.sharesOutstanding o = false)
    (ho : ∀ slot segment release, o ≠ .read slot segment release) :
    l.pend o = { l with orders := l.orders.add o } := by
  unfold CameraLine.pend
  rw [h, Bool.or_false]
  split
  · next hhas => rw [add_of_has ho hhas]
  · rfl

theorem pend_free (h : l.outstanding = none) {o : Order}
    (ho : ∀ slot segment release, o ≠ .read slot segment release) :
    l.pend o = { l with orders := l.orders.add o } := by
  refine pend_unshared ?_ ho
  unfold CameraLine.sharesOutstanding
  rw [h]

theorem issue_waits {o : Outstanding} (h : l.outstanding = some o) (elapsed : Nat) : l.issue elapsed = l := by
  unfold CameraLine.issue
  rw [h]

/-- A free line issues the first of its pending orders (R112, R116). -/
theorem issue_next {order : Order} {rest : PendingOrders} (h : l.outstanding = none)
    (hnext : l.orders.next = some (order, rest)) (elapsed : Nat) : l.issue elapsed = { l with
      orders := rest, outstanding := some ⟨order, elapsed + orderTimeoutLength order, false⟩ } := by
  unfold CameraLine.issue
  rw [h, hnext]

theorem enterLinking_waits {o : Outstanding} (h : l.outstanding = some o) (byRestart : Bool) :
    l.enterLinking byRestart = { l with linking := some (.waiting byRestart) } := by
  unfold CameraLine.enterLinking
  rw [h]

theorem enterLinking_free (h : l.outstanding = none) (byRestart : Bool) :
    l.enterLinking byRestart = l.startLinking byRestart := by
  unfold CameraLine.enterLinking
  rw [h]

/-- The linking sequence of a free line starts with a RELINK, after a RESTART with the DISCARD of slot 0 (R127). -/
theorem startLinking_relink (h : l.outstanding = none) : l.startLinking false
    = { l with orders := { l.orders with relink := true }, linking := some .relink } := by
  change { l.pend .relink with linking := some .relink } = _
  rw [pend_free h (by simp)]
  rfl

theorem startLinking_discard (h : l.outstanding = none) : l.startLinking true
    = { l with orders := { l.orders with discard0 := true }, linking := some (.restartDiscard 0) } := by
  change { l.pend (.discard 0) with linking := some (.restartDiscard 0) } = _
  rw [pend_free h (by simp)]
  rfl

/-- The first order of the linking sequence of a free line, RELINK first (R112, R127). -/
theorem startLinking_issues_relink {l : CameraLine} (h : l.outstanding = none) (elapsed : Nat) :
    (l.startLinking false).issue elapsed = { l with
      orders := { l.orders with relink := false }, linking := some .relink
      outstanding := some ⟨.relink, elapsed + 500000, false⟩ } := by
  rw [startLinking_relink h]
  refine issue_next ?_ (next_relink ?_) _
  · exact h
  · rfl

theorem startLinking_issues_discard {l : CameraLine} (h : l.outstanding = none) (hrelink : l.orders.relink = false)
    (elapsed : Nat) : (l.startLinking true).issue elapsed = { l with
      orders := { l.orders with discard0 := false }, linking := some (.restartDiscard 0)
      outstanding := some ⟨.discard 0, elapsed + 50000, false⟩ } := by
  rw [startLinking_discard h]
  refine issue_next ?_ (next_discard0 ?_ ?_) _
  · exact h
  · exact hrelink
  · rfl

theorem startLinking_issues_pending {l : CameraLine} (h : l.outstanding = none) (hrelink : l.orders.relink = true)
    (elapsed : Nat) : (l.startLinking true).issue elapsed = { l with
      orders := { l.orders with relink := false, discard0 := true }, linking := some (.restartDiscard 0)
      outstanding := some ⟨.relink, elapsed + 500000, false⟩ } := by
  rw [startLinking_discard h]
  refine issue_next ?_ (next_relink ?_) _
  · exact h
  · exact hrelink

end FreeLine

section LineRequests

variable {s : State} {b on : Byte} {c : Camera}

theorem cameraOfByte_bad (h : 12 ≤ b.toNat) : cameraOfByte b = none := dif_neg (Nat.not_lt.2 h)

/-! ## CAMERA SERVICE: refusals and off -/

theorem cameraService_badLine (h : 12 ≤ b.toNat) : s.cameraService b on = (s, .refused .badArgument) := by
  unfold State.cameraService
  rw [cameraOfByte_bad h]

theorem cameraService_badSwitch (h : b.toNat = c.val) (hon : 1 < on.toNat) :
    s.cameraService b on = (s, .refused .badArgument) := by
  unfold State.cameraService
  rw [cameraOfByte_good h]
  dsimp only
  split
  · next h0 => omega
  · next h1 => omega
  · rfl

theorem cameraService_off (h : b.toNat = c.val) : s.cameraService b 0 = (s.serviceOff c).serviceAnswer c := by
  unfold State.cameraService
  rw [cameraOfByte_good h]
  rfl

theorem serviceOff_inService (h : s.lines[c].state = .inService) :
    s.serviceOff c = (s.setLine c { s.lines[c] with state := .outOfService, disableMark := false }).queueNotice
      (.cameraState c .inService .outOfService .service s.lines[c].accumulated 0) := by
  unfold State.serviceOff State.changeLine
  simp only [h]

theorem serviceOff_other (h : s.lines[c].state ≠ .inService) : s.serviceOff c = s := by
  unfold State.serviceOff
  split
  · next hs => exact absurd hs h
  all_goals rfl

/-- The answer carries the line's state (R128). -/
theorem serviceAnswer_eq {st : LineState} (h : s.lines[c].state = st) :
    s.serviceAnswer c = (s, .done [BitVec.ofNat 8 st.toCode]) := by
  unfold State.serviceAnswer
  rw [h, byteOf_eq]

/-! ## CAMERA SERVICE: on -/

theorem cameraService_noTables (h : b.toNat = c.val) (hnone : s.activeContents = none) :
    s.cameraService b 1 = (s, .refused .noTables) := by
  unfold State.cameraService
  rw [cameraOfByte_good h, hnone]
  rfl

theorem cameraService_notFitted {bank : Bank} (h : b.toNat = c.val) (hbank : s.activeContents = some bank)
    (hfitted : (bank.cameras[c]).fitted = false) : s.cameraService b 1 = (s, .refused .notFitted) := by
  unfold State.cameraService
  rw [cameraOfByte_good h, hbank]
  exact if_neg (by rw [hfitted]; decide)

theorem cameraService_on {bank : Bank} (h : b.toNat = c.val) (hbank : s.activeContents = some bank)
    (hfitted : (bank.cameras[c]).fitted = true) : s.cameraService b 1 = (s.serviceOn c).serviceAnswer c := by
  unfold State.cameraService
  rw [cameraOfByte_good h, hbank]
  exact if_pos hfitted

theorem serviceOn_links (h : s.lines[c].state = .outOfService ∨ s.lines[c].state = .down) :
    s.serviceOn c = s.beginLinking c .service := by
  unfold State.serviceOn
  rcases h with h | h <;> rw [h]

theorem serviceOn_other (h : s.lines[c].state ≠ .outOfService) (hdown : s.lines[c].state ≠ .down) :
    s.serviceOn c = s := by
  unfold State.serviceOn
  split
  · next hs => exact absurd hs h
  · next hs => exact absurd hs hdown
  all_goals rfl

/-- A line that has just gone to LINKING (R117, R118). -/
def lineLinking (l : CameraLine) : CameraLine := { l with accumulated := 0, state := .linking, disableMark := false }

/-- The line after `beginLinking` (R127 to R129). -/
theorem beginLinking_line (s : State) (c : Camera) (why : LineCause) :
    (s.beginLinking c why).lines[c] = ((lineLinking s.lines[c]).enterLinking false).issue s.clock.elapsed := by
  unfold State.beginLinking State.changeLine State.issueOrder
  simp only [lines_setLine, setLine_setLine, queueNotice_setLine, State.queueNotice_lines, State.queueNotice_clock,
    State.setLine_clock]
  rfl

/-- The linking sequence waits for the order in flight (R127). -/
theorem beginLinking_waits {o : Outstanding} (h : s.lines[c].outstanding = some o) (why : LineCause) :
    (s.beginLinking c why).lines[c]
      = { lineLinking s.lines[c] with linking := some (.waiting false) } := by
  rw [beginLinking_line, enterLinking_waits (l := lineLinking s.lines[c]) h]
  exact issue_waits (l := { lineLinking s.lines[c] with linking := some (.waiting false) }) h _

/-- A free line issues the RELINK of the linking sequence at once (R127). -/
theorem beginLinking_relinks (h : s.lines[c].outstanding = none) (why : LineCause) :
    (s.beginLinking c why).lines[c] = { lineLinking s.lines[c] with
      linking := some .relink
      orders := { s.lines[c].orders with relink := false }
      outstanding := some ⟨.relink, s.clock.elapsed + 500000, false⟩ } := by
  have hfree : (lineLinking s.lines[c]).outstanding = none := h
  rw [beginLinking_line, enterLinking_free hfree]
  exact startLinking_issues_relink hfree _

theorem beginLinking_cleared (s : State) (c : Camera) (why : LineCause) :
    (s.beginLinking c why).lines[c].accumulated = 0 ∧ (s.beginLinking c why).lines[c].disableMark = false := by
  cases h : s.lines[c].outstanding with
  | none => rw [beginLinking_relinks h]; exact ⟨rfl, rfl⟩
  | some o => rw [beginLinking_waits h]; exact ⟨rfl, rfl⟩

/-- Settles O26: the refusals in order, then off and on by the line's state. -/
theorem cameraServiceRequest : Obligations.CameraServiceRequest := by
  intro s tag b on hready
  have answers : ∀ {x : State × Answer}, s.cameraService b on = x →
      exec (.cameraService tag b on) s = .next (State.reply x tag 0x0601).endEvent :=
    fun h => request_answers hready rfl (congrArg (State.reply · tag 0x0601) h)
  refine ⟨fun hbad => answers (cameraService_badLine hbad), fun c hc => ⟨fun hon => ?_, ?_, ?_, ?_, ?_⟩⟩
  · exact answers (cameraService_badSwitch hc hon)
  · rintro rfl hstate
    have hoff := cameraService_off (s := s) hc
    rw [serviceOff_inService hstate, serviceAnswer_eq (st := .outOfService)
      (by rw [State.queueNotice_lines, lines_setLine])] at hoff
    exact answers hoff
  · rintro rfl hstate
    have hoff := cameraService_off (s := s) hc
    rw [serviceOff_other hstate, serviceAnswer_eq rfl] at hoff
    exact answers hoff
  · rintro rfl hnone
    exact answers (cameraService_noTables hc hnone)
  · rintro bank rfl hbank
    refine ⟨fun hfitted => answers (cameraService_notFitted hc hbank hfitted), fun hfitted hout hdown => ?_,
      fun hfitted hstate => ?_⟩
    · have hon := cameraService_on hc hbank hfitted
      rw [serviceOn_other hout hdown, serviceAnswer_eq rfl] at hon
      exact answers hon
    · obtain ⟨⟨hsame, htable, hreadout, hmemory⟩, hothers, hlinking, hslots⟩ := beginLinking_facts s c .service
      obtain ⟨hcleared, hunmarked⟩ := beginLinking_cleared s c .service
      have hon := cameraService_on hc hbank hfitted
      rw [serviceOn_links hstate, serviceAnswer_eq hlinking] at hon
      refine ⟨s.beginLinking c .service, answers hon, hlinking, hcleared, hunmarked, hslots, fun o ho => ?_,
        fun hfree => ?_, hothers, hsame.clock, hsame.tracks, htable, hsame.shotQueue, hsame.fire, hsame.strobes,
        hreadout, hmemory, hsame.banks⟩
      · rw [beginLinking_waits ho]
        exact ⟨ho, rfl⟩
      · rw [beginLinking_relinks hfree]
        exact ⟨rfl, rfl⟩

/-! ## CAMERA SENSE (R130) -/

theorem takeCameraSense_refused {d : Detail} (tag : Byte) (h : s.senseLine b = .error d) :
    s.takeCameraSense tag b = s.placeAnswer tag 0x0602 (.refused d) := by
  unfold State.takeCameraSense
  rw [h]

theorem senseLine_badLine (h : 12 ≤ b.toNat) : s.senseLine b = .error .badArgument := by
  unfold State.senseLine
  rw [cameraOfByte_bad h]

theorem senseLine_down (h : b.toNat = c.val) (hstate : s.lines[c].state = .down ∨ s.lines[c].state = .unlinked) :
    s.senseLine b = .error .cameraDown := by
  unfold State.senseLine
  rw [cameraOfByte_good h]
  rcases hstate with hs | hs <;> simp only [hs]

theorem senseLine_up (h : b.toNat = c.val) (hdown : s.lines[c].state ≠ .down)
    (hunlinked : s.lines[c].state ≠ .unlinked) : s.senseLine b = .ok c := by
  unfold State.senseLine
  rw [cameraOfByte_good h]
  dsimp only
  split
  · next hs => exact absurd hs hdown
  · next hs => exact absurd hs hunlinked
  all_goals rfl

/-- A CAMERA SENSE that is not refused stays in progress, its SENSE placed on the line (R130, R183). -/
theorem takeCameraSense_placed (tag : Byte) (h : s.senseLine b = .ok c) : s.takeCameraSense tag b = { s with
    link := { s.link with inProgress := some (.cameraSense tag c) }
    lines := setAt s.lines c (placedLine s.lines[c] .sense s.clock.elapsed) } := by
  unfold State.takeCameraSense
  rw [h]
  exact placeOrder_eq _ c .sense

theorem next_sense {p : PendingOrders} (h : p.relink = false) (h0 : p.discard0 = false) (h1 : p.discard1 = false)
    (hr : p.read = none) (hs : p.sense = true) : p.next = some (.sense, { p with sense := false }) := by
  unfold PendingOrders.next
  simp [h, h0, h1, hr, hs]

/-- A line without orders issues the SENSE at once (R112, R116). -/
theorem placedLine_sense_issues {l : CameraLine} (h : l.outstanding = none) (ho : l.orders = .none) (elapsed : Nat) :
    placedLine l .sense elapsed = { l with outstanding := some ⟨.sense, elapsed + 50000, false⟩ } := by
  obtain ⟨state, slots, orders, outstanding, accumulated, mark, linking⟩ := l
  obtain rfl : outstanding = none := h
  obtain rfl : orders = .none := ho
  rfl

/-- Behind an order of another kind the SENSE is pending (R112). -/
theorem placedLine_sense_waits {l : CameraLine} {o : Outstanding} (h : l.outstanding = some o)
    (ho : o.order ≠ .sense) (elapsed : Nat) :
    placedLine l .sense elapsed = { l with orders := { l.orders with sense := true } } := by
  have hother : l.sharesOutstanding .sense = false := by
    unfold CameraLine.sharesOutstanding Order.sameKind
    rw [h]
    cases hk : o.order with
    | sense => exact absurd hk ho
    | _ => simp [hk]
  unfold placedLine
  rw [pend_unshared hother (by simp)]
  exact issue_waits (l := { l with orders := l.orders.add .sense }) h elapsed

/-- A SENSE in flight whose result is awaited is shared (R112). -/
theorem placedLine_sense_shared {l : CameraLine} {o : Outstanding} (h : l.outstanding = some o)
    (ho : o.order = .sense) (hwanted : o.ignored = false) (elapsed : Nat) : placedLine l .sense elapsed = l := by
  have hshared : l.sharesOutstanding .sense = true := by
    unfold CameraLine.sharesOutstanding
    rw [h]
    simp [ho, hwanted, Order.sameKind]
  unfold placedLine CameraLine.pend
  rw [hshared, Bool.or_true, if_pos rfl, issue_waits h]

/-- Settles O27: the two refusals, then the SENSE by what the line has in flight. -/
theorem cameraSenseRequest : Obligations.CameraSenseRequest := by
  intro s tag b hready
  have answers : ∀ {t : State}, s.takeCameraSense tag b = t →
      exec (.cameraSense tag b) s = .next t.endEvent := fun h => request_answers hready rfl h
  refine ⟨fun hbad => answers (takeCameraSense_refused tag (senseLine_badLine hbad)), fun c hc =>
    ⟨fun hstate => answers (takeCameraSense_refused tag (senseLine_down hc hstate)), fun hdown hunlinked => ?_⟩⟩
  have hframe := placedLine_frame s.lines[c] .sense s.clock.elapsed
  refine ⟨placedLine s.lines[c] .sense s.clock.elapsed,
    answers (takeCameraSense_placed tag (senseLine_up hc hdown hunlinked)), by rw [hframe], by rw [hframe],
    by rw [hframe], by rw [hframe], by rw [hframe], fun hfree horders => ?_, fun o ho hother => ?_,
    fun o ho hsense hwanted => placedLine_sense_shared ho hsense hwanted _⟩
  · rw [placedLine_sense_issues hfree horders]
    exact ⟨rfl, horders⟩
  · rw [placedLine_sense_waits ho hother]
    exact ⟨ho, rfl⟩

end LineRequests

end Sys2Proof.Proofs


/-! PROOFS. The ends of camera orders (R112, R116, R127, R133): which order an answer or a timeout ends, what a line
does next, and O56. -/

namespace Sys2Proof.Proofs

open Sys2Proof.Machine

section OrderEnds

variable {s : State} {c : Camera} {out : Outstanding} {issued : Nat}

/-! ## Answers and timeouts of the order in flight (R113 to R116) -/

theorem answered_of {l : CameraLine} (h : l.outstanding = some out)
    (hends : out.ends = issued + orderTimeoutLength out.order) : l.answered issued = some out := by
  unfold CameraLine.answered
  rw [h]
  exact (Option.filter_some ..).trans (if_pos (decide_eq_true hends))

/-- An answer finds the order in flight that was issued when it names. -/
theorem of_answered {l : CameraLine} (h : l.answered issued = some out) :
    l.outstanding = some out ∧ out.ends = issued + orderTimeoutLength out.order := by
  obtain ⟨hout, hends⟩ := Option.filter_eq_some_iff.1 h
  exact ⟨hout, of_decide_eq_true hends⟩

theorem exec_readComplete {slot : SlotNo} {segment : Nat} {release ignored : Bool}
    (h : s.lines[c].outstanding = some ⟨.read slot segment release, issued + 50000, ignored⟩) (bytes : List Byte)
    (check : BitVec 32) (outcome : ReadOutcome) (flags : FlagSet) :
    exec (.readComplete ⟨c, issued⟩ bytes check outcome flags) s
      = .next (s.endOrder c ⟨.read slot segment release, issued + 50000, ignored⟩
          (fun q => q.readAnswered c slot release bytes check outcome flags)).endEvent := by
  change execReadComplete ⟨c, issued⟩ bytes check outcome flags s = _
  unfold execReadComplete
  simp only [answered_of h rfl]

theorem exec_readComplete_unmatched
    (h : ∀ slot segment release ignored,
      s.lines[c].outstanding ≠ some ⟨.read slot segment release, issued + 50000, ignored⟩) (bytes : List Byte)
    (check : BitVec 32) (outcome : ReadOutcome) (flags : FlagSet) :
    exec (.readComplete ⟨c, issued⟩ bytes check outcome flags) s = .next s := by
  change execReadComplete ⟨c, issued⟩ bytes check outcome flags s = _
  unfold execReadComplete
  split
  · next slot segment release ends ignored heq =>
    obtain ⟨hout, hends⟩ := of_answered heq
    obtain rfl : ends = issued + 50000 := hends
    exact absurd hout (h slot segment release ignored)
  · rfl

theorem exec_discardComplete_ends {slot : SlotNo} {ignored : Bool}
    (h : s.lines[c].outstanding = some ⟨.discard slot, issued + 50000, ignored⟩) :
    exec (.discardComplete ⟨c, issued⟩) s = .next (s.endOrder c ⟨.discard slot, issued + 50000, ignored⟩
      (fun q => q.discardAnswered c slot)).endEvent := by
  change execDiscardComplete ⟨c, issued⟩ s = _
  unfold execDiscardComplete
  simp only [answered_of h rfl]

theorem exec_senseComplete {ignored : Bool}
    (h : s.lines[c].outstanding = some ⟨.sense, issued + 50000, ignored⟩) (flags : FlagSet) (full0 full1 : Bool) :
    exec (.senseComplete ⟨c, issued⟩ flags full0 full1) s
      = .next (s.endOrder c ⟨.sense, issued + 50000, ignored⟩
          (fun q => q.senseAnswered c flags full0 full1)).endEvent := by
  change execSenseComplete ⟨c, issued⟩ flags full0 full1 s = _
  unfold execSenseComplete
  simp only [answered_of h rfl]

theorem exec_senseComplete_unmatched
    (h : ∀ ignored, s.lines[c].outstanding ≠ some ⟨.sense, issued + 50000, ignored⟩) (flags : FlagSet)
    (full0 full1 : Bool) : exec (.senseComplete ⟨c, issued⟩ flags full0 full1) s = .next s := by
  change execSenseComplete ⟨c, issued⟩ flags full0 full1 s = _
  unfold execSenseComplete
  split
  · next ends ignored heq =>
    obtain ⟨hout, hends⟩ := of_answered heq
    obtain rfl : ends = issued + 50000 := hends
    exact absurd hout (h ignored)
  · rfl

theorem exec_relinkComplete {ignored : Bool}
    (h : s.lines[c].outstanding = some ⟨.relink, issued + 500000, ignored⟩) :
    exec (.relinkComplete ⟨c, issued⟩) s
      = .next (s.endOrder c ⟨.relink, issued + 500000, ignored⟩ (fun q => q.relinkAnswered c)).endEvent := by
  change execRelinkComplete ⟨c, issued⟩ s = _
  unfold execRelinkComplete
  simp only [answered_of h rfl]

theorem exec_relinkComplete_unmatched
    (h : ∀ ignored, s.lines[c].outstanding ≠ some ⟨.relink, issued + 500000, ignored⟩) :
    exec (.relinkComplete ⟨c, issued⟩) s = .next s := by
  change execRelinkComplete ⟨c, issued⟩ s = _
  unfold execRelinkComplete
  split
  · next ends ignored heq =>
    obtain ⟨hout, hends⟩ := of_answered heq
    obtain rfl : ends = issued + 500000 := hends
    exact absurd hout (h ignored)
  · rfl

theorem exec_orderTimeout (h : s.lines[c].outstanding = some out) (hends : out.ends ≤ s.clock.elapsed) :
    exec (.orderTimeout c) s = .next (s.endOrder c out (fun q => q.orderTimedOut c out.order)).endEvent := by
  change execOrderTimeout c s = _
  unfold execOrderTimeout
  rw [h]
  exact if_pos (decide_eq_true hends)

theorem exec_orderTimeout_early (h : s.lines[c].outstanding = some out) (hends : s.clock.elapsed < out.ends) :
    exec (.orderTimeout c) s = .next s := by
  change execOrderTimeout c s = _
  unfold execOrderTimeout
  rw [h]
  exact if_neg (fun hended => Nat.not_le.2 hends (of_decide_eq_true hended))

theorem exec_orderTimeout_idle (h : s.lines[c].outstanding = none) : exec (.orderTimeout c) s = .next s := by
  change execOrderTimeout c s = _
  unfold execOrderTimeout
  rw [h]

/-- An order that a RESTART cut off only ends (R133). -/
theorem endOrder_cutOff (h : out.ignored = true) (act : State → State) :
    s.endOrder c out act = (lineFreed s c).afterOrder c := by
  unfold State.endOrder
  dsimp only
  rw [if_pos h]
  rfl

/-- Every party acts on the end of an order, on a line that is free. -/
theorem endOrder_acts (h : out.ignored = false) (act : State → State) :
    s.endOrder c out act = (act (lineFreed s c)).afterOrder c := by
  unfold State.endOrder
  dsimp only
  rw [if_neg (by rw [h]; decide)]
  rfl

/-! ## What a line does next (R112, R120, R127) -/

theorem linkingResumed_starts {byRestart : Bool} (h : s.lines[c].linking = some (.waiting byRestart)) :
    s.linkingResumed c = s.setLine c (s.lines[c].startLinking byRestart) := by
  unfold State.linkingResumed
  simp only [h]

theorem linkingResumed_stays (h : ∀ byRestart, s.lines[c].linking ≠ some (.waiting byRestart)) :
    s.linkingResumed c = s := by
  unfold State.linkingResumed
  dsimp only
  split
  · next byRestart hw => exact absurd hw (h byRestart)
  · rfl

theorem afterOrder_starts {byRestart : Bool} (h : s.lines[c].linking = some (.waiting byRestart)) :
    s.afterOrder c
      = (s.setLine c ((s.lines[c].startLinking byRestart).issue s.clock.elapsed)).grantAll := by
  unfold State.afterOrder State.issueOrder
  rw [linkingResumed_starts h, lines_setLine, setLine_setLine]
  rfl

theorem afterOrder_goesOn (h : ∀ byRestart, s.lines[c].linking ≠ some (.waiting byRestart)) :
    s.afterOrder c = (s.setLine c (s.lines[c].issue s.clock.elapsed)).grantAll := by
  unfold State.afterOrder State.issueOrder
  rw [linkingResumed_stays h]

theorem afterOrder_idle (h : ∀ byRestart, s.lines[c].linking ≠ some (.waiting byRestart))
    (ho : s.lines[c].orders = .none) : s.afterOrder c = s.grantAll := by
  have hissue : s.lines[c].issue s.clock.elapsed = s.lines[c] := by
    unfold CameraLine.issue
    split
    · rfl
    · rw [ho]; rfl
  rw [afterOrder_goesOn h, hissue, setLine_same]

/-! ## Timeouts (R116, R124, R127, R130) -/

/-- A line that goes DOWN drops its orders, so that it is the same with any (R124). -/
theorem goDown_setLine {l : CameraLine} (h : l.dropOrders = s.lines[c].dropOrders) (cause : LineCause) :
    (s.setLine c l).goDown c cause = s.goDown c cause := by
  have hslots : l.slots = s.lines[c].slots := congrArg (·.slots) h
  unfold State.goDown
  simp only [lines_setLine, setLine_setLine, h, hslots]

theorem failSense_idle {d : Detail} (h : ∀ tag, s.link.inProgress ≠ some (.cameraSense tag c)) :
    s.failSense c d = s := by
  unfold State.failSense
  split
  · next tag k hk => exact if_neg (fun hkc : k = c => h tag (hkc ▸ hk))
  · rfl

theorem failSense_sensing {d : Detail} {tag : Byte} (h : s.link.inProgress = some (.cameraSense tag c)) :
    s.failSense c d = s.endRequest.placeAnswer tag 0x0602 ⟨.failed, d, []⟩ := by
  unfold State.failSense
  rw [h]
  exact if_pos rfl

/-- The timeouts that take a line DOWN: of a RELINK, of a DISCARD, and of the linking SENSE. -/
def downOnTimeout (l : CameraLine) (o : Order) : Prop :=
  o = .relink ∨ (∃ slot, o = .discard slot) ∨ (o = .sense ∧ l.linking = some .sense)

theorem orderTimedOut_down {o : Order} (h : downOnTimeout s.lines[c] o) :
    (lineFreed s c).orderTimedOut c o = s.goDown c .noAnswer := by
  have hdown : (lineFreed s c).goDown c .noAnswer = s.goDown c .noAnswer :=
    goDown_setLine (l := { s.lines[c] with outstanding := none }) rfl _
  rw [← hdown]
  rcases h with rfl | ⟨slot, rfl⟩ | ⟨rfl, hlinking⟩
  · rfl
  · rfl
  · unfold State.orderTimedOut
    dsimp only
    rw [if_pos (by rw [lineFreed_line]; exact hlinking)]

theorem orderTimedOut_sense (h : s.lines[c].linking ≠ some .sense) :
    (lineFreed s c).orderTimedOut c .sense = (lineFreed s c).failSense c .cameraNoAnswer := by
  unfold State.orderTimedOut
  dsimp only
  rw [if_neg (by rw [lineFreed_line]; exact h)]

/-- Settles O56: the order that ends, by its kind, and then what its line does next. -/
theorem orderTimesOut : Obligations.OrderTimesOut := by
  refine fun s c => ⟨exec_orderTimeout_idle, fun issued => exec_readComplete_unmatched, fun out hout =>
    ⟨exec_orderTimeout_early hout, ?_, ?_⟩, ?_⟩
  · rintro issued command hignored hcommand
    obtain ⟨order, ends, ignored⟩ := out
    rcases hcommand with ⟨rfl, hends⟩ | ⟨⟨slot, segment, release, rfl⟩, rfl, bytes, check, outcome, flags, rfl⟩
      | ⟨⟨slot, rfl⟩, rfl, rfl⟩ | ⟨rfl, rfl, flags, full0, full1, rfl⟩ | ⟨rfl, rfl, rfl⟩
    · rw [exec_orderTimeout hout hends, endOrder_cutOff hignored]; rfl
    · rw [exec_readComplete hout, endOrder_cutOff hignored]; rfl
    · rw [exec_discardComplete_ends hout, endOrder_cutOff hignored]; rfl
    · rw [exec_senseComplete hout, endOrder_cutOff hignored]; rfl
    · rw [exec_relinkComplete hout, endOrder_cutOff hignored]; rfl
  · intro hends hwanted
    rw [exec_orderTimeout hout hends, endOrder_acts hwanted]
    refine ⟨fun hdown hserve htwo hslots => ⟨s.goDown c .noAnswer, ?_, goDown_wentDown s c _ hserve htwo hslots⟩,
      fun hsense hlinking hidle => ?_, fun tag hsense hlinking htag => ?_⟩
    · rw [orderTimedOut_down hdown]
    · rw [hsense, orderTimedOut_sense hlinking, failSense_idle (s := lineFreed s c) hidle]
      rfl
    · rw [hsense, orderTimedOut_sense hlinking, failSense_sensing (s := lineFreed s c) htag]
      rfl
  · rintro l rfl hfree
    refine ⟨?_, fun hnot => ⟨afterOrder_idle hnot, ?_⟩⟩
    · rintro byRestart order length rest hwaiting hfirst
      rw [afterOrder_starts hwaiting]
      rcases hfirst with ⟨rfl, rfl, rfl, rfl⟩ | ⟨rfl, hrelink, rfl, rfl, rfl⟩ | ⟨rfl, hrelink, rfl, rfl, rfl⟩
      · rw [startLinking_issues_relink hfree]
        rfl
      · rw [startLinking_issues_discard hfree hrelink]
        rfl
      · rw [startLinking_issues_pending hfree hrelink]
        rfl
    · intro order length rest hfirst
      rw [afterOrder_goesOn hnot]
      rcases hfirst with ⟨h, rfl, rfl, rfl⟩ | ⟨h, rfl, ⟨h0, rfl, rfl⟩ | ⟨h0, ⟨h1, rfl, rfl⟩
        | ⟨h1, ⟨o, hread, rfl, rfl⟩ | ⟨hread, hsense, rfl, rfl⟩⟩⟩⟩
      · rw [issue_next hfree (next_relink h)]; rfl
      · rw [issue_next hfree (next_discard0 h h0)]; rfl
      · rw [issue_next hfree (next_discard1 h h0 h1)]; rfl
      · rw [issue_next hfree (next_read h h0 h1 hread)]; rfl
      · rw [issue_next hfree (next_sense h h0 h1 hread hsense)]; rfl

end OrderEnds

end Sys2Proof.Proofs


/-! PROOFS. The operations of a readout on a line that is free, as equations: pages returned, a readout that stores no
more, a READ placed (R121 to R123, R126, R139). -/

namespace Sys2Proof.Proofs

open Sys2Proof.Machine

/-! ## Notices and the other blocks -/

/-- Queued notices reach the link only, and look at nothing but link and clock. -/
theorem queueNotices_with (ns : List Notice) : ∀ {s t : State}, t.link = s.link → t.clock = s.clock →
    t.queueNotices ns = { t with link := (s.queueNotices ns).link } := by
  induction ns with
  | nil => intro s t hlink _; exact hlink ▸ rfl
  | cons n ns ih =>
    intro s t hlink hclock
    have hone : t.queueNotice n = { t with link := (s.queueNotice n).link } := by
      unfold State.queueNotice
      rw [hlink, hclock]
      split
      · rfl
      · rfl
    change (t.queueNotice n).queueNotices ns = { t with link := ((s.queueNotice n).queueNotices ns).link }
    rw [ih (s := s.queueNotice n) (by rw [hone]) (by simp [hclock]), hone]

theorem queueNotices_setMemory (s : State) (ns : List Notice) (m : FrameMemory) :
    (s.queueNotices ns).setMemory m = (s.setMemory m).queueNotices ns := by
  rw [queueNotices_with ns (s := s) (t := s.setMemory m) rfl rfl, queueNotices_with ns (s := s) (t := s) rfl rfl]
  rfl

theorem queueNotices_setChannel (s : State) (ns : List Notice) (ch : ChannelNo) (w : Option ChannelWork) :
    (s.queueNotices ns).setChannel ch w = (s.setChannel ch w).queueNotices ns := by
  rw [queueNotices_with ns (s := s) (t := s.setChannel ch w) rfl rfl,
    queueNotices_with ns (s := s) (t := s) rfl rfl]
  rfl

theorem queueNotices_setLine (s : State) (ns : List Notice) (c : Camera) (l : CameraLine) :
    (s.queueNotices ns).setLine c l = (s.setLine c l).queueNotices ns := by
  rw [queueNotices_with ns (s := s) (t := s.setLine c l) rfl rfl, queueNotices_with ns (s := s) (t := s) rfl rfl]
  rfl

theorem queueNotices_lines (s : State) (ns : List Notice) : (s.queueNotices ns).lines = s.lines :=
  (queueNotices_facts ns s).1.2.1

/-! ## Pages returned (R139, R143) -/

/-- A freed page touches neither bytes nor reservations. -/
theorem free_frame (m : FrameMemory) (k : Nat) : (m.free k).1.cells = m.cells ∧ (m.free k).1.wrong = m.wrong
    ∧ (m.free k).1.reservations = m.reservations := by
  unfold FrameMemory.free
  split
  · exact ⟨rfl, rfl, rfl⟩
  · rw [retire_eq]
    exact ⟨rfl, rfl, rfl⟩

/-- The page of a readout freed, if it has one, with the notices of its retirement. -/
def freedPage (m : FrameMemory) : Option Nat → FrameMemory × List Notice
  | some k => m.free k
  | none => (m, [])

theorem freedPage_frame (m : FrameMemory) (page : Option Nat) : (freedPage m page).1.cells = m.cells
    ∧ (freedPage m page).1.wrong = m.wrong ∧ (freedPage m page).1.reservations = m.reservations := by
  cases page with
  | none => exact ⟨rfl, rfl, rfl⟩
  | some k => exact free_frame m k

/-- Frame memory after a shot's page and reservation are returned. -/
def returned (m : FrameMemory) (r : ShotRef) (page : Option Nat) : FrameMemory :=
  { (freedPage m page).1 with reservations := m.reservations.filter (fun e => e.shot != r) }

theorem returned_bytes (m : FrameMemory) (r : ShotRef) (page : Option Nat) :
    (returned m r page).cells = m.cells ∧ (returned m r page).wrong = m.wrong := by
  obtain ⟨hcells, hwrong, -⟩ := freedPage_frame m page
  exact ⟨hcells, hwrong⟩

theorem returnPages_eq (s : State) (r : ShotRef) (page : Option Nat) : s.returnPages r page
    = (s.setMemory (returned s.memory r page)).queueNotices (freedPage s.memory page).2 := by
  cases page with
  | none => rfl
  | some k =>
    have hmemory : (s.freePage k).memory = (s.memory.free k).1 :=
      (queueNotices_facts (s.memory.free k).2 (s.setMemory (s.memory.free k).1)).2.2.2
    have hreturned : (s.freePage k).memory.returnReservation r = returned s.memory r (some k) := by
      rw [hmemory]
      unfold FrameMemory.returnReservation returned freedPage
      rw [(free_frame s.memory k).2.2]
    change (s.freePage k).setMemory ((s.freePage k).memory.returnReservation r) = _
    rw [hreturned]
    exact queueNotices_setMemory _ _ _

/-! ## A readout goes on, or stores no more (R121 to R123, R126) -/

section Goes

variable {s : State} {c : Camera} {l : CameraLine} {w : ChannelWork} {slot : SlotNo}

/-- A readout that is not over: what its channel holds now, its line, frame memory, and the notices of a page freed. -/
def onward (s : State) (c : Camera) (ch : ChannelNo) (w : ChannelWork) (l : CameraLine) (m : FrameMemory)
    (ns : List Notice) : State := (((s.setChannel ch (some w)).setLine c l).setMemory m).queueNotices ns

theorem onward_facts (s : State) (c : Camera) (ch : ChannelNo) (w : ChannelWork) (l : CameraLine) (m : FrameMemory)
    (ns : List Notice) : SameBlocks s (onward s c ch w l m ns) ∧ (onward s c ch w l m ns).table = s.table
    ∧ (onward s c ch w l m ns).readout = ⟨s.readout.queue, setAt s.readout.channels ch (some w)⟩
    ∧ (onward s c ch w l m ns).memory = m ∧ (onward s c ch w l m ns).lines[c] = l
    ∧ ∀ j : Camera, j ≠ c → (onward s c ch w l m ns).lines[j] = s.lines[j] := by
  obtain ⟨⟨hsame, hlines, -⟩, htable, hreadout, hmemory⟩ :=
    queueNotices_facts ns (((s.setChannel ch (some w)).setLine c l).setMemory m)
  unfold onward
  rw [hlines]
  exact ⟨⟨hsame.clock, hsame.tracks, hsame.fire, hsame.strobes, hsame.shotQueue, hsame.banks⟩, htable, hreadout,
    hmemory, lines_setLine _ _ _, fun j hj => lines_setLine_ne (s.setChannel ch (some w)) l hj⟩

/-- A readout that stores no more, on a free line: its page and reservation are returned, its channel takes the step,
and the DISCARD of its slot is pending (R123, R126). -/
theorem discardReadout_eq (hl : s.lines[c] = l) (hslot : l.slotOf w.shot = some slot) (hfree : l.outstanding = none)
    (ch : ChannelNo) (step : ChannelStep) : s.discardReadout c ch w step
      = onward s c ch { w with page := none, step := step } { l with orders := l.orders.add (.discard slot) }
          (returned s.memory w.shot w.page) (freedPage s.memory w.page).2 := by
  unfold State.discardReadout onward
  rw [returnPages_eq]
  generalize (freedPage s.memory w.page).2 = ns
  dsimp only
  rw [queueNotices_setChannel, queueNotices_lines]
  change (match s.lines[c].slotOf w.shot with
    | some slot => _
    | none => _) = _
  rw [hl, hslot]
  dsimp only
  unfold State.pendOrder
  rw [queueNotices_lines, queueNotices_setLine]
  change State.queueNotices (((s.setMemory _).setChannel ch _).setLine c (s.lines[c].pend (.discard slot))) ns = _
  rw [hl, pend_free hfree (by simp)]
  rfl

theorem pend_read_free {l : CameraLine} (hfree : l.outstanding = none) (hread : l.orders.read = none) (slot : SlotNo)
    (segment : Nat) (release : Bool) : l.pend (.read slot segment release)
      = { l with orders := { l.orders with read := some ⟨slot, segment, release⟩ } } :=
  pend_read_eq (readWanted_none hread fun o ho => by rw [hfree] at ho; cases ho) slot segment release

/-- A READ placed on a free line (R121). -/
theorem pendRead_free {k : Shot} (hl : s.lines[c] = l) (hslot : l.slotOf w.shot = some slot)
    (hk : s.shot? w.shot = some k) (hfree : l.outstanding = none) (hread : l.orders.read = none) :
    s.pendRead c w = s.setLine c { l with orders := { l.orders with
      read := some ⟨slot, w.segment, w.segment + 1 = k.segmentsExpected⟩ } } := by
  subst hl
  rw [pendRead_eq hslot hk]
  unfold State.pendOrder
  rw [pend_read_free hfree hread]

theorem shotStopping_of {r : ShotRef} {p : Passage} (hp : s.passage? r.passage = some p) :
    s.shotStopping r = decide (p.state = .stopping) := by
  unfold State.shotStopping
  rw [hp]

end Goes

end Sys2Proof.Proofs


/-! PROOFS. The answers to RELINK and SENSE (R115 to R117, R122, R126, R127, R130), and O55. -/

namespace Sys2Proof.Proofs

open Sys2Proof.Machine

section RelinkSense

variable {s : State} {c : Camera}

/-! ## The answer to a RELINK (R122, R126, R127) -/

theorem channelRelinked_other (h : ∀ ch w, s.serving? c = some (ch, w) → w.step ≠ .relink) :
    channelRelinked s c = s := by
  unfold channelRelinked
  split
  · next ch w hserving => exact if_neg (h ch w hserving)
  · rfl

/-- The channel in its RELINK step makes the final try (R122). -/
theorem channelRelinked_final {ch : ChannelNo} {w : ChannelWork} {p : Passage} (h : s.serving? c = some (ch, w))
    (hstep : w.step = .relink) (hp : s.passage? w.shot.passage = some p) (hgoes : p.state ≠ .stopping) :
    channelRelinked s c
      = (s.setChannel ch (some { w with step := .final })).pendRead c { w with step := .final } := by
  unfold channelRelinked
  rw [h]
  dsimp only
  rw [if_pos hstep, shotStopping_of hp, if_neg (by simpa using hgoes)]

/-- In STOPPING its readout stores no more (R126). -/
theorem channelRelinked_stopping {ch : ChannelNo} {w : ChannelWork} {p : Passage}
    (h : s.serving? c = some (ch, w)) (hstep : w.step = .relink) (hp : s.passage? w.shot.passage = some p)
    (hstops : p.state = .stopping) : channelRelinked s c = s.discardReadout c ch w .stopping := by
  unfold channelRelinked
  rw [h]
  dsimp only
  rw [if_pos hstep, shotStopping_of hp, if_pos (by simpa using hstops)]

theorem linkingRelinked_stays (h : s.lines[c].linking ≠ some .relink) : s.linkingRelinked c = s := by
  unfold State.linkingRelinked
  dsimp only
  split
  · next hl => exact absurd hl h
  · rfl

/-- The RELINK of the linking sequence leads to a SENSE (R127). -/
theorem linkingRelinked_senses (h : s.lines[c].linking = some .relink) (hfree : s.lines[c].outstanding = none) :
    s.linkingRelinked c = s.setLine c { s.lines[c] with
      orders := { s.lines[c].orders with sense := true }, linking := some .sense } := by
  unfold State.linkingRelinked
  simp only [h]
  rw [pend_free hfree (by simp)]
  rfl

/-! ## The answer to a SENSE (R117, R127, R130) -/

theorem answerSense_idle {flags : FlagSet} {full0 full1 : Bool}
    (h : ∀ tag, s.link.inProgress ≠ some (.cameraSense tag c)) : s.answerSense c flags full0 full1 = s := by
  unfold State.answerSense
  split
  · next tag k hk => exact if_neg (fun hkc : k = c => h tag (hkc ▸ hk))
  · rfl

theorem answerSense_sensing {flags : FlagSet} {full0 full1 : Bool} {tag : Byte}
    (h : s.link.inProgress = some (.cameraSense tag c)) : s.answerSense c flags full0 full1
      = s.endRequest.placeAnswer tag 0x0602 (.done (s.senseData c flags full0 full1)) := by
  unfold State.answerSense
  rw [h]
  exact if_pos rfl

/-- A DISCARD of a slot placed on a free line, if the SENSE found the slot full. -/
theorem pendIf_free {l : CameraLine} (h : l.outstanding = none) (go : Bool) :
    pendIf l go 0 = { l with orders := { l.orders with discard0 := l.orders.discard0 || go } }
    ∧ pendIf l go 1 = { l with orders := { l.orders with discard1 := l.orders.discard1 || go } } := by
  unfold pendIf
  cases go with
  | false => simp
  | true => simp [pend_free h, PendingOrders.add]

theorem pendIf_both {l : CameraLine} (h : l.outstanding = none) (clear0 clear1 : Bool) :
    pendIf (pendIf l clear0 0) clear1 1 = { l with orders := { l.orders with
      discard0 := l.orders.discard0 || clear0, discard1 := l.orders.discard1 || clear1 } } := by
  rw [(pendIf_free h clear0).1]
  exact (pendIf_free (l := { l with orders := { l.orders with discard0 := l.orders.discard0 || clear0 } }) h clear1).2

/-- Slots found full that the line counts free are discarded before the sequence goes on (R127). -/
theorem linkingSensed_clears {flags : FlagSet} {full0 full1 clear0 clear1 : Bool}
    (hfree : s.lines[c].outstanding = none) (h0 : clear0 = (full0 && s.lines[c].slots[(0 : SlotNo)].isNone))
    (h1 : clear1 = (full1 && s.lines[c].slots[(1 : SlotNo)].isNone)) (h : clear0 = true ∨ clear1 = true) :
    s.linkingSensed c flags full0 full1 = s.setLine c { s.lines[c] with
      orders := { s.lines[c].orders with
        discard0 := s.lines[c].orders.discard0 || clear0, discard1 := s.lines[c].orders.discard1 || clear1 }
      linking := some (.clearing flags clear0 clear1) } := by
  unfold State.linkingSensed
  simp only [← h0, ← h1]
  rw [if_pos (by simpa using h)]
  exact congrArg (fun l : CameraLine => s.setLine c { l with linking := some (.clearing flags clear0 clear1) })
    (pendIf_both hfree clear0 clear1)

theorem linkingSensed_ends {flags : FlagSet} {full0 full1 : Bool}
    (h0 : full0 = true → s.lines[c].slots[(0 : SlotNo)] ≠ none)
    (h1 : full1 = true → s.lines[c].slots[(1 : SlotNo)] ≠ none) :
    s.linkingSensed c flags full0 full1 = s.finishLinking c flags := by
  unfold State.linkingSensed
  dsimp only
  refine if_neg ?_
  simp only [Bool.or_eq_true, Bool.and_eq_true, Option.isNone_iff_eq_none, not_or, not_and]
  exact ⟨h0, h1⟩

/-- Settles O55: the parties that act on a RELINK, then those that act on a SENSE. -/
theorem linkingAndSenseAnswers : Obligations.LinkingAndSenseAnswers := by
  intro s c issued m hm
  have hmfree : m.outstanding = none := by rw [hm]
  have hfreed : lineFreed s c = s.setLine c m := by rw [hm]; rfl
  have hline : (s.setLine c m).lines[c] = m := lines_setLine _ _ _
  refine ⟨fun b hout hb => ?_, fun flags full0 full1 data b hout hdata hb => ?_, exec_relinkComplete_unmatched,
    exec_senseComplete_unmatched⟩
  · obtain ⟨hchannel, hlinking, hfree⟩ : channelRelinked (s.setLine c m) c = b
        ∧ b.lines[c].linking = s.lines[c].linking ∧ b.lines[c].outstanding = none := by
      rcases hb with ⟨hother, rfl⟩ | ⟨ch, w, p, k, slot, hserving, hstep, hp, hk, hslot,
        ⟨hgoes, hread, rfl⟩ | ⟨hstops, pg, hpage, rfl⟩⟩
      · exact ⟨channelRelinked_other (s := s.setLine c m) hother, by rw [hline, hm], by rw [hline, hmfree]⟩
      · rw [channelRelinked_final (s := s.setLine c m) hserving hstep hp hgoes,
          pendRead_free (s := (s.setLine c m).setChannel ch _) (w := { w with step := .final }) hline hslot hk hmfree
            hread]
        refine ⟨setLine_setLine (s.setChannel ch (some { w with step := .final })) c m _, ?_, ?_⟩
        · rw [lines_setLine, hm]
        · rw [lines_setLine, hmfree]
      · rw [channelRelinked_stopping (s := s.setLine c m) hserving hstep hp hstops,
          discardReadout_eq hline hslot hmfree, hpage]
        unfold onward
        rw [queueNotices_lines]
        refine ⟨?_, ?_, ?_⟩
        · change State.queueNotices ((((s.setChannel ch _).setLine c m).setLine c _).setMemory _) _ = _
          rw [setLine_setLine]
          rfl
        · rw [State.setMemory_lines, lines_setLine, hm]
        · rw [State.setMemory_lines, lines_setLine, hmfree]
    rw [exec_relinkComplete hout, endOrder_acts rfl, hfreed, relinkAnswered_eq, hchannel]
    refine ⟨fun hother => ?_, fun hrelink => ?_⟩
    · rw [linkingRelinked_stays (by rw [hlinking]; exact hother)]
    · rw [linkingRelinked_senses (hlinking.trans hrelink) hfree]
  · set a : CameraLine := { m with accumulated := m.accumulated ||| flags } with ha
    have hanswered : (s.setLine c a).answerSense c flags full0 full1 = b.setLine c a := by
      rcases hb with ⟨hidle, rfl⟩ | ⟨tag, htag, rfl⟩
      · exact answerSense_idle (s := b.setLine c a) hidle
      · have hsent : (s.setLine c a).senseData c flags full0 full1 = data := by
          rw [hdata, show s.lines[c].state = m.state by rw [hm]]
          unfold State.senseData
          rw [lines_setLine]
          rfl
        rw [answerSense_sensing (s := s.setLine c a) htag, hsent]
        rfl
    have hb' : b.activeCamera c = s.activeCamera c := by rcases hb with ⟨-, rfl⟩ | ⟨-, -, rfl⟩ <;> rfl
    have hasked : (b.setLine c a).lines[c] = a := lines_setLine _ _ _
    have hact : (s.setLine c m).senseAnswered c flags full0 full1
        = if a.linking = some .sense then (b.setLine c a).linkingSensed c flags full0 full1 else b.setLine c a := by
      unfold State.senseAnswered
      rw [setLine_setLine, hline]
      change (if ((s.setLine c a).answerSense c flags full0 full1).lines[c].linking = some .sense then
        ((s.setLine c a).answerSense c flags full0 full1).linkingSensed c flags full0 full1
        else (s.setLine c a).answerSense c flags full0 full1) = _
      rw [hanswered, hasked]
    have halink : a.linking = s.lines[c].linking := by rw [ha, hm]
    rw [exec_senseComplete hout, endOrder_acts rfl, hfreed, hact, halink]
    refine ⟨fun hother => by rw [if_neg hother], fun hsense h0 h1 new hnew => ?_,
      fun hsense clear0 clear1 h0 h1 hclear => ?_⟩
    · rw [if_pos hsense, linkingSensed_ends (by rw [hasked]; exact h0) (by rw [hasked]; exact h1),
        finishLinking_setLine b c flags (new := new) (by rw [hb']; exact hnew),
        show a.state = s.lines[c].state by rw [ha, hm]]
    · rw [if_pos hsense, linkingSensed_clears (by rw [hasked]; exact hmfree) (by rw [hasked]; exact h0)
        (by rw [hasked]; exact h1) hclear, hasked, setLine_setLine]

end RelinkSense

end Sys2Proof.Proofs


/-! PROOFS. The end of a READ: its flags and bytes taken (R113, R117, R118, R140), and the attempt that succeeds (R121,
R126, R138), which is O52. -/

namespace Sys2Proof.Proofs

open Sys2Proof.Machine

/-! ## What an ended READ brings (R113, R117, R118, R140) -/

/-- A line whose READ has ended, with the flags of its closing status: the order is no longer in flight, the flags join,
and one of the disable set marks an IN_SERVICE line. -/
def readEnded (l : CameraLine) (flags disable : FlagSet) : CameraLine := { l with
  outstanding := none
  accumulated := l.accumulated ||| flags
  disableMark := l.disableMark || (l.state = .inService && (flags &&& disable) != 0) }

theorem readEnded_eq (l : CameraLine) (flags disable : FlagSet) :
    (({ l with outstanding := none } : CameraLine).takeFlags flags).markDisable flags disable
      = readEnded l flags disable := by
  unfold CameraLine.markDisable readEnded CameraLine.takeFlags addFlags flagsMeet
  dsimp only
  split
  · next h =>
    obtain ⟨hstate, hmeet⟩ := h
    rw [hmeet, decide_eq_true hstate, Bool.and_self, Bool.or_true]
  · next h =>
    have hmark : (decide (l.state = .inService) && (flags &&& disable) != 0) = false := by simpa using h
    rw [hmark, Bool.or_false]

/-- A timeout brings no flags. -/
theorem readEnded_zero (l : CameraLine) (disable : FlagSet) :
    readEnded l 0 disable = { l with outstanding := none } := by
  unfold readEnded
  simp

theorem takeFlags_zero (k : Shot) (care : FlagSet) : k.takeFlags 0 care = k := by
  unfold Shot.takeFlags addFlags flagsMeet
  simp

/-- Frame memory with the bytes that came in the physical page they are for, if there is one (R140). -/
def written (m : FrameMemory) (physical : Option Nat) (bytes : List Byte) : FrameMemory :=
  match physical with
  | some ph => m.write (ph * 65536) (bytes.take 65536)
  | none => m

/-- The physical page that a channel's drawn page maps to (R135). -/
def physicalOf (m : FrameMemory) (w : ChannelWork) : Option Nat := w.page.bind (fun pg => (m.page pg).physical pg)

/-- The state in which an ended READ is a success or a failure: the order has ended, its flags are taken, and frame
memory is as the answer left it. -/
def readTaken (s : State) (c : Camera) (w : ChannelWork) (flags : FlagSet) (e : CameraEntry) (m : FrameMemory) :
    State := ((s.setMemory m).setLine c (readEnded s.lines[c] flags e.disableSet)).modifyShot w.shot
      (·.takeFlags flags e.careSet)

theorem changePassage_id (n : Nat) (l : List Passage) : changePassage n (fun p => p) l = l := by
  induction l with
  | nil => rfl
  | cons p l ih =>
    unfold changePassage
    rw [ih]
    exact ite_self _

theorem modifyShot_id (s : State) (r : ShotRef) : s.modifyShot r (fun k => k) = s := by
  have hrecord : (fun p : Passage => p.modifyShot r.shot (fun k => k)) = fun p => p :=
    funext fun p => by
      unfold Passage.modifyShot
      rw [show p.shots.modify r.shot (fun k => k) = p.shots from List.modify_id r.shot p.shots]
  unfold State.modifyShot State.modifyPassage
  rw [hrecord, changePassage_id]

section Taken

variable {s : State} {c : Camera} {ch : ChannelNo} {w : ChannelWork} {p : Passage} {k : Shot}

theorem writeSegment_eq (s : State) (w : ChannelWork) (bytes : List Byte) :
    s.writeSegment w bytes = s.setMemory (written s.memory (physicalOf s.memory w) bytes) := by
  unfold State.writeSegment physicalOf written
  cases w.page with
  | none => rfl
  | some pg =>
    dsimp only [Option.bind_some]
    cases (s.memory.page pg).physical pg <;> rfl

theorem shotEntry_of (hp : s.passage? w.shot.passage = some p) :
    s.shotEntry w.shot c = s.banks.slots[p.bank].contents.cameras[c] := by
  unfold State.shotEntry
  rw [hp]
  rfl

/-- The answer to a READ is a success or a failure of the attempt once flags and bytes are taken (R113). -/
theorem readAnswered_eq (hserving : s.serving? c = some (ch, w)) (hp : s.passage? w.shot.passage = some p)
    {e : CameraEntry} (he : e = s.banks.slots[p.bank].contents.cameras[c]) (slot : SlotNo) (release : Bool)
    (bytes : List Byte) (check : BitVec 32) (outcome : ReadOutcome) (flags : FlagSet) {t : State}
    (ht : t = readTaken s c w flags e (written s.memory (physicalOf s.memory w) bytes)) :
    (lineFreed s c).readAnswered c slot release bytes check outcome flags
      = if outcome = .done ∧ crc32 bytes = check then t.attemptSucceeded c ch w slot release
        else t.attemptFailed c ch w := by
  have htaken : ((lineFreed s c).takeReadFlags c w.shot flags).writeSegment w bytes = t := by
    rw [ht, writeSegment_eq]
    unfold State.takeReadFlags readTaken
    dsimp only
    rw [shotEntry_of (s := lineFreed s c) (c := c) hp, show (lineFreed s c).banks = s.banks from rfl, ← he,
      lineFreed_line, CameraLine.released, readEnded_eq]
    change (((s.setLine c _).setLine c _).setMemory _).modifyShot w.shot _ = _
    rw [setLine_setLine]
    rfl
  unfold State.readAnswered
  rw [show (lineFreed s c).serving? c = some (ch, w) from hserving]
  dsimp only
  rw [htaken]

/-- The timeout of a READ is a failure of the attempt (R113). -/
theorem readTimedOut_eq (hserving : s.serving? c = some (ch, w)) (slot : SlotNo) (segment : Nat) (release : Bool)
    (e : CameraEntry) : (lineFreed s c).orderTimedOut c (.read slot segment release)
      = (readTaken s c w 0 e s.memory).attemptFailed c ch w := by
  have hsame : readTaken s c w 0 e s.memory = lineFreed s c := by
    unfold readTaken
    rw [readEnded_zero]
    simp only [takeFlags_zero]
    exact modifyShot_id _ _
  unfold State.orderTimedOut
  rw [show (lineFreed s c).serving? c = some (ch, w) from hserving, hsame]

theorem readTaken_line (s : State) (c : Camera) (w : ChannelWork) (flags : FlagSet) (e : CameraEntry)
    (m : FrameMemory) :
    (readTaken s c w flags e m).lines[c] = readEnded s.lines[c] flags e.disableSet
    ∧ ∀ j : Camera, j ≠ c → (readTaken s c w flags e m).lines[j] = s.lines[j] :=
  ⟨lines_setLine _ _ _, fun _ hj => lines_setLine_ne _ _ hj⟩

theorem readTaken_shot (hk : s.shot? w.shot = some k) (flags : FlagSet) (e : CameraEntry) (m : FrameMemory) :
    (readTaken s c w flags e m).shot? w.shot = some (k.takeFlags flags e.careSet) :=
  shot?_modifyShot_self (s := (s.setMemory m).setLine c _) hk _

theorem readTaken_passage (hp : s.passage? w.shot.passage = some p) (flags : FlagSet) (e : CameraEntry)
    (m : FrameMemory) : (readTaken s c w flags e m).passage? w.shot.passage
      = some (p.modifyShot w.shot.shot (·.takeFlags flags e.careSet)) :=
  passage?_modifyPassage (s := (s.setMemory m).setLine c _) (f := fun p => p.modifyShot w.shot.shot _) (fun _ => rfl) hp

/-! ## An attempt that succeeds (R121, R126, R138) -/

/-- The bytes of a segment stand where they were written, and nowhere else (R140). -/
theorem byteAt_written {m n : FrameMemory} {ph : Nat} {bytes : List Byte} (hlen : bytes.length = 65536)
    (h : n.cells = (written m (some ph) bytes).cells) :
    (∀ i, i < 65536 → n.byteAt (ph * 65536 + i) = bytes.getD i 0)
    ∧ ∀ a, a < ph * 65536 ∨ ph * 65536 + 65536 ≤ a → n.byteAt a = m.byteAt a := by
  have hbytes : bytes.take 65536 = bytes := by rw [← hlen, List.take_length]
  have hsame : ∀ a, n.byteAt a = (m.write (ph * 65536) bytes).byteAt a := fun a => by
    unfold FrameMemory.byteAt
    rw [h]
    unfold written
    rw [hbytes]
  refine ⟨fun i hi => ?_, fun a ha => ?_⟩
  · rw [hsame, FrameMemory.byteAt_write_inside m _ bytes i (by omega), List.getD_eq_getElem _ _ (by omega)]
  · rw [hsame, FrameMemory.byteAt_write_outside m _ bytes a (by omega)]

theorem draw_cells (m : FrameMemory) (r : ShotRef) (segment : Nat) : (m.draw r segment).1.cells = m.cells := by
  unfold FrameMemory.draw
  split <;> rfl

/-- The page drawn is held by its segment (R138). -/
theorem draw_held {m : FrameMemory} (h : m.wf) {j : Nat} (hj : m.lowestFree = some j) (r : ShotRef) (segment : Nat) :
    (m.draw r segment).1.page j = { m.page j with condition := .held ⟨r, segment⟩ } := by
  unfold FrameMemory.draw
  rw [hj]
  exact FrameMemory.page_setPage_self h j _

/-- The next segment's page is drawn, and its READ placed on the free line (R121, R138). -/
theorem startSegment_eq {l : CameraLine} {slot : SlotNo} (hl : s.lines[c] = l) (hslot : l.slotOf w.shot = some slot)
    (hk : s.shot? w.shot = some k) (hfree : l.outstanding = none) (hread : l.orders.read = none) (ch : ChannelNo) :
    s.startSegment c ch w = onward s c ch { w with attempts := 0, step := .read, page := s.memory.lowestFree }
      { l with orders := { l.orders with read := some ⟨slot, w.segment, w.segment + 1 = k.segmentsExpected⟩ } }
      (s.memory.draw w.shot w.segment).1 [] := by
  unfold State.startSegment State.drawPage
  dsimp only
  rw [pendRead_free (s := (s.setMemory (s.memory.draw w.shot w.segment).1).setChannel ch _)
    (w := { w with attempts := 0, step := .read, page := (s.memory.draw w.shot w.segment).2 }) hl hslot hk hfree hread,
    draw_page]
  rfl

/-- A segment stored that was not the last: the next one is read, or, in STOPPING, the readout stores no more (R121,
R126). -/
theorem attemptSucceeded_onward {l : CameraLine} {slot : SlotNo} (hl : s.lines[c] = l)
    (hslot : l.slotOf w.shot = some slot) (hk : s.shot? w.shot = some k) (hp : s.passage? w.shot.passage = some p)
    (hfree : l.outstanding = none) (hread : l.orders.read = none) (ch : ChannelNo) (x : SlotNo) :
    ∃ w' orders m, s.attemptSucceeded c ch w x false
        = onward (s.modifyShot w.shot (·.storeSegment w.page)) c ch w' { l with orders := orders } m []
      ∧ m.cells = s.memory.cells
      ∧ (p.state ≠ .stopping → w' = ⟨w.shot, w.segment + 1, 0, .read, s.memory.lowestFree⟩
          ∧ orders = { l.orders with read := some ⟨slot, w.segment + 1, w.segment + 2 = k.segmentsExpected⟩ }
          ∧ m = (s.memory.draw w.shot (w.segment + 1)).1)
      ∧ (p.state = .stopping → w' = ⟨w.shot, w.segment, 0, .stopping, none⟩
          ∧ orders = l.orders.add (.discard slot)
          ∧ m = { s.memory with reservations := s.memory.reservations.filter (fun e => e.shot != w.shot) }) := by
  unfold State.attemptSucceeded
  dsimp only
  rw [if_neg (by decide), shotStopping_of hp]
  by_cases hstops : p.state = .stopping
  · rw [if_pos (decide_eq_true hstops), discardReadout_eq (s := s.modifyShot w.shot (·.storeSegment w.page))
      (w := { w with attempts := 0, page := none }) hl hslot hfree]
    exact ⟨_, _, _, rfl, rfl, fun hgoes => absurd hstops hgoes, fun _ => ⟨rfl, rfl, rfl⟩⟩
  · rw [if_neg (by simpa using hstops), startSegment_eq (s := s.modifyShot w.shot (·.storeSegment w.page))
      (w := { w with segment := w.segment + 1 }) hl hslot (shot?_modifyShot_self hk _) hfree hread]
    exact ⟨_, _, _, rfl, draw_cells _ _ _, fun _ => ⟨rfl, rfl, rfl⟩, fun h => absurd h hstops⟩

/-- A readout that ends lets the mark of its line take effect (R118). -/
theorem endReadout_mark (s : State) (c : Camera) (ch : ChannelNo) (r : ShotRef) (st : ShotState) :
    (s.lines[c].disableMark = true → s.lines[c].state = .inService →
      (s.endReadout c ch r st).lines[c].state = .outOfService
      ∧ (s.endReadout c ch r st).lines[c].disableMark = false
      ∧ s.endsWithNotice (s.endReadout c ch r st)
          (.cameraState c .inService .outOfService .disableFlag s.lines[c].accumulated 0))
    ∧ (s.lines[c].disableMark = false ∨ s.lines[c].state ≠ .inService →
      (s.endReadout c ch r st).lines[c] = s.lines[c]) := by
  obtain ⟨-, -, -, -, -, hown⟩ := endReadout_facts s c ch r st
  rw [hown]
  refine ⟨fun hmark hstate => ?_, fun hunmarked => if_neg fun ⟨hmark, hstate⟩ => ?_⟩
  · rw [show s.lines[c].marked = _ from if_pos ⟨hmark, hstate⟩]
    exact ⟨rfl, rfl, endReadout_notice ch r st hmark hstate⟩
  · rcases hunmarked with h | h
    · rw [hmark] at h; cases h
    · exact h hstate

/-- The last segment stored: its shot is STORED, without a fault, and its passage is checked for settlement (R40,
R121). -/
theorem endReadout_stored (hp : s.passage? w.shot.passage = some p) (hk : s.shot? w.shot = some k) (c : Camera)
    (ch : ChannelNo) : (s.endReadout c ch w.shot .stored).shot? w.shot = some { k with state := .stored }
      ∧ ∃ q, (s.endReadout c ch w.shot .stored).passage? w.shot.passage = some q ∧ q.faults = p.faults
        ∧ s.settledFrom p q := by
  obtain ⟨-, hshots, -⟩ := endReadout_facts s c ch w.shot .stored
  obtain ⟨q, hq, hsettled, hfaults⟩ := reported_passage? hp .stored
  rw [endAt_faults] at hfaults
  refine ⟨?_, q, (endReadout_passage? ..).trans hq, hfaults, hsettled⟩
  rw [hshots, hk, Option.map_some, if_pos rfl]

/-- A settlement looks at the clock and at the state and settle time that the passage had. -/
theorem settledFrom_congr {u : State} {p' q : Passage} (h : u.settledFrom p' q) (hclock : u.clock = s.clock)
    (hstate : p'.state = p.state) (hsettle : p'.settle = p.settle) : s.settledFrom p q := by
  unfold State.settledFrom at h ⊢
  rw [← hclock, ← hstate, ← hsettle]
  exact h

end Taken

/-- Settles O52: the segment is stored in the state that the answer leaves; then the shot ends, its next segment is
read, or, in STOPPING, it stores no more. -/
theorem readSucceeds : Obligations.ReadSucceeds := by
  intro s c ch w k k' p slot seg release mark issued pg ph bytes flags e hout hread hwf hserving hk hp hpage hph hlen
    hslot he hk' hmark
  have hphysical : physicalOf s.memory w = some ph := by
    unfold physicalOf
    rw [hpage]
    exact hph
  set m := written s.memory (some ph) bytes with hm
  have hmwrite : m = s.memory.write (ph * 65536) bytes := by
    rw [hm]
    unfold written
    rw [← hlen, List.take_length]
  set t := readTaken s c w flags e m with ht
  obtain ⟨htline, htothers⟩ := readTaken_line s c w flags e m
  rw [exec_readComplete hout, endOrder_acts rfl,
    readAnswered_eq hserving hp he slot release bytes _ _ flags (t := t) (by rw [ht, hphysical]), if_pos ⟨rfl, rfl⟩]
  set v := t.modifyShot w.shot (·.storeSegment w.page) with hv
  have hvshot : v.shot? w.shot = some k' := by
    rw [hv, shot?_modifyShot_self (readTaken_shot hk flags e m), hpage, hk']
    rfl
  obtain ⟨p', hvp, hfaults, hstate, hsettle⟩ : ∃ p', v.passage? w.shot.passage = some p' ∧ p'.faults = p.faults
      ∧ p'.state = p.state ∧ p'.settle = p.settle :=
    ⟨_, passage?_modifyPassage (f := fun p => p.modifyShot w.shot.shot _) (fun _ => rfl)
      (readTaken_passage hp flags e m), rfl, rfl, rfl⟩
  cases release with
  | true =>
    set x := v.setSlot c slot none with hx
    change ∃ u q, Host.Outcome.next (((x.endReadout c ch w.shot .stored).afterOrder c).endEvent) = _ ∧ _
    have hline : x.lines[c] = (readEnded s.lines[c] flags e.disableSet).setSlot slot none := by
      rw [← htline]
      exact lines_setLine _ _ _
    obtain ⟨hblocks, -, hreadout, hmemory, helse, hown⟩ := endReadout_facts x c ch w.shot .stored
    obtain ⟨hshot, q, hq, hqfaults, hsettled⟩ := endReadout_stored (s := x) hvp hvshot c ch
    obtain ⟨hslots, houts, hacc, horders, -⟩ := marked_orders x.lines[c]
    have hbytes : (x.endReadout c ch w.shot .stored).memory.cells = m.cells := by rw [hmemory]; rfl
    obtain ⟨hinside, houtside⟩ := byteAt_written (m := s.memory) (ph := ph) hlen hbytes
    obtain ⟨hmarked, hunmarked⟩ := endReadout_mark x c ch w.shot .stored
    have hxothers : ∀ j : Camera, j ≠ c → x.lines[j] = s.lines[j] := fun j hj =>
      (lines_setLine_ne v _ hj).trans (htothers j hj)
    rw [← hown] at hslots houts hacc horders
    rw [hline] at hmarked hunmarked hslots houts hacc horders
    refine ⟨_, q, rfl, hinside, houtside, fun j hj => (helse j hj).trans (hxothers j hj), hacc, houts, hblocks.clock,
      hblocks.tracks, hblocks.fire, hblocks.strobes, hblocks.shotQueue, hblocks.banks, by rw [hreadout]; rfl,
      hq, hqfaults.trans hfaults, fun _ => ⟨hshot, settledFrom_congr hsettled rfl hstate hsettle,
        by rw [hreadout]; rfl, hslots, horders, hmemory.trans hmwrite, fun hm hs => ?_, fun hm => ?_⟩, nofun⟩
    · subst hmark
      exact hmarked hm hs
    · subst hmark
      rw [hunmarked hm]
      exact ⟨rfl, rfl⟩
  | false =>
    obtain ⟨w', orders, n, hgo, hcells, hgoes, hstops⟩ := attemptSucceeded_onward htline (slot := slot) hslot
      (readTaken_shot hk flags e m) (readTaken_passage hp flags e m) rfl hread ch slot
    obtain ⟨hsame, htable, hreadout, hmemory, hline, hothers⟩ :=
      onward_facts v c ch w' { readEnded s.lines[c] flags e.disableSet with orders := orders } n []
    obtain ⟨hinside, houtside⟩ := byteAt_written hlen (hmemory ▸ hcells)
    have hpassage : (onward v c ch w' { readEnded s.lines[c] flags e.disableSet with orders := orders } n []).passage?
        w.shot.passage = some p' := (passage?_of_table htable _).trans hvp
    refine ⟨_, p', by rw [hgo], hinside, houtside, fun j hj => (hothers j hj).trans (htothers j hj), ?_⟩
    rw [hline, hreadout, hmemory]
    refine ⟨rfl, rfl, hsame.clock, hsame.tracks, hsame.fire, hsame.strobes, hsame.shotQueue, hsame.banks, rfl, hpassage,
      hfaults, nofun, fun _ => ⟨rfl, (shot?_of_table htable _).trans hvshot, rfl, hmark.symm, hstate, fun hp' => ?_,
      fun hp' => ?_⟩⟩
    · obtain ⟨rfl, rfl, rfl⟩ := hgoes hp'
      refine ⟨rfl, rfl, by rw [← hmwrite]; rfl, fun j hj => ?_⟩
      exact draw_held (m := m) (hmwrite ▸ FrameMemory.write_wf hwf _ _) hj _ _
    · obtain ⟨rfl, rfl, rfl⟩ := hstops hp'
      exact ⟨rfl, rfl, by rw [← hmwrite]; rfl⟩

end Sys2Proof.Proofs


/-! PROOFS. The attempt that fails (R122, R123, R124, R126): O53. -/

namespace Sys2Proof.Proofs

open Sys2Proof.Machine

/-! ## A line that goes DOWN changes no byte (R124, R139) -/

/-- The bytes of frame memory, and which of them are wrong. -/
def SameBytes (m n : FrameMemory) : Prop := n.cells = m.cells ∧ n.wrong = m.wrong

theorem SameBytes.byteAt {m n : FrameMemory} (h : SameBytes m n) (a : Nat) : n.byteAt a = m.byteAt a := by
  unfold FrameMemory.byteAt
  rw [h.1]

theorem memoryAfterDown_bytes (s : State) (c : Camera) : SameBytes s.memory (s.memoryAfterDown c) := by
  unfold State.memoryAfterDown
  cases s.serving? c with
  | none => exact ⟨rfl, rfl⟩
  | some x =>
    obtain ⟨ch, w⟩ := x
    dsimp only
    split
    · exact ⟨rfl, rfl⟩
    · cases w.page with
      | none => exact ⟨rfl, rfl⟩
      | some j =>
        obtain ⟨hcells, hwrong, -⟩ := free_frame s.memory j
        exact ⟨hcells, hwrong⟩

theorem loseHeld_bytes (s : State) (x : Option ShotRef) : SameBytes s.memory (s.loseHeld x).memory := by
  obtain ⟨-, hmemory, -⟩ := loseHeld_down s x
  rw [hmemory]
  exact ⟨rfl, rfl⟩

theorem reportSlot_memory (s : State) (x : Option ShotRef) : (s.reportSlot x).memory = s.memory :=
  (reportSlot_rest s x).1

theorem changeLine_memory (s : State) (c : Camera) (new : LineState) (cause : LineCause) (lost : Nat) :
    (s.changeLine c new cause lost).memory = s.memory := by
  obtain ⟨-, -, -, hmemory, -⟩ := changeLine_facts s c new cause lost
  exact hmemory

theorem failSense_memory (s : State) (c : Camera) (d : Detail) : (s.failSense c d).memory = s.memory :=
  (failSense_rest s c d).1

theorem goDown_bytes (s : State) (c : Camera) (cause : LineCause) : SameBytes s.memory (s.goDown c cause).memory := by
  unfold State.goDown
  dsimp only
  set f := (s.setLine c s.lines[c].dropOrders).finishReading c with hf
  have hread : SameBytes s.memory f.memory := by
    obtain ⟨-, hmemory, -⟩ := finishReading_down (s.setLine c s.lines[c].dropOrders) c
    rw [hf, hmemory]
    exact memoryAfterDown_bytes (s.setLine c s.lines[c].dropOrders) c
  obtain ⟨hcells0, hwrong0⟩ := loseHeld_bytes f s.lines[c].slots[(0 : SlotNo)]
  obtain ⟨hcells1, hwrong1⟩ := loseHeld_bytes (f.loseHeld s.lines[c].slots[(0 : SlotNo)]) s.lines[c].slots[(1 : SlotNo)]
  rw [failSense_memory, changeLine_memory, reportSlot_memory, reportSlot_memory]
  exact ⟨hcells1.trans (hcells0.trans hread.1), hwrong1.trans (hwrong0.trans hread.2)⟩

/-! ## An attempt that fails -/

section Fails

variable {s : State} {c : Camera} {ch : ChannelNo} {w : ChannelWork} {l : CameraLine} {slot : SlotNo} {p : Passage}
  {k : Shot}

theorem attemptFailed_final (h : w.step = .final) : s.attemptFailed c ch w = s.goDown c .readFailure := by
  unfold State.attemptFailed
  rw [if_pos h]

/-- A failure before the final try: the segment is read again, the line relinked, or the readout stores no more (R122,
R123, R126). -/
theorem attemptFailed_onward (hl : s.lines[c] = l) (hslot : l.slotOf w.shot = some slot)
    (hk : s.shot? w.shot = some k) (hp : s.passage? w.shot.passage = some p) (hfree : l.outstanding = none)
    (hread : l.orders.read = none) (ch : ChannelNo) (hstep : w.step ≠ .final) {e : CameraEntry}
    (he : s.shotEntry w.shot c = e) :
    ∃ w' orders m ns, s.attemptFailed c ch w = onward s c ch w' { l with orders := orders } m ns
      ∧ SameBytes s.memory m
      ∧ (p.state ≠ .stopping → e.retries = true → w.attempts < 3 → w' = { w with attempts := w.attempts + 1 }
          ∧ orders = { l.orders with read := some ⟨slot, w.segment, w.segment + 1 = k.segmentsExpected⟩ }
          ∧ m = s.memory)
      ∧ (p.state ≠ .stopping → e.retries = true → w.attempts = 3 → w' = { w with attempts := 4, step := .relink }
          ∧ orders = { l.orders with relink := true } ∧ m = s.memory)
      ∧ ∀ step, (p.state = .stopping ∧ step = .stopping)
            ∨ (p.state ≠ .stopping ∧ e.retries = false ∧ step = .discard) →
          w' = { w with page := none, step := step } ∧ orders = l.orders.add (.discard slot)
          ∧ m = returned s.memory w.shot w.page := by
  unfold State.attemptFailed
  dsimp only
  rw [if_neg hstep, shotStopping_of hp, he]
  by_cases hstops : p.state = .stopping
  · rw [if_pos (decide_eq_true hstops), discardReadout_eq hl hslot hfree]
    refine ⟨_, _, _, _, rfl, returned_bytes _ _ _, fun h => absurd hstops h, fun h => absurd hstops h, ?_⟩
    rintro step (⟨-, rfl⟩ | ⟨hgoes, -⟩)
    · exact ⟨rfl, rfl, rfl⟩
    · exact absurd hstops hgoes
  rw [if_neg (by simpa using hstops)]
  by_cases hretries : e.retries = true
  · have hnot : ∀ step : ChannelStep, (p.state = .stopping ∧ step = .stopping)
        ∨ (p.state ≠ .stopping ∧ e.retries = false ∧ step = .discard) → False := by
      rintro step (⟨h, -⟩ | ⟨-, h, -⟩)
      · exact hstops h
      · rw [hretries] at h; cases h
    rw [if_pos hretries]
    by_cases hmore : w.attempts + 1 < 4
    · rw [if_pos hmore, pendRead_free (s := s.setChannel ch (some { w with attempts := w.attempts + 1 }))
        (w := { w with attempts := w.attempts + 1 }) hl hslot hk hfree hread]
      exact ⟨{ w with attempts := w.attempts + 1 }, _, s.memory, [], rfl, ⟨rfl, rfl⟩, fun _ _ _ => ⟨rfl, rfl, rfl⟩,
        fun _ _ h => absurd h (by omega), fun step h => (hnot step h).elim⟩
    · rw [if_neg hmore]
      have hpend : (s.setChannel ch (some { w with attempts := w.attempts + 1, step := .relink })).pendOrder c .relink
          = onward s c ch { w with attempts := w.attempts + 1, step := .relink }
              { l with orders := { l.orders with relink := true } } s.memory [] := by
        unfold State.pendOrder
        change State.setLine _ c (s.lines[c].pend .relink) = _
        rw [hl, pend_free hfree (by simp)]
        rfl
      exact ⟨_, _, _, _, hpend, ⟨rfl, rfl⟩, fun _ _ h => absurd h (by omega), fun _ _ h => ⟨by rw [h], rfl, rfl⟩,
        fun step h => (hnot step h).elim⟩
  · rw [if_neg hretries, discardReadout_eq hl hslot hfree]
    refine ⟨_, _, _, _, rfl, returned_bytes _ _ _, fun _ h => absurd h hretries, fun _ h => absurd h hretries, ?_⟩
    rintro step (⟨h, -⟩ | ⟨-, -, rfl⟩)
    · exact absurd h hstops
    · exact ⟨rfl, rfl, rfl⟩

end Fails

/-! ## Shots whose records change, but not their state or camera -/

section SameShots

variable {s : State} {r : ShotRef} {f : Shot → Shot}

theorem cameraOf_modifyShot (h : ∀ k, (f k).camera = k.camera) (q : ShotRef) :
    (s.modifyShot r f).cameraOf q = s.cameraOf q := by
  unfold State.cameraOf
  rw [shot?_modifyShot, Option.map_map]
  congr 1
  funext k
  change (if q = r then f k else k).camera = k.camera
  split
  · exact h k
  · rfl

theorem shotState_modifyShot (h : ∀ k, (f k).state = k.state) (q : ShotRef) :
    (s.modifyShot r f).shotState q = s.shotState q := by
  unfold State.shotState
  rw [shot?_modifyShot, Option.map_map]
  congr 1
  funext k
  change (if q = r then f k else k).state = k.state
  split
  · exact h k
  · rfl

theorem serving?_modifyShot (h : ∀ k, (f k).camera = k.camera) (c : Camera) :
    (s.modifyShot r f).serving? c = s.serving? c :=
  serving?_congr c rfl (cameraOf_modifyShot h)

end SameShots

/-- A slot that holds a shot is what `slotOf` finds. -/
theorem slots_of_slotOf {l : CameraLine} {r : ShotRef} {slot : SlotNo} (h : l.slotOf r = some slot) :
    l.slots[slot] = some r := by
  unfold CameraLine.slotOf at h
  split at h
  · next h0 => cases h; exact h0
  · split at h
    · next h1 => cases h; exact h1
    · cases h

/-! ## A final try that fails (R124) -/

section Final

variable {s : State} {c : Camera} {ch : ChannelNo} {w : ChannelWork} {k : Shot}

/-- The shot being read ends, PARTIAL or LOST, and its channel is idle. -/
theorem goDown_reading (hserving : s.serving? c = some (ch, w)) (hk : s.shot? w.shot = some k) (cause : LineCause) :
    (s.goDown c cause).readout.channels = setAt s.readout.channels ch none
    ∧ (s.goDown c cause).shotState w.shot = some (if k.segmentsStored = 0 then .lost else .partialStored) := by
  obtain ⟨-, -, -, -, hshots, hchannels⟩ := goDown_facts s c cause
  obtain ⟨-, hreadout, hread⟩ := finishReading_some (s := s.setLine c s.lines[c].dropOrders) hserving hk
  refine ⟨by rw [hchannels, hreadout]; rfl, ?_⟩
  have hended : ((s.setLine c s.lines[c].dropOrders).finishReading c).shot? w.shot
      = some { k with state := if k.segmentsStored = 0 then .lost else .partialStored } := by
    rw [hread, show (s.setLine c s.lines[c].dropOrders).shot? w.shot = some k from hk, Option.map_some, if_pos rfl]
  have hkeeps : ∀ (q : State) (x : Option ShotRef) (k' : Shot), q.shot? w.shot = some k' → k'.state ≠ .held →
      (q.loseHeld x).shot? w.shot = some k' := fun q x k' hq hk' => by
    obtain ⟨-, -, hheld⟩ := loseHeld_facts q x
    rw [hheld, hq, Option.map_some, if_neg (fun h => hk' h.2)]
  have hnot : (if k.segmentsStored = 0 then ShotState.lost else .partialStored) ≠ .held := by
    split <;> decide
  unfold State.shotState
  rw [hshots, hkeeps _ _ _ (hkeeps _ _ _ hended hnot) hnot]
  rfl

end Final

/-! ## What a failed attempt leaves behind it -/

section Failed

variable {s : State} {c : Camera} {ch : ChannelNo} {w : ChannelWork} {k : Shot} {slot : SlotNo}

/-- The line goes DOWN as it would before the ended READ marks it: the mark is dropped with its orders (R118, R124). -/
theorem readTaken_goDown (s : State) (c : Camera) (w : ChannelWork) (flags : FlagSet) (e : CameraEntry)
    (m : FrameMemory) (cause : LineCause) : (readTaken s c w flags e m).goDown c cause
      = (((s.setMemory m).setLine c { s.lines[c] with
            outstanding := none, accumulated := s.lines[c].accumulated ||| flags }).modifyShot w.shot
          (·.takeFlags flags e.careSet)).goDown c cause := by
  set b := ((s.setMemory m).setLine c { s.lines[c] with
    outstanding := none, accumulated := s.lines[c].accumulated ||| flags }).modifyShot w.shot
      (·.takeFlags flags e.careSet) with hb
  have hline : b.lines[c] = { s.lines[c] with
      outstanding := none, accumulated := s.lines[c].accumulated ||| flags } := lines_setLine (s.setMemory m) c _
  have htaken : readTaken s c w flags e m = b.setLine c (readEnded s.lines[c] flags e.disableSet) := by
    rw [hb]
    change _ = State.modifyShot (((s.setMemory m).setLine c _).setLine c _) w.shot _
    rw [setLine_setLine]
    rfl
  rw [htaken]
  exact goDown_setLine (l := readEnded s.lines[c] flags e.disableSet) (by rw [hline]; rfl) cause

/-- Everything R124 says of a line holds of one that a failed READ takes DOWN. -/
theorem readTaken_wentDown (hserving : s.serving? c = some (ch, w)) (hk : s.shot? w.shot = some k)
    (hreading : k.state = .reading) (hslot : s.lines[c].slotOf w.shot = some slot)
    (htwo : ∀ r, s.lines[c].slots[(0 : SlotNo)] = some r → s.lines[c].slots[(1 : SlotNo)] ≠ some r)
    (hslots : ∀ (x : SlotNo) (r : ShotRef), s.lines[c].slots[x] = some r →
      s.shotState r = some .held ∨ s.shotState r = some .reading)
    (flags : FlagSet) (e : CameraEntry) (m : FrameMemory) (cause : LineCause) :
    WentDown (((s.setMemory m).setLine c { s.lines[c] with
          outstanding := none, accumulated := s.lines[c].accumulated ||| flags }).modifyShot w.shot
        (·.takeFlags flags e.careSet)) ((readTaken s c w flags e m).goDown c cause) c cause := by
  rw [readTaken_goDown]
  set a := (s.setMemory m).setLine c { s.lines[c] with
    outstanding := none, accumulated := s.lines[c].accumulated ||| flags } with ha
  have hline : (a.modifyShot w.shot (·.takeFlags flags e.careSet)).lines[c] = { s.lines[c] with
      outstanding := none, accumulated := s.lines[c].accumulated ||| flags } := lines_setLine (s.setMemory m) c _
  have hstates : ∀ r, (a.modifyShot w.shot (·.takeFlags flags e.careSet)).shotState r = s.shotState r := fun r =>
    shotState_modifyShot (s := a) (f := (·.takeFlags flags e.careSet)) (fun _ => rfl) r
  refine goDown_wentDown _ c cause (fun ch' w' hserve => ?_) (by rw [hline]; exact htwo) fun x r hr => ?_
  · rw [serving?_modifyShot (s := a) (f := (·.takeFlags flags e.careSet)) (fun _ => rfl),
      show a.serving? c = some (ch, w) from hserving] at hserve
    cases hserve
    rw [hstates, hline]
    exact ⟨(shotState_of hk).trans (congrArg some hreading), slot, slots_of_slotOf hslot⟩
  · rw [hline] at hr
    rw [hstates]
    exact hslots x r hr

/-- The command ends the READ in flight as a failure, with these flags, and leaves frame memory so: a failed outcome or
a wrong check, whose bytes stay, or the timeout, which brings nothing (R113, R116). -/
def EndsInFailure (s : State) (c : Camera) (w : ChannelWork) (issued : Nat) (flags : FlagSet) (command : Instr)
    (m : FrameMemory) : Prop :=
  (∃ bytes check outcome, command = .readComplete ⟨c, issued⟩ bytes check outcome flags
      ∧ (outcome = .failed ∨ crc32 bytes ≠ check) ∧ m = written s.memory (physicalOf s.memory w) bytes)
    ∨ (command = .orderTimeout c ∧ issued + 50000 ≤ s.clock.elapsed ∧ flags = 0 ∧ m = s.memory)

section Ends

variable {seg issued : Nat} {release : Bool} {flags : FlagSet} {p : Passage} {e : CameraEntry} {command : Instr}
  {m n : FrameMemory}

/-- Its attempt fails once its flags and bytes are taken (R113). -/
theorem exec_readFails (hout : s.lines[c].outstanding = some ⟨.read slot seg release, issued + 50000, false⟩)
    (hserving : s.serving? c = some (ch, w)) (hp : s.passage? w.shot.passage = some p)
    (he : e = s.banks.slots[p.bank].contents.cameras[c]) (h : EndsInFailure s c w issued flags command m) :
    exec command s
      = .next (((readTaken s c w flags e m).attemptFailed c ch w).afterOrder c).endEvent := by
  rcases h with ⟨bytes, check, outcome, rfl, hwrong, rfl⟩ | ⟨rfl, hends, rfl, rfl⟩
  · rw [exec_readComplete hout, endOrder_acts rfl, readAnswered_eq hserving hp he slot release bytes _ _ flags rfl,
      if_neg]
    rintro ⟨rfl, hcheck⟩
    exact hwrong.elim nofun (fun h => h hcheck)
  · rw [exec_orderTimeout hout hends, endOrder_acts rfl, readTimedOut_eq hserving slot seg release e]

/-- The bytes that came stand in the segment's physical page, and no other byte changes (R140). -/
theorem EndsInFailure.stored (h : EndsInFailure s c w issued flags command m) (hn : SameBytes m n) {bytes : List Byte}
    {check : BitVec 32} {outcome : ReadOutcome} {ph : Nat}
    (hcommand : command = .readComplete ⟨c, issued⟩ bytes check outcome flags)
    (hphysical : physicalOf s.memory w = some ph) (hlen : bytes.length = 65536) :
    (∀ i, i < 65536 → n.byteAt (ph * 65536 + i) = bytes.getD i 0)
    ∧ ∀ a, a < ph * 65536 ∨ ph * 65536 + 65536 ≤ a → n.byteAt a = s.memory.byteAt a := by
  subst hcommand
  rcases h with ⟨_, _, _, hsame, -, rfl⟩ | ⟨hother, -⟩
  · cases hsame
    exact byteAt_written hlen (by rw [hn.1, hphysical])
  · cases hother

/-- A timeout, or an answer for a segment without a physical page, changes no byte. -/
theorem EndsInFailure.unstored (h : EndsInFailure s c w issued flags command m) (hn : SameBytes m n)
    (hnone : command = .orderTimeout c ∨ physicalOf s.memory w = none) :
    (∀ a, n.byteAt a = s.memory.byteAt a) ∧ n.wrong = s.memory.wrong := by
  have hm : m = s.memory := by
    rcases h with ⟨bytes, check, outcome, rfl, -, rfl⟩ | ⟨-, -, -, hm⟩
    · rcases hnone with hother | hnone
      · cases hother
      · rw [hnone]
        rfl
    · exact hm
  subst hm
  exact ⟨hn.byteAt, hn.2⟩

/-- Writes take no reservation away. -/
theorem EndsInFailure.reservations (h : EndsInFailure s c w issued flags command m) :
    m.reservations = s.memory.reservations := by
  rcases h with ⟨bytes, check, outcome, -, -, rfl⟩ | ⟨-, -, -, rfl⟩
  · cases physicalOf s.memory w <;> rfl
  · rfl

end Ends

end Failed

theorem readEnded_mark (l : CameraLine) (flags disable : FlagSet) : (readEnded l flags disable).disableMark = true
    ↔ l.disableMark = true ∨ (l.state = .inService ∧ flags &&& disable ≠ 0) := by
  unfold readEnded
  simp

/-- Settles O53: the attempt fails in the state that the answer or the timeout leaves; the readout then goes on or
stores no more, and after a final try its line goes DOWN. -/
theorem readFails : Obligations.ReadFails := by
  intro s c ch w k p slot seg release issued flags e command physical m hout hread hserving hk hp hreading hstep hslot
    he hphysical hcommand
  obtain rfl : physical = physicalOf s.memory w := hphysical
  have hends : EndsInFailure s c w issued flags command m := by
    rcases hcommand with ⟨bytes, check, outcome, hinstr, hwrong, hnone, hsome⟩ | htimeout
    · refine .inl ⟨bytes, check, outcome, hinstr, hwrong, ?_⟩
      cases hph : physicalOf s.memory w with
      | none => exact hnone hph
      | some ph => exact hsome ph hph
    · exact .inr htimeout
  set t := readTaken s c w flags e m with ht
  obtain ⟨htline, htothers⟩ := readTaken_line s c w flags e m
  have hexec := exec_readFails hout hserving hp he hends
  have htshot := readTaken_shot (c := c) hk flags e m
  rw [← ht] at htline htothers hexec htshot
  rcases hstep with hstep | hstep
  · have hentry : t.shotEntry w.shot c = e :=
      (shotEntry_of (s := t) (readTaken_passage (c := c) hp flags e m)).trans he.symm
    obtain ⟨w', orders, n, ns, hgo, hbytes, hretry, hrelink, hdiscard⟩ := attemptFailed_onward htline
      (slot := slot) hslot htshot (readTaken_passage hp flags e m) rfl hread ch (by rw [hstep]; decide) hentry
    obtain ⟨hsame, htable, hreadout, hmemory, hline, hothers⟩ :=
      onward_facts t c ch w' { readEnded s.lines[c] flags e.disableSet with orders := orders } n ns
    rw [← hgo] at hsame htable hreadout hmemory hline hothers
    refine ⟨_, hexec, fun _ bytes check outcome ph hinstr hph hlen => hends.stored (hmemory ▸ hbytes) hinstr hph hlen,
      fun hnone => hends.unstored (hmemory ▸ hbytes) hnone, fun j hj => (hothers j hj).trans (htothers j hj),
      hsame.clock, hsame.tracks, hsame.fire, hsame.strobes, hsame.shotQueue, hsame.banks, by rw [hline]; rfl,
      by rw [hline]; rfl, fun _ => ?_, fun hr => absurd (hstep.symm.trans hr) (by decide)⟩
    rw [hline, hreadout, hmemory]
    refine ⟨(shot?_of_table htable _).trans htshot, rfl, rfl, rfl, readEnded_mark _ _ _, rfl, fun h1 h2 h3 => ?_,
      fun h1 h2 h3 => ?_, fun step h => ?_⟩
    · obtain ⟨rfl, rfl, rfl⟩ := hretry h1 h2 h3
      exact ⟨rfl, rfl, rfl⟩
    · obtain ⟨rfl, rfl, rfl⟩ := hrelink h1 h2 h3
      exact ⟨rfl, rfl, rfl⟩
    · obtain ⟨rfl, rfl, rfl⟩ := hdiscard step h
      refine ⟨rfl, rfl, fun freed hnone hsome => ?_⟩
      have hfreed : (freedPage m w.page).1 = freed := by
        cases hpage : w.page with
        | none => exact (hnone hpage).symm
        | some j => exact (hsome j hpage).symm
      rw [← hfreed, ← hends.reservations]
      rfl
  · rw [attemptFailed_final hstep] at hexec
    have htserving : t.serving? c = some (ch, w) :=
      (serving?_modifyShot (f := (·.takeFlags flags e.careSet)) (fun _ => rfl) c).trans hserving
    obtain ⟨hsame, hline, hothers, -⟩ := goDown_facts t c .readFailure
    obtain ⟨hchannels, hended⟩ := goDown_reading htserving htshot .readFailure
    have hbytes : SameBytes m (t.goDown c .readFailure).memory := goDown_bytes t c .readFailure
    rw [htline] at hline
    refine ⟨_, hexec, fun _ bytes check outcome ph hinstr hph hlen => hends.stored hbytes hinstr hph hlen,
      hends.unstored hbytes, fun j hj => (hothers j hj).trans (htothers j hj), hsame.clock, hsame.tracks, hsame.fire,
      hsame.strobes, hsame.shotQueue, hsame.banks, by rw [hline]; rfl, by rw [hline],
      fun hr => absurd (hstep.symm.trans hr) (by decide), fun _ => ?_⟩
    refine ⟨by rw [hline], by rw [hline], by rw [hline], by rw [hline], by rw [hline], hchannels, hended,
      fun htwo hslots => ?_⟩
    exact readTaken_wentDown hserving hk hreading hslot htwo hslots flags e m .readFailure

end Sys2Proof.Proofs

/-! PROOFS of the family of frame memory, its requests, the transmitter and the close of an event. First the page map:
every operation on it keeps the spares sound (R135). -/

namespace Sys2Proof.Proofs

open Sys2Proof.Machine

section Spares

variable {m n : FrameMemory} {k sp : Nat}

/-! ## One page changed -/

theorem usable_iff (m : FrameMemory) (sp : Nat) :
    m.usable sp = true ↔ (8192 ≤ sp ∧ sp < 8320) ∧ m.bad sp = false ∧ m.assigned sp = false := by
  unfold FrameMemory.usable isSpare logicalPages sparePages
  simp [and_assoc]

theorem lowestUsable_usable (h : m.lowestUsable = some sp) : m.usable sp = true := List.find?_some h

/-- The spare a page is retired to is usable. -/
theorem target_usable {preferred : Option Nat} (h : m.target preferred = some sp) : m.usable sp = true := by
  unfold FrameMemory.target at h
  split at h
  · split at h
    · next hu => cases h; exact hu
    · exact lowestUsable_usable h
  · exact lowestUsable_usable h

/-- A usable spare is one of the 128, is not bad, and no page is mapped to it (R135). -/
theorem usable_free (hm : m.wf) (h : m.usable sp = true) :
    (8192 ≤ sp ∧ sp < 8320) ∧ m.bad sp = false ∧ ∀ j, (m.page j).spare ≠ some sp := by
  obtain ⟨hrange, hbad, hassigned⟩ := (usable_iff m sp).1 h
  refine ⟨hrange, hbad, fun j hj => ?_⟩
  rw [(FrameMemory.assigned_iff hm sp).2 ⟨j, hj⟩] at hassigned
  cases hassigned

/-- One page changes, and every other keeps a spare that does not go bad. -/
theorem sparesSound_of_page (hm : m.sparesSound) (hothers : ∀ j, j ≠ k → n.page j = m.page j)
    (hgood : ∀ j, j ≠ k → ∀ sp, (m.page j).spare = some sp → n.bad sp = false)
    (hnew : ∀ sp, (n.page k).spare = some sp →
      8192 ≤ sp ∧ sp < 8320 ∧ n.bad sp = false ∧ ∀ j, j ≠ k → (m.page j).spare ≠ some sp)
    (hnone : (n.page k).condition = .outOfService → (n.page k).spare = none) : n.sparesSound := by
  obtain ⟨honce, hrange, hout⟩ := hm
  refine ⟨fun i j sp hi hj => ?_, fun j sp hj => ?_, fun j hj => ?_⟩
  · by_cases hik : i = k
    · by_cases hjk : j = k
      · rw [hik, hjk]
      · rw [hik] at hi
        rw [hothers j hjk] at hj
        exact absurd hj ((hnew sp hi).2.2.2 j hjk)
    · rw [hothers i hik] at hi
      by_cases hjk : j = k
      · rw [hjk] at hj
        exact absurd hi ((hnew sp hj).2.2.2 i hik)
      · rw [hothers j hjk] at hj
        exact honce i j sp hi hj
  · by_cases hjk : j = k
    · rw [hjk] at hj
      obtain ⟨hlow, hhigh, hbad, -⟩ := hnew sp hj
      exact ⟨hlow, hhigh, hbad⟩
    · rw [hothers j hjk] at hj
      obtain ⟨hlow, hhigh, -⟩ := hrange j sp hj
      exact ⟨hlow, hhigh, hgood j hjk sp hj⟩
  · by_cases hjk : j = k
    · rw [hjk] at hj ⊢
      exact hnone hj
    · rw [hothers j hjk] at hj ⊢
      exact hout j hj

theorem sparesSound_of_same (hm : m.sparesSound) (hpages : n.pages = m.pages) (hbad : n.badSpares = m.badSpares) :
    n.sparesSound := by
  have hpage : ∀ j, n.page j = m.page j := fun j => by unfold FrameMemory.page; rw [hpages]
  unfold FrameMemory.sparesSound FrameMemory.bad
  simp only [hpage, hbad]
  exact hm

/-- A page takes a record on the spare it has, or on none. -/
theorem sparesSound_setPage (hwf : m.wf) (hm : m.sparesSound) {p : Page}
    (hspare : p.spare = none ∨ p.spare = (m.page k).spare)
    (hout : p.condition = .outOfService → p.spare = none) : (m.setPage k p).sparesSound := by
  have hself := FrameMemory.page_setPage_self hwf k p
  refine sparesSound_of_page hm (fun j hj => FrameMemory.page_setPage_ne hwf k j p hj)
    (fun j _ sp hj => (hm.2.1 j sp hj).2.2) (fun sp hsp => ?_) (by rw [hself]; exact hout)
  rw [hself] at hsp
  rcases hspare with he | he
  · rw [he] at hsp; cases hsp
  · rw [he] at hsp
    obtain ⟨hlow, hhigh, hbad⟩ := hm.2.1 k sp hsp
    exact ⟨hlow, hhigh, hbad, fun j hj hspj => hj (hm.1 j k sp hspj hsp)⟩

/-! ## The operations on the page map -/

/-- An operation that keeps the page map canonical and its spares sound. -/
def MapKept (m n : FrameMemory) : Prop := m.wf ∧ m.sparesSound → n.wf ∧ n.sparesSound

theorem MapKept.refl (m : FrameMemory) : MapKept m m := id

theorem MapKept.trans {q : FrameMemory} (h : MapKept m n) (h' : MapKept n q) : MapKept m q := h' ∘ h

/-- Pages and bad spares as they were, the bytes canonical. -/
theorem MapKept.same (hwf : m.wf → n.wf) (hpages : n.pages = m.pages) (hbad : n.badSpares = m.badSpares) :
    MapKept m n := fun ⟨hm, hs⟩ => ⟨hwf hm, sparesSound_of_same hs hpages hbad⟩

theorem MapKept.setPage {p : Page} (hspare : p.spare = none ∨ p.spare = (m.page k).spare)
    (hout : p.condition = .outOfService → p.spare = none) : MapKept m (m.setPage k p) :=
  fun ⟨hm, hs⟩ => ⟨FrameMemory.setPage_wf hm k p, sparesSound_setPage hm hs hspare hout⟩

/-- The spare that a retired page leaves is bad, and no other page is on it; the target was usable (R144). -/
theorem MapKept.retire (m : FrameMemory) (k : Nat) (preferred : Option Nat) (cause : RetireCause) :
    MapKept m (m.retire k preferred cause).1 := by
  rintro ⟨hm, hs⟩
  obtain ⟨hpage, hbadSpares, -, hothers, -⟩ := FrameMemory.retire_facts hm k preferred cause
  have hbad : ∀ sp, m.bad sp = false → (m.page k).spare ≠ some sp → (m.retire k preferred cause).1.bad sp = false :=
    fun sp hb hne => by
      unfold FrameMemory.bad at hb ⊢
      rw [← Bool.not_eq_true, List.contains_iff_mem] at hb ⊢
      rw [hbadSpares, mem_badWith]
      exact not_or.2 ⟨hb, hne⟩
  refine ⟨FrameMemory.retire_wf hm k preferred cause, sparesSound_of_page hs hothers (fun j hj sp hsp => ?_)
    (fun sp hsp => ?_) (fun hout => ?_)⟩
  · exact hbad sp (hs.2.1 j sp hsp).2.2 (fun hk => hj (hs.1 j k sp hsp hk))
  · rw [hpage] at hsp
    cases ht : m.target preferred with
    | none => rw [ht] at hsp; cases hsp
    | some x =>
      rw [ht] at hsp
      cases hsp
      obtain ⟨⟨hlow, hhigh⟩, hgood, hunassigned⟩ := usable_free hm (target_usable ht)
      exact ⟨hlow, hhigh, hbad sp hgood (hunassigned k), fun j _ => hunassigned j⟩
  · rw [hpage] at hout ⊢
    cases ht : m.target preferred with
    | none => rfl
    | some x => rw [ht] at hout; cases hout

theorem MapKept.free (m : FrameMemory) (k : Nat) : MapKept m (m.free k).1 := by
  unfold FrameMemory.free
  split
  · exact .setPage (.inr rfl) (nomatch ·)
  · exact .retire m k _ _

theorem MapKept.reserve (m : FrameMemory) (r : ShotRef) (c : Nat) : MapKept m (m.reserve r c) := .same id rfl rfl

theorem MapKept.returnReservation (m : FrameMemory) (r : ShotRef) : MapKept m (m.returnReservation r) :=
  .same id rfl rfl

theorem MapKept.draw (m : FrameMemory) (r : ShotRef) (segment : Nat) : MapKept m (m.draw r segment).1 := by
  unfold FrameMemory.draw
  split
  · next k _ =>
    have hheld : MapKept m (m.setPage k { m.page k with condition := .held ⟨r, segment⟩ }) :=
      .setPage (.inr rfl) (nomatch ·)
    exact hheld.trans (.same id rfl rfl)
  · exact .refl m

/-- A mark leaves a page's condition and spare alone (R142). -/
theorem MapKept.mark (m : FrameMemory) (k : Nat) (mark : Option RetireMark) :
    MapKept m (m.setPage k { m.page k with mark := mark }) := fun h =>
  MapKept.setPage (p := { m.page k with mark := mark }) (.inr rfl) (h.2.2.2 k) h

theorem MapKept.markDamaged (m : FrameMemory) (page : Option Nat) (damaged : Bool) :
    MapKept m (m.markDamaged page damaged) := by
  unfold FrameMemory.markDamaged
  split
  · split
    · unfold FrameMemory.markByFetch
      dsimp only
      split
      · exact .mark m _ _
      · exact .refl m
    · exact .refl m
  · exact .refl m

theorem MapKept.write (m : FrameMemory) (base : Nat) (bytes : List Byte) : MapKept m (m.write base bytes) :=
  .same (fun h => FrameMemory.write_wf h base bytes) rfl rfl

theorem MapKept.upsets (m : FrameMemory) (bits : List Nat) : MapKept m (m.upsets bits) := by
  have heq := upsets_eq bits m
  exact .same (fun h => FrameMemory.upsets_wf h bits) (by rw [heq]) (by rw [heq])

theorem MapKept.restart (m : FrameMemory) (low : Bool) : MapKept m { m.restart with low := low } := by
  have hfold : ∀ (l : List Nat) (m : FrameMemory), MapKept m (l.foldl (fun q k => (q.free k).1) m) := fun l => by
    induction l with
    | nil => exact .refl
    | cons k l ih => exact fun m => (MapKept.free m k).trans (ih _)
  exact (hfold m.heldPages m).trans (.same id rfl rfl)

/-- A named spare that passes the checks is usable (R145). -/
theorem usable_of_named (h : m.retireRefusal k (some sp) = none) : m.usable sp = true := by
  unfold FrameMemory.retireRefusal at h
  dsimp only at h
  split_ifs at h with hk hspare hbad hself hassigned
  unfold FrameMemory.usable
  simp [hspare, hbad, hassigned]

/-- PAGE RETIRE's target for an OUT_OF_SERVICE page is usable, by the checks it has passed (R145, R146). -/
theorem retireRefusal_outOfService {spare : Option Nat} (h : m.retireRefusal k spare = none)
    (hout : (m.page k).condition = .outOfService) :
    ∃ sp, spare.or m.lowestUsable = some sp ∧ m.usable sp = true := by
  cases spare with
  | some sp => exact ⟨sp, rfl, usable_of_named h⟩
  | none =>
    cases hl : m.lowestUsable with
    | some sp => exact ⟨sp, rfl, lowestUsable_usable hl⟩
    | none =>
      unfold FrameMemory.retireRefusal at h
      dsimp only at h
      split_ifs at h with hk hnone
      exact absurd ⟨hout, hl⟩ hnone

theorem MapKept.pageRetire {spare : Option Nat} (h : m.retireRefusal k spare = none) :
    MapKept m (m.pageRetire k spare).1 := by
  rintro ⟨hm, hs⟩
  refine (?_ : MapKept m (m.pageRetire k spare).1) ⟨hm, hs⟩
  unfold FrameMemory.pageRetire
  split
  · exact .retire m k _ _
  · exact .mark m k _
  · next hout =>
    intro _
    obtain ⟨sp, hsp, husable⟩ := retireRefusal_outOfService h hout
    obtain ⟨⟨hlow, hhigh⟩, hgood, hunassigned⟩ := usable_free hm husable
    unfold FrameMemory.returnToService
    rw [hsp]
    have hself := FrameMemory.page_setPage_self hm k ⟨.free, some sp, none⟩
    refine ⟨FrameMemory.setPage_wf hm k _, sparesSound_of_page hs (fun j hj => FrameMemory.page_setPage_ne hm k j _ hj)
      (fun j _ x hj => (hs.2.1 j x hj).2.2) (fun x hx => ?_) (by rw [hself]; exact (nomatch ·))⟩
    rw [hself] at hx
    cases hx
    exact ⟨hlow, hhigh, hgood, fun j _ => hunassigned j⟩

end Spares

end Sys2Proof.Proofs

/-! PROOFS. The page map under the operations of an event: readout, camera lines, firing, planning and matching
(R135, R137 to R144). -/

namespace Sys2Proof.Proofs

open Sys2Proof.Machine

section Readout

variable {s t u : State}

/-- An operation that keeps the page map canonical and its spares sound. -/
def SparesKept (s t : State) : Prop := MapKept s.memory t.memory

theorem SparesKept.same (h : t.memory = s.memory := by rfl) : SparesKept s t := by
  unfold SparesKept
  rw [h]
  exact .refl _

theorem SparesKept.refl (s : State) : SparesKept s s := .same

theorem SparesKept.trans (h : SparesKept s t) (k : SparesKept t u) : SparesKept s u := MapKept.trans h k

/-- An operation after one that leaves the memory alone. -/
theorem SparesKept.behind (h : SparesKept t u) (ht : t.memory = s.memory := by rfl) : SparesKept s u :=
  (SparesKept.same ht).trans h

theorem SparesKept.foldl {α : Type} (f : State → α → State) (h : ∀ s a, SparesKept s (f s a)) (l : List α) :
    ∀ s : State, SparesKept s (l.foldl f s) := by
  induction l with
  | nil => exact .refl
  | cons a l ih => exact fun s => (h s a).trans (ih _)

theorem SparesKept.setMemory {m : FrameMemory} (h : MapKept s.memory m) : SparesKept s (s.setMemory m) := h

theorem SparesKept.queueNotice (s : State) (n : Notice) : SparesKept s (s.queueNotice n) :=
  .same (State.queueNotice_memory s n)

theorem SparesKept.queueNotices (s : State) (ns : List Notice) : SparesKept s (s.queueNotices ns) :=
  .foldl _ SparesKept.queueNotice ns s

theorem SparesKept.checkSettled (s : State) (n : Nat) : SparesKept s (s.checkSettled n) := by
  obtain ⟨-, -, -, hmemory, -⟩ := checkSettled_facts s n
  exact .same hmemory

theorem SparesKept.endShot (s : State) (r : ShotRef) (st : ShotState) : SparesKept s (s.endShot r st) :=
  .behind (.checkSettled _ _)

/-! ## Camera lines (R127, R131) -/

theorem SparesKept.changeLine (s : State) (c : Camera) (st : LineState) (why : LineCause) (k : Nat) :
    SparesKept s (s.changeLine c st why k) := .same (changeLine_memory s c st why k)

theorem SparesKept.beginLinking (s : State) (c : Camera) (why : LineCause) : SparesKept s (s.beginLinking c why) :=
  SparesKept.changeLine (s.setLine c { s.lines[c] with accumulated := 0 }) c .linking why 0

theorem SparesKept.finishLinking (s : State) (c : Camera) (f : FlagSet) : SparesKept s (s.finishLinking c f) :=
  SparesKept.changeLine (s.setLine c { s.lines[c] with linking := none }) c _ _ _

theorem SparesKept.linkingSensed (s : State) (c : Camera) (f : FlagSet) (a b : Bool) :
    SparesKept s (s.linkingSensed c f a b) := by
  unfold State.linkingSensed
  dsimp only
  split
  · exact .same
  · exact .finishLinking s c f

theorem SparesKept.linkingDiscarded (s : State) (c : Camera) (k : SlotNo) : SparesKept s (s.linkingDiscarded c k) := by
  unfold State.linkingDiscarded
  dsimp only
  split
  · split
    · split
      · exact .same
      · exact .same
    · exact .refl s
  · split
    · exact .same
    · exact .finishLinking s c _
  · exact .refl s

theorem SparesKept.linkingRelinked (s : State) (c : Camera) : SparesKept s (s.linkingRelinked c) := by
  unfold State.linkingRelinked
  dsimp only
  split
  · exact .same
  · exact .refl s

theorem SparesKept.linkingResumed (s : State) (c : Camera) : SparesKept s (s.linkingResumed c) := by
  unfold State.linkingResumed
  dsimp only
  split
  · exact .same
  · exact .refl s

theorem SparesKept.failSense (s : State) (c : Camera) (d : Detail) : SparesKept s (s.failSense c d) :=
  .same (failSense_memory s c d)

theorem SparesKept.answerSense (s : State) (c : Camera) (f : FlagSet) (a b : Bool) :
    SparesKept s (s.answerSense c f a b) := by
  unfold State.answerSense
  split
  · split
    · exact .same
    · exact .refl s
  · exact .refl s

/-! ## Pages freed, drawn and returned (R138, R139, R143) -/

theorem SparesKept.freePage (s : State) (k : Nat) : SparesKept s (s.freePage k) :=
  SparesKept.trans (.setMemory (.free s.memory k)) (.queueNotices _ _)

theorem SparesKept.freePages (s : State) (ks : List Nat) : SparesKept s (s.freePages ks) :=
  .foldl _ SparesKept.freePage ks s

theorem SparesKept.returnPages (s : State) (r : ShotRef) (page : Option Nat) :
    SparesKept s (s.returnPages r page) := by
  unfold State.returnPages
  cases page with
  | none => exact MapKept.returnReservation _ r
  | some k => exact (SparesKept.freePage s k).trans (MapKept.returnReservation _ r)

theorem SparesKept.pendRead (s : State) (c : Camera) (w : ChannelWork) : SparesKept s (s.pendRead c w) := by
  unfold State.pendRead
  split
  · exact .same
  · exact .refl s

theorem SparesKept.startSegment (s : State) (c : Camera) (ch : ChannelNo) (w : ChannelWork) :
    SparesKept s (s.startSegment c ch w) :=
  SparesKept.trans (t := (s.drawPage w.shot w.segment).1) (MapKept.draw s.memory w.shot w.segment)
    (.behind (.pendRead _ c _))

theorem SparesKept.grantOne (s : State) : SparesKept s s.grantOne := by
  unfold State.grantOne
  split
  · split
    · exact .behind (.startSegment _ _ _ _)
    · exact .refl s
  · exact .refl s

theorem SparesKept.grantAll (s : State) : SparesKept s s.grantAll :=
  (((SparesKept.grantOne s).trans (.grantOne _)).trans (.grantOne _)).trans (.grantOne _)

/-! ## The end of a readout, and DOWN (R121 to R124) -/

theorem SparesKept.finishShot (s : State) (r : ShotRef) (st : ShotState) : SparesKept s (s.finishShot r st) := by
  obtain ⟨-, -, -, hmemory, -⟩ := finishShot_facts s r st
  exact .same hmemory

theorem SparesKept.endReadout (s : State) (c : Camera) (ch : ChannelNo) (r : ShotRef) (st : ShotState) :
    SparesKept s (s.endReadout c ch r st) := by
  obtain ⟨-, -, -, hmemory, -, -⟩ := endReadout_facts s c ch r st
  exact .same hmemory

theorem SparesKept.discardReadout (s : State) (c : Camera) (ch : ChannelNo) (w : ChannelWork) (step : ChannelStep) :
    SparesKept s (s.discardReadout c ch w step) := by
  unfold State.discardReadout
  dsimp only
  split
  · exact .returnPages s _ _
  · exact .returnPages s _ _

theorem SparesKept.finishReading (s : State) (c : Camera) : SparesKept s (s.finishReading c) := by
  unfold State.finishReading
  split
  · exact .refl s
  · dsimp only
    split
    · exact .finishShot s _ _
    · exact (SparesKept.returnPages s _ _).trans (.finishShot _ _ _)

theorem SparesKept.loseHeld (s : State) (r : Option ShotRef) : SparesKept s (s.loseHeld r) := by
  unfold State.loseHeld
  split
  · split
    · exact (SparesKept.returnPages (s.leaveReadoutQueue _) _ none).trans (.finishShot _ _ _)
    · exact .refl s
  · exact .refl s

theorem SparesKept.reportSlot (s : State) (r : Option ShotRef) : SparesKept s (s.reportSlot r) :=
  .same (reportSlot_memory s r)

theorem SparesKept.goDown (s : State) (c : Camera) (why : LineCause) : SparesKept s (s.goDown c why) := by
  unfold State.goDown
  dsimp only
  refine SparesKept.trans ?_ (.failSense _ c _)
  refine SparesKept.trans ?_ (.changeLine _ c _ _ _)
  refine SparesKept.trans ?_ (.reportSlot _ _)
  refine SparesKept.trans ?_ (.reportSlot _ _)
  have hreading := SparesKept.finishReading (s.setLine c s.lines[c].dropOrders) c
  exact (hreading.trans (.loseHeld _ _)).trans (.loseHeld _ _)

/-! ## Answers and timeouts (R113 to R116, R121 to R127) -/

theorem SparesKept.writeSegment (s : State) (w : ChannelWork) (bytes : List Byte) :
    SparesKept s (s.writeSegment w bytes) := by
  unfold State.writeSegment
  split
  · exact .refl s
  · split
    · exact .setMemory (.write s.memory _ _)
    · exact .refl s

theorem SparesKept.attemptSucceeded (s : State) (c : Camera) (ch : ChannelNo) (w : ChannelWork) (k : SlotNo)
    (last : Bool) : SparesKept s (s.attemptSucceeded c ch w k last) := by
  unfold State.attemptSucceeded
  dsimp only
  split
  · exact .behind (.endReadout _ c ch _ _)
  · split
    · exact .behind (.discardReadout _ c ch _ _)
    · exact .behind (.startSegment _ c ch _)

theorem SparesKept.attemptFailed (s : State) (c : Camera) (ch : ChannelNo) (w : ChannelWork) :
    SparesKept s (s.attemptFailed c ch w) := by
  unfold State.attemptFailed
  split
  · exact .goDown s c _
  · split
    · exact .discardReadout s c ch _ _
    · split
      · dsimp only
        split
        · exact .behind (.pendRead _ c _)
        · exact .same
      · exact .discardReadout s c ch _ _

theorem SparesKept.readAnswered (s : State) (c : Camera) (k : SlotNo) (last : Bool) (bytes : List Byte)
    (check : BitVec 32) (o : ReadOutcome) (f : FlagSet) : SparesKept s (s.readAnswered c k last bytes check o f) := by
  unfold State.readAnswered
  split
  · exact .refl s
  · next ch w _ =>
    dsimp only
    have hwritten := SparesKept.writeSegment (s.takeReadFlags c w.shot f) w bytes
    split
    · exact hwritten.trans (.attemptSucceeded _ c _ _ k last)
    · exact hwritten.trans (.attemptFailed _ c _ _)

theorem SparesKept.finishDiscarded (s : State) (c : Camera) (r : ShotRef) : SparesKept s (s.finishDiscarded c r) := by
  unfold State.finishDiscarded
  split
  · split
    · exact .endReadout s c _ r _
    · exact .endShot s r _
  · exact .endShot s r _

theorem SparesKept.discardAnswered (s : State) (c : Camera) (k : SlotNo) : SparesKept s (s.discardAnswered c k) := by
  unfold State.discardAnswered
  dsimp only
  refine SparesKept.trans ?_ (.linkingDiscarded _ c k)
  split
  · exact .behind (.finishDiscarded _ c _)
  · exact .same

theorem SparesKept.relinkAnswered (s : State) (c : Camera) : SparesKept s (s.relinkAnswered c) := by
  unfold State.relinkAnswered
  dsimp only
  refine SparesKept.trans ?_ (.linkingRelinked _ c)
  split
  · split
    · split
      · exact .discardReadout s c _ _ _
      · exact .behind (.pendRead _ c _)
    · exact .refl s
  · exact .refl s

theorem SparesKept.senseAnswered (s : State) (c : Camera) (f : FlagSet) (a b : Bool) :
    SparesKept s (s.senseAnswered c f a b) := by
  unfold State.senseAnswered
  dsimp only
  have hanswered := SparesKept.answerSense (s.setLine c (s.lines[c].takeFlags f)) c f a b
  split
  · exact hanswered.trans (.linkingSensed _ c f a b)
  · exact hanswered

theorem SparesKept.orderTimedOut (s : State) (c : Camera) (o : Order) : SparesKept s (s.orderTimedOut c o) := by
  unfold State.orderTimedOut
  split
  · split
    · exact .attemptFailed s c _ _
    · exact .refl s
  · exact .goDown s c _
  · exact .goDown s c _
  · split
    · exact .goDown s c _
    · exact .failSense s c _

theorem SparesKept.endOrder (s : State) (c : Camera) (out : Outstanding) (act : State → State)
    (h : ∀ q, SparesKept q (act q)) : SparesKept s (s.endOrder c out act) := by
  have hafter : ∀ q : State, SparesKept q (q.afterOrder c) := fun q =>
    SparesKept.trans (t := (q.linkingResumed c).issueOrder c) (SparesKept.linkingResumed q c) (.grantAll _)
  unfold State.endOrder
  dsimp only
  refine SparesKept.trans ?_ (hafter _)
  split
  · exact .same
  · exact .behind (h _)

end Readout

section Planning

variable {s t u : State}

/-! ## Firing (R95, R102) -/

theorem SparesKept.openFlash (s : State) (r : ShotRef) (k : Shot) (o : StrobeOutcome) :
    SparesKept s (s.openFlash r k o) := by
  cases o <;> exact .same

theorem SparesKept.skipShot (s : State) (r : ShotRef) (why : SkipReason) : SparesKept s (s.skipShot r why) :=
  .behind (.endShot _ r _)

theorem SparesKept.fireShot (s : State) (r : ShotRef) (b : BankNo) (k : Shot) (o : StrobeOutcome) :
    SparesKept s (s.fireShot r b k o) := by
  unfold State.fireShot
  dsimp only
  refine SparesKept.trans ?_ (.grantAll _)
  refine SparesKept.trans ?_ (SparesKept.openFlash _ r k o)
  have hreserved : SparesKept s (s.setMemory (s.memory.reserve r k.segmentsExpected)) := MapKept.reserve s.memory r _
  split
  · exact hreserved
  · exact hreserved

theorem SparesKept.handOver (s : State) (r : ShotRef) : SparesKept s (s.handOver r) := by
  unfold State.handOver State.decideShot
  split
  · split
    · exact .behind (.skipShot (s.leaveShotQueue r) r _)
    · exact .behind (.fireShot (s.leaveShotQueue r) r _ _ _)
  · exact .same

/-! ## Planning (R77 to R83) -/

theorem SparesKept.afterPlacing (s : State) (r : ShotRef) (p : Placing) : SparesKept s (s.afterPlacing r p) := by
  unfold State.afterPlacing
  split
  · exact .handOver s r
  · exact .refl s

theorem SparesKept.makeShot (s : State) (p : Passage) (k : Shot) : SparesKept s (s.makeShot p k) := by
  unfold State.makeShot
  split
  · dsimp only
    split
    · exact .behind (.checkSettled _ _)
    · split
      · exact .behind (.afterPlacing _ _ _)
      · exact .behind (.skipShot _ _ _)
  · exact .same

theorem SparesKept.planCamera (s : State) (n v q r : Nat) (x : Int) (c : Camera) :
    SparesKept s (s.planCamera n v q r x c) := by
  unfold State.planCamera
  split
  · exact .refl s
  · dsimp only
    split
    · exact .makeShot s _ _
    · exact .refl s

theorem SparesKept.planPantograph (s : State) (n v q r : Nat) (x : Int) (cs : BitVec 16) :
    SparesKept s (s.planPantograph n v q r x cs) :=
  .foldl _ (fun _ _ => .planCamera _ n v q r x _) _ s

theorem SparesKept.retimeShot (s : State) (r : ShotRef) : SparesKept s (s.retimeShot r) := by
  unfold State.retimeShot
  split
  · split
    · dsimp only
      split
      · exact .behind (.checkSettled _ _)
      · exact .behind (.afterPlacing _ _ _)
    · exact .refl s
  · exact .refl s

theorem SparesKept.retimeAll (s : State) (n : Nat) : SparesKept s (s.retimeAll n) := by
  unfold State.retimeAll
  split
  · exact .refl s
  · exact .foldl _ (fun q _ => .retimeShot q _) _ s

/-! ## Matching (R63 to R71) -/

theorem SparesKept.acceptVehicle (s : State) (p : Passage) (c : Candidate) : SparesKept s (s.acceptVehicle p c) :=
  SparesKept.foldl _ (fun q _ => .planPantograph q _ _ _ _ _ _) _ (s.modifyPassage p.number _)

theorem SparesKept.runMatcher (bound : Nat) : ∀ (s : State) (n : Nat), SparesKept s (State.runMatcher bound s n) := by
  induction bound with
  | zero => exact fun s _ => .refl s
  | succ bound ih =>
    intro s n
    unfold State.runMatcher
    split
    · exact .refl s
    · split
      · exact .refl s
      · split
        · exact .same
        · split
          · exact .same
          · split
            · exact .refl s
            · exact (SparesKept.acceptVehicle s _ _).trans (ih _ n)
            · exact ih (s.modifyPassage n _) n

theorem SparesKept.matchTail (s : State) (n : Nat) : SparesKept s (s.matchTail n) := SparesKept.runMatcher _ s n

theorem SparesKept.startTailWindow (s : State) (n : Nat) : SparesKept s (s.startTailWindow n) := by
  unfold State.startTailWindow
  split
  · exact .refl s
  · exact .same

theorem SparesKept.handAxle (s : State) (p : Passage) (a : Axle) : SparesKept s (s.handAxle p a) := by
  have hstarted := SparesKept.startTailWindow (s.modifyPassage p.number (·.receiveAxle a)) p.number
  unfold State.handAxle
  dsimp only
  split
  · exact (hstarted.trans (.runMatcher _ _ _)).trans (.retimeAll _ _)
  · exact hstarted

/-! ## Winding down (R44, R125) -/

theorem SparesKept.discardHeld (s : State) (r : ShotRef) (c : Camera) : SparesKept s (s.discardHeld r c) := by
  have hreturned := SparesKept.returnPages (s.leaveReadoutQueue r) r none
  unfold State.discardHeld
  dsimp only
  split
  · exact hreturned
  · exact hreturned

theorem SparesKept.windDownShot (s : State) (r : ShotRef) : SparesKept s (s.windDownShot r) := by
  unfold State.windDownShot
  split
  · split
    · exact .same
    · exact .same
    · exact .discardHeld s r _
    all_goals exact .refl s
  · exact .refl s

theorem SparesKept.windDown (s : State) (p : Passage) : SparesKept s (s.windDown p) :=
  .foldl _ (fun q _ => .windDownShot q _) _ s

/-! ## The close of an event (R141, R142, R150) -/

theorem SparesKept.compareLow (s : State) : SparesKept s s.compareLow := by
  have hlow : ∀ (low : Bool) (n : Notice), SparesKept s ((s.setMemory { s.memory with low := low }).queueNotice n) :=
    fun low n => SparesKept.trans (t := s.setMemory { s.memory with low := low }) (MapKept.same id rfl rfl)
      (.queueNotice _ n)
  unfold State.compareLow
  dsimp only
  split
  · exact hlow true _
  · split
    · exact hlow false _
    · exact .refl s

theorem SparesKept.sendNotice (s : State) : SparesKept s s.sendNotice := by
  unfold State.sendNotice
  split
  · exact .refl s
  · exact .same

theorem SparesKept.arbitrate (s : State) : SparesKept s s.arbitrate := by
  unfold State.arbitrate
  split
  · split
    · exact .sendNotice s
    · split
      · exact .same
      · split
        · exact MapKept.markDamaged s.memory _ _
        · exact .sendNotice s
  · exact .refl s

theorem SparesKept.endEvent (s : State) : SparesKept s s.endEvent := (SparesKept.compareLow s).trans (.arbitrate _)

end Planning

end Sys2Proof.Proofs

/-! PROOFS. Bindings (R156, R157, R172) as the banks see them: which banks have an open passage, and whether a track is
armed. -/

namespace Sys2Proof.Proofs

open Sys2Proof.Machine

section Bindings

variable {s t : State} {out out' : BankNo → Prop} {b : BankNo} {n : Nat} {p : Passage}

/-- A bank has a passage in APPROACHING or TAIL. -/
def hasOpen (s : State) (b : BankNo) : Prop := ∃ p ∈ s.table.passages, p.isOpen = true ∧ p.bank = b

/-- Some bank is ACTIVE: the part is not COLD. -/
def configured (s : State) : Prop := ∃ b : BankNo, s.banks.slots[b].state = .active

/-- `State.bindings`, bank by bank, the draining of the banks `out` aside, whose drain check is to come. -/
structure Bindings (out : BankNo → Prop) (s : State) : Prop where
  opens : ∀ b, hasOpen s b → s.banks.slots[b].state = .active ∨ s.banks.slots[b].state = .draining
  drains : ∀ b, ¬ out b → s.banks.slots[b].state = .draining → hasOpen s b
  armed : ∀ k : Track, s.tracks[k].state ≠ .disarmed → configured s

theorem bindings_iff : s.bindings ↔ Bindings noBank s := by
  constructor
  · rintro ⟨hopens, hdrains, hcold⟩
    refine ⟨?_, fun b _ hb => hdrains b hb, fun k hk => ?_⟩
    · rintro b ⟨p, hp, ho, rfl⟩
      exact hopens p hp ho
    · by_contra hno
      exact hk (hcold (fun b hb => hno ⟨b, hb⟩) k)
  · rintro ⟨hopens, hdrains, harmed⟩
    refine ⟨fun p hp ho => hopens p.bank ⟨p, hp, ho, rfl⟩, fun b hb => hdrains b id hb, fun hcold k => ?_⟩
    by_contra hk
    obtain ⟨b, hb⟩ := harmed k hk
    exact hcold b hb

/-- The banks as they were; an open passage joins an ACTIVE bank only, leaves a DRAINING one only with its drain check
to come, and no track is armed while COLD. -/
theorem Bindings.moved (h : Bindings out s) (hbanks : t.banks = s.banks)
    (hjoin : ∀ b, hasOpen t b → hasOpen s b ∨ s.banks.slots[b].state = .active)
    (hleave : ∀ b, ¬ out' b → ¬ out b ∧ (hasOpen s b → hasOpen t b))
    (harm : ∀ k : Track, t.tracks[k].state ≠ .disarmed → s.tracks[k].state ≠ .disarmed ∨ configured s) :
    Bindings out' t := by
  have hstate : ∀ b : BankNo, t.banks.slots[b].state = s.banks.slots[b].state := fun b => by simp only [hbanks]
  refine ⟨fun b hb => ?_, fun b hout hb => ?_, fun k hk => ?_⟩
  · rw [hstate]
    exact (hjoin b hb).elim (h.opens b) .inl
  · rw [hstate] at hb
    obtain ⟨hwas, hopen⟩ := hleave b hout
    exact hopen (h.drains b hwas hb)
  · obtain ⟨b, hb⟩ := (harm k hk).elim (h.armed k) id
    exact ⟨b, (hstate b).trans hb⟩

/-- The table and the banks as they were. -/
theorem Bindings.tracked (h : Bindings out s) (ht : t.table = s.table) (hb : t.banks = s.banks)
    (harm : ∀ k : Track, t.tracks[k].state ≠ .disarmed → s.tracks[k].state ≠ .disarmed ∨ configured s) :
    Bindings out t := by
  have hopen : ∀ b, hasOpen t b ↔ hasOpen s b := fun b => by unfold hasOpen; rw [ht]
  exact h.moved hb (fun b hb => .inl ((hopen b).1 hb)) (fun b ho => ⟨ho, (hopen b).2⟩) harm

theorem Bindings.keeps (h : Bindings out s) (hk : Keeps s t) : Bindings out t := by
  refine h.moved hk.banks ?_ (fun b hb => ⟨hb, ?_⟩) (fun k hd => .inl (by simpa only [hk.tracks] using hd))
  · rintro b ⟨p, hp, ho, rfl⟩
    obtain ⟨q, hq, hqp⟩ := forall₂_mem_right hk.passages hp
    exact .inl ⟨q, hq, hqp.isOpen ▸ ho, hqp.bank.symm⟩
  · rintro ⟨q, hq, ho, rfl⟩
    obtain ⟨p, hp, hqp⟩ := forall₂_mem_left hk.passages hq
    exact ⟨p, hp, hqp.isOpen.trans ho, hqp.bank⟩

/-! ## Tracks and passages (R27, R39, R42, R46, R172) -/

/-- A track that is not DISARMED, or that a bank may arm, goes to another state. -/
theorem Bindings.trackTo (h : Bindings out s) (k : Track) (new : TrackState)
    (hk : s.tracks[k].state = .disarmed → new = .disarmed ∨ configured s) : Bindings out (s.trackTo k new) := by
  refine h.tracked (State.trackTo_table s k new) (trackTo_banks s k new) (fun j hj => ?_)
  rw [trackTo_state] at hj
  split at hj
  · next hjk =>
    subst hjk
    by_cases hd : s.tracks[j].state = .disarmed
    · exact .inr ((hk hd).resolve_left hj)
    · exact .inl hd
  · exact .inl hj

theorem Bindings.setTrack (h : Bindings out s) (k : Track) {m : TrackMonitor} (hm : m.state = s.tracks[k].state) :
    Bindings out (s.setTrack k m) := by
  refine h.tracked rfl rfl (fun j hj => .inl ?_)
  rw [show (s.setTrack k m).tracks[j] = if j = k then m else s.tracks[j] from getElem_setAt _ _ _ _] at hj
  split at hj
  · next hjk => rw [hm, ← hjk] at hj; exact hj
  · exact hj

/-- Passages that leave the table were not open. -/
theorem Bindings.removePassage (h : Bindings noBank s)
    (hclosed : ∀ q ∈ s.table.passages, q.number = n → q.isOpen = false) : Bindings noBank (s.removePassage n) := by
  refine h.moved rfl ?_ (fun b hb => ⟨hb, ?_⟩) (fun _ => .inl)
  · rintro b ⟨q, hq, ho, rfl⟩
    exact .inl ⟨q, (List.mem_filter.1 hq).1, ho, rfl⟩
  · rintro ⟨q, hq, ho, rfl⟩
    refine ⟨q, List.mem_filter.2 ⟨hq, bne_iff_ne.2 (fun hqn => ?_)⟩, ho, rfl⟩
    rw [hclosed q hq hqn] at ho
    cases ho

/-- A new passage is bound to an ACTIVE bank (R27). -/
theorem Bindings.withPassage (h : Bindings noBank s) (hb : s.banks.slots[p.bank].state = .active) (next : Nat) :
    Bindings noBank (s.withPassage p next) := by
  refine h.moved rfl ?_ (fun b hb => ⟨hb, ?_⟩) (fun _ => .inl)
  · rintro b ⟨q, hq, ho, rfl⟩
    rcases List.mem_append.1 hq with hq | hq
    · exact .inl ⟨q, hq, ho, rfl⟩
    · obtain rfl := List.mem_singleton.1 hq
      exact .inr hb
  · rintro ⟨q, hq, ho, hqb⟩
    exact ⟨q, List.mem_append.2 (.inl hq), ho, hqb⟩

/-- A record takes a state that is not APPROACHING or TAIL: the drain check of its bank, if it was open, is to come. -/
theorem Bindings.closes (h : Bindings noBank s) {f : Passage → Passage}
    (hout : ∀ q ∈ s.table.passages, q.number = n → q.isOpen = true → out q.bank) (hf : ∀ q, (f q).isOpen = false) :
    Bindings out (s.modifyPassage n f) := by
  refine h.moved rfl ?_ (fun b ho => ⟨id, ?_⟩) (fun _ => .inl)
  · rintro b ⟨q, hq, hqo, rfl⟩
    rcases mem_changePassage hq with hq | ⟨x, -, rfl⟩
    · exact .inl ⟨q, hq, hqo, rfl⟩
    · rw [hf x] at hqo
      cases hqo
  · rintro ⟨q, hq, hqo, rfl⟩
    exact ⟨q, mem_changePassage_ne hq (fun hn => ho (hout q hq hn hqo)), hqo, rfl⟩

/-- The drain check of the one bank that has it to come (R172). -/
theorem Bindings.drainCheck (h : Bindings (· = b) s) : Bindings noBank (s.drainCheck b) := by
  have hopen := openCount_ne_zero s b
  unfold State.drainCheck
  split
  · next hdrain =>
    obtain ⟨hst, hcount⟩ := hdrain
    have hstate := setBankState_state s b .standby
    refine Bindings.keeps ⟨fun j hj => ?_, fun j _ hj => ?_, fun k hk => ?_⟩ (Keeps.queueNotice _ _)
    · rw [hstate, if_neg (fun hjb : j = b => hopen.2 (hjb ▸ hj) hcount)]
      exact h.opens j hj
    · rw [hstate] at hj
      split at hj
      · cases hj
      · next hjb => exact h.drains j hjb hj
    · obtain ⟨j, hj⟩ := h.armed k hk
      refine ⟨j, ?_⟩
      rw [hstate, if_neg (fun hjb => by rw [hjb, hst] at hj; cases hj)]
      exact hj
  · next hdrain =>
    refine ⟨h.opens, fun j _ hj => ?_, h.armed⟩
    by_cases hjb : j = b
    · subst hjb
      exact hopen.1 (fun hcount => hdrain ⟨hj, hcount⟩)
    · exact h.drains j hjb hj

/-- A passage leaves APPROACHING and TAIL (R39). -/
theorem Bindings.leaveOpen (h : Bindings noBank s)
    (hp : ∀ q ∈ s.table.passages, q.number = p.number → q.bank = p.bank) {st : PassageState}
    (hst : st ≠ .approaching ∧ st ≠ .tail) (track : TrackState)
    (hk : s.tracks[p.track].state = .disarmed → track = .disarmed) : Bindings noBank (s.leaveOpen p st track) := by
  have hleft : Bindings (· = p.bank) (s.modifyPassage p.number (·.left st (s.clearOf p st))) :=
    h.closes (fun q hq hn _ => hp q hq hn) (fun q => q.left_isOpen _ hst)
  rw [State.leaveOpen_eq]
  exact (hleft.trackTo p.track track (fun hd => .inl (hk hd))).drainCheck

theorem Bindings.clearPassage (h : Bindings noBank s)
    (hp : ∀ q ∈ s.table.passages, q.number = p.number → q.bank = p.bank) (track : TrackState)
    (hk : s.tracks[p.track].state = .occupied) : Bindings noBank (s.clearPassage p track) :=
  (h.leaveOpen hp (st := .clear) ⟨(nomatch ·), (nomatch ·)⟩ track (fun hd => by rw [hk] at hd; cases hd)).keeps
    (Keeps.checkSettled _ _)

/-- A passage is abandoned (R42, R43). -/
theorem Bindings.abandon (h : Bindings noBank s)
    (hp : ∀ q ∈ s.table.passages, q.number = p.number → q.bank = p.bank ∧ q.isOpen = p.isOpen)
    (reason : AbandonReason) (track : TrackState)
    (hk : p.isOpen = true → s.tracks[p.track].state = .disarmed → track = .disarmed) :
    Bindings noBank (s.abandon p reason track) := by
  have hkeeps := Keeps.giveReason s p.number reason
  have hsame : ∀ q ∈ (s.modifyPassage p.number (·.giveReason reason)).table.passages, q.number = p.number →
      q.bank = p.bank ∧ q.isOpen = p.isOpen := fun q hq hn => by
    obtain ⟨x, hx, hxq⟩ := forall₂_mem_right hkeeps.passages hq
    obtain ⟨hbank, hopen⟩ := hp x hx (hxq.number.symm.trans hn)
    exact ⟨hxq.bank.trans hbank, hxq.isOpen.trans hopen⟩
  have hgiven := h.keeps hkeeps
  rw [State.abandon_eq]
  refine Bindings.keeps ?_ ((Keeps.windDown _ p).trans (Keeps.checkSettled _ _))
  unfold State.stopPassage
  dsimp only
  split
  · next ho =>
    exact hgiven.leaveOpen (fun q hq hn => (hsame q hq hn).1) (st := .stopping) ⟨(nomatch ·), (nomatch ·)⟩ track (hk ho)
  · next ho =>
    exact hgiven.closes (fun q hq hn hqo => absurd ((hsame q hq hn).2.symm.trans hqo) ho) (fun _ => rfl)

/-! ## Table banks (R157, R159 to R170, R175) -/

/-- No bank enters or leaves ACTIVE or DRAINING. -/
theorem Bindings.ofBanks (h : Bindings noBank s) {bs : Banks}
    (hst : ∀ (j : BankNo) (st : BankState), st = .active ∨ st = .draining →
      (bs.slots[j].state = st ↔ s.banks.slots[j].state = st)) : Bindings noBank { s with banks := bs } := by
  refine ⟨fun j hj => ?_, fun j _ hj => h.drains j id ((hst j .draining (.inr rfl)).1 hj), fun k hk => ?_⟩
  · exact (h.opens j hj).imp (hst j .active (.inl rfl)).2 (hst j .draining (.inr rfl)).2
  · obtain ⟨j, hj⟩ := h.armed k hk
    exact ⟨j, (hst j .active (.inl rfl)).2 hj⟩

theorem Bindings.atDepth (h : Bindings noBank s) (depth : Nat) :
    Bindings noBank { s with banks := { s.banks with depth := depth } } :=
  h.ofBanks (fun _ _ _ => .rfl)

/-- A bank that no passage may be bound to is set to such a state. -/
theorem Bindings.setIdleSlot (h : Bindings noBank s) {k : BankNo} {st : BankState} {contents : Bank} {bs : Banks}
    (hk : s.banks.slots[k].state ≠ .active ∧ s.banks.slots[k].state ≠ .draining)
    (hst : st ≠ .active ∧ st ≠ .draining) (hb : bs.slots = (s.banks.setSlot k st contents).slots) :
    Bindings noBank { s with banks := bs } := by
  refine h.ofBanks (fun j x hx => ?_)
  have hslot : bs.slots[j] = if j = k then ⟨st, contents⟩ else s.banks.slots[j] := by
    rw [← setSlot_slot]
    simp only [hb]
  rw [hslot]
  split
  · next hjk =>
    subst hjk
    refine iff_of_false ?_ ?_
    · rintro rfl
      exact hx.elim hst.1 hst.2
    · rintro rfl
      exact hx.elim hk.1 hk.2
  · exact .rfl

theorem Bindings.abortTransaction (h : Bindings noBank s) : Bindings noBank s.abortTransaction := by
  unfold State.abortTransaction
  split
  · exact h
  · unfold Banks.abort
    split
    · next k hk =>
      have hidle : s.banks.slots[k].state ≠ .active ∧ s.banks.slots[k].state ≠ .draining := by
        rw [Banks.staging?_some hk]
        exact ⟨(nomatch ·), (nomatch ·)⟩
      split
      · exact h.setIdleSlot (st := .standby) hidle ⟨(nomatch ·), (nomatch ·)⟩ rfl
      · exact h.setIdleSlot (st := .empty) hidle ⟨(nomatch ·), (nomatch ·)⟩ rfl
    · exact h.ofBanks (fun _ _ _ => .rfl)

theorem Bindings.tableBegin (h : Bindings noBank s) (hs : s.banks.sound) : Bindings noBank s.tableBegin.1 := by
  unfold State.tableBegin
  split
  · dsimp only
    split
    · exact h
    · next hbusy =>
      have hidle := And.intro (toStage_not_active hs rfl) (fun hd => hbusy (.inl hd))
      unfold Banks.stage
      split
      · exact h.setIdleSlot (st := .staging) hidle ⟨(nomatch ·), (nomatch ·)⟩ rfl
      · exact h.setIdleSlot (st := .staging) hidle ⟨(nomatch ·), (nomatch ·)⟩ rfl
  · split
    · exact h
    · exact h.atDepth _

theorem Bindings.tablePut (h : Bindings noBank s) (kind index : Byte) (contents : List Byte) :
    Bindings noBank (s.tablePut kind index contents).1 := by
  unfold State.tablePut
  split
  · exact h
  · exact h
  · next k a hk _ =>
    obtain ⟨-, hst⟩ := Banks.open?_some hk
    exact h.setIdleSlot (st := .staging) (by rw [hst]; exact ⟨(nomatch ·), (nomatch ·)⟩) ⟨(nomatch ·), (nomatch ·)⟩ rfl

/-- The previous ACTIVE bank stands aside as DRAINING exactly while it has an open passage (R169). -/
theorem Bindings.switchBanks (h : Bindings noBank s) (k : BankNo) : Bindings noBank (s.switchBanks k) := by
  obtain ⟨htable, -⟩ := switchBanks_blocks s k
  have hopen : ∀ j, hasOpen (s.switchBanks k) j ↔ hasOpen s j := fun j => by unfold hasOpen; rw [htable]
  have hslot := fun j => (switchBanks_slot s k j).2
  refine ⟨fun j hj => ?_, fun j _ hj => ?_, fun _ _ => ⟨k, (hslot k).trans (if_pos rfl)⟩⟩
  · have hj := (hopen j).1 hj
    rw [hslot]
    split
    · exact .inl rfl
    split
    · unfold State.standAside
      rw [if_neg ((openCount_ne_zero s j).2 hj)]
      exact .inr rfl
    · exact h.opens j hj
  · rw [hslot] at hj
    refine (hopen j).2 ?_
    split at hj
    · cases hj
    split at hj
    · refine (openCount_ne_zero s j).1 (fun hcount => ?_)
      unfold State.standAside at hj
      rw [if_pos hcount] at hj
      cases hj
    · exact h.drains j id hj

/-- A restart leaves no passage, no DRAINING bank, the ACTIVE bank and the DISARMED tracks (R25, R175). -/
theorem Bindings.restartBlocks (h : Bindings noBank s) (hbanks : s.banks.sound) : Bindings noBank s.restartBlocks := by
  obtain ⟨low, heq, -⟩ := restartBlocks_eq s
  obtain ⟨-, hpassages⟩ := restartBlocks_tracks s
  have hactive := restartedBanks_active hbanks
  have hstate : ∀ b : BankNo, s.restartBlocks.banks.slots[b] = (restartedBanks s.banks).slots[b] := fun b => by
    simp only [heq]
  refine ⟨?_, fun b _ hd => ?_, fun k hk => ?_⟩
  · rintro b ⟨p, hp, -⟩
    rw [hpassages] at hp
    cases hp
  · rw [hstate] at hd
    obtain ⟨-, -, hslot⟩ := restartedBanks_facts hbanks
    obtain ⟨hkept, hdrain, hstaging⟩ := hslot b
    by_cases hst : s.banks.slots[b].state = .staging
    · cases hi : s.banks.restoreImage with
      | none => rw [(hstaging hst).2 hi] at hd; cases hd
      | some image => rw [(hstaging hst).1 image hi] at hd; cases hd
    · by_cases hdr : s.banks.slots[b].state = .draining
      · rw [hdrain hdr] at hd; cases hd
      · rw [hkept hst hdr] at hd; exact absurd hd hdr
  · have htrack : s.restartBlocks.tracks[k] = restartedTrack (s.clock.elapsed + s.quietTime k) s.tracks[k] := by
      simp only [heq]
      exact getElem_foldl_finRange (fun t m => restartedTrack (s.clock.elapsed + s.quietTime t) m) _ k
    have hwas : s.tracks[k].state ≠ .disarmed := fun hd => hk (by
      rw [htrack]
      unfold restartedTrack
      rw [if_pos hd]
      exact hd)
    obtain ⟨b, hb⟩ := h.armed k hwas
    exact ⟨b, by rw [hstate]; exact (hactive b).1.2 hb⟩

end Bindings

end Sys2Proof.Proofs

/-! PROOFS. The page map, the banks' soundness and the bindings under tracks, passages and heads. -/

namespace Sys2Proof.Proofs

open Sys2Proof.Machine

/-- Tracks and passages in agreement, the banks sound, and the bindings. -/
def Secure (s : State) : Prop := s.tracksInv ∧ s.banks.sound ∧ Bindings noBank s

/-- An operation that keeps the spares sound and, by itself, what `Secure` says. -/
structure Secures (s t : State) : Prop where
  spares : SparesKept s t
  secure : Secure s → Secure t

section Tracks

variable {s t u : State} {p : Passage}

theorem Secures.refl (s : State) : Secures s s := ⟨.refl s, id⟩

theorem Secures.trans (h : Secures s t) (k : Secures t u) : Secures s u :=
  ⟨h.spares.trans k.spares, k.secure ∘ h.secure⟩

theorem Secures.of (hm : SparesKept s t) (hp : Preserves s t) (hb : Secure s → Bindings noBank t) : Secures s t :=
  ⟨hm, fun h => ⟨hp.tracks h.1, hp.banks h.2.1, hb h⟩⟩

theorem Secures.keeps (hm : SparesKept s t) (hk : Keeps s t) : Secures s t :=
  .of hm hk.preserves (fun h => h.2.2.keeps hk)

/-- An operation that leaves memory, tracks, passages and banks alone. -/
theorem Secures.inert (hm : t.memory = s.memory := by rfl) (ht : t.tracks = s.tracks := by rfl)
    (hq : t.table = s.table := by rfl) (hb : t.banks = s.banks := by rfl) : Secures s t := by
  refine ⟨.same hm, fun ⟨htracks, hbanks, hbindings⟩ => ⟨?_, hb ▸ hbanks,
    hbindings.tracked hq hb (fun k hk => .inl (by simpa only [ht] using hk))⟩⟩
  unfold State.tracksInv State.tracksSound State.numbered State.tracksAgree at htracks ⊢
  rw [ht, hq]
  exact htracks

theorem Secures.foldl {α : Type} (f : State → α → State) (h : ∀ s a, Secures s (f s a)) (l : List α) :
    ∀ s : State, Secures s (l.foldl f s) := by
  induction l with
  | nil => exact .refl
  | cons a l ih => exact fun s => (h s a).trans (ih _)

theorem Secures.event (h : Secures s t) : Secures s t.endEvent := h.trans (.keeps (.endEvent t) (Keeps.endEvent t))

/-! ## Tracks (R8 to R23) -/

theorem SparesKept.trackTo (s : State) (k : Track) (new : TrackState) : SparesKept s (s.trackTo k new) :=
  .same (trackTo_blocks s k new).2.2.2

theorem Secures.trackTo (s : State) (k : Track) (new : TrackState) (h1 : s.tracks[k].state ≠ .occupied)
    (h2 : new ≠ .occupied) (hk : s.tracks[k].state = .disarmed → new = .disarmed ∨ configured s) :
    Secures s (s.trackTo k new) :=
  .of (.trackTo s k new) (Preserves.trackTo s k new h1 h2) (fun h => h.2.2.trackTo k new hk)

/-- A track that is neither DISARMED nor OCCUPIED. -/
theorem Secures.trackTo_armed (s : State) (k : Track) (new : TrackState) (h1 : s.tracks[k].state ≠ .occupied)
    (h0 : s.tracks[k].state ≠ .disarmed) (h2 : new ≠ .occupied) : Secures s (s.trackTo k new) :=
  .trackTo s k new h1 h2 (fun h => absurd h h0)

theorem Secures.setTrack (s : State) (k : Track) (m : TrackMonitor) (hst : m.state = s.tracks[k].state)
    (hs : s.tracks[k].sound → m.sound) : Secures s (s.setTrack k m) :=
  .of .same (Preserves.setTrack s k m hst hs) (fun h => h.2.2.setTrack k hst)

theorem Secures.setHealth (s : State) (k : Track) (h : Head) (v : Health) : Secures s (s.setHealth k h v) :=
  .setTrack s k _ rfl id

/-- The quiet timer ends only in IGNORING (R12). -/
theorem Secures.quietEnds {k : Track} (hq : s.ended s.tracks[k].quiet = true) : Secures s (s.trackTo k .vacant) := by
  refine .of (.trackTo s k .vacant) (Preserves.quietEnds s k hq) (fun h => h.2.2.trackTo k .vacant (fun hd => ?_))
  have hrunning : s.tracks[k].quiet.isSome = true := by
    unfold State.ended at hq
    split at hq
    · next e he => rw [he]; rfl
    · cases hq
  have hignoring := (h.1.1 k).1.1 hrunning
  rw [hd] at hignoring
  cases hignoring

theorem Secures.queueNotice (s : State) (x : Notice) : Secures s (s.queueNotice x) :=
  .keeps (.queueNotice s x) (Keeps.queueNotice s x)

theorem Secures.recordFault (s : State) (n : Nat) (c : FaultCode) (a k : Option Nat) :
    Secures s (s.recordFault n c a k) := .keeps .same (Keeps.recordFault s n c a k)

/-! ## Pair FIFOs and axles (R15 to R17, R31 to R36) -/

theorem SparesKept.pushCrossing (s : State) (k : Track) (p : Passage) (side : Side) :
    SparesKept s (s.pushCrossing k p side) := by
  unfold State.pushCrossing
  dsimp only
  split
  · exact .same
  · exact .same

theorem Bindings.pushCrossing (h : Bindings noBank s) (k : Track) (p : Passage) (side : Side) :
    Bindings noBank (s.pushCrossing k p side) := by
  have hset : ∀ f, Bindings noBank (s.setTrack k (s.tracks[k].setFifo side f)) := fun f =>
    h.setTrack k (TrackMonitor.setFifo_state _ _ _)
  unfold State.pushCrossing
  dsimp only
  split
  · exact hset _
  · exact (hset _).keeps (Keeps.recordFault _ _ _ _ _)

theorem Secures.popFifo (s : State) (k : Track) (side : Side) {entry : PairEntry} {rest : List PairEntry}
    (hf : s.tracks[k].fifo side = entry :: rest) : Secures s (s.setTrack k (s.tracks[k].setFifo side rest)) :=
  .of .same (Preserves.popFifo s k side hf) (fun h => h.2.2.setTrack k (TrackMonitor.setFifo_state _ _ _))

theorem Secures.expirePair (s : State) (k : Track) (side : Side) : Secures s (s.expirePair k side) := by
  unfold State.expirePair
  dsimp only
  split
  · exact .refl s
  · next entry rest hf =>
    split
    · split
      · exact (Secures.popFifo s k side hf).trans (.recordFault _ _ _ _ _)
      · exact .popFifo s k side hf
    · exact .refl s

theorem Secures.pairCrossing (s : State) (k : Track) (p : Passage) (side : Side) :
    Secures s (s.pairCrossing k p side) := by
  unfold State.pairCrossing
  dsimp only
  split
  · exact .recordFault _ _ _ _ _
  · next entry rest hf =>
    exact (Secures.popFifo s k side hf).trans (.keeps (.handAxle _ p _) (Keeps.handAxle _ p _))

/-! ## Clearance (R34, R37, R38) -/

theorem SparesKept.leaveOpen (s : State) (p : Passage) (st : PassageState) (track : TrackState) :
    SparesKept s (s.leaveOpen p st track) := by
  rw [State.leaveOpen_eq]
  exact SparesKept.trans (.behind (.trackTo _ p.track track)) (.same (drainCheck_blocks _ p.bank).2.2.2)

theorem SparesKept.clearPassage (s : State) (p : Passage) (track : TrackState) :
    SparesKept s (s.clearPassage p track) := (SparesKept.leaveOpen s p .clear track).trans (.checkSettled _ _)

/-- The track of an open passage is OCCUPIED. -/
theorem Secure.occupied (h : Secure s) (hp : p ∈ s.table.passages) (ho : p.isOpen = true) :
    s.tracks[p.track].state = .occupied := by
  obtain ⟨⟨-, -, htracks, -⟩, -⟩ := h
  exact htracks p hp ho

theorem Secure.only (h : Secure s) (hp : p ∈ s.table.passages) :
    ∀ q ∈ s.table.passages, q.number = p.number → q = p := fun _ hq hn =>
  passage_eq_of_number h.1.2.1 hp hq hn

theorem Secures.clearPassage (hp : p ∈ s.table.passages) (ho : p.isOpen = true) (track : TrackState)
    (ht : track ≠ .occupied) : Secures s (s.clearPassage p track) :=
  .of (.clearPassage s p track) (Preserves.clearPassage s hp ho track ht)
    (fun h => h.2.2.clearPassage (fun q hq hn => by rw [h.only hp q hq hn]) track (h.occupied hp ho))

theorem Secures.checkCleared (s : State) (n : Nat) : Secures s (s.checkCleared n) := by
  unfold State.checkCleared
  split
  · exact .refl s
  · next p hp =>
    split
    · next hst => exact .clearPassage (passage?_mem hp) (by simp [Passage.isOpen, hst.1]) _ (by decide)
    · exact .refl s

theorem Secures.exitCrossing (s : State) (n : Nat) : Secures s (s.exitCrossing n) :=
  Secures.trans (t := s.modifyPassage n (·.countExit))
    (.keeps .same (Keeps.modifyPassage s _ _ (fun p _ => p.countExit_keeps))) (.checkCleared _ n)

/-- The exit timeout in TAIL (R38). -/
theorem Secures.clearShort (hp : p ∈ s.table.passages) (ho : p.isOpen = true) : Secures s (s.clearShort p) := by
  have hrecorded := Keeps.recordFault s p.number .exitShort none none
  refine .of (.behind (.clearPassage (s.recordFault p.number .exitShort none none) p .ignoring))
    (Preserves.clearShort s hp ho) (fun h => ?_)
  refine (h.2.2.keeps hrecorded).clearPassage (fun q hq hn => ?_) .ignoring (h.occupied hp ho)
  obtain ⟨x, hx, hk⟩ := forall₂_mem_right hrecorded.passages hq
  rw [hk.bank, h.only hp x hx (hk.number.symm.trans hn)]

/-- The tail declaration (R34). -/
theorem Secures.declareTail (hp : s.passage? p.number = some p) (ha : p.state = .approaching) :
    Secures s (s.declareTail p) := by
  unfold State.declareTail
  dsimp only
  have hentered : Keeps s (s.modifyPassage p.number
      (·.enterTail s.now (s.after (s.trackEntry p).exitTimeout.toNat))) := Keeps.modifyPassage s _ _ (fun q hq => by
    obtain rfl : p = q := Option.some.inj (hp.symm.trans hq)
    exact Passage.enterTail_keeps (by simp [Passage.isOpen, ha]) _ _)
  exact Secures.trans (.keeps (.behind (.matchTail _ _)) (hentered.trans (Keeps.matchTail _ _))) (.checkCleared _ _)

/-! ## Abandon and heads (R9, R10, R42 to R44) -/

theorem SparesKept.abandon (s : State) (p : Passage) (reason : AbandonReason) (track : TrackState) :
    SparesKept s (s.abandon p reason track) := by
  rw [State.abandon_eq]
  refine SparesKept.trans (.trans ?_ (.windDown _ p)) (.checkSettled _ _)
  unfold State.stopPassage
  dsimp only
  split
  · exact .behind (.leaveOpen _ p .stopping track)
  · exact .same

theorem Secures.abandon (hp : s.passage? p.number = some p) (reason : AbandonReason) (track : TrackState)
    (ht : track ≠ .occupied) : Secures s (s.abandon p reason track) := by
  have hmem := passage?_mem hp
  refine .of (.abandon s p reason track) (Preserves.abandon s hp reason track ht) (fun h => ?_)
  refine h.2.2.abandon (fun q hq hn => ?_) reason track (fun ho hd => ?_)
  · rw [h.only hmem q hq hn]
    exact ⟨rfl, rfl⟩
  · rw [h.occupied hmem ho] at hd
    cases hd

/-- A head fault abandons the open passage of an OCCUPIED track (R43). -/
theorem Secures.occupiedFault (s : State) (k : Track) (hk : s.tracks[k].state = .occupied) :
    Secures s ((s.trackTo k .headFault).abandonByFault k) := by
  obtain ⟨hpart, htracks⟩ := Preserves.occupiedFault s k
  have htable := State.trackTo_table s k .headFault
  have hstate := trackTo_state s k .headFault k
  refine ⟨.trans (.trackTo s k .headFault) ?_, fun h => ⟨htracks hk h.1, hpart.banks h.2.1, ?_⟩⟩
  · unfold State.abandonByFault
    split
    · exact .behind (.abandon _ _ _ _)
    · exact .refl _
  · have htracked : Bindings noBank (s.trackTo k .headFault) :=
      h.2.2.trackTo k .headFault (fun hd => by rw [hk] at hd; cases hd)
    unfold State.abandonByFault
    set v := s.trackTo k .headFault
    split
    · next p hp =>
      obtain ⟨hmem, hpt, -⟩ := openPassageOn_spec hp
      subst hpt
      have hrecorded := Keeps.recordFault v p.number .headFault none none
      refine (htracked.keeps hrecorded).abandon (fun q hq hn => ?_) _ _ (fun _ hd => ?_)
      · obtain ⟨x, hx, hxq⟩ := forall₂_mem_right hrecorded.passages hq
        rw [htable] at hx hmem
        rw [hxq.bank, hxq.isOpen, h.only hmem x hx (hxq.number.symm.trans hn)]
        exact ⟨rfl, rfl⟩
      · rw [show (v.recordFault p.number .headFault none none).tracks[p.track] = v.tracks[p.track] from rfl, hstate,
          if_pos rfl] at hd
        cases hd
    · exact htracked

theorem Secures.actOnFault (s : State) (k : Track) : Secures s (s.actOnFault k) := by
  unfold State.actOnFault
  split
  · exact .refl s
  · exact .refl s
  · next hk => exact .trackTo_armed s k _ (by rw [hk]; decide) (by rw [hk]; decide) (by decide)
  · next hk => exact .trackTo_armed s k _ (by rw [hk]; decide) (by rw [hk]; decide) (by decide)
  · next hk => exact .occupiedFault s k hk

theorem Secures.actOnRecovery (s : State) (k : Track) : Secures s (s.actOnRecovery k) := by
  unfold State.actOnRecovery
  split
  · next hk => exact .trackTo_armed s k _ (by rw [hk.1]; decide) (by rw [hk.1]; decide) (by decide)
  · exact .refl s

/-! ## Crossings (R11 to R14, R27, R29) -/

/-- A passage opens on the ACTIVE bank, which there is while a track is armed (R27). -/
theorem Secures.askOpening (s : State) (k : Track) (side : Side) (hv : s.tracks[k].state = .vacant) :
    Secures s (s.askOpening k side) := by
  have hp := Preserves.askOpening s k side (by rw [hv]; decide)
  revert hp
  unfold State.askOpening
  split
  · obtain ⟨p, x, -, hbank, -, -, heq⟩ := openPassage_parts s k side (s.banks.active?.getD 0)
    rw [heq]
    refine fun hp => .of ?_ hp (fun h => ?_)
    · refine SparesKept.trans (.trans (.behind (.queueNotice _ x)) (.trackTo _ k .occupied)) (.pushCrossing _ k p side)
    · have hactive : s.banks.slots[p.bank].state = .active := by
        obtain ⟨b, hb⟩ := h.2.2.armed k (by rw [hv]; decide)
        cases ha : s.banks.active? with
        | none => exact absurd hb (Banks.active?_none ha b)
        | some a => exact Banks.active?_some (ha.trans (by rw [hbank, ha]; rfl))
      have hopened := (h.2.2.withPassage hactive (numberAfter s.newNumber)).keeps (Keeps.queueNotice _ x)
      refine (hopened.trackTo k .occupied (fun hd => ?_)).pushCrossing k p side
      rw [State.queueNotice_tracks] at hd
      exact absurd (hv.symm.trans hd) (by decide)
  · intro hp
    refine .of ((SparesKept.queueNotice s _).trans (.trackTo _ k .ignoring)) hp (fun h => ?_)
    refine (h.2.2.keeps (Keeps.queueNotice s _)).trackTo k .ignoring (fun hd => ?_)
    rw [State.queueNotice_tracks, hv] at hd
    cases hd

theorem Secures.crossing (s : State) (k : Track) (head : Head) : Secures s (s.crossing k head) := by
  unfold State.crossing
  split
  · exact .refl s
  · exact .refl s
  · next hk => exact .trackTo_armed s k _ (by rw [hk]; decide) (by rw [hk]; decide) (by decide)
  · next hk =>
    split
    · exact .askOpening s k _ hk
    · exact .queueNotice s _
  · next hk =>
    split
    · next p _ =>
      unfold State.routeCrossing
      split
      · split
        · exact .of (.pushCrossing s k p _) (Preserves.pushCrossing s k p _ hk) (fun h => h.2.2.pushCrossing k p _)
        · exact .pairCrossing s k p _
      · split
        · exact .exitCrossing s _
        · exact .refl s
    · exact .refl s

end Tracks

end Sys2Proof.Proofs

/-! PROOFS. The page map, the banks' soundness and the bindings under the requests, the gantry link, RESTART and whole
commands; O9. -/

namespace Sys2Proof.Proofs

open Sys2Proof.Machine

section Requests

variable {s t : State}

/-- What carrying out a request does before its answer is placed. -/
theorem Secures.reply {x : State × Answer} (h : Secures s x.1) (tag : Byte) (code : BitVec 16) :
    Secures s (State.reply x tag code) := h.trans .inert

/-! ## Clock, tracks and passages (R4, R21 to R23, R42, R46) -/

theorem Secures.timeSet (s : State) (x : BitVec 64) : Secures s (s.timeSet x).1 := by
  unfold State.timeSet
  split
  · exact .refl s
  · split
    · exact .refl s
    · exact .inert

theorem Secures.trackArm (s : State) (x : Byte) : Secures s (s.trackArm x).1 := by
  unfold State.trackArm
  split
  · exact .refl s
  · exact .refl s
  · next k b _ hb =>
    split
    · exact .refl s
    · split
      · exact .refl s
      · next hk =>
        have hdisarmed := not_not.1 hk
        have hactive : configured s := by
          unfold State.activeContents at hb
          split at hb
          · next a ha => exact ⟨a, Banks.active?_some ha⟩
          · cases hb
        refine .trackTo s _ _ (by rw [hdisarmed]; decide) ?_ (fun _ => .inr hactive)
        split <;> decide

theorem Secures.trackDisarm (s : State) (x : Byte) : Secures s (s.trackDisarm x).1 := by
  unfold State.trackDisarm
  split
  · exact .refl s
  · split
    · exact .refl s
    · exact .refl s
    all_goals
      next hk => exact .trackTo s _ _ (by rw [hk]; decide) (by decide) (fun _ => .inl rfl)

theorem Secures.abandonPassage (s : State) (n : BitVec 16) : Secures s (s.abandonPassage n).1 := by
  unfold State.abandonPassage
  split
  · exact .refl s
  · next p hp =>
    have hfound := namedPassage_ok hp
    have hgoes : Secures s (s.abandon p .ordered .ignoring) :=
      .abandon (by rw [passage?_number hfound]; exact hfound) _ _ (by decide)
    split
    · exact hgoes
    · exact hgoes
    · exact hgoes
    all_goals exact .refl s

theorem Secures.releasePassage (s : State) (n : BitVec 16) : Secures s (s.releasePassage n).1 := by
  have hp := (Serves.releasePassage s n).1
  revert hp
  unfold State.releasePassage
  split
  · exact fun _ => .refl s
  · next p hfound =>
    split
    · next hover =>
      have hmem := passage?_mem (namedPassage_ok hfound)
      refine fun hp => .of (.trans (.freePages s p.allPages) .same) hp (fun h => ?_)
      refine (h.2.2.keeps (Keeps.freePages s p.allPages)).removePassage (fun q hq hn => ?_)
      rw [freePages_table] at hq
      rw [h.only hmem q hq hn]
      unfold Passage.isOpen
      rcases hover with ho | ho <;> rw [ho] <;> rfl
    · exact fun _ => .refl s

/-! ## Camera lines and frame memory (R128, R145 to R147) -/

theorem SparesKept.cameraService (s : State) (l o : Byte) : SparesKept s (s.cameraService l o).1 := by
  have hoff : ∀ c, SparesKept s (s.serviceOff c) := fun c => by
    unfold State.serviceOff
    split
    · exact .changeLine s c _ _ _
    all_goals exact .refl s
  have hon : ∀ c, SparesKept s (s.serviceOn c) := fun c => by
    unfold State.serviceOn
    split
    · exact .beginLinking s c _
    · exact .beginLinking s c _
    all_goals exact .refl s
  unfold State.cameraService
  split
  · exact .refl s
  · split
    · exact hoff _
    · split
      · exact .refl s
      · split
        · exact hon _
        · exact .refl s
    · exact .refl s

theorem SparesKept.pageRetire (s : State) (page spare : BitVec 16) : SparesKept s (s.pageRetire page spare).1 := by
  unfold State.pageRetire
  dsimp only
  split
  · exact .refl s
  · next hpasses => exact SparesKept.trans (.setMemory (.pageRetire hpasses)) (.queueNotices _ _)

theorem SparesKept.pageRestore (s : State) (page : BitVec 16) : SparesKept s (s.pageRestore page).1 := by
  unfold State.pageRestore
  dsimp only
  split
  · exact .refl s
  · split
    · exact .refl s
    · exact .setMemory (.setPage (.inl rfl) (nomatch ·))

/-! ## Table banks (R159 to R170) -/

/-- An operation over the banks alone. -/
theorem Secures.ofBanks (hp : Preserves s t) (hb : Secure s → Bindings noBank t) (hm : t.memory = s.memory := by rfl) :
    Secures s t := .of (.same hm) hp hb

theorem Secures.tableBegin (s : State) : Secures s s.tableBegin.1 := by
  refine .ofBanks (Serves.tableBegin s).1 (fun h => h.2.2.tableBegin h.2.1) ?_
  unfold State.tableBegin
  split
  · dsimp only
    split <;> rfl
  · split <;> rfl

theorem Secures.tablePut (s : State) (kind index : Byte) (contents : List Byte) :
    Secures s (s.tablePut kind index contents).1 := by
  refine .ofBanks (Serves.tablePut s kind index contents).1 (fun h => h.2.2.tablePut kind index contents) ?_
  unfold State.tablePut
  split <;> rfl

theorem Secures.abortTransaction (s : State) : Secures s s.abortTransaction :=
  .ofBanks (Preserves.abortTransaction s) (fun h => h.2.2.abortTransaction) (by rw [abortTransaction_eq s])

theorem Secures.commitLine (s : State) (c : Camera) : Secures s (s.commitLine c) := by
  refine .keeps ?_ (Keeps.commitLine s c)
  unfold State.commitLine
  split
  · exact .beginLinking s c _
  · exact .refl s

theorem Secures.commit {k : BankNo} (hk : s.banks.open? = some k) : Secures s (s.commit k) := by
  obtain ⟨-, -, -, hmemory⟩ := switchBanks_blocks s k
  exact Secures.trans (.ofBanks (Preserves.switchBanks s hk).1 (fun h => h.2.2.switchBanks k) hmemory)
    (.foldl _ .commitLine _ _)

theorem Secures.tableEnd (s : State) : Secures s s.tableEnd.1 := by
  unfold State.tableEnd
  split
  · exact .refl s
  · next k hk =>
    split
    · next hdepth =>
      exact .ofBanks (Preserves.ofBanks s (fun hb => Banks.shallower_sound hb hdepth)) (fun h => h.2.2.atDepth _)
    · unfold State.commitBank
      split
      · exact .abortTransaction s
      · have hcommit := Secures.commit hk
        generalize s.commit k = v at hcommit ⊢
        exact hcommit

theorem Secures.tableAbort (s : State) : Secures s s.tableAbort.1 := by
  unfold State.tableAbort
  split
  · exact .refl s
  · exact .abortTransaction s

/-! ## RESTART (R190) -/

theorem Secures.restartBlocks (s : State) : Secures s s.restartBlocks := by
  refine .of ?_ (Preserves.restartBlocks s) (fun h => h.2.2.restartBlocks h.2.1)
  obtain ⟨low, heq, -⟩ := restartBlocks_eq s
  unfold SparesKept
  rw [heq]
  exact .restart s.memory low

theorem Secures.refault (s : State) (k : Track) : Secures s (s.refault k) := by
  unfold State.refault
  split
  · next hk => exact .trackTo_armed s k _ (by rw [hk.1]; decide) (by rw [hk.1]; decide) (by decide)
  · exact .refl s

theorem Secures.endRequest (s : State) : Secures s s.endRequest := .inert

/-- An operation over the link alone. -/
theorem Secures.ofLink (s : State) (l : Link) : Secures s { s with link := l } := .inert

theorem Secures.takeRestart (s : State) (b : Bool) : Secures s (s.takeRestart b) := by
  unfold State.takeRestart
  dsimp only
  refine Secures.trans ?_ (.endRequest _)
  refine Secures.trans ?_ (.foldl _ .refault _ _)
  refine Secures.trans ?_ (.queueNotice _ _)
  exact Secures.trans (t := s.clearNotices) .inert (.restartBlocks _)

/-! ## Requests taken (R180 to R183) -/

theorem Secures.takeCameraSense (s : State) (tag line : Byte) : Secures s (s.takeCameraSense tag line) := by
  unfold State.takeCameraSense
  split
  · exact .inert
  · exact .inert

theorem Secures.takeFetch (s : State) (tag : Byte) (n : BitVec 16) (k f c : Byte) :
    Secures s (s.takeFetch tag n k f c) := by
  unfold State.takeFetch
  split
  · exact .inert
  · dsimp only
    split
    · exact .inert
    · exact .inert

theorem Secures.carryOut (s : State) (tag : Byte) (r : Request) : Secures s (s.carryOut tag r) := by
  have serve : ∀ {x : State × Answer} {code : BitVec 16}, Secures s x.1 → Secures s (State.reply x tag code) :=
    fun h => .reply h tag _
  cases r with
  | timeSet t => exact serve (.timeSet s t)
  | timeGet => exact .inert
  | trackArm t => exact serve (.trackArm s t)
  | trackDisarm t => exact serve (.trackDisarm s t)
  | trackStatus t => exact .inert
  | listPassages => exact .inert
  | readPassage p part start => exact .inert
  | releasePassage p => exact serve (.releasePassage s p)
  | abandonPassage p => exact serve (.abandonPassage s p)
  | cameraService l on => exact serve (.keeps (.cameraService s l on) (Keeps.cameraService s l on))
  | cameraSense l => exact .takeCameraSense s tag l
  | memoryStatus p => exact .inert
  | pageRetire p sp => exact serve (.keeps (.pageRetire s p sp) (Keeps.pageRetire s p sp))
  | pageRestore p => exact serve (.keeps (.pageRestore s p) (Keeps.pageRestore s p))
  | tableBegin => exact serve (.tableBegin s)
  | tablePut kind index c => exact serve (.tablePut s kind index c)
  | tableGet b kind index => exact .inert
  | tableEnd => exact serve (.tableEnd s)
  | tableAbort => exact serve (.tableAbort s)
  | bankStatus => exact .inert
  | identify => exact .inert
  | restart => exact .inert
  | fetchImage p k f c => exact .takeFetch s tag p k f c

theorem Secures.takeRequest (s : State) : Secures s s.takeRequest := by
  unfold State.takeRequest
  split
  · next w rest _ _ =>
    split
    · exact .refl s
    · exact (Secures.ofLink s _).trans (.carryOut _ w.tag w.request)
  · exact .refl s

theorem Secures.refuseAtOnce (s : State) (tag : Byte) (code : BitVec 16) (d : Detail) :
    Secures s (s.refuseAtOnce tag code d) := by
  unfold State.refuseAtOnce
  split
  · exact .inert
  · exact .refl s

theorem Secures.enrol (s : State) (tag : Byte) (r : Request) : Secures s (s.enrol tag r) := by
  unfold State.enrol
  split
  · exact Secures.trans (t := s.queueRequest tag r) .inert (.takeRequest _)
  · exact .refuseAtOnce s _ _ _

theorem Secures.arrive (s : State) (tag : Byte) (body : List Byte) : Secures s (s.arrive tag body) := by
  unfold State.arrive
  split
  · exact (Secures.enrol s tag _).event
  · exact (Secures.refuseAtOnce s tag _ _).event

theorem Secures.request (s : State) (tag : Byte) (r : Request) : Secures s (s.request tag r) := by
  unfold State.request
  split
  · split
    · exact (Secures.enrol s tag _).event
    · exact (Secures.refuseAtOnce s tag _ _).event
  · exact .refl s

/-! ## The gantry link (R179 to R185, R196 to R198) -/

theorem Secures.receive (bound : Nat) : ∀ (s : State) (bytes : List Byte), Secures s (State.receive bound s bytes) := by
  induction bound with
  | zero => exact fun s bytes => .inert
  | succ bound ih =>
    intro s bytes
    unfold State.receive
    split
    · exact .inert
    · exact ih s _
    · exact (Secures.trans (t := s.setReceived []) .inert (.arrive _ _ _)).trans (ih _ _)

theorem Secures.responseSent (s : State) : Secures s s.responseSent := by
  unfold State.responseSent
  split
  · exact .takeRestart s _
  · exact .inert
  · exact .refl s
  · exact .refl s

theorem Secures.finishSending (s : State) (x : Sending) : Secures s (s.finishSending x) := by
  unfold State.finishSending
  split
  · dsimp only
    split
    · split
      · exact .inert
      · exact (Secures.ofLink s _).trans (.responseSent _)
    · exact .inert
  · exact .inert
  · dsimp only
    split
    · exact .inert
    · exact .inert

theorem Secures.frameSent (s : State) : Secures s s.frameSent := by
  unfold State.frameSent
  split
  · exact ((Secures.finishSending s _).trans (.takeRequest _)).event
  · exact .refl s

theorem Secures.loseLock (s : State) : Secures s s.loseLock := by
  unfold State.loseLock
  dsimp only
  have hdown := fun l : Link => (Secures.ofLink s l).trans (.abortTransaction _)
  split
  · exact (hdown _).trans (.takeRestart _ _)
  · exact hdown _

theorem Secures.gainLock (s : State) : Secures s s.gainLock :=
  (Secures.ofLink s _).trans (.queueNotice _ _)

theorem Secures.upsets (s : State) (bits : List Nat) : Secures s (s.setMemory (s.memory.upsets bits)) :=
  .of (.setMemory (.upsets s.memory bits)) (Preserves.upsets s bits)
    (fun h => h.2.2.tracked rfl rfl (fun _ hk => .inl hk))

/-! ## All commands -/

/-- A command in the form it takes when it reaches its effect or leaves the state alone. -/
theorem Secures.ite {c : Prop} [Decidable c] {u v : State} (h1 : c → Secures s t) (h2 : ¬ c → Secures s u)
    (h : (if c then (.next t : Host.Outcome State Fault Refusal) else .next u) = .next v) : Secures s v := by
  split at h
  · cases h; exact h1 (by assumption)
  · cases h; exact h2 (by assumption)

/-- An answer or a timeout (R113 to R116). -/
theorem Secures.endOrder {c : Camera} {o : Outstanding} {act : State → State} (hw : ∀ q, Works q (act q))
    (hm : ∀ q, SparesKept q (act q)) : Secures s (s.endOrder c o act).endEvent :=
  (Secures.keeps (.endOrder s c o act hm) (Keeps.endOrder s c o act hw)).event

theorem Secures.readComplete {o : OrderRef} {segment : List Byte} {check : BitVec 32} {outcome : ReadOutcome}
    {flags : FlagSet} (h : execReadComplete o segment check outcome flags s = .next t) : Secures s t := by
  unfold execReadComplete at h
  split at h
  · cases h
    exact .endOrder (fun q => Works.readAnswered q o.camera _ _ _ _ _ _) (fun q => .readAnswered q o.camera _ _ _ _ _ _)
  · cases h; exact .refl s

theorem Secures.discardComplete {o : OrderRef} (h : execDiscardComplete o s = .next t) : Secures s t := by
  unfold execDiscardComplete at h
  split at h
  · cases h
    exact .endOrder (fun q => Works.discardAnswered q o.camera _) (fun q => .discardAnswered q o.camera _)
  · cases h; exact .refl s

theorem Secures.senseComplete {o : OrderRef} {flags : FlagSet} {slot0 slot1 : Bool}
    (h : execSenseComplete o flags slot0 slot1 s = .next t) : Secures s t := by
  unfold execSenseComplete at h
  split at h
  · cases h
    exact .endOrder (fun q => Works.senseAnswered q o.camera _ _ _) (fun q => .senseAnswered q o.camera _ _ _)
  · cases h; exact .refl s

theorem Secures.relinkComplete {o : OrderRef} (h : execRelinkComplete o s = .next t) : Secures s t := by
  unfold execRelinkComplete at h
  split at h
  · cases h
    exact .endOrder (fun q => Works.relinkAnswered q o.camera) (fun q => .relinkAnswered q o.camera)
  · cases h; exact .refl s

theorem Secures.orderTimeout {c : Camera} (h : execOrderTimeout c s = .next t) : Secures s t := by
  unfold execOrderTimeout at h
  split at h
  · exact .ite (fun _ => .endOrder (fun q => Works.orderTimedOut q c _) (fun q => .orderTimedOut q c _))
      (fun _ => .refl s) h
  · cases h; exact .refl s

/-- Every command but POWER_UP. -/
theorem exec_secures {c : Instr} (hc : ∀ levels, c ≠ .powerUp levels) (h : exec c s = .next t) : Secures s t := by
  cases c with
  | powerUp levels => exact absurd rfl (hc levels)
  | crossing k head => cases h; exact (Secures.crossing s k head).event
  | headFault k head =>
    exact .ite (fun _ => .refl s) (fun _ => ((Secures.setHealth s k head .fault).trans (.actOnFault _ k)).event) h
  | headHealthy k head =>
    exact .ite (fun _ => .refl s) (fun _ => ((Secures.setHealth s k head .healthy).trans (.actOnRecovery _ k)).event) h
  | quietTimerExpiry k => exact .ite (fun hq => (Secures.quietEnds hq).event) (fun _ => .refl s) h
  | pairTimeout k side => exact .ite (fun _ => (Secures.expirePair s k side).event) (fun _ => .refl s) h
  | tailWindowExpiry n =>
    change execTailWindowExpiry n s = .next t at h
    unfold execTailWindowExpiry at h
    split at h
    · next p hp =>
      refine .ite (fun ha => ?_) (fun _ => .refl s) h
      exact (Secures.declareTail (by rw [passage?_number hp]; exact hp) ha.1).event
    · cases h; exact .refl s
  | exitTimeout n =>
    change execExitTimeout n s = .next t at h
    unfold execExitTimeout at h
    split at h
    · next p hp =>
      refine .ite (fun ha => ?_) (fun _ => .refl s) h
      exact (Secures.clearShort (passage?_mem hp) (by simp [Passage.isOpen, ha.1])).event
    · cases h; exact .refl s
  | shotFreeze n k =>
    exact .ite (fun _ => (Secures.keeps .same (Keeps.modifyShot s _ _)).event) (fun _ => .refl s) h
  | shotDue =>
    change execShotDue s = .next t at h
    unfold execShotDue at h
    split at h
    · cases h; exact (Secures.keeps (.handOver s _) (Keeps.handOver s _)).event
    · cases h; exact .refl s
  | busyIntervalEnd k => exact .ite (fun _ => (Secures.keeps .same (Keeps.setFire s k _)).event) (fun _ => .refl s) h
  | triggerPulseEnd k => exact .ite (fun _ => (Secures.keeps .same (Keeps.setFire s k _)).event) (fun _ => .refl s) h
  | flashPulseEnd k => exact .ite (fun _ => (Secures.keeps .same (Keeps.setStrobe s k _)).event) (fun _ => .refl s) h
  | rechargeExpiry k => exact .ite (fun _ => (Secures.keeps .same (Keeps.setStrobe s k _)).event) (fun _ => .refl s) h
  | readComplete o segment check outcome flags => exact .readComplete h
  | discardComplete o => exact .discardComplete h
  | senseComplete o flags a b => exact .senseComplete h
  | relinkComplete o => exact .relinkComplete h
  | orderTimeout k => exact .orderTimeout h
  | lineLockGained => exact .ite (fun _ => .refl s) (fun _ => (Secures.gainLock s).event) h
  | lineLockLost => exact .ite (fun _ => (Secures.loseLock s).event) (fun _ => .refl s) h
  | frameReceived bytes => exact .ite (fun _ => .receive _ s _) (fun _ => .refl s) h
  | frameSent wrong =>
    change execFrameSent wrong s = .next t at h
    unfold execFrameSent at h
    split at h
    · cases h
    · split at h
      · cases h; exact (Secures.upsets s wrong).trans (.frameSent _)
      · cases h; exact .refl s
  | timeSet tag a => cases h; exact .request s tag _
  | timeGet tag => cases h; exact .request s tag _
  | trackArm tag a => cases h; exact .request s tag _
  | trackDisarm tag a => cases h; exact .request s tag _
  | trackStatus tag a => cases h; exact .request s tag _
  | listPassages tag => cases h; exact .request s tag _
  | readPassage tag a b d => cases h; exact .request s tag _
  | releasePassage tag a => cases h; exact .request s tag _
  | abandonPassage tag a => cases h; exact .request s tag _
  | cameraService tag a b => cases h; exact .request s tag _
  | cameraSense tag a => cases h; exact .request s tag _
  | memoryStatus tag a => cases h; exact .request s tag _
  | pageRetire tag a b => cases h; exact .request s tag _
  | pageRestore tag a => cases h; exact .request s tag _
  | tableBegin tag => cases h; exact .request s tag _
  | tablePut tag a b d => cases h; exact .request s tag _
  | tableGet tag a b d => cases h; exact .request s tag _
  | tableEnd tag => cases h; exact .request s tag _
  | tableAbort tag => cases h; exact .request s tag _
  | bankStatus tag => cases h; exact .request s tag _
  | identify tag => cases h; exact .request s tag _
  | restart tag => cases h; exact .request s tag _
  | fetchImage tag a b d e => cases h; exact .request s tag _

/-! ## Every step -/

/-- A step keeps what POWER_UP establishes and every other command keeps. -/
theorem keptByStep_of_powerUp {P : State → Prop}
    (hqueue : ∀ (s : State) (rest : List Instr), P s → P { s with pending := rest })
    (htick : ∀ s : State, P s → P s.tick) (hup : ∀ levels pending, P (State.powerUp levels pending))
    (hexec : ∀ s t : State, Preserves s t → Secures s t → P s → P t) : KeptByStep P := by
  refine keptByStep_of_exec hqueue htick (fun c s t hs h => ?_)
  by_cases hc : ∃ levels, c = .powerUp levels
  · obtain ⟨levels, rfl⟩ := hc
    cases h
    exact hup levels s.pending
  · exact hexec s t (exec_preserves (fun levels he => hc ⟨levels, he⟩) h)
      (exec_secures (fun levels he => hc ⟨levels, he⟩) h) hs

/-- No page is on a spare at power-up, no passage is live, and every bank is EMPTY (R151, R199). -/
theorem secure_powerUp (levels : Vector HeadHealth 4) (pending : List Instr) :
    Secure (State.powerUp levels pending) :=
  have hfirm := Firm.powerUp levels pending
  ⟨hfirm.tracks, hfirm.banks, bindings_iff.1 hfirm.bound.bindings⟩

theorem sparesSound_powerUp (levels : Vector HeadHealth 4) (pending : List Instr) :
    (State.powerUp levels pending).memory.sparesSound :=
  ⟨fun _ _ _ h => (nomatch h), fun _ _ h => (nomatch h), fun _ h => (nomatch h)⟩

theorem secure_iff (s : State) : Secure s ↔ s.tracksInv ∧ s.banks.sound ∧ s.bindings := by
  unfold Secure
  rw [bindings_iff]

/-- Settles O9: memory, banks and link are kept each by itself, the spares with the canonical page map, the bindings
with tracks, passages and banks. -/
theorem memoryBanksAndLinkStaySound : Obligations.MemoryBanksAndLinkStaySound := by
  refine ⟨?_, ?_, ?_, ?_, ?_⟩
  · refine keptByStep_of_powerUp (fun _ _ h => h) (fun _ h => h) (fun levels pending => ?_) (fun _ _ h _ => h.memory)
    exact (State.powerUp_inv levels pending).1
  · refine keptByStep_of_powerUp (fun _ _ h => h) (fun _ h => h) (fun levels pending => ?_) (fun _ _ _ h => h.spares)
    exact ⟨(State.powerUp_inv levels pending).1, sparesSound_powerUp levels pending⟩
  · refine keptByStep_of_powerUp (fun _ _ h => h) (fun _ h => h) (fun levels pending => ?_) (fun _ _ h _ => h.banks)
    exact (Firm.powerUp levels pending).banks
  · refine keptByStep_of_powerUp (fun _ _ h => h) (fun _ h => h) (fun levels pending => ?_) (fun s t _ h hs => ?_)
    · exact (secure_iff _).1 (secure_powerUp levels pending)
    · exact (secure_iff t).1 (h.secure ((secure_iff s).2 hs))
  · refine keptByStep_of_powerUp (fun _ _ h => h) (fun _ h => h) (fun levels pending => ?_) (fun _ _ h _ => h.link)
    obtain ⟨-, -, -, -, hlink⟩ := State.powerUp_inv levels pending
    exact hlink

end Requests

end Sys2Proof.Proofs

/-! PROOFS. Pages drawn, freed and retired (R137, R138, R142 to R144): O57. -/

namespace Sys2Proof.Proofs

open Sys2Proof.Machine

section Pages

variable {m : FrameMemory} {k segment : Nat} {r : ShotRef}

/-! ## The lowest free page, and a draw (R137, R138) -/

theorem lowestFree_lowest (h : m.wf) (hk : m.lowestFree = some k) :
    k < 8192 ∧ (m.page k).condition = .free ∧ ∀ j, j < k → (m.page j).condition ≠ .free := by
  obtain ⟨-, hfree, hbelow⟩ := lowestFreeFrom_facts m.pages 0 h.2.1 (fun _ _ => Nat.zero_le _)
  unfold FrameMemory.lowestFree at hk
  dsimp only at hk
  split at hk
  · next hlt =>
    cases hk
    exact ⟨hlt, hfree, fun j hj => hbelow j (Nat.zero_le j) hj⟩
  · cases hk

theorem lowestFree_none (h : m.wf) (hnone : m.lowestFree = none) (j : Nat) (hj : j < 8192) :
    (m.page j).condition ≠ .free := by
  obtain ⟨-, -, hbelow⟩ := lowestFreeFrom_facts m.pages 0 h.2.1 (fun _ _ => Nat.zero_le _)
  unfold FrameMemory.lowestFree at hnone
  dsimp only at hnone
  split at hnone
  · cases hnone
  · next hge => exact hbelow j (Nat.zero_le j) (Nat.lt_of_lt_of_le hj (Nat.not_lt.1 hge))

theorem draw_eq (hk : m.lowestFree = some k) : m.draw r segment
    = ((m.setPage k { m.page k with condition := .held ⟨r, segment⟩ }).lowerRemainder r, some k) := by
  unfold FrameMemory.draw
  rw [hk]

theorem draw_facts (h : m.wf) (hk : m.lowestFree = some k) :
    (m.draw r segment).2 = some k
    ∧ (m.draw r segment).1.page k = { m.page k with condition := .held ⟨r, segment⟩ }
    ∧ (∀ j, j ≠ k → (m.draw r segment).1.page j = m.page j)
    ∧ (∀ a, (m.draw r segment).1.byteAt a = m.byteAt a)
    ∧ (m.draw r segment).1.badSpares = m.badSpares
    ∧ ((m.reservations.map (·.shot)).Nodup →
      (m.draw r segment).1.remainder r = m.remainder r - 1
      ∧ (m.draw r segment).1.reservedCount + min 1 (m.remainder r) = m.reservedCount
      ∧ ∀ q, q ≠ r → (m.draw r segment).1.remainder q = m.remainder q) := by
  rw [draw_eq hk]
  exact ⟨rfl, FrameMemory.page_setPage_self h k _, fun j hj => FrameMemory.page_setPage_ne h k j _ hj, fun _ => rfl, rfl,
    FrameMemory.lowerRemainder_facts (m.setPage k { m.page k with condition := .held ⟨r, segment⟩ }) r⟩

/-! ## A page freed (R142 to R144) -/

theorem free_unmarked (hk : (m.page k).mark = none) :
    m.free k = (m.setPage k { m.page k with condition := .free }, []) := by
  unfold FrameMemory.free
  rw [hk]

theorem free_marked {mark : RetireMark} (hk : (m.page k).mark = some mark) :
    m.free k = m.retire k mark.preferred mark.cause := by
  unfold FrameMemory.free
  rw [hk]

/-- A PAGE RETIRE is the cause, unless a fetch set the mark too and no spare is preferred (R144). -/
theorem RetireMark.cause_eq (mark : RetireMark) : mark.cause
    = if mark.byRequest = true ∧ (mark.byFetch = false ∨ mark.preferred ≠ none) then .request else .fetch := by
  obtain ⟨preferred, byFetch, byRequest⟩ := mark
  unfold RetireMark.cause
  cases byRequest <;> cases byFetch <;> cases preferred <;> rfl

/-- The target by the preferred spare, when there is a usable one, and else by the spares (R144). -/
theorem target_eq {preferred target : Option Nat}
    (husable : ∀ sp, preferred = some sp → m.usable sp = true → target = some sp)
    (helse : preferred = none ∨ (∃ sp, preferred = some sp ∧ m.usable sp = false) → target = m.lowestUsable) :
    m.target preferred = target := by
  unfold FrameMemory.target
  cases preferred with
  | none => exact (helse (.inl rfl)).symm
  | some sp =>
    dsimp only
    split
    · next hu => exact (husable sp rfl hu).symm
    · next hu => exact (helse (.inr ⟨sp, rfl, Bool.eq_false_iff.2 hu⟩)).symm

/-- Settles O57: the draw is of the lowest free page; a page freed is written back, or retired by its mark. -/
theorem frameMemoryPages : Obligations.FrameMemoryPages := by
  intro m h
  refine ⟨fun k hk => lowestFree_lowest h hk, lowestFree_none h, fun r segment k hk => draw_facts h hk, fun k hk => ?_,
    fun k mark p target cause hp hmark husable helse hcause => ?_⟩
  · rw [free_unmarked hk]
    exact ⟨rfl, FrameMemory.page_setPage_self h k _, fun j hj => FrameMemory.page_setPage_ne h k j _ hj, fun _ => rfl,
      rfl, rfl⟩
  · subst hp
    obtain rfl := (RetireMark.cause_eq mark).trans hcause.symm
    obtain rfl := target_eq husable helse
    rw [free_marked hmark]
    obtain ⟨hpage, hbad, hnotices, hothers, hcells, -, hreservations, -⟩ :=
      FrameMemory.retire_facts h k mark.preferred mark.cause
    refine ⟨hpage, fun sp => ?_, hnotices, hothers, fun a => by unfold FrameMemory.byteAt; rw [hcells], hreservations⟩
    unfold FrameMemory.bad
    rw [List.contains_iff_mem, List.contains_iff_mem, hbad]
    exact mem_badWith

end Pages

end Sys2Proof.Proofs

/-! PROOFS. Bytes and words of frame memory (R140, R141): O58. -/

namespace Sys2Proof.Proofs

open Sys2Proof.Machine

section Words

variable {m : FrameMemory} {a b base i n word : Nat} {bytes : List Byte}

/-! ## Bytes written (R140) -/

/-- A bit is wrong after a write when it was and lies outside the bytes written. -/
theorem mem_wrong_write (m : FrameMemory) (base : Nat) (bytes : List Byte) (b : Nat) :
    b ∈ (m.write base bytes).wrong ↔ b ∈ m.wrong ∧ (b / 8 < base ∨ base + bytes.length ≤ b / 8) := by
  unfold FrameMemory.write
  rw [List.mem_filter, Bool.or_eq_true, decide_eq_true_iff, decide_eq_true_iff]
  exact and_congr_right' (or_congr (by omega) (by omega))

theorem byteAt_write (m : FrameMemory) (base : Nat) (bytes : List Byte) (hi : i < bytes.length) :
    (m.write base bytes).byteAt (base + i) = bytes.getD i 0 := by
  rw [FrameMemory.byteAt_write_inside m base bytes i hi, List.getD_eq_getElem _ _ hi]

theorem wordBytes_write (m : FrameMemory) (hlen : bytes.length = 8) :
    (m.write (word * 8) bytes).wordBytes word = bytes := by
  unfold FrameMemory.wordBytes
  refine List.ext_getElem (by simp [hlen]) (fun i hi _ => ?_)
  have hi : i < bytes.length := by simpa [hlen] using hi
  rw [List.getElem_map, List.getElem_range, FrameMemory.byteAt_write_inside m _ bytes i hi]

/-- No bit of a word is wrong after the word is written. -/
theorem not_wrong_write (m : FrameMemory) (hlen : bytes.length = 8) (hb : b / 64 = word) :
    b ∉ (m.write (word * 8) bytes).wrong := fun hmem => by
  obtain ⟨-, hout⟩ := (mem_wrong_write m _ bytes b).1 hmem
  omega

theorem wrongBits_write (m : FrameMemory) (hlen : bytes.length = 8) :
    (m.write (word * 8) bytes).wrongBits word = [] := by
  unfold FrameMemory.wrongBits
  refine List.map_eq_nil_iff.2 (List.filter_eq_nil_iff.2 (fun b hb hword => ?_))
  exact not_wrong_write m hlen (of_decide_eq_true hword) hb

/-! ## Bits turned over (R140, R141) -/

theorem getLsbD_flip (x : Byte) (j : Nat) (hi : i < 8) :
    (x ^^^ (1 <<< j)).getLsbD i = (x.getLsbD i ^^ decide (i = j)) := by
  rw [BitVec.getLsbD_xor, BitVec.natCast_eq_ofNat, BitVec.getLsbD_ofNat, Nat.one_shiftLeft, Nat.testBit_two_pow,
    decide_eq_true hi, Bool.true_and, decide_eq_decide.2 (eq_comm (a := j) (b := i))]

theorem byteAt_upset (h : m.wf) (b a : Nat) :
    (m.upset b).byteAt a = if a = b / 8 then m.byteAt a ^^^ (1 <<< (b % 8)) else m.byteAt a := by
  split
  · next he =>
    rw [he]
    exact sparseGet_sparsePut_self h.1 (b / 8) _
  · next hne => exact sparseGet_sparsePut_ne h.1 (b / 8) a _ hne

theorem insertRising_perm {l : List Nat} (hn : n ∉ l) : (insertRising n l).Perm (n :: l) := by
  induction l with
  | nil => exact .refl _
  | cons k l ih =>
    obtain ⟨hk, hl⟩ := not_or.1 (fun hor => hn (List.mem_cons.2 hor))
    unfold insertRising
    rw [if_neg hk]
    split
    · exact .refl _
    · exact ((ih hl).cons k).trans (List.Perm.swap n k l)

theorem upset_wrong (hb : b ∉ m.wrong) : (m.upset b).wrong = insertRising b m.wrong := by
  unfold FrameMemory.upset
  dsimp only
  rw [if_neg (by simpa using hb)]

/-- A bit of a word turned over joins the word's wrong bits. -/
theorem wrongBits_upset (hb : b ∉ m.wrong) (hword : b / 64 = word) :
    ((m.upset b).wrongBits word).Perm (b % 64 :: m.wrongBits word) := by
  have hkept := ((insertRising_perm hb).filter (fun x => decide (x / 64 = word))).map (· % 64)
  rw [List.filter_cons_of_pos (by simpa using hword)] at hkept
  unfold FrameMemory.wrongBits
  rw [upset_wrong hb]
  exact hkept

/-- The word's stored bytes with one of its bits turned over. -/
theorem wordBytes_upset (h : m.wf) (hword : b / 64 = word) :
    (m.upset b).wordBytes word = flipBit (m.wordBytes word) (b % 64) := by
  unfold FrameMemory.wordBytes flipBit
  refine List.ext_getElem (by simp) (fun i hi _ => ?_)
  rw [List.getElem_map, List.getElem_range, byteAt_upset h, List.getElem_modify, List.getElem_map, List.getElem_range]
  have hi : i < 8 := by simpa using hi
  have hbyte : word * 8 + i = b / 8 ↔ b % 64 / 8 = i := by omega
  have hbit : b % 64 % 8 = b % 8 := by omega
  rw [hbit, if_congr hbyte rfl rfl]

theorem flipBit_flipBit (bytes : List Byte) (k : Nat) : flipBit (flipBit bytes k) k = bytes := by
  unfold flipBit
  refine List.ext_getElem (by simp) (fun i _ _ => ?_)
  rw [List.getElem_modify, List.getElem_modify]
  split
  · rw [BitVec.xor_assoc, BitVec.xor_self, BitVec.xor_zero]
  · rfl

/-- Turned over once each, the bits named are those that differ (log 8). -/
theorem getLsbD_upsets (bits : List Nat) : ∀ {m : FrameMemory}, m.wf → bits.Nodup → i < 8 →
    ((m.upsets bits).byteAt a).getLsbD i = ((m.byteAt a).getLsbD i ^^ bits.contains (a * 8 + i)) := by
  induction bits with
  | nil => simp [FrameMemory.upsets]
  | cons b bits ih =>
    intro m h hnodup hi
    obtain ⟨hb, hrest⟩ := List.nodup_cons.1 hnodup
    have hfirst : ((m.upset b).byteAt a).getLsbD i = ((m.byteAt a).getLsbD i ^^ decide (a * 8 + i = b)) := by
      rw [byteAt_upset h]
      split
      · next ha =>
        have hbit : i = b % 8 ↔ a * 8 + i = b := by omega
        rw [getLsbD_flip _ _ hi, decide_eq_decide.2 hbit]
      · next ha => simp [show a * 8 + i ≠ b by omega]
    change (((m.upset b).upsets bits).byteAt a).getLsbD i = _
    rw [ih (FrameMemory.upset_wf h b) hrest hi, hfirst]
    by_cases he : a * 8 + i = b
    · simp [he, hb]
    · simp [he]

/-! ## Words read with their check (R141) -/

theorem readWord_write (m : FrameMemory) (hlen : bytes.length = 8) :
    (m.write (word * 8) bytes).readWord word = (.correct, bytes) := by
  unfold FrameMemory.readWord
  rw [wrongBits_write m hlen, wordBytes_write m hlen]

theorem readWord_one_wrong (h : m.wf) (hlen : bytes.length = 8) (hb : b / 64 = word) :
    ((m.write (word * 8) bytes).upset b).readWord word = (.corrected, bytes) := by
  have hperm := wrongBits_upset (not_wrong_write m hlen hb) hb
  rw [wrongBits_write m hlen] at hperm
  unfold FrameMemory.readWord
  rw [List.perm_singleton.1 hperm, wordBytes_upset (FrameMemory.write_wf h _ _) hb, wordBytes_write m hlen]
  exact congrArg (Prod.mk _) (flipBit_flipBit bytes _)

theorem readWord_two_wrong {b' : Nat} (hlen : bytes.length = 8) (hb : b / 64 = word)
    (hb' : b' / 64 = word) (hne : b ≠ b') :
    ((((m.write (word * 8) bytes).upset b).upset b').readWord word).1 = .damaged := by
  have hfirst := not_wrong_write m hlen hb
  have hsecond : b' ∉ ((m.write (word * 8) bytes).upset b).wrong := by
    rw [upset_wrong hfirst, mem_insertRising]
    exact not_or.2 ⟨hne.symm, not_wrong_write m hlen hb'⟩
  have hperm := (wrongBits_upset hsecond hb').trans ((wrongBits_upset hfirst hb).cons _)
  rw [wrongBits_write m hlen] at hperm
  obtain ⟨x, y, hxy⟩ := List.length_eq_two.1 hperm.length_eq
  unfold FrameMemory.readWord
  rw [hxy]

/-- Settles O58: what a write leaves, what a word reads as by the number of its wrong bits, and the bits turned over. -/
theorem frameMemoryWords : Obligations.FrameMemoryWords := by
  intro m h
  refine ⟨fun base bytes n hn => ?_, fun word bytes hlen => ?_, fun bits a i => getLsbD_upsets bits h⟩
  · subst hn
    exact ⟨fun i hi => byteAt_write m base bytes hi, fun a ha => FrameMemory.byteAt_write_outside m base bytes a ha,
      mem_wrong_write m base bytes, rfl, rfl, rfl, rfl⟩
  · exact ⟨readWord_write m hlen, fun b hb => readWord_one_wrong h hlen hb,
      fun b b' hb hb' hne => readWord_two_wrong hlen hb hb' hne⟩

end Words

end Sys2Proof.Proofs

/-! PROOFS. The requests of frame memory and the status requests (R144 to R148, R165, R189): O30, O29 and O28. -/

namespace Sys2Proof.Proofs

open Sys2Proof.Machine

section Status

variable {s : State} {page : BitVec 16}

/-! ## Fields -/

theorem byteOf_ite (c : Prop) [Decidable c] (a b : Nat) :
    byteOf (if c then a else b) = [if c then BitVec.ofNat 8 a else BitVec.ofNat 8 b] := by
  split <;> rfl

theorem noneIfAllOnes_ne (h : page ≠ 0xFFFF) : noneIfAllOnes page = some page.toNat := if_neg h

/-- A page number below 8,192 is not the value that names none. -/
theorem ne_allOnes_of_lt {x : BitVec 16} {n : Nat} (h : x.toNat < n) (hn : n ≤ 65535) : x ≠ 0xFFFF := by
  rintro rfl
  have hall : ((0xFFFF : BitVec 16)).toNat = 65535 := rfl
  omega

/-! ## MEMORY STATUS (R148) -/

theorem memoryData_eq (s : State) : s.memoryData
    = leBytes 2 s.memory.freeCount ++ leBytes 2 s.memory.heldCount
      ++ leBytes 2 s.memory.outOfServiceCount ++ leBytes 2 s.memory.reservedCount
      ++ [BitVec.ofNat 8 s.memory.spareCounts.1, BitVec.ofNat 8 s.memory.spareCounts.2.1,
        BitVec.ofNat 8 s.memory.spareCounts.2.2]
      ++ leBytes 2 s.memory.markedCount ++ leBytes 2 s.threshold ++ [if s.memory.low then 0 else 1] := by
  unfold State.memoryData
  dsimp only
  rw [byteOf_ite]
  rfl

theorem memoryStatus_counts (s : State) : s.memoryStatus 0xFFFF = .done s.memoryData := rfl

theorem memoryStatus_badPage (h : 8192 ≤ page.toNat) (hne : page ≠ 0xFFFF) :
    s.memoryStatus page = .refused .badArgument := by
  unfold State.memoryStatus
  rw [noneIfAllOnes_ne hne]
  exact if_neg (Nat.not_lt.2 h)

theorem memoryStatus_page (h : page.toNat < 8192) :
    s.memoryStatus page = .done (s.memoryData ++ s.memory.pageData page.toNat) := by
  unfold State.memoryStatus
  rw [noneIfAllOnes_ne (ne_allOnes_of_lt h (by decide))]
  exact if_pos h

/-- The fields of a page, by its condition (R148). -/
theorem pageData_eq {m : FrameMemory} {k : Nat} {condition : Byte} {physical : Option Nat} {owner : Option PageOwner}
    (h : ((m.page k).condition = .free ∧ condition = 0 ∧ physical = some ((m.page k).spare.getD k) ∧ owner = none)
      ∨ (∃ o, (m.page k).condition = .held o ∧ condition = 1 ∧ physical = some ((m.page k).spare.getD k)
        ∧ owner = some o)
      ∨ ((m.page k).condition = .outOfService ∧ condition = 2 ∧ physical = none ∧ owner = none)) :
    m.pageData k = condition :: optBytes 2 (leBytes 2) physical ++ [if (m.page k).mark.isSome then 1 else 0]
      ++ optBytes 2 (leBytes 2) ((m.page k).mark.bind (·.preferred))
      ++ optBytes 4 (fun o : PageOwner => leBytes 2 o.shot.passage
          ++ [BitVec.ofNat 8 o.shot.shot, BitVec.ofNat 8 o.segment]) owner := by
  unfold FrameMemory.pageData Page.physical flagByte
  dsimp only
  rcases h with ⟨hc, rfl, rfl, rfl⟩ | ⟨o, hc, rfl, rfl, rfl⟩ | ⟨hc, rfl, rfl, rfl⟩
  all_goals
    rw [hc]
    rfl

/-! ## BANK STATUS and IDENTIFY (R165, R189) -/

theorem bankStatus_eq (s : State) : s.bankStatus = ⟨.done, .ok,
    [BitVec.ofNat 8 s.banks.slots[(0 : BankNo)].state.toCode, BitVec.ofNat 8 (s.boundCount 0),
      BitVec.ofNat 8 (s.openCount 0), BitVec.ofNat 8 (s.busyCount 0),
      BitVec.ofNat 8 s.banks.slots[(1 : BankNo)].state.toCode, BitVec.ofNat 8 (s.boundCount 1),
      BitVec.ofNat 8 (s.openCount 1), BitVec.ofNat 8 (s.busyCount 1),
      BitVec.ofNat 8 s.banks.depth]
      ++ optBytes 1 (fun b : BankNo => byteOf b.val) s.banks.open?
      ++ [if s.banks.open?.isSome && s.banks.restoreImage.isNone then 1 else 0,
        if s.banks.active?.isSome then 1 else 0]
      ++ optBytes 1 (fun b : BankNo => byteOf b.val) s.banks.active?⟩ := by
  unfold State.bankStatus flagByte
  rw [byteOf_ite]
  simp only [List.append_assoc]
  rfl

theorem identifyData_eq : identifyData =
    [0x91, 0x3E, 0x45, 0x42, 0x2D, 0x34, 0x31, 0x32, 1, 4, 12, 4, 4, 8, 128, 24, 48, 64, 64,
      0, 1, 0, 32, 128, 0, 0, 1, 0, 4, 64, 8, 16] := by decide

/-- Settles O30: the answers to the three requests, MEMORY STATUS by the page named. -/
theorem statusRequests : Obligations.StatusRequests := by
  intro s tag counts hready hcounts
  obtain rfl := (memoryData_eq s).trans hcounts.symm
  have memory : ∀ {page : BitVec 16} {a : Answer}, s.memoryStatus page = a →
      exec (.memoryStatus tag page) s = .next (s.placeAnswer tag 0x0701 a).endEvent := fun {page a} ha =>
    request_answers (r := .memoryStatus page) hready rfl (by rw [← ha]; rfl)
  refine ⟨memory (memoryStatus_counts s), fun page hpage hne => memory (memoryStatus_badPage hpage hne),
    fun page p condition physical owner hpage hp hfields => ?_, ?_, ?_⟩
  · subst hp
    rw [memory (memoryStatus_page hpage), pageData_eq hfields]
    simp only [List.append_assoc]
    rfl
  · rw [← bankStatus_eq]
    exact request_answers (r := .bankStatus) hready rfl rfl
  · rw [← identifyData_eq]
    exact request_answers (r := .identify) hready rfl rfl

end Status

section Pages

variable {s : State} {m : FrameMemory} {page spare : BitVec 16} {k sp : Nat}

/-! ## PAGE RESTORE (R147) -/

theorem pageRestore_badArgument (h : 8192 ≤ page.toNat) : s.pageRestore page = (s, .refused .badArgument) := by
  unfold State.pageRestore
  exact if_pos h

/-- A page of the map is held, or goes back to its own page (R147). -/
theorem pageRestore_known (h : page.toNat < 8192) : s.pageRestore page =
    if (s.memory.page page.toNat).isHeld then (s, .refused .pageHeld)
    else (s.setMemory (s.memory.setPage page.toNat .initial),
      .done (optBytes 2 (leBytes 2) (s.memory.page page.toNat).spare)) := by
  unfold State.pageRestore
  exact if_neg (Nat.not_le.2 h)

theorem pageRestore_held {o : PageOwner} (h : page.toNat < 8192)
    (hheld : (s.memory.page page.toNat).condition = .held o) : s.pageRestore page = (s, .refused .pageHeld) := by
  rw [pageRestore_known h, if_pos ((isHeld_iff _).2 ⟨o, hheld⟩)]

theorem pageRestore_done (h : page.toNat < 8192) (hst : (s.memory.page page.toNat).condition = .free
      ∨ (s.memory.page page.toNat).condition = .outOfService) :
    s.pageRestore page = (s.setMemory (s.memory.setPage page.toNat .initial),
      .done (optBytes 2 (leBytes 2) (s.memory.page page.toNat).spare)) := by
  rw [pageRestore_known h, if_neg]
  rw [isHeld_iff]
  rintro ⟨o, ho⟩
  rcases hst with hst | hst <;> rw [hst] at ho <;> cases ho

/-- Settles O29: the two refusals, then the page on its own page again. -/
theorem pageRestoreRequest : Obligations.PageRestoreRequest := by
  intro s tag page hready hwf
  have answers : ∀ {x : State × Answer}, s.pageRestore page = x →
      exec (.pageRestore tag page) s = .next (x.1.placeAnswer tag 0x0703 x.2).endEvent := fun hx =>
    request_answers (r := .pageRestore page) hready rfl (by rw [← hx]; rfl)
  refine ⟨fun hpage => answers (pageRestore_badArgument hpage), fun o hpage hheld => answers (pageRestore_held hpage hheld),
    fun hpage hst => ⟨s.memory.setPage page.toNat .initial, fun sp hsp => ?_, fun hnone => ?_,
      FrameMemory.page_setPage_self hwf _ _, fun j hj => FrameMemory.page_setPage_ne hwf _ j _ hj, rfl, rfl, rfl, rfl,
      rfl⟩⟩
  · rw [answers (pageRestore_done hpage hst), hsp]
    rfl
  · rw [answers (pageRestore_done hpage hst), hnone]
    rfl

/-! ## PAGE RETIRE (R144 to R146) -/

theorem retireRefusal_named (h : k < 8192) : m.retireRefusal k (some sp) =
    if isSpare sp = false then some .notASpare
    else if m.bad sp then some .spareBad
    else if (m.page k).spare = some sp then some .selfSpare
    else if m.assigned sp then some .spareInUse
    else none := by
  unfold FrameMemory.retireRefusal
  exact if_neg (Nat.not_le.2 h)

theorem retireRefusal_unnamed (h : k < 8192) : m.retireRefusal k none =
    if (m.page k).condition = .outOfService ∧ m.lowestUsable = none then some .noSpare
    else if (m.page k).condition = .free ∧ m.lowestUsable = none ∧ m.freeCount = m.reservedCount then some .noSpare
    else none := by
  unfold FrameMemory.retireRefusal
  exact if_neg (Nat.not_le.2 h)

theorem isSpare_iff (sp : Nat) : isSpare sp = true ↔ 8192 ≤ sp ∧ sp < 8320 := by
  unfold isSpare logicalPages sparePages
  rw [Bool.and_eq_true, decide_eq_true_iff, decide_eq_true_iff]

/-- The refusal of a spare named, by the first check that fails (R145). -/
theorem retireRefusal_of_named (h : k < 8192) {d : Detail}
    (hd : ((sp < 8192 ∨ 8320 ≤ sp) ∧ d = .notASpare)
      ∨ (8192 ≤ sp ∧ sp < 8320 ∧ m.bad sp = true ∧ d = .spareBad)
      ∨ (8192 ≤ sp ∧ sp < 8320 ∧ m.bad sp = false ∧ (m.page k).spare = some sp ∧ d = .selfSpare)
      ∨ (8192 ≤ sp ∧ sp < 8320 ∧ m.bad sp = false ∧ (m.page k).spare ≠ some sp ∧ m.assigned sp = true
        ∧ d = .spareInUse)) : m.retireRefusal k (some sp) = some d := by
  have hspare : 8192 ≤ sp → sp < 8320 → isSpare sp = true := fun hl hh => (isSpare_iff sp).2 ⟨hl, hh⟩
  rw [retireRefusal_named h]
  rcases hd with ⟨hout, rfl⟩ | ⟨hl, hh, hbad, rfl⟩ | ⟨hl, hh, hbad, hself, rfl⟩ | ⟨hl, hh, hbad, hself, hassigned, rfl⟩
  · have hno : isSpare sp = false := Bool.eq_false_iff.2 (fun hs => by
      obtain ⟨hl, hh⟩ := (isSpare_iff sp).1 hs
      omega)
    rw [if_pos hno]
  · simp [hspare hl hh, hbad]
  · simp [hspare hl hh, hbad, hself]
  · simp [hspare hl hh, hbad, hself, hassigned]

theorem retireRefusal_usable (hm : m.wf) (h : k < 8192) (hu : m.usable sp = true) : m.retireRefusal k (some sp) = none := by
  obtain ⟨hrange, hbad, hassigned⟩ := (usable_iff m sp).1 hu
  obtain ⟨-, -, hfree⟩ := usable_free hm hu
  rw [retireRefusal_named h]
  simp [(isSpare_iff sp).2 hrange, hbad, hfree k, hassigned]

theorem retireRefusal_noSpare (h : k < 8192) (hnone : m.lowestUsable = none)
    (hst : (m.page k).condition = .outOfService
      ∨ ((m.page k).condition = .free ∧ m.freeCount = m.reservedCount)) : m.retireRefusal k none = some .noSpare := by
  rw [retireRefusal_unnamed h]
  rcases hst with hst | ⟨hst, hcount⟩
  · rw [if_pos ⟨hst, hnone⟩]
  · rw [if_neg (fun hout => by rw [hst] at hout; cases hout.1), if_pos ⟨hst, hnone, hcount⟩]

/-- Without a spare named the checks pass when there is a usable one, or when the page may go OUT_OF_SERVICE. -/
theorem retireRefusal_passes (h : k < 8192) (hout : (m.page k).condition = .outOfService → m.lowestUsable ≠ none)
    (hfree : (m.page k).condition = .free → m.lowestUsable = none → m.freeCount ≠ m.reservedCount) :
    m.retireRefusal k none = none := by
  rw [retireRefusal_unnamed h, if_neg (fun hx => hout hx.1 hx.2), if_neg (fun hx => hfree hx.1 hx.2.1 hx.2.2)]

/-- What the spare argument leads to when PAGE RETIRE is not refused: the checks pass, and the target is that of a
retirement with the spare named as the preferred one. -/
theorem retireTarget_passes (hm : m.wf) {target : Option Nat} (hk : k < 8192)
    (htarget : (spare ≠ 0xFFFF ∧ m.usable spare.toNat = true ∧ target = some spare.toNat)
      ∨ (spare = 0xFFFF ∧ target = m.lowestUsable))
    (hout : (m.page k).condition = .outOfService → target ≠ none)
    (hfree : (m.page k).condition = .free → target = none → m.freeCount ≠ m.reservedCount) :
    m.retireRefusal k (noneIfAllOnes spare) = none ∧ m.target (noneIfAllOnes spare) = target
    ∧ (noneIfAllOnes spare).or m.lowestUsable = target := by
  rcases htarget with ⟨hne, hu, rfl⟩ | ⟨rfl, rfl⟩
  · rw [noneIfAllOnes_ne hne]
    exact ⟨retireRefusal_usable hm hk hu, if_pos hu, rfl⟩
  · exact ⟨retireRefusal_passes hk hout hfree, rfl, rfl⟩

theorem pageRetire_refused {d : Detail} (h : s.memory.retireRefusal page.toNat (noneIfAllOnes spare) = some d) :
    s.pageRetire page spare = (s, .refused d) := by
  unfold State.pageRetire
  dsimp only
  rw [h]

theorem pageRetire_done (h : s.memory.retireRefusal page.toNat (noneIfAllOnes spare) = none) :
    s.pageRetire page spare =
      ((s.setMemory (s.memory.pageRetire page.toNat (noneIfAllOnes spare)).1).queueNotices
          (s.memory.pageRetire page.toNat (noneIfAllOnes spare)).2,
        .done (((s.memory.pageRetire page.toNat (noneIfAllOnes spare)).1.page page.toNat).retireData page.toNat)) := by
  unfold State.pageRetire
  dsimp only
  rw [h]

/-- The response data of a page that goes to a target, or OUT_OF_SERVICE without one (R146). -/
theorem retireData_movedTo (target : Option Nat) (k : Nat) : (Page.movedTo target).retireData k = match target with
    | some t => 0 :: 1 :: leBytes 2 t ++ [0]
    | none => [2, 0, 0, 0, 0] := by
  cases target <;> rfl

theorem pageRetire_free {spare : Option Nat} (h : (m.page k).condition = .free) :
    m.pageRetire k spare = m.retire k spare .request := by
  unfold FrameMemory.pageRetire
  rw [h]

theorem pageRetire_outOfService {spare : Option Nat} (h : (m.page k).condition = .outOfService) :
    m.pageRetire k spare = (m.setPage k ⟨.free, spare.or m.lowestUsable, none⟩, []) := by
  unfold FrameMemory.pageRetire
  rw [h]
  rfl

/-- A held page takes the mark; a spare named takes the place of the preferred one (R142, R146). -/
theorem pageRetire_held {o : PageOwner} {spare : Option Nat} (h : (m.page k).condition = .held o) :
    m.pageRetire k spare = (m.setPage k ⟨.held o, (m.page k).spare,
      some ⟨spare.or ((m.page k).mark.bind (·.preferred)), (m.page k).mark.any (·.byFetch), true⟩⟩, []) := by
  unfold FrameMemory.pageRetire
  rw [h]
  unfold FrameMemory.markByRequest
  dsimp only
  rw [h]
  cases (m.page k).mark with
  | none => cases spare <;> rfl
  | some mark => rfl

/-- Settles O28: the refusal of the first check that fails; else the action by the page's condition. -/
theorem pageRetireRequest : Obligations.PageRetireRequest := by
  rintro s tag page spare k sp p hready hwf rfl rfl rfl
  have answers : ∀ {x : State × Answer}, s.pageRetire page spare = x →
      exec (.pageRetire tag page spare) s = .next (x.1.placeAnswer tag 0x0702 x.2).endEvent := fun hx =>
    request_answers (r := .pageRetire page spare) hready rfl (by rw [← hx]; rfl)
  refine ⟨fun d hd => answers (pageRetire_refused ?_), fun target hk htarget => ⟨fun hfree hroom => ?_, fun o hheld => ?_,
    fun t hout ht => ?_⟩⟩
  · have named : spare.toNat < 8320 → noneIfAllOnes spare = some spare.toNat := fun h =>
      noneIfAllOnes_ne (ne_allOnes_of_lt h (by decide))
    rcases hd with ⟨hk, rfl⟩ | ⟨hk, hne, hsp, rfl⟩ | ⟨hk, hl, hh, hbad, rfl⟩ | ⟨hk, hl, hh, hbad, hself, rfl⟩
      | ⟨hk, hl, hh, hbad, hself, hassigned, rfl⟩ | ⟨hk, rfl, hnone, rfl, hst⟩
    · unfold FrameMemory.retireRefusal
      exact if_pos hk
    · rw [noneIfAllOnes_ne hne]
      exact retireRefusal_of_named hk (.inl ⟨hsp, rfl⟩)
    · rw [named hh]
      exact retireRefusal_of_named hk (.inr (.inl ⟨hl, hh, hbad, rfl⟩))
    · rw [named hh]
      exact retireRefusal_of_named hk (.inr (.inr (.inl ⟨hl, hh, hbad, hself, rfl⟩)))
    · rw [named hh]
      exact retireRefusal_of_named hk (.inr (.inr (.inr ⟨hl, hh, hbad, hself, hassigned, rfl⟩)))
    · exact retireRefusal_noSpare hk hnone hst
  · obtain ⟨hpasses, hto, -⟩ := retireTarget_passes hwf hk htarget (fun hout => by rw [hfree] at hout; cases hout)
      (fun _ => hroom)
    obtain ⟨hpage, hbad, hnotices, hothers, hcells, hwrong, hreservations, hlow⟩ :=
      FrameMemory.retire_facts hwf page.toNat (noneIfAllOnes spare) .request
    rw [hto] at hpage hnotices
    refine ⟨(s.memory.retire page.toNat (noneIfAllOnes spare) .request).1, ?_, hpage, hothers, fun hnone => ?_,
      fun old hold => ?_, hcells, hwrong, hreservations, hlow⟩
    · rw [answers (pageRetire_done hpasses), pageRetire_free hfree, ← hnotices, hpage, retireData_movedTo]
      rfl
    · rw [hbad, hnone]
      rfl
    · rw [hbad, hold]
      rfl
  · obtain ⟨hpasses, -, -⟩ := retireTarget_passes hwf hk htarget (fun hout => by rw [hheld] at hout; cases hout)
      (fun hfree => by rw [hheld] at hfree; cases hfree)
    have hself := FrameMemory.page_setPage_self hwf page.toNat ⟨.held o, (s.memory.page page.toNat).spare,
      some ⟨(noneIfAllOnes spare).or ((s.memory.page page.toNat).mark.bind (·.preferred)),
        (s.memory.page page.toNat).mark.any (·.byFetch), true⟩⟩
    refine ⟨_, ?_, hself.trans ?_, fun j hj => FrameMemory.page_setPage_ne hwf _ j _ hj, rfl, rfl, rfl, rfl, rfl⟩
    · rw [answers (pageRetire_done hpasses), pageRetire_held hheld, hself]
      rfl
    · unfold noneIfAllOnes
      split <;> rfl
  · obtain ⟨hpasses, -, hto⟩ := retireTarget_passes hwf hk htarget (fun _ => by rw [ht]; exact (nomatch ·))
      (fun hfree => by rw [hout] at hfree; cases hfree)
    have hself := FrameMemory.page_setPage_self hwf page.toNat ⟨.free, some t, none⟩
    refine ⟨_, ?_, hself, fun j hj => FrameMemory.page_setPage_ne hwf _ j _ hj, rfl, rfl, rfl, rfl, rfl⟩
    rw [answers (pageRetire_done hpasses), pageRetire_outOfService hout, hto, ht, hself]
    rfl

end Pages

end Sys2Proof.Proofs

/-! PROOFS. The end of a sent frame (R181 to R183, R185, R186, R193): O60. -/

namespace Sys2Proof.Proofs

open Sys2Proof.Machine

section FrameSent

variable {s : State} {wrong : List Nat}

/-! ## The oldest waiting request (R182) -/

theorem takeRequest_empty (h : s.link.requests = []) : s.takeRequest = s := by
  unfold State.takeRequest
  split
  · next hrequests => rw [h] at hrequests; cases hrequests
  · rfl

theorem takeRequest_oldest {w : Waiting} {rest : List Waiting} (hidle : s.link.inProgress = none)
    (hreplies : s.link.replies.any (fun r => !r.immediate) = false) (h : s.link.requests = w :: rest) :
    s.takeRequest
      = ({ s with link := { s.link with requests := rest } } : State).carryOut w.tag w.request := by
  unfold State.takeRequest Link.processingReply
  rw [h, hidle, hreplies]
  rfl

theorem takeRequest_busy (h : s.link.inProgress ≠ none) : s.takeRequest = s := by
  unfold State.takeRequest
  cases hp : s.link.inProgress with
  | none => exact absurd hp h
  | some p => rfl

theorem takeRequest_answering (h : s.link.replies.any (fun r => !r.immediate) = true) : s.takeRequest = s := by
  unfold State.takeRequest Link.processingReply
  split
  · rw [if_pos h]
  · rfl

/-! ## What leaves with the last byte of a frame (R185) -/

theorem find?_outside_none (h : ∀ b ∈ wrong, b < 545259520 * 8) :
    wrong.find? (fun b => frameMemoryBits ≤ b) = none :=
  List.find?_eq_none.2 (fun b hb hout => absurd (h b hb) (Nat.not_lt.2 (of_decide_eq_true hout)))

/-- A wrong bit outside frame memory is a fault (R135; log 8). -/
theorem frameSent_outside (s : State) (h : ∃ b ∈ wrong, 545259520 * 8 ≤ b) :
    ∃ b ∈ wrong, exec (.frameSent wrong) s = .fault (.outsideFrameMemory b) := by
  obtain ⟨b, hb, hout⟩ := h
  cases hf : wrong.find? (fun b => frameMemoryBits ≤ b) with
  | none => exact absurd (decide_eq_true (p := frameMemoryBits ≤ b) hout) (List.find?_eq_none.1 hf b hb)
  | some x =>
    refine ⟨x, List.mem_of_find?_eq_some hf, ?_⟩
    change execFrameSent wrong s = _
    unfold execFrameSent
    rw [hf]

theorem frameSent_idle (h : ∀ b ∈ wrong, b < 545259520 * 8) (hsending : s.link.sending = none) :
    exec (.frameSent wrong) s = .next s := by
  change execFrameSent wrong s = _
  unfold execFrameSent
  rw [find?_outside_none h, hsending]

theorem frameSent_ends {x : Sending} (h : ∀ b ∈ wrong, b < 545259520 * 8) (hsending : s.link.sending = some x) :
    exec (.frameSent wrong) s
      = .next (((s.setMemory (s.memory.upsets wrong)).finishSending x).takeRequest).endEvent := by
  change execFrameSent wrong s = _
  unfold execFrameSent
  rw [find?_outside_none h, hsending]
  unfold State.frameSent
  rw [show (s.setMemory (s.memory.upsets wrong)).link = s.link from rfl, hsending]

theorem finishSending_notice {n : QueuedNotice} {rest : List QueuedNotice} (h : s.link.notices = n :: rest) :
    s.finishSending .notice = { s with link := { s.link with
      sending := none, lastSent := some .notice, notices := rest } } := by
  unfold State.finishSending
  rw [h]
  rfl

/-- The oldest response leaves; one of request processing lets the request in progress go on (R190, R193). -/
theorem finishSending_response {r : Response} {rest : List Response} (h : s.link.replies = r :: rest) :
    s.finishSending .response =
      if r.immediate then { s with link := { s.link with sending := none, lastSent := some .response, replies := rest } }
      else ({ s with link := { s.link with
        sending := none, lastSent := some .response, replies := rest } } : State).responseSent := by
  unfold State.finishSending
  dsimp only
  rw [h]
  rfl

theorem responseSent_same (h : s.link.inProgress = none ∨ ∃ t c, s.link.inProgress = some (.cameraSense t c)) :
    s.responseSent = s := by
  unfold State.responseSent
  rcases h with h | ⟨t, c, h⟩ <;> rw [h]

theorem responseSent_fetch {f : Fetch} (h : s.link.inProgress = some (.fetch f)) :
    s.responseSent = s.setInProgress (.fetch { f with responseSent := true }) := by
  unfold State.responseSent
  rw [h]

theorem finishSending_goes {r : Response} {rest : List Response} (h : s.link.replies = r :: rest)
    (hgo : r.immediate = true ∨ s.link.inProgress = none ∨ ∃ t c, s.link.inProgress = some (.cameraSense t c)) :
    s.finishSending .response = { s with link := { s.link with
      sending := none, lastSent := some .response, replies := rest } } := by
  rw [finishSending_response h]
  split
  · rfl
  · next himmediate => exact responseSent_same (hgo.resolve_left himmediate)

theorem finishSending_fetch {r : Response} {rest : List Response} {f : Fetch} (h : s.link.replies = r :: rest)
    (hr : r.immediate = false) (hf : s.link.inProgress = some (.fetch f)) :
    s.finishSending .response = { s with link := { s.link with
      sending := none, lastSent := some .response, replies := rest
      inProgress := some (.fetch { f with responseSent := true }) } } := by
  rw [finishSending_response h, if_neg (by rw [hr]; decide)]
  exact responseSent_fetch hf

theorem finishSending_chunk (s : State) (image : ImageChunk) : s.finishSending (.chunk image) =
    { s with link := { s.link with
      sending := none, lastSent := some .imageData
      inProgress := if image.final then none else s.link.inProgress } } := by
  unfold State.finishSending
  dsimp only
  split <;> rfl

/-- Settles O60: the fault; the frame that ends, by its kind; the oldest waiting request. -/
theorem frameIsSent : Obligations.FrameIsSent := by
  intro s wrong
  refine ⟨frameSent_outside s, fun hwrong m hm => ?_, fun hidle hreplies =>
    ⟨takeRequest_empty, fun w rest h => takeRequest_oldest hidle hreplies h⟩,
    fun h => h.elim takeRequest_busy takeRequest_answering⟩
  subst hm
  set t := s.setMemory (s.memory.upsets wrong) with ht
  refine ⟨frameSent_idle hwrong, fun n rest hsending hnotices => ?_, fun r rest hsending hreplies => ⟨fun hgo => ?_,
    fun f himmediate hfetch => ?_⟩, fun image hsending => ?_⟩
  · rw [frameSent_ends hwrong hsending, ← ht, finishSending_notice (s := t) hnotices]
    rfl
  · rw [frameSent_ends hwrong hsending, ← ht, finishSending_goes (s := t) hreplies hgo]
    rfl
  · rw [frameSent_ends hwrong hsending, ← ht, finishSending_fetch (s := t) hreplies himmediate hfetch,
      takeRequest_busy (Option.some_ne_none _)]
    rfl
  · rw [frameSent_ends hwrong hsending, ← ht, finishSending_chunk]
    rfl

end FrameSent

end Sys2Proof.Proofs

/-! PROOFS. The close of an event: the memory-low comparison, and what the comparison and the transmitter's
arbitration leave alone (R150, R185; log 20). -/

namespace Sys2Proof.Proofs
open Sys2Proof.Machine

section Close

variable {s t u : State}

/-! ## The comparison (R149, R150) -/

theorem threshold_eq {threshold : Nat}
    (hbank : ∀ bank, s.activeContents = some bank → threshold = bank.global.threshold.toNat)
    (hcold : s.activeContents = none → threshold = 0) : s.threshold = threshold := by
  unfold State.threshold
  cases h : s.activeContents with
  | none => exact (hcold h).symm
  | some bank => exact (hbank bank h).symm

theorem compareLow_enters (hlow : s.memory.low = false) (hfew : s.memory.freeCount < s.threshold) :
    s.compareLow = (s.setMemory { s.memory with low := true }).queueNotice
      (.memoryLow s.memory.freeCount s.memory.reservedCount s.threshold) :=
  if_pos ⟨hlow, hfew⟩

theorem compareLow_leaves (hlow : s.memory.low = true) (hmany : s.threshold ≤ s.memory.freeCount) :
    s.compareLow = (s.setMemory { s.memory with low := false }).queueNotice
      (.memoryNormal s.memory.freeCount s.memory.reservedCount s.threshold) :=
  (if_neg (fun h => absurd h.2 (Nat.not_lt.2 hmany))).trans (if_pos ⟨hlow, hmany⟩)

theorem compareLow_stays (h : s.memory.low = true ∧ s.memory.freeCount < s.threshold
    ∨ s.memory.low = false ∧ s.threshold ≤ s.memory.freeCount) : s.compareLow = s := by
  unfold State.compareLow
  dsimp only
  rcases h with ⟨hlow, hcount⟩ | ⟨hlow, hcount⟩
  · rw [if_neg (by simp [hlow]), if_neg (by omega)]
  · rw [if_neg (by omega), if_neg (by simp [hlow])]

/-- The comparison changes nothing, or the flag, with a notice. -/
theorem compareLow_cases (s : State) : s.compareLow = s
    ∨ ∃ low n, s.compareLow = (s.setMemory { s.memory with low := low }).queueNotice n := by
  unfold State.compareLow
  dsimp only
  split
  · exact .inr ⟨_, _, rfl⟩
  · split
    · exact .inr ⟨_, _, rfl⟩
    · exact .inl rfl

/-! ## The arbitration (R185) -/

theorem arbitrate_idle (h : s.link.up = false ∨ s.link.sending ≠ none) : s.arbitrate = s := by
  refine if_neg (fun hup => ?_)
  rcases h with h | h
  · exact absurd (h.symm.trans hup.1) (by decide)
  · exact h hup.2

/-! ## What the close leaves alone -/

/-- A passage without what a fetch writes of its shots: the corrected counts and the damaged sets (R141, R194). -/
def unread (p : Passage) : Passage :=
  { p with shots := p.shots.map (fun k : Shot => { k with corrected := 0, damaged := [] }) }

/-- What the close of an event leaves alone, beside what every operation inside an event does (`Keeps`). -/
structure Closes (s t : State) : Prop extends Keeps s t where
  shotQueue : t.shotQueue = s.shotQueue
  fire : t.fire = s.fire
  strobes : t.strobes = s.strobes
  lines : t.lines = s.lines
  readout : t.readout = s.readout
  cells : t.memory.cells = s.memory.cells
  wrong : t.memory.wrong = s.memory.wrong
  badSpares : t.memory.badSpares = s.memory.badSpares
  reservations : t.memory.reservations = s.memory.reservations
  records : t.table.passages.map unread = s.table.passages.map unread
  replies : t.link.replies = s.link.replies
  lastSent : t.link.lastSent = s.link.lastSent

theorem Closes.refl (s : State) : Closes s s :=
  ⟨Keeps.refl s, rfl, rfl, rfl, rfl, rfl, rfl, rfl, rfl, rfl, rfl, rfl, rfl⟩

theorem Closes.trans (h : Closes s t) (k : Closes t u) : Closes s u :=
  ⟨h.toKeeps.trans k.toKeeps, k.shotQueue.trans h.shotQueue, k.fire.trans h.fire, k.strobes.trans h.strobes,
    k.lines.trans h.lines, k.readout.trans h.readout, k.cells.trans h.cells, k.wrong.trans h.wrong,
    k.badSpares.trans h.badSpares, k.reservations.trans h.reservations, k.records.trans h.records,
    k.replies.trans h.replies, k.lastSent.trans h.lastSent⟩

/-- An operation that touches, of what `Closes` speaks of, nothing. -/
theorem Closes.inert (h : Keeps s t) (hq : t.shotQueue = s.shotQueue := by rfl) (hf : t.fire = s.fire := by rfl)
    (hs : t.strobes = s.strobes := by rfl) (hl : t.lines = s.lines := by rfl)
    (hr : t.readout = s.readout := by rfl) (hm : t.memory = s.memory := by rfl) (ht : t.table = s.table := by rfl)
    (hp : t.link.replies = s.link.replies := by rfl) (he : t.link.lastSent = s.link.lastSent := by rfl) :
    Closes s t :=
  ⟨h, hq, hf, hs, hl, hr, by rw [hm], by rw [hm], by rw [hm], by rw [hm], by rw [ht], hp, he⟩

theorem Closes.queueNotice (s : State) (n : Notice) : Closes s (s.queueNotice n) := by
  obtain ⟨-, -, htable, hqueue, hfire, hstrobes, hlines, hreadout, hmemory, -, hreplies, -⟩ := queueNotice_facts s n
  exact .inert (.queueNotice s n) hqueue hfire hstrobes hlines hreadout hmemory htable hreplies
    (Works.queueNotice s n).lastSent

theorem Closes.setLow (s : State) (low : Bool) : Closes s (s.setMemory { s.memory with low := low }) :=
  ⟨.setMemory s id, rfl, rfl, rfl, rfl, rfl, rfl, rfl, rfl, rfl, rfl, rfl, rfl⟩

theorem Closes.compareLow (s : State) : Closes s s.compareLow := by
  rcases compareLow_cases s with h | ⟨low, n, h⟩
  · rw [h]
    exact .refl s
  · rw [h]
    exact (Closes.setLow s low).trans (.queueNotice _ n)

theorem map_unread_changePassage {f : Passage → Passage} (hf : ∀ p, unread (f p) = unread p) (n : Nat)
    (l : List Passage) : (changePassage n f l).map unread = l.map unread := by
  induction l with
  | nil => rfl
  | cons p ps ih =>
    unfold changePassage
    split
    · rw [List.map_cons, hf, List.map_cons]
    · rw [List.map_cons, ih, List.map_cons]

/-- The count of a chunk touches only what a fetch writes of a shot. -/
theorem unread_countChunk (p : Passage) (i segment corrected : Nat) (damaged : Bool) :
    unread (p.modifyShot i (·.countChunk segment corrected damaged)) = unread p := by
  have hshots : ∀ (l : List Shot) (j : Nat),
      (l.modify j (·.countChunk segment corrected damaged)).map
        (fun k : Shot => { k with corrected := 0, damaged := [] })
        = l.map (fun k : Shot => { k with corrected := 0, damaged := [] }) := fun l => by
    induction l with
    | nil => exact fun j => by rw [List.modify_nil]
    | cons k ks ih =>
      intro j
      cases j with
      | zero => rfl
      | succ j => rw [List.modify_succ_cons, List.map_cons, ih, List.map_cons]
  unfold unread Passage.modifyShot
  rw [hshots]

/-- A fetch marks a page and changes nothing else of frame memory (R142). -/
theorem markDamaged_pages (m : FrameMemory) (page : Option Nat) (damaged : Bool) :
    ∃ pages, m.markDamaged page damaged = { m with pages := pages } := by
  unfold FrameMemory.markDamaged FrameMemory.markByFetch
  split
  · split
    · dsimp only
      split
      · exact ⟨_, rfl⟩
      · exact ⟨_, rfl⟩
    · exact ⟨_, rfl⟩
  · exact ⟨_, rfl⟩

theorem Closes.sendChunk (s : State) (f : Fetch) (h : s.link.inProgress ≠ none) : Closes s (s.sendChunk f) := by
  have hkeeps := Keeps.sendChunk s f h
  have hpassages : (s.sendChunk f).table.passages.map unread = s.table.passages.map unread :=
    map_unread_changePassage (fun p => unread_countChunk p ..) f.shot.passage s.table.passages
  obtain ⟨pages, hmem⟩ : ∃ pages, (s.sendChunk f).memory = { s.memory with pages := pages } :=
    markDamaged_pages ..
  exact ⟨hkeeps, rfl, rfl, rfl, rfl, rfl, by rw [hmem], by rw [hmem], by rw [hmem], by rw [hmem], hpassages,
    rfl, rfl⟩

theorem Closes.sendNotice (s : State) : Closes s s.sendNotice := by
  have hkeeps := Keeps.sendNotice s
  unfold State.sendNotice at hkeeps ⊢
  split
  · exact .refl s
  · next hn =>
    rw [hn] at hkeeps
    exact .inert hkeeps

theorem Closes.arbitrate (s : State) : Closes s s.arbitrate := by
  unfold State.arbitrate
  split
  · split
    · exact .sendNotice s
    · split
      · exact .inert (.ofLink s id (fun h => ⟨h, rfl⟩))
      · split
        · next hf => exact .sendChunk s _ (fun hn => by simp [hn] at hf)
        · exact .sendNotice s
  · exact .refl s

theorem Closes.endEvent (s : State) : Closes s s.endEvent := (Closes.compareLow s).trans (.arbitrate _)

/-- The comparison touches neither passages nor page table nor the transmitter. -/
theorem compareLow_silent (s : State) : s.compareLow.table = s.table ∧ s.compareLow.memory.pages = s.memory.pages
    ∧ s.compareLow.link.sending = s.link.sending ∧ s.compareLow.link.inProgress = s.link.inProgress := by
  have hsending := (Works.compareLow s).sending
  rcases compareLow_cases s with h | ⟨low, n, h⟩
  · rw [h]
    exact ⟨rfl, rfl, rfl, rfl⟩
  · rw [h] at hsending ⊢
    obtain ⟨-, -, htable, -, -, -, -, -, hmemory, -, -, hprogress⟩ :=
      queueNotice_facts (s.setMemory { s.memory with low := low }) n
    exact ⟨htable, (congrArg FrameMemory.pages hmemory :), hsending, hprogress⟩

theorem endEvent_silent (h : s.link.up = false ∨ s.link.sending ≠ none) : s.endEvent = s.compareLow := by
  have hworks := Works.compareLow s
  refine arbitrate_idle ?_
  rw [hworks.up, hworks.sending]
  exact h

/-- Settles O17: the comparison by its three cases; both parts leave alone what is named. -/
theorem eventCloseFrame : Obligations.EventCloseFrame := by
  intro s
  have h := Closes.endEvent s
  refine ⟨rfl, fun threshold hbank hcold => ?_, h.clock, h.tracks, h.shotQueue, h.fire, h.strobes, h.lines,
    h.readout, h.banks, h.pending, fun a => congrArg (sparseGet _ · a) h.cells, h.wrong, h.badSpares,
    h.reservations, h.counter, h.records, h.up, h.received, h.requests, h.replies, h.lastSent, fun hsilent => ?_⟩
  · rw [← threshold_eq hbank hcold]
    exact ⟨compareLow_enters, compareLow_leaves, compareLow_stays⟩
  · rw [endEvent_silent hsilent]
    exact compareLow_silent s

end Close

end Sys2Proof.Proofs

/-! PROOFS. The transmitter's arbitration in its order, and a chunk read with its check (R141, R142, R185, R187,
R194): O18. -/

namespace Sys2Proof.Proofs
open Sys2Proof.Machine

section Arbitration

variable {s : State} {m : FrameMemory}

/-! ## The order (R185, R187) -/

theorem sendNotice_oldest {n : QueuedNotice} {rest : List QueuedNotice} (h : s.link.notices = n :: rest) :
    s.sendNotice = { s with link := { s.link with
      notices := { n with dropped := n.dropped || s.link.dropped } :: rest
      dropped := false, sending := some .notice } } := by
  unfold State.sendNotice
  rw [h]

theorem sendNotice_none (h : s.link.notices = []) : s.sendNotice = s := by
  unfold State.sendNotice
  rw [h]

theorem arbitrate_notice (hup : s.link.up = true) (hfree : s.link.sending = none)
    (himage : s.link.lastSent = some .imageData) (hn : s.link.notices ≠ []) : s.arbitrate = s.sendNotice :=
  (if_pos ⟨hup, hfree⟩).trans (if_pos ⟨himage, hn⟩)

/-- Without a notice that goes before it, a response is the first. -/
theorem arbitrate_response (hup : s.link.up = true) (hfree : s.link.sending = none)
    (hn : s.link.lastSent ≠ some .imageData ∨ s.link.notices = []) (hreplies : s.link.replies ≠ []) :
    s.arbitrate = { s with link := { s.link with sending := some .response } } :=
  (if_pos ⟨hup, hfree⟩).trans ((if_neg (not_and_or.2 (hn.imp_right not_not_intro))).trans (if_pos hreplies))

/-- Without a response, a fetch's next chunk goes before a notice. -/
theorem arbitrate_rest (hup : s.link.up = true) (hfree : s.link.sending = none)
    (hn : s.link.lastSent ≠ some .imageData ∨ s.link.notices = []) (hreplies : s.link.replies = []) :
    s.arbitrate = match s.link.inProgress.bind (·.nextChunk) with
      | some f => s.sendChunk f
      | none => s.sendNotice :=
  (if_pos ⟨hup, hfree⟩).trans ((if_neg (not_and_or.2 (hn.imp_right not_not_intro))).trans
    (if_neg (not_not_intro hreplies)))

theorem nextChunk_left {f : Fetch} (hf : s.link.inProgress = some (.fetch f)) (hsent : f.responseSent = true)
    (hnext : f.next < 16 * f.segments) : s.link.inProgress.bind (·.nextChunk) = some f := by
  rw [hf, Option.bind_some]
  exact if_pos (Bool.and_eq_true_iff.2 ⟨hsent, decide_eq_true hnext⟩)

theorem nextChunk_none (h : ∀ f, s.link.inProgress = some (.fetch f) →
    f.responseSent = false ∨ 16 * f.segments ≤ f.next) : s.link.inProgress.bind (·.nextChunk) = none := by
  cases hp : s.link.inProgress with
  | none => rfl
  | some work =>
    rw [Option.bind_some]
    cases work with
    | cameraSense => rfl
    | restart => rfl
    | fetch f =>
      refine if_neg (fun hgo => ?_)
      obtain ⟨hsent, hnext⟩ := Bool.and_eq_true_iff.1 hgo
      have hnext : f.next < 16 * f.segments := of_decide_eq_true hnext
      rcases h f hp with hwaits | hdone
      · exact absurd (hwaits.symm.trans hsent) (by decide)
      · omega

/-! ## A chunk's words, read where they stand (R141) -/

theorem lookup_filter {α : Type} {keep : Nat → Bool} {a : Nat} (ha : keep a = true) (l : List (Nat × α)) :
    (l.filter (fun e => keep e.1)).lookup a = l.lookup a := by
  induction l with
  | nil => rfl
  | cons e l ih =>
    obtain ⟨key, value⟩ := e
    by_cases hkey : a = key
    · subst hkey
      rw [List.filter_cons_of_pos (p := fun e : Nat × α => keep e.1) ha, List.lookup_cons_self, List.lookup_cons_self]
    · have hne : (a == key) = false := beq_false_of_ne hkey
      rw [List.lookup_cons, hne, List.filter_cons]
      split
      · rw [List.lookup_cons, hne]
        exact ih
      · exact ih

/-- A stretch of frame memory holds the bytes it spans. -/
theorem byteAt_slice {base n a : Nat} (hlow : base ≤ a) (hhigh : a < base + n) :
    (m.slice base n).byteAt a = m.byteAt a :=
  congrArg (Option.getD · _) (lookup_filter (keep := fun key => base ≤ key && key < base + n)
    (Bool.and_eq_true_iff.2 ⟨decide_eq_true hlow, decide_eq_true hhigh⟩) m.cells)

/-- A stretch of frame memory holds the wrong bits of a word it spans. -/
theorem wrongBits_slice {base n word : Nat} (hlow : base ≤ word * 8) (hhigh : word * 8 + 8 ≤ base + n) :
    (m.slice base n).wrongBits word = m.wrongBits word := by
  unfold FrameMemory.wrongBits FrameMemory.slice
  dsimp only
  rw [List.filter_filter]
  refine congrArg (List.map _) (List.filter_congr (fun b _ => ?_))
  rw [Bool.and_eq_left_iff_imp]
  intro hword
  have hword : b / 64 = word := of_decide_eq_true hword
  exact Bool.and_eq_true_iff.2 ⟨decide_eq_true (by omega), decide_eq_true (by omega)⟩

theorem readWord_slice {base n word : Nat} (hlow : base ≤ word * 8) (hhigh : word * 8 + 8 ≤ base + n) :
    (m.slice base n).readWord word = m.readWord word := by
  have hbytes : (m.slice base n).wordBytes word = m.wordBytes word :=
    List.map_congr_left (fun i hi => byteAt_slice (by omega) (by have := List.mem_range.1 hi; omega))
  unfold FrameMemory.readWord
  rw [hbytes, wrongBits_slice hlow hhigh]

/-- The 512 words of a chunk, as they are read. -/
def chunkWords (m : FrameMemory) (physical chunk : Nat) : List (WordCheck × List Byte) :=
  (List.range 512).map (fun w => m.readWord (physical * 8192 + chunk * 512 + w))

theorem readChunk_eq (m : FrameMemory) (physical chunk : Nat) : m.readChunk physical chunk =
    ((chunkWords m physical chunk).flatMap (·.2),
      (chunkWords m physical chunk).countP (fun w => w.1 = .corrected),
      (chunkWords m physical chunk).any (fun w => w.1 = .damaged)) := by
  have hwords : (List.range 512).map (fun w =>
      ((m.slice ((physical * 8192 + chunk * 512) * 8) 4096).slice ((physical * 8192 + chunk * 512 + w) * 8) 8).readWord
        (physical * 8192 + chunk * 512 + w)) = chunkWords m physical chunk :=
    List.map_congr_left (fun w hw => by
      have hw := List.mem_range.1 hw
      rw [readWord_slice (Nat.le_refl _) (Nat.le_refl _), readWord_slice (by omega) (by omega)])
  unfold FrameMemory.readChunk
  dsimp only
  rw [hwords]

theorem readPage_held {pg ph chunk : Nat} (h : (m.page pg).physical pg = some ph) :
    m.readPage (some pg) chunk = m.readChunk ph chunk := by
  unfold FrameMemory.readPage
  dsimp only
  rw [h]

theorem pageOf_shot {r : ShotRef} {k : Shot} (h : s.shot? r = some k) (segment : Nat) :
    s.pageOf r segment = k.pages[segment]? := by
  unfold State.pageOf
  rw [h]

/-! ## The mark a damaged chunk leaves (R142) -/

theorem page_markByFetch_self (h : m.wf) (pg : Nat) : (m.markByFetch pg).page pg
    = { m.page pg with mark := some ((m.page pg).mark.getD ⟨none, true, false⟩) } := by
  cases hmark : (m.page pg).mark with
  | none =>
    rw [FrameMemory.markByFetch_unmarked hmark, FrameMemory.page_setPage_self h]
    rfl
  | some mark =>
    rw [FrameMemory.markByFetch_marked hmark, Option.getD_some, ← hmark]

theorem page_markByFetch_ne (h : m.wf) {pg j : Nat} (hj : j ≠ pg) : (m.markByFetch pg).page j = m.page j := by
  cases hmark : (m.page pg).mark with
  | none => rw [FrameMemory.markByFetch_unmarked hmark, FrameMemory.page_setPage_ne h _ _ _ hj]
  | some mark => rw [FrameMemory.markByFetch_marked hmark]

/-! ## A chunk that is started (R141, R194) -/

/-- What the transmitter reads for a fetch's next chunk. -/
def chunkRead (s : State) (f : Fetch) : List Byte × Nat × Bool :=
  s.memory.readPage (s.pageOf f.shot (f.first + f.next / 16)) (f.next % 16)

/-- The chunk it sends. -/
def chunkImage (s : State) (f : Fetch) : ImageChunk :=
  ⟨f.tag, f.shot, f.first + f.next / 16, f.next % 16, f.next, f.next + 1 = f.chunks, (chunkRead s f).2.2,
    (chunkRead s f).1⟩

theorem sendChunk_link (s : State) (f : Fetch) : (s.sendChunk f).link = { s.link with
    inProgress := some (.fetch { f with next := f.next + 1 }), sending := some (.chunk (chunkImage s f)) } := rfl

theorem shot?_sendChunk {f : Fetch} {k : Shot} (hk : s.shot? f.shot = some k) : (s.sendChunk f).shot? f.shot
    = some (k.countChunk (f.first + f.next / 16) (chunkRead s f).2.1 (chunkRead s f).2.2) :=
  shot?_modifyShot_self (s := s.setMemory _) hk _

theorem sendChunk_memory {f : Fetch} {k : Shot} {pg : Nat} (hk : s.shot? f.shot = some k)
    (hpg : k.pages[f.first + f.next / 16]? = some pg) : (s.sendChunk f).memory
    = if (chunkRead s f).2.2 then s.memory.markByFetch pg else s.memory := by
  have hpage : s.pageOf f.shot (f.first + f.next / 16) = some pg := (pageOf_shot hk _).trans hpg
  change s.memory.markDamaged (s.pageOf f.shot (f.first + f.next / 16)) (chunkRead s f).2.2 = _
  rw [hpage]
  rfl

theorem chunkRead_eq {f : Fetch} {k : Shot} {pg ph : Nat} (hk : s.shot? f.shot = some k)
    (hpg : k.pages[f.first + f.next / 16]? = some pg) (hph : (s.memory.page pg).physical pg = some ph) :
    chunkRead s f = s.memory.readChunk ph (f.next % 16) := by
  have hpage : s.pageOf f.shot (f.first + f.next / 16) = some pg := (pageOf_shot hk _).trans hpg
  unfold chunkRead
  rw [hpage]
  exact readPage_held hph

/-- A chunk is read with its check, and what the check finds goes to the shot and its page. -/
theorem sendChunk_checked {f : Fetch} {k : Shot} {pg ph : Nat} {words : List (WordCheck × List Byte)}
    (hwf : s.memory.wf) (hk : s.shot? f.shot = some k) (hpg : k.pages[(chunkImage s f).segment]? = some pg)
    (hph : (s.memory.page pg).physical pg = some ph)
    (hwords : words = (List.range 512).map (fun w =>
      s.memory.readWord (ph * 8192 + (chunkImage s f).chunk * 512 + w))) :
    (chunkImage s f).data = words.flatMap (·.2)
    ∧ ((chunkImage s f).damaged = true ↔ ∃ w ∈ words, w.1 = .damaged)
    ∧ (s.sendChunk f).shot? f.shot = some { k with
        corrected := min 65535 (k.corrected + words.countP (fun w => w.1 = .corrected))
        damaged := if (chunkImage s f).damaged then insertRising (chunkImage s f).segment k.damaged
          else k.damaged }
    ∧ ((chunkImage s f).damaged = false → (s.sendChunk f).memory = s.memory)
    ∧ ((chunkImage s f).damaged = true →
      (s.sendChunk f).memory.page pg = { s.memory.page pg with
        mark := some ((s.memory.page pg).mark.getD ⟨none, true, false⟩) }
      ∧ ∀ j, j ≠ pg → (s.sendChunk f).memory.page j = s.memory.page j) := by
  have hread := (chunkRead_eq hk hpg hph).trans (readChunk_eq s.memory ph (f.next % 16))
  rw [show chunkWords s.memory ph (f.next % 16) = words from hwords.symm] at hread
  have hmemory := sendChunk_memory hk hpg
  have hdamaged : (chunkImage s f).damaged = words.any (fun w => w.1 = .damaged) :=
    congrArg (fun read => read.2.2) hread
  refine ⟨congrArg Prod.fst hread, ?_, ?_, fun hsound => ?_, fun hfound => ?_⟩
  · rw [hdamaged, List.any_eq_true]
    exact exists_congr (fun w => and_congr_right' decide_eq_true_iff)
  · rw [shot?_sendChunk hk, show (chunkRead s f).2.1 = _ from congrArg (fun read => read.2.1) hread]
    rfl
  · exact hmemory.trans (if_neg (Bool.eq_false_iff.1 hsound))
  · rw [hmemory.trans (if_pos hfound)]
    exact ⟨page_markByFetch_self hwf pg, fun j hj => page_markByFetch_ne hwf hj⟩

/-- Settles O18: each rank of the order by its equation; the chunk by its words. -/
theorem arbitrationOrder : Obligations.ArbitrationOrder := by
  intro s
  refine ⟨arbitrate_idle, fun hup hfree => ⟨fun n rest hn himage => ?_, fun hfirst =>
    ⟨arbitrate_response hup hfree hfirst, fun hreplies => ⟨fun f hf hsent hnext => ?_, fun hnone =>
      ⟨fun n rest hn => ?_, fun hn => ?_⟩⟩⟩⟩⟩
  · rw [arbitrate_notice hup hfree himage (hn ▸ List.cons_ne_nil n rest), sendNotice_oldest hn]
  · have hchunk : s.arbitrate = s.sendChunk f := by
      rw [arbitrate_rest hup hfree hfirst hreplies, nextChunk_left hf hsent hnext]
    rw [hchunk, sendChunk_link]
    exact ⟨chunkImage s f, rfl, rfl, rfl, rfl, rfl, rfl, decide_eq_true_iff, rfl,
      fun _ _ _ _ hwf hk hpg hph hwords => sendChunk_checked hwf hk hpg hph hwords⟩
  · rw [arbitrate_rest hup hfree hfirst hreplies, nextChunk_none hnone]
    exact sendNotice_oldest hn
  · rw [arbitrate_rest hup hfree hfirst hreplies, nextChunk_none hnone]
    exact sendNotice_none hn

end Arbitration

end Sys2Proof.Proofs
